-- ==== Sys2Proof/Word.lean ====
section
/-! DEFINITION. The word types of the Damoth instruction set and their plainest arithmetic (spec 00 R3, R5, R9). -/

namespace Sys2Proof

/-- One byte of memory. -/
abbrev Byte := BitVec 8

/-- A 32-bit register of one lane, or an instruction word. -/
abbrev Word := BitVec 32

/-- A uniform register, an address, or a double-word. -/
abbrev DWord := BitVec 64

/-- Bits [hi:lo] of a natural number, as in `bits` of R9. -/
def natBits (x hi lo : Nat) : Nat := (x >>> lo) % 2 ^ (hi + 1 - lo)

/-- Bit `n` of a natural number. -/
def natBit (x n : Nat) : Bool := (x >>> n) % 2 = 1

/-- The integer that the low `n` bits of `x` hold in two's complement (`sext` of R9). -/
def natSext (x n : Nat) : Int :=
  let y := x % 2 ^ n
  if 2 * y < 2 ^ n then (y : Int) else (y : Int) - (2 ^ n : Nat)

/-- An integer reduced modulo 2^n to its bit pattern. -/
def intMod (x : Int) (n : Nat) : Nat := (x % ((2 ^ n : Nat) : Int)).toNat

/-- The little-endian bytes of a natural number, `n` of them (R3). -/
def leBytes (x : Nat) : Nat → List Byte
  | 0 => []
  | n + 1 => BitVec.ofNat 8 x :: leBytes (x / 256) n

/-- The natural number that little-endian bytes hold (R3). -/
def leNat : List Byte → Nat
  | [] => 0
  | b :: bs => b.toNat + 256 * leNat bs

/-- One when the proposition holds, else zero. -/
def bit01 (b : Bool) : Nat := if b then 1 else 0

/-- Population count over the low `n` bits. -/
def popCount (x : Nat) : Nat → Nat
  | 0 => 0
  | n + 1 => x % 2 + popCount (x / 2) n

/-- The numbers 0 to 31: the lanes of a crew. -/
def lanes32 : List Nat := List.range 32

/-- The numbers 0 to 7: the slices of a crew. -/
def slices8 : List Nat := List.range 8

/-- Ceiling division. -/
def ceilDiv (a b : Nat) : Nat := (a + b - 1) / b

end Sys2Proof
end

