-- ==== Sys2Proof/Config.lean ====
section
/-! DEFINITION. What the spec leaves open or to an implementation: constants without a body, of which nothing can be
proved (log 7 to 11, 19), and the fixed figures of the module. -/

namespace Sys2Proof.Config

/-- The free values: the n-th value that the spec leaves open (log 8). The step applies it to the counter of the state. -/
opaque freeValue : Nat → BitVec 64

/-- Whether the host's location accepts an AtomicOp: address, operation (0 FetchAdd, 1 Swap, 2 CAS), width in bytes
(10 R222; log 9). -/
opaque hostAccepts : Nat → Nat → Nat → Bool

/-- What the host's translation agent answers at a time for an untranslated page: the translated page, or a denial (08 R181; log
50). -/
opaque atsTranslate : Nat → Nat → Option Nat

/-- The ticks that a core cycle takes beyond one while the clock is lowered (01 R22, R23; log 52). -/
opaque slowTicks : Nat → Nat

/-- An ECDSA P-384 signature verifies over a digest (12 R277; log 10). -/
opaque ecdsaVerifies : BitVec 384 → List Byte → Bool

/-- An LMS signature verifies over a digest (12 R277; log 10). -/
opaque lmsVerifies : BitVec 384 → List Byte → Bool

/-- The bytes of an SPDM measurement response: the request, the measurements and the LMS leaf used (12 R279; log 10). -/
opaque spdmResponse : List Byte → List (BitVec 384) → Nat → List Byte

/-- The address at which SYSCALL enters service level, fixed by firmware at boot (25 R421; log 7). -/
opaque serviceEntry : BitVec 64

/-- The address at which the firmware thread starts (log 7). -/
opaque firmwareEntry : BitVec 64

/-- The tenant whose context the firmware thread runs in (log 7). -/
opaque firmwareTenant : Nat

/-- A hardware thread, numbered 8 × service core + thread, is started by firmware (log 7). -/
opaque threadRuns : Nat → Bool

/-- The tenant whose context a thread starts in (log 7). -/
opaque threadTenant : Nat → Nat

/-- The address at which a thread starts (log 7). -/
opaque threadEntry : Nat → BitVec 64

/-- A thread starts at service level, else at user level (log 7). -/
opaque threadService : Nat → Bool

/-- The measurements that the firmware's later loads extend into registers 1 to 7 (12 R277; log 10). -/
opaque laterLoads : Nat → List (BitVec 384)

/-- A block of the module has snapshot registers (12 R281; log 19). -/
opaque snapUsed : Nat → Bool

/-- The count of a block's snapshot registers, taken modulo 64 (12 R281; log 19). -/
opaque snapCount : Nat → Nat

/-- The layout version of a block's snapshot region (12 R281; log 19). -/
opaque snapVersion : Nat → BitVec 8

/-- Ticks in a microsecond: cycles of the full core clock (00 R4; 01 R23). -/
def usec : Nat := 2100

/-- Bytes of DRAM in one stack: twelve layers of 8 GiB (01). -/
def stackBytes : Nat := 96 * 2 ^ 30

/-- The address that names byte 0 of the physical function's BAR0 in a HOST_READ (22 R348; log 60). -/
def bar0 : Nat := 2 ^ 52

/-- The most bytes of scratchpad carve on a core (02 R27). -/
def scratchMax : Nat := 1572864

/-- Bytes of an operand slot (06 R122). -/
def slotBytes : Nat := 49152

/-- Offset of the sidecar in a slot (06 R122). -/
def sidecar : Nat := 0x9000

end Sys2Proof.Config
end

