-- ==== Sys2Proof/Machine/Numbers.lean ====
section
/-! DEFINITION. Number formats and exact arithmetic (spec 05 R98 to R111): dyadic values, rounding into a format, the
special functions of 22 R358. -/

namespace Sys2Proof.Machine

/-- A rounding mode (05 R105). -/
inductive Rnd where
  | rn | rz | ru | rd
  deriving DecidableEq, Repr

/-- The mode that the RND field names (05 R105). -/
def Rnd.ofField (x : BitVec 2) : Rnd :=
  match x with
  | 0 => .rn
  | 1 => .rz
  | 2 => .ru
  | 3 => .rd

/-- The type codes of the prefix (14 R297) other than Default. -/
inductive Ty where
  | f64 | f32 | f16 | bf16 | e5m2 | e4m3 | e2m1 | si8 | si16 | si32 | si64 | ui32 | ui64 | b64 | b128 | b32
  deriving DecidableEq, Repr

/-- The type that a non-zero code names; code 0 is the given default (14 R297, R298). -/
def Ty.ofCode (dflt : Ty) (x : BitVec 4) : Ty :=
  match x with
  | 0 => dflt
  | 1 => .f64
  | 2 => .f32
  | 3 => .f16
  | 4 => .bf16
  | 5 => .e5m2
  | 6 => .e4m3
  | 7 => .e2m1
  | 8 => .si8
  | 9 => .si16
  | 10 => .si32
  | 11 => .si64
  | 12 => .ui32
  | 13 => .ui64
  | 14 => .b64
  | _ => .b128

/-- The width of a type in bits (05 R98). -/
def Ty.width : Ty → Nat
  | .f64 | .si64 | .ui64 | .b64 => 64
  | .f32 | .si32 | .ui32 | .b32 => 32
  | .f16 | .bf16 | .si16 => 16
  | .e5m2 | .e4m3 | .si8 => 8
  | .e2m1 => 4
  | .b128 => 128

/-- The type is a signed integer. -/
def Ty.signed : Ty → Bool
  | .si8 | .si16 | .si32 | .si64 => true
  | _ => false

/-- A floating format: exponent width, mantissa width, bias, the largest finite magnitude code, whether it has infinities
and whether it has NaNs (05 R98, R100). -/
structure Fmt where
  ew : Nat
  mw : Nat
  bias : Nat
  maxCode : Nat
  hasInf : Bool
  hasNan : Bool
  canon : Nat
  deriving DecidableEq, Repr

/-- Binary64 (05 R100). -/
def Fmt.f64 : Fmt := ⟨11, 52, 1023, 0x7FEFFFFFFFFFFFFF, true, true, 0x7FF8000000000000⟩
/-- Binary32 (05 R100). -/
def Fmt.f32 : Fmt := ⟨8, 23, 127, 0x7F7FFFFF, true, true, 0x7FC00000⟩
/-- Binary16 (05 R100). -/
def Fmt.f16 : Fmt := ⟨5, 10, 15, 0x7BFF, true, true, 0x7E00⟩
/-- BF16 (05 R100). -/
def Fmt.bf16 : Fmt := ⟨8, 7, 127, 0x7F7F, true, true, 0x7FC0⟩
/-- E5M2 (05 R100). -/
def Fmt.e5m2 : Fmt := ⟨5, 2, 15, 0x7B, true, true, 0x7E⟩
/-- E4M3 (05 R100). -/
def Fmt.e4m3 : Fmt := ⟨4, 3, 7, 0x7E, false, true, 0x7F⟩
/-- E2M1 (05 R100, R101). -/
def Fmt.e2m1 : Fmt := ⟨2, 1, 1, 7, false, false, 0⟩

/-- The floating format of a type, if it is one. -/
def Ty.fmt : Ty → Option Fmt
  | .f64 => some .f64
  | .f32 => some .f32
  | .f16 => some .f16
  | .bf16 => some .bf16
  | .e5m2 => some .e5m2
  | .e4m3 => some .e4m3
  | .e2m1 => some .e2m1
  | _ => none

/-- The bit of the sign of a format. -/
def Fmt.signBit (f : Fmt) : Nat := 2 ^ (f.ew + f.mw)

/-- A code with its sign. -/
def Fmt.signed (f : Fmt) (neg : Bool) (code : Nat) : Nat := if neg then f.signBit + code else code

/-- A dyadic value (−1)^neg × m × 2^e; a zero keeps its sign. -/
structure Dy where
  neg : Bool
  m : Nat
  e : Int
  deriving DecidableEq, Repr

/-- What a floating code stands for. -/
inductive FVal where
  | nan
  | inf (neg : Bool)
  | fin (d : Dy)
  deriving DecidableEq, Repr

/-- The value of a code (05 R100). -/
def Fmt.value (f : Fmt) (code : Nat) : FVal :=
  let neg := natBit code (f.ew + f.mw)
  let e := natBits code (f.ew + f.mw - 1) f.mw
  let m := code % 2 ^ f.mw
  if f.hasInf && e = 2 ^ f.ew - 1 then (if m = 0 then .inf neg else .nan)
  else if f.hasNan && !f.hasInf && e = 2 ^ f.ew - 1 && m = 2 ^ f.mw - 1 then .nan
  else if e = 0 then .fin ⟨neg, m, 1 - (f.bias : Int) - f.mw⟩
  else .fin ⟨neg, 2 ^ f.mw + m, (e : Int) - f.bias - f.mw⟩

/-- The value's sign. -/
def FVal.neg : FVal → Bool
  | .nan => false
  | .inf n => n
  | .fin d => d.neg

/-- The value with its sign flipped; a NaN stays a NaN (22 R355). -/
def FVal.flip : FVal → FVal
  | .nan => .nan
  | .inf n => .inf (!n)
  | .fin d => .fin { d with neg := !d.neg }

/-! ### Flags -/

/-- IV of FLAGS (05 R112). -/
def flIV : BitVec 5 := 16
/-- DZ of FLAGS. -/
def flDZ : BitVec 5 := 8
/-- OF of FLAGS. -/
def flOF : BitVec 5 := 4
/-- UF of FLAGS. -/
def flUF : BitVec 5 := 2
/-- NX of FLAGS. -/
def flNX : BitVec 5 := 1

/-- A result: its code and the flags it raises. -/
structure FRes where
  code : Nat
  fl : BitVec 5 := 0
  deriving DecidableEq, Repr

/-- The flag when the condition holds. -/
def flIf (b : Bool) (f : BitVec 5) : BitVec 5 := if b then f else 0

/-! ### Rounding (05 R105 to R108, R113) -/

/-- The number of significant bits. -/
def bitLen (m : Nat) : Nat := if m = 0 then 0 else Nat.log2 m + 1

/-- The magnitude m × 2^e, with `sticky` when the exact one lies strictly between m and m + 1 units, rounded to a multiple
of 2^q by the mode: the multiple, and whether it is inexact. -/
def roundAt (mode : Rnd) (neg : Bool) (m : Nat) (e : Int) (sticky : Bool) (q : Int) : Nat × Bool :=
  if q ≤ e then (m * 2 ^ (e - q).toNat, sticky)
  else
    let sh := (q - e).toNat
    if bitLen m + 1 < sh then
      let inexact := m != 0 || sticky
      let up := (mode == .ru && !neg && inexact) || (mode == .rd && neg && inexact)
      (bit01 up, inexact)
    else
      let n := m >>> sh
      let rem := m % 2 ^ sh
      let half := 2 ^ (sh - 1)
      let inexact := rem != 0 || sticky
      let up :=
        match mode with
        | .rn => rem > half || (rem == half && (sticky || n % 2 == 1))
        | .rz => false
        | .ru => !neg && inexact
        | .rd => neg && inexact
      (n + bit01 up, inexact)

/-- The overflow result of R108 for a sign: the infinity, the canonical NaN of E4M3, or the largest finite value. -/
def overflow (f : Fmt) (mode : Rnd) (sat neg : Bool) : Nat :=
  let away :=
    match mode with
    | .rn => true
    | .rz => false
    | .ru => !neg
    | .rd => neg
  if sat || !away || (!f.hasInf && !f.hasNan) then f.signed neg f.maxCode
  else if f.hasInf then f.signed neg (f.maxCode + 1)
  else f.canon

/-- Rounds an exact magnitude (see `roundAt`) once into a format, with the flags of R113. -/
def roundTo (f : Fmt) (mode : Rnd) (sat neg : Bool) (m : Nat) (e : Int) (sticky : Bool) : FRes :=
  if m = 0 && !sticky then ⟨f.signed neg 0, 0⟩
  else
    let qmin := 1 - (f.bias : Int) - f.mw
    let qu := (bitLen m : Int) + e - 1 - f.mw
    let q := max qu qmin
    let (n, inexact) := roundAt mode neg m e sticky q
    let code := (q - qmin).toNat * 2 ^ f.mw + n
    if code > f.maxCode then ⟨overflow f mode sat neg, flOF ||| flNX⟩
    else
      let (n', _) := roundAt mode neg m e sticky qu
      let tiny := qu + 1 < qmin || (qu + 1 == qmin && n' < 2 ^ (f.mw + 1))
      ⟨f.signed neg code, flIf inexact flNX ||| flIf (inexact && tiny) flUF⟩

/-- Rounds a dyadic value into a format. -/
def roundDy (f : Fmt) (mode : Rnd) (sat : Bool) (d : Dy) : FRes := roundTo f mode sat d.neg d.m d.e false

/-- The canonical NaN of a format as a result. -/
def nanRes (f : Fmt) (fl : BitVec 5) : FRes := ⟨f.canon, fl⟩

/-- The infinity of a format that has one. -/
def infCode (f : Fmt) (neg : Bool) : Nat := f.signed neg (f.maxCode + 1)

/-- A value written into a format: R108, with its special sources. -/
def convertTo (f : Fmt) (mode : Rnd) (sat : Bool) (v : FVal) : FRes :=
  match v with
  | .nan => if f.hasNan then ⟨f.canon, 0⟩ else ⟨0, flIV⟩
  | .inf neg =>
    if f.hasInf then ⟨if sat then f.signed neg f.maxCode else infCode f neg, 0⟩
    else if f.hasNan && !sat then ⟨f.canon, flOF⟩
    else ⟨f.signed neg f.maxCode, flOF⟩
  | .fin d => roundDy f mode sat d

/-! ### Exact arithmetic -/

/-- A signed integer scaled by 2^e, for sums. -/
def Dy.toInt (d : Dy) (e : Int) : Int :=
  let m : Int := (d.m * 2 ^ (d.e - e).toNat : Nat)
  if d.neg then -m else m

/-- The exact sum, with the sign of an exact zero given by the mode (22 R356). -/
def Dy.add (mode : Rnd) (a b : Dy) : Dy :=
  let e := min a.e b.e
  let s := a.toInt e + b.toInt e
  if s = 0 then
    ⟨if a.m = 0 && b.m = 0 && a.neg == b.neg then a.neg else mode == .rd, 0, e⟩
  else ⟨decide (s < 0), s.natAbs, e⟩

/-- The exact product. -/
def Dy.mul (a b : Dy) : Dy := ⟨a.neg != b.neg, a.m * b.m, a.e + b.e⟩

/-- The value a ≤ b compared as reals: negative, zero or positive difference a − b. -/
def Dy.sub (a b : Dy) : Int :=
  let e := min a.e b.e
  a.toInt e - b.toInt e

/-- a + b in a format (22 R356). -/
def fadd (f : Fmt) (mode : Rnd) (a b : FVal) : FRes :=
  match a, b with
  | .nan, _ | _, .nan => nanRes f 0
  | .inf x, .inf y => if x == y then ⟨infCode f x, 0⟩ else nanRes f flIV
  | .inf x, .fin _ => ⟨infCode f x, 0⟩
  | .fin _, .inf y => ⟨infCode f y, 0⟩
  | .fin x, .fin y => roundDy f mode false (x.add mode y)

/-- The product as a value: infinities and signs as IEEE, none for 0 × ∞. -/
def fprod (a b : FVal) : Option FVal :=
  match a, b with
  | .nan, _ | _, .nan => some .nan
  | .inf x, .inf y => some (.inf (x != y))
  | .inf x, .fin y | .fin y, .inf x => if y.m = 0 then none else some (.inf (x != y.neg))
  | .fin x, .fin y => some (.fin (x.mul y))

/-- a × b in a format (22 R356). -/
def fmul (f : Fmt) (mode : Rnd) (a b : FVal) : FRes :=
  match fprod a b with
  | none => nanRes f flIV
  | some .nan => nanRes f 0
  | some (.inf n) => ⟨infCode f n, 0⟩
  | some (.fin d) => roundDy f mode false d

/-- a × b + c in a format, the product not rounded (22 R356). -/
def ffma (f : Fmt) (mode : Rnd) (a b c : FVal) : FRes :=
  match fprod a b with
  | none => nanRes f flIV
  | some p => fadd f mode p c

/-- The order of two finite or infinite values: a < b, with −0 below +0 when `zeros`. -/
def flt (zeros : Bool) (a b : FVal) : Bool :=
  match a, b with
  | .nan, _ | _, .nan => false
  | .inf x, .inf y => x && !y
  | .inf x, .fin _ => x
  | .fin _, .inf y => !y
  | .fin x, .fin y =>
    if x.sub y = 0 then zeros && x.m = 0 && x.neg && !y.neg else decide (x.sub y < 0)

/-- The values are equal as numbers (−0 equals +0). -/
def feq (a b : FVal) : Bool :=
  match a, b with
  | .nan, _ | _, .nan => false
  | .inf x, .inf y => x == y
  | .fin x, .fin y => decide (x.sub y = 0)
  | _, _ => false

/-- FMIN and FMAX on codes of one format (05 R111). -/
def fminmax (f : Fmt) (isMax : Bool) (ca cb : Nat) : Nat :=
  match f.value ca, f.value cb with
  | .nan, .nan => f.canon
  | .nan, _ => cb
  | _, .nan => ca
  | a, b => if isMax then (if flt true a b then cb else ca) else (if flt true b a then cb else ca)

/-- The value rounded to an integer by the mode: the integer and whether it is inexact. -/
def Dy.roundInt (mode : Rnd) (d : Dy) : Int × Bool :=
  let (n, x) := roundAt mode d.neg d.m d.e false 0
  (if d.neg then -(n : Int) else n, x)

/-- FRND in a format (22 R361). -/
def frnd (f : Fmt) (mode : Rnd) (code : Nat) : FRes :=
  match f.value code with
  | .nan => nanRes f 0
  | .inf _ => ⟨code, 0⟩
  | .fin d =>
    if d.m = 0 || 0 ≤ d.e then ⟨code, 0⟩
    else
      let (n, x) := roundAt mode d.neg d.m d.e false 0
      ⟨(roundTo f .rn false d.neg n 0 false).code, flIf x flNX⟩

/-- The quotient a / b of magnitudes with a sticky bit, b not zero: the number of 2^-k units. -/
def divUnits (a b k : Nat) : Nat × Bool := (a * 2 ^ k / b, a * 2 ^ k % b != 0)

/-- The integer square root, bit by bit from bit `i − 1`. -/
def isqrtGo (x : Nat) : Nat → Nat → Nat
  | 0, r => r
  | i + 1, r =>
    let t := r + 2 ^ i
    isqrtGo x i (if t * t ≤ x then t else r)

/-- The integer square root. -/
def isqrt (x : Nat) : Nat := isqrtGo x (bitLen x / 2 + 1) 0

/-! ### Special functions (22 R358, R359) -/

/-- FRCP. -/
def frcp (f : Fmt) (mode : Rnd) (v : FVal) : FRes :=
  match v with
  | .nan => nanRes f 0
  | .inf n => ⟨f.signed n 0, 0⟩
  | .fin d =>
    if d.m = 0 then ⟨infCode f d.neg, flDZ⟩
    else
      let k := bitLen d.m + 64
      let (q, st) := divUnits 1 d.m k
      roundTo f mode false d.neg q (-(k : Int) - d.e) st

/-- The exponent made even and the mantissa long: m × 2^e as m' × 4^h. -/
def evenScale (m : Nat) (e : Int) (bits : Nat) : Nat × Int :=
  let t := bits + (e - bits) % 2 |>.toNat
  (m * 2 ^ t, (e - t) / 2)

/-- FSQRT. -/
def fsqrt (f : Fmt) (mode : Rnd) (v : FVal) : FRes :=
  match v with
  | .nan => nanRes f 0
  | .inf n => if n then nanRes f flIV else ⟨infCode f false, 0⟩
  | .fin d =>
    if d.m = 0 then ⟨f.signed d.neg 0, 0⟩
    else if d.neg then nanRes f flIV
    else
      let (m, h) := evenScale d.m d.e 128
      let r := isqrt m
      roundTo f mode false false r h (r * r != m)

/-- FRSQ. -/
def frsq (f : Fmt) (mode : Rnd) (v : FVal) : FRes :=
  match v with
  | .nan => nanRes f 0
  | .inf n => if n then nanRes f flIV else ⟨f.signed false 0, 0⟩
  | .fin d =>
    if d.m = 0 then ⟨infCode f d.neg, flDZ⟩
    else if d.neg then nanRes f flIV
    else
      let (m, h) := evenScale d.m d.e 0
      let k := bitLen m + 64
      let r := isqrt (2 ^ (2 * k) / m)
      roundTo f mode false false r (-(k : Int) - h) (r * r * m != 2 ^ (2 * k))

/-- The value is an integer. -/
def Dy.isInt (d : Dy) : Bool := 0 ≤ d.e || d.m % 2 ^ (-d.e).toNat == 0 || d.m == 0

/-- The floor of a dyadic value. -/
def Dy.floor (d : Dy) : Int := (d.roundInt .rd).1

/-- The rounding of an irrational magnitude that lies strictly between two dyadic bounds with one exponent, when both
round alike. -/
def roundBetween (f : Fmt) (mode : Rnd) (neg : Bool) (lo hi : Nat) (e : Int) : Option FRes :=
  let a := roundTo f mode false neg lo e true
  let b := roundTo f mode false neg (hi - 1) e true
  if a = b then some a else none

/-- 2^f in units of 2^-p for a fraction given by its bits, highest first: bounds, by a chain of square roots. -/
def exp2Go (p : Nat) : List Bool → Nat → Nat → Nat → Nat → Nat × Nat
  | [], _, _, lo, hi => (lo, hi)
  | b :: bs, slo, shi, lo, hi =>
    let lo' := if b then lo * slo / 2 ^ p else lo
    let hi' := if b then hi * shi / 2 ^ p + 1 else hi
    exp2Go p bs (isqrt (slo * 2 ^ p)) (isqrt (shi * 2 ^ p) + 1) lo' hi'

/-- The low `n` bits of a number, highest first. -/
def bitsDown (x : Nat) : Nat → List Bool
  | 0 => []
  | n + 1 => natBit x n :: bitsDown x n

/-- FEXP2 of a finite value, none when no precision tried decides the rounding (log 11). -/
def exp2Fin (f : Fmt) (mode : Rnd) (d : Dy) : Option FRes :=
  let n := d.floor
  if d.isInt then some (roundTo f mode false false 1 n false)
  else
    let k := (-d.e).toNat
    let frac := (d.toInt d.e - n * (2 ^ k : Nat)).toNat
    [k + 64, 2 * k + 256].findSome? fun p =>
      let s1 := isqrt (2 * 2 ^ (2 * p))
      let (lo, hi) := exp2Go p (bitsDown frac k) s1 (s1 + 1) (2 ^ p) (2 ^ p)
      roundBetween f mode false lo hi (n - p)

/-- The first `n` binary digits of log2 y for y in [1, 2) between two bounds in units of 2^-p, or none. -/
def log2Go (p : Nat) : Nat → Nat → Nat → Nat → Option Nat
  | 0, _, _, acc => some acc
  | n + 1, lo, hi, acc =>
    let lo2 := lo * lo / 2 ^ p
    let hi2 := hi * hi / 2 ^ p + 1
    if 2 * 2 ^ p ≤ lo2 then log2Go p n (lo2 / 2) (hi2 / 2 + 1) (2 * acc + 1)
    else if hi2 < 2 * 2 ^ p then log2Go p n lo2 hi2 (2 * acc)
    else none

/-- FLOG2 of a positive value, none when no precision tried decides (log 11). -/
def log2Fin (f : Fmt) (mode : Rnd) (d : Dy) : Option FRes :=
  let l := bitLen d.m
  let ex : Int := (l : Int) - 1 + d.e
  if d.m = 2 ^ (l - 1) then
    some (roundTo f mode false (decide (ex < 0)) ex.natAbs 0 false)
  else
    [256, 512].findSome? fun p =>
      let y := d.m * 2 ^ (p + 1 - l)
      match log2Go p 96 y y 0 with
      | none => none
      | some b =>
        let n : Int := ex * (2 ^ 96 : Nat) + b
        if 0 ≤ n then some (roundTo f mode false false n.toNat (-96) true)
        else some (roundTo f mode false true (n.natAbs - 1) (-96) true)

/-- Bounds of a cosine and a sine in units of 2^-p. -/
structure Rot where
  clo : Nat
  chi : Nat
  slo : Nat
  shi : Nat

/-- The rotation by half the angle. -/
def Rot.half (p : Nat) (r : Rot) : Rot :=
  { clo := isqrt ((2 ^ p + r.clo) * 2 ^ p / 2), chi := isqrt ((2 ^ p + r.chi) * 2 ^ p / 2) + 1
    slo := isqrt ((2 ^ p - r.chi) * 2 ^ p / 2), shi := isqrt ((2 ^ p - r.clo) * 2 ^ p / 2 + 1) + 1 }

/-- The rotation by the sum of two angles whose sum is at most a right angle. -/
def Rot.mul (p : Nat) (a b : Rot) : Rot :=
  let u := 2 ^ p
  { clo := a.clo * b.clo / u - (a.shi * b.shi / u + 1), chi := a.chi * b.chi / u + 1 - a.slo * b.slo / u
    slo := a.slo * b.clo / u + a.clo * b.slo / u, shi := a.shi * b.chi / u + a.chi * b.shi / u + 2 }

/-- The rotation by π × t for t in [0, 1/2] given by its bits below the first fraction bit, highest first. -/
def rotGo (p : Nat) : List Bool → Rot → Rot → Rot
  | [], _, acc => acc
  | b :: bs, r, acc => rotGo p bs (r.half p) (if b then acc.mul p r else acc)

/-- sin(π t) for a dyadic t: `num` units of 2^-k, taken modulo 2; the sign of a zero is given. -/
def sinpiUnits (f : Fmt) (mode : Rnd) (zneg neg : Bool) (num k : Nat) : Option FRes :=
  let r := num % 2 ^ (k + 1)
  let sgn := neg != decide (2 ^ k ≤ r)
  let r1 := r % 2 ^ k
  let t := if 2 * r1 > 2 ^ k then 2 ^ k - r1 else r1
  if t = 0 then some ⟨f.signed zneg 0, 0⟩
  else if 2 * t = 2 ^ k then some (roundTo f mode false sgn 1 0 false)
  else
    [2 * k + 96, 4 * k + 384].findSome? fun p =>
      let r0 : Rot := { clo := 0, chi := 0, slo := 2 ^ p, shi := 2 ^ p }
      let one : Rot := { clo := 2 ^ p, chi := 2 ^ p, slo := 0, shi := 0 }
      let a := rotGo p (bitsDown t k) r0 one
      roundBetween f mode sgn a.slo a.shi (-(p : Int))

/-- FSINPI of a finite value. -/
def sinpiFin (f : Fmt) (mode : Rnd) (d : Dy) : Option FRes :=
  sinpiUnits f mode d.neg d.neg (d.m * 2 ^ d.e.toNat) (-d.e).toNat

/-- FCOSPI of a finite value: the sine of the angle and a right angle more. -/
def cospiFin (f : Fmt) (mode : Rnd) (d : Dy) : Option FRes :=
  let k := (-d.e).toNat + 1
  sinpiUnits f mode false false (d.m * 2 ^ d.e.toNat * 2 + 2 ^ (k - 1)) k

/-! ### E3M5 scales and quantisation (05 R102, R116, R117) -/

/-- The value of an E3M5 code other than 0xFF, as a dyadic. -/
def e3m5 (c : Nat) : Dy :=
  let e := natBits c 7 5
  let m := c % 32
  if e = 0 then ⟨false, m, -8⟩ else ⟨false, 32 + m, (e : Int) - 9⟩

/-- x divided by the scale, rounded RN to E2M1 and saturating to ±6 (05 R116). -/
def quantise (x : FVal) (sc : Nat) : Nat :=
  match x with
  | .nan => 0
  | .inf n => Fmt.e2m1.signed n 7
  | .fin d =>
    let s := e3m5 sc
    if d.m = 0 || s.m = 0 then Fmt.e2m1.signed d.neg 0
    else
      let k := bitLen s.m + 64
      let (q, st) := divUnits d.m s.m k
      (roundTo .e2m1 .rn true d.neg q (d.e - s.e - k) st).code

/-- The largest magnitude of a list of values, none when one is infinite. -/
def maxMag : List FVal → Option Dy
  | [] => some ⟨false, 0, 0⟩
  | v :: vs =>
    match v, maxMag vs with
    | .fin d, some m => if Dy.sub ⟨false, d.m, d.e⟩ m > 0 then some ⟨false, d.m, d.e⟩ else some m
    | _, _ => none

/-- QPACK of eight F32 codes: the packed codes, the scale and the flags (05 R116). -/
def qpack (xs : List Nat) : Nat × Nat × BitVec 5 :=
  let vs := xs.map Fmt.f32.value
  if vs.any (· == .nan) then (0, 0xFF, flIV)
  else
    match maxMag vs with
    | some ⟨_, 0, _⟩ => (0, 0, 0)
    | mx =>
      let sc :=
        match mx with
        | none => 0xFE
        | some m =>
          ((List.range 254).map (· + 1)).find? (fun c => decide (0 ≤ Dy.sub (Dy.mul (e3m5 c) ⟨false, 6, 0⟩) m))
            |>.getD 0xFE
      let qs := vs.map (quantise · sc)
      let six : Dy := Dy.mul (e3m5 sc) ⟨false, 6, 0⟩
      let beyond := vs.any fun v =>
        match v with
        | .fin d => decide (Dy.sub ⟨false, d.m, d.e⟩ six > 0)
        | _ => true
      let inexact := (vs.zip qs).any fun (v, q) =>
        match v, Fmt.e2m1.value q with
        | .fin d, .fin y => decide (Dy.sub (y.mul (e3m5 sc)) d ≠ 0)
        | _, _ => true
      (qs.foldr (fun q acc => q + 16 * acc) 0, sc, flIf beyond flOF ||| flIf inexact flNX)

/-- QUNPK: the eight F32 codes and the flags (05 R117). -/
def qunpk (codes sc : Nat) : List Nat × BitVec 5 :=
  if sc % 256 = 255 then (List.replicate 8 Fmt.f32.canon, flIV)
  else
    ((List.range 8).map fun i =>
      match Fmt.e2m1.value (codes >>> (4 * i) % 16) with
      | .fin d => (roundDy .f32 .rn false (d.mul (e3m5 (sc % 256)))).code
      | _ => Fmt.f32.canon, 0)

/-! ### Conversions (22 R351, R352; 05 R108, R109) -/

/-- The least and the greatest value of an integer type. -/
def Ty.range (t : Ty) : Int × Int :=
  if t.signed then (-(2 ^ (t.width - 1) : Nat), (2 ^ (t.width - 1) : Nat) - 1) else (0, (2 ^ t.width : Nat) - 1)

/-- An integer pattern read as a type. -/
def Ty.intVal (t : Ty) (x : Nat) : Int := if t.signed then natSext x t.width else (x % 2 ^ t.width : Nat)

/-- The value of an integer as a dyadic. -/
def Dy.ofInt (x : Int) : Dy := ⟨decide (x < 0), x.natAbs, 0⟩

/-- An integer clamped to a type's range, and whether it was clamped. -/
def Ty.clamp (t : Ty) (x : Int) : Int × Bool :=
  let (lo, hi) := t.range
  if x < lo then (lo, true) else if hi < x then (hi, true) else (x, false)

/-- A conversion result: the pattern, the FLAGS it raises, whether its source was a NaN and whether an integer was
clamped by SAT or wrapped. -/
structure CvtRes where
  code : Nat
  fl : BitVec 5 := 0
  nanIn : Bool := false
  clamped : Bool := false
  deriving DecidableEq, Repr

/-- The conversion of a pattern from one type to another that every converting write makes (05 R108, R109). -/
def convertAs (dt st : Ty) (mode : Rnd) (sat : Bool) (x : Nat) : CvtRes :=
  match dt.fmt, st.fmt with
  | some fd, some fs =>
    let v := fs.value (x % 2 ^ st.width)
    let r := convertTo fd mode sat v
    ⟨r.code, r.fl, v == .nan, false⟩
  | some fd, none =>
    let r := roundDy fd mode sat (Dy.ofInt (st.intVal x))
    ⟨r.code, r.fl, false, false⟩
  | none, some fs =>
    match fs.value (x % 2 ^ st.width) with
    | .nan => ⟨0, flIV, true, false⟩
    | .inf n => ⟨intMod (if n then dt.range.1 else dt.range.2) dt.width, flIV, false, false⟩
    | .fin d =>
      let (n, x) := d.roundInt mode
      let (c, out) := dt.clamp n
      ⟨intMod c dt.width, if out then flIV else flIf x flNX, false, false⟩
  | none, none =>
    let v := st.intVal x
    if sat then
      let (c, out) := dt.clamp v
      ⟨intMod c dt.width, 0, false, out⟩
    else ⟨intMod v dt.width, 0, false, false⟩

/-- CVT: between equal types the source is unchanged but for a NaN, which becomes the canonical one (22 R352). -/
def cvt (dt st : Ty) (mode : Rnd) (sat : Bool) (x : Nat) : CvtRes :=
  match dt.fmt with
  | some fd =>
    if dt = st then
      let nanIn := fd.value (x % 2 ^ st.width) == .nan
      ⟨if nanIn then fd.canon else x % 2 ^ st.width, 0, nanIn, false⟩
    else convertAs dt st mode sat x
  | none => convertAs dt st mode sat x

end Sys2Proof.Machine
end

