-- ==== Sys2Proof/Syntax.lean ====
section
/-! DEFINITION. The syntax of the machine: one constructor of `Instr` for each row of spec/opcode_table.json.
The first 127 rows are Damoth instructions (spec 14 R286 to R302); the others are the steps that the device takes by
itself or at the request of an outside party (spec 95). Register fields are kept as the word holds them; Operands.lean
reads them by kind (R289). -/

namespace Sys2Proof

/-- The payload of a prefix word (14 R296). -/
structure Prefix where
  dt : BitVec 4 := 0
  st : BitVec 4 := 0
  rnd : BitVec 2 := 0
  sat : Bool := false
  scope : BitVec 3 := 0
  ord : BitVec 2 := 0
  na : Bool := false
  nb : Bool := false
  cp : Bool := false
  c : BitVec 7 := 0
  deriving DecidableEq, Repr

/-- The fields of a format A word (14 R286), with the prefix that stands before it. -/
structure FmtA where
  px : Option Prefix := none
  cl : BitVec 2 := 0
  k : BitVec 1 := 0
  d : BitVec 7 := 0
  a : BitVec 7 := 0
  b : BitVec 7 := 0
  deriving DecidableEq, Repr

/-- The predicate and offset fields of a format C word (14 R286); FN selects the constructor or stands beside. -/
structure FmtC where
  p : BitVec 4 := 0
  off : BitVec 19 := 0
  deriving DecidableEq, Repr

/-- The fields of a format L word (14 R286, R292). -/
structure FmtL where
  d : BitVec 7 := 0
  w : BitVec 1 := 0
  off : BitVec 19 := 0
  deriving DecidableEq, Repr

/-- The fields of a format M word (14 R286, R294), with its prefix. -/
structure FmtM where
  px : Option Prefix := none
  am : BitVec 2 := 0
  sz : BitVec 3 := 0
  nt : BitVec 1 := 0
  d : BitVec 7 := 0
  a : BitVec 7 := 0
  b : BitVec 7 := 0
  deriving DecidableEq, Repr

/-- A place that caches placement entries: the cache of a core, or the die-level cache (08 R173). The service cores'
cache on the I/O die is `io`. -/
inductive CacheId where
  | core (die core : Nat)
  | die (die : Nat)
  | io
  deriving DecidableEq, Repr

/-- Where a remap takes a page (07 R160). Cores are numbered within their die. -/
inductive RemapGoal where
  | near (die core frame : Nat)
  | far (die slice frame : Nat)
  | replica (die core frame : Nat)
  | dropReplica (die core : Nat)
  | home
  | poison
  deriving DecidableEq, Repr

/-- A packet as the launch unit has read it (12 R266): its tenant, its queue (0x7F for a SPAWN, R446), its virtual
address in the ring, its eight double-words, and for a SPAWN the argument block of R271. -/
structure Packet where
  tenant : Nat
  queue : Nat
  addr : Nat
  words : List DWord
  args : Option (List DWord) := none
  deriving DecidableEq, Repr

/-- An AtomicOp that the host sends (12 R259). -/
inductive HostOp where
  | fetchAdd
  | swap
  | cas
  deriving DecidableEq, Repr

/-- A firmware image as the boot ROM or an update meets it (12 R277): its bytes, security version and the outcome that
its two signatures carry in them. -/
structure FwImage where
  bytes : List Byte
  version : Nat
  ecdsa : List Byte
  lms : List Byte
  deriving DecidableEq, Repr

/-- A piece of a member's contribution to a collective as CDATA carries it (11 R252): its offset and bytes, and the device and
request to which its acceptance goes. -/
structure Piece where
  offset : Nat
  data : List Byte
  src : Nat
  tag : Nat
  deriving DecidableEq, Repr

/-- One constructor per row of spec/opcode_table.json. -/
inductive Instr where
  | nop (f : FmtA)
  | exit (f : FmtA)
  | regang (f : FmtA)
  | ret (f : FmtA)
  | trap (imm : BitVec 21)
  | brk (imm : BitVec 21)
  | idem (f : FmtA)
  | idemend (f : FmtA)
  | syscall (imm : BitVec 21)
  | eret (f : FmtA)
  | snap (f : FmtA)
  | csrr (f : FmtA)
  | csrw (f : FmtA)
  | spawn (f : FmtA)
  | joinw (f : FmtA)
  | iadd (f : FmtA)
  | isub (f : FmtA)
  | imul (f : FmtA)
  | imulh (f : FmtA)
  | imin (f : FmtA)
  | imax (f : FmtA)
  | iabs (f : FmtA)
  | imad (f : FmtA)
  | lea (f : FmtA)
  | mov (f : FmtA)
  | sel (f : FmtA)
  | movk (f : FmtA)
  | sread (f : FmtA)
  | swrite (f : FmtA)
  | popc (f : FmtA)
  | clz (f : FmtA)
  | band (f : FmtA)
  | bor (f : FmtA)
  | bxor (f : FmtA)
  | bandn (f : FmtA)
  | shl (f : FmtA)
  | shr (f : FmtA)
  | sar (f : FmtA)
  | brev (f : FmtA)
  | bfx (f : FmtA)
  | bfi (f : FmtA)
  | icmp (cond : BitVec 3) (f : FmtA)
  | fcmp (cond : BitVec 3) (f : FmtA)
  | fadd (f : FmtA)
  | fmul (f : FmtA)
  | ffma (f : FmtA)
  | fmin (f : FmtA)
  | fmax (f : FmtA)
  | frnd (f : FmtA)
  | cvt (f : FmtA)
  | frcp (f : FmtA)
  | frsq (f : FmtA)
  | fsqrt (f : FmtA)
  | fexp2 (f : FmtA)
  | flog2 (f : FmtA)
  | fsinpi (f : FmtA)
  | fcospi (f : FmtA)
  | qpack (f : FmtA)
  | qunpk (f : FmtA)
  | shfl (f : FmtA)
  | vote (f : FmtA)
  | matchEq (f : FmtA)
  | redux (f : FmtA)
  | scan (f : FmtA)
  | pand (f : FmtA)
  | por (f : FmtA)
  | pxor (f : FmtA)
  | pandn (f : FmtA)
  | pmov (f : FmtA)
  | pcnt (f : FmtA)
  | win (f : FmtA)
  | xset (f : FmtA)
  | xld (f : FmtA)
  | xget (f : FmtA)
  | br (cond : BitVec 4) (f : FmtC)
  | call (f : FmtC)
  | split (f : FmtC)
  | lpool (f : FmtC)
  | leave (depth : BitVec 4) (f : FmtC)
  | ldl (f : FmtL)
  | ld (f : FmtM)
  | st (f : FmtM)
  | lds (f : FmtM)
  | sts (f : FmtM)
  | ldu (f : FmtM)
  | stu (f : FmtM)
  | atom (f : FmtA)
  | red (f : FmtA)
  | acas (f : FmtA)
  | atoms (f : FmtA)
  | rwl (f : FmtA)
  | fence (f : FmtA)
  | place (f : FmtA)
  | peq (f : FmtA)
  | pins (f : FmtA)
  | pinv (f : FmtA)
  | vdie (f : FmtA)
  | bar (f : FmtA)
  | barArrive (f : FmtA)
  | barWait (f : FmtA)
  | barcfg (f : FmtA)
  | gbar (f : FmtA)
  | gbarArrive (f : FmtA)
  | gbarWait (f : FmtA)
  | sigpost (f : FmtA)
  | sigpostRemote (f : FmtA)
  | sigpostAddr (f : FmtA)
  | sigwait (f : FmtA)
  | waitcnt (f : FmtA)
  | copy (f : FmtA)
  | gather (f : FmtA)
  | scatter (f : FmtA)
  | coll (f : FmtA)
  | mstore (f : FmtA)
  | rload (f : FmtA)
  | putsig (f : FmtA)
  | mma (f : FmtA)
  | mmab (f : FmtA)
  | accz (f : FmtA)
  | accrd (f : FmtA)
  | accrdStat (f : FmtA)
  | accwr (f : FmtA)
  | accwrStat (f : FmtA)
  | accst (f : FmtA)
  | twalk (f : FmtA)
  | tnext (f : FmtA)
  | refill (f : FmtA)
  -- The launch unit's packets and queues (12 R263 to R269).
  | launch (p : Packet)
  | nopPacket (p : Packet)
  | barrierAnd (p : Packet)
  | barrierAndComplete (job : Nat)
  | signalPacket (p : Packet)
  | copyPacket (p : Packet)
  | queueDoorbell (tenant queue : Nat)
  | queuePoll (tenant queue : Nat)
  | ccbgo (tenant : Nat)
  | qctlActivate (tenant queue : Nat)
  | qctlDrain (tenant queue : Nat)
  | qctlAbort (tenant queue : Nat)
  -- Fault service (08 R186, R187).
  | fqreplay (tenant index : Nat)
  | fqreplayTrap (tenant index : Nat)
  | fqtailPoll (tenant : Nat)
  -- Heartbeats (12 R272) and snapshots (12 R280, R281).
  | hbreg (value : DWord)
  | hbfence (value : DWord)
  | heartbeatWrite
  | hostFence
  | snaptrig (value : DWord)
  | snapin
  | snapheld (value : DWord)
  -- Circuits and service registers (11 R255, R256; 22 R348).
  | connWrite (entry : Nat) (value : DWord)
  | circuitDrainEnd (entry : Nat)
  | serviceRegisterWrite (number : Nat) (value : DWord)
  -- The host port (09 R208; 12 R259; 08 R181).
  | hostRead (pa size tag : Nat)
  | hostWrite (pa : Nat) (data : List Byte)
  | hostAtomicop (op : HostOp) (pa size tag : Nat) (cmp operand : Nat)
  | atsInvalidation (lo hi tag : Nat)
  -- Requests that arrive over the Stodor links (11 R249, R252, R253; 10 R233).
  | read (page offset size src tag : Nat)
  | write (page offset : Nat) (data : List Byte) (src tag : Nat)
  | atomic (page offset : Nat) (fn op : Nat) (ty : Nat) (operands : List Byte) (src tag : Nat)
  | mwrite (group offset : Nat) (data : List Byte) (src tag : Nat)
  | redread (group offset size src tag : Nat)
  | signal (address : DWord) (value : Word) (tenant src tag : Nat)
  | cdata (group seq rank : Nat) (desc : List DWord) (piece : Piece)
  | fabricTimeout (request : Nat)
  | routeTimeout (crew slice : Nat)
  -- The remap protocol (08 R175 to R178).
  | remapStart (pfn : Nat) (goal : Option RemapGoal)
  | invalidation (pfn : Nat) (cache : CacheId)
  | acknowledge (pfn : Nat) (cache : CacheId)
  | acknowledgeReceipt (pfn : Nat) (cache : CacheId) (inc : Nat)
  | remapComplete (pfn : Nat)
  | cut (pfn die : Nat)
  | requestResend (pfn crew slice : Nat)
  -- Banks, promotion, replies and the scoreboard (01 R18; 02 R35, R38; 04 R85).
  | drowsy (die slice bank : Nat)
  | promotion (crew gang : Nat)
  | memoryReply (request : Nat) (data : List Byte) (ok : Bool)
  | pendingWriteComplete (crew : Nat)
  -- Engines and passes (10 R235, R236; 11 R242, R245; 06 R137).
  | tilePost (op : Nat)
  | engineRetire (op : Nat)
  | engineFault (op : Nat)
  | passRetire (crew : Nat)
  | collectiveRun (group : Nat)
  -- Parties (02 R30, R46 to R48, R54).
  | partyPlace (launch outing : Nat) (cores : List Nat)
  | partyRetire (party : Nat)
  | preempt (party : Nat)
  | partySave (party : Nat)
  | preemptTimeout (party : Nat)
  | partyRestore (party : Nat) (cores : List Nat)
  -- Dies and the module's life (12 R273 to R279; 01 R22).
  | dieHeartbeat (die : Nat)
  | dieHeartbeatMissing (die : Nat)
  | dieFence (die : Nat)
  | dieRestart (die : Nat)
  | dieCheckpoint (die : Nat)
  | fundamentalReset
  | hostLinkLoss
  | firmwareBoot
  | firmwareUpdate (image : FwImage)
  | spdmMeasurement (request : List Byte)
  | powerLimit (die : Nat)
  | joinwReread (crew slice : Nat)
  | groupTableWrite (number : Nat) (value : DWord)
  | copyPacketComplete (job : Nat)
  deriving DecidableEq, Repr

end Sys2Proof
end

