-- ==== Sys2Proof/Decode.lean ====
section
/-! DEFINITION. Decoding and encoding of instruction words, written from spec 14 (R286 to R302) and the encoding tables of
R64, R133, R164, R216, R231, R238, R257 and R271. `decodeWords` is total; a word that is no instruction is rejected by
name. `Instr.legal` is R302: what it refuses traps ILLEGAL. The encoder stands after the decoder. -/

namespace Sys2Proof

/-- Why words are no instruction (R302). -/
inductive DecodeError where
  | short
  | unallocated
  | reservedBit
  | badField
  | prefixRefused
  | prefixPrefix
  deriving DecidableEq, Repr

/-! ### What each instruction accepts -/

/-- The prefix fields that a group accepts (R299). -/
structure Accepts where
  dt : Bool := false
  st : Bool := false
  rnd : Bool := false
  sat : Bool := false
  scope : Bool := false
  ord : Bool := false
  neg : Bool := false
  nb : Bool := false
  c : Bool := false

/-- Every prefix field that is not accepted is zero (R299). -/
def Prefix.within (p : Prefix) (x : Accepts) : Bool :=
  (x.dt || p.dt == 0) && (x.st || p.st == 0) && (x.rnd || p.rnd == 0) && (x.sat || !p.sat)
    && (x.scope || p.scope == 0) && (x.ord || p.ord == 0) && (x.neg || !p.na) && (x.nb || !p.nb)
    && (x.c || (!p.cp && p.c == 0))

/-- The prefix's payload, with every field zero where there is no prefix (R296). -/
def pxOf (px : Option Prefix) : Prefix := px.getD {}

/-- The prefix payload of a format A instruction. -/
def FmtA.p (f : FmtA) : Prefix := pxOf f.px

/-- The prefix payload of a format M instruction. -/
def FmtM.p (f : FmtM) : Prefix := pxOf f.px

/-- A K = 1 constant index has B[6] = 0 (R290). -/
def FmtA.constOk (f : FmtA) : Bool := f.k == 0 || f.b < 64

/-- K is 0. -/
def FmtA.k0 (f : FmtA) : Bool := f.k == 0

/-- The field names a predicate: p0 to p15 or exec (R289). -/
def predField (x : BitVec 7) : Bool := x ≤ 16

/-- The field names one of eight: x0 to x7 or a0 to a7 (R289). -/
def eightField (x : BitVec 7) : Bool := x ≤ 7

/-- CL is 0 or 3. -/
def FmtA.cl03 (f : FmtA) : Bool := f.cl == 0 || f.cl == 3

/-- No prefix stands before the word. -/
def FmtA.bare (f : FmtA) : Bool := f.px.isNone

/-- Nothing but zero fields, and no prefix. -/
def FmtA.zero (f : FmtA) : Bool := f == {}

/-- The types of INT1 and ICMP (R366). -/
def intDt (t : BitVec 4) : Bool := t == 0 || t == 10 || t == 11 || t == 12 || t == 13

/-- The types of BIT, BITF, POPC, CLZ, SEL, MATCH and SHFL: a width of 32 or 64 (R332, R344, R380, R415, R416). -/
def bitDt (t : BitVec 4) : Bool := intDt t || t == 14

/-- The types of FLT and FCMP (R355). -/
def fltDt (t : BitVec 4) : Bool := t ≤ 4

/-- The three-bit OP of the ATOMIC group, which stands where CL and K do (R216). -/
def FmtA.op3 (f : FmtA) : BitVec 3 := f.cl ++ f.k

/-- The types that an operation of ATOM and RED takes (R217). -/
def atomDt (op : BitVec 3) (t : BitVec 4) : Bool :=
  match op with
  | 0 | 1 | 2 => t == 0 || t == 10 || t == 11 || t == 12 || t == 13 || t == 2 || t == 4
  | 3 | 4 | 5 => t == 0 || t == 14
  | 6 => t == 0 || t == 14 || t == 15
  | 7 => t == 0 || t == 12 || t == 13

/-- The types of CAS (R217). -/
def casDt (t : BitVec 4) : Bool := t == 0 || t == 14 || t == 15

/-- The prefix of an atomic: DT, SCOPE up to 5, ORD, and CP only with REL or ACQREL and C up to 126 (R193, R217). -/
def atomPx (p : Prefix) : Bool :=
  p.within { dt := true, scope := true, ord := true, c := true } && p.scope ≤ 5
    && (!p.cp || ((p.ord == 2 || p.ord == 3) && p.c ≤ 126))

/-- The prefix of a load: SCOPE up to 5, ORD none or ACQ, no range (R193, R372). -/
def loadPx (p : Prefix) : Bool :=
  p.within { scope := true, ord := true, c := true } && p.scope ≤ 5 && p.ord ≤ 1 && !p.cp

/-- The prefix of a store: SCOPE up to 5, ORD none or REL, a range only with REL and C up to 126 (R193, R203, R425). -/
def storePx (p : Prefix) : Bool :=
  p.within { scope := true, ord := true, c := true } && p.scope ≤ 5 && (p.ord == 0 || p.ord == 2)
    && (!p.cp || (p.ord == 2 && p.c ≤ 126))

/-- The prefix of SIGPOST: SCOPE, ORD none or REL, CP and C up to 126 (R231, R417). -/
def postPx (p : Prefix) : Bool :=
  p.within { scope := true, ord := true, c := true } && p.scope ≤ 5 && (p.ord == 0 || p.ord == 2)
    && (!p.cp || p.c ≤ 126)

/-- The prefix of SIGWAIT: SCOPE, ORD none or ACQ (R231, R418). -/
def sigwaitPx (p : Prefix) : Bool :=
  p.within { scope := true, ord := true } && p.scope ≤ 5 && p.ord ≤ 1

/-- The types of REDUX and SCAN by operation, and the rounding they take (R404). -/
def reduxOk (op : Nat) (p : Prefix) : Bool :=
  p.within { dt := true, rnd := true } &&
  (if op ≤ 2 then (intDt p.dt && p.rnd == 0) || (1 ≤ p.dt && p.dt ≤ 4)
   else op ≤ 5 && bitDt p.dt && p.rnd == 0)

/-- ACCRD's type pairs: DT from ST (R142). -/
def accrdPair (dt st : BitVec 4) : Bool :=
  if st == 0 || st == 2 then dt == 0 || dt == 2 || dt == 3 || dt == 4 || dt == 5 || dt == 6 || dt == 10
  else st == 10 && (dt == 10 || dt == 9 || dt == 8 || dt == 2 || dt == 0)

/-- ACCWR's type pairs: DT from ST (R143). -/
def accwrPair (dt st : BitVec 4) : Bool :=
  if dt == 0 || dt == 2 then st == 0 || st == 2 || st == 3 || st == 4 || st == 5 || st == 6 || st == 10
  else dt == 10 && (st == 10 || st == 9 || st == 8 || st == 2 || st == 0)

/-- The service register numbers that R349 lists. -/
def csrListed (n : Nat) : Bool :=
  n ≤ 0x0006 || (0x0010 ≤ n && n ≤ 0x0013) || n == 0x0020 || n == 0x0021 || (0x0030 ≤ n && n ≤ 0x0032)
    || (0x0100 ≤ n && n ≤ 0x011F) || (0x0400 ≤ n && n ≤ 0x07FF) || (0x1000 ≤ n && n ≤ 0x3FFF)

/-- The service registers that are read-only (R349): SNAPMISS and SNAPWIN. -/
def csrReadOnly (n : Nat) : Bool := n == 0x0032 || (0x1000 ≤ n && n ≤ 0x2FFF)

/-- The service register number of CSRR and CSRW (R348). -/
def FmtA.csrNumber (f : FmtA) : Nat := f.a.toNat * 128 + f.b.toNat

/-- The lane-scope and slice-scope special registers, which a uniform SREAD refuses (R92): LANE, SLICE, LINK, TRAPCAUSE,
TRAPINFO and ATLOC. -/
def perLaneSpecial (n : Nat) : Bool :=
  n == 0x00 || n == 0x01 || n == 0x0A || n == 0x0C || n == 0x0D || n == 0x0F

/-- The special registers that SWRITE writes (R424): FLAGS, LINK, HSTK and LPB. -/
def writableSpecial (n : Nat) : Bool := n == 0x09 || n == 0x0A || n == 0x0B || n == 0x10

/-- The barrier number and form bits of BAR and BARCFG: bit 4 is zero, and an outing barrier is 0 to 3 (R336, R338). -/
def barNumberOk (cl : BitVec 2) (n : Nat) : Bool := (cl == 0 && n < 16) || (cl == 1 && n < 4)

/-! ### R302, instruction by instruction -/

/-- The instruction is one that R302 lets through: every field has a value its row allows. The steps that have no words
are legal as they stand. -/
def Instr.legal : Instr → Bool
  | .nop f | .exit f | .regang f | .idem f | .idemend f | .eret f | .snap f => f.zero
  | .ret f => f.bare && f.cl == 0 && f.k0 && f.d == 0 && f.b == 0
  | .trap _ | .brk _ | .syscall _ => true
  | .csrr f => f.bare && f.cl == 3 && f.k0 && csrListed f.csrNumber
  | .csrw f => f.bare && f.cl == 3 && f.k0 && csrListed f.csrNumber && !csrReadOnly f.csrNumber
  | .spawn f => f.bare && f.cl == 3 && f.k0 && f.a ≤ 120 && f.b ≤ 120
  | .joinw f => f.bare && f.cl == 3 && f.constOk && f.d == 0
  | .iadd f | .isub f | .imul f =>
    f.constOk && f.p.within { dt := true, sat := true, neg := true, nb := true } && intDt f.p.dt
  | .imad f =>
    f.constOk && f.p.within { dt := true, sat := true, neg := true, nb := true, c := true } && intDt f.p.dt
  | .imulh f | .imin f | .imax f => f.constOk && f.p.within { dt := true, sat := true } && intDt f.p.dt
  | .iabs f => f.cl03 && f.k0 && f.b == 0 && f.p.within { dt := true, sat := true } && intDt f.p.dt
  | .lea f => f.cl != 1 && f.constOk && f.p.within { dt := true } && f.p.dt != 7
  | .mov f => f.bare && f.constOk && f.a == 0
  | .sel f =>
    f.constOk && f.p.within { dt := true, c := true } && bitDt f.p.dt && (!f.p.cp || predField f.p.c)
  | .movk f => f.bare && f.cl03
  | .sread f =>
    f.bare && f.cl03 && f.k0 && f.a == 0 && f.b ≤ 0x11 && !(f.cl == 3 && perLaneSpecial f.b.toNat)
  | .swrite f => f.bare && f.cl03 && f.k0 && f.a == 0 && writableSpecial f.d.toNat
  | .popc f | .clz f | .brev f => f.cl03 && f.k0 && f.b == 0 && f.p.within { dt := true } && bitDt f.p.dt
  | .band f | .bor f | .bxor f | .bandn f | .shl f | .shr f | .sar f | .bfx f | .bfi f =>
    f.constOk && f.p.within { dt := true } && bitDt f.p.dt
  | .icmp cond f => cond ≤ 5 && f.constOk && predField f.d && f.p.within { dt := true } && intDt f.p.dt
  | .fcmp _ f =>
    f.constOk && predField f.d && f.p.within { dt := true, neg := true, nb := true } && fltDt f.p.dt
  | .fadd f | .fmul f =>
    f.constOk && f.p.within { dt := true, rnd := true, neg := true, nb := true } && fltDt f.p.dt
  | .ffma f =>
    f.constOk && f.p.within { dt := true, rnd := true, neg := true, nb := true, c := true } && fltDt f.p.dt
  | .fmin f | .fmax f => f.constOk && f.p.within { dt := true, neg := true, nb := true } && fltDt f.p.dt
  | .frnd f => f.cl03 && f.k0 && f.b == 0 && f.p.within { dt := true, rnd := true } && fltDt f.p.dt
  | .cvt f =>
    f.cl03 && f.k0 && f.b == 0 && f.p.within { dt := true, st := true, rnd := true, sat := true }
      && f.p.dt ≤ 13 && f.p.st ≤ 13
  | .frcp f | .frsq f | .fsqrt f | .fexp2 f | .flog2 f | .fsinpi f | .fcospi f =>
    f.cl == 0 && f.k0 && f.b == 0 && f.p.within { dt := true, rnd := true, neg := true }
      && (f.p.dt == 0 || f.p.dt == 2)
  | .qpack f | .qunpk f =>
    f.cl == 0 && f.k0 && f.b == 0 && f.p.within { dt := true } && (f.p.dt == 0 || f.p.dt == 7)
  | .shfl f => f.cl ≤ 1 && f.constOk && f.p.within { dt := true } && bitDt f.p.dt
  | .vote f =>
    f.bare && f.cl ≤ 2 && f.k0 && f.b == 0 && predField f.a && (f.cl == 2 || predField f.d)
  | .matchEq f => f.cl == 0 && f.k0 && f.b == 0 && f.p.within { dt := true } && bitDt f.p.dt
  | .redux f => f.cl == 0 && f.k0 && f.b < 8 && reduxOk f.b.toNat f.p
  | .scan f => f.cl == 0 && f.k0 && f.b < 16 && reduxOk (f.b.toNat % 8) f.p
  | .pand f | .por f | .pxor f | .pandn f =>
    f.bare && f.cl == 0 && f.k0 && predField f.d && predField f.a && predField f.b
  | .pmov f => f.bare && f.cl == 0 && f.k0 && predField f.d && predField f.a && f.b == 0
  | .pcnt f => f.bare && f.cl == 3 && f.k0 && predField f.a && f.b == 0
  | .win f => f.bare && f.cl == 3 && f.constOk && f.d == 0 && f.a == 0
  | .xset f => f.bare && f.cl == 3 && f.constOk && eightField f.d && f.a == 0
  | .xld f => f.bare && f.cl == 0 && f.k0 && eightField f.d && f.b == 0
  | .xget f => f.bare && f.cl03 && f.k0 && eightField f.a && f.b == 0
  | .br cond f => cond ≤ 6 && (f.p == 0 || (cond != 0 && cond != 5 && cond != 6))
  | .call f | .lpool f => f.p == 0
  | .split _ => true
  | .leave _ f => f.p == 0
  | .ldl _ => true
  | .ld f => f.sz != 7 && (f.am != 1 || f.b == 0) && loadPx f.p
  | .st f => f.sz ≤ 4 && (f.am != 1 || f.b == 0) && storePx f.p
  | .lds f => f.am != 2 && f.nt == 0 && f.sz != 7 && (f.am != 1 || f.b == 0) && loadPx f.p
  | .sts f => f.am != 2 && f.nt == 0 && f.sz ≤ 4 && (f.am != 1 || f.b == 0) && storePx f.p
  | .ldu f => f.am == 2 && f.sz != 7 && (f.sz != 4 || f.d ≤ 126) && loadPx f.p
  | .stu f => f.am == 2 && f.sz ≤ 4 && (f.sz != 4 || f.d ≤ 126) && storePx f.p
  | .atom f | .red f => atomDt f.op3 f.p.dt && atomPx f.p
  | .acas f => f.op3 == 0 && casDt f.p.dt && atomPx f.p
  | .atoms f => (if f.op3 == 7 then casDt f.p.dt else atomDt f.op3 f.p.dt) && atomPx f.p
  | .rwl f => f.p.dt == 0 && atomPx f.p
  | .fence f => f.bare && f.cl == 3 && f.k0 && f.d == 0 && f.a == 0 && f.b ≤ 5
  | .place f => f.bare && f.cl == 3 && f.k0 && f.d ≤ 2
  | .peq f => f.bare && f.cl == 3 && f.k0 && f.d ≤ 126 && f.b == 0
  | .pins f => f.bare && f.cl == 3 && f.k0 && f.b ≤ 1
  | .pinv f => f.bare && f.cl == 3 && f.k0 && f.d ≤ 1
  | .vdie f => f.bare && f.cl == 3 && f.constOk
  | .bar f => f.bare && f.k0 && barNumberOk f.cl f.b.toNat && f.d == 0 && f.a == 0
  | .barArrive f => f.bare && f.k0 && 32 ≤ f.b && barNumberOk f.cl (f.b.toNat - 32) && f.a == 0
  | .barWait f => f.bare && f.cl == 0 && f.k0 && f.b == 0x40 && f.d == 0
  | .barcfg f => f.bare && f.k0 && barNumberOk f.cl f.b.toNat && f.d == 0
  | .gbar f => f.bare && f.cl == 0 && f.k0 && f.b < 4 && f.d == 0 && f.a == 0
  | .gbarArrive f => f.bare && f.cl == 0 && f.k0 && 32 ≤ f.b && f.b < 36 && f.a == 0
  | .gbarWait f => f.bare && f.cl == 0 && f.k0 && f.b == 0x40 && f.d == 0
  | .sigpost f => f.cl == 0 && f.constOk && f.a == 0 && postPx f.p
  | .sigpostRemote f => f.cl == 1 && f.constOk && f.d == 0 && postPx f.p
  | .sigpostAddr f => f.bare && f.cl == 2 && f.k0 && f.a == 0
  | .sigwait f => f.cl == 0 && f.constOk && f.a == 0 && sigwaitPx f.p
  | .waitcnt f => f.bare && f.cl == 0 && f.k0 && f.a == 0 && f.d ≤ 3 && f.b ≤ 63
  | .copy f => f.bare && f.cl == 3 && f.k0 && f.d == 0 && f.a ≤ 112 && f.b == 0
  | .gather f => f.bare && f.cl == 3 && f.k0 && f.d == 0 && f.a ≤ 120 && f.b == 0
  | .scatter f => f.bare && f.cl == 3 && f.k0 && f.d ≤ 2 && f.a ≤ 120 && f.b == 0
  | .coll f => f.bare && f.cl == 3 && f.k0 && f.d == 0 && f.a ≤ 122 && f.b == 0
  | .mstore f => f.bare && f.cl ≤ 2 && f.k0
  | .rload f =>
    f.cl ≤ 2 && f.k0 && f.p.within { dt := true }
      && (f.p.dt == 0 || f.p.dt == 2 || f.p.dt == 4 || f.p.dt == 10)
  | .putsig f => f.bare && f.cl ≤ 2 && f.k0 && f.a ≤ 126
  | .mma f | .mmab f =>
    f.cl == 0 && f.k0 && eightField f.d && f.p.within { c := true } && (!f.p.cp || f.p.c ≤ 126)
  | .accz f => f.bare && f.cl == 0 && f.k0 && eightField f.d && f.a == 0 && f.b == 0
  | .accrd f =>
    f.cl == 0 && f.k0 && eightField f.a && f.b ≤ 5
      && f.p.within { dt := true, st := true, rnd := true, sat := true } && accrdPair f.p.dt f.p.st
  | .accrdStat f => f.bare && f.cl == 1 && f.k0 && eightField f.a && f.b == 0
  | .accwr f =>
    f.cl == 0 && f.k0 && eightField f.d && f.b ≤ 5
      && f.p.within { dt := true, st := true, rnd := true, sat := true } && accwrPair f.p.dt f.p.st
  | .accwrStat f => f.bare && f.cl == 1 && f.k0 && eightField f.d && f.b == 0
  | .accst f => f.bare && f.cl == 0 && f.k0 && eightField f.a && f.b ≤ 1
  | .twalk f => f.bare && f.cl == 3 && f.k0 && f.a ≤ 125 && f.b ≤ 3
  | .tnext f => f.bare && f.cl == 3 && f.k0 && f.a == 0 && f.b ≤ 3
  | .refill f => f.bare && f.cl == 0 && f.k0 && predField f.a && predField f.b
  | _ => true

/-! ### The decoder -/

/-- Bits [lo+len-1:lo] of a word. -/
def fld (w : Word) (lo len : Nat) : BitVec len := BitVec.extractLsb' lo len w

/-- One bit of a word as a Bool. -/
def fldBit (w : Word) (n : Nat) : Bool := w.getLsbD n

/-- The fields of a format A word (R286). -/
def fmtAOf (px : Option Prefix) (w : Word) : FmtA :=
  { px := px, cl := fld w 25 2, k := fld w 24 1, d := fld w 14 7, a := fld w 7 7, b := fld w 0 7 }

/-- The fields of a format C word (R286). -/
def fmtCOf (w : Word) : FmtC := { p := fld w 19 4, off := fld w 0 19 }

/-- The fields of a format M word (R286). -/
def fmtMOf (px : Option Prefix) (w : Word) : FmtM :=
  { px := px, am := fld w 25 2, sz := fld w 22 3, nt := fld w 21 1, d := fld w 14 7, a := fld w 7 7, b := fld w 0 7 }

/-- The payload of a prefix word (R296); its reserved bit [7] must be zero. -/
def prefixOf (w : Word) : Option Prefix :=
  if fldBit w 7 then none
  else some
    { dt := fld w 23 4, st := fld w 19 4, rnd := fld w 17 2, sat := fldBit w 16, scope := fld w 13 3,
      ord := fld w 11 2, na := fldBit w 10, nb := fldBit w 9, cp := fldBit w 8, c := fld w 0 7 }

/-- The word is a prefix (R286). -/
def isPrefix (w : Word) : Bool := fld w 27 5 == 0x1F

/-- The 21-bit constant of TRAP, BRK and SYSCALL, whose CL and K are zero and which take no prefix (R301). -/
def immOf (px : Option Prefix) (w : Word) (mk : BitVec 21 → Instr) : Option Instr :=
  if px.isNone && fld w 24 3 == 0 then some (mk (fld w 0 21)) else none

/-- The constructors of major 0x00 by FN (R300). -/
def decodeCtrl (px : Option Prefix) (w : Word) (f : FmtA) : Option Instr :=
  match fld w 21 3 with
  | 0 => some (.nop f)
  | 1 => some (.exit f)
  | 2 => some (.regang f)
  | 3 => some (.ret f)
  | 4 => immOf px w .trap
  | 5 => immOf px w .brk
  | 6 => some (.idem f)
  | 7 => some (.idemend f)

/-- The constructors of major 0x19 by FN, and by the form bits or CL (R231). -/
def decodeSync (fn : BitVec 3) (f : FmtA) : Option Instr :=
  match fn with
  | 0 =>
    match fld (f.b.zeroExtend 32) 5 2 with
    | 0 => some (.bar f)
    | 1 => some (.barArrive f)
    | 2 => some (.barWait f)
    | 3 => none
  | 1 => some (.barcfg f)
  | 2 =>
    match fld (f.b.zeroExtend 32) 5 2 with
    | 0 => some (.gbar f)
    | 1 => some (.gbarArrive f)
    | 2 => some (.gbarWait f)
    | 3 => none
  | 3 =>
    match f.cl with
    | 0 => some (.sigpost f)
    | 1 => some (.sigpostRemote f)
    | 2 => some (.sigpostAddr f)
    | 3 => none
  | 4 => some (.sigwait f)
  | 5 => some (.waitcnt f)
  | _ => none

/-- The constructors of major 0x1B by FN and CL (R133). -/
def decodeMatrix (fn : BitVec 3) (f : FmtA) : Option Instr :=
  match fn with
  | 0 => some (.mma f)
  | 1 => some (.mmab f)
  | 2 => some (.accz f)
  | 3 => if f.cl == 1 then some (.accrdStat f) else some (.accrd f)
  | 4 => if f.cl == 1 then some (.accwrStat f) else some (.accwr f)
  | 5 => some (.accst f)
  | _ => none

/-- The constructors of major 0x01 by FN (14 R300). -/
def decodeSystem (fn : BitVec 3) (f : FmtA) : Option Instr :=
  match fn with
  | 1 => some (.eret f)
  | 2 => some (.snap f)
  | 3 => some (.csrr f)
  | 4 => some (.csrw f)
  | 5 => some (.spawn f)
  | 6 => some (.joinw f)
  | _ => none

/-- The constructors of major 0x02 by FN (14 R300). -/
def decodeInt1 (fn : BitVec 3) (f : FmtA) : Option Instr :=
  match fn with
  | 0 => some (.iadd f)
  | 1 => some (.isub f)
  | 2 => some (.imul f)
  | 3 => some (.imulh f)
  | 4 => some (.imin f)
  | 5 => some (.imax f)
  | 6 => some (.iabs f)
  | 7 => some (.imad f)

/-- The constructors of major 0x03 by FN (14 R300). -/
def decodeInt2 (fn : BitVec 3) (f : FmtA) : Option Instr :=
  match fn with
  | 0 => some (.lea f)
  | 1 => some (.mov f)
  | 2 => some (.sel f)
  | 3 => some (.movk f)
  | 4 => some (.sread f)
  | 5 => some (.swrite f)
  | 6 => some (.popc f)
  | 7 => some (.clz f)

/-- The constructors of major 0x04 by FN (14 R300). -/
def decodeBit (fn : BitVec 3) (f : FmtA) : Option Instr :=
  match fn with
  | 0 => some (.band f)
  | 1 => some (.bor f)
  | 2 => some (.bxor f)
  | 3 => some (.bandn f)
  | 4 => some (.shl f)
  | 5 => some (.shr f)
  | 6 => some (.sar f)
  | 7 => some (.brev f)

/-- The constructors of major 0x05 by FN (14 R300). -/
def decodeBitf (fn : BitVec 3) (f : FmtA) : Option Instr :=
  match fn with
  | 0 => some (.bfx f)
  | 1 => some (.bfi f)
  | _ => none

/-- The constructors of major 0x08 by FN (14 R300). -/
def decodeFlt (fn : BitVec 3) (f : FmtA) : Option Instr :=
  match fn with
  | 0 => some (.fadd f)
  | 1 => some (.fmul f)
  | 2 => some (.ffma f)
  | 3 => some (.fmin f)
  | 4 => some (.fmax f)
  | 5 => some (.frnd f)
  | 6 => some (.cvt f)
  | _ => none

/-- The constructors of major 0x09 by FN (14 R300). -/
def decodeFsp (fn : BitVec 3) (f : FmtA) : Option Instr :=
  match fn with
  | 0 => some (.frcp f)
  | 1 => some (.frsq f)
  | 2 => some (.fsqrt f)
  | 3 => some (.fexp2 f)
  | 4 => some (.flog2 f)
  | 5 => some (.fsinpi f)
  | 6 => some (.fcospi f)
  | _ => none

/-- The constructors of major 0x0A by FN (14 R300). -/
def decodeQl (fn : BitVec 3) (f : FmtA) : Option Instr :=
  match fn with
  | 0 => some (.qpack f)
  | 1 => some (.qunpk f)
  | 2 => some (.shfl f)
  | 3 => some (.vote f)
  | 4 => some (.matchEq f)
  | 5 => some (.redux f)
  | 6 => some (.scan f)
  | _ => none

/-- The constructors of major 0x0B by FN (14 R300). -/
def decodePred (fn : BitVec 3) (f : FmtA) : Option Instr :=
  match fn with
  | 0 => some (.pand f)
  | 1 => some (.por f)
  | 2 => some (.pxor f)
  | 3 => some (.pandn f)
  | 4 => some (.pmov f)
  | 5 => some (.pcnt f)
  | _ => none

/-- The constructors of major 0x0C by FN (14 R300). -/
def decodeRegs (fn : BitVec 3) (f : FmtA) : Option Instr :=
  match fn with
  | 0 => some (.win f)
  | 1 => some (.xset f)
  | 2 => some (.xld f)
  | 3 => some (.xget f)
  | _ => none

/-- The constructors of major 0x17 by FN (14 R300). -/
def decodeAtomic (fn : BitVec 3) (f : FmtA) : Option Instr :=
  match fn with
  | 0 => some (.atom f)
  | 1 => some (.red f)
  | 2 => some (.acas f)
  | 3 => some (.atoms f)
  | 4 => some (.rwl f)
  | _ => none

/-- The constructors of major 0x18 by FN (14 R300). -/
def decodeMemctl (fn : BitVec 3) (f : FmtA) : Option Instr :=
  match fn with
  | 0 => some (.fence f)
  | 1 => some (.place f)
  | 2 => some (.peq f)
  | 3 => some (.pins f)
  | 4 => some (.pinv f)
  | 5 => some (.vdie f)
  | _ => none

/-- The constructors of major 0x1A by FN (14 R300). -/
def decodeEngine (fn : BitVec 3) (f : FmtA) : Option Instr :=
  match fn with
  | 0 => some (.copy f)
  | 1 => some (.gather f)
  | 2 => some (.scatter f)
  | 3 => some (.coll f)
  | 4 => some (.mstore f)
  | 5 => some (.rload f)
  | 6 => some (.putsig f)
  | _ => none

/-- The constructors of major 0x1C by FN (14 R300). -/
def decodeWork (fn : BitVec 3) (f : FmtA) : Option Instr :=
  match fn with
  | 0 => some (.twalk f)
  | 1 => some (.tnext f)
  | 2 => some (.refill f)
  | _ => none

/-- The instruction whose fields the word holds, before the checks of `Instr.legal` (R286, R300). The formats C and L take
no prefix (R64, R292, R299). -/
def candidate (px : Option Prefix) (w : Word) : Option Instr :=
  let f := fmtAOf px w
  let fn := fld w 21 3
  let c : Option FmtC := if px.isNone then some (fmtCOf w) else none
  match fld w 27 5 with
  | 0x00 => decodeCtrl px w f
  | 0x01 => if fn == 0 then immOf px w .syscall else decodeSystem fn f
  | 0x02 => decodeInt1 fn f
  | 0x03 => decodeInt2 fn f
  | 0x04 => decodeBit fn f
  | 0x05 => decodeBitf fn f
  | 0x06 => some (.icmp fn f)
  | 0x07 => some (.fcmp fn f)
  | 0x08 => decodeFlt fn f
  | 0x09 => decodeFsp fn f
  | 0x0A => decodeQl fn f
  | 0x0B => decodePred fn f
  | 0x0C => decodeRegs fn f
  | 0x0D => c.map (.br (fld w 23 4))
  | 0x0E =>
    match fld w 23 4 with
    | 0 => c.map .call
    | 1 => c.map .split
    | 2 => c.map .lpool
    | _ => none
  | 0x0F => c.map (.leave (fld w 23 4))
  | 0x10 => if px.isNone then some (.ldl { d := fld w 20 7, w := fld w 19 1, off := fld w 0 19 }) else none
  | 0x11 => some (.ld (fmtMOf px w))
  | 0x12 => some (.st (fmtMOf px w))
  | 0x13 => some (.lds (fmtMOf px w))
  | 0x14 => some (.sts (fmtMOf px w))
  | 0x15 => some (.ldu (fmtMOf px w))
  | 0x16 => some (.stu (fmtMOf px w))
  | 0x17 => decodeAtomic fn f
  | 0x18 => decodeMemctl fn f
  | 0x19 => decodeSync fn f
  | 0x1A => decodeEngine fn f
  | 0x1B => decodeMatrix fn f
  | 0x1C => decodeWork fn f
  | _ => none

/-- The instruction of one word with the prefix before it, if it is one (R302). -/
def decodeWord (px : Option Prefix) (w : Word) : Except DecodeError Instr :=
  if isPrefix w then .error .prefixPrefix
  else match candidate px w with
    | none => .error .unallocated
    | some i =>
      if i.legal then .ok i
      else if px.isSome then .error .prefixRefused
      else .error .badField

/-- The instruction at the head of a list of words, and the words after it (R287). -/
def decodeWords : List Word → Except DecodeError (Instr × List Word)
  | [] => .error .short
  | w :: ws =>
    if isPrefix w then
      match prefixOf w, ws with
      | none, _ => .error .reservedBit
      | some _, [] => .error .short
      | some p, v :: rest => (decodeWord (some p) v).map fun i => (i, rest)
    else (decodeWord none w).map fun i => (i, ws)

/-- The little-endian words of a list of bytes; bytes short of a whole word are dropped (R286). -/
def wordsOfBytes : List Byte → List Word
  | a :: b :: c :: d :: rest => (d ++ c ++ b ++ a) :: wordsOfBytes rest
  | _ => []

/-- The bytes of a word, lowest address first (R286). -/
def bytesOfWord (w : Word) : List Byte := leBytes w.toNat 4

/-- The bytes of a list of words, lowest address first. -/
def bytesOfWords : List Word → List Byte
  | [] => []
  | w :: ws => bytesOfWord w ++ bytesOfWords ws

/-- The instruction at the head of a list of bytes. -/
def decodeBytes (bs : List Byte) : Except DecodeError (Instr × List Word) := decodeWords (wordsOfBytes bs)

/-- The bytes of a table row's word: `nbits` bits of `w`, then zeros up to eight bytes, the longest instruction (R287). -/
def tableBytes (nbits w : Nat) : List Byte := leBytes (w % 2 ^ nbits) 8

/-- The instruction that the decoder reads from a table row's word. -/
def decodeTableWord (nbits w : Nat) : Option Instr :=
  match decodeBytes (tableBytes nbits w) with
  | .ok (i, _) => some i
  | .error _ => none

/-! ### The encoder -/

/-- One bit from a Bool. -/
def bit1 (b : Bool) : BitVec 1 := BitVec.ofBool b

/-- A prefix word (R296). -/
def encPrefix (p : Prefix) : Word :=
  (0x1F : BitVec 5) ++ p.dt ++ p.st ++ p.rnd ++ bit1 p.sat ++ p.scope ++ p.ord ++ bit1 p.na ++ bit1 p.nb
    ++ bit1 p.cp ++ (0 : BitVec 1) ++ p.c

/-- The prefix word that stands before an instruction, if one does. -/
def encPx : Option Prefix → List Word
  | none => []
  | some p => [encPrefix p]

/-- A format A word with its prefix (R286). -/
def encA (maj : BitVec 5) (fn : BitVec 3) (f : FmtA) : List Word :=
  encPx f.px ++ [maj ++ f.cl ++ f.k ++ fn ++ f.d ++ f.a ++ f.b]

/-- A format C word (R286). -/
def encC (maj : BitVec 5) (fn : BitVec 4) (f : FmtC) : List Word := [maj ++ fn ++ f.p ++ f.off]

/-- A format M word with its prefix (R286). -/
def encM (maj : BitVec 5) (f : FmtM) : List Word :=
  encPx f.px ++ [maj ++ f.am ++ f.sz ++ f.nt ++ f.d ++ f.a ++ f.b]

/-- A word with a 21-bit constant (R301). -/
def encImm (maj : BitVec 5) (fn : BitVec 3) (imm : BitVec 21) : List Word := [maj ++ (0 : BitVec 3) ++ fn ++ imm]

/-- The words of an instruction; the steps without words have none. -/
def encode : Instr → List Word
  | .nop f => encA 0x00 0 f
  | .exit f => encA 0x00 1 f
  | .regang f => encA 0x00 2 f
  | .ret f => encA 0x00 3 f
  | .trap imm => encImm 0x00 4 imm
  | .brk imm => encImm 0x00 5 imm
  | .idem f => encA 0x00 6 f
  | .idemend f => encA 0x00 7 f
  | .syscall imm => encImm 0x01 0 imm
  | .eret f => encA 0x01 1 f
  | .snap f => encA 0x01 2 f
  | .csrr f => encA 0x01 3 f
  | .csrw f => encA 0x01 4 f
  | .spawn f => encA 0x01 5 f
  | .joinw f => encA 0x01 6 f
  | .iadd f => encA 0x02 0 f
  | .isub f => encA 0x02 1 f
  | .imul f => encA 0x02 2 f
  | .imulh f => encA 0x02 3 f
  | .imin f => encA 0x02 4 f
  | .imax f => encA 0x02 5 f
  | .iabs f => encA 0x02 6 f
  | .imad f => encA 0x02 7 f
  | .lea f => encA 0x03 0 f
  | .mov f => encA 0x03 1 f
  | .sel f => encA 0x03 2 f
  | .movk f => encA 0x03 3 f
  | .sread f => encA 0x03 4 f
  | .swrite f => encA 0x03 5 f
  | .popc f => encA 0x03 6 f
  | .clz f => encA 0x03 7 f
  | .band f => encA 0x04 0 f
  | .bor f => encA 0x04 1 f
  | .bxor f => encA 0x04 2 f
  | .bandn f => encA 0x04 3 f
  | .shl f => encA 0x04 4 f
  | .shr f => encA 0x04 5 f
  | .sar f => encA 0x04 6 f
  | .brev f => encA 0x04 7 f
  | .bfx f => encA 0x05 0 f
  | .bfi f => encA 0x05 1 f
  | .fadd f => encA 0x08 0 f
  | .fmul f => encA 0x08 1 f
  | .ffma f => encA 0x08 2 f
  | .fmin f => encA 0x08 3 f
  | .fmax f => encA 0x08 4 f
  | .frnd f => encA 0x08 5 f
  | .cvt f => encA 0x08 6 f
  | .frcp f => encA 0x09 0 f
  | .frsq f => encA 0x09 1 f
  | .fsqrt f => encA 0x09 2 f
  | .fexp2 f => encA 0x09 3 f
  | .flog2 f => encA 0x09 4 f
  | .fsinpi f => encA 0x09 5 f
  | .fcospi f => encA 0x09 6 f
  | .qpack f => encA 0x0A 0 f
  | .qunpk f => encA 0x0A 1 f
  | .shfl f => encA 0x0A 2 f
  | .vote f => encA 0x0A 3 f
  | .matchEq f => encA 0x0A 4 f
  | .redux f => encA 0x0A 5 f
  | .scan f => encA 0x0A 6 f
  | .pand f => encA 0x0B 0 f
  | .por f => encA 0x0B 1 f
  | .pxor f => encA 0x0B 2 f
  | .pandn f => encA 0x0B 3 f
  | .pmov f => encA 0x0B 4 f
  | .pcnt f => encA 0x0B 5 f
  | .win f => encA 0x0C 0 f
  | .xset f => encA 0x0C 1 f
  | .xld f => encA 0x0C 2 f
  | .xget f => encA 0x0C 3 f
  | .atom f => encA 0x17 0 f
  | .red f => encA 0x17 1 f
  | .acas f => encA 0x17 2 f
  | .atoms f => encA 0x17 3 f
  | .rwl f => encA 0x17 4 f
  | .fence f => encA 0x18 0 f
  | .place f => encA 0x18 1 f
  | .peq f => encA 0x18 2 f
  | .pins f => encA 0x18 3 f
  | .pinv f => encA 0x18 4 f
  | .vdie f => encA 0x18 5 f
  | .copy f => encA 0x1A 0 f
  | .gather f => encA 0x1A 1 f
  | .scatter f => encA 0x1A 2 f
  | .coll f => encA 0x1A 3 f
  | .mstore f => encA 0x1A 4 f
  | .rload f => encA 0x1A 5 f
  | .putsig f => encA 0x1A 6 f
  | .twalk f => encA 0x1C 0 f
  | .tnext f => encA 0x1C 1 f
  | .refill f => encA 0x1C 2 f
  | .icmp cond f => encA 0x06 cond f
  | .fcmp cond f => encA 0x07 cond f
  | .br cond f => encC 0x0D cond f
  | .call f => encC 0x0E 0 f
  | .split f => encC 0x0E 1 f
  | .lpool f => encC 0x0E 2 f
  | .leave depth f => encC 0x0F depth f
  | .ldl f => [(0x10 : BitVec 5) ++ f.d ++ f.w ++ f.off]
  | .ld f => encM 0x11 f
  | .st f => encM 0x12 f
  | .lds f => encM 0x13 f
  | .sts f => encM 0x14 f
  | .ldu f => encM 0x15 f
  | .stu f => encM 0x16 f
  | .bar f => encA 0x19 0 f
  | .barArrive f => encA 0x19 0 f
  | .barWait f => encA 0x19 0 f
  | .barcfg f => encA 0x19 1 f
  | .gbar f => encA 0x19 2 f
  | .gbarArrive f => encA 0x19 2 f
  | .gbarWait f => encA 0x19 2 f
  | .sigpost f => encA 0x19 3 f
  | .sigpostRemote f => encA 0x19 3 f
  | .sigpostAddr f => encA 0x19 3 f
  | .sigwait f => encA 0x19 4 f
  | .waitcnt f => encA 0x19 5 f
  | .mma f => encA 0x1B 0 f
  | .mmab f => encA 0x1B 1 f
  | .accz f => encA 0x1B 2 f
  | .accrd f => encA 0x1B 3 f
  | .accrdStat f => encA 0x1B 3 f
  | .accwr f => encA 0x1B 4 f
  | .accwrStat f => encA 0x1B 4 f
  | .accst f => encA 0x1B 5 f
  | _ => []

/-- The instruction has words: it is one of the encoded rows. -/
def Instr.encoded (i : Instr) : Bool := !(encode i).isEmpty

end Sys2Proof
end

