-- ==== Sys2Proof/Machine/State.lean ====
section
/-! DEFINITION. The state of the Golsor module, whole, as plain data: everything spec/ gives the machine, and the few
fields of the model's own that INVENTORY.md lists under '## State'. -/

namespace Sys2Proof.Machine

/-- A sparse store: pairs of a key and a value with the keys strictly rising and no entry equal to zero, which is what an
unlisted key reads as. -/
abbrev Sparse (w : Nat) := List (Nat × BitVec w)

/-- Bytes by address. Ops.lean says which addresses are DRAM, host memory, data SRAM, far frames and operand stores. -/
abbrev Memory := List Host.Cell

/-- Why a step stops with a fault. -/
inductive Fault where
  /-- `exec` was asked to run an encoded instruction in a state that names no issuing gang. `step` never does so: it names
  the gang first. Raised by the meanings of the encoded instructions through `withIssue` (Ops.lean). Safe: it allows no
  behaviour. -/
  | noIssuer
  deriving DecidableEq, Repr

/-- Why the model declines an instruction. -/
inductive Refusal where
  /-- An instruction that the model gives no meaning. No arm of `exec` uses it now. Safe. -/
  | notModelled (mnemonic : String)
  deriving DecidableEq, Repr

/-! ### Pages, placement and caches (07, 08) -/

/-- The residency states of R155. -/
inductive Res where
  | home | near | far | shared | moving | poison
  deriving DecidableEq, Repr

/-- The memory types of R155. -/
inductive MType where
  | framed | stream | scratch | hostSnoop | hostNS | fabric | mmio | reserved
  deriving DecidableEq, Repr

/-- The placement fields of a page (R155): RES, MDIE, MUNIT, MFRAME and SECT. -/
structure Placement where
  res : Res := .home
  mdie : Nat := 0
  munit : Nat := 0
  mframe : Nat := 0
  sect : BitVec 16 := 0
  deriving DecidableEq, Repr

/-- What a walk takes from the leaf (R172), with the page it maps, the level of the leaf, the entry's address, and in a cached
leaf of a host page the frame that ATS gave for it (R181). -/
structure Leaf where
  w : Bool := false
  x : Bool := false
  a : Bool := false
  d : Bool := false
  pin : Bool := false
  g : Bool := false
  mtype : MType := .framed
  pfn : Nat := 0
  level : Nat := 0
  leafPa : Nat := 0
  ats : Option Nat := none
  deriving DecidableEq, Repr

/-- An entry of a placement cache (R173): the tags, the leaf and the placement as they were when the entry was filled. -/
structure CacheEntry where
  tenant : Nat
  asid : Nat
  vpn : Nat
  leaf : Leaf
  place : Placement
  deriving DecidableEq, Repr

/-- A replica of a SHARED page in a core's near frame (R158): the sectors present and the offsets of its dirty bytes,
rising. -/
structure Replica where
  die : Nat
  core : Nat
  frame : Nat
  present : BitVec 16 := 0
  dirty : List Nat := []
  deriving DecidableEq, Repr

/-- Who asks for a remap: a PLACE, by its party and by the core whose request entry the page takes until the start (R165); an
eviction that another change needs; or service software, by a PINV. -/
inductive Asker where
  | place (party : Option Nat) (site : CacheId)
  | eviction
  | service
  deriving DecidableEq, Repr

/-- A remap that has been asked for and not yet started (R161), with the number by which a PLACE waits for its start, and the
slice and frame of the page's home die to which a NEAR master moves when it is replicated (R160). -/
structure RemapReq where
  id : Nat
  goal : RemapGoal
  leafPa : Option Nat := none
  far : Option (Nat × Nat) := none
  asker : Asker := .eviction
  deriving DecidableEq, Repr

/-- A remap under way (R175): the caches that step 4 still waits for, those that have not yet received the invalidation, those
that have dropped their entry and not yet acknowledged, the acknowledgements on the reply mesh with the incarnation they
carry, and the slice and frame to which a cut moves the master (R178). `frees` marks the eviction of a HOME page's record, which
takes steps 2 to 4 alone (R174). -/
structure RemapRun where
  goal : RemapGoal
  old : Placement
  far : Option (Nat × Nat) := none
  wait : List CacheId := []
  sent : List CacheId := []
  dropped : List CacheId := []
  acks : List (CacheId × Nat) := []
  since : Nat := 0
  leafPa : Option Nat := none
  moved : Option (Nat × Nat) := none
  frees : Bool := false
  deriving DecidableEq, Repr

/-- A request that waits at a directory (R176): that of a slice of a crew, or an access of one of the device's agents, of the host
or over the links, as the step that makes it. -/
inductive Waiter where
  | slice (crew slice : Nat)
  | agent (step : Instr)
  deriving DecidableEq, Repr

/-- A drop of some sectors of a core's replica that waits for the end of a remap (07 R445). -/
structure Drop where
  die : Nat
  core : Nat
  sects : BitVec 16
  deriving DecidableEq, Repr

/-- The directory record of a page (R174), keyed by HOMEPFN: its placement, sharers and mirror leaf, the bits of the dies that
have written it (12 R275), the sectors written since the fill, its replicas, the remap under way and those asked for, and the
requests that wait for the end of the remap, in their order of arrival, those that were refused (R176), and the drops that wait for
it (07 R445). -/
structure PageRec where
  place : Placement := {}
  sharers : List CacheId := []
  mirror : Option Nat := none
  wsc : BitVec 4 := 0
  written : BitVec 16 := 0
  replicas : List Replica := []
  run : Option RemapRun := none
  queue : List RemapReq := []
  waiters : List Waiter := []
  refused : List Waiter := []
  drops : List Drop := []
  deriving DecidableEq, Repr

/-- A guarded range of a release (R203): nothing, a span of virtual addresses, or the whole address space. -/
inductive GRange where
  | nothing
  | span (lo hi : Nat)
  | whole
  deriving DecidableEq, Repr

/-- A pending record of a release at a synchronisation word (R204), with the time at which a drain of it first found no route to
its die (R258). -/
structure SyncRec where
  tenant : Nat
  die : Nat
  core : Nat
  inc : Nat
  range : GRange
  since : Option Nat := none
  deriving DecidableEq, Repr

/-- The entry of a synchronisation word, keyed by the granule's address in memory (R204). -/
structure SyncWord where
  granule : Nat
  recs : List SyncRec := []
  summary : GRange := .whole
  deriving DecidableEq, Repr

/-! ### Crews (02, 03, 04) -/

/-- A privilege level of a thread (12 R270). -/
inductive Level where
  | user | service | firmware
  deriving DecidableEq, Repr

/-- Where a crew runs: in a party on a compute core, with its crew slot on the core (R185), or as a service thread. -/
inductive CrewPlace where
  | compute (party index slot : Nat)
  | service (core thread : Nat)
  deriving DecidableEq, Repr

/-- The access kinds of a fault record (R185). -/
inductive Access where
  | load | store | fetch | atomic | engineRead | engineWrite | callRecord
  deriving DecidableEq, Repr

/-- A place of the scoreboard (04 R85, R86), as a pending write or as what an instruction reads or writes: a span of physical vector
registers, a range that an indirect operand names, a uniform register, an accumulator with its ASTAT, a predicate, an index
register, or a special register by its number. -/
inductive PendWrite where
  | vector (lo n : Nat)
  | range (base bound : Nat)
  | uniform (r : Nat)
  | acc (a : Nat)
  | pred (n : Nat)
  | index (x : Nat)
  | special (n : Nat)
  deriving DecidableEq, Repr

/-- What a slice waits for (02 R38): `reply` names the flight of its access, past which it has gone, to issue nothing but an EXIT
before the flight lands (22 R354); `accepted` is the wait of a release, a FENCE or an arrival for the earlier accesses of the
lanes that it names; `replay` is the end of a wait for a MOVING page, with its place in the order of arrival (08 R175); `drain` is
an acquire's wait for a route between a word's home and a die that a record names (11 R258), `cut` a PINV's wait for a die that
does not acknowledge (24 R397), `retry` that of an instruction that is tried again in its turn. A JOINW waits with the time at which it
last read its word, until it is to be read again (23 R370). Except for a reply, at a barrier phase and at REGANG, where the end of
the wait moves a slice on, the slice goes on with its instruction when the wait ends. -/
inductive Wait where
  | none
  | regang (record : Nat)
  | cross
  | matrix (owner : Nat)
  | reply (group : Nat)
  | accepted (lanes : BitVec 32)
  | moving (pfn : Nat)
  | replay (order : Nat)
  | route (die : Nat) (addr : DWord) (since : Nat)
  | drain (home die since : Nat)
  | cut (die since : Nat)
  | place (ids : List Nat)
  | barrier (level number : Nat) (phase : BitVec 32)
  | again (level number : Nat) (phase : BitVec 32)
  | signal (slot : Nat) (threshold : Word)
  | count (cls n : Nat)
  | join (addr : DWord) (threshold : Int) (since : Option Nat)
  | retry
  | parked
  deriving DecidableEq, Repr

/-- A trap that has been raised: its code, detail, the address concerned, the address at which ERET resumes, the words of
the instruction, and for a SYSCALL the caller's level (R182, R188, R189). -/
structure TrapInfo where
  code : BitVec 8
  info : DWord := 0
  addr : DWord := 0
  retpc : DWord := 0
  word : Word := 0
  pfx : Word := 0
  plev : BitVec 2 := 0
  deriving DecidableEq, Repr

/-- What an instruction that waits has read of its crew's shared registers at its issue, and the writes that it has pending (04 R85,
R87, R89). -/
structure Held where
  win : Nat
  xuni : Sparse 64
  sregs : Sparse 64
  lpb : DWord
  pend : List PendWrite
  deriving DecidableEq, Repr

/-- The state of one slice (03 R56; 04 R92, R95), with the words of the instruction that it issued last, which a trap that strikes
it while it waits records (R189), the address of the access with which it waits at a MOVING page (08 R179), the count of cycles it has been
ready and its promotion (R35). While it waits inside an instruction that it has issued, `held` holds what the instruction has read,
`entries` counts the entries for outstanding requests that it takes (01 R16), and `group` names the requests of an atomic whose
other lanes wait for a route (21 R334). -/
structure Slice where
  pc : DWord := 0
  link : DWord := 0
  word : Word := 0
  pfx : Word := 0
  addr : Option DWord := none
  wait : Wait := .none
  cause : BitVec 8 := 0
  info : DWord := 0
  pend : Option TrapInfo := none
  held : Option Held := none
  entries : Nat := 0
  group : Option Nat := none
  ready : Nat := 0
  promoted : Bool := false
  deriving DecidableEq, Repr

/-- A record of the rendezvous stack (R62). Its DEPTH is its place in the stack; `id` names it while records below it go. -/
structure RdvRec where
  id : Nat
  smask : BitVec 8
  arr : BitVec 8 := 0
  deriving DecidableEq, Repr

/-- A crew's handler slice and handler base (R353). -/
structure Handler where
  slice : Nat
  base : DWord
  deriving DecidableEq, Repr

/-- The tile a crew holds and its item counter (25 R406). -/
structure HeldTile where
  hold : Bool := false
  walk : Nat := 0
  tile : Nat := 0
  ic : Nat := 0
  deriving DecidableEq, Repr

/-- What IDEM records (02 R50, 23 R369), with the tiles, by walk slot and index, that the crew has taken since. -/
structure IdemRec where
  pc : DWord
  sregs : Sparse 64
  live : BitVec 32
  tile : HeldTile
  took : List (Nat × Nat) := []
  deriving DecidableEq, Repr

/-- The engine counter classes of R236, in WAITCNT's numbering. -/
inductive EngClass where
  | copy | gather | matrix | coll
  deriving DecidableEq, Repr

/-- The four engine counters of a crew (R236). -/
structure Counters where
  copy : BitVec 6 := 0
  gather : BitVec 6 := 0
  matrix : BitVec 6 := 0
  coll : BitVec 6 := 0
  deriving DecidableEq, Repr

/-- Where the value of one lane's access goes when it commits: physical vector registers, the lowest word first, and the lane's
ATLOC code if the access is an atomic (10 R214). -/
structure LaneDest where
  lane : Nat
  regs : List Nat := []
  code : Option Nat := none
  deriving DecidableEq, Repr

/-- An access that has issued and awaits replies from another device (02 R38; 04 R85; 23 R372, R373), as it was resolved at its
issue: the group of its requests, the slices that commit with it, the instruction, the destinations of its lanes or the uniform
registers, the size code of R295, the index offsets that the commit writes (register, lane, value), the lanes that it switches
off (07 R149), whether the core's replicas are dropped with it (09 R206), whether the reply is the call record of an ERET, and
its pending writes. -/
structure Flight where
  group : Nat
  mask : BitVec 8 := 0
  pc : DWord := 0
  word : Word := 0
  pfx : Word := 0
  len : Nat := 4
  lanes : List LaneDest := []
  uni : List Nat := []
  sz : BitVec 3 := 0
  offs : List (Nat × Nat × Nat) := []
  off : BitVec 32 := 0
  drop : Bool := false
  eret : Bool := false
  pend : List PendWrite := []
  deriving DecidableEq, Repr

/-- A matrix pass that has not retired: its accumulator, to which it is a pending write, and the registers that it holds against a
later write (06 R138). -/
structure Pass where
  acc : Nat
  reads : List PendWrite
  deriving DecidableEq, Repr

/-- One crew, on a compute core or a service thread (04 R77, R95); `started` once it has issued an instruction (02 R51); `passes` its
matrix passes, the earliest first. -/
structure Crew where
  place : CrewPlace
  started : Bool := false
  tenant : Nat := 0
  g : Nat := 8
  k : Nat := 0
  prio : Nat := 0
  pool : Bool := false
  level : Level := .user
  live : BitVec 32 := 0
  off : BitVec 32 := 0
  exec : BitVec 32 := 0
  preds : Sparse 32 := []
  sregs : Sparse 64 := []
  vregs : Sparse 32 := []
  xuni : Sparse 64 := []
  xofs : Sparse 9 := []
  acc : Sparse 32 := []
  astat : Sparse 32 := []
  atloc : Sparse 4 := []
  win : Nat := 0
  flags : BitVec 5 := 0
  ten : BitVec 5 := 0
  hstk : DWord := 0
  lpb : DWord := 0
  slices : List Slice := []
  rdv : List RdvRec := []
  handler : Option Handler := none
  frozen : Option (Nat × TrapInfo) := none
  cnt : Counters := {}
  unobserved : List (EngClass × GRange) := []
  failed : List (EngClass × BitVec 8) := []
  tile : HeldTile := {}
  idem : Option IdemRec := none
  pend : List PendWrite := []
  flights : List Flight := []
  passes : List Pass := []
  gridArr : List (Nat × BitVec 8) := []
  lost : List (Nat × DWord) := []
  stopped : Bool := false
  deriving DecidableEq, Repr

/-! ### Parties, outings and launches (02, 04, 12) -/

/-- A party or outing barrier (10 R225, R226): phase, arrivals and membership. -/
structure Barrier where
  phase : BitVec 32 := 0
  arrived : BitVec 32 := 0
  members : BitVec 32 := 0
  deriving DecidableEq, Repr

/-- A grid barrier (10 R225): its phase and the parties that have arrived. -/
structure GridBarrier where
  phase : BitVec 32 := 0
  arrived : List Nat := []
  deriving DecidableEq, Repr

/-- The life of a party (02 R45 to R52). -/
inductive PartyStatus where
  | resident
  | stopping (since : Nat)
  | saved (area : Nat)
  | discarded
  | retired
  deriving DecidableEq, Repr

/-- A party (02 R25; 04 R93). `toward` holds, at 4 × (level − 1) + number, the crews that have arrived at an outing or a grid
barrier in the phase in progress (10 R226); `saved` its crews as they stood when it was saved, of which the save
area does not carry everything (02 R49; log 37). -/
structure Party where
  launch : Nat
  index : Nat
  outing : Nat := 0
  member : Nat := 0
  die : Nat := 0
  core : Nat := 0
  crews : List Nat := []
  scratchSize : Nat := 0
  slotCount : Nat := 0
  sigCount : Nat := 0
  sigs : Sparse 32 := []
  sigSummary : List (Nat × GRange) := []
  bars : List Barrier := []
  nearQuota : Nat := 0
  nearFrames : List Nat := []
  nearPlaced : List (Nat × Nat) := []
  holds : List Nat := []
  status : PartyStatus := .resident
  restart : List (Option IdemRec) := []
  toward : Sparse 32 := []
  saved : List Crew := []
  deriving DecidableEq, Repr

/-- The four outing barriers of an outing, keyed by launch and outing number (R225). -/
structure Outing where
  launch : Nat
  index : Nat
  members : List Nat := []
  bars : List Barrier := []
  deriving DecidableEq, Repr

/-- A walk slot of a launch (02 R40 to R42, 26 R432): extents, hint, work counter, returned tiles, and the tiles each
core (die, core) has reserved, earliest first. -/
structure Walk where
  configured : Bool := false
  e0 : Nat := 0
  e1 : Nat := 0
  e2 : Nat := 0
  hbase : DWord := 0
  hstride : Int := 0
  hpages : Nat := 0
  counter : Nat := 0
  returned : List Nat := []
  reserved : List ((Nat × Nat) × List Nat) := []
  deriving DecidableEq, Repr

/-- A launch (02 R26, R31; 12 R266, R267). -/
structure Launch where
  tenant : Nat
  queue : Nat
  tag : BitVec 32 := 0
  addr : Nat := 0
  job : Nat := 0
  entry : DWord := 0
  e0 : Nat := 1
  e1 : Nat := 1
  e2 : Nat := 1
  res : DWord := 0
  prio : Nat := 0
  coop : Bool := false
  sys : Bool := false
  args : List DWord := []
  join : DWord := 0
  compl : DWord := 0
  nextOuting : Nat := 0
  retired : Nat := 0
  spvor : BitVec 32 := 0
  walks : List Walk := []
  gbars : List GridBarrier := []
  abandoned : Bool := false
  discarded : Bool := false
  complete : Bool := false
  heldPosts : List (Nat × Nat × Word × GRange) := []
  deriving DecidableEq, Repr

/-! ### Engines (11) -/

/-- The kind of an engine operation. -/
inductive EngKind where
  | copy | gather | scatter (op : Nat) | coll | mstore | putsig
  deriving DecidableEq, Repr

/-- How an engine operation stands (11 R242). -/
inductive EngStatus where
  | running
  | stopped
  | failed (cause : BitVec 8)
  deriving DecidableEq, Repr

/-- A lane's write of an MSTORE or a PUTSIG: its slice, address or offset, and data. -/
structure LaneWrite where
  slice : Nat
  addr : DWord
  data : List Byte
  deriving DecidableEq, Repr

/-- An engine operation in flight: its issuer, its descriptor or lane writes, its progress in elements, tiles and posts, the
die to which it waits for a route and since when (R258), the row and index of a GATHER or SCATTER that it has read last (R244), the slices
of a PUTSIG that have posted and those that have lost a write, with the cause (R250), the MOVING pages on which the drop of its
issue waits, before its first access (22 R347), and the instruction that issued it, for its fault records. -/
structure EngineOp where
  id : Nat
  crew : Nat
  party : Option Nat := none
  tenant : Nat
  die : Nat
  core : Nat
  cls : EngClass
  kind : EngKind
  desc : List DWord := []
  writes : List LaneWrite := []
  group : Nat := 0
  seq : Nat := 0
  elems : Nat := 0
  tiles : Nat := 0
  posts : Nat := 0
  status : EngStatus := .running
  dst : GRange := .nothing
  stall : Option (Nat × Nat) := none
  row : Option (Nat × Nat) := none
  posted : List Nat := []
  lost : List (Nat × BitVec 8) := []
  after : List Nat := []
  pc : DWord := 0
  word : Word := 0
  slice : Nat := 0
  lanes : Nat := 0
  deriving DecidableEq, Repr

/-- A member's contribution to a collective, as far as it has arrived: its bytes, and how many of them have come (11 R245, R246,
R252). -/
structure CollPart where
  group : Nat
  seq : Nat
  rank : Nat
  desc : List DWord
  data : List Byte
  got : Nat := 0
  deriving DecidableEq, Repr

/-! ### Tenants, queues and fault service (08, 12) -/

/-- Who a fault record concerns: the slices of a crew that are parked, with the address that faulted, a frozen crew, or an engine operation (R185, R187). -/
inductive FaultTarget where
  | slices (crew : Nat) (mask : BitVec 8) (addr : DWord)
  | frozen (crew : Nat)
  | engine (op : Nat)
  deriving DecidableEq, Repr

/-- A fault record before its SEQ and PHASE are known (R185): the double-words at 0x00 to 0x28. -/
structure FaultRec where
  target : FaultTarget
  words : List DWord
  deriving DecidableEq, Repr

/-- A queue of a tenant (12 R263). -/
structure Queue where
  state : BitVec 2 := 0
  rbase : DWord := 0
  rsize : Nat := 0
  widx : DWord := 0
  ridx : DWord := 0
  next : Nat := 0
  deriving DecidableEq, Repr

/-- A packet that has been read and is not complete (12 R266 to R268). -/
inductive JobKind where
  | fenced
  | barrier
  | copy
  | grid (launch : Nat)
  deriving DecidableEq, Repr

/-- A packet in progress, with its place among the packets of its queue. -/
structure Job where
  id : Nat
  kind : JobKind
  pkt : Packet
  deriving DecidableEq, Repr

/-- A tenant: its banked service registers (22 R349), the configuration last taken from its CCB (12 R260), the times that FQHEAD and
ERRHEAD have passed 2^32, its fault records and its queues. -/
structure Tenant where
  ccbaddr : DWord := 0
  apbase : DWord := 0
  aplen : DWord := 0
  root : Nat := 0
  asid : Nat := 0
  number : Nat := 0
  expl : Bool := false
  snapu : Bool := false
  octants : BitVec 16 := 0
  maxprio : Nat := 0
  ten : BitVec 5 := 0
  vdt : List (Option Nat) := []
  vecbase : Nat := 0
  errBase : Nat := 0
  errCount : Nat := 0
  errWraps : Nat := 0
  fqBase : DWord := 0
  fqSize : Nat := 0
  fqWraps : Nat := 0
  trapvec : DWord := 0
  halted : Bool := false
  waiting : List FaultRec := []
  open_ : List (Nat × FaultTarget) := []
  farPlaced : List ((Nat × Nat × Nat) × Nat) := []
  queues : List (Nat × Queue) := []
  deriving DecidableEq, Repr

/-! ### Dies, boot and the outside -/

/-- A compute die's reset domain (01 R14; 12 R273, R274): whether a checkpoint is under way, and the saved parties of the latest
one (12 R275). `fencedAt` and `lastBeat` are times, `clockBase` a count of cycles. -/
structure Die where
  inService : Bool := true
  inc : BitVec 8 := 0
  fencedAt : Option Nat := none
  lastBeat : Nat := 0
  clockBase : Nat := 0
  slowed : Bool := false
  ckpt : Bool := false
  checkpoint : List (Nat × Party) := []
  deriving DecidableEq, Repr

/-- The boot state (12 R277 to R279). -/
structure Boot where
  running : Bool := false
  stored : FwImage := { bytes := [], version := 0, ecdsa := [], lms := [] }
  fusedMin : Nat := 0
  measure : List (BitVec 384) := []
  lmsLeaf : Nat := 0
  deriving DecidableEq, Repr

/-- An off-module request (11 R252), with the lanes whose access it is. The requests of one issue share a `group`, by which their
flight is known; a store or a RED waits for its acceptance alone, and `told` says that its loss is reported to its lanes (25 R403,
R425); `op` names the engine operation that sent it. `data` holds the response once it has come, until the flight lands, and `failed`
the trap code of a failure; the result of a lane on this module waits here for the others. -/
structure Request where
  id : Nat := 0
  group : Nat := 0
  crew : Nat
  lane : Nat := 0
  mask : BitVec 32 := 0
  addr : DWord
  size : Nat
  since : Nat := 0
  store : Bool := false
  told : Bool := true
  op : Option Nat := none
  data : Option (List Byte) := none
  failed : Option Nat := none
  deriving DecidableEq, Repr

/-- What the module sends outside. -/
inductive Msg where
  | interrupt (vector : Nat)
  | stodorRead (endpoint page offset size : Nat) (request : Nat)
  | stodorWrite (endpoint page offset : Nat) (data : List Byte) (request : Nat)
  | stodorAtomic (endpoint page offset fn op ty : Nat) (operands : List Byte) (request : Nat)
  | mwrite (group offset : Nat) (data : List Byte) (request : Nat)
  | redread (group offset size op ty : Nat) (request : Nat)
  | signal (endpoint : Nat) (address : DWord) (value : Word) (request : Nat)
  | cdata (endpoint group seq rank offset : Nat) (desc : List DWord) (data : List Byte) (request : Nat)
  | accepted (dst tag : Nat)
  | response (dst tag : Nat) (data : List Byte)
  | refusedAccess (dst tag : Nat)
  | hostData (tag : Nat) (data : List Byte)
  | hostProbe (addr : Nat)
  | hostAtomic (addr op size : Nat) (operands : List Byte)
  | atsRequest (addr : Nat)
  | pageRequest (addr : Nat)
  | atsDone (tag : Nat)
  | mmioWrite (addr : Nat) (data : List Byte)
  | mmioRead (addr size : Nat)
  | spdm (digest : List Byte)
  | spdmError
  | heartbeat (addr : DWord) (count : DWord)
  deriving DecidableEq, Repr

/-- The gang that issues now: its crew, its slices, the address and words of its instruction, and its length in bytes
(4, or 8 with a prefix, R287). -/
structure Issue where
  crew : Nat
  mask : BitVec 8
  pc : DWord
  len : Nat
  word : Word
  pfx : Option Word
  deriving DecidableEq, Repr

/-- A table pointer that the die-level cache of a die holds (R173): the context's tags, the level of the entry that was read, the
bits of the virtual page number that it covers, and the table that it names. -/
structure TableEntry where
  die : Nat
  tenant : Nat
  asid : Nat
  level : Nat
  vpn : Nat
  table : Nat
  leafPa : Nat
  deriving DecidableEq, Repr

/-- What an access of one of the device's own agents met that makes its step wait: a MOVING page (08 R176), a die to which there is no
route, or a record at a synchronisation word whose die has none (11 R258). -/
inductive Met where
  | moving (pfn : Nat)
  | noRoute (die : Nat)
  | away (granule : Nat)
  deriving DecidableEq, Repr

/-- The state of the module. `clock` counts core cycles and `time` ticks of 1/2100 µs (01 R23); `routes` are the circuits that traffic
takes and `measured` those from which the hop distances were last computed (11 R255, R256); `replays` are the agents' steps that a
remap has held up and that go on now, with their place in the order of arrival (08 R175), and `stalled` those that wait for a route to
a die (11 R258). The fields `inputs`, `turn`, `rota`, `met`, `free`, `nextId`, `issue` and `portTurn` are the model's own. -/
structure State where
  clock : Nat := 0
  time : Nat := 0
  inputs : List Instr := []
  turn : Bool := false
  rota : Nat := 0
  met : Option Met := none
  free : Nat := 0
  nextId : Nat := 1
  issue : Option Issue := none
  mem : Memory := []
  crews : List (Nat × Crew) := []
  parties : List (Nat × Party) := []
  outings : List (Nat × Outing) := []
  launches : List (Nat × Launch) := []
  tenants : List (Nat × Tenant) := []
  dies : List Die := []
  pages : List (Nat × PageRec) := []
  caches : List (CacheId × CacheEntry) := []
  tables : List TableEntry := []
  replays : List (Nat × Instr) := []
  stalled : List (Nat × Instr) := []
  quarantine : List (Nat × Nat) := []
  syncs : List SyncWord := []
  ops : List EngineOp := []
  parts : List CollPart := []
  groupSeq : Sparse 32 := []
  groupRun : Sparse 32 := []
  requests : List Request := []
  jobs : List Job := []
  csr : Sparse 64 := []
  routes : List DWord := []
  measured : List DWord := []
  bankUse : Sparse 64 := []
  drowsy : List Nat := []
  lastIssued : Sparse 8 := []
  portTurn : Nat := 0
  hbCount : DWord := 0
  hbMissed : Nat := 0
  hbSeen : Bool := false
  hbLast : Nat := 0
  snapLatch : Option Nat := none
  boot : Boot := {}
  outbox : List Msg := []
  deriving DecidableEq, Repr

/-- The module right after a fundamental reset (12 R273): no launch, no party and no crew; the service registers that R349
gives a value other than zero (HBINT 100,000, PWRLIMIT 48); the four dies in service with incarnation 0 (R274); the
measurement registers at 48 zero bytes (R277). -/
def State.reset : State where
  csr := [(0x11, 100000), (0x20, 48)]
  dies := List.replicate 4 {}
  boot := { measure := List.replicate 8 0 }

end Sys2Proof.Machine
end

