-- ==== Sys2Proof/Machine/Sparse.lean ====
section
/-! DEFINITION. Sparse stores and keyed lists: the one form in which the state holds memory bytes, register files and
numbered records. -/

namespace Sys2Proof.Machine

/-- What a sparse store holds at a key; zero where nothing is listed. -/
def sget {w : Nat} : List (Nat × BitVec w) → Nat → BitVec w
  | [], _ => 0
  | (k', v) :: t, k => if k = k' then v else sget t k

/-- Lists a value under a key, in key order. -/
def sput {w : Nat} : List (Nat × BitVec w) → Nat → BitVec w → List (Nat × BitVec w)
  | [], k, v => [(k, v)]
  | (k', v') :: t, k, v =>
    if k < k' then (k, v) :: (k', v') :: t
    else if k = k' then (k, v) :: t
    else (k', v') :: sput t k v

/-- Writes a key of a sparse store; writing zero removes the entry. -/
def sset {w : Nat} (m : List (Nat × BitVec w)) (k : Nat) (v : BitVec w) : List (Nat × BitVec w) :=
  if v = 0 then m.filter fun kv => kv.1 != k else sput m k v

/-- Writes the keys of a list of pairs in turn. -/
def ssetAll {w : Nat} (m : List (Nat × BitVec w)) (kvs : List (Nat × BitVec w)) : List (Nat × BitVec w) :=
  kvs.foldl (fun m kv => sset m kv.1 kv.2) m

/-- Zeroes the keys from `lo` to below `hi`. -/
def sclear {w : Nat} (m : List (Nat × BitVec w)) (lo hi : Nat) : List (Nat × BitVec w) :=
  m.filter fun kv => kv.1 < lo || hi ≤ kv.1

/-- The keys lie above `lo` and rise, and no value is zero: the canonical form. -/
def swfFrom {w : Nat} : Nat → List (Nat × BitVec w) → Bool
  | _, [] => true
  | lo, (k, v) :: t => lo ≤ k && v != 0 && swfFrom (k + 1) t

/-- The canonical form of memory: addresses strictly rising, and no entry equal to what an unlisted address reads as. -/
def Memory.wf (m : Memory) : Bool := swfFrom 0 m

/-- The record under a key. -/
def aget {α : Type} : List (Nat × α) → Nat → Option α
  | [], _ => none
  | (k', v) :: t, k => if k = k' then some v else aget t k

/-- Writes the record under a key, in key order. -/
def aset {α : Type} : List (Nat × α) → Nat → α → List (Nat × α)
  | [], k, v => [(k, v)]
  | (k', v') :: t, k, v =>
    if k < k' then (k, v) :: (k', v') :: t
    else if k = k' then (k, v) :: t
    else (k', v') :: aset t k v

/-- Removes the record under a key. -/
def adel {α : Type} (l : List (Nat × α)) (k : Nat) : List (Nat × α) := l.filter fun kv => kv.1 != k

/-- Changes the record under a key, where there is one. -/
def amod {α : Type} : List (Nat × α) → Nat → (α → α) → List (Nat × α)
  | [], _, _ => []
  | (k', v) :: t, k, f => if k' = k then (k', f v) :: t else (k', v) :: amod t k f

/-- Replaces the element at an index. -/
def lset {α : Type} (l : List α) (i : Nat) (v : α) : List α := l.set i v

/-- Changes the element at an index, where there is one. -/
def lmod {α : Type} : List α → Nat → (α → α) → List α
  | [], _, _ => []
  | a :: t, 0, f => f a :: t
  | a :: t, i + 1, f => a :: lmod t i f

/-- Bit `i` of a mask. -/
def mbit {w : Nat} (m : BitVec w) (i : Nat) : Bool := m.getLsbD i

/-- A mask with bit `i` set to a value. -/
def mset {w : Nat} (m : BitVec w) (i : Nat) (b : Bool) : BitVec w :=
  if b then m ||| BitVec.ofNat w (2 ^ i) else m &&& ~~~(BitVec.ofNat w (2 ^ i))

/-- The mask of the numbers below `n` that satisfy a test. -/
def maskOf (w n : Nat) (f : Nat → Bool) : BitVec w :=
  (List.range n).foldl (fun m i => if f i then m ||| BitVec.ofNat w (2 ^ i) else m) 0

/-- The numbers below `n` whose bits are set. -/
def maskList {w : Nat} (m : BitVec w) (n : Nat) : List Nat := (List.range n).filter (mbit m)

/-- Minimum of a list of numbers. -/
def lmin : List Nat → Option Nat
  | [] => none
  | a :: t =>
    match lmin t with
    | none => some a
    | some b => some (min a b)

/-- Union of guarded ranges: the smallest range that covers both, or the whole set (09 R204). -/
def GRange.join (a b : GRange) : GRange :=
  match a, b with
  | .nothing, r | r, .nothing => r
  | .whole, _ | _, .whole => .whole
  | .span l h, .span l' h' => .span (min l l') (max h h')

/-- The range holds an address. -/
def GRange.has (r : GRange) (a : Nat) : Bool :=
  match r with
  | .nothing => false
  | .whole => true
  | .span l h => l ≤ a && a < h

/-- The range meets the addresses from `lo` to below `hi`. -/
def GRange.meets (r : GRange) (lo hi : Nat) : Bool :=
  match r with
  | .nothing => false
  | .whole => true
  | .span l h => l < hi && lo < h

end Sys2Proof.Machine
end

