-- ==== Sys2Proof/Machine/Memory.lean ====
section
/-! DEFINITION. Memory bytes, page tables, placement caches, the directory's view of a page, replicas, and where each
access goes (spec 01, 07, 08). Nothing here belongs to one instruction. -/

namespace Sys2Proof.Machine

/-! ### Bytes and where they lie in the one memory (log 20) -/

/-- Bytes from an address. -/
def State.memRead (s : State) (a n : Nat) : List Byte := (List.range n).map fun i => sget s.mem (a + i)

/-- Stores bytes from an address. -/
def memWriteGo (m : Memory) (a : Nat) : List Byte → Memory
  | [] => m
  | b :: bs => memWriteGo (sset m a b) (a + 1) bs

/-- Stores bytes from an address. -/
def State.memWrite (s : State) (a : Nat) (bs : List Byte) : State := { s with mem := memWriteGo s.mem a bs }

/-- Zeroes bytes. -/
def State.memZero (s : State) (a n : Nat) : State := { s with mem := sclear s.mem a (a + n) }

/-- Copies bytes between disjoint places. -/
def State.memCopy (s : State) (dst src n : Nat) : State := s.memWrite dst (s.memRead src n)

/-- Host memory byte `a`. -/
def hostBase : Nat := 2 ^ 52

/-- Data SRAM byte of a core. -/
def sramAddr (die core off : Nat) : Nat := 2 ^ 53 + (die * 32 + core) * 2 ^ 22 + off

/-- Byte of a frame of a frame slice. -/
def farAddr (die slice frame off : Nat) : Nat := 2 ^ 53 + 2 ^ 32 + (die * 16 + slice) * 2 ^ 23 + frame * 4096 + off

/-- Byte of an operand slot of a party, which no other party reaches (02 R25; 06 R122). -/
def slotAddr (party slot off : Nat) : Nat := (2 ^ 31 + party) * 2 ^ 24 + 2 ^ 23 + slot * Config.slotBytes + off

/-- Byte of a party's scratchpad (07 R148). -/
def scratchAddr (party off : Nat) : Nat := (2 ^ 31 + party) * 2 ^ 24 + off

/-- The stack, and so the compute die, whose DRAM holds a frame (log 5). -/
def homeStack (pfn : Nat) : Nat := pfn * 4096 / Config.stackBytes % 4

/-- The directory slice of a frame on its home die (08 R174). -/
def dirSlice (pfn : Nat) : Nat := pfn % 16

/-! ### Lookups -/

/-- A tenant by number. -/
def State.tenant (s : State) (t : Nat) : Tenant := (aget s.tenants t).getD {}

/-- Changes a tenant. -/
def State.modTenant (s : State) (t : Nat) (f : Tenant → Tenant) : State :=
  { s with tenants := aset s.tenants t (f (s.tenant t)) }

/-- The directory record of a frame. -/
def State.page (s : State) (pfn : Nat) : PageRec := (aget s.pages pfn).getD {}

/-- Changes the directory record of a frame. -/
def State.modPage (s : State) (pfn : Nat) (f : PageRec → PageRec) : State :=
  { s with pages := aset s.pages pfn (f (s.page pfn)) }

/-- A compute die. -/
def State.die (s : State) (d : Nat) : Die := s.dies.getD d {}

/-- Changes a compute die. -/
def State.modDie (s : State) (d : Nat) (f : Die → Die) : State := { s with dies := lmod s.dies d f }

/-- A fresh identifier. -/
def State.fresh (s : State) : State × Nat := ({ s with nextId := s.nextId + 1 }, s.nextId)

/-- A fresh free value (log 8). -/
def State.freeVal (s : State) : State × BitVec 64 := ({ s with free := s.free + 1 }, Config.freeValue s.free)

/-- Sends a message outside. -/
def State.send (s : State) (m : Msg) : State := { s with outbox := s.outbox ++ [m] }

/-- The die of a place that caches entries; the I/O die is 4. -/
def cacheDie : CacheId → Nat
  | .core d _ => d
  | .die d => d
  | .io => 4

/-- The die-level cache that serves a core's cache; the service cores have theirs alone. -/
def cacheLevel : CacheId → CacheId
  | .core d _ => .die d
  | c => c

/-! ### Residency -/

/-- The code of RES (07 R155). -/
def Res.code : Res → Nat
  | .home => 0
  | .near => 1
  | .far => 2
  | .shared => 3
  | .moving => 4
  | .poison => 5

/-- The code of MTYPE (07 R155). -/
def MType.code : MType → Nat
  | .framed => 0
  | .stream => 1
  | .scratch => 2
  | .hostSnoop => 3
  | .hostNS => 4
  | .fabric => 5
  | .mmio => 6
  | .reserved => 7

/-- MTYPE from its code. -/
def MType.ofCode (x : Nat) : MType :=
  match x with
  | 0 => .framed
  | 1 => .stream
  | 2 => .scratch
  | 3 => .hostSnoop
  | 4 => .hostNS
  | 5 => .fabric
  | 6 => .mmio
  | _ => .reserved

/-- A remap moves the page: one other than the eviction of its record (08 R174, R175). -/
def PageRec.moving (r : PageRec) : Bool := r.run.any fun x => !x.frees

/-- The page is MOVING and a core has a replica of it, or gets one by the remap, so that a drop of the core's replicas waits for its
end (07 R160, R445). -/
def PageRec.dropsAt (r : PageRec) (die core : Nat) : Bool :=
  r.moving &&
    (r.replicas.any (fun x => x.die = die && x.core = core) ||
      match r.run with
      | some { goal := .replica d c _, old := p, .. } =>
        (d = die && c = core) || (p.res == .near && p.mdie = die && p.munit = core)
      | _ => false)

/-- The placement under which a page's bytes are found now: the one being left while it is MOVING (08 R175). -/
def PageRec.held (r : PageRec) : Placement :=
  match r.run with
  | some run => run.old
  | none => r.place

/-- The byte of a page's master frame, none when the master is the DRAM home (07 R155 to R157). -/
def Placement.frameAddr (p : Placement) (off : Nat) : Option Nat :=
  let master :=
    if p.munit < 32 then sramAddr p.mdie p.munit (p.mframe * 4096 + off)
    else if p.munit < 48 then farAddr p.mdie (p.munit - 32) p.mframe off
    else farAddr p.mdie (p.munit - 48) (1024 + p.mframe) off
  match p.res with
  | .near | .far => some master
  | .shared => if p.munit = 0 then none else some master
  | .home | .moving | .poison => none

/-- The byte of a page's DRAM home. -/
def homeAddr (pfn off : Nat) : Nat := pfn * 4096 + off

/-- The byte of a page's master. -/
def masterAddr (pfn : Nat) (p : Placement) (off : Nat) : Nat := (p.frameAddr off).getD (homeAddr pfn off)

/-- The drowsy banks of frame slices: the bank that an address of a far frame uses, of 24 in each slice (01 R18). -/
def farBank (a : Nat) : Option Nat :=
  if 2 ^ 53 + 2 ^ 32 ≤ a && a < 2 ^ 53 + 2 ^ 32 + 64 * 2 ^ 23 then
    let o := a - (2 ^ 53 + 2 ^ 32)
    some (o / 2 ^ 23 * 24 + o % 2 ^ 23 / 4096 / 64)
  else none

/-- An access to a frame slice's bank: it is at full voltage and its idle count starts again (01 R18). -/
def State.useBank (s : State) (a : Nat) : State :=
  match farBank a with
  | none => s
  | some b => { s with bankUse := sset s.bankUse b (BitVec.ofNat 64 s.clock), drowsy := s.drowsy.filter (· != b) }

/-- Fills an absent sector of a master frame from its DRAM home (07 R154). -/
def State.fillMaster (s : State) (pfn : Nat) (off : Nat) : State :=
  let r := s.page pfn
  let sec := off / 256
  match (r.held).frameAddr (sec * 256) with
  | none => s
  | some a =>
    if mbit r.held.sect sec then s
    else
      let s := s.memCopy a (homeAddr pfn (sec * 256)) 256
      s.modPage pfn fun r =>
        match r.run with
        | some run => { r with run := some { run with old := { run.old with sect := mset run.old.sect sec true } } }
        | none => { r with place := { r.place with sect := mset r.place.sect sec true } }

/-- Reads bytes of a page at its master (00 R9), filling an absent sector first. -/
def State.masterRead (s : State) (pfn off n : Nat) : State × List Byte :=
  let s := s.fillMaster pfn off
  let a := masterAddr pfn (s.page pfn).held off
  (s.useBank a, s.memRead a n)

/-- Marks the sectors of a write, and the writing die's bit of WSC (08 R174, 12 R275). -/
def markWrite (die off : Nat) (r : PageRec) : PageRec :=
  { r with
    wsc := if die < 4 then mset r.wsc die true else r.wsc
    written := if (r.held.frameAddr 0).isSome then mset r.written (off / 256) true else r.written }

/-- Writes bytes of a page at its master, on behalf of a die (4 or above for the I/O die and the host). -/
def State.masterWrite (s : State) (die pfn off : Nat) (bs : List Byte) : State :=
  let s := s.fillMaster pfn off
  let a := masterAddr pfn (s.page pfn).held off
  ((s.useBank a).memWrite a bs).modPage pfn (markWrite die off)

/-- Reads bytes at a physical address of device memory, at their masters. -/
def State.physRead (s : State) (pa n : Nat) : List Byte :=
  (List.range n).map fun i =>
    let a := pa + i
    let r := s.page (a / 4096)
    let p := r.held
    if mbit p.sect (a % 4096 / 256) then sget s.mem (masterAddr (a / 4096) p (a % 4096)) else sget s.mem a

/-- Writes bytes at a physical address of device memory, at their masters. -/
def State.physWrite (s : State) (die pa : Nat) (bs : List Byte) : State :=
  (bs.foldl (fun (p : State × Nat) b => (p.1.masterWrite die (p.2 / 4096) (p.2 % 4096) [b], p.2 + 1)) (s, pa)).1

/-- A read at a physical address uses the bank that serves it (01 R18; 07 R153). -/
def State.usePhys (s : State) (pa : Nat) : State := s.useBank (masterAddr (pa / 4096) (s.page (pa / 4096)).held (pa % 4096))

/-- Bytes at a physical address as a number. -/
def State.physNat (s : State) (pa n : Nat) : Nat := leNat (s.physRead pa n)

/-! ### Replicas (07 R154, R158, R445) -/

/-- The replica of a page in a core. -/
def PageRec.replicaIn (r : PageRec) (die core : Nat) : Option Replica :=
  r.replicas.find? fun x => x.die = die && x.core = core

/-- Changes the replica of a page in a core. -/
def PageRec.modReplica (r : PageRec) (die core : Nat) (f : Replica → Replica) : PageRec :=
  { r with replicas := r.replicas.map fun x => if x.die = die && x.core = core then f x else x }

/-- The replica of a page that a site holds. -/
def PageRec.replicaAt (r : PageRec) (site : CacheId) : Option Replica :=
  match site with
  | .core d c => r.replicaIn d c
  | _ => none

/-- A byte of a replica's frame. -/
def Replica.addr (x : Replica) (off : Nat) : Nat := sramAddr x.die x.core (x.frame * 4096 + off)

/-- Merges the dirty bytes of one replica that pass a test into the master (07 R158). -/
def State.mergeReplica (s : State) (pfn die core : Nat) (test : Nat → Bool) : State :=
  match (s.page pfn).replicaIn die core with
  | none => s
  | some x =>
    let goes := x.dirty.filter test
    let s := goes.foldl (fun s off => s.masterWrite die pfn off [sget s.mem (x.addr off)]) s
    s.modPage pfn fun r => r.modReplica die core fun x => { x with dirty := x.dirty.filter fun o => !test o }

/-- Fills an absent sector of a replica from the master (07 R154). -/
def State.fillReplica (s : State) (pfn : Nat) (x : Replica) (off : Nat) : State :=
  let sec := off / 256
  if mbit x.present sec then s
  else
    let (s, bs) := s.masterRead pfn (sec * 256) 256
    (s.memWrite (x.addr (sec * 256)) bs).modPage pfn fun r =>
      r.modReplica x.die x.core fun x => { x with present := mset x.present sec true }

/-- Merges and drops the contents of a core's replicas on the frames that a test names, sector by sector (07 R445). -/
def State.dropReplicas (s : State) (die core : Nat) (hit : Nat → Nat → Bool) : State :=
  s.pages.foldl (fun s (pfn, r) =>
    match r.replicaIn die core with
    | none => s
    | some _ =>
      let s := s.mergeReplica pfn die core fun off => hit pfn (off / 256)
      s.modPage pfn fun r => r.modReplica die core fun x =>
        { x with present := maskOf 16 16 fun i => mbit x.present i && !hit pfn i }) s

/-- Merges a core's dirty bytes on the frames and sectors that a test names (09 R205 to R209). -/
def State.mergeDirty (s : State) (die core : Nat) (hit : Nat → Nat → Bool) : State :=
  s.pages.foldl (fun s (pfn, r) =>
    match r.replicaIn die core with
    | none => s
    | some _ => s.mergeReplica pfn die core fun off => hit pfn (off / 256)) s

/-! ### Page tables (08 R169 to R172) -/

/-- What an access needs of a leaf. -/
inductive Need where
  | read | write | fetch
  deriving DecidableEq, Repr

/-- The index of a level in a virtual address and the size of its entries (08 R169). -/
def walkIndex (va level : Nat) : Nat :=
  match level with
  | 0 => natBits va 19 12
  | 1 => natBits va 28 20
  | 2 => natBits va 37 29
  | 3 => natBits va 46 38
  | _ => natBits va 55 47

/-- What a walk finds: no valid entry, an entry that breaks a rule, or a leaf with the entries it passed, root first. -/
inductive Walked where
  | absent
  | bad
  | leaf (l : Leaf) (path : List Nat)
  deriving DecidableEq, Repr

/-- A leaf from the low double-word of its entry. -/
def leafOf (w : Nat) (level pa pfn : Nat) : Leaf :=
  { w := natBit w 1, x := natBit w 2, a := natBit w 3, d := natBit w 4, pin := level == 0 && natBit w 5, g := natBit w 6
    mtype := MType.ofCode (natBits w 10 8), pfn := pfn, level := level, leafPa := pa }

/-- The walk from a level downward: `fuel` is the level plus one. -/
def walkFrom (s : State) (va : Nat) : Nat → Nat → List Nat → Walked
  | 0, _, _ => .bad
  | level + 1, table, path =>
    let size := if level = 0 then 16 else 8
    let pa := table * 4096 + walkIndex va level * size
    let w := s.physNat pa 8
    if !natBit w 0 then .absent
    else if level = 0 then
      if natBits w 13 11 ≥ 6 then .bad else .leaf (leafOf w 0 pa (natBits w 55 16)) (path ++ [pa])
    else if natBit w 7 then
      if level ≥ 3 then .bad
      else
        let pages := if level = 1 then 256 else 131072
        let base := natBits w 55 16
        if base % pages ≠ 0 then .bad
        else .leaf (leafOf w level pa (base + va / 4096 % pages)) (path ++ [pa])
    else walkFrom s va level (natBits w 55 16) (path ++ [pa])

/-- The walk of a tenant's tables (08 R169). -/
def State.walk (s : State) (t va : Nat) : Walked := walkFrom s va 5 (s.tenant t).root []

/-- The number of page-number bits below the index of a level (08 R169). -/
def levelShift (level : Nat) : Nat :=
  match level with
  | 0 => 0
  | 1 => 8
  | 2 => 17
  | 3 => 26
  | _ => 35

/-- The lowest table pointer that a die-level cache holds for a page (08 R173). -/
def State.tableHit (s : State) (site : CacheId) (t vpn : Nat) : Option TableEntry :=
  [1, 2, 3, 4].findSome? fun level =>
    s.tables.find? fun e =>
      e.die = cacheDie site && e.tenant = t && e.asid = (s.tenant t).asid && e.level = level && e.vpn = vpn / 2 ^ levelShift level

/-- The walk of a page for a cache, from the lowest table pointer that the die-level cache holds (08 R173). -/
def State.walkVia (s : State) (site : CacheId) (t va : Nat) : Walked :=
  match s.tableHit site t (natBits va 55 12) with
  | some e => walkFrom s va e.level e.table []
  | none => s.walk t va

/-- The virtual page number of an address. -/
def vpnOf (va : Nat) : Nat := natBits va 55 12

/-- The placement that a walk takes from the directory (08 R172); leaves that cannot move are HOME (07 R156). -/
def State.leafPlace (s : State) (l : Leaf) : Placement :=
  if l.level = 0 && l.mtype == .framed then (s.page l.pfn).place else {}

/-- The address is canonical (07 R147). -/
def canonical (va : Nat) : Bool := va < 2 ^ 55 || (2 ^ 64 - 2 ^ 55 ≤ va && va < 2 ^ 64)

/-- The party window and the outing window (07 R147). -/
def partyWindow : Nat := 0xFFFFFF0000000000
/-- The outing window. -/
def outingWindow : Nat := 0xFFFFFF0001000000

/-- The address lies in the party window. -/
def inPartyWindow (va : Nat) : Bool := partyWindow ≤ va && va < partyWindow + 0x200000
/-- The address lies in the outing window. -/
def inOutingWindow (va : Nat) : Bool := outingWindow ≤ va && va < outingWindow + 0x1000000

/-- An entry of a cache serves a page of a context (08 R173). -/
def CacheEntry.serves (e : CacheEntry) (t : Nat) (ten : Tenant) (vpn : Nat) : Bool :=
  e.tenant = t && e.vpn = vpn && (e.leaf.g || e.asid = ten.asid)

/-- The entry for a page in one cache. -/
def State.cached (s : State) (c : CacheId) (t vpn : Nat) : Option CacheEntry :=
  (s.caches.find? fun (k, e) => k == c && e.serves t (s.tenant t) vpn).map (·.2)

/-- The addresses of the entries that a walk from a level downward reads. `fuel` is the level plus one. -/
def walkReads (s : State) (va : Nat) : Nat → Nat → List Nat
  | 0, _ => []
  | level + 1, table =>
    let pa := table * 4096 + walkIndex va level * (if level = 0 then 16 else 8)
    let w := s.physNat pa 8
    pa :: (if !natBit w 0 || level = 0 || natBit w 7 then [] else walkReads s va level (natBits w 55 16))

/-- A walk of a tenant's tables uses the banks that serve its entries (01 R18; 07 R153). -/
def State.useWalk (s : State) (t va : Nat) : State := (walkReads s va 5 (s.tenant t).root).foldl State.usePhys s

/-- The result of translation before any effect: how the leaf was found. -/
inductive Found where
  | absent
  | bad
  | hit (e : CacheEntry)
  | filled (l : Leaf) (p : Placement) (path : List Nat)
  deriving DecidableEq, Repr

/-- The lookup order of R173: the core's cache, the die-level cache, the walk, which starts at a cached table pointer. -/
def State.find (s : State) (site : CacheId) (t va : Nat) : Found :=
  let vpn := vpnOf va
  match s.cached site t vpn with
  | some e => .hit e
  | none =>
    match s.cached (cacheLevel site) t vpn with
    | some e => .hit e
    | none =>
      match s.walkVia site t va with
      | .absent => .absent
      | .bad => .bad
      | .leaf l path => .filled l (s.leafPlace l) path

/-- A lookup that ends in no leaf, or changes nothing, uses the banks of the entries that its walk reads (01 R18). -/
def State.useFind (s : State) (site : CacheId) (t va : Nat) : State :=
  let vpn := vpnOf va
  if (s.cached site t vpn).isSome || (s.cached (cacheLevel site) t vpn).isSome then s
  else
    match s.tableHit site t (natBits va 55 12) with
    | some e => (walkReads s va e.level e.table).foldl State.usePhys s
    | none => s.useWalk t va

/-- Where an access goes once translated. -/
inductive Tgt where
  | scratch (addr : Nat) (peer : Bool)
  | violation
  | paged (pfn : Nat) (place : Placement) (off leafPa : Nat)
  | dram (pa : Nat)
  | host (pa : Nat) (snoop : Bool)
  | fabric (endpoint page off : Nat)
  | mmio (pa : Nat)
  deriving DecidableEq, Repr

/-- What translation says of an access (21 R326, step 7), or for a fetch that its place cannot be reached (11 R258). -/
inductive Xlat where
  | ok (t : Tgt)
  | page
  | prot
  | poison
  | heart
  | moving (pfn : Nat)
  | link (t : Tgt)
  deriving DecidableEq, Repr

/-- The leaf allows what the access needs (08 R171). -/
def Leaf.permits (l : Leaf) : Need → Bool
  | .read => true
  | .write => l.w
  | .fetch => l.x

/-- HBFENCE: the host is fenced (12 R272). -/
def State.hostFenced (s : State) : Bool := sget s.csr 0x12 != 0

/-- A host page's access: fenced, denied by ATS, which raises PAGE, or at the translated address, which is the cached one or what
the host's translation agent answers now (08 R181; 12 R272; log 50). -/
def State.hostXlat (s : State) (l : Leaf) (off : Nat) (snoop : Bool) : Xlat :=
  if s.hostFenced then .heart
  else
    match l.ats.orElse fun _ => Config.atsTranslate s.time l.pfn with
    | some x => .ok (.host (hostBase + homeAddr x off) snoop)
    | none => .page

/-- The ATS request for a host page that no cache has the translation of, and where the translation is denied the page request of
PRI (08 R181; 12 R259; log 50). -/
def State.askAts (s : State) (l : Leaf) : State :=
  if (l.mtype == .hostSnoop || l.mtype == .hostNS) && l.ats.isNone && !s.hostFenced then
    let s := s.send (.atsRequest (homeAddr l.pfn 0))
    if (Config.atsTranslate s.time l.pfn).isNone then s.send (.pageRequest (homeAddr l.pfn 0)) else s
  else s

/-- The same for the page that a cache's lookup of an address finds. -/
def State.askHost (s : State) (site : CacheId) (t va : Nat) : State :=
  match s.find site t va with
  | .hit e => s.askAts e.leaf
  | .filled l _ _ => s.askAts l
  | .absent | .bad => s

/-- What a leaf and its placement give for an access (07 R155 to R157; 08 R171). A page whose record is MOVING makes the access
wait even where the cache still holds the old entry: the request is refused at the old place (07 R165; 08 R176; log 40). -/
def State.route (s : State) (l : Leaf) (p : Placement) (va : Nat) (need : Need) : Xlat :=
  let off := va % 4096
  if !l.permits need then .prot
  else
    match l.mtype with
    | .scratch | .reserved => .prot
    | .stream => .ok (.dram (homeAddr l.pfn off))
    | .hostSnoop => s.hostXlat l off true
    | .hostNS => s.hostXlat l off false
    | .fabric => .ok (.fabric (natBits l.pfn 39 24) (natBits l.pfn 23 0) off)
    | .mmio => .ok (.mmio (homeAddr l.pfn off))
    | .framed =>
      if l.level ≠ 0 then .ok (.dram (homeAddr l.pfn off))
      else
        match (if (s.page l.pfn).place.res == .moving then Res.moving else p.res) with
        | .moving => .moving l.pfn
        | .poison => .poison
        | _ => .ok (.paged l.pfn p off l.leafPa)

/-- Translation of an address outside the windows, with no effect. -/
def State.xlate (s : State) (site : CacheId) (t va : Nat) (need : Need) : Xlat :=
  if !canonical va then .prot
  else
    match s.find site t va with
    | .absent => .page
    | .bad => .prot
    | .hit e => s.route e.leaf e.place va need
    | .filled l p _ => s.route l p va need

/-- Sets A in the entries that a walk passed, whose banks it uses, and D in the leaf at a write (07 R153, R155, 08 R170). -/
def State.setAD (s : State) (path : List Nat) (leafPa : Nat) (write : Bool) : State :=
  let s := path.foldl (fun s pa =>
    let b := (s.physRead pa 1).headD 0
    if mbit b 3 then s.usePhys pa else s.physWrite 4 pa [b ||| 8]) s
  if write then
    let b := (s.physRead leafPa 1).headD 0
    if mbit b 4 then s else s.physWrite 4 leafPa [b ||| 16]
  else s

/-- Puts an entry into a cache of a given size; the oldest entry makes room (log 16). -/
def putEntry (l : List (CacheId × CacheEntry)) (c : CacheId) (e : CacheEntry) (cap : Nat) :
    List (CacheId × CacheEntry) :=
  let l := l.filter fun (k, x) => !(k == c && x.tenant = e.tenant && x.vpn = e.vpn && x.asid = e.asid)
  let l := if (l.filter (·.1 == c)).length < cap then l else l.eraseP (·.1 == c)
  l ++ [(c, e)]

/-- Puts the table pointers that a walk has read into the die-level cache of a compute die; the oldest of 1,024 makes room. A path
lists the entries from the level at which the walk started down to the leaf's (08 R173; log 16). -/
def State.keepTables (s : State) (site : CacheId) (t va level : Nat) (path : List Nat) : State :=
  let d := cacheDie site
  if 4 ≤ d then s
  else
    let n := path.length - 1
    let new : List TableEntry := (path.take n).zipIdx.map fun (pa, i) =>
      { die := d, tenant := t, asid := (s.tenant t).asid, level := level + n - i
        vpn := natBits va 55 12 / 2 ^ levelShift (level + n - i), table := natBits (s.physNat pa 8) 55 16, leafPa := pa }
    let (mine, rest) := (s.tables ++ new).partition fun e => e.die = d
    { s with tables := rest ++ mine.drop (mine.length - 1024) }

/-- The directory holds a record of the page (08 R174). -/
def PageRec.kept (r : PageRec) : Bool := r.mirror.isSome || !r.sharers.isEmpty || r.place.res != .home || r.run.isSome

/-- Every cache drops its entry of a page that can be placed. -/
def State.dropAll (s : State) (pfn : Nat) : State :=
  { s with caches := s.caches.filter fun ce =>
      !(ce.2.leaf.pfn = pfn && ce.2.leaf.level = 0 && ce.2.leaf.mtype == .framed) }

/-- The records of a page's directory slice (08 R174). -/
def State.sliceRecords (s : State) (pfn : Nat) : List (Nat × PageRec) :=
  s.pages.filter fun x => dirSlice x.1 = dirSlice pfn && homeStack x.1 = homeStack pfn && x.2.kept

/-- The page has a record, or its slice has room for one, of 65,536 (08 R174). -/
def State.recordRoom (s : State) (pfn : Nat) : Bool :=
  s.pages.length < 65536 || (s.page pfn).kept || (s.sliceRecords pfn).length < 65536

/-- The page whose record a slice without room evicts next: a HOME page on which nothing is under way; none while an eviction runs
there (08 R174; log 51). -/
def State.recordVictim (s : State) (pfn : Nat) : Option Nat :=
  let mine := s.sliceRecords pfn
  if mine.any fun x => x.2.run.any (·.frees) then none
  else
    (mine.find? fun x => x.2.place.res == .home && x.2.run.isNone && x.2.queue.isEmpty && x.2.waiters.isEmpty).map (·.1)

/-- The slice of a page evicts a record, whose sharers it invalidates first (08 R174, R175). -/
def State.evictRecord (s : State) (pfn : Nat) : State :=
  match s.recordVictim pfn with
  | some q =>
    s.modPage q fun r =>
      { r with run := some { goal := .home, old := r.place, wait := r.sharers, sent := r.sharers, since := s.time, frees := true } }
  | none => s

/-- Adds a cache to the sharers of a page and notes the leaf that the cache has read; where the record is being evicted, the
invalidation goes to it too (08 R172, R174). -/
def State.addSharer (s : State) (pfn leafPa : Nat) (c : CacheId) : State :=
  s.modPage pfn fun r =>
    if r.sharers.contains c then { r with mirror := some leafPa }
    else
      { r with
        sharers := r.sharers ++ [c], mirror := some leafPa
        run := r.run.map fun x => if x.frees then { x with wait := x.wait ++ [c], sent := x.sent ++ [c] } else x }

/-- A cache fills an entry, of 4,096 in a core and 65,536 elsewhere; the directory of a page that can be placed learns of it. Where its
slice has no room for the record, it evicts one, and the entry is not kept (08 R173, R174; log 51). -/
def State.fillCache (s : State) (c : CacheId) (e : CacheEntry) : State :=
  let cap := match c with | .core _ _ => 4096 | _ => 65536
  let put : State := { s with caches := putEntry s.caches c e cap }
  if !(e.leaf.level = 0 && e.leaf.mtype == .framed) then put
  else if s.recordRoom e.leaf.pfn then put.addSharer e.leaf.pfn e.leaf.leafPa c
  else s.evictRecord e.leaf.pfn

/-- The effects of a translation: A and D, and the entries that the caches fill (08 R173, R174). -/
def State.touch (s : State) (site : CacheId) (t va : Nat) (write : Bool) : State :=
  match s.find site t va with
  | .absent | .bad => s.useFind site t va
  | .hit e =>
    let s := if write && !e.leaf.d then s.setAD [] e.leaf.leafPa true else s
    s.fillCache site { e with leaf := { e.leaf with a := true, d := e.leaf.d || write } }
  | .filled l p path =>
    let host := l.mtype == .hostSnoop || l.mtype == .hostNS
    let ats := if host then Config.atsTranslate s.time l.pfn else none
    let s := ((s.askAts l).keepTables site t va l.level path).setAD path l.leafPa write
    let e : CacheEntry :=
      { tenant := t, asid := (s.tenant t).asid, vpn := vpnOf va
        leaf := { l with a := true, d := l.d || write, ats := ats }, place := p }
    let s := s.fillCache (cacheLevel site) e
    if cacheLevel site == site then s else s.fillCache site e

/-! ### Performing an access -/

/-- Reads a FRAMED page as a core's plain load does: its replica where it holds one, else the master (07 R157, R158). -/
def State.pagedRead (s : State) (site : CacheId) (pfn off n : Nat) : State × List Byte :=
  match (s.page pfn).replicaAt site with
  | none => s.masterRead pfn off n
  | some x =>
    let s := s.fillReplica pfn x off
    (s, s.memRead (x.addr off) n)

/-- The offsets of a list of dirty bytes with a span added, rising. -/
def addDirty (l : List Nat) (off n : Nat) : List Nat :=
  (l.filter (· < off)) ++ (List.range n).map (off + ·) ++ l.filter (off + n ≤ ·)

/-- Writes a FRAMED page as a core's plain store does (07 R158). -/
def State.pagedWrite (s : State) (site : CacheId) (pfn off : Nat) (bs : List Byte) : State :=
  match (s.page pfn).replicaAt site with
  | none => s.masterWrite (cacheDie site) pfn off bs
  | some x =>
    let s := s.fillReplica pfn x off
    (s.memWrite (x.addr off) bs).modPage pfn fun r =>
      let r := r.modReplica x.die x.core fun x => { x with dirty := addDirty x.dirty off bs.length }
      { r with wsc := mset r.wsc x.die true }

/-- What a load gets. A FABRIC page answers later, so nothing is read here; an MMIO read is a free value (log 8). -/
def State.readTgt (s : State) (site : CacheId) (t : Tgt) (n : Nat) (atMaster : Bool) : State × List Byte :=
  match t with
  | .scratch a _ => (s, s.memRead a n)
  | .violation => (s, List.replicate n 0)
  | .paged pfn _ off _ => if atMaster then s.masterRead pfn off n else s.pagedRead site pfn off n
  | .dram pa => (s, s.memRead pa n)
  | .host a _ => (s, s.memRead a n)
  | .fabric _ _ _ => (s, List.replicate n 0)
  | .mmio pa =>
    let (s, v) := (s.send (.mmioRead pa n)).freeVal
    let (s, v') := s.freeVal
    (s, leBytes (v.toNat + 2 ^ 64 * v'.toNat) n)

/-- What a store does. -/
def State.writeTgt (s : State) (site : CacheId) (t : Tgt) (bs : List Byte) (atMaster : Bool) : State :=
  match t with
  | .scratch a _ => s.memWrite a bs
  | .violation => s
  | .paged pfn _ off _ =>
    if atMaster then s.masterWrite (cacheDie site) pfn off bs else s.pagedWrite site pfn off bs
  | .dram pa => s.memWrite pa bs
  | .host a _ => s.memWrite a bs
  | .fabric ep page off => s.send (.stodorWrite ep page off bs 0)
  | .mmio pa => s.send (.mmioWrite pa bs)

/-- Before an atomic to a SHARED page the core merges its dirty bytes in the sector (07 R158). -/
def State.mergeSector (s : State) (site : CacheId) (pfn off : Nat) : State :=
  match site with
  | .core d c => s.mergeReplica pfn d c fun o => o / 256 = off / 256
  | _ => s

/-- After an atomic to a SHARED page the core refills the sector of its replica (07 R158). -/
def State.refillSector (s : State) (site : CacheId) (pfn off : Nat) : State :=
  match (s.page pfn).replicaAt site with
  | none => s
  | some x =>
    let s := s.modPage pfn fun r => r.modReplica x.die x.core fun x =>
      { x with present := mset x.present (off / 256) false }
    s.fillReplica pfn { x with present := mset x.present (off / 256) false } off

/-! ### Dies that do not answer (08 R179; 11 R255 to R258) -/

/-- The two dies of a connection entry with V set (11 R255). -/
def circuitEnds (w : DWord) : Option (Nat × Nat) :=
  if natBit w.toNat 31 then some (natBits w.toNat 14 12, natBits w.toNat 8 6) else none

/-- The dies that circuits join to a set of dies, with the set. -/
def reachMore (routes : List DWord) (l : List Nat) : List Nat :=
  (List.range 5).filter fun d =>
    l.contains d || routes.any fun w =>
      match circuitEnds w with
      | some (a, b) => (a = d && l.contains b) || (b = d && l.contains a)
      | none => false

/-- The hop distance between two dies over a table of circuits, searched outwards from a set (01 R13). -/
def hopGo (routes : List DWord) (dst : Nat) : Nat → Nat → List Nat → Option Nat
  | 0, _, _ => none
  | fuel + 1, n, l => if l.contains dst then some n else hopGo routes dst fuel (n + 1) (reachMore routes l)

/-- The hop distance between two dies as last computed (11 R256). -/
def State.hops (s : State) (a b : Nat) : Option Nat := hopGo s.routes b 5 0 [a]

/-- The page's home die does not answer: an access to a master on a compute die that is out of service meets LINKCUT
(08 R179). -/
def State.cutOff (s : State) (tgt : Tgt) : Bool :=
  match tgt with
  | .paged pfn p off _ => (p.frameAddr off).isSome && !(s.die p.mdie).inService && (s.page pfn).place.res != .poison
  | _ => false

/-- The sector that a site's plain access reaches is present in the site's own replica (07 R154, R157). -/
def State.ownSector (s : State) (site : CacheId) (tgt : Tgt) : Bool :=
  match tgt with
  | .paged pfn _ off _ => ((s.page pfn).replicaAt site).any fun x => mbit x.present (off / 256)
  | _ => false

/-- The die on which an access is performed, none within the site's own octant: for an access at the master, and for a plain one whose
sector the site's replica does not hold, the master's (07 R154, R157; 09 R193; 10 R214). -/
def State.tgtDie (s : State) (site : CacheId) (tgt : Tgt) (atMaster : Bool) : Option Nat :=
  match tgt with
  | .paged pfn p off _ =>
    if !atMaster && s.ownSector site tgt then none
    else some (if (p.frameAddr off).isSome then p.mdie else homeStack pfn)
  | .dram pa => some (homeStack (pa / 4096))
  | .host _ _ | .fabric _ _ _ | .mmio _ => some 4
  | .scratch _ _ | .violation => none

/-- The die that an access cannot reach over the connection table (11 R258). -/
def State.noRoute (s : State) (site : CacheId) (tgt : Tgt) (atMaster : Bool) : Option Nat :=
  (s.tgtDie site tgt atMaster).bind fun d => if (s.hops (cacheDie site) d).isSome then none else some d

/-- The master of an access lies on a die that is cut: no plain access of a site whose own replica holds the sector (08 R179). -/
def State.cutFrom (s : State) (site : CacheId) (tgt : Tgt) (atMaster : Bool) : Bool :=
  s.cutOff tgt && (atMaster || !s.ownSector site tgt)

/-- An access meets a die that is cut or that it cannot reach. -/
def State.stuck (s : State) (site : CacheId) (tgt : Tgt) (atMaster : Bool) : Bool :=
  s.cutFrom site tgt atMaster || (s.noRoute site tgt atMaster).isSome

/-! ### Accesses of the device's own agents: at masters, in a tenant's context -/

/-- Translation for an agent that has no placement cache; the windows belong to crews alone (07 R147). For a MOVING page it names
the place that the page is leaving: `unlessMoving` (Ops.lean) makes the access wait for the end of the remap (08 R176). -/
def State.agentXlate (s : State) (t va : Nat) (need : Need) : Xlat :=
  if !canonical va || inPartyWindow va || inOutingWindow va then .prot
  else
    match s.walk t va with
    | .absent => .page
    | .bad => .prot
    | .leaf l _ =>
      match s.route l (s.leafPlace l) va need with
      | .moving pfn => .ok (.paged pfn (s.page pfn).held (va % 4096) l.leafPa)
      | r => r

/-- The MOVING page that a leaf names, if any. -/
def State.leafMoving (s : State) (l : Leaf) : Option Nat :=
  if l.level = 0 && l.mtype == .framed && (s.page l.pfn).place.res == .moving then some l.pfn else none

/-- The MOVING page that an agent's access meets, if any (08 R176). -/
def State.agentMoving (s : State) (t va : Nat) : Option Nat :=
  match s.walk t va with
  | .leaf l _ => s.leafMoving l
  | _ => none

/-- An agent's read of bytes that lie in one page. -/
def State.agentRead (s : State) (t va n : Nat) : Option (State × List Byte) :=
  match s.agentXlate t va .read with
  | .ok tgt => some (s.readTgt .io tgt n true)
  | _ => none

/-- The walk of an agent's access sets A and D, asks for the translation of a host page, and notes a MOVING page that it meets. -/
def State.agentTouch (s : State) (t va : Nat) (write : Bool) : State :=
  match s.walk t va with
  | .leaf l path =>
    let s := (s.askAts l).setAD path l.leafPa write
    match s.leafMoving l with
    | some pfn => { s with met := some (.moving pfn) }
    | none => s
  | _ => s

/-- An access from a die notes a die that it cannot reach, unless it has met something before (11 R258; log 65). -/
def State.meetRoute (s : State) (from_ : Nat) (tgt : Tgt) : State :=
  match s.met, s.noRoute (if from_ < 4 then .die from_ else .io) tgt true with
  | none, some d => { s with met := some (.noRoute d) }
  | _, _ => s

/-- An agent's write of bytes that lie in one page, on behalf of a die. -/
def State.agentWrite (s : State) (die t va : Nat) (bs : List Byte) : Option State :=
  match s.agentXlate t va .write with
  | .ok (.paged pfn p off x) => some (((s.agentTouch t va true).meetRoute die (.paged pfn p off x)).masterWrite die pfn off bs)
  | .ok tgt => some (((s.agentTouch t va true).meetRoute die tgt).writeTgt .io tgt bs true)
  | _ => none

/-- A place whose bytes an agent reads and writes as memory (12 R268): device memory or the host's. -/
def Tgt.plain : Tgt → Bool
  | .paged _ _ _ _ | .dram _ | .host _ _ => true
  | _ => false

/-- The bytes of a sector's rest from an address, at most `n` of them. -/
def pieceLen (va n : Nat) : Nat := min n (256 - va % 256)

/-- An agent's read of any bytes, sector by sector; none where one of them cannot be read. -/
def agentGet (t : Nat) : Nat → State → Nat → Nat → Option (State × List Byte)
  | 0, s, _, n => if n = 0 then some (s, []) else none
  | fuel + 1, s, va, n =>
    if n = 0 then some (s, [])
    else
      match s.agentXlate t va .read with
      | .ok tgt =>
        if !tgt.plain then none
        else
          let k := pieceLen va n
          let (s, bs) := ((s.agentTouch t va false).meetRoute 4 tgt).readTgt .io tgt k true
          match agentGet t fuel s ((va + k) % 2 ^ 64) (n - k) with
          | some (s, rest) => some (s, bs ++ rest)
          | none => none
      | _ => none

/-- An agent's read of `n` bytes. -/
def State.agentBytes (s : State) (t va n : Nat) : Option (State × List Byte) := agentGet t (n / 256 + 2) s va n

/-- An agent's write of any bytes, sector by sector; none where one of them cannot be written. -/
def agentPut (die t : Nat) : Nat → State → Nat → List Byte → Option State
  | 0, s, _, bs => if bs.isEmpty then some s else none
  | fuel + 1, s, va, bs =>
    if bs.isEmpty then some s
    else
      match s.agentXlate t va .write with
      | .ok tgt =>
        if !tgt.plain then none
        else
          let k := pieceLen va bs.length
          match s.agentWrite die t va (bs.take k) with
          | some s => agentPut die t fuel s ((va + k) % 2 ^ 64) (bs.drop k)
          | none => none
      | _ => none

/-- An agent's write of bytes. -/
def State.agentStore (s : State) (die t va : Nat) (bs : List Byte) : Option State := agentPut die t (bs.length / 256 + 2) s va bs

/-- An agent's read of a number. -/
def State.agentNat (s : State) (t va n : Nat) : Option Nat := (s.agentRead t va n).map fun p => leNat p.2

end Sys2Proof.Machine
end

