-- ==== Sys2Proof/Machine/Ops.lean ====
section
/-! DEFINITION. The named operations over crews and memory that the meanings share: registers, exec, the gang that issues,
scratchpad and memory access by a crew, error and fault records, the halt of a context, and TAKING A TRAP and returning
from one (spec 03, 04, 07, 08, 12). -/

namespace Sys2Proof.Machine

/-! ### Crews and slices -/

/-- A crew by number. -/
def State.crew (s : State) (k : Nat) : Crew := (aget s.crews k).getD { place := .compute 0 0 0 }

/-- Replaces a crew that exists. -/
def State.setCrew (s : State) (k : Nat) (c : Crew) : State := { s with crews := amod s.crews k fun _ => c }

/-- Changes a crew that exists. -/
def State.modCrew (s : State) (k : Nat) (f : Crew → Crew) : State := s.setCrew k (f (s.crew k))

/-- A slice of a crew. -/
def Crew.slice (c : Crew) (i : Nat) : Slice := c.slices.getD i {}

/-- Changes a slice. -/
def Crew.modSlice (c : Crew) (i : Nat) (f : Slice → Slice) : Crew := { c with slices := lmod c.slices i f }

/-- Changes every slice of a list. -/
def Crew.modSlices (c : Crew) (is : List Nat) (f : Slice → Slice) : Crew := is.foldl (fun c i => c.modSlice i f) c

/-- The slice has issued an instruction and waits inside it (02 R38). Rendezvous, replies and barrier phases are no such waits, for the
slice has gone on past its operands, nor is a trap that waits for its delivery. -/
def Slice.within (sl : Slice) : Bool :=
  sl.pend.isNone &&
    match sl.wait with
    | .accepted _ | .moving _ | .replay _ | .route _ _ _ | .drain _ _ _ | .cut _ _ | .retry | .place _ | .again _ _ _ | .signal _ _
    | .join _ _ _ => true
    | .none | .regang _ | .cross | .matrix _ | .reply _ | .barrier _ _ _ | .count _ _ | .parked => false

/-- What the instruction that the slice waits inside has read at its issue. -/
def Slice.inside (sl : Slice) : Option Held := if sl.within then sl.held else none

/-- The wait is that of an access, or of another instruction that completes by itself: its end lets the instruction complete, without a
turn at its port (02 R46 step 1). -/
def Slice.completes (sl : Slice) : Bool :=
  sl.inside.isSome &&
    match sl.wait with
    | .accepted _ | .moving _ | .replay _ | .route _ _ _ | .drain _ _ _ | .cut _ _ | .place _ => true
    | _ => false

/-- The lanes of a slice (03 R56). -/
def sliceLanes (i : Nat) : List Nat := [4 * i, 4 * i + 1, 4 * i + 2, 4 * i + 3]

/-- The four bits of a slice in a lane mask. -/
def sliceBits (m : BitVec 32) (i : Nat) : Nat := m.toNat / 2 ^ (4 * i) % 16

/-- The lane mask of one slice. -/
def sliceMask (i : Nat) : BitVec 32 := BitVec.ofNat 32 (15 * 2 ^ (4 * i))

/-- The lane mask of a list of slices. -/
def slicesMask (is : List Nat) : BitVec 32 := is.foldl (fun m i => m ||| sliceMask i) 0

/-- A slice is live while one of its lanes is live (03 R57). -/
def Crew.sliceLive (c : Crew) (i : Nat) : Bool := sliceBits c.live i != 0

/-- The live slices of a crew, rising. -/
def Crew.liveSlices (c : Crew) : List Nat := slices8.filter c.sliceLive

/-- The lane is active: its exec bit is set (00 R9). -/
def Crew.active (c : Crew) (l : Nat) : Bool := mbit c.exec l

/-- The active lanes of a slice, rising. -/
def Crew.activeOf (c : Crew) (i : Nat) : List Nat := (sliceLanes i).filter c.active

/-- The active lanes of some slices, rising. -/
def Crew.activeIn (c : Crew) (is : List Nat) : List Nat := is.flatMap c.activeOf

/-- Writes exec: a bit is set only where the lane is live and has not been switched off (24 R392). -/
def Crew.writeExec (c : Crew) (m : BitVec 32) : Crew := { c with exec := m &&& c.live &&& ~~~c.off }

/-- Switches lanes off (07 R149). -/
def Crew.switchOff (c : Crew) (m : BitVec 32) : Crew := { c with off := c.off ||| m, exec := c.exec &&& ~~~m }

/-- A program counter: bits [1:0] are zero (03 R56). -/
def pcOf (x : DWord) : DWord := x &&& ~~~3#64

/-- Moves slices past an instruction of `len` bytes, with no wait left. -/
def Crew.advance (c : Crew) (is : List Nat) (len : Nat) : Crew :=
  c.modSlices is fun sl => { sl with pc := sl.pc + BitVec.ofNat 64 len, wait := .none }

/-- Reads a uniform register. -/
def Crew.sreg (c : Crew) (r : Nat) : DWord := sget c.sregs r

/-- Writes a uniform register. -/
def Crew.setSreg (c : Crew) (r : Nat) (v : DWord) : Crew := { c with sregs := sset c.sregs r v }

/-- Reads a vector register of one lane by its physical number. -/
def Crew.vreg (c : Crew) (r l : Nat) : Word := sget c.vregs (r * 32 + l)

/-- Writes a vector register of one lane by its physical number. -/
def Crew.setVreg (c : Crew) (r l : Nat) (v : Word) : Crew := { c with vregs := sset c.vregs (r * 32 + l) v }

/-- Reads a predicate field: p0 to p15, or exec at 16 (14 R289). -/
def Crew.pred (c : Crew) (n : Nat) : BitVec 32 := if n = 16 then c.exec else sget c.preds n

/-- Writes the bits of a predicate field under a mask; a write to exec follows R392. -/
def Crew.setPred (c : Crew) (n : Nat) (mask v : BitVec 32) : Crew :=
  let m := (c.pred n &&& ~~~mask) ||| (v &&& mask)
  if n = 16 then c.writeExec m else { c with preds := sset c.preds n m }

/-- A cell of an accumulator (06 R130). -/
def accKey (a l n : Nat) : Nat := a * 6144 + l * 192 + n

/-! ### Where a crew stands -/

/-- A party by number. -/
def State.party (s : State) (p : Nat) : Party := (aget s.parties p).getD { launch := 0, index := 0 }

/-- Changes a party. -/
def State.modParty (s : State) (p : Nat) (f : Party → Party) : State := { s with parties := amod s.parties p f }

/-- A launch by number. -/
def State.launchRec (s : State) (l : Nat) : Launch := (aget s.launches l).getD { tenant := 0, queue := 0 }

/-- Changes a launch. -/
def State.modLaunch (s : State) (l : Nat) (f : Launch → Launch) : State := { s with launches := amod s.launches l f }

/-- The party of a crew on a compute core. -/
def Crew.partyId (c : Crew) : Option Nat :=
  match c.place with
  | .compute p _ _ => some p
  | .service _ _ => none

/-- The crew is a service thread. -/
def Crew.isService (c : Crew) : Bool := c.partyId.isNone

/-- The cache through which a crew's accesses are translated. -/
def State.site (s : State) (c : Crew) : CacheId :=
  match c.partyId with
  | some p => .core (s.party p).die (s.party p).core
  | none => .io

/-- The launch that a crew belongs to. -/
def State.crewLaunch (s : State) (c : Crew) : Option Nat := c.partyId.map fun p => (s.party p).launch

/-- Parties per outing of a launch, read as 1 when the field is 0 (02 R31). -/
def Launch.perOuting (l : Launch) : Nat := max 1 (natBits l.res.toNat 9 6)

/-- The party count of a grid. -/
def Launch.total (l : Launch) : Nat := l.e0 * l.e1 * l.e2

/-- The parties of an outing that exist (02 R31). -/
def Launch.outingCount (l : Launch) (o : Nat) : Nat := min l.perOuting (l.total - o * l.perOuting)

/-- Crews per party (12 R267). -/
def Launch.crews (l : Launch) : Nat := natBits l.res.toNat 5 0

/-- The party with a launch and an index, where one has been placed. -/
def State.findParty (s : State) (launch index : Nat) : Option (Nat × Party) :=
  s.parties.find? fun (_, p) => p.launch = launch && p.index = index

/-- The crews of a party with their numbers. -/
def State.partyCrews (s : State) (p : Nat) : List (Nat × Crew) :=
  s.crews.filter fun (_, c) => c.partyId == some p

/-! ### Access by a crew -/

/-- A scratchpad address of R148 as a target (07 R149): a 24-bit address, of `n` bytes. -/
def State.scratchTgt (s : State) (c : Crew) (a n : Nat) : Tgt :=
  match c.partyId with
  | none => .violation
  | some p =>
    let me := s.party p
    let m := natBits a 23 21
    let off := natBits a 20 0
    let l := s.launchRec me.launch
    if 2 ^ 24 ≤ a || l.outingCount me.outing ≤ m then .violation
    else
      match s.findParty me.launch (me.outing * l.perOuting + m) with
      | none => .violation
      | some (k, q) =>
        if q.status == .retired || q.scratchSize < off + n then .violation
        else .scratch (scratchAddr k off) (m != me.member)

/-- The scratchpad address that a window address names (07 R147). -/
def State.windowAddr (s : State) (c : Crew) (va : Nat) : Option Nat :=
  if inPartyWindow va then
    some ((match c.partyId with | some p => (s.party p).member | none => 0) * 2 ^ 21 + (va - partyWindow))
  else if inOutingWindow va then some (va - outingWindow)
  else none

/-- Translation of a crew's data access: the windows first, then R147 and the walk (07 R147; 21 R326 step 7). -/
def State.access (s : State) (c : Crew) (va n : Nat) (need : Need) : Xlat :=
  match s.windowAddr c va with
  | some a => .ok (s.scratchTgt c a n)
  | none => s.xlate (s.site c) c.tenant va need

/-- Translation on the instruction fetch path: the windows hold no instructions (07 R147). -/
def State.fetchXlate (s : State) (c : Crew) (va : Nat) : Xlat :=
  if inPartyWindow va || inOutingWindow va then .prot else s.xlate (s.site c) c.tenant va .fetch

/-- The effects of a crew's translation of an address. -/
def State.touchFor (s : State) (c : Crew) (va : Nat) (write : Bool) : State :=
  if (s.windowAddr c va).isSome then s else s.touch (s.site c) c.tenant va write

/-! ### Interrupts and error records (12 R261, R262, R446) -/

/-- Sends a vector of a tenant, unless the host is fenced (12 R261, R272). -/
def State.interrupt (s : State) (t n : Nat) : State :=
  if s.hostFenced then s else s.send (.interrupt ((s.tenant t).vecbase + n))

/-- Appends an error record and sends the tenant's vector (12 R262): SEQ counts the context's records past 2^32, and LOST is set where
the append overwrites a record that has not been read. A ring that is misaligned or does not lie in device memory takes no record. The
spec says nothing of a record count of 0, for which the model takes no record, nor of another count outside R262's range, which it uses
as it stands (log 54). -/
def State.errorRecord (s : State) (t code detail queue tag addr : Nat) : State :=
  let ten := s.tenant t
  if ten.errBase % 4096 ≠ 0 || ten.errCount = 0 || 4 * Config.stackBytes < ten.errBase + 32 * ten.errCount then s
  else
    let s := (s.usePhys (ten.ccbaddr.toNat + 0x3C)).usePhys (ten.ccbaddr.toNat + 0x60)
    let head := s.physNat (ten.ccbaddr.toNat + 0x3C) 4
    let tail := s.physNat (ten.ccbaddr.toNat + 0x60) 4
    let lost := ten.errCount ≤ (head + 2 ^ 32 - tail) % 2 ^ 32
    let w0 := bit01 lost * 2 ^ 39 + queue * 2 ^ 32 + detail * 2 ^ 16 + code
    let count := ten.errWraps * 2 ^ 32 + head
    let seq := count % 2 ^ 63 + (count / ten.errCount % 2) * 2 ^ 63
    let at_ := ten.errBase + 32 * (head % ten.errCount)
    let s := s.physWrite 4 at_ (leBytes w0 8 ++ leBytes tag 8 ++ leBytes addr 8 ++ leBytes seq 8)
    let s := s.physWrite 4 (ten.ccbaddr.toNat + 0x3C) (leBytes (head + 1) 4)
    let s := if head + 1 = 2 ^ 32 then s.modTenant t fun x => { x with errWraps := x.errWraps + 1 } else s
    s.interrupt t 0

/-- A QUEUE error (12 R262). -/
def State.queueError (s : State) (t detail queue tag addr : Nat) : State := s.errorRecord t 0x16 detail queue tag addr

/-! ### Completion records and the end of a launch (12 R268, R271) -/

/-- Notes at a word's records whose die has no route that a drain of them waits now (11 R258). -/
def State.markAway (s : State) (granule : Nat) : State :=
  let home (d : Nat) : Nat := if granule < 2 ^ 52 then homeStack (granule / 4096) else d
  { s with syncs := s.syncs.map fun w =>
      if w.granule = granule then
        { w with recs := w.recs.map fun r =>
            if r.since.isNone && (s.hops (home r.die) r.die).isNone then { r with since := some s.time } else r }
      else w }

/-! ### Waiting for a MOVING page (08 R176) -/

/-- Requests that wait in the directory slice of a page. -/
def State.waitersIn (s : State) (pfn : Nat) : Nat :=
  s.pages.foldl (fun (n : Nat) (q, r) =>
    if dirSlice q = dirSlice pfn && homeStack q = homeStack pfn then n + r.waiters.length else n) 0

/-- Puts a request to wait at the directory of a MOVING page; past 256 waiters in the slice the request is refused and sent again later
(08 R176). -/
def State.joinQueue (s : State) (pfn : Nat) (w : Waiter) : State :=
  s.modPage pfn fun r =>
    if s.waitersIn pfn < 256 then { r with waiters := r.waiters ++ [w] } else { r with refused := r.refused ++ [w] }

/-- Puts slices to wait at the directory for a MOVING page, with the address of an access to it. -/
def State.waitMoving (s : State) (k : Nat) (is : List Nat) (pfn : Nat) (a : Option DWord := none) : State :=
  is.foldl (fun s i => s.joinQueue pfn (.slice k i))
    (s.modCrew k fun c => c.modSlices is fun sl => { sl with wait := .moving pfn, addr := a })

/-- A step of one of the device's agents, of the host or over the links: where an access of it meets a MOVING page the step `e` joins
that page's queue and is performed at the end of the remap; where it meets a die without a route, or a record that it cannot drain yet,
it waits for that. Nothing of it has happened then (08 R176; 11 R258; log 3, 65). -/
def State.unlessMoving (s : State) (e : Instr) (f : State → State) : State :=
  let t := f { s with met := none }
  match t.met with
  | none => t
  | some (.moving pfn) => s.joinQueue pfn (.agent e)
  | some (.noRoute d) => { s with stalled := s.stalled ++ [(d, e)] }
  | some (.away g) => s.markAway g

/-- The step of an agent waits for a page or a route already, or for its turn after a remap. -/
def State.waits (s : State) (e : Instr) : Bool :=
  s.replays.any (fun x => x.2 == e) || s.stalled.any (fun x => x.2 == e)
    || s.pages.any fun x => x.2.waiters.contains (.agent e) || x.2.refused.contains (.agent e)

/-- A step that waited is made: from among those that a remap has held up, those that waited for a route, or those refused. -/
def State.takeUp (s : State) (e : Instr) : State :=
  if s.replays.any fun x => x.2 == e then { s with replays := s.replays.eraseP fun x => x.2 == e }
  else if s.stalled.any fun x => x.2 == e then { s with stalled := s.stalled.eraseP fun x => x.2 == e }
  else { s with pages := s.pages.map fun x => (x.1, { x.2 with refused := x.2.refused.erase (.agent e) }) }

/-- An agent's access that cannot be performed: its walk has used its banks, and a host page's translation was asked for (01 R18; 08
R181). -/
def State.agentFail (s : State) (t va : Nat) : State :=
  if !canonical va || inPartyWindow va || inOutingWindow va then s
  else
    match s.walk t va with
    | .leaf l _ => (s.useWalk t va).askAts l
    | _ => s.useWalk t va

/-- Reads, changes and writes a double-word for the launch unit; false when the page does not take it (12 R268). -/
def State.modWord (s : State) (t va : Nat) (f : Nat → Nat) : Option State :=
  match s.agentBytes t va 8 with
  | some (s, bs) => s.agentStore 4 t va (leBytes (f (leNat bs)) 8)
  | none => none

/-- The same, with the error record COMPL_FAULT when it cannot be performed (12 R268, R446). The spec gives no outcome for an address that
is not 8-byte aligned: the model uses it as it stands (log 69). -/
def State.complWord (s : State) (t queue tag va : Nat) (f : Nat → Nat) : State :=
  match s.modWord t va f with
  | some s => s
  | none => (s.agentFail t va).queueError t 10 queue tag va

/-- A double-word of a packet. -/
def pktWord (p : Packet) (i : Nat) : Nat := (p.words.getD i 0).toNat

/-- A packet's TAG (12 R266). -/
def pktTag (p : Packet) : Nat := natBits (pktWord p 0) 63 32

/-- Writes STATUS, then DONE, of a completion record, and sends the packet's vector when IRQ is set (12 R266, R268). -/
def State.writeDone (s : State) (p : Packet) (compl status : Nat) : State :=
  let w0 := pktWord p 0
  let tag := pktTag p
  let s :=
    if compl = 0 then s
    else
      let s := s.complWord p.tenant p.queue tag compl fun _ => status
      s.complWord p.tenant p.queue tag (compl + 0x18) fun _ => 1
  if natBit w0 18 && p.queue < 64 then s.interrupt p.tenant (64 + p.queue) else s

/-- A queue of a context. -/
def State.queue (s : State) (t q : Nat) : Queue := (aget (s.tenant t).queues q).getD {}

/-- Writes STATE of a queue, in the device and in its descriptor. -/
def State.setQueue (s : State) (t q : Nat) (x : Queue) : State :=
  let s := s.modTenant t fun ten => { ten with queues := aset ten.queues q x }
  s.physWrite 4 ((s.tenant t).ccbaddr.toNat + 0x10C + 32 * q) (leBytes x.state.toNat 4)

/-- A queue drains: nothing more is read, and with no packet left it is idle. -/
def State.drainQueue (s : State) (t q : Nat) : State :=
  let x := s.queue t q
  if x.state = 1 then
    let busy := s.jobs.any fun j => j.pkt.tenant = t && j.pkt.queue = q
    s.setQueue t q { x with state := if busy then 2 else 0 }
  else s

/-- A packet completes: its job is gone, and a draining queue without jobs becomes idle (12 R269). -/
def State.endJob (s : State) (job : Nat) : State :=
  match s.jobs.find? fun j => j.id = job with
  | none => s
  | some j =>
    let s := { s with jobs := s.jobs.filter fun x => x.id ≠ job }
    let more := s.jobs.any fun x => x.pkt.tenant = j.pkt.tenant && x.pkt.queue = j.pkt.queue
    if more then s
    else
      let x := s.queue j.pkt.tenant j.pkt.queue
      if x.state = 2 then s.setQueue j.pkt.tenant j.pkt.queue { x with state := 0 } else s

/-- The parties of a launch that are placed and neither retired nor discarded. -/
def State.liveParties (s : State) (l : Nat) : List (Nat × Party) :=
  s.parties.filter fun (_, p) => p.launch = l && p.status != .retired && p.status != .discarded

/-- The outings of a launch. -/
def Launch.outings (l : Launch) : Nat := ceilDiv l.total l.perOuting

/-- A grid completes when every outing has been placed and none of its parties is left: its last party retires, or is discarded
(12 R268, R269). -/
def State.finishLaunch (s : State) (l : Nat) : State :=
  let la := s.launchRec l
  let ended := (s.liveParties l).isEmpty && la.outings ≤ la.nextOuting
  if la.complete || !ended then s
  else
    let s := s.modLaunch l fun x => { x with complete := true }
    match s.jobs.find? fun j => j.id = la.job with
    | some j => (s.writeDone j.pkt la.compl.toNat (bit01 la.discarded)).endJob la.job
    | none =>
      s.writeDone { tenant := la.tenant, queue := la.queue, addr := la.addr, words := [] } la.compl.toNat
        (bit01 la.discarded)

/-! ### The end of a party (02 R42, R55) -/

/-- Tiles reserved by a core return to the launch unit when no party of the launch remains on it (02 R42). -/
def returnTiles (site : Nat × Nat) (w : Walk) : Walk :=
  let mine := (w.reserved.filter fun r => r.1 == site).flatMap (·.2)
  { w with reserved := w.reserved.filter fun r => !(r.1 == site), returned := w.returned ++ mine }

/-- Frees what a party holds on its core: crews, quota, holds and reserved tiles (02 R42, R46 step 6, R55). -/
def State.freeParty (s : State) (p : Nat) (st : PartyStatus) : State :=
  let pa := s.party p
  let s := { s.memZero (scratchAddr p 0) (2 ^ 24) with
    crews := s.crews.filter fun (_, c) => c.partyId != some p
    requests := s.requests.filter fun r => !pa.crews.contains r.crew }
  let s := s.modParty p fun x =>
    { x with status := st, crews := [], holds := [], nearFrames := [], nearPlaced := [] }
  let stays := (s.liveParties pa.launch).any fun (_, q) =>
    q.die = pa.die && q.core = pa.core && (match q.status with | .saved _ => false | _ => true)
  if stays then s
  else s.modLaunch pa.launch fun l => { l with walks := l.walks.map (returnTiles (pa.die, pa.core)) }

/-! ### Traps: the state that does not depend on delivery -/

/-- The trap of an instruction whose gang issues now. -/
def Issue.trap (iss : Issue) (code : Nat) (info addr : Nat) (next : Bool := false) : TrapInfo :=
  { code := BitVec.ofNat 8 code, info := BitVec.ofNat 64 info, addr := BitVec.ofNat 64 addr
    retpc := if next then iss.pc + BitVec.ofNat 64 iss.len else iss.pc
    word := iss.word, pfx := iss.pfx.getD 0 }

/-- The virtual die that a context binds to a compute die (12 R260); 0xFF when none. -/
def virtualDie (ten : Tenant) (d : Nat) : Nat := ((List.range 4).find? fun v => ten.vdt.getD v none == some d).getD 0xFF

/-- The core, crew slot, virtual die, incarnation and party index of a crew, for a fault record (08 R185; log 21). -/
def State.faultSite (s : State) (c : Crew) : Nat × Nat × Nat × Nat × Nat :=
  match c.place with
  | .compute p _ slot =>
    let pa := s.party p
    (pa.core, slot, virtualDie (s.tenant c.tenant) pa.die % 8, (s.die pa.die).inc.toNat, pa.index)
  | .service core thread => (core, thread, 7, 0, 0)

/-- The words of a fault record before SEQ (08 R185). -/
def State.faultWords (s : State) (c : Crew) (slice code access : Nat) (replay : Bool) (addr pc lanes word info : Nat) :
    List DWord :=
  let (core, slot, vdie, inc, party) := s.faultSite c
  let w0 := (s.tenant c.tenant).asid * 2 ^ 48 + inc * 2 ^ 40 + slice * 2 ^ 32 + slot * 2 ^ 24 + core * 2 ^ 19 + vdie * 2 ^ 16
    + bit01 replay * 2 ^ 11 + access * 2 ^ 8 + code
  [w0, addr, pc, lanes * 2 ^ 32 + word, info, party].map (BitVec.ofNat 64)

/-- The code of an access kind (08 R185). -/
def Access.code : Access → Nat
  | .load => 0
  | .store => 1
  | .fetch => 2
  | .atomic => 3
  | .engineRead => 4
  | .engineWrite => 5
  | .callRecord => 6

/-! ### The halt of a context, and discarding (02 R47; 08 R184; 12 R269) -/

/-- The slices of a cooperative grid that wait in a GBAR trap QUEUE with ABANDONED once the grid is abandoned, and its arrivals are
withdrawn: the slice stays at its GBAR with the trap pending, to resume at the next instruction (10 R229; 08 R182, R188). -/
def abandonWaits (c : Crew) : Crew :=
  { c with
    gridArr := []
    slices := c.slices.map fun sl =>
      let go : Slice :=
        { sl with wait := .none
                  pend := some { code := 0x16, info := 1, retpc := sl.pc + 4, word := sl.word, pfx := sl.pfx } }
      match sl.wait with
      | .barrier 2 _ _ | .again 2 _ _ => go
      | _ => sl }

/-- Abandons a cooperative grid: its arrivals are withdrawn, and the slices that wait in its GBARs trap, those of saved parties
when they are restored (10 R229). -/
def State.abandon (s : State) (l : Nat) : State :=
  if (s.launchRec l).coop then
    let s := s.modLaunch l fun x =>
      { x with abandoned := true, gbars := x.gbars.map fun g => { g with arrived := [] } }
    { s with
      crews := s.crews.map fun (k, c) => if s.crewLaunch c == some l then (k, abandonWaits c) else (k, c)
      parties := s.parties.map fun (k, q) =>
        if q.launch = l then (k, { q with saved := q.saved.map abandonWaits, toward := q.toward.filter fun x => x.1 < 4 }) else (k, q) }
  else s

/-- Discards a party for good (02 R47; 12 R269): nothing is saved, its launch completes as discarded. -/
def State.discardParty (s : State) (p : Nat) : State :=
  let pa := s.party p
  if pa.status == .retired || pa.status == .discarded then s
  else
    let s := { s with ops := s.ops.filter fun o => o.party ≠ some p }
    let s := (s.freeParty p .discarded).modLaunch pa.launch fun l => { l with discarded := true }
    (s.abandon pa.launch).finishLaunch pa.launch

/-- Discards a launch: every party that is placed, and those that are not. -/
def State.discardLaunch (s : State) (l : Nat) : State :=
  let la := s.launchRec l
  if la.complete then s
  else
    let s := s.modLaunch l fun x => { x with discarded := true, nextOuting := la.outings }
    let s := (s.liveParties l).foldl (fun s (p, _) => s.discardParty p) s
    s.finishLaunch l

/-- Discards the launches that a test names. -/
def State.discardLaunches (s : State) (test : Launch → Bool) : State :=
  s.launches.foldl (fun s (l, la) => if test la then s.discardLaunch l else s) s

/-- Halts a tenant context: its parties are discarded, its queues become draining and idle once empty, and one error
record says why (02 R47; 08 R184; 10 R222). -/
def State.haltTenant (s : State) (t code detail tag addr : Nat) : State :=
  let s := s.modTenant t fun x => { x with halted := true }
  let s := (s.tenant t).queues.foldl (fun s q => s.drainQueue t q.1) s
  let s := s.discardLaunches fun l => l.tenant = t
  s.errorRecord t code detail 0x7F tag addr

/-! ### The fault queue (08 R183 to R187) -/

/-- A ring page is fit for records: valid, writable, FRAMED or STREAM, and pinned or large (08 R184). -/
def State.ringOk (s : State) (t va : Nat) : Bool :=
  match (if canonical va then s.walk t va else .bad) with
  | .leaf l _ =>
    l.w && ((l.mtype == .framed || l.mtype == .stream) && (l.level ≠ 0 || l.pin))
      && (match s.agentXlate t va .write with | .ok _ => true | _ => false)
  | _ => false

/-- FQHEAD, which lives in the context's control block (08 R183; 12 R260). -/
def State.fqHead (s : State) (t : Nat) : Nat := s.physNat ((s.tenant t).ccbaddr.toNat + 0x4C) 4

/-- A read of FQHEAD and FQTAIL uses the banks that serve them (01 R18). -/
def State.useRing (s : State) (t : Nat) : State :=
  let b := (s.tenant t).ccbaddr.toNat
  (s.usePhys (b + 0x4C)).usePhys (b + 0x50)

/-- The ring is full: FQHEAD − FQTAIL equals FQSIZE (08 R186). FQTAIL is live in memory. -/
def State.ringFull (s : State) (t : Nat) : Bool :=
  let ten := s.tenant t
  (s.fqHead t + 2 ^ 32 - s.physNat (ten.ccbaddr.toNat + 0x50) 4) % 2 ^ 32 = ten.fqSize

/-- Writes one fault record, or halts the context with FAULTQ LOST (08 R184 to R186). SEQ counts the context's records past 2^32
(08 R185). An FQSIZE of 0 holds no record; another FQSIZE outside R183's range and an FQBASE off its 4 KiB boundary are used as
they stand: the spec says nothing of either (log 53). -/
def State.writeFault (s : State) (t : Nat) (r : FaultRec) : State :=
  let ten := s.tenant t
  let head := s.fqHead t
  let seq := ten.fqWraps * 2 ^ 32 + head
  let idx := seq % ten.fqSize
  let va := ten.fqBase.toNat + 64 * idx
  let lost := s.haltTenant t 0x18 7 0 va
  let s := s.useRing t
  if ten.fqSize = 0 || !s.ringOk t va then lost
  else
    let bytes := r.words.flatMap (fun w => leBytes w.toNat 8) ++ leBytes seq 8 ++ leBytes (seq / ten.fqSize % 2) 8
    match s.agentWrite 4 t va bytes with
    | none => lost
    | some s =>
      let s := s.modTenant t fun x =>
        { x with
          open_ := (x.open_.filter fun o => o.1 ≠ idx) ++ [(idx, r.target)]
          fqWraps := if head + 1 = 2 ^ 32 then x.fqWraps + 1 else x.fqWraps }
      let s := s.physWrite 4 (ten.ccbaddr.toNat + 0x4C) (leBytes (head + 1) 4)
      s.interrupt t 1

/-- Appends a fault record, or leaves it waiting behind a full ring (08 R186). -/
def State.appendFault (s : State) (t : Nat) (r : FaultRec) : State :=
  let s := s.useRing t
  if (s.tenant t).halted then s
  else if !(s.tenant t).waiting.isEmpty || ((s.tenant t).fqSize ≠ 0 && s.ringFull t) then
    s.modTenant t fun x => { x with waiting := x.waiting ++ [r] }
  else s.writeFault t r

/-- Parks slices of a crew on a PAGE fault and appends the record; it names the lowest slice (08 R187, 23 R371). -/
def State.park (s : State) (k : Nat) (is : List Nat) (acc : Access) (va lanes : Nat) (pc : DWord) (word : Word) : State :=
  let c := s.crew k
  let s := s.modCrew k fun c => c.modSlices is fun sl => { sl with wait := .parked }
  s.appendFault c.tenant
    { target := .slices k (maskOf 8 8 fun i => is.contains i) (BitVec.ofNat 64 va)
      words := s.faultWords c (is.headD 0) 0x06 acc.code true va pc.toNat lanes word.toNat (va % 2 ^ 56) }

/-! ### TAKING A TRAP (08 R188 to R190) -/

/-- The call record of a trap (08 R189). -/
def callRecord (c : Crew) (i : Nat) (t : TrapInfo) : List Byte :=
  let w0 := sliceBits c.live i * 2 ^ 20 + sliceBits c.exec i * 2 ^ 16 + t.plev.toNat * 2 ^ 11 + i * 2 ^ 8 + t.code.toNat
  let dw (x : Nat) : List Byte := leBytes x 8
  dw w0 ++ dw t.retpc.toNat ++ dw (c.slice i).link.toNat ++ dw t.info.toNat ++ dw t.addr.toNat
    ++ dw (t.pfx.toNat * 2 ^ 32 + t.word.toNat) ++ dw c.hstk.toNat ++ dw 0

/-- A trap that cannot be delivered: the crew freezes and a record with CODE DOUBLE goes to service (08 R190). -/
def State.double (s : State) (k i : Nat) (t : TrapInfo) : State :=
  let c := s.crew k
  let s := s.modCrew k fun c => { c with frozen := some (i, t) }
  s.appendFault c.tenant
    { target := .frozen k
      words := s.faultWords c i 0x0F 6 false (c.hstk - 64).toNat (c.slice i).pc.toNat (c.exec &&& sliceMask i).toNat
        t.word.toNat t.code.toNat }

/-- The slice enters the handler at `entry` once its record stands at `a` (08 R188, 22 R353); a SYSCALL raises a user thread
to service level (25 R421). -/
def enterHandler (c : Crew) (i : Nat) (t : TrapInfo) (a entry : DWord) : Crew :=
  let base := match c.handler with | some h => h.base | none => c.hstk
  let c := { c with hstk := a, handler := some { slice := i, base := base }
                    level := if t.code = 0 && c.level == Level.user then Level.service else c.level }
  let c := c.modSlice i fun sl =>
    { sl with cause := t.code, info := t.info, pc := pcOf entry, wait := .none, pend := none }
  c.writeExec ((c.exec &&& ~~~(sliceMask i)) ||| (c.live &&& sliceMask i))

/-- The address at which a trap's handler starts: TRAPVEC, or the service entry for a SYSCALL (08 R188, 25 R421). -/
def State.handlerEntry (s : State) (c : Crew) (t : TrapInfo) : DWord :=
  if t.code = 0 then Config.serviceEntry else (s.tenant c.tenant).trapvec

/-- The time since which a slice waits for a route to a die. -/
def State.routeSince (s : State) (sl : Slice) (d : Nat) : Nat :=
  match sl.wait with
  | .route d' _ t => if d' = d then t else s.time
  | _ => s.time

/-- Delivers a trap to a slice: the call record is pushed and the slice sent to its handler; where the record cannot be
written the trap is DOUBLE; where its page is MOVING or no route leads to it the trap stays pending until the remap ends or a route
appears (08 R176, R188, R190; 11 R258). -/
def State.deliver (s : State) (k i : Nat) (t : TrapInfo) : State :=
  let c := s.crew k
  let a := c.hstk - 64
  let entry := s.handlerEntry c t
  if c.hstk = 0 || c.hstk.toNat % 64 ≠ 0 || (t.code ≠ 0 && entry = 0) then s.double k i t
  else
    match s.access c a.toNat 64 .write with
    | .moving pfn => (s.modCrew k fun c => c.modSlice i fun sl => { sl with pend := some t }).waitMoving k [i] pfn
    | .ok .violation => s.double k i t
    | .ok tgt =>
      if s.cutFrom (s.site c) tgt false then s.double k i t
      else
        match s.noRoute (s.site c) tgt false with
        | some d =>
          s.modCrew k fun c => c.modSlice i fun sl => { sl with pend := some t, wait := .route d a (s.routeSince sl d) }
        | none =>
          let s := s.touchFor c a.toNat true
          let s := s.writeTgt (s.site c) tgt (callRecord c i t) false
          s.modCrew k fun c => enterHandler c i t a entry
    | _ => s.double k i t

/-- A trap struck a slice: it is delivered, or stays pending while another slice of the crew is in a handler or the crew is
frozen (08 R188); a pending trap leaves the gang entry as it stands (03 R69). -/
def State.raise (s : State) (k i : Nat) (t : TrapInfo) : State :=
  let c := s.crew k
  let busy := match c.handler with | some h => h.slice ≠ i | none => false
  if c.frozen.isSome || busy then
    s.modCrew k fun c => c.modSlice i fun sl => { sl with pend := some t }
  else s.deliver k i t

/-- Traps several slices in increasing slice order. -/
def State.raiseAll (s : State) (k : Nat) (is : List Nat) (t : TrapInfo) : State :=
  is.foldl (fun s i => s.raise k i t) s

/-- The lowest pending trap of a crew is delivered once no handler runs, and one of the handler slice itself at once, which nests;
unless its call record waits for a MOVING page already (08 R188). -/
def State.deliverPending (s : State) (k : Nat) : State :=
  let c := s.crew k
  let mine (i : Nat) : Bool := match c.handler with | some h => h.slice = i | none => true
  if c.frozen.isSome then s
  else
    match c.liveSlices.find? fun i => mine i && (c.slice i).pend.isSome with
    | none => s
    | some i =>
      match (c.slice i).wait, (c.slice i).pend with
      | .moving _, _ => s
      | _, some t => s.deliver k i t
      | _, none => s

/-! ### RETURNING FROM A TRAP (22 R353) -/

/-- The lower of two privilege levels. -/
def lowerLevel (a b : Level) : Level :=
  match a, b with
  | .user, _ | _, .user => .user
  | .service, _ | _, .service => .service
  | .firmware, .firmware => .firmware

/-- The level that a record's PLEV names; 3 is no level and lowers nothing. -/
def levelOfCode (x : Nat) : Level :=
  match x with
  | 0 => .user
  | 1 => .service
  | _ => .firmware

/-- The slice returns by the 64 bytes of a call record: LINK, exec, HSTK and PC are restored, and from a SYSCALL record the
level; the handler ends when HSTK is its base again (22 R353). -/
def popRecord (c : Crew) (i : Nat) (bs : List Byte) : Crew :=
  let dw (n : Nat) : Nat := leNat ((bs.drop (8 * n)).take 8)
  let w0 := dw 0
  let hstk : DWord := BitVec.ofNat 64 (dw 6)
  let c := c.modSlice i fun sl =>
    { sl with link := pcOf (BitVec.ofNat 64 (dw 2)), pc := pcOf (BitVec.ofNat 64 (dw 1)), wait := .none }
  let c := c.writeExec ((c.exec &&& ~~~(sliceMask i)) ||| BitVec.ofNat 32 (natBits w0 19 16 * 2 ^ (4 * i)))
  let ends := match c.handler with | some h => h.base == hstk | none => false
  { c with
    hstk := hstk
    level := if w0 % 256 = 0 then lowerLevel (levelOfCode (natBits w0 12 11)) c.level else c.level
    handler := if ends then none else c.handler }

/-! ### Rendezvous (03 R62, R66, R69, R74) -/

/-- Removes the records whose slices are all marked or no longer live, and lets their waiters go on (03 R62, R66). -/
def settleRdv (c : Crew) : Crew :=
  let done (r : RdvRec) : Bool := slices8.all fun i => !mbit r.smask i || mbit r.arr i || !c.sliceLive i
  let gone := (c.rdv.filter done).map (·.id)
  let c := { c with rdv := c.rdv.filter fun r => !done r }
  { c with slices := c.slices.map fun sl =>
      match sl.wait with
      | .regang r => if gone.contains r && sl.pend.isNone then { sl with pc := sl.pc + 4, wait := .none } else sl
      | _ => sl }

/-- Slices that wait for the trapping slice of an MMA go on once that slice has left the instruction (03 R74). -/
def settleMatrix (c : Crew) : Crew :=
  let running (o : Nat) : Bool := match c.handler with | some h => h.slice = o | none => false
  { c with slices := c.slices.map fun sl =>
      match sl.wait with
      | .matrix o =>
        let owner := c.slice o
        if c.sliceLive o && (running o || owner.pend.isSome || c.frozen.isSome || owner.pc = sl.pc) then sl
        else { sl with wait := .none }
      | _ => sl }

/-- The slice waits under the rendezvous condition. -/
def Slice.inRdv (sl : Slice) : Bool :=
  match sl.wait with
  | .regang _ | .cross | .matrix _ => sl.pend.isNone
  | _ => false

/-- A rendezvous deadlock: every live slice waits at a rendezvous and no arrival can complete one (03 R69). -/
def Crew.deadlocked (c : Crew) : Bool :=
  !c.liveSlices.isEmpty && c.handler.isNone && c.frozen.isNone
    && c.liveSlices.all fun i => (c.slice i).inRdv

/-! ### The gang that issues -/

/-- The slices of the issuing gang, rising. -/
def Issue.slices (i : Issue) : List Nat := slices8.filter (mbit i.mask)

/-- Runs the effect of an encoded instruction for the gang that issues. -/
def withIssue (s : State) (f : State → Issue → State) : Host.Outcome State Fault Refusal :=
  match s.issue with
  | none => .fault .noIssuer
  | some i => .next (f { s with issue := none } i)

/-- Moves the issuing gang past its instruction. -/
def State.advance (s : State) (iss : Issue) (is : List Nat) : State :=
  s.modCrew iss.crew fun c => c.advance is iss.len

/-- Traps slices of the issuing gang. -/
def State.trapGang (s : State) (iss : Issue) (is : List Nat) (code info addr : Nat) : State :=
  s.raiseAll iss.crew is (iss.trap code info addr)

/-- The live lanes of some slices as a mask. -/
def Crew.liveIn (c : Crew) (is : List Nat) : BitVec 32 := c.live &&& slicesMask is

/-- Records pending writes of the scoreboard (04 R85). -/
def Crew.addPend (c : Crew) (p : List PendWrite) : Crew := { c with pend := c.pend ++ p.filter fun x => !c.pend.contains x }

/-- An instruction that only a privilege level may run: PRIV otherwise, with the word in TRAPINFO (08 R182, 12 R270). -/
def privileged (ok : Bool) (iss : Issue) (s : State) (go : State) : State :=
  if ok then go else s.trapGang iss iss.slices 0x02 iss.word.toNat 0

end Sys2Proof.Machine
end

