-- ==== Sys2Proof/Machine/Operands.lean ====
section
/-! DEFINITION. Operand forms: vector names through the window and through index registers, uniform names, constants, the
instruction fetch path, and the addresses of memory words (spec 04 R78 to R84; 14 R288 to R295; 10 R216). -/

namespace Sys2Proof.Machine

/-! ### Vector operands (04 R78, R82 to R84) -/

/-- A vector operand: its position (0 D, 1 A, 2 B, 3 C), its field and its count of registers. -/
structure VOp where
  pos : Nat
  field : Nat
  n : Nat
  deriving DecidableEq, Repr

/-- The index register that a vector field names, if it is indirect (14 R289). -/
def VOp.index (o : VOp) : Option Nat := if 120 ≤ o.field then some (o.field - 120) else none

/-- BASE of an index register (04 R80). -/
def xBase (u : DWord) : Nat := natBits u.toNat 8 0
/-- BOUND of an index register. -/
def xBound (u : DWord) : Nat := natBits u.toNat 25 16
/-- STEP of an index register, signed. -/
def xStep (u : DWord) : Int := natSext (natBits u.toNat 40 32) 9
/-- MODE of an index register: true for RING. -/
def xRing (u : DWord) : Bool := u.getLsbD 48
/-- POST of an index register. -/
def xPost (u : DWord) : Bool := u.getLsbD 49

/-- The uniform part of an index register. -/
def Crew.xreg (c : Crew) (x : Nat) : DWord := sget c.xuni x

/-- The offset of a lane in an index register. -/
def Crew.ofs (c : Crew) (x l : Nat) : Nat := (sget c.xofs (x * 32 + l)).toNat

/-- Writes the offset of a lane in an index register. -/
def Crew.setOfs (c : Crew) (x l v : Nat) : Crew := { c with xofs := sset c.xofs (x * 32 + l) (BitVec.ofNat 9 v) }

/-- The lane faults at an indirect operand of `n` registers (04 R82). -/
def Crew.ofsBad (c : Crew) (x l n : Nat) : Bool :=
  let u := c.xreg x
  xBound u = 0 || (!xRing u && xBound u ≤ c.ofs x l + n - 1)

/-- The physical register of an operand, lane and place in the operand (04 R78, R82). -/
def Crew.phys (c : Crew) (o : VOp) (l i : Nat) : Nat :=
  match o.index with
  | none => c.win + o.field + i
  | some x =>
    let u := c.xreg x
    if xRing u then xBase u + (c.ofs x l + i) % xBound u else xBase u + c.ofs x l + i

/-- Reads a register of an operand in a lane. -/
def Crew.vget (c : Crew) (o : VOp) (l i : Nat) : Word := c.vreg (c.phys o l i) l

/-- Reads an operand in a lane as a number, its first register lowest (05 R99). -/
def Crew.vnat (c : Crew) (o : VOp) (l : Nat) : Nat :=
  (List.range o.n).foldr (fun i acc => (c.vget o l i).toNat + 2 ^ 32 * acc) 0

/-- Writes the registers of an operand in a lane from words. -/
def Crew.vput (c : Crew) (r : Crew) (o : VOp) (l : Nat) (ws : List Word) : Crew :=
  (ws.zipIdx).foldl (fun r (w, i) => r.setVreg (c.phys o l i) l w) r

/-- A number as `n` words, lowest first. -/
def wordsOf (x : Nat) (n : Nat) : List Word := (List.range n).map fun i => BitVec.ofNat 32 (x / 2 ^ (32 * i))

/-- The trap of a slice at its vector names, first operand position first: WINDOW or REGBOUND with TRAPINFO (04 R78, R83;
21 R326 step 3). -/
def Crew.nameFault (c : Crew) (i : Nat) (ops : List VOp) : Option (Nat × Nat) :=
  ops.findSome? fun o =>
    match o.index with
    | none => if c.g < c.win + o.field + o.n then some (0x04, o.field + o.pos * 2 ^ 7 + c.win * 2 ^ 9) else none
    | some x =>
      let m := maskOf 32 32 fun l => l / 4 = i && c.active l && c.ofsBad x l o.n
      if m = 0 then none else some (0x03, m.toNat + x * 2 ^ 32 + o.pos * 2 ^ 35)

/-- The offset after one advance (04 R84). -/
def nextOfs (u : DWord) (o : Nat) : Nat :=
  if xRing u then ((((o % xBound u : Nat) : Int) + xStep u) % (xBound u : Nat)).toNat
  else (((o : Int) + xStep u) % 512).toNat

/-- Advances the offsets of lanes in each POST index register that the operands name, once (04 R84). -/
def Crew.postAdvance (c : Crew) (lanes : List Nat) (ops : List VOp) : Crew :=
  let xs := (List.range 8).filter fun x => ops.any (fun o => o.index == some x) && xPost (c.xreg x)
  xs.foldl (fun c x => lanes.foldl (fun c l => c.setOfs x l (nextOfs (c.xreg x) (c.ofs x l))) c) c

/-- The pending writes of an operand on the scoreboard (04 R85, R86). -/
def Crew.pendOf (c : Crew) (o : VOp) : PendWrite :=
  match o.index with
  | none => .vector (c.win + o.field) o.n
  | some x => .range (xBase (c.xreg x)) (xBound (c.xreg x))

/-! ### The instruction fetch path (14 R287, R291, R292) -/

/-- TRAPINFO of a PROT trap (08 R182). -/
def protInfo (va : Nat) : Nat := if canonical va then va % 2 ^ 56 else va % 2 ^ 64

/-- What slices do whose access is stuck: LINKCUT where the die is cut, else a wait for a route, since their instruction first met none
(08 R179; 11 R258). -/
def State.linkFault (s : State) (iss : Issue) (is : List Nat) (a : Nat) (tgt : Tgt) (atMaster : Bool) : State :=
  let c := s.crew iss.crew
  match (if s.cutFrom (s.site c) tgt atMaster then none else s.noRoute (s.site c) tgt atMaster) with
  | some d => s.modCrew iss.crew fun c => c.modSlices is fun sl =>
      { sl with wait := .route d (BitVec.ofNat 64 a) (match sl.wait with | .route _ _ t => t | _ => s.time) }
  | none => s.trapGang iss is 0x14 a a

/-- A failed translation taken by some slices of the issuing gang together: parked on PAGE, waiting on MOVING, else trapped
(08 R182; 21 R326; 23 R371). -/
def State.xlatFault (s : State) (iss : Issue) (is : List Nat) (acc : Access) (va : Nat) (lanes : BitVec 32) (x : Xlat) : State :=
  let c := s.crew iss.crew
  let s := if (s.windowAddr c va).isSome || !canonical va then s else s.useFind (s.site c) c.tenant va
  match x with
  | .ok _ => s
  | .page => (s.askHost (s.site c) c.tenant va).park iss.crew is acc va lanes.toNat iss.pc iss.word
  | .prot => s.trapGang iss is 0x07 (protInfo va) (protInfo va)
  | .poison => s.trapGang iss is 0x13 va va
  | .heart => s.trapGang iss is 0x17 va va
  | .moving pfn => s.waitMoving iss.crew is pfn (some (BitVec.ofNat 64 va))
  | .link tgt => s.linkFault iss is va tgt false

/-- Reads bytes on the fetch path, which needs a route to their place like any access (11 R258). A fetch reaches no device that
answers: bytes from FABRIC and MMIO pages are free values (log 8). -/
def State.fetchRead (s : State) (c : Crew) (va n : Nat) : Except Xlat (State × List Byte) :=
  match s.fetchXlate c va with
  | .ok tgt =>
    if s.stuck (s.site c) tgt false then .error (.link tgt)
    else
      let s := s.touch (s.site c) c.tenant va false
      match tgt with
      | .fabric _ _ _ | .mmio _ =>
        let (s, v) := s.freeVal
        .ok (s, leBytes v.toNat n)
      | _ => .ok (s.readTgt (s.site c) tgt n false)
  | x => .error x

/-! ### Constants (14 R290, R291) -/

/-- A K = 1 constant: an entry of the table, or a word of the pool. -/
inductive Konst where
  | table (idx : Nat)
  | pool (word : Nat)
  deriving DecidableEq, Repr

/-- The numerators of the exact values of entries 48 to 62 in units of 2^-120, rounded down; none of the values is a
multiple of that unit (14 R290). -/
def konstUnits (i : Nat) : Nat :=
  match i with
  | 48 => 0x555555555555555555555555555555
  | 49 => 0x333333333333333333333333333333
  | 50 => 0x2aaaaaaaaaaaaaaaaaaaaaaaaaaaaa
  | 51 => 0x249249249249249249249249249249
  | 52 => 0x1c71c71c71c71c71c71c71c71c71c7
  | 53 => 0x199999999999999999999999999999
  | 54 => 0x155555555555555555555555555555
  | 55 => 0x10101010101010101010101010101
  | 56 => 0xb17217f7d1cf79abc9e3b39803f2f6
  | 57 => 0x171547652b82fe1777d0ffda0d23a7d
  | 58 => 0x3243f6a8885a308d313198a2e037073
  | 59 => 0x517cc1b727220a94fe13abe8fa9a6e
  | 60 => 0x6487ed5110b4611a62633145c06e0e6
  | 61 => 0x16a09e667f3bcc908b2fb1366ea957d
  | _ => 0xb504f333f9de6484597d89b3754abe

/-- The integer of entries 0 to 31 (14 R290). -/
def konstInt (i : Nat) : Int :=
  if i < 24 then i
  else
    match i with
    | 24 => -1
    | 25 => -2
    | 26 => -4
    | 27 => -8
    | 28 => 32
    | 29 => 64
    | 30 => 128
    | _ => 255

/-- A table entry rounded RN into a floating format (14 R290). -/
def konstFloat (f : Fmt) (i : Nat) : Nat :=
  if i < 32 then (roundDy f .rn false (Dy.ofInt (konstInt i))).code
  else if i < 48 then (roundTo f .rn false false 1 ((i : Int) - 40) false).code
  else if i = 63 then infCode f false
  else (roundTo f .rn false false (konstUnits i) (-120) true).code

/-- The 32-bit pattern of a table entry as an integer operand reads it: an integer, or the F32 pattern (14 R290). -/
def konstWord (i : Nat) : Nat := if i < 32 then intMod (konstInt i) 32 else konstFloat .f32 i

/-- A 32-bit pattern extended to a type's width: signed types by the sign (14 R290, R291). -/
def extendTo (t : Ty) (x : Nat) : Nat := if t.signed then intMod (natSext x 32) t.width else x % 2 ^ t.width

/-- A constant as an operand of a type. -/
def Konst.read (k : Konst) (t : Ty) : Nat :=
  match t.fmt with
  | some f =>
    match k with
    | .table i => konstFloat f i
    | .pool w => if t = .f64 then (convertTo .f64 .rn false (Fmt.f32.value w)).code else w % 2 ^ t.width
  | none =>
    match k with
    | .table i => extendTo t (konstWord i)
    | .pool w => extendTo t w

/-- Gives an instruction its constant where K is 1: the table entry, or the pool word at LPB + 4 × index, whose fault is a
fetch fault of the instruction taken by the gang (14 R290, R291). -/
def withKonst (s : State) (iss : Issue) (k : BitVec 1) (b : BitVec 7) (go : State → Option Konst → State) : State :=
  if k = 0 then go s none
  else
    let c := s.crew iss.crew
    let i := b.toNat % 64
    if !c.pool then go s (some (.table i))
    else
      let va := (c.lpb.toNat + 4 * i) % 2 ^ 64
      match s.fetchRead c va 4 with
      | .ok (s, bs) => go s (some (.pool (leNat bs)))
      | .error x => s.xlatFault iss iss.slices .fetch va (c.liveIn iss.slices) x

/-! ### Sources of any class (14 R288) -/

/-- A source operand. -/
inductive Src where
  | vec (o : VOp)
  | uni (r : Nat)
  | konst (k : Konst)
  | zero
  deriving DecidableEq, Repr

/-- D, A and B are vector fields under CL (14 R288). -/
def dVec (cl : BitVec 2) : Bool := cl != 3
/-- A is a vector field. -/
def aVec (cl : BitVec 2) : Bool := cl == 0 || cl == 1
/-- B is a vector field. -/
def bVec (cl : BitVec 2) : Bool := cl == 0 || cl == 2

/-- A source from its field: a constant, a vector operand of `n` registers or a uniform register. -/
def srcOf (vec : Bool) (pos : Nat) (field : BitVec 7) (n : Nat) (k : Option Konst := none) : Src :=
  match k with
  | some k => .konst k
  | none => if vec then .vec { pos := pos, field := field.toNat, n := n } else .uni field.toNat

/-- The vector operands of a list of sources. -/
def vopsOf (l : List Src) : List VOp :=
  l.filterMap fun
    | .vec o => some o
    | _ => none

/-- The pattern that a source supplies to a lane, at a type's width (05 R99). -/
def Src.read (x : Src) (c : Crew) (t : Ty) (l : Nat) : Nat :=
  match x with
  | .vec o => c.vnat o l % 2 ^ t.width
  | .uni r => (c.sreg r).toNat % 2 ^ t.width
  | .konst k => k.read t
  | .zero => 0

/-- Registers that an operand of a type takes in a vector form: a pair for 64 bits (05 R99). -/
def Ty.regs (t : Ty) : Nat := max 1 (t.width / 32)

/-! ### Addresses of memory words (14 R294; 10 R216) -/

/-- The access size of SZ in bytes (14 R295). -/
def szBytes (sz : BitVec 3) : Nat :=
  match sz with
  | 0 | 5 => 1
  | 1 | 6 => 2
  | 2 => 4
  | 3 => 8
  | 4 => 16
  | _ => 1

/-- The registers of a lane that SZ moves (14 R295). -/
def szRegs (sz : BitVec 3) : Nat :=
  match sz with
  | 3 => 2
  | 4 => 4
  | _ => 1

/-- The vector operands that form the address of a format M word; `scratch` for LDS and STS (14 R294). -/
def memOps (f : FmtM) (scratch : Bool) : List VOp :=
  match f.am with
  | 0 | 3 => [{ pos := 2, field := f.b.toNat, n := 1 }]
  | 1 => [{ pos := 1, field := f.a.toNat, n := if scratch then 1 else 2 }]
  | _ => []

/-- The address of a lane of a format M word (14 R294), modulo 2^64. -/
def memAddr (f : FmtM) (scratch : Bool) (c : Crew) (l : Nat) : Nat :=
  let sz := szBytes f.sz
  let base := (c.sreg f.a.toNat).toNat
  let vb : Int := natSext (c.vget { pos := 2, field := f.b.toNat, n := 1 } l 0).toNat 32
  match f.am with
  | 0 => intMod ((base : Int) + vb) 64
  | 1 => c.vnat { pos := 1, field := f.a.toNat, n := if scratch then 1 else 2 } l
  | 2 => (base + f.b.toNat * sz) % 2 ^ 64
  | _ => intMod ((base : Int) + vb * sz) 64

/-- The address operand of an atomic: 2 registers, or 1 for ATOMS (10 R216). -/
def atomOp (f : FmtA) (n : Nat) : VOp := { pos := 1, field := f.a.toNat, n := n }

/-- The address of a lane of an atomic of `size` bytes: the registers plus k × size, modulo the registers' width (10 R216,
21 R335). -/
def atomAddr (f : FmtA) (n size : Nat) (c : Crew) (l : Nat) : Nat :=
  intMod ((c.vnat (atomOp f n) l : Int) + natSext f.b.toNat 7 * size) (32 * n)

/-- The branch target of a format C or L word (14 R286). -/
def targetOf (iss : Issue) (off : BitVec 19) : DWord := iss.pc + BitVec.ofInt 64 (4 * natSext off.toNat 19)

end Sys2Proof.Machine
end

