-- ==== Sys2Proof/Machine/Flags.lean ====
section
/-! DEFINITION. How a computing instruction commits: the check of register names, the lanes' results, FLAGS and the FPE trap,
the writes, the advance of index registers and of the PC (spec 03 R72, R73; 05 R112 to R115; 14 R288). -/

namespace Sys2Proof.Machine

/-- FLAGS as SREAD reads it: TEN above the flags (05 R112). -/
def Crew.flagsWord (c : Crew) : Nat := c.ten.toNat * 2 ^ 8 + c.flags.toNat

/-- What one lane of an instruction produces: the words for its destination registers, the bit for its destination
predicate, and the flags it raises. -/
structure LaneOut where
  regs : List Word := []
  bit : Bool := false
  fl : BitVec 5 := 0
  deriving DecidableEq, Repr

/-- What a slice does: traps, or its lanes' results. -/
inductive SliceOut where
  | trap (code info : Nat)
  | ok (outs : List (Nat × LaneOut))
  deriving DecidableEq, Repr

/-- A slice's checks and results: its names in operand order (21 R326), then FPE when a lane raises an enabled flag
(05 R115). -/
def sliceRun (c : Crew) (ops : List VOp) (body : Nat → LaneOut) (i : Nat) : SliceOut :=
  match c.nameFault i ops with
  | some (code, info) => .trap code info
  | none =>
    let outs := (c.activeOf i).map fun l => (l, body l)
    let fl := outs.foldl (fun f o => f ||| o.2.fl) 0
    if fl &&& c.ten ≠ 0 then
      let m := outs.foldl (fun m o => if o.2.fl &&& c.ten ≠ 0 then m + 2 ^ o.1 else m) 0
      .trap 0x12 (fl.toNat + m * 2 ^ 5)
    else .ok outs

/-- Commits a slice's results to the crew: `c` is the crew as it stood at issue (03 R72, R73). A destination predicate gets
its bit in each active lane and 0 in each inactive lane of the slice (03 R60). -/
def sliceCommit (c : Crew) (d : Option VOp) (p : Option Nat) (ops : List VOp) (i : Nat) (outs : List (Nat × LaneOut))
    (r : Crew) : Crew :=
  let r : Crew := (match d with
    | some o => outs.foldl (fun r lo => c.vput r o lo.1 lo.2.regs) r
    | none => r)
  let r : Crew := { r with flags := r.flags ||| outs.foldl (fun f o => f ||| o.2.fl) 0 }
  let r : Crew := (match p with
    | some n => r.setPred n (sliceMask i) (maskOf 32 32 fun l => outs.any fun o => o.1 = l && o.2.bit)
    | none => r)
  r.postAdvance (outs.map (·.1)) ops

/-- Runs a vector instruction over the slices of the issuing gang: each slice commits all its lanes or traps (03 R72).
The operands' offsets are read from the crew as it stood at issue. -/
def vecInstr (s : State) (iss : Issue) (d : Option VOp) (p : Option Nat) (ops : List VOp) (body : Crew → Nat → LaneOut) :
    State :=
  let c := s.crew iss.crew
  let runs := iss.slices.map fun i => (i, sliceRun c ops (body c) i)
  let c' := runs.foldl (fun r (i, o) =>
    match o with
    | .ok outs => (sliceCommit c d p ops i outs r).advance [i] iss.len
    | .trap _ _ => r) c
  let s := s.setCrew iss.crew c'
  runs.foldl (fun s (i, o) =>
    match o with
    | .ok _ => s
    | .trap code info => s.raise iss.crew i (iss.trap code info 0)) s

/-- Runs a uniform instruction once for the issuing gang (04 R89): its effect on the crew and the flags it raises; when one
is enabled nothing is written and every slice of the gang traps FPE (05 R115). -/
def uniInstr (s : State) (iss : Issue) (body : Crew → Crew × BitVec 5) : State :=
  let c := s.crew iss.crew
  let (c', fl) := body c
  if fl &&& c.ten ≠ 0 then
    s.trapGang iss iss.slices 0x12 (fl.toNat + (c.liveIn iss.slices).toNat * 2 ^ 5) 0
  else
    s.setCrew iss.crew ({ c' with flags := c'.flags ||| fl }.advance iss.slices iss.len)

/-- A uniform instruction that raises no flag. -/
def uniPlain (s : State) (iss : Issue) (body : Crew → Crew) : State := uniInstr s iss fun c => (body c, 0)

/-- The lane result of a number written to `n` registers, with flags. -/
def outNat (n : Nat) (r : FRes) : LaneOut := { regs := wordsOf r.code n, fl := r.fl }

/-- An instruction of format A with a result of type `td` computed from up to three sources of type `ts`: in its vector
forms per active lane, in its uniform form once, written zero-extended (14 R288; 05 R99). The third source has the kind of
D; `third` names its field and position. -/
def aluInstr (s : State) (iss : Issue) (f : FmtA) (td ts : Ty) (useA useB : Bool) (third : Option (BitVec 7 × Nat))
    (fn : Nat → Nat → Nat → FRes) : State :=
  withKonst s iss f.k f.b fun s k =>
    let vd := dVec f.cl
    let a := if useA then srcOf (aVec f.cl) 1 f.a ts.regs else .zero
    let b := if useB then srcOf (bVec f.cl) 2 f.b ts.regs k else .zero
    let z := match third with
      | some (fl, pos) => srcOf vd pos fl ts.regs
      | none => .zero
    if vd then
      let d : VOp := { pos := 0, field := f.d.toNat, n := td.regs }
      vecInstr s iss (some d) none ([d] ++ vopsOf [a, b, z]) fun c l =>
        outNat td.regs (fn (a.read c ts l) (b.read c ts l) (z.read c ts l))
    else
      uniInstr s iss fun c =>
        let r := fn (a.read c ts 0) (b.read c ts 0) (z.read c ts 0)
        (c.setSreg f.d.toNat (BitVec.ofNat 64 (r.code % 2 ^ td.width)), r.fl)

/-- A comparison into a predicate: the condition's truth in active lanes, 0 in inactive ones; with CL 3 both operands are
uniform and each active lane receives the same bit (22 R357, 23 R368). -/
def cmpInstr (s : State) (iss : Issue) (f : FmtA) (t : Ty) (fn : Nat → Nat → Bool × BitVec 5) : State :=
  withKonst s iss f.k f.b fun s k =>
    let a := srcOf (aVec f.cl) 1 f.a t.regs
    let b := srcOf (bVec f.cl) 2 f.b t.regs k
    if f.cl = 3 then
      uniInstr s iss fun c =>
        let (r, fl) := fn (a.read c t 0) (b.read c t 0)
        let m := slicesMask iss.slices
        (c.setPred f.d.toNat m (if r then c.exec &&& m else 0), fl)
    else
      vecInstr s iss none (some f.d.toNat) (vopsOf [a, b]) fun c l =>
        let (r, fl) := fn (a.read c t l) (b.read c t l)
        { bit := r, fl := fl }

end Sys2Proof.Machine
end

