-- ==== Sys2Proof/Machine/Integer.lean ====
section
/-! DEFINITION. The groups INT1, INT2, BIT, BITF and ICMP (spec 21 to 26: R332, R339, R344, R366 to R368, R377, R384, R385,
R399, R412, R415, R423, R424). -/

namespace Sys2Proof.Machine

/-- The type of an INT1 or ICMP word: code 0 is SI32, or SI64 when CL is 3 (14 R298). -/
def intTy (cl : BitVec 2) (dt : BitVec 4) : Ty := Ty.ofCode (if cl = 3 then .si64 else .si32) dt

/-- The type of a BIT or BITF word: code 0 is B32, or B64 when CL is 3 (14 R298). -/
def bitTy (cl : BitVec 2) (dt : BitVec 4) : Ty := Ty.ofCode (if cl = 3 then .b64 else .b32) dt

/-- The two's complement of a pattern when a prefix bit asks for it (23 R367). -/
def negIf (t : Ty) (neg : Bool) (x : Nat) : Nat := if neg then (2 ^ t.width - x % 2 ^ t.width) % 2 ^ t.width else x

/-- An exact integer written in a type: clamped with SAT, else modulo 2^w (23 R367). -/
def intOut (t : Ty) (sat : Bool) (e : Int) : FRes := ⟨intMod (if sat then (t.clamp e).1 else e) t.width, 0⟩

/-! ### INT1 (23 R366, R367) -/

/-- An INT1 instruction of two sources: its exact result. -/
def int1 (f : FmtA) (s : State) (e : Int → Int → Int) : Host.Outcome State Fault Refusal :=
  withIssue s fun s iss =>
    let t := intTy f.cl f.p.dt
    aluInstr s iss f t t true true none fun a b _ =>
      intOut t f.p.sat (e (t.intVal (negIf t f.p.na a)) (t.intVal (negIf t f.p.nb b)))

/-- IADD (23 R367). -/
def execIadd (f : FmtA) (s : State) : Host.Outcome State Fault Refusal := int1 f s fun x y => x + y

/-- ISUB (23 R367). -/
def execIsub (f : FmtA) (s : State) : Host.Outcome State Fault Refusal := int1 f s fun x y => x - y

/-- IMUL (23 R367). -/
def execImul (f : FmtA) (s : State) : Host.Outcome State Fault Refusal := int1 f s fun x y => x * y

/-- IMIN (23 R367). -/
def execImin (f : FmtA) (s : State) : Host.Outcome State Fault Refusal := int1 f s fun x y => if x ≤ y then x else y

/-- IMAX (23 R367). -/
def execImax (f : FmtA) (s : State) : Host.Outcome State Fault Refusal := int1 f s fun x y => if x ≤ y then y else x

/-- IABS (23 R367). -/
def execIabs (f : FmtA) (s : State) : Host.Outcome State Fault Refusal :=
  withIssue s fun s iss =>
    let t := intTy f.cl f.p.dt
    aluInstr s iss f t t true false none fun a _ _ => intOut t f.p.sat (t.intVal a).natAbs

/-- IMULH: the high half of the exact product, whatever SAT holds (23 R366, R367). -/
def execImulh (f : FmtA) (s : State) : Host.Outcome State Fault Refusal :=
  withIssue s fun s iss =>
    let t := intTy f.cl f.p.dt
    aluInstr s iss f t t true true none fun a b _ =>
      ⟨intMod (t.intVal a * t.intVal b) (2 * t.width) / 2 ^ t.width, 0⟩

/-- The third source of IMAD and FFMA: C in position 3, or D's old value in position 0 (14 R289, R301). -/
def addend (f : FmtA) : Option (BitVec 7 × Nat) := some (if f.p.cp then (f.p.c, 3) else (f.d, 0))

/-- IMAD (23 R367). -/
def execImad (f : FmtA) (s : State) : Host.Outcome State Fault Refusal :=
  withIssue s fun s iss =>
    let t := intTy f.cl f.p.dt
    aluInstr s iss f t t true true (addend f) fun a b z =>
      intOut t f.p.sat (t.intVal (negIf t f.p.na a) * t.intVal (negIf t f.p.nb b) + t.intVal z)

/-! ### INT2 -/

/-- The scale of LEA by DT (23 R377). -/
def leaScale (dt : BitVec 4) : Nat :=
  match dt with
  | 0 => 1
  | 3 | 4 | 9 => 2
  | 2 | 10 | 12 => 4
  | 1 | 11 | 13 | 14 => 8
  | 15 => 16
  | _ => 1

/-- LEA (23 R377): the index is SI32 from a vector register and SI64 otherwise. -/
def execLea (f : FmtA) (s : State) : Host.Outcome State Fault Refusal :=
  withIssue s fun s iss =>
    withKonst s iss f.k f.b fun s k =>
      let a := srcOf (f.cl == 0) 1 f.a 2
      let b := srcOf (f.cl != 3) 2 f.b 1 k
      let ti : Ty := match b with | .vec _ => .si32 | _ => .si64
      let addr (c : Crew) (l : Nat) : Nat :=
        intMod ((a.read c .ui64 l : Int) + ti.intVal (b.read c ti l) * leaScale f.p.dt) 64
      if f.cl = 3 then uniPlain s iss fun c => c.setSreg f.d.toNat (BitVec.ofNat 64 (addr c 0))
      else
        let d : VOp := { pos := 0, field := f.d.toNat, n := 2 }
        vecInstr s iss (some d) none ([d] ++ vopsOf [a, b]) fun c l => { regs := wordsOf (addr c l) 2 }

/-- MOV: 32 bits per lane, or 64 bits between uniform registers (24 R384). -/
def execMov (f : FmtA) (s : State) : Host.Outcome State Fault Refusal :=
  withIssue s fun s iss =>
    let t := intTy f.cl 0
    aluInstr s iss f t t false true none fun _ b _ => ⟨b, 0⟩

/-- SEL: the predicate of C, or p0, chooses per lane; the uniform form asks whether any active lane of the gang has its bit
set (25 R415). -/
def execSel (f : FmtA) (s : State) : Host.Outcome State Fault Refusal :=
  withIssue s fun s iss =>
    withKonst s iss f.k f.b fun s k =>
      let t := intTy f.cl f.p.dt
      let q := if f.p.cp then f.p.c.toNat else 0
      let a := srcOf (aVec f.cl) 1 f.a t.regs
      let b := srcOf (bVec f.cl) 2 f.b t.regs k
      if f.cl = 3 then
        uniPlain s iss fun c =>
          let any := (c.activeIn iss.slices).any (mbit (c.pred q))
          c.setSreg f.d.toNat (BitVec.ofNat 64 (if any then a.read c t 0 else b.read c t 0))
      else
        let d : VOp := { pos := 0, field := f.d.toNat, n := t.regs }
        vecInstr s iss (some d) none ([d] ++ vopsOf [a, b]) fun c l =>
          { regs := wordsOf (if mbit (c.pred q) l then a.read c t l else b.read c t l) t.regs }

/-- The immediate of MOVK (24 R385). -/
def movkImm (f : FmtA) : Int := natSext (f.k.toNat * 2 ^ 14 + f.a.toNat * 2 ^ 7 + f.b.toNat) 15

/-- MOVK (24 R385). -/
def execMovk (f : FmtA) (s : State) : Host.Outcome State Fault Refusal :=
  withIssue s fun s iss =>
    if f.cl = 3 then uniPlain s iss fun c => c.setSreg f.d.toNat (BitVec.ofInt 64 (movkImm f))
    else
      let d : VOp := { pos := 0, field := f.d.toNat, n := 1 }
      vecInstr s iss (some d) none [d] fun _ _ => { regs := [BitVec.ofInt 32 (movkImm f)] }

/-- A special register takes 64 bits (04 R92). -/
def specialWide (n : Nat) : Bool :=
  n == 0x03 || n == 0x04 || n == 0x05 || n == 0x08 || n == 0x0A || n == 0x0B || n == 0x0D || n == 0x10

/-- The coordinates of a party (02 R31). -/
def Launch.gridPos (l : Launch) (i : Nat) : Nat :=
  i / (l.e0 * l.e1) * 2 ^ 42 + i / l.e0 % l.e1 * 2 ^ 21 + i % l.e0

/-- What a special register reads in a lane (04 R92; on a service thread 12 R444). -/
def State.special (s : State) (c : Crew) (n l : Nat) : Nat :=
  let sl := c.slice (l / 4)
  match n with
  | 0x00 => l
  | 0x01 => l / 4
  | 0x09 => c.flagsWord
  | 0x0A => sl.link.toNat
  | 0x0B => c.hstk.toNat
  | 0x0C => sl.cause.toNat
  | 0x0D => sl.info.toNat
  | 0x0E => c.off.toNat
  | 0x0F => (sget c.atloc l).toNat
  | 0x10 => c.lpb.toNat
  | _ =>
    match c.place with
    | .compute p index _ =>
      let pa := s.party p
      let la := s.launchRec pa.launch
      match n with
      | 0x02 => index
      | 0x03 => pa.index
      | 0x04 => la.total * 2 ^ 16 + la.perOuting * 2 ^ 8 + la.crews
      | 0x05 => la.gridPos pa.index
      | 0x06 => pa.core
      | 0x07 => virtualDie (s.tenant c.tenant) pa.die
      | 0x08 => s.clock - (s.die pa.die).clockBase
      | _ => pa.member
    | .service core thread =>
      match n with
      | 0x04 => 0x10101
      | 0x06 => 2 ^ 5 + thread * 2 ^ 6 + core
      | 0x07 => 0xFF
      | 0x08 => s.clock
      | _ => 0

/-- SREAD (25 R423). A vector read of LINK acts on all four lanes of each slice whatever exec holds (04 R92); the spec checks the offsets
of active lanes alone (04 R83), and leaves open what an inactive lane with an offset out of bounds does: it is not written (log 61). -/
def execSread (f : FmtA) (s : State) : Host.Outcome State Fault Refusal :=
  withIssue s fun s iss =>
    let n := f.b.toNat
    if f.cl = 3 then uniPlain s iss fun c => c.setSreg f.d.toNat (BitVec.ofNat 64 (s.special c n 0))
    else
      let w := if specialWide n then 2 else 1
      let d : VOp := { pos := 0, field := f.d.toNat, n := w }
      let val (l : Nat) : List Word := wordsOf (s.special (s.crew iss.crew) n l) w
      if n = 0x0A then
        let c := s.crew iss.crew
        let t := vecInstr s iss none none [d] fun _ _ => {}
        iss.slices.foldl (fun t i =>
          match c.nameFault i [d] with
          | some _ => t
          | none => t.modCrew iss.crew fun r =>
              ((sliceLanes i).filter fun l => d.index.isNone || !c.ofsBad (d.index.getD 0) l w).foldl
                (fun r l => c.vput r d l (val l)) r) t
      else vecInstr s iss (some d) none [d] fun _ l => { regs := val l }

/-- Writes a crew-scope special register: FLAGS keeps TEN, HSTK takes the value as given, LPB clears bits [7:0] (25 R424). -/
def Crew.setSpecial (c : Crew) (n v : Nat) : Crew :=
  match n with
  | 0x09 => { c with flags := BitVec.ofNat 5 v }
  | 0x0B => { c with hstk := BitVec.ofNat 64 v }
  | 0x10 => { c with lpb := BitVec.ofNat 64 (v / 256 * 256) }
  | _ => c

/-- SWRITE (25 R424). A write of LINK takes a slice's value from its lane 4s even where that lane is inactive (04 R92); the spec leaves
open what it takes where the offset of that inactive lane is out of bounds: the register that BASE and offset name (log 61). -/
def execSwrite (f : FmtA) (s : State) : Host.Outcome State Fault Refusal :=
  withIssue s fun s iss =>
    let n := f.d.toNat
    let w := if specialWide n then 2 else 1
    let link (r : Crew) (i v : Nat) : Crew := r.modSlice i fun sl => { sl with link := pcOf (BitVec.ofNat 64 v) }
    if f.cl = 3 then
      uniPlain s iss fun c =>
        let v := (c.sreg f.b.toNat).toNat
        if n = 0x0A then iss.slices.foldl (fun r i => link r i v) c else c.setSpecial n v
    else
      let b : VOp := { pos := 2, field := f.b.toNat, n := w }
      let c := s.crew iss.crew
      let good := iss.slices.filter fun i => (c.nameFault i [b]).isNone
      let s := s.modCrew iss.crew fun r =>
        if n = 0x0A then good.foldl (fun r i => link r i (c.vnat b (4 * i))) r
        else
          match c.activeIn good with
          | [] => r
          | l :: _ => r.setSpecial n (c.vnat b l)
      vecInstr s iss none none [b] fun _ _ => {}

/-- Leading zeros of a pattern over `w` bits (22 R344). -/
def clzNat (w x : Nat) : Nat := w - bitLen (x % 2 ^ w)

/-- POPC (24 R399). -/
def execPopc (f : FmtA) (s : State) : Host.Outcome State Fault Refusal :=
  withIssue s fun s iss =>
    let t := intTy f.cl f.p.dt
    aluInstr s iss f t t true false none fun a _ _ => ⟨popCount a t.width, 0⟩

/-- CLZ (22 R344). -/
def execClz (f : FmtA) (s : State) : Host.Outcome State Fault Refusal :=
  withIssue s fun s iss =>
    let t := intTy f.cl f.p.dt
    aluInstr s iss f t t true false none fun a _ _ => ⟨clzNat t.width a, 0⟩

/-! ### BIT and BITF (21 R332, R339; 25 R412) -/

/-- A bitwise instruction of two sources: its result pattern. -/
def bitop (f : FmtA) (s : State) (e : Ty → Nat → Nat → Nat) : Host.Outcome State Fault Refusal :=
  withIssue s fun s iss =>
    let t := bitTy f.cl f.p.dt
    aluInstr s iss f t t true true none fun a b _ => ⟨e t a b % 2 ^ t.width, 0⟩

/-- AND (21 R333). -/
def execBand (f : FmtA) (s : State) : Host.Outcome State Fault Refusal := bitop f s fun _ a b => a &&& b

/-- OR (24 R389). -/
def execBor (f : FmtA) (s : State) : Host.Outcome State Fault Refusal := bitop f s fun _ a b => a ||| b

/-- XOR (26 R442). -/
def execBxor (f : FmtA) (s : State) : Host.Outcome State Fault Refusal := bitop f s fun _ a b => a ^^^ b

/-- The complement over the width of a type. -/
def notTy (t : Ty) (b : Nat) : Nat := 2 ^ t.width - 1 - b % 2 ^ t.width

/-- ANDN (21 R333). -/
def execBandn (f : FmtA) (s : State) : Host.Outcome State Fault Refusal := bitop f s fun t a b => a &&& notTy t b

/-- SHL (25 R412). -/
def execShl (f : FmtA) (s : State) : Host.Outcome State Fault Refusal :=
  bitop f s fun t a b => if b % 256 < t.width then a * 2 ^ (b % 256) else 0

/-- SHR (25 R412). -/
def execShr (f : FmtA) (s : State) : Host.Outcome State Fault Refusal := bitop f s fun _ a b => a / 2 ^ (b % 256)

/-- SAR (25 R412). -/
def execSar (f : FmtA) (s : State) : Host.Outcome State Fault Refusal :=
  bitop f s fun t a b => intMod (natSext a t.width / (2 ^ (b % 256) : Nat)) t.width

/-- Bits of a pattern in reverse order. -/
def revBits (x : Nat) : Nat → Nat
  | 0 => 0
  | n + 1 => x % 2 * 2 ^ n + revBits (x / 2) n

/-- BREV (21 R341). -/
def execBrev (f : FmtA) (s : State) : Host.Outcome State Fault Refusal :=
  withIssue s fun s iss =>
    let t := bitTy f.cl f.p.dt
    aluInstr s iss f t t true false none fun a _ _ => ⟨revBits a t.width, 0⟩

/-- BFX (21 R339). -/
def execBfx (f : FmtA) (s : State) : Host.Outcome State Fault Refusal :=
  bitop f s fun t a b =>
    let pos := natBits b 7 0
    let len := min (natBits b 15 8) (t.width - pos)
    if len = 0 || t.width ≤ pos then 0
    else
      let x := a / 2 ^ pos % 2 ^ len
      if t.signed then intMod (natSext x len) t.width else x

/-- The result of BFI: `d` with the field replaced (21 R339). -/
def bfiNat (w a b d : Nat) : Nat :=
  let pos := natBits b 7 0
  let len := min (natBits b 15 8) (w - pos)
  if len = 0 || w ≤ pos then d
  else d / 2 ^ (pos + len) * 2 ^ (pos + len) + a % 2 ^ len * 2 ^ pos + d % 2 ^ pos

/-- BFI: D is read and written (21 R339). -/
def execBfi (f : FmtA) (s : State) : Host.Outcome State Fault Refusal :=
  withIssue s fun s iss =>
    let t := bitTy f.cl f.p.dt
    aluInstr s iss f t t true true (some (f.d, 0)) fun a b d => ⟨bfiNat t.width a b d % 2 ^ t.width, 0⟩

/-! ### ICMP (23 R368) -/

/-- The truth of an integer condition. -/
def icmpHolds (cond : BitVec 3) (t : Ty) (a b : Nat) : Bool :=
  let x := t.intVal a
  let y := t.intVal b
  match cond with
  | 0 => x = y
  | 1 => x ≠ y
  | 2 => x < y
  | 3 => x ≤ y
  | 4 => y < x
  | _ => y ≤ x

/-- ICMP (23 R368). -/
def execIcmp (cond : BitVec 3) (f : FmtA) (s : State) : Host.Outcome State Fault Refusal :=
  withIssue s fun s iss =>
    let t := intTy f.cl f.p.dt
    cmpInstr s iss f t fun a b => (icmpHolds cond t a b, 0)

end Sys2Proof.Machine
end

