-- ==== Sys2Proof/Machine/MatrixFmt.lean ====
section
/-! DEFINITION. The format block of a matrix pass and the vector operands that it gives the pass (spec 06 R123 to R129). -/

namespace Sys2Proof.Machine

/-! ### The format block (06 R127, R128) -/

/-- The fields of word 0 of a format block. -/
structure FmtBlock where
  aband : Nat
  row0 : Nat
  asreg : Nat
  sat : Bool
  blk : Nat
  bsc : Bool
  asc : Bool
  bfmt : Nat
  afmt : Nat
  deriving DecidableEq, Repr

/-- The format block in a double-word. -/
def fmtBlock (w : Nat) : FmtBlock :=
  { aband := natBits w 63 48, row0 := natBits w 37 32, asreg := natBits w 22 16, sat := natBit w 12, blk := natBits w 11 10
    bsc := natBit w 9, asc := natBit w 8, bfmt := natBits w 7 4, afmt := natBits w 3 0 }

/-- Bits of an element of a matrix format. -/
def mxBits (f : Nat) : Nat := if f < 2 then 16 else if f = 4 || f = 6 then 4 else 8

/-- The floating format of a matrix format code, none for the integers. -/
def mxFmt (f : Nat) : Option Fmt :=
  match f with
  | 0 => some .f16
  | 1 => some .bf16
  | 2 => some .e4m3
  | 3 => some .e5m2
  | 4 => some .e2m1
  | _ => none

/-- A format that may be block-scaled (06 R128 reason 5). -/
def mxScales (f : Nat) : Bool := f = 2 || f = 3 || f = 4

/-- The reason for which a pass traps FMT, the lowest first (06 R128). -/
def FmtBlock.reason (b : FmtBlock) (slot : Nat) : Option Nat :=
  if 7 ≤ b.afmt then some 1
  else if 7 ≤ b.bfmt then some 2
  else if b.blk = 3 then some 3
  else if decide (b.afmt < 5) != decide (b.bfmt < 5) then some 4
  else if (b.asc && !mxScales b.afmt) || (b.bsc && !mxScales b.bfmt) then some 5
  else if (b.afmt = 4 && !b.asc) || (b.bfmt = 4 && !b.bsc) then some 6
  else if (b.afmt = 4 || b.bfmt = 4) && b.blk ≠ 0 then some 7
  else if b.bfmt < 2 && slot % 2 = 1 then some 8
  else none

/-- The depth of a pass (06 R129). -/
def FmtBlock.depth (b : FmtBlock) : Nat := if mxBits b.afmt = 4 && mxBits b.bfmt = 4 then 384 else 192

/-- The block length (06 R127). -/
def FmtBlock.len (b : FmtBlock) : Nat := 8 * 2 ^ b.blk

/-- The registers of vN that a pass reads (06 R125). -/
def FmtBlock.aRegs (b : FmtBlock) : Nat := b.depth * mxBits b.afmt / 32

/-- The registers of A's block scales (06 R126). -/
def FmtBlock.scaleRegs (b : FmtBlock) : Nat := ceilDiv b.depth (4 * b.len)

/-- The operands of a pass that are vector names. -/
def passOps (fb : FmtBlock) (f : FmtA) : List VOp :=
  { pos := 1, field := f.a.toNat, n := fb.aRegs }
    :: (if fb.asc then [{ pos := 3, field := fb.asreg, n := fb.scaleRegs }] else [])

end Sys2Proof.Machine
end

