-- ==== Sys2Proof/Machine/Scoreboard.lean ====
section
/-! DEFINITION. The scoreboard of a crew: what an instruction reads and writes of the crew's registers, and whether a pending write,
the four range entries or the core's request entries hold it back (spec 02 R34, R38; 04 R85 to R89; 17 R318). -/

namespace Sys2Proof.Machine

/-! ### Overlaps (04 R85, R86) -/

/-- The physical vector registers that a place covers, from the first to past the last. -/
def PendWrite.span : PendWrite → Option (Nat × Nat)
  | .vector lo n | .range lo n => some (lo, lo + n)
  | .uniform _ | .acc _ | .pred _ | .index _ | .special _ => none

/-- Two places of the scoreboard overlap. -/
def PendWrite.overlaps (a b : PendWrite) : Bool :=
  match a.span, b.span with
  | some x, some y => x.1 < y.2 && y.1 < x.2
  | none, none => a == b
  | _, _ => false

/-- The place is the range of an indirect write. -/
def PendWrite.isRange : PendWrite → Bool
  | .range _ _ => true
  | _ => false

/-- The pending writes of a crew: those of the accesses that await replies, of the instructions that its slices wait inside, and of its
matrix passes too (04 R85; 06 R138). -/
def Crew.pending (c : Crew) : List PendWrite :=
  c.pend ++ c.flights.flatMap (·.pend) ++ c.passes.map (fun p => .acc p.acc)
    ++ c.slices.flatMap fun sl => match sl.inside with | some h => h.pend | none => []

/-- The range entries in use; the slices of one instruction share an entry, and no other instruction's range can meet it. -/
def Crew.rangesUsed (c : Crew) : Nat := (c.pending.filter (·.isRange)).eraseDups.length

/-! ### What an instruction reads and writes -/

/-- The places that an instruction reads and those that it writes. -/
structure Places where
  reads : List PendWrite := []
  writes : List PendWrite := []
  deriving DecidableEq, Repr

/-- The places of a vector operand; an indirect one reads its index register too. -/
def Crew.opPlaces (c : Crew) (o : VOp) : List PendWrite :=
  match o.index with
  | none => [c.pendOf o]
  | some x => [c.pendOf o, .index x]

/-- The places of a field of `n` vector registers, or of a uniform register. -/
def Crew.fieldPlaces (c : Crew) (vec : Bool) (pos : Nat) (field : BitVec 7) (n : Nat) : List PendWrite :=
  if vec then c.opPlaces { pos := pos, field := field.toNat, n := n } else [.uniform field.toNat]

/-- The places of the B field, none when it names a constant. -/
def Crew.constPlaces (c : Crew) (f : FmtA) (vec : Bool) (n : Nat) : List PendWrite :=
  if f.k = 1 then [] else c.fieldPlaces vec 2 f.b n

/-- Uniform registers from a number. -/
def uniPlaces (r : BitVec 7) (n : Nat) : List PendWrite := (List.range n).map fun i => .uniform (r.toNat + i)

/-- The guarded range of a prefix (09 R203). -/
def guardPlaces (p : Prefix) : List PendWrite := if p.cp then uniPlaces p.c 2 else []

/-- An instruction of `aluInstr`. -/
def Crew.aluPlaces (c : Crew) (f : FmtA) (td ts : Ty) (a b : Bool) (third : Option (BitVec 7 × Nat)) : Places :=
  { writes := c.fieldPlaces (dVec f.cl) 0 f.d td.regs
    reads := (if a then c.fieldPlaces (aVec f.cl) 1 f.a ts.regs else []) ++ (if b then c.constPlaces f (bVec f.cl) ts.regs else [])
      ++ match third with
         | some (fl, pos) => c.fieldPlaces (dVec f.cl) pos fl ts.regs
         | none => [] }

/-- A comparison into a predicate. -/
def Crew.cmpPlaces (c : Crew) (f : FmtA) (t : Ty) : Places :=
  { writes := [.pred f.d.toNat], reads := c.fieldPlaces (aVec f.cl) 1 f.a t.regs ++ c.constPlaces f (bVec f.cl) t.regs }

/-- An instruction of `n` vector registers D and `m` vector registers A. -/
def Crew.pairPlaces (c : Crew) (f : FmtA) (n m : Nat) : Places :=
  { writes := c.fieldPlaces true 0 f.d n, reads := c.fieldPlaces true 1 f.a m }

/-- The address of a format M word and its guarded range; `scratch` for LDS and STS. -/
def Crew.addrPlaces (c : Crew) (f : FmtM) (scratch : Bool) : List PendWrite :=
  (memOps f scratch).flatMap c.opPlaces ++ (if f.am = 1 then [] else [.uniform f.a.toNat]) ++ guardPlaces f.p

/-- The data of a format M word. -/
def Crew.dataPlaces (c : Crew) (f : FmtM) : List PendWrite := c.fieldPlaces true 0 f.d (szRegs f.sz)

/-- The uniform data of LDU and STU. -/
def uniData (f : FmtM) : List PendWrite := uniPlaces f.d (if f.sz = 4 then 2 else 1)

/-- An atomic: `n` operand registers, `m` address registers, `ret` when it returns a value (10 R216; 17 R318). -/
def Crew.atomPlaces (c : Crew) (f : FmtA) (n m : Nat) (ret : Bool) : Places :=
  { writes := (if ret then c.fieldPlaces true 0 f.d n else []) ++ [.special 0x0F]
    reads := c.fieldPlaces true 0 f.d n ++ c.fieldPlaces true 1 f.a m ++ guardPlaces f.p }

/-- The registers of an atomic's type, code 0 being one of 32 bits. -/
def atomRegs (f : FmtA) : Nat := (Ty.ofCode .b32 f.p.dt).regs

/-- The lane data and offsets of MSTORE, PUTSIG and RLOAD. -/
def Crew.lanePlaces (c : Crew) (f : FmtA) (n uni : Nat) : List PendWrite :=
  c.fieldPlaces true 0 f.d n ++ c.fieldPlaces true 2 f.b 1 ++ uniPlaces f.a uni

/-- A matrix pass: its accumulator, its format block, and its vector operands. -/
def Crew.passPlaces (c : Crew) (f : FmtA) : Places :=
  let r := if f.p.cp then f.p.c.toNat else 126
  { writes := [.acc f.d.toNat], reads := .uniform r :: (passOps (fmtBlock (c.sreg r).toNat) f).flatMap c.opPlaces }

/-- What an encoded instruction reads and writes of its crew's registers. The steps that no crew issues touch none. -/
def placesOf (i : Instr) (c : Crew) : Places :=
  match i with
  | .iadd f | .isub f | .imul f | .imulh f | .imin f | .imax f =>
    c.aluPlaces f (intTy f.cl f.p.dt) (intTy f.cl f.p.dt) true true none
  | .iabs f | .popc f | .clz f => c.aluPlaces f (intTy f.cl f.p.dt) (intTy f.cl f.p.dt) true false none
  | .imad f => c.aluPlaces f (intTy f.cl f.p.dt) (intTy f.cl f.p.dt) true true (addend f)
  | .lea f =>
    { writes := c.fieldPlaces (f.cl != 3) 0 f.d 2
      reads := c.fieldPlaces (f.cl == 0) 1 f.a 2 ++ c.constPlaces f (f.cl != 3) 1 }
  | .mov f => c.aluPlaces f (intTy f.cl 0) (intTy f.cl 0) false true none
  | .sel f =>
    let p := c.aluPlaces f (intTy f.cl f.p.dt) (intTy f.cl f.p.dt) true true none
    { p with reads := .pred (if f.p.cp then f.p.c.toNat else 0) :: p.reads }
  | .movk f => { writes := c.fieldPlaces (f.cl != 3) 0 f.d 1 }
  | .sread f =>
    { writes := c.fieldPlaces (f.cl != 3) 0 f.d (if specialWide f.b.toNat then 2 else 1), reads := [.special f.b.toNat] }
  | .swrite f =>
    { writes := [.special f.d.toNat], reads := c.fieldPlaces (f.cl != 3) 2 f.b (if specialWide f.d.toNat then 2 else 1) }
  | .band f | .bor f | .bxor f | .bandn f | .shl f | .shr f | .sar f | .bfx f =>
    c.aluPlaces f (bitTy f.cl f.p.dt) (bitTy f.cl f.p.dt) true true none
  | .brev f => c.aluPlaces f (bitTy f.cl f.p.dt) (bitTy f.cl f.p.dt) true false none
  | .bfi f => c.aluPlaces f (bitTy f.cl f.p.dt) (bitTy f.cl f.p.dt) true true (some (f.d, 0))
  | .icmp _ f => c.cmpPlaces f (intTy f.cl f.p.dt)
  | .fcmp _ f => c.cmpPlaces f (Ty.ofCode .f32 f.p.dt)
  | .fadd f | .fmul f | .fmin f | .fmax f => c.aluPlaces f (Ty.ofCode .f32 f.p.dt) (Ty.ofCode .f32 f.p.dt) true true none
  | .ffma f => c.aluPlaces f (Ty.ofCode .f32 f.p.dt) (Ty.ofCode .f32 f.p.dt) true true (addend f)
  | .frnd f => c.aluPlaces f (Ty.ofCode .f32 f.p.dt) (Ty.ofCode .f32 f.p.dt) true false none
  | .cvt f => c.aluPlaces f (Ty.ofCode .f32 f.p.dt) (Ty.ofCode .f32 f.p.st) true false none
  | .frcp f | .frsq f | .fsqrt f | .fexp2 f | .flog2 f | .fsinpi f | .fcospi f => c.pairPlaces f 1 1
  | .qpack f => c.pairPlaces f 2 8
  | .qunpk f => c.pairPlaces f 8 2
  | .shfl f =>
    let p := c.pairPlaces f (Ty.ofCode .b32 f.p.dt).regs (Ty.ofCode .b32 f.p.dt).regs
    { p with reads := p.reads ++ c.constPlaces f (f.cl == 0) 1 }
  | .vote f => { writes := if f.cl = 2 then [.uniform f.d.toNat] else [.pred f.d.toNat], reads := [.pred f.a.toNat] }
  | .matchEq f => c.pairPlaces f 1 (Ty.ofCode .b32 f.p.dt).regs
  | .redux f | .scan f => c.pairPlaces f (Ty.ofCode .si32 f.p.dt).regs (Ty.ofCode .si32 f.p.dt).regs
  | .pand f | .por f | .pxor f | .pandn f => { writes := [.pred f.d.toNat], reads := [.pred f.a.toNat, .pred f.b.toNat] }
  | .pmov f => { writes := [.pred f.d.toNat], reads := [.pred f.a.toNat] }
  | .pcnt f => { writes := [.uniform f.d.toNat], reads := [.pred f.a.toNat] }
  | .win f => { reads := c.constPlaces f false 1 }
  | .xset f => { writes := [.index f.d.toNat], reads := c.constPlaces f false 1 }
  | .xld f => { writes := [.index f.d.toNat], reads := c.fieldPlaces true 1 f.a 1 }
  | .xget f => { writes := c.fieldPlaces (f.cl != 3) 0 f.d 1, reads := [.index f.a.toNat] }
  | .br _ f | .split f => { reads := [.pred f.p.toNat] }
  | .ldl f => { writes := [.uniform f.d.toNat] }
  | .ret f => { reads := if f.a = 0 then [] else [.uniform f.a.toNat] }
  | .idem _ => { reads := uniPlaces 0 32 }
  | .csrr f => { writes := [.uniform f.d.toNat] }
  | .csrw f => { reads := [.uniform f.d.toNat] }
  | .spawn f => { writes := [.uniform f.d.toNat], reads := uniPlaces f.a 8 ++ uniPlaces f.b 8 }
  | .joinw f => { reads := .uniform f.a.toNat :: c.constPlaces f false 1 }
  | .ld f => { writes := c.dataPlaces f, reads := c.addrPlaces f false }
  | .lds f => { writes := c.dataPlaces f, reads := c.addrPlaces f true }
  | .st f => { reads := c.dataPlaces f ++ c.addrPlaces f false }
  | .sts f => { reads := c.dataPlaces f ++ c.addrPlaces f true }
  | .ldu f => { writes := uniData f, reads := c.addrPlaces f false }
  | .stu f => { reads := uniData f ++ c.addrPlaces f false }
  | .atom f => c.atomPlaces f (atomRegs f) 2 true
  | .red f => c.atomPlaces f (atomRegs f) 2 false
  | .acas f => c.atomPlaces f (2 * atomRegs f) 2 true
  | .atoms f => c.atomPlaces f (if f.op3 = 7 then 2 * atomRegs f else atomRegs f) 1 true
  | .rwl f => c.atomPlaces f 1 2 true
  | .place f | .pinv f => { reads := [.uniform f.a.toNat] }
  | .peq f => { writes := uniPlaces f.d 2, reads := [.uniform f.a.toNat] }
  | .pins f => { writes := [.uniform f.d.toNat], reads := [.uniform f.a.toNat] }
  | .vdie f => { writes := [.uniform f.d.toNat], reads := .uniform f.a.toNat :: c.constPlaces f false 1 }
  | .bar f | .barArrive f | .gbar f | .gbarArrive f => { writes := if f.b.toNat / 32 = 1 then [.uniform f.d.toNat] else [] }
  | .barWait f | .gbarWait f | .barcfg f => { reads := [.uniform f.a.toNat] }
  | .sigpost f => { reads := c.constPlaces f false 1 ++ guardPlaces f.p }
  | .sigpostRemote f => { reads := .uniform f.a.toNat :: c.constPlaces f false 1 ++ guardPlaces f.p }
  | .sigpostAddr f => { writes := [.uniform f.d.toNat] }
  | .sigwait f => { reads := c.constPlaces f false 1 }
  | .copy f => { reads := uniPlaces f.a 16 }
  | .gather f | .scatter f => { reads := uniPlaces f.a 8 }
  | .coll f => { reads := uniPlaces f.a 6 }
  | .mstore f => { reads := c.lanePlaces f (2 ^ f.cl.toNat) 1 }
  | .putsig f => { reads := c.lanePlaces f (2 ^ f.cl.toNat) 2 }
  | .rload f => { writes := c.fieldPlaces true 0 f.d 1, reads := c.fieldPlaces true 2 f.b 1 ++ uniPlaces f.a 1 }
  | .mma f | .mmab f => c.passPlaces f
  | .accz f => { writes := [.acc f.d.toNat] }
  | .accrd f => { writes := c.fieldPlaces true 0 f.d 32, reads := [.acc f.a.toNat] }
  | .accrdStat f => { writes := c.fieldPlaces true 0 f.d 1, reads := [.acc f.a.toNat] }
  | .accwr f => { writes := [.acc f.d.toNat], reads := c.fieldPlaces true 1 f.a 32 }
  | .accwrStat f => { writes := [.acc f.d.toNat], reads := c.fieldPlaces true 1 f.a 1 }
  | .accst f => { writes := [.uniform f.d.toNat], reads := [.acc f.a.toNat] }
  | .twalk f => { writes := [.uniform f.d.toNat], reads := uniPlaces f.a 3 }
  | .tnext f => { writes := [.uniform f.d.toNat] }
  | .refill f => { writes := .pred f.b.toNat :: c.fieldPlaces true 0 f.d 2, reads := [.pred f.a.toNat] }
  | _ => {}

/-- The B field of an instruction that reads it as a constant (14 R290). -/
def constOf (i : Instr) : Option (BitVec 7) :=
  match i with
  | .iadd f | .isub f | .imul f | .imulh f | .imin f | .imax f | .imad f | .lea f | .mov f | .sel f | .band f | .bor f | .bxor f
  | .bandn f | .shl f | .shr f | .sar f | .bfx f | .bfi f | .icmp _ f | .fcmp _ f | .fadd f | .fmul f | .fmin f | .fmax f | .ffma f
  | .shfl f | .win f | .xset f | .joinw f | .vdie f | .sigpost f | .sigpostRemote f | .sigwait f => if f.k = 1 then some f.b else none
  | _ => none

/-- No pending write of the crew overlaps what the instruction reads or writes, it writes nothing that a matrix pass holds, and an
indirect write finds a range entry (04 R85, R86; 06 R138). -/
def Crew.boardFree (c : Crew) (i : Instr) : Bool :=
  (c.pending.isEmpty && c.passes.isEmpty) ||
    (let p := placesOf i c
     (p.reads ++ p.writes).all (fun x => c.pending.all fun y => !x.overlaps y)
       && p.writes.all (fun x => c.passes.all fun q => q.reads.all fun y => !x.overlaps y)
       && (!p.writes.any (·.isRange) || c.rangesUsed < 4))

/-! ### Entries for outstanding requests (01 R16; 02 R34; 07 R165) -/

/-- The requests that an instruction may send: one for each active lane, one for the gang, or one for each page of a PLACE. -/
def entriesOf (i : Instr) (c : Crew) (is : List Nat) : Nat :=
  match i with
  | .ld _ | .st _ | .lds _ | .sts _ | .atom _ | .red _ | .acas _ | .atoms _ | .rwl _ | .rload _ => (c.activeIn is).length
  | .ldu _ | .stu _ | .joinw _ => 1
  | .sigpostRemote f => bit01 (natBits (c.sreg f.a.toNat).toNat 63 48 ≠ 0xFFFF)
  | .place f => f.b.toNat + 1
  | .eret _ => is.length
  | _ => 0

/-- The entries that each of some slices keeps while it waits inside an instruction: one for each of its active lanes, or those of the
gang in its lowest slice. The pages of a PLACE keep theirs at the directory. -/
def entriesAt (i : Instr) (c : Crew) (is : List Nat) (x : Nat) : Nat :=
  match i with
  | .ld _ | .st _ | .lds _ | .sts _ | .atom _ | .red _ | .acas _ | .atoms _ | .rwl _ | .rload _ => (c.activeOf x).length
  | .ldu _ | .stu _ | .joinw _ | .sigpostRemote _ => if is.headD 8 = x then entriesOf i c is else 0
  | .eret _ => 1
  | _ => 0

/-- The request has had no response and has not failed. -/
def Request.waits (r : Request) : Bool := r.data.isNone && r.failed.isNone

/-- The entries of the requests that a slice inside an access has not sent yet. -/
def State.entriesLeft (s : State) (sl : Slice) : Nat :=
  match sl.group with
  | some g => sl.entries - (s.requests.filter fun r => r.group = g).length
  | none => sl.entries

/-- The entries in use at a core: the requests of its crews that await their responses, those of the accesses that have not been sent
yet, and the pages of a PLACE whose remap has not started; those of a service core are counted together. -/
def State.outstanding (s : State) (site : CacheId) : Nat :=
  (s.requests.filter fun r => r.op.isNone && r.waits && s.site (s.crew r.crew) == site).length
    + s.crews.foldl (fun n x =>
        if s.site x.2 == site then n + x.2.slices.foldl (fun m sl => if sl.completes then m + s.entriesLeft sl else m) 0 else n) 0
    + s.pages.foldl (fun n x =>
        n + (x.2.queue.filter fun q => match q.asker with | .place _ k => k == site | _ => false).length) 0

/-- The core has entries for what the instruction may send, of 1,024. -/
def State.entriesFree (s : State) (c : Crew) (i : Instr) (is : List Nat) : Bool :=
  entriesOf i c is = 0 || s.outstanding (s.site c) + entriesOf i c is ≤ 1024

end Sys2Proof.Machine
end

