-- ==== Sys2Proof/Machine/Schedule.lean ====
section
/-! DEFINITION. Which gang issues next, and the fetch of its instruction (spec 02 R33 to R38; 03 R57; 14 R287). Gangs are
derived: live slices of a crew that agree in PC and LINK and do not wait form one gang (03 R57; log 22). A gang that waits inside an
instruction goes on with it when the wait ends: it fetches nothing again, and its instruction sees the registers as they stood at its
issue (04 R85, R87, R89). -/

namespace Sys2Proof.Machine

/-- The words of an instruction as fetched: its word, the prefix before it, and its length in bytes. -/
structure Fetched where
  word : Word
  pfx : Option Word
  len : Nat
  deriving DecidableEq, Repr

/-- What a fetch gives: the words, or the address that failed and how. -/
inductive FetchOut where
  | ok (f : Fetched)
  | bad (va : Nat) (x : Xlat)
  deriving DecidableEq, Repr

/-- Fetches the instruction at an address: a prefix and its word together (14 R287). -/
def State.fetch (s : State) (c : Crew) (pc : DWord) : State × FetchOut :=
  match s.fetchRead c pc.toNat 4 with
  | .error x => (s, .bad pc.toNat x)
  | .ok (s1, bs) =>
    let w : Word := BitVec.ofNat 32 (leNat bs)
    if isPrefix w then
      let va := (pc + 4).toNat
      match s1.fetchRead c va 4 with
      | .error x => (s, .bad va x)
      | .ok (s2, bs') => (s2, .ok { word := BitVec.ofNat 32 (leNat bs'), pfx := some w, len := 8 })
    else (s1, .ok { word := w, pfx := none, len := 4 })

/-- The words that a slice has noted of its instruction. -/
def Slice.fetched (sl : Slice) : Fetched :=
  if sl.pfx = 0 then { word := sl.word, pfx := none, len := 4 } else { word := sl.word, pfx := some sl.pfx, len := 8 }

/-- The instruction of fetched words (14 R302). -/
def Fetched.instr (f : Fetched) : Option Instr :=
  match decodeWords ((match f.pfx with | some p => [p] | none => []) ++ [f.word]) with
  | .ok (i, _) => some i
  | .error _ => none

/-! ### Readiness (02 R34, R38) -/

/-- A barrier's current phase: level 0 party, 1 outing, 2 grid (10 R225, R226). -/
def State.phase (s : State) (c : Crew) (level n : Nat) : BitVec 32 :=
  match c.partyId with
  | none => 0
  | some p =>
    let pa := s.party p
    match level with
    | 0 => (pa.bars.getD n {}).phase
    | 1 =>
      match s.outings.find? fun (_, o) => o.launch = pa.launch && o.index = pa.outing with
      | some (_, o) => (o.bars.getD n {}).phase
      | none => 0
    | _ => ((s.launchRec pa.launch).gbars.getD n {}).phase

/-- A phase has completed: (current − phase) mod 2^32 lies in 1 to 2^31 (10 R227). -/
def phaseDone (cur ph : BitVec 32) : Bool := 1 ≤ (cur - ph).toNat && (cur - ph).toNat ≤ 2 ^ 31

/-- A counter of a class (10 R236). -/
def Counters.get (c : Counters) (cls : Nat) : Nat :=
  match cls with
  | 0 => c.copy.toNat
  | 1 => c.gather.toNat
  | 2 => c.matrix.toNat
  | _ => c.coll.toNat

/-- A JOINW issues again: its word stands at or below the threshold, or cannot be read, so that the JOINW says so; a word in host
memory once it is to be read again, and one on another device once the response has come (12 R271; 23 R370). -/
def State.joinReady (s : State) (k : Nat) (c : Crew) (a : DWord) (thr : Int) (since : Option Nat) : Bool :=
  match s.agentXlate c.tenant a.toNat .read with
  | .ok (.fabric _ _ _) => s.requests.all fun r => !(r.crew = k && r.addr = a && !r.store && r.op.isNone) || !r.waits
  | .ok (.mmio _) => true
  | .ok (.host _ _) => since.isNone
  | _ =>
    match s.agentNat c.tenant a.toNat 8 with
    | some x => decide (natSext x 64 ≤ thr)
    | none => true

/-- An access of some lanes of a crew is not yet performed: a request awaits its response. -/
def State.unperformed (s : State) (k : Nat) (lanes : BitVec 32) : Bool :=
  s.requests.any fun r => r.crew = k && r.op.isNone && r.waits && (r.mask &&& lanes) != 0

/-- A wait for a route ends when there is one, or after 100 µs (11 R258). -/
def State.routeOver (s : State) (from_ die since : Nat) : Bool :=
  (s.hops from_ die).isSome || since + 100 * Config.usec ≤ s.time

/-- The slice may issue, or go on with its instruction: its wait has ended (02 R38) and no trap of its own is pending. A slice past an
access that awaits a reply may issue an EXIT (22 R354). An atomic whose other lanes have been performed goes on too where no route has
appeared for 100 µs (21 R334; 11 R258). -/
def State.sliceReady (s : State) (k : Nat) (c : Crew) (sl : Slice) : Bool :=
  sl.pend.isNone &&
  match sl.wait with
  | .none => true
  | .regang _ | .cross | .matrix _ | .parked | .moving _ | .barrier _ _ _ => false
  | .reply _ | .replay _ => true
  | .accepted m => !s.unperformed k m
  | .retry => true
  | .place ids => s.pages.all fun (_, r) => r.queue.all fun q => !ids.contains q.id
  | .again level n ph => phaseDone (s.phase c level n) ph
  | .signal slot thr =>
    match c.partyId with
    | some p => thr ≤ sget (s.party p).sigs slot
    | none => false
  | .count cls n => c.cnt.get cls ≤ n
  | .join a thr since => s.joinReady k c a thr since
  | .route d _ since => (s.hops (cacheDie (s.site c)) d).isSome || (sl.group.isSome && since + 100 * Config.usec ≤ s.time)
  | .drain h d since => s.routeOver h d since
  | .cut d _ => (s.hops (cacheDie (s.site c)) d).isSome || !(s.die d).inService

/-- The crew may issue: it is not frozen or stopped, and its party is resident. -/
def State.crewRuns (s : State) (c : Crew) : Bool :=
  c.frozen.isNone && !c.stopped &&
  match c.place with
  | .service _ _ => true
  | .compute p _ _ =>
    let pa := s.party p
    pa.status == .resident && (s.die pa.die).inService

/-- The slices that would issue with slice `i`: ready, with its PC and LINK (03 R57), after the same wait if any and inside the same
instruction, since a gang that waits joins no other before it has gone on. -/
def State.gangWith (s : State) (k : Nat) (c : Crew) (i : Nat) : List Nat :=
  let me := c.slice i
  c.liveSlices.filter fun j =>
    s.sliceReady k c (c.slice j) && (c.slice j).pc == me.pc && (c.slice j).link == me.link
      && (c.slice j).wait == me.wait && (c.slice j).inside == me.inside

/-- What the crew's slices have issued goes on to its end: also where the crew is frozen, or its party is told to stop (02 R46 step 1;
08 R190). -/
def State.crewDrains (s : State) (c : Crew) : Bool :=
  !c.stopped &&
  match c.place with
  | .service _ _ => true
  | .compute p _ _ =>
    let pa := s.party p
    (match pa.status with | .resident | .stopping _ => true | _ => false) && (s.die pa.die).inService

/-- The lowest slices of the crew's gangs that do not wait: they stand for the gang-table entries (log 22). -/
def State.readyGangs (s : State) (k : Nat) (c : Crew) : List Nat :=
  if s.crewDrains c then
    c.liveSlices.filter fun i =>
      (s.crewRuns c || (c.slice i).completes) && s.sliceReady k c (c.slice i) && (s.gangWith k c i).headD 8 == i
  else []

/-- The gang's instruction may issue: its scoreboard and structural resources are free, and a slice that has gone on past an access
issues nothing but an EXIT before the reply, and none past an ERET (02 R34; 04 R85; 22 R354). What is no instruction traps at
once. -/
def State.instrReady (s : State) (k : Nat) (c : Crew) (i : Nat) (f : Fetched) : Bool :=
  let exits : Bool := match f.instr with | some (.exit _) => true | _ => false
  match (c.slice i).wait with
  | .reply g => exits && c.flights.all fun fl => !(fl.group = g && fl.eret)
  | _ =>
    match f.instr with
    | some x => c.boardFree x && s.entriesFree c x (s.gangWith k c i)
    | none => true

/-- The issue ports of a partition (02 R33). -/
inductive Port where
  | v | u | m
  deriving DecidableEq, Repr

/-- The port of a major opcode and CL (14 R300). -/
def portOf (w : Word) : Port :=
  let maj := (fld w 27 5).toNat
  let cl := fld w 25 2
  if maj = 0 || maj = 0x0B || maj = 0x0C || maj = 0x0D || maj = 0x0E || maj = 0x0F then .u
  else if 2 ≤ maj && maj ≤ 8 then (if cl = 3 then .u else .v)
  else if maj = 9 || maj = 10 then .v
  else .m

/-- A port of a partition or of a service core as a number, V before U before M (02 R33, 04 R89). -/
def State.portKey (s : State) (c : Crew) (p : Port) : Nat :=
  let n := match p with | .v => 0 | .u => 1 | .m => 2
  match c.place with
  | .compute pa idx _ => (((s.party pa).die * 32 + (s.party pa).core) * 8 + idx % 8) * 3 + n
  | .service core _ => (1024 + core) * 3 + n

/-- The position of a gang: 8 × the crew slot within the partition + the gang-table entry (02 R35). -/
def gangPos (c : Crew) (i : Nat) : Nat :=
  match c.place with
  | .compute _ _ slot => 8 * (slot % 32) + i
  | .service _ thread => 8 * thread + i

/-- A candidate for issue; `first` where it goes on with an access or another instruction that completes by itself, with its place in
the order of arrival where a remap has held it up (08 R175). -/
structure Cand where
  key : Nat
  crew : Nat
  lead : Nat
  pos : Nat
  prio : Nat
  promoted : Bool
  first : Option Nat
  deriving DecidableEq, Repr

/-- The place of a slice among those that complete an instruction. -/
def Slice.order (sl : Slice) : Option Nat :=
  if sl.completes then some (match sl.wait with | .replay n => n | _ => 0) else none

/-- The candidates: every ready gang with its port (02 R34). A gang whose fetch fails counts on port M. -/
def State.candidates (s : State) : List Cand :=
  s.crews.flatMap fun (k, c) =>
    (s.readyGangs k c).filterMap fun i =>
      let sl := c.slice i
      let cand (port : Port) : Cand :=
        { key := s.portKey c port, crew := k, lead := i, pos := gangPos c i, prio := c.prio
          promoted := (s.gangWith k c i).any fun j => (c.slice j).promoted
          first := sl.order }
      if sl.inside.isSome then some (cand (portOf sl.word))
      else
        match (s.fetch c sl.pc).2 with
        | .ok f => if s.instrReady k c i f then some (cand (portOf f.word)) else none
        | .bad _ _ => match sl.wait with | .reply _ => none | _ => some (cand .m)

/-- Candidate `a` goes before `b` on one port whose round-robin order starts at position `first`, the one after the gang that it
last issued (02 R35), 0 before it has issued any (log 64). -/
def Cand.before (first : Nat) (a b : Cand) : Bool :=
  if a.promoted != b.promoted then a.promoted
  else if a.prio ≠ b.prio && !a.promoted then b.prio < a.prio
  else (a.pos + 256 - first) % 256 < (b.pos + 256 - first) % 256

/-- The best candidate of a list by an order. -/
def bestOf (before : Cand → Cand → Bool) : List Cand → Option Cand
  | [] => none
  | a :: t =>
    match bestOf before t with
    | none => some a
    | some b => if before b a then some b else some a

/-- An agent's step that a remap has held up, and that arrived before a slice's. -/
def State.agentBefore (s : State) (order : Nat) : Bool := match s.replays with | x :: _ => x.1 < order | [] => false

/-- The gang that goes next: those that complete what they have issued go first, in their order of arrival at a directory, which they
share with the steps of agents (08 R175); else the ports take turns, and each port follows R35 (02 R33 to R35; log 2). -/
def State.chooseGang (s : State) : Option Cand :=
  let cs := s.candidates
  match bestOf (fun a b => decide (a.first.getD 0 < b.first.getD 0))
      (cs.filter fun c => c.first.any fun n => n = 0 || !s.agentBefore n) with
  | some c => some c
  | none =>
    let cs := cs.filter fun c => c.first.isNone
    match bestOf (fun a b => decide ((a.key + 4096 - s.portTurn) % 4096 < (b.key + 4096 - s.portTurn) % 4096)) cs with
    | none => none
    | some p =>
      bestOf (Cand.before (sget s.lastIssued p.key).toNat) (cs.filter fun c => c.key = p.key)

/-- The next step of an agent that a remap has held up, unless a slice's request that arrived before it may go (08 R175). -/
def State.replayEvent (s : State) : Option Instr :=
  match s.replays with
  | [] => none
  | (n, e) :: _ => if s.candidates.any fun c => c.first.any fun m => m ≠ 0 && m < n then none else some e

/-- One more cycle of readiness for the gangs that are ready and do not issue; a gang takes the largest count of its slices (02
R35). -/
def State.countReady (s : State) (chosen : Option (Nat × List Nat)) : State :=
  let cs := s.candidates.filter fun c => c.first.isNone
  { s with crews := s.crews.map fun (k, c) =>
      let ready : List (Nat × Nat) := (cs.filter fun x => x.crew = k).flatMap fun x =>
        let is := s.gangWith k c x.lead
        is.map fun i => (i, is.foldl (fun n j => max n (c.slice j).ready) 0 + 1)
      let issues (i : Nat) : Bool := chosen.any fun x => x.1 = k && x.2.contains i
      (k, { c with slices := c.slices.zipIdx.map fun (sl, i) =>
              if issues i then { sl with ready := 0, promoted := false }
              else { sl with ready := (aget ready i).getD 0 } }) }

/-! ### Time (01 R22 to R24) -/

/-- The power states of a compute die that R24 tells apart: a party resides on it, or no party and no engine operation; none while
operations alone are left on it. -/
inductive DiePower where
  | active
  | idle
  deriving DecidableEq, Repr

/-- The power state of a compute die (01 R24). -/
def State.power (s : State) (d : Nat) : Option DiePower :=
  let here (q : Party) : Bool := q.die = d && (match q.status with | .resident | .stopping _ => true | _ => false)
  if s.parties.any fun x => here x.2 then some .active
  else if s.ops.any fun o => o.die = d then none
  else some .idle

/-- The ticks of a step: one, and more while the core clock is lowered (01 R23). -/
def State.tick (s : State) : Nat := if s.dies.any (·.slowed) then 1 + Config.slowTicks s.clock else 1

/-- One cycle passes: the time goes on, and the gated core clock of an IDLE die stands still, so that CLOCK does not count the cycle
(01 R23, R24; 04 R92; log 52). -/
def State.pass (s : State) : State :=
  { s with
    clock := s.clock + 1
    time := s.time + s.tick
    dies := s.dies.zipIdx.map fun (x, d) => if s.power d == some .idle then { x with clockBase := x.clockBase + 1 } else x }

/-- One cycle in which no gang issues: the gangs that are ready wait a cycle more (02 R35). -/
def State.idleCycle (s : State) : State := (s.countReady none).pass

/-- What a step adds before the instruction of a gang: the cycle and the turn, and where the gang issues the port's round-robin
position and the counts of readiness. -/
def State.begin (s : State) (g : Cand) : State :=
  if g.first.isSome then { s.idleCycle with turn := true }
  else
    let is := s.gangWith g.crew (s.crew g.crew) g.lead
    { (s.countReady (some (g.crew, is))).pass with
      turn := true, portTurn := g.key + 1
      lastIssued := sset s.lastIssued g.key (BitVec.ofNat 8 (g.pos + 1)) }

/-- The gang that issues with a candidate, with its fetched words. -/
def State.issueOf (s : State) (g : Cand) (f : Fetched) : Issue :=
  let c := s.crew g.crew
  let is := s.gangWith g.crew c g.lead
  { crew := g.crew, mask := maskOf 8 8 fun i => is.contains i, pc := (c.slice g.lead).pc, len := f.len, word := f.word, pfx := f.pfx }

/-- Names the gang that issues, whose slices note the words of their instruction (08 R189). -/
def State.issueNow (s : State) (iss : Issue) : State :=
  { s.modCrew iss.crew fun c =>
      { c.modSlices iss.slices fun sl => { sl with word := iss.word, pfx := iss.pfx.getD 0, group := none } with started := true } with
    issue := some iss }

/-- What a gang does whose fetch fails: a fetch fault with ACCESS 2 taken by the gang (08 R185, 21 R340, 23 R371). The crew counts as
started from then on (log 66). -/
def State.fetchFault (s : State) (g : Cand) (va : Nat) (x : Xlat) : State :=
  let iss := s.issueOf g { word := 0, pfx := none, len := 4 }
  let s := { s.issueNow iss with issue := none }
  let s := s.modCrew iss.crew fun c => c.modSlices iss.slices fun sl => { sl with held := none }
  s.xlatFault iss iss.slices .fetch va ((s.crew g.crew).liveIn iss.slices) x

/-- What a gang does whose words are no instruction: ILLEGAL, with the word in TRAPINFO (14 R302). -/
def State.illegal (s : State) (iss : Issue) : State := s.trapGang iss iss.slices 0x01 iss.word.toNat 0

/-! ### Instructions that wait (04 R85, R87, R89) -/

/-- What an instruction reads of its crew's shared registers, and the writes that it leaves pending while it waits. -/
def Crew.view (c : Crew) (i : Instr) : Held :=
  let p := placesOf i c
  let post := p.reads.filter fun y => match y with | .index x => xPost (c.xreg x) | _ => false
  { win := c.win, xuni := c.xuni, sregs := c.sregs, lpb := c.lpb, pend := p.writes ++ post }

/-- Those of the issuing slices that wait inside their instruction keep what it has read; a wait for engine room is none, for nothing
has issued (02 R34; 10 R236). -/
def State.holdOn (s : State) (iss : Issue) (h : Held) (entries : Nat → Nat) : State :=
  s.modCrew iss.crew fun c => iss.slices.foldl (fun c i => c.modSlice i fun sl =>
    if sl.within && sl.pc == iss.pc then { sl with held := some h, entries := entries i } else { sl with held := none, entries := 0 }) c

/-- The instruction's pool word cannot be read: a fetch fault of the instruction, which has not issued then (14 R291). -/
def State.poolFails (s : State) (c : Crew) (i : Instr) : Bool :=
  match constOf i with
  | some b =>
    c.pool && (match s.fetchRead c ((c.lpb.toNat + 4 * (b.toNat % 64)) % 2 ^ 64) 4 with | .ok _ => false | .error _ => true)
  | none => false

/-- What a step adds after the instruction that a gang issues. -/
def State.afterIssue (before after : State) (iss : Issue) (i : Instr) : State :=
  let c := before.crew iss.crew
  if before.poolFails c i then after.modCrew iss.crew fun c => c.modSlices iss.slices fun sl => { sl with held := none, entries := 0 }
  else after.holdOn iss (c.view i) (entriesAt i c iss.slices)

/-- Uniform registers with the values that an instruction has written: those that differ from what it saw. -/
def writtenOver (saw now mine : Sparse 64) : Sparse 64 :=
  if saw = now then mine
  else (List.range 128).foldl (fun m r => if sget now r = sget saw r then m else sset m r (sget now r)) mine

/-- The gang goes on with its instruction, which sees the registers as they stood at its issue. -/
def State.goOn (s : State) (iss : Issue) (h : Held) : State :=
  { s.modCrew iss.crew fun c => { c with win := h.win, xuni := h.xuni, sregs := h.sregs, lpb := h.lpb } with issue := some iss }

/-- What a step adds after an instruction with which a gang goes on: the shared registers as they stand, with what it has written. -/
def State.afterGoOn (before after : State) (iss : Issue) (h : Held) : State :=
  let c := before.crew iss.crew
  let t := after.modCrew iss.crew fun x =>
    { x with win := c.win, xuni := c.xuni, lpb := c.lpb, sregs := writtenOver h.sregs x.sregs c.sregs }
  t.holdOn iss h fun i => (c.slice i).entries

/-- Changes the next state of an outcome. -/
def mapNext (f : State → State) : Host.Outcome State Fault Refusal → Host.Outcome State Fault Refusal
  | .next t => .next (f t)
  | .fault x => .fault x
  | .refused x => .refused x

/-! ### A program in a state that has none (log 6) -/

/-- The double-words of the page tables of the model's own context: the root at frame 16, its tables at 17 and 18, and a
large leaf that maps virtual bytes 0 to 512 MiB to the same physical bytes, writable and executable. -/
def fetchTables : List (Nat × Nat) :=
  [(0x10000, 0x0000000000110001), (0x11000, 0x0000000000120001), (0x12000, 0x000000000000009F)]

/-- A crew of one gang at address 0x1000, as at the start of a party (02 R32). -/
def fetchCrew : Crew :=
  { place := .compute 0 0 0, g := 512, k := 8, live := 0xFFFFFFFF, exec := 0xFFFFFFFF
    slices := List.replicate 8 { pc := 0x1000 } }

/-- The party of that crew. -/
def fetchParty : Party :=
  { launch := 0, index := 0, crews := [0], scratchSize := 0x10000, slotCount := 128, sigCount := 64
    bars := List.replicate 16 { members := 1 } }

/-- The launch of that party: one party of one crew. -/
def fetchLaunch : Launch :=
  { tenant := 0, queue := 0, entry := 0x1000, res := 1, nextOuting := 1
    walks := List.replicate 4 {}, gbars := List.replicate 4 {}, coop := true }

/-- Stops every crew but number 0, which the program takes. -/
def stopOthers : List (Nat × Crew) → List (Nat × Crew)
  | [] => []
  | (k, c) :: t => if k = 0 then stopOthers t else (k, { c with stopped := true }) :: stopOthers t

/-- Puts a program's context, launch, party and crew into the state, whose other crews stop, with the bytes of one
instruction at the crew's PC, and gives the next step to that crew (log 6). -/
def State.loadProgram (s : State) (bytes : List Byte) : State :=
  let s := { s with
    inputs := [], turn := false, issue := none, met := none, portTurn := 0, replays := [], stalled := []
    crews := (0, fetchCrew) :: stopOthers s.crews
    parties := aset s.parties 0 fetchParty
    launches := aset s.launches 0 fetchLaunch
    outings := aset s.outings 0 { launch := 0, index := 0, members := [0], bars := List.replicate 4 { members := 1 } }
    tenants := aset s.tenants 0 { s.tenant 0 with root := 16, halted := false }
    dies := lmod s.dies 0 fun d => { d with inService := true }
    caches := s.caches.filter fun ce => ce.2.tenant != 0
    tables := s.tables.filter fun te => te.tenant != 0
    pages := s.pages.filter fun p => p.1 != 1 && p.1 != 16 && p.1 != 17 && p.1 != 18 }
  let s := fetchTables.foldl (fun s t => s.memWrite t.1 (leBytes t.2 8)) s
  s.memWrite 0x1000 bytes

end Sys2Proof.Machine
end

