-- ==== Sys2Proof/Machine/Gangs.lean ====
section
/-! DEFINITION. Rendezvous and barriers: the deadlock of a crew, the completion of cross-slice instructions, arrivals and
phases of party, outing and grid barriers, and what the retirement of a crew does to them (spec 03 R66 to R74; 10 R225 to
R230; 09 R211). -/

namespace Sys2Proof.Machine

/-! ### Rendezvous (03 R69 to R71) -/

/-- Every live slice of the crew waits at the same cross-slice instruction; one that runs its handler has not arrived, wherever it
stands, and a frozen crew issues nothing (03 R70, R71; 08 R190; log 62). -/
def Crew.crossReady (c : Crew) (pc : DWord) : Bool :=
  c.handler.isNone && c.frozen.isNone
    && c.liveSlices.all fun i => (c.slice i).wait == .cross && (c.slice i).pc == pc && (c.slice i).pend.isNone

/-- Settles the rendezvous of a crew: records and MMA waits that have ended, a cross-slice instruction that a departed slice no
longer holds up, which its waiters issue again (03 R68), and a deadlock: SPLITDEPTH with TRAPINFO 1 in each waiting slice
(03 R69). -/
def State.settle (s : State) (k : Nat) : State :=
  let s := s.modCrew k fun c => settleMatrix (settleRdv c)
  let c := s.crew k
  if !c.liveSlices.isEmpty && c.crossReady (c.slice (c.liveSlices.headD 0)).pc then
    s.modCrew k fun c => c.modSlices c.liveSlices fun sl => { sl with wait := .none }
  else if c.deadlocked then
    c.liveSlices.foldl (fun t i =>
      let sl := c.slice i
      t.raise k i { code := 0x0A, info := 1, retpc := sl.pc, word := sl.word, pfx := sl.pfx }) s
  else s

/-- A gang reaches a cross-slice instruction: it waits, and when every live slice is there the instruction runs once for the
crew (03 R70). -/
def crossArrive (s : State) (iss : Issue) (go : State → List Nat → State) : State :=
  let s := s.modCrew iss.crew fun c => c.modSlices iss.slices fun sl => { sl with wait := .cross }
  let c := s.crew iss.crew
  if c.crossReady iss.pc then (go s c.liveSlices).settle iss.crew else s.settle iss.crew

/-- The name checks of a cross-slice instruction over every live slice: a trap at the lowest slice that fails, the others
keep waiting (03 R74). -/
def crossChecked (s : State) (iss : Issue) (is : List Nat) (bad : Nat → Option (Nat × Nat)) (go : State → State) : State :=
  match is.findSome? fun i => (bad i).map fun b => (i, b) with
  | some (i, code, info) => s.raise iss.crew i (iss.trap code info 0)
  | none => go s

/-! ### What a barrier knows of its members (10 R225, R226) -/

/-- The live crews of a party as a mask of crew indexes. -/
def State.liveCrews (s : State) (p : Nat) : BitVec 32 :=
  (s.partyCrews p).foldl (fun m (_, c) =>
    match c.place with
    | .compute _ i _ => if c.live = 0 then m else mset m i true
    | .service _ _ => m) 0

/-- The parties of an outing that have not retired, as a mask of member numbers. -/
def State.liveMembers (s : State) (launch outing : Nat) : BitVec 32 :=
  s.parties.foldl (fun m (_, q) =>
    if q.launch = launch && q.outing = outing && q.status != .retired then mset m q.member true else m) 0

/-- The outing of a party, with its key. -/
def State.outingOf (s : State) (pa : Party) : Option (Nat × Outing) :=
  s.outings.find? fun (_, o) => o.launch = pa.launch && o.index = pa.outing

/-- The membership of an outing barrier. -/
def State.outingBar (s : State) (pa : Party) (n : Nat) : Barrier :=
  match s.outingOf pa with
  | some (_, o) => o.bars.getD n {}
  | none => {}

/-- Changes an outing barrier. -/
def State.modOutingBar (s : State) (pa : Party) (n : Nat) (f : Barrier → Barrier) : State :=
  { s with outings := s.outings.map fun (k, o) =>
      if o.launch = pa.launch && o.index = pa.outing then (k, { o with bars := lmod o.bars n f }) else (k, o) }

/-- The crews that have arrived toward an outing (level 1) or a grid (level 2) barrier. -/
def Party.towardBar (pa : Party) (level n : Nat) : BitVec 32 := sget pa.toward (4 * (level - 1) + n)

/-- Sets the crews that have arrived toward a barrier. -/
def Party.setToward (pa : Party) (level n : Nat) (m : BitVec 32) : Party :=
  { pa with toward := sset pa.toward (4 * (level - 1) + n) m }

/-! ### Merges and drops at barriers (09 R211) -/

/-- Merges the dirty set of a party's core (09 R211). -/
def State.drain (s : State) (p : Nat) : State :=
  let pa := s.party p
  s.mergeDirty pa.die pa.core fun _ _ => true

/-- Merges and drops the sectors of a core's replicas that a test names; on a MOVING page the drop is left for the end of the remap,
and such pages are named (07 R445). -/
def State.dropOrLeave (s : State) (die core : Nat) (hit : Nat → Nat → Bool) : State × List Nat :=
  let late (x : Nat × PageRec) : Bool := x.2.dropsAt die core && (List.range 16).any (hit x.1)
  let moving := (s.pages.filter late).map (·.1)
  let s := s.dropReplicas die core fun pfn sec => hit pfn sec && !moving.contains pfn
  ({ s with pages := s.pages.map fun x =>
      (x.1, if late x then { x.2 with drops := x.2.drops ++ [{ die := die, core := core, sects := maskOf 16 16 (hit x.1) }] } else x.2) },
    moving)

/-- Drops the replicas of a party's core, and names a MOVING page on which the drop is left, for which the party's slices wait. -/
def State.dropParty (s : State) (p : Nat) : State × Option Nat :=
  let (s, moving) := s.dropOrLeave (s.party p).die (s.party p).core fun _ _ => true
  (s, moving.head?)

/-- Slices go on past an instruction of 4 bytes once their core's replicas are dropped (09 R211). -/
def State.leaveBar (s : State) (k : Nat) (is : List Nat) (moving : Option Nat) : State :=
  let s := s.modCrew k fun c => c.advance is 4
  match moving with
  | some pfn => s.waitMoving k is pfn
  | none => s

/-- The slices of a crew that depart from a barrier in a phase. -/
def departing (level n : Nat) (cur : BitVec 32) (c : Crew) : List Nat :=
  slices8.filter fun i =>
    match (c.slice i).wait with
    | .barrier l m ph => l = level && m = n && phaseDone cur ph
    | _ => false

/-- The departure of the crews that a test names from a barrier: each core drops its replicas, and each slice whose phase has
completed goes on past its instruction (09 R211; 10 R226). -/
def State.depart (s : State) (who : Crew → Bool) (level n : Nat) (cur : BitVec 32) : State :=
  s.parties.foldl (fun s x =>
    let mine := (s.partyCrews x.1).filter fun kc => who kc.2 && !(departing level n cur kc.2).isEmpty
    if mine.isEmpty then s
    else
      let (s, moving) := s.dropParty x.1
      mine.foldl (fun s kc => s.leaveBar kc.1 (departing level n cur kc.2) moving) s) s

/-! ### Phases (10 R226) -/

/-- The phase of a party barrier completes. -/
def State.endPartyPhase (s : State) (p n : Nat) : State :=
  let s := s.modParty p fun x => { x with bars := lmod x.bars n fun b => { b with phase := b.phase + 1, arrived := 0 } }
  s.depart (fun c => c.partyId == some p) 0 n ((s.party p).bars.getD n {}).phase

/-- The phase of an outing barrier completes. -/
def State.endOutingPhase (s : State) (pa : Party) (n : Nat) : State :=
  let s := s.modOutingBar pa n fun b => { b with phase := b.phase + 1, arrived := 0 }
  let mine (q : Party) : Bool := q.launch = pa.launch && q.outing = pa.outing
  let s := { s with parties := s.parties.map fun (k, q) => (k, if mine q then q.setToward 1 n 0 else q) }
  s.depart (fun c => match c.partyId with | some p => mine (s.party p) | none => false) 1 n (s.outingBar pa n).phase

/-- The phase of a grid barrier completes. -/
def State.endGridPhase (s : State) (l n : Nat) : State :=
  let s := s.modLaunch l fun x => { x with gbars := lmod x.gbars n fun _ => { phase := (x.gbars.getD n {}).phase + 1 } }
  let mine (q : Party) : Bool := q.launch = l
  let s := { s with
    parties := s.parties.map fun (k, q) => (k, if mine q then q.setToward 2 n 0 else q)
    crews := s.crews.map fun (k, c) =>
      (k, if s.crewLaunch c == some l then { c with gridArr := adel c.gridArr n } else c) }
  s.depart (fun c => s.crewLaunch c == some l) 2 n ((s.launchRec l).gbars.getD n {}).phase

/-- A party barrier's phase completes when every live member has arrived. -/
def State.checkPartyBar (s : State) (p n : Nat) : State :=
  let b := (s.party p).bars.getD n {}
  if b.members &&& s.liveCrews p &&& ~~~b.arrived = 0 then s.endPartyPhase p n else s

/-- An outing barrier's phase completes when every live member has arrived. -/
def State.checkOutingBar (s : State) (pa : Party) (n : Nat) : State :=
  let b := s.outingBar pa n
  if b.members &&& s.liveMembers pa.launch pa.outing &&& ~~~b.arrived = 0 then s.endOutingPhase pa n else s

/-- A grid barrier's phase completes when every party has arrived or retired. -/
def State.checkGridBar (s : State) (l n : Nat) : State :=
  let la := s.launchRec l
  let g := la.gbars.getD n {}
  let retired := (s.parties.filter fun (_, q) => q.launch = l && q.status == .retired).map (·.2.index)
  if (List.range la.total).all fun i => g.arrived.contains i || retired.contains i then s.endGridPhase l n else s

/-- A party arrives at an outing barrier once its live crews all have: its core's dirty bytes merge first (09 R211). -/
def State.arriveOuting (s : State) (p n : Nat) : State :=
  let pa := s.party p
  let live := s.liveCrews p
  if live = 0 || live &&& ~~~(pa.towardBar 1 n) ≠ 0 then s
  else
    let s := s.drain p
    (s.modOutingBar pa n fun b => { b with arrived := mset b.arrived pa.member true }).checkOutingBar pa n

/-- A party arrives at a grid barrier once its live crews all have. -/
def State.arriveGrid (s : State) (p n : Nat) : State :=
  let pa := s.party p
  let live := s.liveCrews p
  if live = 0 || live &&& ~~~(pa.towardBar 2 n) ≠ 0 then s
  else
    let s := s.drain p
    (s.modLaunch pa.launch fun l =>
      { l with gbars := lmod l.gbars n fun g =>
          { g with arrived := if g.arrived.contains pa.index then g.arrived else g.arrived ++ [pa.index] } }).checkGridBar
      pa.launch n

/-- A crew arrives at a grid barrier once its live slices all have (10 R226; 23 R365). -/
def State.arriveGridCrew (s : State) (k n : Nat) : State :=
  let c := s.crew k
  match c.place with
  | .service _ _ => s
  | .compute p i _ =>
    let arr : BitVec 8 := (aget c.gridArr n).getD 0
    if c.live = 0 || arr = 0 || !c.liveSlices.all (mbit arr) || mbit ((s.party p).towardBar 2 n) i then s
    else (s.modParty p fun x => x.setToward 2 n (mset (x.towardBar 2 n) i true)).arriveGrid p n

/-! ### The retirement of slices and crews (02 R54; 03 R68; 10 R226) -/

/-- What a slice's retirement settles at the grid barriers of its crew. -/
def State.sliceRetired (s : State) (k : Nat) : State :=
  [0, 1, 2, 3].foldl (fun s n => s.arriveGridCrew k n) s

/-- A crew whose lanes have all exited counts as arrived at the party barriers that it is a member of, and is no longer
awaited by its party at outing and grid barriers. -/
def State.crewRetired (s : State) (k : Nat) : State :=
  match (s.crew k).place with
  | .service _ _ => s
  | .compute p i _ =>
    let s := (List.range 16).foldl (fun s n =>
      if mbit ((s.party p).bars.getD n {}).members i then s.checkPartyBar p n else s) s
    [0, 1, 2, 3].foldl (fun s n =>
      let s := if (s.party p).towardBar 1 n ≠ 0 && mbit (s.outingBar (s.party p) n).members (s.party p).member
        then s.arriveOuting p n else s
      if (s.party p).towardBar 2 n ≠ 0 then s.arriveGrid p n else s) s

/-- A party that retires counts as arrived at every barrier of its outing and grid (10 R226). -/
def State.partyRetired (s : State) (p : Nat) : State :=
  let pa := s.party p
  let s := [0, 1, 2, 3].foldl (fun s n =>
    if mbit (s.outingBar pa n).members pa.member then s.checkOutingBar pa n else s) s
  if (s.launchRec pa.launch).coop then [0, 1, 2, 3].foldl (fun s n => s.checkGridBar pa.launch n) s else s

end Sys2Proof.Machine
end

