-- ==== Sys2Proof/Machine/Access.lean ====
section
/-! DEFINITION. How the lanes of a crew reach memory: guarded ranges, the lazy release and its acquire, loads and stores of
one lane, off-module requests, and the checks of a memory instruction slice by slice (spec 07 R149, R150, R158; 09 R193, R203
to R207; 11 R252; 21 R326; 23 R371; 25 R425). -/

namespace Sys2Proof.Machine

/-! ### Ranges of a context as bytes of frames -/

/-- A span without the part of it from `lo` to below `hi`. -/
def cutOut (lo hi : Nat) (x : Nat × Nat) : List (Nat × Nat) :=
  [(x.1, min x.2 lo), (max x.1 hi, x.2)].filter fun y => y.1 < y.2

/-- What the page tables map of a span of virtual addresses, which wraps at 2^64: its canonical addresses without the windows, as
bits [55:0] (07 R147). -/
def mappedSpans (lo hi : Nat) : List (Nat × Nat) :=
  let top := 2 ^ 64 - 2 ^ 56
  let low : Nat × Nat := (0, 2 ^ 55)
  let high : List (Nat × Nat) :=
    (cutOut partyWindow (partyWindow + 0x200000) (2 ^ 64 - 2 ^ 55, 2 ^ 64)).flatMap (cutOut outingWindow (outingWindow + 0x1000000))
  let spans := low :: high.map fun x => (x.1 - top, x.2 - top)
  let halves := [(lo, min hi (2 ^ 64)), (0, hi - 2 ^ 64)]
  halves.flatMap fun a =>
    ([(a.1, min a.2 (2 ^ 55)), (a.1 - top, a.2 - top)].zip [[low], spans.drop 1]).flatMap fun x =>
      (x.2.map fun y => (max x.1.1 y.1, min x.1.2 y.2)).filter fun y => y.1 < y.2

/-- The bytes of device memory that a table maps for a span, as spans of addresses: its FRAMED and STREAM leaves (07 R155; 08 R169).
`fuel` is the table's level plus one, `base` the first address that it covers. -/
def tableSpans (s : State) (lo hi : Nat) : Nat → Nat → Nat → List (Nat × Nat)
  | 0, _, _ => []
  | level + 1, table, base =>
    let size := 2 ^ (12 + levelShift level)
    let entries := if level = 0 then 256 else 512
    let first := (lo - base) / size
    let last := min entries (ceilDiv (hi - base) size)
    (List.range (last - first)).flatMap fun j =>
      let i := first + j
      let from_ := base + i * size
      let w := s.physNat (table * 4096 + i * (if level = 0 then 16 else 8)) 8
      let frame := natBits w 55 16
      let leaf : List (Nat × Nat) :=
        if natBits w 10 8 < 2 then [(frame * 4096 + (lo - from_), frame * 4096 + min size (hi - from_))] else []
      if !natBit w 0 then []
      else if level = 0 then (if natBits w 13 11 ≥ 6 then [] else leaf)
      else if natBit w 7 then (if level ≥ 3 || frame % (size / 4096) ≠ 0 then [] else leaf)
      else tableSpans s lo hi level frame from_

/-- The bytes of device memory that a context maps for a span of virtual addresses. -/
def State.spanBytes (s : State) (t lo hi : Nat) : List (Nat × Nat) :=
  (mappedSpans lo hi).flatMap fun x => tableSpans s x.1 x.2 5 (s.tenant t).root 0

/-- The test of a guarded range on a frame and sector (09 R203). -/
def State.hits (s : State) (t : Nat) (r : GRange) : Nat → Nat → Bool :=
  match r with
  | .nothing => fun _ _ => false
  | .whole => fun _ _ => true
  | .span lo hi =>
    let bytes := s.spanBytes t lo hi
    fun pfn sec => bytes.any fun x => x.1 < pfn * 4096 + (sec + 1) * 256 && pfn * 4096 + sec * 256 < x.2

/-- Merges the dirty bytes of a site's core in a range of a context. -/
def State.mergeRange (s : State) (site : CacheId) (t : Nat) (r : GRange) : State :=
  match site with
  | .core d c => if r == .nothing then s else s.mergeDirty d c (s.hits t r)
  | _ => s

/-- Merges and drops a site's replicas in a range of a context (07 R445). -/
def State.dropRange (s : State) (site : CacheId) (t : Nat) (r : GRange) : State :=
  match site with
  | .core d c => if r == .nothing then s else s.dropReplicas d c (s.hits t r)
  | _ => s

/-- A MOVING page that a drop of the site's replicas over a range meets (07 R445). -/
def State.dropMoving (s : State) (site : CacheId) (t : Nat) (r : GRange) : Option Nat :=
  match site with
  | .core d c =>
    let hit := s.hits t r
    (s.pages.find? fun (pfn, p) => p.dropsAt d c && (List.range 16).any (hit pfn)).map (·.1)
  | _ => none

/-! ### Release and acquire (09 R193, R203 to R206) -/

/-- An access is wide: its order is not none and its scope is outing or wider (09 R193). -/
def isWide (p : Prefix) : Bool := p.ord != 0 && 2 ≤ p.scope

/-- The access is a release. -/
def isRelease (p : Prefix) : Bool := p.ord == 2 || p.ord == 3

/-- The access is an acquire. -/
def isAcquire (p : Prefix) : Bool := p.ord == 1 || p.ord == 3

/-- The guarded range of a prefix: s(C) and s(C+1), widened to 256 bytes, or the whole set (09 R203). -/
def guardOf (c : Crew) (p : Prefix) : GRange :=
  let lo := (c.sreg p.c.toNat).toNat
  let len := (c.sreg (p.c.toNat + 1)).toNat % 2 ^ 32
  if !p.cp || len = 0 then .whole else .span (lo / 256 * 256) ((lo + len + 255) / 256 * 256)

/-- The granule of an access to a word that keeps an entry: a FRAMED 4 KiB page, or scratchpad (09 R204). The spec says two things
of scratchpad words: R204, R375 and R427 keep their entries and records in the owning core, R205 and R206 release words off a
FRAMED page eagerly and give them the whole address space as summary. The model does both: a release drains and leaves its record,
and an acquire drains the records and drops the whole (log 55). -/
def Tgt.granule : Tgt → Option Nat
  | .paged pfn _ off _ => some (homeAddr pfn (off / 16 * 16))
  | .scratch a _ => some (a / 16 * 16)
  | _ => none

/-- The word of an access lies on a FRAMED 4 KiB page. -/
def Tgt.framed : Tgt → Bool
  | .paged _ _ _ _ => true
  | _ => false

/-- The entry of a granule. -/
def State.sync (s : State) (g : Nat) : Option SyncWord := s.syncs.find? fun w => w.granule = g

/-- The slice that keeps a granule's entry; scratchpad words keep theirs in the owning core, without a bound (09 R204). -/
def syncSlice (g : Nat) : Option Nat :=
  if g < 2 ^ 52 then some (homeStack (g / 4096) * 16 + dirSlice (g / 4096)) else none

/-- The die that keeps a granule's entry, `d` where a core of it does. -/
def syncHome (g d : Nat) : Nat := match syncSlice g with | some sl => sl / 16 | none => d

/-- Room for a new entry in a slice of 2,048: an entry with no record is freed (09 R204); none where every entry holds a record. -/
def State.syncRoom (s : State) (g : Nat) : Option State :=
  match syncSlice g with
  | none => some s
  | some sl =>
    let mine := s.syncs.filter fun w => syncSlice w.granule == some sl
    if mine.length < 2048 then some s
    else (mine.find? fun w => w.recs.isEmpty).map fun x => { s with syncs := s.syncs.filter fun w => w.granule ≠ x.granule }

/-- Changes a granule's entry, making it first: a word without an entry has a summary of the whole address space (09 R204). -/
def State.modSync (s : State) (g : Nat) (f : SyncWord → SyncWord) : State :=
  if (s.sync g).isSome then { s with syncs := s.syncs.map fun w => if w.granule = g then f w else w }
  else { s with syncs := s.syncs ++ [f { granule := g }] }

/-- The word already has 8 pending records from other cores (09 R205). -/
def SyncWord.full (w : SyncWord) (d k : Nat) : Bool := 8 ≤ (w.recs.filter fun r => !(r.die = d && r.core = k)).length

/-- Whether a wide release drains eagerly (09 R205). -/
def State.eager (s : State) (c : Crew) (tgt : Tgt) (p : Prefix) : Bool :=
  match tgt.granule, s.site c with
  | some g, .core d k =>
    !tgt.framed || p.scope == 5 ||
      (match s.sync g with
       | some w => w.full d k
       | none => (s.syncRoom g).isNone)
  | _, _ => true

/-- A release leaves its record where one is due, and widens the summary (09 R204 steps 3 and 4; R205). A word that finds no entry
keeps the whole address space as its summary. -/
def State.leaveRecord (s : State) (c : Crew) (g : Nat) (range : GRange) (record : Bool) : State :=
  match (if (s.sync g).isSome then some s else s.syncRoom g), s.site c with
  | none, _ => s
  | some s, .core d k =>
    s.modSync g fun w =>
      let (mine, rest) := w.recs.partition fun r => r.tenant = c.tenant && r.die = d && r.core = k
      let old : GRange := mine.foldl (fun (a : GRange) r => a.join r.range) .nothing
      { w with
        summary := w.summary.join range
        recs := if record && !w.full d k then
            rest ++ [{ tenant := c.tenant, die := d, core := k, inc := (s.die d).inc.toNat, range := old.join range }]
          else w.recs }
  | some s, _ => s.modSync g fun w => { w with summary := w.summary.join range }

/-- The records of a granule that a drain still has to reach: those of their die's current incarnation (09 R206). -/
def State.liveRecs (s : State) (g : Nat) : List SyncRec :=
  match s.sync g with
  | some w => w.recs.filter fun r => r.inc = (s.die r.die).inc.toNat
  | none => []

/-- A record of a granule for which an acquire still waits, as the word's home and the record's die: they have no route, and not yet
for 100 µs (11 R258). -/
def State.awayRec (s : State) (g : Nat) : Option (Nat × Nat) :=
  ((s.liveRecs g).find? fun r =>
      (s.hops (syncHome g r.die) r.die).isNone
        && match r.since with | some t => decide (s.time < t + 100 * Config.usec) | none => true).map fun r =>
    (syncHome g r.die, r.die)

/-- What a wide acquire of a word drops: the word's summary with the records that it drains, the whole for a word off a FRAMED page
(09 R206 step 3). -/
def State.acquired (s : State) (tgt : Tgt) : GRange :=
  match tgt.granule.bind s.sync with
  | some w => if tgt.framed then w.recs.foldl (fun (a : GRange) r => a.join r.range) w.summary else .whole
  | none => .whole

/-- The drains of a wide acquire: the cores that the word's records name merge, but for those on a die that the word's home
cannot reach, whose records wait for its incarnation to advance (11 R258); the records turn into summary, and the core's replicas
in the summary are dropped (09 R206 steps 2 and 3). -/
def State.acquire (s : State) (c : Crew) (tgt : Tgt) : State :=
  match tgt.granule with
  | none => s.dropRange (s.site c) c.tenant .whole
  | some g =>
    let (near, away) := (s.liveRecs g).partition fun r => (s.hops (syncHome g r.die) r.die).isSome
    let sum := s.acquired tgt
    let s := near.foldl (fun s r => s.mergeDirty r.die r.core (s.hits r.tenant r.range)) s
    let join (w : SyncWord) : GRange := near.foldl (fun (a : GRange) r => a.join r.range) w.summary
    let s := if (s.sync g).isSome then s.modSync g fun w => { w with recs := away, summary := join w } else s
    s.dropRange (s.site c) c.tenant sum

/-! ### One lane's load and store -/

/-- An access by a core at the home of its location: its replica's dirty bytes in the sector merge first, and the sector is
refilled afterwards (07 R158; 09 R193). -/
def atHome (site : CacheId) (tgt : Tgt) {α : Type} (s : State) (f : State → State × α) : State × α :=
  match tgt with
  | .paged pfn _ off _ =>
    let (s, x) := f (s.mergeSector site pfn off)
    (s.refillSector site pfn off, x)
  | _ => f s

/-- One lane's load of `n` bytes (09 R193, R206). -/
def State.loadLane (s : State) (c : Crew) (tgt : Tgt) (n : Nat) (p : Prefix) : State × List Byte :=
  if isWide p && isAcquire p then
    let (s, bs) := atHome (s.site c) tgt s fun s => s.readTgt (s.site c) tgt n true
    (s.acquire c tgt, bs)
  else s.readTgt (s.site c) tgt n false

/-- One lane's store: a wide release leaves its record, or drains first (09 R204, R205). -/
def State.storeLane (s : State) (c : Crew) (tgt : Tgt) (bs : List Byte) (p : Prefix) : State :=
  if isWide p && isRelease p then
    let range := guardOf c p
    let eager := s.eager c tgt p
    let s := if eager then s.mergeRange (s.site c) c.tenant range else s
    let (s, _) := atHome (s.site c) tgt s fun s => (s.writeTgt (s.site c) tgt bs true, ())
    match tgt.granule with
    | some g => s.leaveRecord c g range (!eager || !tgt.framed)
    | none => s
  else s.writeTgt (s.site c) tgt bs false

/-! ### Requests that leave the module (11 R252) -/

/-- Sends a request and records that it awaits its response; one without a group is a group of its own. -/
def State.request (s : State) (r : Request) (msg : Nat → Msg) : State :=
  let (s, id) := s.fresh
  let r := { r with id := id, group := if r.group = 0 then id else r.group, since := s.time }
  ({ s with requests := s.requests ++ [r] } : State).send (msg id)

/-- A lane's access once checked: its lane, address and target. -/
structure LaneTgt where
  lane : Nat
  addr : Nat
  tgt : Tgt
  deriving DecidableEq, Repr

/-- The request of a lane's access. -/
def LaneTgt.request (x : LaneTgt) (k size : Nat) : Request :=
  { crew := k, lane := x.lane, mask := maskOf 32 32 (· = x.lane), addr := BitVec.ofNat 64 x.addr, size := size }

/-- The target lies on another device. -/
def Tgt.remote : Tgt → Bool
  | .fabric _ _ _ => true
  | _ => false

/-- The target is a scratchpad violation. -/
def Tgt.violates : Tgt → Bool
  | .violation => true
  | _ => false

/-- The effects of the translation of a lane's access: none for a scratchpad location, which is never translated (07 R148). -/
def State.touchLane (s : State) (c : Crew) (x : LaneTgt) (write : Bool) : State :=
  match x.tgt with
  | .scratch _ _ => s
  | _ => s.touchFor c x.addr write

/-- The result of checking a slice or a uniform access. -/
inductive Checked where
  | trap (code info addr : Nat)
  | xlat (va : Nat) (x : Xlat)
  | ok (l : List LaneTgt)
  deriving DecidableEq, Repr

/-- Checks the alignment of each active lane, then the translation of each in increasing order; the first failure decides
(21 R326 steps 6 and 7). `bad` names the trap of a place that does not take the access. -/
def checkLanes (lanes : List (Nat × Nat)) (align : Nat) (xl : Nat → Xlat) (bad : Tgt → Option Nat) : Checked :=
  match lanes.filter fun la => la.2 % align ≠ 0 with
  | (l, a) :: bad => .trap 0x05 ((l :: bad.map (·.1)).foldl (fun m l => m + 2 ^ l) 0) a
  | [] =>
    let rec go : List (Nat × Nat) → List LaneTgt → Checked
      | [], acc => .ok acc.reverse
      | (l, a) :: rest, acc =>
        match xl a with
        | .ok t =>
          match bad t with
          | some code => .trap code a a
          | none => go rest ({ lane := l, addr := a, tgt := t } :: acc)
        | x => .xlat a x
    go lanes []

/-- The lanes of a list of targets that violate. -/
def violators (l : List LaneTgt) : List Nat := (l.filter fun x => x.tgt.violates).map (·.lane)

/-! ### What a release and an acquire wait for (09 R204 to R207; 25 R425) -/

/-- A release at system scope (22 R360; 25 R425). -/
def sysRelease (p : Prefix) : Bool := isRelease p && p.scope == 5

/-- Slices wait for the earlier accesses of some lanes. -/
def State.awaitEarlier (s : State) (iss : Issue) (is : List Nat) (lanes : BitVec 32) : State :=
  s.modCrew iss.crew fun c => c.modSlices is fun sl => { sl with wait := .accepted lanes }

/-- The lost write of a lane of a slice, if any. -/
def Crew.lostIn (c : Crew) (lanes : BitVec 32) (i : Nat) : Option (Nat × DWord) :=
  c.lost.find? fun x => x.1 / 4 = i && mbit lanes x.1

/-- FABRIC in a slice for a lost write, which its lanes have then been told of. -/
def State.tellLost (s : State) (iss : Issue) (i : Nat) (a : DWord) : State :=
  (s.modCrew iss.crew fun c => { c with lost := c.lost.filter fun x => !(x.1 / 4 = i && x.2 == a) }).raise iss.crew i
    (iss.trap 0x15 a.toNat a.toNat)

/-- What a slice's release waits for, the earlier accesses of its lanes (09 R204), and at system scope the write that one of them
has lost (25 R425); nothing once some of its lanes have been performed. -/
def releaseGate (s : State) (iss : Issue) (c : Crew) (i : Nat) (p : Prefix) (go : State → State) : State :=
  let lanes := c.exec &&& sliceMask i
  if !(isWide p && isRelease p) || (c.slice i).group.isSome then go s
  else if s.unperformed iss.crew lanes then s.awaitEarlier iss [i] lanes
  else
    match (if sysRelease p then c.lostIn lanes i else none) with
    | some (_, a) => s.tellLost iss i a
    | none => go s

/-- The same for a release or a FENCE of whole slices: `wide` at outing scope or wider, `sys` at system scope. `go` runs the
instruction for the slices that lost nothing (22 R360; 25 R425). -/
def withPerformed (s : State) (iss : Issue) (is : List Nat) (wide sys : Bool) (go : State → List Nat → State) : State :=
  let c := s.crew iss.crew
  let lanes := c.liveIn is
  if !wide then go s is
  else if s.unperformed iss.crew lanes then s.awaitEarlier iss is lanes
  else if !sys then go s is
  else
    let s := go s (is.filter fun i => (c.lostIn lanes i).isNone)
    is.foldl (fun s i =>
      match c.lostIn lanes i with
      | some (_, a) => s.tellLost iss i a
      | none => s) s

/-- What a wide acquire of some slices waits for: a MOVING page that its drop meets (07 R445), or a route to a record's die (11
R258). A word on another device is acquired when its reply comes. -/
def acquireGate (s : State) (iss : Issue) (is : List Nat) (c : Crew) (p : Prefix) (tgts : List Tgt) (go : State → State) : State :=
  let words := if isWide p && isAcquire p then tgts.filter fun t => !t.remote else []
  match words.findSome? fun t => s.dropMoving (s.site c) c.tenant (s.acquired t) with
  | some pfn => s.waitMoving iss.crew is pfn
  | none =>
    match words.findSome? fun t => t.granule.bind fun g => (s.awayRec g).map fun x => (g, x) with
    | some (g, h, d) =>
      (s.markAway g).modCrew iss.crew fun c => c.modSlices is fun sl => { sl with wait := .drain h d s.time }
    | none => go s

/-! ### A slice's access -/

/-- The access is performed at the master: a wide acquire or release (09 R193). -/
def atMasterOf (p : Prefix) : Bool := isWide p && (isAcquire p || isRelease p)

/-- The lanes of a slice whose access has not been performed or sent: all that are active, but for those of an access whose other lanes
wait for a route (21 R334). -/
def State.lanesLeft (s : State) (c : Crew) (i : Nat) : List Nat :=
  match (c.slice i).group with
  | none => c.activeOf i
  | some g => (c.activeOf i).filter fun l => !s.requests.any fun r => r.group = g && r.lane = l

/-- A slice leaves an access of which some lanes have been performed: nothing of it lands. -/
def State.dropGroup (s : State) (k i : Nat) : State :=
  match ((s.crew k).slice i).group with
  | none => s
  | some g =>
    ({ s with requests := s.requests.filter fun r => r.group ≠ g } : State).modCrew k fun c =>
      { c.modSlice i fun sl => { sl with group := none } with flights := c.flights.filter fun fl => fl.group ≠ g }

/-- A slice fails a check: it traps, parks or waits. -/
def State.checkFails (s : State) (iss : Issue) (c : Crew) (i : Nat) (acc : Access) (x : Checked) : State :=
  match x with
  | .trap code info a => (s.dropGroup iss.crew i).raise iss.crew i (iss.trap code info a)
  | .xlat a (.moving pfn) => s.xlatFault iss [i] acc a (c.exec &&& sliceMask i) (.moving pfn)
  | .xlat a x => (s.dropGroup iss.crew i).xlatFault iss [i] acc a (c.exec &&& sliceMask i) x
  | .ok _ => s

/-- What a vector memory instruction needs of its slices: names, addresses, alignment, translation, and what a release waits for;
then its effect on the slices that pass, one slice after another (03 R72). -/
def memSlices (s : State) (iss : Issue) (ops : List VOp) (addr : Crew → Nat → Nat) (align : Nat) (acc : Access)
    (p : Prefix) (xl : State → Crew → Nat → Xlat) (perform : State → Crew → Nat → List LaneTgt → State) : State :=
  iss.slices.foldl (fun s i =>
    let c := s.crew iss.crew
    match c.nameFault i ops with
    | some (code, info) => s.raise iss.crew i (iss.trap code info 0)
    | none =>
      match checkLanes ((s.lanesLeft c i).map fun l => (l, addr c l)) align (xl s c) fun _ => none with
      | .ok l => releaseGate s iss c i p fun s => perform s c i l
      | x => s.checkFails iss c i acc x) s

/-- A slice's access that waits for a route, or traps, where one of its lanes is stuck: the lowest decides (11 R258; 21 R326 step 9). -/
def unlessStuck (s : State) (iss : Issue) (c : Crew) (i : Nat) (l : List LaneTgt) (atMaster : Bool) (go : State → State) : State :=
  match l.find? fun x => s.stuck (s.site c) x.tgt atMaster with
  | some x => s.linkFault iss [i] x.addr x.tgt atMaster
  | none => go s

/-- Commits a slice of a memory instruction: violating lanes are switched off, index registers and the PC advance
(04 R84; 07 R149). -/
def State.commitMem (s : State) (iss : Issue) (c : Crew) (i : Nat) (ops : List VOp) (bad : List Nat) : State :=
  s.modCrew iss.crew fun r =>
    ((r.postAdvance (c.activeOf i) ops).switchOff (maskOf 32 32 bad.contains)).advance [i] iss.len

/-! ### Flights: accesses that await replies (02 R38; 04 R85; 22 R354; 23 R372, R373) -/

/-- The value of loaded bytes in `w` bits: SZ 5 and 6 sign-extend (14 R295). -/
def loadedValue (sz : BitVec 3) (bs : List Byte) (w : Nat) : Nat :=
  if sz = 5 then intMod (natSext (leNat bs) 8) w
  else if sz = 6 then intMod (natSext (leNat bs) 16) w
  else leNat bs

/-- The POST index registers that operands name. -/
def Crew.postRegs (c : Crew) (ops : List VOp) : List Nat :=
  (List.range 8).filter fun x => ops.any (fun o => o.index == some x) && xPost (c.xreg x)

/-- A flight of some slices: what its landing writes of the index registers that its operands name (04 R84), the lanes that it
switches off (07 R149), and its pending writes. -/
def Issue.flight (iss : Issue) (c : Crew) (is : List Nat) (ops : List VOp) (bad : List Nat) (pend : List PendWrite) : Flight :=
  let xs := c.postRegs ops
  { group := 0, mask := maskOf 8 8 is.contains, pc := iss.pc, word := iss.word, pfx := iss.pfx.getD 0, len := iss.len
    offs := xs.flatMap fun x => (c.activeIn is).map fun l => (x, l, nextOfs (c.xreg x) (c.ofs x l))
    off := maskOf 32 32 bad.contains, pend := pend ++ xs.map PendWrite.index }

/-- The access is under way: its requests go out in one group with the results of the lanes that this module has served, and its
slices go on past the instruction to wait for the replies. -/
def State.takeOff (s : State) (iss : Issue) (is : List Nat) (fl : Flight) (served : List (LaneTgt × List Byte)) (far : List LaneTgt)
    (size : Nat) (msg : LaneTgt → Nat → Msg) : State :=
  let (s, g) := s.fresh
  let lane (x : LaneTgt) : Request := { x.request iss.crew size with group := g }
  let s := far.foldl (fun s x => s.request (lane x) (msg x)) s
  let s := { s with requests := s.requests ++ served.map fun (x : LaneTgt × List Byte) => { lane x.1 with data := some x.2 } }
  s.modCrew iss.crew fun c =>
    { c.advance is iss.len with flights := c.flights ++ [{ fl with group := g }] }.modSlices is fun sl => { sl with wait := .reply g }

/-- Every lane of a flight has its value, or has failed. -/
def State.landed (s : State) (fl : Flight) : Bool := s.requests.all fun r => r.group ≠ fl.group || !r.waits

/-- The value of a lane lands in its registers and its ATLOC (10 R214). -/
def Crew.landLane (c : Crew) (sz : BitVec 3) (d : LaneDest) (bs : List Byte) : Crew :=
  let c := (d.regs.zip (wordsOf (loadedValue sz bs 32) d.regs.length)).foldl (fun c (x : Nat × Word) => c.setVreg x.1 d.lane x.2) c
  match d.code with
  | some x => { c with atloc := sset c.atloc d.lane (BitVec.ofNat 4 x) }
  | none => c

/-- The live slices that still wait for a flight. -/
def Crew.aboard (c : Crew) (fl : Flight) : List Nat :=
  slices8.filter fun i => mbit fl.mask i && c.sliceLive i && (c.slice i).wait == .reply fl.group

/-- A flight lands: the values go to the lanes that are still live, that of a uniform access where one of its slices is; offsets
advance, violating lanes are switched off, and the slices go on (22 R354; 23 R372). -/
def Crew.land (c : Crew) (fl : Flight) (data : Nat → List Byte) : Crew :=
  let c := fl.lanes.foldl (fun c d => if mbit c.live d.lane then c.landLane fl.sz d (data d.lane) else c) c
  let v := loadedValue fl.sz (data 32) 64
  let uni := if (c.aboard fl).isEmpty then [] else fl.uni
  let c := uni.zipIdx.foldl (fun c (x : Nat × Nat) => c.setSreg x.1 (BitVec.ofNat 64 (v / 2 ^ (64 * x.2)))) c
  let c := fl.offs.foldl (fun c (x : Nat × Nat × Nat) => c.setOfs x.1 x.2.1 x.2.2) c
  let c := (c.switchOff fl.off).modSlices (c.aboard fl) fun sl => { sl with wait := .none }
  { c with flights := c.flights.filter fun x => x.group ≠ fl.group }

/-- The bytes that have come for a lane of a flight; 32 stands for its one uniform access. -/
def State.flown (s : State) (fl : Flight) (lane : Nat) : List Byte :=
  ((s.requests.find? fun r => r.group = fl.group && (r.lane = lane || lane = 32)).bind (·.data)).getD []

/-- A lane of a flight has retired, or every slice of a uniform access: its reply is discarded (22 R354). -/
def Crew.gone (c : Crew) (fl : Flight) (r : Request) : Bool :=
  if fl.uni.isEmpty && !fl.eret then !mbit c.live r.lane else (c.aboard fl).isEmpty

/-- The failed request that decides a flight: that of its lowest live lane (21 R326 step 9). -/
def State.failedLane (s : State) (c : Crew) (fl : Flight) : Option Request :=
  let l := s.requests.filter fun r => r.group = fl.group && r.failed.isSome && !c.gone fl r
  l.find? fun r => l.all fun x => r.lane ≤ x.lane

/-- A flight fails: nothing of it is written, and the slices that wait for it trap at its instruction (11 R252; 21 R334; 23 R373). -/
def State.failFlight (s : State) (k : Nat) (fl : Flight) (code : Nat) (a : DWord) : State :=
  let is := (s.crew k).aboard fl
  let s : State := { s with requests := s.requests.filter fun x => x.group ≠ fl.group }
  let s := s.modCrew k fun c =>
    { c.modSlices is fun sl => { sl with pc := fl.pc, wait := .none } with
      flights := c.flights.filter fun x => x.group ≠ fl.group }
  s.raiseAll k is { code := BitVec.ofNat 8 code, info := a, addr := a, retpc := fl.pc, word := fl.word, pfx := fl.pfx }

/-- The end of a flight: a wide acquire's drop, the landing, and for an ERET the return by its record (09 R206; 22 R353); where a lane
has failed, the trap. -/
def State.landFlight (s : State) (k : Nat) (fl : Flight) : State :=
  let c := s.crew k
  match s.failedLane c fl with
  | some r => s.failFlight k fl (r.failed.getD 0) r.addr
  | none =>
    let s := if fl.drop then s.dropRange (s.site c) c.tenant .whole else s
    let data := s.flown fl
    let s : State := { s with requests := s.requests.filter fun r => r.group ≠ fl.group }
    let aboard := c.aboard fl
    let s := s.modCrew k fun c => c.land fl data
    if fl.eret then
      match aboard with
      | i :: _ => (s.modCrew k fun c => popRecord c i (data 32)).deliverPending k
      | [] => s
    else s

/-- The first flight of a crew that may land: all of it has been sent and has come, and its drop meets no MOVING page (07 R445). -/
def State.landing (s : State) (k : Nat) : Option Flight :=
  let c := s.crew k
  c.flights.find? fun fl =>
    s.landed fl && c.slices.all (fun sl => sl.group != some fl.group)
      && (!fl.drop || (s.dropMoving (s.site c) c.tenant .whole).isNone)

/-! ### Accesses that return values (21 R326 step 9, R334) -/

/-- An access of several lanes that returns values, as an instruction gives it: its flight and size, a lane's destination, a lane's
operation on this module, what goes before its request to another device, and that request. -/
structure LaneAccess where
  flight : Flight
  size : Nat
  dest : LaneTgt → LaneDest
  here : State → LaneTgt → State × List Byte
  away : State → LaneTgt → State
  msg : LaneTgt → Nat → Msg

/-- The operations of lanes on this module in lane order, with their results (10 R215). -/
def LaneAccess.serve (a : LaneAccess) : State → List LaneTgt → State × List (LaneTgt × List Byte)
  | s, [] => (s, [])
  | s, x :: rest =>
    if x.tgt.violates || x.tgt.remote then a.serve s rest
    else
      let (s, bs) := a.here s x
      let (s, out) := a.serve s rest
      (s, (x, bs) :: out)

/-- A flight starts, or where it is `under` way takes more lanes aboard. -/
def Crew.board (c : Crew) (under : Bool) (fl : Flight) : Crew :=
  if under then
    { c with flights := c.flights.map fun x => if x.group = fl.group then { x with lanes := x.lanes ++ fl.lanes } else x }
  else { c with flights := c.flights ++ [fl] }

/-- The lanes whose place can be reached are performed, or their requests sent; a lane whose home is cut has failed, and so has one to
whose home no route has appeared for 100 µs. Where others still wait for a route, so does the slice; else it goes on, to wait for the
replies (11 R258; 21 R334). -/
def LaneAccess.depart (a : LaneAccess) (s : State) (iss : Issue) (c : Crew) (i : Nat) (l : List LaneTgt) (atMaster : Bool) : State :=
  let sl := c.slice i
  let late : Bool := match sl.group, sl.wait with | some _, .route _ _ t => decide (t + 100 * Config.usec ≤ s.time) | _, _ => false
  let l := l.filter fun x => !x.tgt.violates
  let go := l.filter fun x => !s.stuck (s.site c) x.tgt atMaster
  let fails := l.filter fun x => s.cutFrom (s.site c) x.tgt atMaster || (late && s.stuck (s.site c) x.tgt atMaster)
  let left := l.filter fun x => !go.contains x && !fails.contains x
  let far := go.filter fun x => x.tgt.remote
  let (s, out) := a.serve s go
  let s := far.foldl a.away s
  let (s, g) := match sl.group with | some g => (s, g) | none => s.fresh
  let lane (x : LaneTgt) : Request := { x.request iss.crew a.size with group := g }
  let s := far.foldl (fun s x => s.request (lane x) (a.msg x)) s
  let s := { s with
    requests := s.requests ++ out.map (fun (x : LaneTgt × List Byte) => { lane x.1 with data := some x.2 })
      ++ fails.map fun x => { lane x with failed := some 0x14 } }
  let s := s.modCrew iss.crew fun c => c.board sl.group.isSome { a.flight with group := g, lanes := (go ++ fails).map a.dest }
  match left with
  | x :: _ => (s.linkFault iss [i] x.addr x.tgt atMaster).modCrew iss.crew fun c => c.modSlice i fun sl => { sl with group := some g }
  | [] => s.modCrew iss.crew fun c => (c.advance [i] iss.len).modSlice i fun sl => { sl with wait := .reply g, group := none }

/-! ### Loads and stores of several lanes -/

/-- The message of a load from another device. -/
def readMsg (n : Nat) (x : LaneTgt) (id : Nat) : Msg :=
  match x.tgt with
  | .fabric ep page off => .stodorRead ep page off n id
  | _ => .stodorRead 0 0 0 n id

/-- A lane's load, with what its translation does. -/
def State.loadHere (s : State) (c : Crew) (n : Nat) (p : Prefix) (x : LaneTgt) : State × List Byte :=
  (s.touchLane c x false).loadLane c x.tgt n p

/-- Stores of lane targets in order; a store to another device awaits its acceptance (25 R425). -/
def State.storeAll (s : State) (k : Nat) (c : Crew) (p : Prefix) (l : List LaneTgt) (data : Nat → List Byte)
    (lanes : LaneTgt → BitVec 32) : State :=
  l.foldl (fun s x =>
    if x.tgt.violates then s
    else
      let s := s.touchLane c x true
      match x.tgt with
      | .fabric ep page off =>
        let s := if isWide p && isRelease p then s.mergeRange (s.site c) c.tenant (guardOf c p) else s
        s.request { x.request k (data x.lane).length with mask := lanes x, store := true } (.stodorWrite ep page off (data x.lane))
      | _ => s.storeLane c x.tgt (data x.lane) p) s

/-- ALIGN in each slice of the gang with its own live lanes in TRAPINFO (14 R292; log 24). -/
def State.trapLive (s : State) (iss : Issue) (is : List Nat) (code addr : Nat) : State :=
  let c := s.crew iss.crew
  is.foldl (fun s i => s.raise iss.crew i (iss.trap code (c.live &&& sliceMask i).toNat addr)) s

end Sys2Proof.Machine
end

