-- ==== Sys2Proof/Machine/Float.lean ====
section
/-! DEFINITION. The groups FCMP, FLT and FSP, and QPACK and QUNPK (spec 05 R107 to R117; 22 R351 to R361; 25 R402). -/

namespace Sys2Proof.Machine

/-- The type of an FLT or FCMP word: code 0 is F32 (22 R355). -/
def fltTy (f : FmtA) : Ty := Ty.ofCode .f32 f.p.dt

/-- The format of that type. -/
def fltFmt (f : FmtA) : Fmt := (fltTy f).fmt.getD .f32

/-- The rounding mode of a word. -/
def modeOf (f : FmtA) : Rnd := .ofField f.p.rnd

/-- The sign of a code flipped exactly when a prefix bit asks for it (22 R355). -/
def flipIf (m : Fmt) (neg : Bool) (x : Nat) : Nat := if neg then x ^^^ m.signBit else x

/-! ### FCMP (22 R357) -/

/-- A condition's truth and the flag of a NaN operand. -/
def fcmpHolds (cond : BitVec 3) (a b : FVal) : Bool × BitVec 5 :=
  let un := a == .nan || b == .nan
  match cond with
  | 0 => (feq a b, 0)
  | 1 => (!feq a b, 0)
  | 2 => (flt false a b, flIf un flIV)
  | 3 => (flt false a b || feq a b, flIf un flIV)
  | 4 => (flt false b a, flIf un flIV)
  | 5 => (flt false b a || feq a b, flIf un flIV)
  | 6 => (un, 0)
  | 7 => (!un, 0)

/-- FCMP. -/
def execFcmp (cond : BitVec 3) (f : FmtA) (s : State) : Host.Outcome State Fault Refusal :=
  withIssue s fun s iss =>
    let m := fltFmt f
    cmpInstr s iss f (fltTy f) fun a b =>
      fcmpHolds cond (m.value (flipIf m f.p.na a)) (m.value (flipIf m f.p.nb b))

/-! ### FLT (22 R355, R356, R361) -/

/-- An FLT instruction of two sources on codes whose signs NA and NB have flipped. -/
def flt2 (f : FmtA) (s : State) (e : Fmt → Nat → Nat → FRes) : Host.Outcome State Fault Refusal :=
  withIssue s fun s iss =>
    let m := fltFmt f
    aluInstr s iss f (fltTy f) (fltTy f) true true none fun a b _ =>
      e m (flipIf m f.p.na a) (flipIf m f.p.nb b)

/-- FADD. -/
def execFadd (f : FmtA) (s : State) : Host.Outcome State Fault Refusal :=
  flt2 f s fun m a b => fadd m (modeOf f) (m.value a) (m.value b)

/-- FMUL. -/
def execFmul (f : FmtA) (s : State) : Host.Outcome State Fault Refusal :=
  flt2 f s fun m a b => fmul m (modeOf f) (m.value a) (m.value b)

/-- FMIN. -/
def execFmin (f : FmtA) (s : State) : Host.Outcome State Fault Refusal :=
  flt2 f s fun m a b => ⟨fminmax m false a b, 0⟩

/-- FMAX. -/
def execFmax (f : FmtA) (s : State) : Host.Outcome State Fault Refusal :=
  flt2 f s fun m a b => ⟨fminmax m true a b, 0⟩

/-- FFMA: the addend is C, or D's old value (22 R356). -/
def execFfma (f : FmtA) (s : State) : Host.Outcome State Fault Refusal :=
  withIssue s fun s iss =>
    let m := fltFmt f
    aluInstr s iss f (fltTy f) (fltTy f) true true (addend f) fun a b z =>
      ffma m (modeOf f) (m.value (flipIf m f.p.na a)) (m.value (flipIf m f.p.nb b)) (m.value z)

/-- FRND (22 R361). -/
def execFrnd (f : FmtA) (s : State) : Host.Outcome State Fault Refusal :=
  withIssue s fun s iss =>
    aluInstr s iss f (fltTy f) (fltTy f) true false none fun a _ _ => frnd (fltFmt f) (modeOf f) a

/-- CVT (22 R351, R352). -/
def execCvt (f : FmtA) (s : State) : Host.Outcome State Fault Refusal :=
  withIssue s fun s iss =>
    let td := Ty.ofCode .f32 f.p.dt
    let ts := Ty.ofCode .f32 f.p.st
    aluInstr s iss f td ts true false none fun a _ _ =>
      let r := cvt td ts (modeOf f) f.p.sat a
      ⟨r.code, r.fl⟩

/-! ### FSP (22 R358, R359) -/

/-- A special function in every active lane; where the model's bounds do not decide the rounding the result is a free value
and NX is raised (log 11). -/
def fsp (f : FmtA) (s : State) (e : FVal → Option FRes) : Host.Outcome State Fault Refusal :=
  withIssue s fun s iss =>
    let base := s.free
    let s := { s with free := base + 32 }
    let d : VOp := { pos := 0, field := f.d.toNat, n := 1 }
    let a : VOp := { pos := 1, field := f.a.toNat, n := 1 }
    vecInstr s iss (some d) none [d, a] fun c l =>
      outNat 1 ((e (Fmt.f32.value (flipIf .f32 f.p.na (c.vnat a l)))).getD
        ⟨(Config.freeValue (base + l)).toNat % 2 ^ 32, flNX⟩)

/-- FRCP. -/
def execFrcp (f : FmtA) (s : State) : Host.Outcome State Fault Refusal :=
  fsp f s fun v => some (frcp .f32 (modeOf f) v)

/-- FRSQ. -/
def execFrsq (f : FmtA) (s : State) : Host.Outcome State Fault Refusal :=
  fsp f s fun v => some (frsq .f32 (modeOf f) v)

/-- FSQRT. -/
def execFsqrt (f : FmtA) (s : State) : Host.Outcome State Fault Refusal :=
  fsp f s fun v => some (fsqrt .f32 (modeOf f) v)

/-- FEXP2. -/
def execFexp2 (f : FmtA) (s : State) : Host.Outcome State Fault Refusal :=
  fsp f s fun
    | .nan => some (nanRes .f32 0)
    | .inf n => some ⟨if n then 0 else infCode .f32 false, 0⟩
    | .fin d => exp2Fin .f32 (modeOf f) d

/-- FLOG2. -/
def execFlog2 (f : FmtA) (s : State) : Host.Outcome State Fault Refusal :=
  fsp f s fun
    | .nan => some (nanRes .f32 0)
    | .inf n => some (if n then nanRes .f32 flIV else ⟨infCode .f32 false, 0⟩)
    | .fin d =>
      if d.m = 0 then some ⟨infCode .f32 true, flDZ⟩
      else if d.neg then some (nanRes .f32 flIV)
      else log2Fin .f32 (modeOf f) d

/-- FSINPI. -/
def execFsinpi (f : FmtA) (s : State) : Host.Outcome State Fault Refusal :=
  fsp f s fun
    | .nan => some (nanRes .f32 0)
    | .inf n => some ⟨Fmt.f32.signed n 0, 0⟩
    | .fin d => sinpiFin .f32 (modeOf f) d

/-- FCOSPI. -/
def execFcospi (f : FmtA) (s : State) : Host.Outcome State Fault Refusal :=
  fsp f s fun
    | .nan => some (nanRes .f32 0)
    | .inf _ => some ⟨0x3F800000, 0⟩
    | .fin d => cospiFin .f32 (modeOf f) d

/-! ### QPACK and QUNPK (05 R116, R117; 25 R402) -/

/-- QPACK. -/
def execQpack (f : FmtA) (s : State) : Host.Outcome State Fault Refusal :=
  withIssue s fun s iss =>
    let d : VOp := { pos := 0, field := f.d.toNat, n := 2 }
    let a : VOp := { pos := 1, field := f.a.toNat, n := 8 }
    vecInstr s iss (some d) none [d, a] fun c l =>
      let (codes, sc, fl) := qpack ((List.range 8).map fun i => (c.vget a l i).toNat)
      { regs := [BitVec.ofNat 32 codes, BitVec.ofNat 32 sc], fl := fl }

/-- QUNPK. -/
def execQunpk (f : FmtA) (s : State) : Host.Outcome State Fault Refusal :=
  withIssue s fun s iss =>
    let d : VOp := { pos := 0, field := f.d.toNat, n := 8 }
    let a : VOp := { pos := 1, field := f.a.toNat, n := 2 }
    vecInstr s iss (some d) none [d, a] fun c l =>
      let (xs, fl) := qunpk (c.vget a l 0).toNat (c.vget a l 1).toNat
      { regs := xs.map (BitVec.ofNat 32), fl := fl }

end Sys2Proof.Machine
end

