-- ==== Sys2Proof/Machine/Regs.lean ====
section
/-! DEFINITION. The groups PRED and REGS: predicate logic, the window and the index registers (spec 04 R78 to R87; 24 R390
to R393; 26 R439 to R443). -/

namespace Sys2Proof.Machine

/-! ### PRED (24 R390 to R393) -/

/-- A predicate instruction: each slice of the gang writes its own four bits, whatever exec holds (24 R391). -/
def predop (f : FmtA) (s : State) (e : BitVec 32 → BitVec 32 → BitVec 32) : Host.Outcome State Fault Refusal :=
  withIssue s fun s iss =>
    uniPlain s iss fun c =>
      c.setPred f.d.toNat (slicesMask iss.slices) (e (c.pred f.a.toNat) (c.pred f.b.toNat))

/-- PAND. -/
def execPand (f : FmtA) (s : State) : Host.Outcome State Fault Refusal := predop f s fun a b => a &&& b

/-- POR. -/
def execPor (f : FmtA) (s : State) : Host.Outcome State Fault Refusal := predop f s fun a b => a ||| b

/-- PXOR. -/
def execPxor (f : FmtA) (s : State) : Host.Outcome State Fault Refusal := predop f s fun a b => a ^^^ b

/-- PANDN. -/
def execPandn (f : FmtA) (s : State) : Host.Outcome State Fault Refusal := predop f s fun a b => a &&& ~~~b

/-- PMOV. -/
def execPmov (f : FmtA) (s : State) : Host.Outcome State Fault Refusal := predop f s fun a _ => a

/-- PCNT counts all 32 bits (24 R393). -/
def execPcnt (f : FmtA) (s : State) : Host.Outcome State Fault Refusal :=
  withIssue s fun s iss =>
    uniPlain s iss fun c => c.setSreg f.d.toNat (BitVec.ofNat 64 (popCount (c.pred f.a.toNat).toNat 32))

/-! ### The window and the index registers -/

/-- The B source of WIN and XSET: a uniform register or a constant read as UI64 (26 R439, R443). -/
def uniB (c : Crew) (f : FmtA) (k : Option Konst) : Nat := (srcOf false 2 f.b 1 k).read c .ui64 0

/-- WIN: a base that is no multiple of 8, or is g or more, traps WINDOW (04 R79). -/
def execWin (f : FmtA) (s : State) : Host.Outcome State Fault Refusal :=
  withIssue s fun s iss =>
    withKonst s iss f.k f.b fun s k =>
      let c := s.crew iss.crew
      let v := uniB c f k
      if v % 8 ≠ 0 || c.g ≤ v then
        s.trapGang iss iss.slices 0x04 (v % 512 * 2 ^ 9 + bit01 (decide (512 ≤ v)) * 2 ^ 18) 0
      else uniPlain s iss fun c => { c with win := v }

/-- The fields that XSET writes: the reserved bits of R80 are ignored. -/
def xsetMask : DWord := 0x000301FF03FF01FF

/-- XSET: a range beyond g traps REGBOUND (04 R81; 26 R443). -/
def execXset (f : FmtA) (s : State) : Host.Outcome State Fault Refusal :=
  withIssue s fun s iss =>
    withKonst s iss f.k f.b fun s k =>
      let c := s.crew iss.crew
      let u := BitVec.ofNat 64 (uniB c f k) &&& xsetMask
      if c.g < natBits u.toNat 8 0 + xBound u then
        s.trapGang iss iss.slices 0x03 (0xFF + f.d.toNat * 2 ^ 8) 0
      else uniPlain s iss fun c => { c with xuni := sset c.xuni f.d.toNat u }

/-- XLD: the offsets that it writes stand over an advance of the same instruction (26 R441). -/
def execXld (f : FmtA) (s : State) : Host.Outcome State Fault Refusal :=
  withIssue s fun s iss =>
    let c := s.crew iss.crew
    let a : VOp := { pos := 1, field := f.a.toNat, n := 1 }
    let t := vecInstr s iss none none [a] fun _ _ => {}
    t.modCrew iss.crew fun r =>
      (iss.slices.filter fun i => (c.nameFault i [a]).isNone).foldl (fun r i =>
        (c.activeOf i).foldl (fun r l => r.setOfs f.d.toNat l (c.vnat a l % 512)) r) r

/-- XGET (26 R440). -/
def execXget (f : FmtA) (s : State) : Host.Outcome State Fault Refusal :=
  withIssue s fun s iss =>
    if f.cl = 3 then uniPlain s iss fun c => c.setSreg f.d.toNat (c.xreg f.a.toNat)
    else
      let d : VOp := { pos := 0, field := f.d.toNat, n := 1 }
      vecInstr s iss (some d) none [d] fun c l => { regs := [BitVec.ofNat 32 (c.ofs f.a.toNat l)] }

end Sys2Proof.Machine
end

