-- ==== Sys2Proof/Machine/LoadStore.lean ====
section
/-! DEFINITION. LD, ST, LDS, STS, LDU and STU (spec 07 R147 to R150; 14 R294, R295; 23 R371 to R376; 25 R425 to R427). -/

namespace Sys2Proof.Machine

/-- The data operand of a format M word. -/
def memData (f : FmtM) : VOp := { pos := 0, field := f.d.toNat, n := szRegs f.sz }

/-- A slice's load once checked (23 R372): one that names another device sends its requests and writes nothing until every value
has come (23 R373). -/
def loadSlice (f : FmtM) (iss : Issue) (ops : List VOp) (s : State) (c : Crew) (i : Nat) (l : List LaneTgt) : State :=
  let n := szBytes f.sz
  let d := memData f
  let ac : LaneAccess :=
    { flight := { iss.flight c [i] ops (violators l) [c.pendOf d] with sz := f.sz, drop := isWide f.p && isAcquire f.p }
      size := n
      dest := fun x => { lane := x.lane, regs := (List.range d.n).map (c.phys d x.lane) }
      here := fun s x => s.loadHere c n f.p x
      away := fun s x => s.touchLane c x false
      msg := readMsg n }
  if (l.any fun x => x.tgt.remote) || (c.slice i).group.isSome then
    acquireGate s iss [i] c f.p (l.map (·.tgt)) fun s => ac.depart s iss c i l (atMasterOf f.p)
  else
    unlessStuck s iss c i l (atMasterOf f.p) fun s =>
      acquireGate s iss [i] c f.p (l.map (·.tgt)) fun s =>
        let (s, out) := ac.serve s l
        let s := s.modCrew iss.crew fun r =>
          (out.foldl (fun r x => c.vput r d x.1.lane (wordsOf (loadedValue f.sz x.2 32) d.n)) r).addPend [c.pendOf d]
        s.commitMem iss c i ops (violators l)

/-- A slice's store once checked (25 R425). -/
def storeSlice (f : FmtM) (iss : Issue) (ops : List VOp) (s : State) (c : Crew) (i : Nat) (l : List LaneTgt) : State :=
  let d := memData f
  unlessStuck s iss c i l (atMasterOf f.p) fun s =>
    let s := s.storeAll iss.crew c f.p l (fun lane => leBytes (c.vnat d lane) (szBytes f.sz)) fun x => maskOf 32 32 (· = x.lane)
    s.commitMem iss c i ops (violators l)

/-- LD (23 R372). -/
def execLd (f : FmtM) (s : State) : Host.Outcome State Fault Refusal :=
  withIssue s fun s iss =>
    let ops := [memData f] ++ memOps f false
    memSlices s iss ops (memAddr f false) (szBytes f.sz) .load f.p (fun s c a => s.access c a (szBytes f.sz) .read) (loadSlice f iss ops)

/-- ST (25 R425, R426). -/
def execSt (f : FmtM) (s : State) : Host.Outcome State Fault Refusal :=
  withIssue s fun s iss =>
    let ops := [memData f] ++ memOps f false
    memSlices s iss ops (memAddr f false) (szBytes f.sz) .store f.p (fun s c a => s.access c a (szBytes f.sz) .write)
      (storeSlice f iss ops)

/-- LDS (23 R375). -/
def execLds (f : FmtM) (s : State) : Host.Outcome State Fault Refusal :=
  withIssue s fun s iss =>
    let ops := [memData f] ++ memOps f true
    memSlices s iss ops (memAddr f true) (szBytes f.sz) .load f.p (fun s c a => .ok (s.scratchTgt c a (szBytes f.sz)))
      (loadSlice f iss ops)

/-- STS (25 R427). -/
def execSts (f : FmtM) (s : State) : Host.Outcome State Fault Refusal :=
  withIssue s fun s iss =>
    let ops := [memData f] ++ memOps f true
    memSlices s iss ops (memAddr f true) (szBytes f.sz) .store f.p (fun s c a => .ok (s.scratchTgt c a (szBytes f.sz)))
      (storeSlice f iss ops)

/-- The one access of LDU and STU for a gang: its checks, whose faults every slice takes (23 R371), what a release waits for, and a
violation, which switches every live lane off (07 R149). -/
def uniAccess (s : State) (iss : Issue) (f : FmtM) (acc : Access) (need : Need)
    (go : State → Crew → List Nat → LaneTgt → State) : State :=
  let c := s.crew iss.crew
  let n := szBytes f.sz
  let a := memAddr f false c 0
  let lanes := c.liveIn iss.slices
  if a % n ≠ 0 then s.trapLive iss iss.slices 0x05 a
  else
    match s.access c a n need with
    | .ok tgt =>
      withPerformed s iss iss.slices (isWide f.p && isRelease f.p) (sysRelease f.p) fun s is =>
        if is.isEmpty then s
        else if s.stuck (s.site c) tgt (atMasterOf f.p) then s.linkFault iss is a tgt (atMasterOf f.p)
        else if tgt.violates then s.modCrew iss.crew fun r => (r.switchOff (c.liveIn is)).advance is iss.len
        else go s c is { lane := (lanes32.find? (mbit (c.liveIn is))).getD 0, addr := a, tgt := tgt }
    | x => s.xlatFault iss iss.slices acc a lanes x

/-- The uniform registers that SZ moves (14 R295). -/
def uniRegs (f : FmtM) : List Nat := if f.sz = 4 then [f.d.toNat, f.d.toNat + 1] else [f.d.toNat]

/-- LDU (23 R376). -/
def execLdu (f : FmtM) (s : State) : Host.Outcome State Fault Refusal :=
  withIssue s fun s iss =>
    uniAccess s iss f .load .read fun s c is x =>
      let n := szBytes f.sz
      acquireGate s iss is c f.p [x.tgt] fun s =>
        if x.tgt.remote then
          let s := s.touchLane c x false
          let fl := iss.flight c is [] [] ((uniRegs f).map PendWrite.uniform)
          s.takeOff iss is { fl with uni := uniRegs f, sz := f.sz, drop := isWide f.p && isAcquire f.p } [] [x] n (readMsg n)
        else
          let (s, bs) := s.loadHere c n f.p x
          let v := loadedValue f.sz bs 64
          s.modCrew iss.crew fun r =>
            let r := r.setSreg f.d.toNat (BitVec.ofNat 64 v)
            let r := if f.sz = 4 then r.setSreg (f.d.toNat + 1) (BitVec.ofNat 64 (v / 2 ^ 64)) else r
            (r.addPend ((uniRegs f).map PendWrite.uniform)).advance is iss.len

/-- STU (25 R427). -/
def execStu (f : FmtM) (s : State) : Host.Outcome State Fault Refusal :=
  withIssue s fun s iss =>
    uniAccess s iss f .store .write fun s c is x =>
      let v := (c.sreg f.d.toNat).toNat + 2 ^ 64 * (c.sreg (f.d.toNat + 1)).toNat
      (s.storeAll iss.crew c f.p [x] (fun _ => leBytes v (szBytes f.sz)) fun _ => c.liveIn is).advance iss is

end Sys2Proof.Machine
end

