-- ==== Sys2Proof/Machine/Atomic.lean ====
section
/-! DEFINITION. The group ATOMIC: ATOM, RED, ACAS, ATOMS and RWL (spec 10 R214 to R224; 17 R317 to R320; 21 R327, R334, R335;
25 R403, R411). -/

namespace Sys2Proof.Machine

/-- What an atomic does at its location: an operation of R217, a compare and swap, or a lock operation of R224. -/
inductive AtomKind where
  | rmw (op : Nat) (t : Ty)
  | cas (t : Ty)
  | lock (op : Nat)
  deriving DecidableEq, Repr

/-- The type of an operation: code 0 is SI32, B32 or UI32 by the operation (10 R217). -/
def atomTy (op : Nat) (dt : BitVec 4) : Ty :=
  Ty.ofCode (if op < 3 then .si32 else if op < 7 then .b32 else .ui32) dt

/-- The bytes of the location. -/
def AtomKind.size : AtomKind → Nat
  | .rmw _ t | .cas t => t.width / 8
  | .lock _ => 4

/-- The registers of the operand D and those that receive the result (10 R216). -/
def AtomKind.regs : AtomKind → Nat × Nat
  | .rmw _ t => (t.regs, t.regs)
  | .cas t => (2 * t.regs, t.regs)
  | .lock _ => (1, 1)

/-- The new value of an ATOM or RED operation (10 R218). -/
def atomNew (op : Nat) (t : Ty) (old x : Nat) : Nat :=
  match t.fmt, op with
  | some f, 0 => (fadd f .rn (f.value old) (f.value x)).code
  | some f, 1 => fminmax f false old x
  | some f, 2 => fminmax f true old x
  | none, 0 => (old + x) % 2 ^ t.width
  | none, 1 => if t.intVal old ≤ t.intVal x then old else x
  | none, 2 => if t.intVal old ≤ t.intVal x then x else old
  | _, 3 => old &&& x
  | _, 4 => old ||| x
  | _, 5 => old ^^^ x
  | _, 6 => x
  | _, _ => if x ≤ old then 0 else old + 1

/-- A lock operation on a word: the new word when it succeeds (10 R224). -/
def lockNew (op w : Nat) : Option Nat :=
  let pref := natBit w 31
  let held := natBit w 30
  let wwait := natBits w 29 16
  let readers := w % 2 ^ 16
  match op with
  | 0 => if !held && readers < 65535 && !(pref && 0 < wwait) then some (w + 1) else none
  | 1 => if !held && readers = 0 then some (w + 2 ^ 30) else none
  | 2 => if 0 < readers then some (w - 1) else none
  | 3 => if held then some (w - 2 ^ 30) else none
  | 4 => if wwait < 16383 then some (w + 2 ^ 16) else none
  | 5 => if 0 < wwait then some (w - 2 ^ 16) else none
  | 6 => some (if pref then w else w + 2 ^ 31)
  | _ => some (if pref then w - 2 ^ 31 else w)

/-- The effect on a location's value of a lane's operand: the value written, if any, and the result (10 R218, R219, R224). -/
def AtomKind.apply (k : AtomKind) (old x : Nat) : Option Nat × Nat :=
  match k with
  | .rmw op t => (some (atomNew op t old (x % 2 ^ t.width)), old)
  | .cas t => (if old = x % 2 ^ t.width then some (x / 2 ^ t.width) else none, old)
  | .lock op =>
    match lockNew op old with
    | some w => (some w, 1)
    | none => (none, 0)

/-- The PCIe AtomicOp that carries an atomic: 0 FetchAdd, 1 Swap, 2 CAS; none when it is not carried (10 R217). -/
def AtomKind.carried : AtomKind → Option Nat
  | .rmw 0 t => if t.fmt.isNone then some 0 else none
  | .rmw 6 t => if t.width = 128 then none else some 1
  | .cas _ => some 2
  | _ => none

/-- ATOM_UNSUP by the place of the location (10 R221). -/
def AtomKind.unsupported (k : AtomKind) (tgt : Tgt) : Option Nat :=
  match tgt with
  | .host _ snoop => if snoop && k.carried.isSome then none else some 0x08
  | .mmio _ => some 0x08
  | _ => none

/-- The location code of ATLOC (10 R214). -/
def atLoc (die : Nat) (tgt : Tgt) : Nat :=
  match tgt with
  | .scratch _ peer => bit01 peer
  | .paged _ p off _ =>
    if (p.frameAddr off).isNone then 5
    else if p.mdie ≠ die then 4
    else if p.munit < 32 then 2 else 3
  | .host _ _ => 6
  | .fabric _ _ _ => 7
  | _ => 5

/-- The operand of one lane of an atomic, performed as one event at the home of the location (10 R218; 09 R199, R204 to R206;
17 R320). -/
def State.atomLane (s : State) (c : Crew) (tgt : Tgt) (k : AtomKind) (x : Nat) (p : Prefix) : State × Nat :=
  let site := s.site c
  let rel := isWide p && isRelease p
  let range := guardOf c p
  let eager := rel && s.eager c tgt p
  let s := if eager then s.mergeRange site c.tenant range else s
  let (s, r) := atHome site tgt s fun s =>
    let (s, bs) := s.readTgt site tgt k.size true
    let (new, r) := k.apply (leNat bs) x
    match new with
    | some v => (s.writeTgt site tgt (leBytes v k.size) true, r)
    | none => (s, r)
  let s : State :=
    match tgt.granule with
    | some g => if rel then s.leaveRecord c g range (!eager || !tgt.framed) else s
    | none => s
  (if isWide p && isAcquire p then s.acquire c tgt else s, r)

/-- What the instruction form does with its results: none for RED. -/
structure AtomForm where
  kind : AtomKind
  addrRegs : Nat
  returns : Bool
  scratch : Bool
  deriving DecidableEq, Repr

/-- The code of an atomic's type on the link, that of R297, with 0 for B32, which has none. -/
def linkTy (t : Ty) : Nat :=
  match t with
  | .f64 => 1
  | .f32 => 2
  | .f16 => 3
  | .bf16 => 4
  | .e5m2 => 5
  | .e4m3 => 6
  | .e2m1 => 7
  | .si8 => 8
  | .si16 => 9
  | .si32 => 10
  | .si64 => 11
  | .ui32 => 12
  | .ui64 => 13
  | .b64 => 14
  | .b128 => 15
  | .b32 => 0

/-- What an atomic that arrives over the link does: function 0 an operation of R217, 2 a compare and swap, 4 a lock operation. -/
def linkKind (fn op ty : Nat) : AtomKind :=
  match fn with
  | 0 => .rmw op (atomTy op (BitVec.ofNat 4 ty))
  | 2 => .cas (Ty.ofCode .b32 (BitVec.ofNat 4 ty))
  | _ => .lock op

/-- The message of a lane's atomic on another device. -/
def atomMsg (k : AtomKind) (x : Nat) (tgt : Tgt) (id : Nat) : Msg :=
  let (ep, page, off) := match tgt with | .fabric ep page off => (ep, page, off) | _ => (0, 0, 0)
  match k with
  | .rmw op t => .stodorAtomic ep page off 0 op (linkTy t) (leBytes x k.size) id
  | .cas t => .stodorAtomic ep page off 2 0 (linkTy t) (leBytes x (2 * k.size)) id
  | .lock op => .stodorAtomic ep page off 4 op 0 [] id

/-- The operand of an atomic. -/
def atomData (fm : AtomForm) (f : FmtA) : VOp := { pos := 0, field := f.d.toNat, n := fm.kind.regs.1 }

/-- The registers of an atomic's result; none for RED. -/
def atomDest (fm : AtomForm) (f : FmtA) : VOp := { pos := 0, field := f.d.toNat, n := if fm.returns then fm.kind.regs.2 else 0 }

/-- What a lane's result goes to: its registers and its ATLOC (10 R214, R218). -/
def atomLand (fm : AtomForm) (f : FmtA) (site : CacheId) (c : Crew) (x : LaneTgt) : LaneDest :=
  let d := atomDest fm f
  { lane := x.lane, regs := (List.range d.n).map (c.phys d x.lane), code := some (atLoc (cacheDie site) x.tgt) }

/-- The pending writes of an atomic: its result and ATLOC (04 R85; 17 R318). -/
def atomPend (fm : AtomForm) (f : FmtA) (c : Crew) : List PendWrite :=
  (if fm.returns then [c.pendOf (atomDest fm f)] else []) ++ [.special 0x0F]

/-- An operation that goes to the host is sent to its port as an AtomicOp, a compare and swap with the compare value first
(18 R319; 10 R217). -/
def State.toHost (s : State) (k : AtomKind) (tgt : Tgt) (x : Nat) : State :=
  match tgt, k.carried with
  | .host a _, some op => s.send (.hostAtomic (a - hostBase) op k.size (leBytes x (if op = 2 then 2 * k.size else k.size)))
  | _, _ => s

/-- A lane's operation on this module or at the host: the state and the bytes of the result. -/
def State.atomHere (s : State) (fm : AtomForm) (f : FmtA) (c : Crew) (x : LaneTgt) : State × List Byte :=
  let v := c.vnat (atomData fm f) x.lane
  let (s, r) := ((s.touchLane c x true).toHost fm.kind x.tgt v).atomLane c x.tgt fm.kind v f.p
  (s, leBytes r fm.kind.size)

/-- What goes before a lane's operation on another device: its translation, and the drain of a release. -/
def State.atomAway (s : State) (f : FmtA) (c : Crew) (x : LaneTgt) : State :=
  let s := s.touchLane c x true
  if isWide f.p && isRelease f.p then s.mergeRange (s.site c) c.tenant (guardOf c f.p) else s

/-- The operations of a slice's lanes, and what is to land of them. -/
def atomAccess (fm : AtomForm) (f : FmtA) (iss : Issue) (ops : List VOp) (s : State) (c : Crew) (i : Nat) (bad : List Nat) :
    LaneAccess :=
  { flight := { iss.flight c [i] ops bad (atomPend fm f c) with sz := 2, drop := isWide f.p && isAcquire f.p }
    size := fm.kind.size
    dest := atomLand fm f (s.site c) c
    here := fun s x => s.atomHere fm f c x
    away := fun s x => s.atomAway f c x
    msg := fun x => atomMsg fm.kind (c.vnat (atomData fm f) x.lane) x.tgt }

/-- Commits a slice whose lanes' results are at hand: registers and ATLOC, then index registers, SPVIOL and the PC. -/
def commitAtom (fm : AtomForm) (f : FmtA) (iss : Issue) (ops : List VOp) (s : State) (c : Crew) (i : Nat) (bad : List Nat)
    (out : List (LaneTgt × List Byte)) : State :=
  let site := s.site c
  let s := s.modCrew iss.crew fun r =>
    (out.foldl (fun r x => r.landLane 2 (atomLand fm f site c x.1) x.2) r).addPend (atomPend fm f c)
  s.commitMem iss c i ops bad

/-- The host's part of the checks: every probe, then every operation; the first lane that the host refuses, and whether by its
probe (10 R222). -/
def hostRefuses (k : AtomKind) (l : List LaneTgt) : Option (Bool × LaneTgt) :=
  let host := l.filterMap fun x => match x.tgt with | .host a _ => some (x, a - hostBase) | _ => none
  match host.find? fun (_, a) => !Config.hostAccepts (a / 4 * 4) 2 4 with
  | some (x, _) => some (true, x)
  | none => (host.find? fun (_, a) => !Config.hostAccepts a (k.carried.getD 0) k.size).map fun (x, _) => (false, x)

/-- The probes of a slice's host lanes (10 R222). -/
def State.probeHost (s : State) (l : List LaneTgt) : State :=
  l.foldl (fun s x => match x.tgt with | .host a _ => s.send (.hostProbe ((a - hostBase) / 4 * 4)) | _ => s) s

/-- An atomic whose host operation is refused after its probe: the context halts (10 R222). The lanes below it have been
performed. -/
def atomHalt (fm : AtomForm) (f : FmtA) (iss : Issue) (ops : List VOp) (s : State) (c : Crew) (i : Nat) (l : List LaneTgt)
    (x : LaneTgt) : State :=
  let (s, _) := (atomAccess fm f iss ops s c i []).serve s (l.takeWhile fun y => y.lane ≠ x.lane)
  let s := s.toHost fm.kind x.tgt (c.vnat (atomData fm f) x.lane)
  let party := match c.partyId with | some p => (s.party p).index | none => 0
  s.haltTenant c.tenant 0x16 6 party x.addr

/-- The requests of the lanes of a RED on other devices, whose failure it is not told (25 R403). -/
def atomSend (fm : AtomForm) (f : FmtA) (iss : Issue) (s : State) (c : Crew) (far : List LaneTgt) : State :=
  far.foldl (fun s x =>
    (s.atomAway f c x).request { x.request iss.crew fm.kind.size with store := true, told := false }
      (atomMsg fm.kind (c.vnat (atomData fm f) x.lane) x.tgt)) s

/-- The operations of a slice whose lanes have passed every check before the replies (21 R334; 25 R403): where every home is on this
module or the host's they are performed at once and the slice commits; else it awaits the replies, a RED without an acquire none. -/
def atomPerform (fm : AtomForm) (f : FmtA) (iss : Issue) (ops : List VOp) (s : State) (c : Crew) (i : Nat)
    (l : List LaneTgt) : State :=
  let ac := atomAccess fm f iss ops s c i (violators l)
  let far := l.filter fun x => x.tgt.remote
  let waits : Bool := fm.returns || isAcquire f.p
  let stuck := l.any fun x => s.stuck (s.site c) x.tgt true
  if (fm.returns && (stuck || (c.slice i).group.isSome)) || (waits && !far.isEmpty) then ac.depart s iss c i l true
  else
    let (s, out) := ac.serve s l
    commitAtom fm f iss ops (atomSend fm f iss s c far) c i (violators l) (out ++ far.map fun x => (x, []))

/-- A slice's atomic once its lanes are translated: the host's rules, what a release and an acquire wait for, and then the operations
(10 R222; 21 R326 steps 8 and 9); a RED with a lane whose home cannot be reached performs nothing (03 R72). -/
def atomSlice (fm : AtomForm) (f : FmtA) (iss : Issue) (ops : List VOp) (s : State) (c : Crew) (i : Nat)
    (l : List LaneTgt) : State :=
  let near := l.filter fun x => !s.stuck (s.site c) x.tgt true
  match hostRefuses fm.kind near with
  | some (true, x) => ((s.dropGroup iss.crew i).probeHost near).raise iss.crew i (iss.trap 0x09 x.addr x.addr)
  | refused =>
    releaseGate s iss c i f.p fun s =>
      acquireGate s iss [i] c f.p (l.map (·.tgt)) fun s =>
        let go (s : State) : State :=
          match refused with
          | some (_, x) => atomHalt fm f iss ops (s.probeHost near) c i near x
          | none => atomPerform fm f iss ops (s.probeHost near) c i l
        if fm.returns then go s else unlessStuck s iss c i l true go

/-- An atomic instruction: names, alignment, translation as a write, then the lanes' operations (10 R215; 21 R326). -/
def atomic (fm : AtomForm) (f : FmtA) (s : State) : Host.Outcome State Fault Refusal :=
  withIssue s fun s iss =>
    let n := fm.kind.size
    let ops : List VOp := [atomData fm f, atomOp f fm.addrRegs]
    iss.slices.foldl (fun s i =>
      let c := s.crew iss.crew
      match c.nameFault i ops with
      | some (code, info) => s.raise iss.crew i (iss.trap code info 0)
      | none =>
        let xl (a : Nat) : Xlat := if fm.scratch then .ok (s.scratchTgt c a n) else s.access c a n .write
        match checkLanes ((s.lanesLeft c i).map fun l => (l, atomAddr f fm.addrRegs n c l)) n xl fm.kind.unsupported with
        | .ok l => atomSlice fm f iss ops s c i l
        | x => s.checkFails iss c i .atomic x) s

/-- ATOM (21 R334). -/
def execAtom (f : FmtA) (s : State) : Host.Outcome State Fault Refusal :=
  let op := f.op3.toNat
  atomic { kind := .rmw op (atomTy op f.p.dt), addrRegs := 2, returns := true, scratch := false } f s

/-- RED (25 R403). -/
def execRed (f : FmtA) (s : State) : Host.Outcome State Fault Refusal :=
  let op := f.op3.toNat
  atomic { kind := .rmw op (atomTy op f.p.dt), addrRegs := 2, returns := false, scratch := false } f s

/-- ACAS (21 R327). -/
def execAcas (f : FmtA) (s : State) : Host.Outcome State Fault Refusal :=
  atomic { kind := .cas (Ty.ofCode .b32 f.p.dt), addrRegs := 2, returns := true, scratch := false } f s

/-- ATOMS: operation 7 is CAS (21 R335). -/
def execAtoms (f : FmtA) (s : State) : Host.Outcome State Fault Refusal :=
  let op := f.op3.toNat
  let k : AtomKind := if op = 7 then .cas (Ty.ofCode .b32 f.p.dt) else .rmw op (atomTy op f.p.dt)
  atomic { kind := k, addrRegs := 1, returns := true, scratch := true } f s

/-- RWL (25 R411). -/
def execRwl (f : FmtA) (s : State) : Host.Outcome State Fault Refusal :=
  atomic { kind := .lock f.op3.toNat, addrRegs := 2, returns := true, scratch := false } f s

end Sys2Proof.Machine
end

