-- ==== Sys2Proof/Machine/Control.lean ====
section
/-! DEFINITION. The group CTRL, the branches, SPLIT, LEAVE and LPOOL, LDL, and the entries to and returns from traps
(spec 03 R61 to R71; 14 R292; 21 R340, R342; 22 R343, R353, R354; 23 R369, R374, R378, R379; 25 R408, R409, R421, R422;
26 R431). -/

namespace Sys2Proof.Machine

/-- NOP (24 R388). -/
def execNop (_ : FmtA) (s : State) : Host.Outcome State Fault Refusal :=
  withIssue s fun s iss => s.advance iss iss.slices

/-! ### EXIT (03 R68; 22 R354) -/

/-- The lanes of some slices that exec names exit; slices with a live lane left go on, and wait still for the replies that they
await. A lane that R149 has switched off stays live with its exec bit at 0, so that no EXIT names it and its crew does not retire:
how such a lane leaves, the spec does not say (log 56). -/
def exitLanes (c : Crew) (is : List Nat) (len : Nat) : Crew :=
  let gone := c.exec &&& slicesMask is
  let c := { c with live := c.live &&& ~~~gone, exec := c.exec &&& ~~~gone }
  c.modSlices (is.filter c.sliceLive) fun sl =>
    { sl with pc := sl.pc + BitVec.ofNat 64 len, wait := match sl.wait with | .reply g => .reply g | _ => .none }

/-- The handler whose slice has no live lane left ends (22 R354). -/
def endDeadHandler (c : Crew) : Crew :=
  match c.handler with
  | some h => if c.sliceLive h.slice then c else { c with handler := none }
  | none => c

/-- EXIT. -/
def execExit (_ : FmtA) (s : State) : Host.Outcome State Fault Refusal :=
  withIssue s fun s iss =>
    let k := iss.crew
    let s := s.modCrew k fun c => endDeadHandler (exitLanes c iss.slices iss.len)
    let s := s.sliceRetired k
    let s := if (s.crew k).live = 0 then s.crewRetired k else s
    (s.deliverPending k).settle k

/-! ### REGANG, SPLIT and LEAVE -/

/-- The innermost open record of a slice (03 R63). -/
def openRecord (c : Crew) (i : Nat) : Option RdvRec := c.rdv.reverse.find? fun r => mbit r.smask i && !mbit r.arr i

/-- Marks a slice arrived in a record. -/
def markArrived (c : Crew) (i id : Nat) : Crew :=
  { c with rdv := c.rdv.map fun r => if r.id = id then { r with arr := mset r.arr i true } else r }

/-- REGANG (03 R66; 25 R408). -/
def execRegang (_ : FmtA) (s : State) : Host.Outcome State Fault Refusal :=
  withIssue s fun s iss =>
    let arrive (c : Crew) (i : Nat) : Crew :=
      match openRecord c i with
      | none => c.advance [i] iss.len
      | some r => (markArrived c i r.id).modSlice i fun sl => { sl with wait := .regang r.id }
    (s.modCrew iss.crew fun c => iss.slices.foldl arrive c).settle iss.crew

/-- SPLIT (03 R65; 25 R422). -/
def execSplit (f : FmtC) (s : State) : Host.Outcome State Fault Refusal :=
  withIssue s fun s iss =>
    let c := s.crew iss.crew
    if 16 ≤ c.rdv.length then s.trapGang iss iss.slices 0x0A 0 0
    else
      let (s, id) := s.fresh
      s.modCrew iss.crew fun c =>
        let p := c.pred f.p.toNat
        let c := { c with rdv := c.rdv ++ [{ id := id, smask := iss.mask }] }
        iss.slices.foldl (fun r i =>
          if (c.activeOf i).any (mbit p) then r.modSlice i fun sl => { sl with pc := targetOf iss f.off, wait := .none }
          else r.advance [i] iss.len) c

/-- LEAVE (03 R67; 23 R378). -/
def execLeave (depth : BitVec 4) (f : FmtC) (s : State) : Host.Outcome State Fault Refusal :=
  withIssue s fun s iss =>
    let leave (c : Crew) (i : Nat) : Crew :=
      let marks := (c.rdv.filter fun r => mbit r.smask i).drop depth.toNat
      (marks.foldl (fun c r => markArrived c i r.id) c).modSlice i fun sl => { sl with pc := targetOf iss f.off, wait := .none }
    (s.modCrew iss.crew fun c => iss.slices.foldl leave c).settle iss.crew

/-! ### Branches, calls and returns -/

/-- The condition of BR in a slice (03 R61). -/
def brTaken (cond : BitVec 4) (c : Crew) (p : Nat) (i : Nat) : Bool :=
  let act := c.activeOf i
  match cond with
  | 0 => true
  | 1 => act.any (mbit (c.pred p))
  | 2 => act.all (mbit (c.pred p))
  | 3 => !act.any (mbit (c.pred p))
  | 4 => !act.all (mbit (c.pred p))
  | 5 => sliceBits c.exec i == 0
  | _ => sliceBits c.exec i != 0

/-- BR (21 R340). -/
def execBr (cond : BitVec 4) (f : FmtC) (s : State) : Host.Outcome State Fault Refusal :=
  withIssue s fun s iss =>
    s.modCrew iss.crew fun c =>
      iss.slices.foldl (fun r i =>
        if brTaken cond c f.p.toNat i then r.modSlice i fun sl => { sl with pc := targetOf iss f.off, wait := .none }
        else r.advance [i] iss.len) c

/-- CALL (22 R343). -/
def execCall (f : FmtC) (s : State) : Host.Outcome State Fault Refusal :=
  withIssue s fun s iss =>
    s.modCrew iss.crew fun c =>
      c.modSlices iss.slices fun sl => { sl with link := iss.pc + 4, pc := targetOf iss f.off, wait := .none }

/-- RET: through LINK, or a uniform register when A is not 0 (25 R409). -/
def execRet (f : FmtA) (s : State) : Host.Outcome State Fault Refusal :=
  withIssue s fun s iss =>
    let c := s.crew iss.crew
    iss.slices.foldl (fun s i =>
      let t := if f.a = 0 then (c.slice i).link else c.sreg f.a.toNat
      if t.toNat % 4 ≠ 0 then s.trapLive iss [i] 0x05 t.toNat
      else s.modCrew iss.crew fun r => r.modSlice i fun sl => { sl with pc := t, wait := .none }) s

/-- LPOOL (23 R379). -/
def execLpool (f : FmtC) (s : State) : Host.Outcome State Fault Refusal :=
  withIssue s fun s iss =>
    let t := targetOf iss f.off
    if t.toNat % 256 ≠ 0 then s.trapLive iss iss.slices 0x05 t.toNat
    else s.modCrew iss.crew fun c => { c with lpb := t }.advance iss.slices iss.len

/-- LDL (14 R292; 23 R374). -/
def execLdl (f : FmtL) (s : State) : Host.Outcome State Fault Refusal :=
  withIssue s fun s iss =>
    let t := targetOf iss f.off
    let n := if f.w = 1 then 8 else 4
    if t.toNat % n ≠ 0 then s.trapLive iss iss.slices 0x05 t.toNat
    else
      let c := s.crew iss.crew
      match s.fetchRead c t.toNat n with
      | .error x => s.xlatFault iss iss.slices .fetch t.toNat (c.liveIn iss.slices) x
      | .ok (s, bs) =>
        s.modCrew iss.crew fun c =>
          ((c.setSreg f.d.toNat (BitVec.ofNat 64 (leNat bs))).addPend [.uniform f.d.toNat]).advance iss.slices iss.len

/-! ### Idempotent regions (02 R50; 23 R369) -/

/-- IDEM: records for the crew once every live slice is there. -/
def execIdem (_ : FmtA) (s : State) : Host.Outcome State Fault Refusal :=
  withIssue s fun s iss =>
    crossArrive s iss fun s is =>
      s.modCrew iss.crew fun c =>
        let r : IdemRec :=
          { pc := iss.pc, sregs := c.sregs.filter fun kv => kv.1 < 32, live := c.live, tile := c.tile }
        { c with idem := some r }.advance is iss.len

/-- IDEMEND. -/
def execIdemend (_ : FmtA) (s : State) : Host.Outcome State Fault Refusal :=
  withIssue s fun s iss => s.modCrew iss.crew fun c => { c with idem := none }.advance iss.slices iss.len

/-! ### Traps by instruction -/

/-- TRAP (26 R431). -/
def execTrap (imm : BitVec 21) (s : State) : Host.Outcome State Fault Refusal :=
  withIssue s fun s iss => s.raiseAll iss.crew iss.slices (iss.trap 0x10 imm.toNat 0 true)

/-- BRK (21 R342). -/
def execBrk (imm : BitVec 21) (s : State) : Host.Outcome State Fault Refusal :=
  withIssue s fun s iss => s.raiseAll iss.crew iss.slices (iss.trap 0x11 imm.toNat 0 true)

/-- The code of a privilege level in a call record (25 R421). -/
def levelCode : Level → BitVec 2
  | .user => 0
  | .service => 1
  | .firmware => 2

/-- SYSCALL: PRIV on a compute core; on a service thread the entry of 25 R421. -/
def execSyscall (imm : BitVec 21) (s : State) : Host.Outcome State Fault Refusal :=
  withIssue s fun s iss =>
    let c := s.crew iss.crew
    privileged c.isService iss s
      (s.raiseAll iss.crew iss.slices { iss.trap 0x00 imm.toNat 0 true with plev := levelCode c.level })

/-- ERET in the handler slice: the record is loaded at crew scope; its faults are the ERET's own (22 R353). A record on
another device is asked for first; in a window beyond the scratchpad nothing is read and the slice's lanes are switched off
(log 25). -/
def eretSlice (s : State) (iss : Issue) (i : Nat) : State :=
  let k := iss.crew
  let c := s.crew k
  let a := c.hstk.toNat
  let lanes := c.live &&& sliceMask i
  if a % 64 ≠ 0 then s.trapLive iss [i] 0x05 a
  else
    match s.access c a 64 .read with
    | .ok tgt =>
      if s.stuck (s.site c) tgt false then s.linkFault iss [i] a tgt false
      else if tgt.violates then s.modCrew k fun c => (c.switchOff lanes).advance [i] iss.len
      else
        let x : LaneTgt := { lane := 4 * i, addr := a, tgt := tgt }
        if tgt.remote then
          (s.touchLane c x false).takeOff iss [i] { iss.flight c [i] [] [] [] with eret := true } [] [x] 64 (readMsg 64)
        else
          let (s, bs) := s.loadHere c 64 {} x
          (s.modCrew k fun c => popRecord c i bs).deliverPending k
    | x => s.xlatFault iss [i] .callRecord a (c.exec &&& sliceMask i) x

/-- ERET (22 R353). -/
def execEret (_ : FmtA) (s : State) : Host.Outcome State Fault Refusal :=
  withIssue s fun s iss =>
    let s := iss.slices.foldl (fun s i =>
      match (s.crew iss.crew).handler with
      | some h =>
        if h.slice = i then eretSlice s iss i else s.raise iss.crew i (iss.trap 0x01 iss.word.toNat 0)
      | none => s.raise iss.crew i (iss.trap 0x01 iss.word.toNat 0)) s
    s.settle iss.crew

end Sys2Proof.Machine
end

