-- ==== Sys2Proof/Machine/Cross.lean ====
section
/-! DEFINITION. The cross-slice instructions of the group QL: SHFL, VOTE, MATCH, REDUX and SCAN (spec 03 R70, R74; 05 R118,
R119; 24 R380, R381; 25 R404, R405, R416; 26 R435, R436). -/

namespace Sys2Proof.Machine

/-- Runs a cross-slice instruction that writes a lane's registers, once every live slice stands at it: every check is made for
every live slice before any slice writes (03 R74). -/
def crossLanes (s : State) (iss : Issue) (d : VOp) (ops : List VOp) (body : Crew → Nat → List Word) : State :=
  crossArrive s iss fun s is =>
    let c := s.crew iss.crew
    crossChecked s iss is (fun i => c.nameFault i ops) fun s =>
      s.modCrew iss.crew fun _ =>
        let r := is.foldl (fun r i =>
          sliceCommit c (some d) none ops i ((c.activeOf i).map fun l => (l, { regs := body c l })) r) c
        r.advance is iss.len

/-- The active lanes of the crew (24 R381). -/
def crewActive (c : Crew) : List Nat := lanes32.filter c.active

/-- SHFL: the source lane is B mod 32, or mod 4 on a service thread; its register holds the value before the SHFL whether or
not it is active (25 R416). -/
def execShfl (f : FmtA) (s : State) : Host.Outcome State Fault Refusal :=
  withIssue s fun s iss =>
    withKonst s iss f.k f.b fun s k =>
      let t := Ty.ofCode .b32 f.p.dt
      let d : VOp := { pos := 0, field := f.d.toNat, n := t.regs }
      let a : VOp := { pos := 1, field := f.a.toNat, n := t.regs }
      let b := srcOf (f.cl == 0) 2 f.b 1 k
      crossLanes s iss d ([d, a] ++ vopsOf [b]) fun c l =>
        let src := b.read c .ui32 l % (if c.isService then 4 else 32)
        (List.range t.regs).map fun i => c.vreg (c.phys a l i) src

/-- MATCH (24 R381). -/
def execMatchEq (f : FmtA) (s : State) : Host.Outcome State Fault Refusal :=
  withIssue s fun s iss =>
    let t := Ty.ofCode .b32 f.p.dt
    let d : VOp := { pos := 0, field := f.d.toNat, n := 1 }
    let a : VOp := { pos := 1, field := f.a.toNat, n := t.regs }
    crossLanes s iss d [d, a] fun c l =>
      [maskOf 32 32 fun m => c.active m && c.vnat a m == c.vnat a l]

/-- VOTE: ALL, ANY or BALLOT over the active lanes (26 R436). -/
def execVote (f : FmtA) (s : State) : Host.Outcome State Fault Refusal :=
  withIssue s fun s iss =>
    crossArrive s iss fun s is =>
      s.modCrew iss.crew fun c =>
        let set := c.exec &&& slicesMask is
        let m := c.pred f.a.toNat &&& set
        let r : Crew :=
          if f.cl = 2 then c.setSreg f.d.toNat (m.setWidth 64)
          else c.setPred f.d.toNat (~~~0#32) (if (if f.cl = 0 then m == set else m != 0) then set else 0)
        r.advance is iss.len

/-! ### REDUX and SCAN (05 R118, R119; 25 R404, R405) -/

/-- The combination of two patterns by an operation: 0 ADD, 1 MIN, 2 MAX, 3 AND, 4 OR, 5 XOR. -/
def combine (op : Nat) (t : Ty) (mode : Rnd) (a b : Nat) : Nat :=
  match t.fmt, op with
  | some m, 0 => (fadd m mode (m.value a) (m.value b)).code
  | some m, 1 => fminmax m false a b
  | some m, _ => fminmax m true a b
  | none, 0 => (a + b) % 2 ^ t.width
  | none, 1 => if t.intVal a ≤ t.intVal b then a else b
  | none, 2 => if t.intVal a ≤ t.intVal b then b else a
  | none, 3 => a &&& b
  | none, 4 => a ||| b
  | none, _ => a ^^^ b

/-- The identity of an operation. -/
def identityOf (op : Nat) (t : Ty) : Nat :=
  match t.fmt, op with
  | some _, 0 => 0
  | some m, 1 => infCode m false
  | some m, _ => infCode m true
  | none, 1 => intMod t.range.2 t.width
  | none, 2 => intMod t.range.1 t.width
  | none, 3 => 2 ^ t.width - 1
  | none, _ => 0

/-- One level of the tree of R118: neighbours combine, an absent one leaves the other. -/
def treeLevel (g : Nat → Nat → Nat) : List (Option Nat) → List (Option Nat)
  | a :: b :: rest =>
    (match a, b with
      | some x, some y => some (g x y)
      | some x, none => some x
      | none, y => y) :: treeLevel g rest
  | l => l

/-- The tree of R118 over 32 lanes, or the identity when every lane is absent; a NaN result is canonical. -/
def treeOf (op : Nat) (t : Ty) (mode : Rnd) (xs : List (Option Nat)) : Nat :=
  let g := combine op t mode
  let r := (treeLevel g (treeLevel g (treeLevel g (treeLevel g (treeLevel g xs))))).headD none
  let x := r.getD (identityOf op t)
  match t.fmt with
  | some m => if m.value x == .nan then m.canon else x
  | none => x

/-- A reduction for each active lane over the active lanes that a test admits. -/
def reduction (f : FmtA) (s : State) (admits : Nat → Nat → Bool) : Host.Outcome State Fault Refusal :=
  withIssue s fun s iss =>
    let t := Ty.ofCode .si32 f.p.dt
    let op := f.b.toNat % 8
    let d : VOp := { pos := 0, field := f.d.toNat, n := t.regs }
    let a : VOp := { pos := 1, field := f.a.toNat, n := t.regs }
    crossLanes s iss d [d, a] fun c l =>
      let xs := lanes32.map fun m => if c.active m && admits l m then some (c.vnat a m % 2 ^ t.width) else none
      wordsOf (treeOf op t (modeOf f) xs) t.regs

/-- REDUX. -/
def execRedux (f : FmtA) (s : State) : Host.Outcome State Fault Refusal := reduction f s fun _ _ => true

/-- SCAN, inclusive or with bit 3 of B exclusive. -/
def execScan (f : FmtA) (s : State) : Host.Outcome State Fault Refusal :=
  reduction f s fun l m => if 8 ≤ f.b.toNat then m < l else m ≤ l

end Sys2Proof.Machine
end

