-- ==== Sys2Proof/Machine/Signals.lean ====
section
/-! DEFINITION. Signal slots: posts to a slot of a party, signal addresses, and the delivery of remote posts (spec 10 R210,
R232 to R235). -/

namespace Sys2Proof.Machine

/-- Adds to a slot and widens its summary range (10 R210, R232). -/
def State.postSlot (s : State) (p slot : Nat) (v : Word) (range : GRange) : State :=
  s.modParty p fun pa =>
    { pa with
      sigs := sset pa.sigs slot (sget pa.sigs slot + v)
      sigSummary := aset pa.sigSummary slot (((aget pa.sigSummary slot).getD .nothing).join range) }

/-- The signal address of a party's slot (10 R232). -/
def sigAddress (la : Launch) (pa : Party) (slot : Nat) : Nat :=
  0xFFFF * 2 ^ 48 + slot % 64 * 2 ^ 42 + la.tag.toNat % 1024 * 2 ^ 32 + pa.index % 2 ^ 32

/-- The signal slots of a launch's parties (12 R267). -/
def Launch.signals (l : Launch) : Nat := natBits l.res.toNat 35 29

/-- The live launch that a signal address names (10 R232). -/
def State.tagged (s : State) (a : Nat) : Option (Nat × Launch) :=
  s.launches.find? fun (_, l) => !l.complete && l.tag.toNat % 1024 = natBits a 41 32

/-- The launch unit delivers a post of a tenant: to a party on a core at once, to a party that is saved or not yet started when it
next issues; a post to a launch, tenant or slot that does not match is dropped (10 R233). -/
def State.deliverPost (s : State) (t a : Nat) (v : Word) (range : GRange) : State :=
  let slot := natBits a 47 42
  let index := natBits a 31 0
  match s.tagged a with
  | none => s
  | some (l, la) =>
    if la.tenant ≠ t || la.signals ≤ slot || la.total ≤ index then s
    else
      match s.findParty l index with
      | none => s.modLaunch l fun x => { x with heldPosts := x.heldPosts ++ [(index, slot, v, range)] }
      | some (p, pa) =>
        match pa.status with
        | .resident | .stopping _ => s.postSlot p slot v range
        | .saved _ => s.modLaunch l fun x => { x with heldPosts := x.heldPosts ++ [(index, slot, v, range)] }
        | .discarded | .retired => s

/-- A post to a signal address: this module's, or one that leaves over the fabric, whose acceptance its poster awaits and which is
lost when it fails (10 R232, R233; 11 R252). -/
def State.post (s : State) (t a : Nat) (v : Word) (range : GRange) (crew : Nat) (op : Option Nat) : State :=
  if natBits a 63 48 = 0xFFFF then s.deliverPost t a v range
  else
    s.request { crew := crew, addr := BitVec.ofNat 64 a, size := 4, store := true, told := false, op := op }
      (.signal (natBits a 63 48) (BitVec.ofNat 64 a) v)

/-- The held posts of a party are added before its crews issue (10 R233). -/
def State.addHeld (s : State) (l p : Nat) : State :=
  let index := (s.party p).index
  let mine := (s.launchRec l).heldPosts.filter fun h => h.1 = index
  let s := mine.foldl (fun s h => s.postSlot p h.2.1 h.2.2.1 h.2.2.2) s
  s.modLaunch l fun x => { x with heldPosts := x.heldPosts.filter fun h => h.1 ≠ index }

end Sys2Proof.Machine
end

