-- ==== Sys2Proof/Machine/Hamper.lean ====
section
/-! DEFINITION. Engine operations after their issue: their accesses at masters, the elements and tiles they move, what a fault does
to them, the collectives, and their retirement (spec 10 R235, R236; 11 R240 to R251). -/

namespace Sys2Proof.Machine

/-! ### Operations and their places -/

/-- Changes an operation in flight. -/
def State.modOp (s : State) (id : Nat) (f : EngineOp → EngineOp) : State :=
  { s with ops := s.ops.map fun o => if o.id = id then f o else o }

/-- A place that an engine reads or writes: a virtual address, a scratchpad byte of an outing member, a byte of an operand slot. -/
inductive EngLoc where
  | mem (va : Nat)
  | scratch (mem off : Nat)
  | slot (slot off : Nat)
  deriving DecidableEq, Repr

/-- The place at a signed distance from a base in a space (11 R240): no carry leaves the slot or member that the base names. What
bits above 23 of a scratchpad base do, the spec does not say: the model ignores them (log 57). -/
def engLoc (space base : Nat) (dist : Int) : EngLoc :=
  match space with
  | 0 => .mem (intMod ((base : Int) + dist) 64)
  | 1 => .scratch (natBits base 23 21) (((natBits base 20 0 : Nat) : Int) + dist).toNat
  | _ => .slot (natBits base 22 16) (((natBits base 15 0 : Nat) : Int) + dist).toNat

/-- Why an engine access does not go through: a PAGE fault, another fault code, a reply that has not come, no route to a die, or a
MOVING page, for whose remap it waits (08 R176; 11 R242, R252, R258). -/
inductive EngFail where
  | page (va : Nat) (write : Bool)
  | code (c : BitVec 8)
  | await (lane : Nat) (va : Nat) (msg : Option Msg)
  | noRoute (die : Nat)
  | moving (pfn : Nat)
  deriving DecidableEq, Repr

/-- The crew in whose name an operation's scratchpad accesses are judged. -/
def EngineOp.asCrew (o : EngineOp) : Crew :=
  { place := match o.party with | some p => .compute p 0 0 | none => .service 0 0, tenant := o.tenant }

/-- Translation of an engine access of `n` bytes (11 R240, R242). -/
def State.engTgt (s : State) (o : EngineOp) (l : EngLoc) (n : Nat) (need : Need) : Except EngFail Tgt :=
  let scratch (a : Nat) : Except EngFail Tgt :=
    match s.scratchTgt o.asCrew a n with
    | .violation => .error (.code 7)
    | t => .ok t
  match l with
  | .slot b off =>
    match o.party with
    | some p => .ok (.scratch (slotAddr p b off) false)
    | none => .error (.code 7)
  | .scratch m off => scratch (m * 2 ^ 21 + off)
  | .mem va =>
    match s.windowAddr o.asCrew va with
    | some a => scratch a
    | none =>
      match s.agentXlate o.tenant va need with
      | .ok t =>
        match s.agentMoving o.tenant va, s.noRoute (.die o.die) t true with
        | some pfn, _ => .error (.moving pfn)
        | none, d => if s.cutOff t then .error (.code 0x14) else match d with | some d => .error (.noRoute d) | none => .ok t
      | .moving pfn => .error (.moving pfn)
      | .link _ => .error (.code 0x14)
      | .page => .error (.page va (need == Need.write))
      | .prot => .error (.code 7)
      | .poison => .error (.code 0x13)
      | .heart => .error (.code 0x17)

/-- The A and D bits that an engine access sets. -/
def State.engTouch (s : State) (o : EngineOp) (l : EngLoc) (write : Bool) : State :=
  match l with
  | .mem va => if (s.windowAddr o.asCrew va).isSome then s else s.agentTouch o.tenant va write
  | _ => s

/-- The response of an operation's request. -/
def State.engReply (s : State) (o : EngineOp) (lane : Nat) : Option (List Byte) :=
  (s.requests.find? fun r => r.op == some o.id && r.lane = lane && !r.store).bind (·.data)

/-- Reads `n` bytes for an operation at their master (09 R209); from another device once the response has come. -/
def State.engRead (s : State) (o : EngineOp) (l : EngLoc) (n lane : Nat) : Except EngFail (State × List Byte) :=
  match s.engTgt o l n .read with
  | .error e => .error e
  | .ok (.fabric ep page off) =>
    let va := match l with | .mem va => va | _ => 0
    match s.engReply o lane with
    | some bs =>
      .ok ({ s with requests := s.requests.filter fun r => !(r.op == some o.id && r.lane = lane && !r.store) }, bs)
    | none => .error (.await lane va (some (.stodorRead ep page off n 0)))
  | .ok t => .ok ((s.engTouch o l false).readTgt .io t n true)

/-- Sends a request of an operation. -/
def State.engRequest (s : State) (o : EngineOp) (lane va size : Nat) (store : Bool) (msg : Nat → Msg) : State :=
  s.request { crew := o.crew, lane := lane, addr := BitVec.ofNat 64 va, size := size, store := store, op := some o.id } msg

/-- Writes bytes for an operation at their master; a write to another device awaits its acceptance (11 R252). -/
def State.engWrite (s : State) (o : EngineOp) (l : EngLoc) (bs : List Byte) (lane : Nat) : Except EngFail State :=
  match s.engTgt o l bs.length .write with
  | .error e => .error e
  | .ok (.fabric ep page off) =>
    let va := match l with | .mem va => va | _ => 0
    .ok ((s.engTouch o l true).engRequest o lane va bs.length true (.stodorWrite ep page off bs))
  | .ok (.paged pfn _ off _) => .ok ((s.engTouch o l true).masterWrite o.die pfn off bs)
  | .ok t => .ok ((s.engTouch o l true).writeTgt .io t bs true)

/-- Adds a value to a table element at its home (11 R244). -/
def State.engAdd (s : State) (o : EngineOp) (l : EngLoc) (t : Ty) (bs : List Byte) (lane : Nat) : Except EngFail State :=
  let n := t.width / 8
  match s.engTgt o l n .write with
  | .error e => .error e
  | .ok (.fabric ep page off) =>
    let va := match l with | .mem va => va | _ => 0
    .ok ((s.engTouch o l true).engRequest o lane va n true (.stodorAtomic ep page off 0 0 (linkTy t) bs))
  | .ok tgt =>
    match (AtomKind.rmw 0 t).unsupported tgt with
    | some c => .error (.code (BitVec.ofNat 8 c))
    | none =>
      let (s, old) := (s.engTouch o l true).readTgt .io tgt n true
      let new := leBytes (atomNew 0 t (leNat old) (leNat bs)) n
      match tgt with
      | .paged pfn _ off _ => .ok (s.masterWrite o.die pfn off new)
      | t => .ok (s.writeTgt .io t new true)

/-! ### Descriptors -/

/-- A double-word of a descriptor. -/
def EngineOp.word64 (o : EngineOp) (i : Nat) : Nat := (o.desc.getD i 0).toNat

/-- Extent of dimension `d` of a COPY (11 R240). -/
def copyExt (w : Nat → Nat) (d : Nat) : Nat :=
  if d < 8 then natBits (w (3 + d / 4)) (16 * (d % 4) + 15) (16 * (d % 4)) else natBits (w 5) (16 * (d - 8) + 15) (16 * (d - 8))

/-- Product of the extents of dimensions `lo` to below `hi`. -/
def extProd (w : Nat → Nat) (lo hi : Nat) : Nat := ((List.range (hi - lo)).map fun i => copyExt w (lo + i)).foldl (· * ·) 1

/-- Source stride of a dimension of a COPY, in elements. -/
def copySstr (w : Nat → Nat) (d : Nat) : Int := natSext (natBits (w (6 + d)) 31 0) 32
/-- Destination stride of a dimension of a COPY, in elements. -/
def copyDstr (w : Nat → Nat) (d : Nat) : Int := natSext (natBits (w (6 + d)) 63 32) 32

/-- The source and destination distances of element `e` in index order, dimension 0 fastest, in elements. -/
def copyDist (w : Nat → Nat) (ndim e : Nat) : Int × Int :=
  ((List.range ndim).foldl (fun (a : Nat × Int × Int) d =>
    let i := a.1 % max 1 (copyExt w d)
    (a.1 / max 1 (copyExt w d), a.2.1 + i * copySstr w d, a.2.2 + i * copyDstr w d)) (e, 0, 0)).2

/-- A span of bytes of virtual memory, the whole address space where it would leave 64 bits, nothing where it is empty. -/
def spanOf (lo hi : Int) : GRange :=
  if hi ≤ lo then .nothing
  else if lo < 0 || (2 ^ 64 : Nat) < hi then .whole
  else .span lo.toNat hi.toNat

/-- The least and the greatest distance that the first `n` dimensions of an index space reach, in bytes, the greatest past its
element. -/
def copySpan (w : Nat → Nat) (str : Nat → Int) (n : Nat) : Int × Int :=
  let e : Nat := 2 ^ natBits (w 5) 38 36
  let (lo, hi) := (List.range n).foldl (fun (a : Int × Int) d =>
    let x := str d * (copyExt w d - 1 : Nat)
    if x < 0 then (a.1 + x, a.2) else (a.1, a.2 + x)) (0, 0)
  (lo * e, hi * e + e)

/-- The rows of a GATHER or SCATTER at XBASE, from one row to below another. -/
def rowSpan (w : Nat → Nat) (lo hi : Nat) : GRange :=
  let x := natBits (w 6) 31 0
  if hi ≤ lo || natBits (w 6) 51 50 ≠ 0 then .nothing
  else spanOf (w 1 + lo * x : Nat) (w 1 + (hi - 1) * x + natBits (w 4) 31 0 : Nat)

/-- The span of a list of writes from a base. -/
def writesSpan (base : Nat) (ws : List LaneWrite) : GRange :=
  ws.foldl (fun (a : GRange) x =>
    let lo := base + x.addr.toNat
    a.join (spanOf lo ((lo + x.data.length : Nat)))) .nothing

/-- Bytes of a collective's element: 2 for BF16, else 4 (11 R246). -/
def collSize (ty : Nat) : Nat := if ty = 1 then 2 else 4

/-- Group table entry `g`, double-word `i` (11 R254). -/
def State.groupWord (s : State) (g i : Nat) : Nat := (sget s.csr (0x400 + 4 * g + i)).toNat

/-- Member count of a group. -/
def State.members (s : State) (g : Nat) : Nat := natBits (s.groupWord g 0) 28 16
/-- This module's rank in a group. -/
def State.rank (s : State) (g : Nat) : Nat := natBits (s.groupWord g 0) 44 32

/-- The group entry is valid and belongs to a tenant. -/
def State.groupOk (s : State) (g t : Nat) : Bool :=
  let w := s.groupWord g 0
  natBit w 0 && natBits w 7 4 = (s.tenant t).number

/-- KIND, COUNT, TYPE, ROP and ROOT of a collective's descriptor. -/
def collKey (w : Nat → Nat) : Nat × Nat × Nat × Nat × Nat :=
  (natBits (w 0) 2 0, natBits (w 0) 63 32, natBits (w 0) 7 5, natBits (w 0) 4 3, natBits (w 3) 47 32)

/-- Destination elements of a collective (11 R246). -/
def collElems (n : Nat) (w : Nat → Nat) : Nat :=
  let (kind, count, _) := collKey w
  if kind = 0 then n * count else count

/-- Elements that a member reads as its contribution. -/
def collSource (n rank : Nat) (w : Nat → Nat) : Nat :=
  let (kind, count, _, _, root) := collKey w
  match kind with
  | 1 => n * count
  | 3 => if rank = root then count else 0
  | _ => count

/-- The elements of an operation, and of one of its tiles. -/
def State.opShape (s : State) (o : EngineOp) : Nat × Nat :=
  let w := o.word64
  match o.kind with
  | .copy =>
    let ndim := natBits (w 5) 35 32
    (extProd w 0 ndim, extProd w 0 (natBits (w 5) 43 40))
  | .gather | .scatter _ =>
    let words := natBits (w 4) 31 0 / 4
    let count := natBits (w 4) 63 32
    let trows := natBits (w 6) 47 32
    (count * words, (if trows = 0 then count else trows) * words)
  | .coll =>
    let n := collElems (s.members o.group) w
    let tile := natBits (w 3) 31 0
    (n, if tile = 0 then n else tile)
  | .mstore | .putsig => (o.writes.length, max 1 o.writes.length)

/-- The tiles of an operation; a MSTORE or PUTSIG with no lane to write is one empty tile. -/
def State.opTiles (s : State) (o : EngineOp) : Nat :=
  let (n, t) := s.opShape o
  match o.kind with
  | .mstore | .putsig => 1
  | _ => if t = 0 then 0 else ceilDiv n t

/-- The destination range of a tile, the guarded range of its post (09 R195, R209): the table of a SCATTER is that of each of its
tiles. -/
def State.tileRange (s : State) (o : EngineOp) (k : Nat) : GRange :=
  let w := o.word64
  let (total, per) := s.opShape o
  match o.dst, o.kind with
  | .nothing, _ => .nothing
  | _, .copy =>
    let n : Nat := 2 ^ natBits (w 5) 38 36
    let first : Int := w 1 + (n : Int) * (copyDist w (natBits (w 5) 35 32) (k * per)).2
    let (lo, hi) := copySpan w (copyDstr w) (natBits (w 5) 43 40)
    spanOf (first + lo) (first + hi)
  | _, .gather =>
    let words := max 1 (natBits (w 4) 31 0 / 4)
    rowSpan w (k * per / words) (min total ((k + 1) * per) / words)
  | _, .coll =>
    let size := collSize (natBits (w 0) 7 5)
    spanOf (w 2 + k * per * size : Nat) (w 2 + min total ((k + 1) * per) * size : Nat)
  | r, .scatter _ | r, .mstore | r, .putsig => r

/-- SIGEN and the signal address of an operation. -/
def EngineOp.signal (o : EngineOp) : Option Nat :=
  let w := o.word64
  match o.kind with
  | .copy => if natBit (w 5) 39 then some (w 2) else none
  | .gather | .scatter _ => if natBit (w 6) 52 then some (w 2) else none
  | .coll => if natBit (w 0) 9 then some (w 4) else none
  | .mstore | .putsig => none

/-! ### One element -/

/-- One element of a COPY (11 R241). -/
def State.copyElem (s : State) (o : EngineOp) (e : Nat) : Except EngFail State :=
  let w := o.word64
  let n : Nat := 2 ^ natBits (w 5) 38 36
  let (ds, dd) := copyDist w (natBits (w 5) 35 32) e
  match s.engRead o (engLoc (natBits (w 5) 45 44) (w 0) ((n : Int) * ds)) n e with
  | .error x => .error x
  | .ok (s, bs) => s.engWrite o (engLoc (natBits (w 5) 47 46) (w 1) ((n : Int) * dd)) bs e

/-- The index of a row of a GATHER or SCATTER: read once, and then the operation's own (11 R244). -/
def State.rowIndex (s : State) (o : EngineOp) (j lane : Nat) : Except EngFail (State × Nat) :=
  match o.row.filter fun x => x.1 = j with
  | some (_, idx) => .ok (s, idx)
  | none =>
    let w := o.word64
    match s.engRead o (engLoc (natBits (w 6) 49 48) (w 3) (4 * j : Nat)) 4 lane with
    | .error x => .error x
    | .ok (s, ix) => .ok (s.modOp o.id fun o => { o with row := some (j, leNat ix) }, leNat ix)

/-- One word of a row of a GATHER or SCATTER (11 R244). -/
def State.rowElem (s : State) (o : EngineOp) (e : Nat) : Except EngFail State :=
  let w := o.word64
  let words := natBits (w 4) 31 0 / 4
  let j := e / max 1 words
  let at_ := 4 * (e % max 1 words)
  match s.rowIndex o j (2 * e) with
  | .error x => .error x
  | .ok (s, idx) =>
    let here := idx < natBits (w 7) 31 0
    let table := EngLoc.mem ((w 0 + idx * w 5 + at_) % 2 ^ 64)
    let row := engLoc (natBits (w 6) 51 50) (w 1) ((j * natBits (w 6) 31 0 + at_ : Nat))
    match o.kind with
    | .scatter op =>
      if !here then .ok s
      else
        match s.engRead o row 4 (2 * e + 1) with
        | .error x => .error x
        | .ok (s, bs) =>
          match op with
          | 0 => s.engWrite o table bs (2 * e)
          | 1 => s.engAdd o table .f32 bs (2 * e)
          | _ =>
            match s.engAdd o table .bf16 (bs.take 2) (2 * e) with
            | .error x => .error x
            | .ok s => s.engAdd o (EngLoc.mem ((w 0 + idx * w 5 + at_ + 2) % 2 ^ 64)) .bf16 (bs.drop 2) (2 * e)
    | _ =>
      if !here then s.engWrite o row [0, 0, 0, 0] (2 * e)
      else
        match s.engRead o table 4 (2 * e + 1) with
        | .error x => .error x
        | .ok (s, bs) => s.engWrite o row bs (2 * e)

/-- The type of a collective's elements. -/
def collTy (ty : Nat) : Ty :=
  match ty with
  | 0 => .f32
  | 1 => .bf16
  | _ => .si32

/-- Element `i` of a contribution. -/
def CollPart.elem (p : CollPart) (size i : Nat) : Nat := leNat ((p.data.drop (i * size)).take size)

/-- The contributions of a collective by rank. -/
def State.partsOf (s : State) (g seq : Nat) : List CollPart := s.parts.filter fun p => p.group = g && p.seq = seq

/-- Element `i` of a collective's result at this module; reductions combine in rank order (11 R246; log 27). -/
def State.collResult (s : State) (o : EngineOp) (i : Nat) : Nat :=
  let w := o.word64
  let (kind, count, ty, rop, root) := collKey w
  let t := collTy ty
  let size := collSize ty
  let n := s.members o.group
  let part (r : Nat) : CollPart :=
    ((s.partsOf o.group o.seq).find? fun p => p.rank = r).getD { group := 0, seq := 0, rank := 0, desc := [], data := [] }
  let reduce (j : Nat) : Nat :=
    match (List.range n).map fun r => (part r).elem size j with
    | [] => 0
    | x :: xs => xs.foldl (atomNew rop t) x
  match kind with
  | 0 => (part (i / max 1 count)).elem size (i % max 1 count)
  | 1 => reduce (s.rank o.group * count + i)
  | 2 => reduce i
  | _ => (part root).elem size i

/-- One element of a collective's destination. -/
def State.collElem (s : State) (o : EngineOp) (e : Nat) : Except EngFail State :=
  let w := o.word64
  let size := collSize (natBits (w 0) 7 5)
  s.engWrite o (.mem ((w 2 + e * size) % 2 ^ 64)) (leBytes (s.collResult o e) size) e

/-- The context and the address of bytes of this module's window of a group, where they lie in range (11 R249, R254). -/
def State.windowAt (s : State) (g off n : Nat) : Option (Nat × Nat) :=
  if s.groupWord g 2 < off + n then none
  else
    (s.tenants.find? fun x => x.2.number = natBits (s.groupWord g 0) 7 4).map fun x => (x.1, (s.groupWord g 1 + off) % 2 ^ 64)

/-- A write into this module's group window, which drops what it cannot take (11 R249; 24 R387). -/
def State.windowWrite (s : State) (g off die : Nat) (bs : List Byte) : State :=
  match s.windowAt g off bs.length with
  | none => s
  | some (k, va) => (s.agentStore die k va bs).getD (s.agentFail k va)

/-- One lane's write of an MSTORE or a PUTSIG. A slice of a PUTSIG that has lost a write makes no more (log 71). -/
def State.laneElem (s : State) (o : EngineOp) (e : Nat) : Except EngFail State :=
  match o.writes[e]? with
  | none => .ok s
  | some x =>
    match o.kind with
    | .mstore =>
      if (s.hops o.die 4).isNone then .error (.noRoute 4)
      else
        let s := { s with met := none }.windowWrite o.group x.addr.toNat o.die x.data
        match s.met with
        | some (.moving pfn) => .error (.moving pfn)
        | some (.noRoute d) => .error (.noRoute d)
        | some (.away _) | none => .ok (s.engRequest o x.slice x.addr.toNat x.data.length true (.mwrite o.group x.addr.toNat x.data))
    | _ => if o.lost.any fun y => y.1 = x.slice then .ok s else s.engWrite o (.mem x.addr.toNat) x.data x.slice

/-- One element of an operation. -/
def State.opElem (s : State) (o : EngineOp) (e : Nat) : Except EngFail State :=
  match o.kind with
  | .copy => s.copyElem o e
  | .gather | .scatter _ => s.rowElem o e
  | .coll => s.collElem o e
  | .mstore | .putsig => s.laneElem o e

/-! ### Tiles -/

/-- What an element needs first: the index of its row (11 R244). -/
def State.opPrep (s : State) (o : EngineOp) (e : Nat) : Except EngFail State :=
  match o.kind with
  | .gather | .scatter _ =>
    match s.rowIndex o (e / max 1 (natBits (o.word64 4) 31 0 / 4)) (2 * e) with
    | .ok (s, _) => .ok s
    | .error x => .error x
  | .copy | .coll | .mstore | .putsig => .ok s

/-- An operation as it stands now. -/
def State.opNow (s : State) (o : EngineOp) : EngineOp := (s.ops.find? fun x => x.id = o.id).getD o

/-- Moves elements from `e`, at most `n` of them: the state, the next element, and what stopped it. -/
def moveElems (s : State) (o : EngineOp) : Nat → Nat → State × Nat × Option EngFail
  | 0, e => (s, e, none)
  | n + 1, e =>
    match s.opPrep (s.opNow o) e with
    | .error x => (s, e, some x)
    | .ok s =>
      match s.opElem (s.opNow o) e with
      | .ok s => moveElems s o n (e + 1)
      | .error x => (s, e, some x)

/-- Moves what is left of the operation's next tile. -/
def State.moveTile (s : State) (o : EngineOp) : State × Nat × Option EngFail :=
  let (total, per) := s.opShape o
  moveElems s o (min total ((o.tiles + 1) * per) - o.elems) o.elems

/-- The operation has requests that are not answered. -/
def State.opAwaits (s : State) (o : EngineOp) : Bool := s.requests.any fun r => r.op == some o.id && r.waits

/-- The operation has reads or writes that are not answered, those of one slice for a PUTSIG's. -/
def State.opWrites (s : State) (o : EngineOp) (slice : Option Nat) : Bool :=
  s.requests.any fun r => r.op == some o.id && r.told && r.waits && (slice.isNone || slice == some r.lane)

/-- The slices of a PUTSIG that post next: every write of the slice has been made and accepted, and none has failed, whatever becomes
of the other slices of its gang (11 R250; log 71). -/
def State.postSlices (s : State) (o : EngineOp) : List Nat :=
  slices8.filter fun i =>
    o.kind == EngKind.putsig && o.writes.any (fun x => x.slice = i) && (o.writes.drop o.elems).all (fun x => x.slice ≠ i)
      && !o.posted.contains i && o.lost.all (fun x => x.1 ≠ i) && !s.opWrites o (some i)

/-- The operation's tiles that have moved may be posted, or slices of a PUTSIG. -/
def State.postDue (s : State) (o : EngineOp) : Bool :=
  match o.kind with
  | .putsig => !(s.postSlices o).isEmpty
  | _ => decide (o.posts < o.tiles) && !s.opWrites o none

/-- Posts a tile once every write has arrived, a release over the tile's destination range, or the slices of a PUTSIG, over what each
has written (09 R209; 10 R235; 11 R250). -/
def State.postTile (s : State) (o : EngineOp) : State :=
  if !s.postDue o then s
  else
    match o.kind, o.signal with
    | .putsig, _ =>
      let is := s.postSlices o
      let span (i : Nat) : GRange := writesSpan 0 (o.writes.filter fun x => x.slice = i)
      let s := is.foldl (fun s i => s.post o.tenant (o.word64 1) 1 (span i) o.crew (some o.id)) s
      s.modOp o.id fun o => { o with posted := o.posted ++ is }
    | _, some a =>
      (s.post o.tenant a 1 (s.tileRange o o.posts) o.crew (some o.id)).modOp o.id fun o => { o with posts := o.posts + 1 }
    | _, none => s.modOp o.id fun o => { o with posts := o.tiles }

/-- Nothing of the operation is left but its retirement. -/
def State.opOver (s : State) (o : EngineOp) : Bool :=
  !s.opAwaits o && (match o.kind with | .putsig => true | _ => decide (o.tiles ≤ o.posts))

/-- Every earlier operation of its class by its crew has retired (10 R236). -/
def State.oldest (s : State) (o : EngineOp) : Bool := !s.ops.any fun x => x.crew = o.crew && x.cls == o.cls && x.id < o.id

/-- The results of a collective stand ready at this module. -/
def State.collReady (s : State) (o : EngineOp) : Bool :=
  !(o.kind == EngKind.coll) ||
    ((sget s.groupRun o.group).toNat = o.seq && (s.partsOf o.group o.seq).length = s.members o.group
      && (s.partsOf o.group o.seq).all fun p =>
        p.got = collSource (s.members o.group) p.rank o.word64 * collSize (natBits (o.word64 0) 7 5))

/-- What an operation may do next. -/
inductive OpNext where
  | nothing
  | tile
  | fault
  | retire
  deriving DecidableEq, Repr

/-- The drop of an operation's issue still waits for a remap of a page, before the operation's first access (07 R445; 22 R347). -/
def State.opLate (s : State) (o : EngineOp) : Bool :=
  o.after.any fun pfn => (s.page pfn).drops.any fun x => x.die = o.die && x.core = o.core

/-- The operation has waited 100 µs for a route to a die (11 R258). -/
def State.stallOver (s : State) (o : EngineOp) (d : Nat) : Bool :=
  o.stall.any fun x => x.1 = d && x.2 + 100 * Config.usec ≤ s.time

/-- What an operation in flight may do next. -/
def State.opNext (s : State) (o : EngineOp) : OpNext :=
  match o.status with
  | .stopped => if o.kind == EngKind.putsig && s.postDue o then .tile else .nothing
  | .failed _ => if s.oldest o then .retire else .nothing
  | .running =>
    if s.postDue o then .tile
    else if s.opTiles o ≤ o.tiles then (if s.oldest o && s.opOver o then .retire else .nothing)
    else if o.posts < o.tiles || !s.collReady o || s.opLate o then .nothing
    else
      match s.moveTile o with
      | (_, _, some (.page _ _)) | (_, _, some (.code _)) => .fault
      | (_, _, some (.await lane _ _)) =>
        if s.requests.any fun r => r.op == some o.id && r.lane = lane && !r.store then .nothing else .tile
      | (_, e, some (.noRoute d)) =>
        if o.elems < e || o.stall.all fun x => x.1 ≠ d then .tile else if s.stallOver o d then .fault else .nothing
      | (_, _, some (.moving _)) => if s.waits (.tilePost o.id) then .nothing else .tile
      | (_, _, none) => .tile

/-- The tile's elements move and its count is posted; where a read on another device is met, its request is sent; a MOVING page is
waited for in its queue (08 R176). -/
def State.runTile (s : State) (o : EngineOp) : State :=
  if s.postDue o then s.postTile o
  else
    match s.moveTile o with
    | (s, e, none) =>
      let s := s.modOp o.id fun o => { o with elems := e, tiles := o.tiles + 1, stall := none }
      match s.ops.find? fun x => x.id = o.id with
      | some o => s.postTile o
      | none => s
    | (s, e, some (.noRoute d)) => s.modOp o.id fun o => { o with elems := e, stall := some (d, s.time) }
    | (s, e, some (.moving pfn)) => (s.modOp o.id fun o => { o with elems := e, stall := none }).joinQueue pfn (.agent (.tilePost o.id))
    | (s, e, some (.await lane va msg)) =>
      let s := s.modOp o.id fun o => { o with elems := e, stall := none }
      match msg with
      | some (.stodorRead ep page off n _) => s.engRequest o lane va n false (.stodorRead ep page off n)
      | _ => s
    | (s, e, some _) => s.modOp o.id fun o => { o with elems := e }

/-- The words of an engine operation's fault record (08 R185, R187; log 28). -/
def State.opFaultWords (s : State) (o : EngineOp) (va : Nat) (write : Bool) : List DWord :=
  s.faultWords (s.crew o.crew) o.slice 0x06 (if write then Access.engineWrite else Access.engineRead).code true va o.pc.toNat
    o.lanes o.word.toNat (va % 2 ^ 56)

/-- A PAGE fault stops an operation at its access and appends a record (11 R242). -/
def State.stopOp (s : State) (o : EngineOp) (e va : Nat) (write : Bool) : State :=
  let s := (s.agentFail o.tenant va).modOp o.id fun o => { o with elems := e, status := .stopped, stall := none }
  s.appendFault o.tenant { target := .engine o.id, words := s.opFaultWords o va write }

/-- Another fault at an element ends an operation in error; of a PUTSIG it takes the post of the element's slice alone, and the
operation goes on with the other slices (11 R242, R250; log 71). -/
def EngineOp.failAt (o : EngineOp) (e : Nat) (c : BitVec 8) : EngineOp :=
  match o.kind, o.writes[e]? with
  | .putsig, some x => { o with elems := e, status := .running, stall := none, lost := o.lost ++ [(x.slice, c)] }
  | _, _ => { o with elems := e, status := .failed c, stall := none }

/-- An access that faults: a PAGE fault stops the operation, every other fault, a route that has not come among them, is an error of it
(11 R242, R258). -/
def State.opFault (s : State) (o : EngineOp) : State :=
  match s.moveTile o with
  | (s, e, some (.page va write)) => s.stopOp o e va write
  | (s, e, some (.code c)) => s.modOp o.id fun o => o.failAt e c
  | (s, e, some (.noRoute _)) => s.modOp o.id fun o => o.failAt e 0x14
  | _ => s

/-- Lowers a counter of a class. -/
def Counters.lower (c : Counters) (k : EngClass) : Counters :=
  match k with
  | .copy => { c with copy := c.copy - 1 }
  | .gather => { c with gather := c.gather - 1 }
  | .matrix => { c with matrix := c.matrix - 1 }
  | .coll => { c with coll := c.coll - 1 }

/-- Raises a counter of a class. -/
def Counters.bump (c : Counters) (k : EngClass) : Counters :=
  match k with
  | .copy => { c with copy := c.copy + 1 }
  | .gather => { c with gather := c.gather + 1 }
  | .matrix => { c with matrix := c.matrix + 1 }
  | .coll => { c with coll := c.coll + 1 }

/-- An operation retires: its counter falls, its destination is left for a WAITCNT to observe, its error to report (10 R236, R237;
11 R242); a collective's group turns to the next (11 R254). -/
def State.retireOp (s : State) (o : EngineOp) : State :=
  let s := { s with
    ops := s.ops.filter fun x => x.id ≠ o.id
    requests := s.requests.filter fun r => r.op != some o.id }
  let s : State :=
    match o.kind with
    | .coll =>
      { s with
        groupRun := sset s.groupRun o.group (BitVec.ofNat 32 (max (o.seq + 1) (sget s.groupRun o.group).toNat))
        parts := s.parts.filter fun p => !(p.group = o.group && p.seq = o.seq) }
    | _ => s
  s.modCrew o.crew fun c =>
    { c with
      cnt := c.cnt.lower o.cls
      unobserved := c.unobserved ++ [(o.cls, o.dst)]
      failed :=
        match o.status with
        | .failed x => c.failed ++ [(o.cls, x)]
        | _ => match o.lost with | x :: _ => c.failed ++ [(o.cls, x.2)] | [] => c.failed }

/-! ### Collectives (11 R245 to R247) -/

/-- The contribution of this module to a collective: its source elements (11 R246). -/
def collGather (s : State) (o : EngineOp) (size : Nat) : Nat → Nat → Except EngFail (State × List Byte)
  | 0, _ => .ok (s, [])
  | n + 1, e =>
    match s.engRead o (.mem ((o.word64 1 + e * size) % 2 ^ 64)) size e with
    | .error x => .error x
    | .ok (s, bs) =>
      match collGather s o size n (e + 1) with
      | .error x => .error x
      | .ok (s, rest) => .ok (s, bs ++ rest)

/-- The operation whose turn it is on a group. -/
def State.collTurn (s : State) (g : Nat) : Option EngineOp :=
  s.ops.find? fun o => o.kind == EngKind.coll && o.group = g && o.seq = (sget s.groupRun g).toNat && o.status == .running

/-- This module's contribution is still to be sent. -/
def State.collUnsent (s : State) (o : EngineOp) : Bool :=
  !(s.partsOf o.group o.seq).any fun p => p.rank = s.rank o.group

/-- The members of a collective disagree (11 R247). -/
def State.collDisagree (s : State) (o : EngineOp) : Bool :=
  (s.partsOf o.group o.seq).any fun p => collKey (fun i => (p.desc.getD i 0).toNat) != collKey o.word64

/-- The pieces of a contribution as it travels, of at most four flits each, with their offsets; an empty contribution is one piece
that carries the descriptor alone (11 R252). -/
def cdataPieces (data : List Byte) : List (Nat × List Byte) :=
  (List.range (max 1 (ceilDiv data.length 256))).map fun i => (256 * i, (data.drop (256 * i)).take 256)

/-- Where the list that a group's entry names holds the endpoints of the other members (11 R254). -/
def State.otherMembers (s : State) (g : Nat) : List Nat :=
  ((List.range (s.members g)).filter (· ≠ s.rank g)).map (s.groupWord g 3 + 2 * ·)

/-- This module's contribution joins the collective and is sent to every other member, whose acceptance of each piece it awaits
(11 R246, R252). -/
def State.sendPart (s : State) (o : EngineOp) (data : List Byte) : State :=
  let rank := s.rank o.group
  let p : CollPart := { group := o.group, seq := o.seq, rank := rank, desc := o.desc, data := data, got := data.length }
  let s := { s with parts := s.parts ++ [p] }.modOp o.id fun o => { o with stall := none }
  (s.otherMembers o.group).foldl (fun s at_ =>
    let ep := s.physNat at_ 2
    (cdataPieces data).foldl (fun s x =>
      s.engRequest o x.1 0 x.2.length true (.cdata ep o.group o.seq rank x.1 o.desc x.2)) (s.usePhys at_)) s

/-- What a collective's turn meets as it reads the contribution: among it, that the links cannot be reached (11 R258). -/
def State.collTake (s : State) (o : EngineOp) : Except EngFail (State × List Byte) :=
  let size := collSize (natBits (o.word64 0) 7 5)
  match collGather s o size (collSource (s.members o.group) (s.rank o.group) o.word64) 0 with
  | .ok x => if (s.hops o.die 4).isNone then .error (.noRoute 4) else .ok x
  | .error x => .error x

/-- A collective's turn: the contribution is read and sent to the members with the descriptor, and then a disagreement ends it in
error (11 R247). -/
def State.runCollective (s : State) (g : Nat) : State :=
  match s.collTurn g with
  | none => s
  | some o =>
    if s.collUnsent o then
      match s.collTake o with
      | .ok (s, data) => s.sendPart o data
      | .error (.page va write) => s.stopOp o o.elems va write
      | .error (.code c) => s.modOp o.id fun o => { o with status := .failed c }
      | .error (.moving pfn) => (s.modOp o.id fun o => { o with stall := none }).joinQueue pfn (.agent (.collectiveRun g))
      | .error (.noRoute d) =>
        s.modOp o.id fun o =>
          if s.stallOver o d then { o with status := .failed 0x14 }
          else if o.stall.any fun x => x.1 = d then o else { o with stall := some (d, s.time) }
      | .error (.await lane va msg) =>
        if s.requests.any fun r => r.op == some o.id && r.lane = lane then s
        else
          match msg with
          | some (.stodorRead ep page off n _) =>
            (s.modOp o.id fun o => { o with stall := none }).engRequest o lane va n false (.stodorRead ep page off n)
          | _ => s
    else if s.collDisagree o then s.modOp o.id fun o => { o with status := .failed 0x15 }
    else s

/-- A group's collective has something to do at this module by itself. -/
def State.collDue (s : State) (o : EngineOp) : Bool :=
  (s.collTurn o.group).any (fun x => x.id = o.id)
    && (if s.collUnsent o then
          !s.opLate o && !s.waits (.collectiveRun o.group) && !s.requests.any fun r => r.op == some o.id && r.waits
        else s.collDisagree o)
    && o.stall.all fun x => decide (x.2 + 100 * Config.usec ≤ s.time) || (s.hops o.die x.1).isSome

end Sys2Proof.Machine
end

