-- ==== Sys2Proof/Machine/Remap.lean ====
section
/-! DEFINITION. Remaps: which frames are free, what a request to place a page asks for, the start, the end and the data of a
remap, and the requests that waited for it (spec 07 R160 to R168; 08 R174 to R179; 16 R314 to R316). -/

namespace Sys2Proof.Machine

/-! ### Frames -/

/-- The frames that a page occupies now: its master's and its replicas', as addresses. -/
def PageRec.frames (r : PageRec) : List Nat :=
  (match r.held.frameAddr 0 with | some a => [a] | none => []) ++ r.replicas.map fun x => x.addr 0

/-- The frames that a remap will occupy: its goal's, and the far frame of a NEAR master that moves at its replication. -/
def goalFrames (pfn : Nat) (g : RemapGoal) (far : Option (Nat × Nat)) : List Nat :=
  (match g with
   | .near d c f | .replica d c f => [sramAddr d c (f * 4096)]
   | .far d sl f => [farAddr d sl f 0]
   | .dropReplica _ _ | .home | .poison => [])
    ++ (match far with | some (sl, f) => [farAddr (homeStack pfn) sl f 0] | none => [])

/-- The remaps of a page that have not ended, the running one first. -/
def PageRec.pending (r : PageRec) : List (RemapGoal × Option (Nat × Nat)) :=
  (match r.run with | some x => [(x.goal, x.far)] | none => []) ++ r.queue.map fun q => (q.goal, q.far)

/-- The frame of a master that a cut has moved (08 R178). -/
def cutMove (pfn : Nat) (run : Option RemapRun) : List Nat :=
  match run.bind (·.moved) with
  | some (sl, f) => [farAddr (homeStack pfn) sl f 0]
  | none => []

/-- A remap that runs or has been asked for will occupy the frame. -/
def State.claimed (s : State) (a : Nat) : Bool :=
  s.pages.any fun (pfn, r) => (cutMove pfn r.run).contains a || r.pending.any fun (g, far) => (goalFrames pfn g far).contains a

/-- The frame is quarantined (08 R178). -/
def State.barred (s : State) (a : Nat) : Bool := s.quarantine.any fun q => q.2 = a

/-- A frame that no page occupies at this moment. -/
def State.frameEmpty (s : State) (a : Nat) : Bool := !s.pages.any fun (_, r) => r.frames.contains a

/-- No page occupies the frame and none is on its way to it. -/
def State.frameClear (s : State) (a : Nat) : Bool := s.frameEmpty a && !s.claimed a

/-! ### The placement of a page once every remap asked for has ended -/

/-- A page's placement and the cores that hold its replicas. -/
structure Proj where
  place : Placement
  reps : List (Nat × Nat × Nat)
  deriving DecidableEq, Repr

/-- The placement in a near frame. -/
def nearPlace (d c f : Nat) (sect : BitVec 16) : Placement := { res := .near, mdie := d, munit := c, mframe := f, sect := sect }

/-- The placement in a slice's frame, as a FAR page's or a SHARED page's master. -/
def slicePlace (res : Res) (d sl f : Nat) (sect : BitVec 16) : Placement :=
  { res := res, mdie := d, munit := if f < 1024 then 32 + sl else 48 + sl, mframe := f % 1024, sect := sect }

/-- The placement when the last replica has gone: RES follows the master (07 R160). -/
def lastReplica (p : Placement) : Placement := if p.munit = 0 then {} else { p with res := .far }

/-- What a remap makes of a placement (07 R160). -/
def projStep (pfn : Nat) (p : Proj) (g : RemapGoal × Option (Nat × Nat)) : Proj :=
  match g with
  | (.near d c f, _) => { place := nearPlace d c f (if p.place.res = .home then 0xFFFF else p.place.sect), reps := [] }
  | (.far d sl f, _) => { place := slicePlace .far d sl f (if p.place.res = .home then 0xFFFF else p.place.sect), reps := [] }
  | (.replica d c f, far) =>
    match p.place.res with
    | .near =>
      let (sl, ff) := far.getD (0, 0)
      { place := slicePlace .shared (homeStack pfn) sl ff p.place.sect
        reps := [(p.place.mdie, p.place.munit, p.place.mframe), (d, c, f)] }
    | _ => { place := { p.place with res := .shared }, reps := p.reps ++ [(d, c, f)] }
  | (.dropReplica d c, _) =>
    let reps := p.reps.filter fun r => !(r.1 = d && r.2.1 = c)
    { place := if reps.isEmpty then lastReplica p.place else p.place, reps := reps }
  | (.home, _) => { place := {}, reps := [] }
  | (.poison, _) => { place := { res := .poison }, reps := [] }

/-- The placement of a page once every remap asked for has ended. -/
def State.project (s : State) (pfn : Nat) : Proj :=
  let r := s.page pfn
  r.pending.foldl (projStep pfn) { place := r.held, reps := r.replicas.map fun x => (x.die, x.core, x.frame) }

/-- The page occupies the frame once every remap asked for has ended. -/
def State.staysIn (s : State) (pfn a : Nat) : Bool :=
  let p := s.project pfn
  p.place.frameAddr 0 == some a || p.reps.any fun r => sramAddr r.1 r.2.1 (r.2.2 * 4096) = a

/-- The frame holds no page once every remap asked for has ended, no cut moves a master to it, and it is not quarantined (07 R163, 08
R178). -/
def State.frameFree (s : State) (a : Nat) : Bool :=
  !s.barred a && !s.pages.any fun x => s.staysIn x.1 a || (cutMove x.1 x.2.run).contains a

/-- A free frame that may be taken at once. -/
def State.frameOpen (s : State) (a : Nat) : Bool := s.frameFree a && s.frameClear a

/-- The lowest-numbered far frame that passes a test in the directory slice of a page (07 R163). -/
def lowestFar (pfn : Nat) (test : Nat → Bool) : Option Nat :=
  (List.range 1536).find? fun f => test (farAddr (homeStack pfn) (dirSlice pfn) f 0)

/-! ### Requests -/

/-- Asks for a remap, which waits at the directory behind the page's earlier ones (07 R161). -/
def State.askRemap (s : State) (pfn : Nat) (goal : RemapGoal) (leafPa : Option Nat) (asker : Asker) (far : Option (Nat × Nat) := none) :
    State × Nat :=
  let (s, id) := s.fresh
  (s.modPage pfn fun r =>
    { r with queue := r.queue ++ [{ id := id, goal := goal, leafPa := leafPa, far := far, asker := asker }] }, id)

/-- Asks for the eviction of a page, or of a replica of it, for another change. -/
def State.askEviction (s : State) (pfn : Nat) (goal : RemapGoal) : State := (s.askRemap pfn goal (s.page pfn).mirror .eviction).1

/-- A PINS hold of a party that passes a test protects the page (07 R167). -/
def State.heldBy (s : State) (pfn : Nat) (test : Nat → Party → Bool) : Bool :=
  s.parties.any fun (p, pa) => pa.holds.contains pfn && test p pa

/-- The holds on a page lapse (07 R168). -/
def State.lapseHolds (s : State) (pfn : Nat) : State :=
  { s with parties := s.parties.map fun (k, q) => (k, { q with holds := q.holds.filter fun x => x != pfn }) }

/-- The PIN bit of the leaf that last placed the page (07 R155). -/
def State.mirrorPinned (s : State) (pfn : Nat) : Bool := (s.page pfn).mirror.any fun pa => natBit (s.physNat pa 8) 5

/-- The near frames of a core's shared pool: outside the carve of its resident parties' scratchpad, in steps of 64 KiB, and
outside every reserved quota (02 R29). Parties whose save is complete hold no part of either. -/
def State.onCore (s : State) (d c : Nat) : List (Nat × Party) :=
  s.parties.filter fun (_, q) =>
    q.die = d && q.core = c && (match q.status with | .resident | .stopping _ => true | _ => false)

/-- The carve of a core in 4 KiB frames (02 R29). -/
def State.carveFrames (s : State) (d c : Nat) : Nat :=
  let used := (s.onCore d c).foldl (fun n (_, q) => n + q.scratchSize) 0
  ceilDiv used 65536 * 16

/-- A near frame of a core that lies outside the carve and every reserved quota. -/
def State.inPool (s : State) (d c f : Nat) : Bool :=
  s.carveFrames d c ≤ f && f < 768 && !(s.onCore d c).any fun (_, q) => q.nearFrames.contains f

/-- The frame for a near fill or replica in explicit mode, evicting the least recently placed unheld frame of the quota where
none is free (07 R163, R167, R168; 16 R314); in automatic mode a free frame of the quota or the pool (02 R29; log 12). -/
def State.takeNear (s : State) (p : Nat) (expl : Bool) : Option (State × Nat) :=
  let pa := s.party p
  let free (f : Nat) : Bool := s.frameFree (sramAddr pa.die pa.core (f * 4096))
  match lmin (pa.nearFrames.filter free) with
  | some f => some (s, f)
  | none =>
    if !expl then ((List.range 768).find? fun f => s.inPool pa.die pa.core f && free f).map fun f => (s, f)
    else
      pa.nearPlaced.findSome? fun (q, _) =>
        let pr := s.project q
        let here : Option (Nat × RemapGoal) :=
          if pr.place.res = .near && pr.place.mdie = pa.die && pr.place.munit = pa.core then some (pr.place.mframe, .home)
          else (pr.reps.find? fun r => r.1 = pa.die && r.2.1 = pa.core).map fun r => (r.2.2, .dropReplica pa.die pa.core)
        match here with
        | none => none
        | some (f, goal) =>
          let held := s.heldBy q fun _ h => goal == RemapGoal.home || (h.die = pa.die && h.core = pa.core)
          if held || s.mirrorPinned q || !pa.nearFrames.contains f then none
          else
            let s := s.askEviction q goal
            some (s.modParty p fun x => { x with nearPlaced := x.nearPlaced.filter fun e => e.1 ≠ q }, f)

/-- The far frame that a master takes in its page's directory slice: the lowest free one; in explicit mode the context's least
recently placed frame there makes room (07 R163). -/
def State.takeFar (s : State) (t pfn : Nat) (expl : Bool) : Option (State × Nat × Nat) :=
  let d := homeStack pfn
  let sl := dirSlice pfn
  match lowestFar pfn s.frameFree with
  | some f => some (s, sl, f)
  | none =>
    if !expl then none
    else
      (s.tenant t).farPlaced.findSome? fun ((d', sl', f), q) =>
        if d' = d && sl' = sl && q ≠ pfn && (s.project q).place.frameAddr 0 == some (farAddr d sl f 0)
            && !(s.heldBy q fun _ _ => true) && !s.mirrorPinned q then
          let s := s.askEviction q .home
          some (s.modTenant t fun x => { x with farPlaced := x.farPlaced.filter fun e => e.2 ≠ q }, sl, f)
        else none

/-- Notes the time of a PLACE for the choice of victims (07 R163). -/
def State.noteNear (s : State) (p pfn f : Nat) : State :=
  s.modParty p fun x => { x with nearPlaced := (x.nearPlaced.filter fun e => e.1 ≠ pfn) ++ [(pfn, f)] }

/-- The same for a far frame. -/
def State.noteFar (s : State) (t pfn sl f : Nat) : State :=
  s.modTenant t fun x =>
    { x with farPlaced := (x.farPlaced.filter fun e => e.2 ≠ pfn) ++ [((homeStack pfn, sl, f), pfn)] }

/-- PLACE.NEAR on an eligible page (07 R165). -/
def State.placeNear (s : State) (t p pfn leafPa : Nat) (expl : Bool) : Option (State × Nat) :=
  let pa := s.party p
  let asker : Asker := .place (some p) (.core pa.die pa.core)
  let pr := s.project pfn
  let others := s.heldBy pfn fun q _ => q ≠ p
  let mine := pr.place.mdie = pa.die && pr.place.munit = pa.core
  let replicated := pr.reps.any fun r => r.1 = pa.die && r.2.1 = pa.core
  match pr.place.res with
  | .home | .far =>
    if others then none
    else
      match s.takeNear p expl with
      | none => none
      | some (s, f) => some ((s.noteNear p pfn f).askRemap pfn (.near pa.die pa.core f) (some leafPa) asker)
  | .near =>
    if mine || others then none
    else
      match s.takeNear p expl with
      | none => none
      | some (s, f) =>
        match s.takeFar t pfn expl with
        | none => none
        | some (s, sl, ff) =>
          some (((s.noteNear p pfn f).noteFar t pfn sl ff).askRemap pfn (.replica pa.die pa.core f) (some leafPa) asker (some (sl, ff)))
  | .shared =>
    if replicated then none
    else
      match s.takeNear p expl with
      | none => none
      | some (s, f) => some ((s.noteNear p pfn f).askRemap pfn (.replica pa.die pa.core f) (some leafPa) asker)
  | .moving | .poison => none

/-- Who asks in a PLACE of a party, or of a service thread. -/
def State.placer (s : State) (p : Option Nat) : Asker :=
  .place p (match p with | some p => .core (s.party p).die (s.party p).core | none => .io)

/-- PLACE.FAR on an eligible page (07 R165); `p` is the party of the issuer, if any. -/
def State.placeFar (s : State) (t : Nat) (p : Option Nat) (pfn leafPa : Nat) (expl : Bool) : Option (State × Nat) :=
  let asker := s.placer p
  let res := (s.project pfn).place.res
  if (s.heldBy pfn fun q _ => some q ≠ p) || !(res == .near || res == .home) then none
  else
    match s.takeFar t pfn expl with
    | none => none
    | some (s, sl, f) => some ((s.noteFar t pfn sl f).askRemap pfn (.far (homeStack pfn) sl f) (some leafPa) asker)

/-- PLACE.HOME on an eligible page (07 R165). -/
def State.placeHome (s : State) (p : Option Nat) (pfn leafPa : Nat) : Option (State × Nat) :=
  let pr := s.project pfn
  let core : Option (Nat × Nat) := p.map fun p => ((s.party p).die, (s.party p).core)
  let here := core.bind fun dc => (pr.reps.find? fun r => (r.1, r.2.1) == dc).map fun _ => dc
  let forget (s : State) : State :=
    match p with
    | some p => s.modParty p fun x => { x with nearPlaced := x.nearPlaced.filter fun e => e.1 ≠ pfn }
    | none => s
  match here with
  | some (d, c) =>
    if s.heldBy pfn fun q h => some q ≠ p && h.die = d && h.core = c then none
    else some ((forget s).askRemap pfn (.dropReplica d c) (some leafPa) (s.placer p))
  | none =>
    if (s.heldBy pfn fun q _ => some q ≠ p) || !(pr.place.res == .near || pr.place.res == .far) then none
    else some ((forget s).askRemap pfn .home (some leafPa) (s.placer p))

/-! ### The steps of a remap (08 R175) -/

/-- The kinds of change that R160 lists, with the numbers of the frame in range. -/
def PageRec.legal (r : PageRec) (g : RemapGoal) : Bool :=
  match g with
  | .near d c f => d < 4 && c < 32 && f < 768 && (r.place.res == .home || r.place.res == .far)
  | .far d sl f => d < 4 && sl < 16 && f < 1536 && (r.place.res == .home || r.place.res == .near)
  | .replica d c f =>
    d < 4 && c < 32 && f < 768 &&
    match r.place.res with
    | .home | .far => true
    | .near => !(r.place.mdie = d && r.place.munit = c)
    | .shared => (r.replicaIn d c).isNone
    | .moving | .poison => false
  | .dropReplica d c => r.place.res == .shared && (r.replicaIn d c).isSome
  | .home => r.place.res == .near || r.place.res == .far || r.place.res == .shared
  | .poison => false

/-- A frame that a request numbered `id` waits for: a page occupies it, it is quarantined, or a remap that runs, or a request of
another page that was made earlier, is to fill it (07 R161; 08 R178; 16 R316). -/
def State.frameWaits (s : State) (id a : Nat) : Bool :=
  !s.frameEmpty a || s.barred a || s.pages.any fun (pfn, r) =>
    (cutMove pfn r.run).contains a || r.run.any (fun x => (goalFrames pfn x.goal x.far).contains a)
      || r.queue.any fun q => decide (q.id < id) && (goalFrames pfn q.goal q.far).contains a

/-- A hold of a party that passes a test stops a change: of the master, or of the holder's own replica (07 R167). -/
def State.heldAgainst (s : State) (pfn : Nat) (g : RemapGoal) (other : Nat → Bool) : Bool :=
  match g with
  | .replica _ _ _ => (s.page pfn).place.res == .near && s.heldBy pfn fun q _ => other q
  | .dropReplica d c => s.heldBy pfn fun q h => other q && h.die = d && h.core = c
  | .near _ _ _ | .far _ _ _ | .home | .poison => s.heldBy pfn fun q _ => other q

/-- A hold that stands now declines another party's PLACE (07 R165, R167; log 72). -/
def State.declined (s : State) (pfn : Nat) (q : RemapReq) : Bool :=
  match q.asker with
  | .place p _ => s.heldAgainst pfn q.goal fun x => some x != p
  | .eviction | .service => false

/-- A hold or the PIN bit that stands now defers an eviction (07 R168; log 72). -/
def State.deferred (s : State) (pfn : Nat) (q : RemapReq) : Bool :=
  match q.asker with
  | .eviction => (s.page pfn).legal q.goal && (s.heldAgainst pfn q.goal (fun _ => true) || s.mirrorPinned pfn)
  | .place _ _ | .service => false

/-- The request of a page that the directory takes next: the first, past evictions that are deferred (07 R161, R168). -/
def State.nextReq (s : State) (pfn : Nat) : Option RemapReq := (s.page pfn).queue.find? fun q => !s.deferred pfn q

/-- A near frame of a core for a request instead of a quarantined one: of its party's quota, or of the pool. -/
def State.otherNear (s : State) (q : RemapReq) (d c : Nat) : Option Nat :=
  let free (f : Nat) : Bool := s.frameFree (sramAddr d c (f * 4096))
  match q.asker with
  | .place (some p) _ =>
    (lmin ((s.party p).nearFrames.filter free)).orElse fun _ =>
      if (s.tenant (s.launchRec (s.party p).launch).tenant).expl then none else (List.range 768).find? fun f => s.inPool d c f && free f
  | _ => none

/-- A request whose frame has been quarantined since takes any other free one (08 R179). -/
def State.retarget (s : State) (pfn : Nat) (q : RemapReq) : RemapReq :=
  let near (d c f : Nat) : Nat := if s.barred (sramAddr d c (f * 4096)) then (s.otherNear q d c).getD f else f
  let far (d sl f : Nat) : Nat := if s.barred (farAddr d sl f 0) then (lowestFar pfn s.frameFree).getD f else f
  { q with
    goal :=
      match q.goal with
      | .near d c f => .near d c (near d c f)
      | .replica d c f => .replica d c (near d c f)
      | .far d sl f => .far d sl (far d sl f)
      | g => g
    far := q.far.map fun x => (x.1, far (homeStack pfn) x.1 x.2) }

/-- The notes of a page's frames for the choice of victims follow a request that takes another frame (07 R163). -/
def State.renote (s : State) (pfn : Nat) (q : RemapReq) : State :=
  let near (d c f : Nat) : State :=
    { s with parties := s.parties.map fun (k, x) =>
        (k, if x.die = d && x.core = c then { x with nearPlaced := x.nearPlaced.map fun y => if y.1 = pfn then (pfn, f) else y } else x) }
  let far (s : State) (d sl f : Nat) : State :=
    { s with tenants := s.tenants.map fun (k, x) =>
        (k, { x with farPlaced := x.farPlaced.map fun y => if y.2 = pfn then ((d, sl, f), pfn) else y }) }
  let s := match q.goal with
    | .near d c f | .replica d c f => near d c f
    | .far d sl f => far s d sl f
    | .dropReplica _ _ | .home | .poison => s
  match q.far with
  | some (sl, f) => far s (homeStack pfn) sl f
  | none => s

/-- A remap request may take step 1 now: none runs on the page, its frames are empty, and its slice has a record for it or evicts one
(07 R161; 08 R174; 16 R316). One that the page's placement no longer allows, or that is declined, ends without a remap. -/
def State.startable (s : State) (pfn : Nat) (q : RemapReq) : Bool :=
  let r := s.page pfn
  let q := s.retarget pfn q
  r.run.isNone &&
    (!r.legal q.goal || s.declined pfn q ||
      ((goalFrames pfn q.goal q.far).all (fun a => !s.frameWaits q.id a) && (s.recordRoom pfn || (s.recordVictim pfn).isSome)))

/-- Steps 1 and 2 of R175. A request that the page's placement no longer allows ends without a remap. -/
def State.startRemap (s : State) (pfn : Nat) (q : RemapReq) : State :=
  s.modPage pfn fun r =>
    if r.legal q.goal then
      { r with
        place := { r.place with res := .moving }
        run := some
          { goal := q.goal, old := r.place, far := q.far, wait := r.sharers, sent := r.sharers, since := s.time
            leafPa := q.leafPa.orElse fun _ => r.mirror } }
    else r

/-- A cache drops its entries of a frame that the engine may move. -/
def State.dropEntries (s : State) (pfn : Nat) (k : CacheId) : State :=
  { s with caches := s.caches.filter fun (c, e) =>
      !(c == k && e.leaf.pfn = pfn && e.leaf.level = 0 && e.leaf.mtype == .framed) }

/-- Copies the sectors of a mask, which uses the banks of both frames (07 R153). -/
def State.copySectors (s : State) (dst src : Nat) (mask : BitVec 16) : State :=
  (maskList mask 16).foldl (fun s i =>
    ((s.useBank (src + 256 * i)).useBank (dst + 256 * i)).memCopy (dst + 256 * i) (src + 256 * i) 256) s

/-- Merges and removes the replicas that a test names; one on a die in reset is lost. -/
def State.removeReplicas (s : State) (pfn : Nat) (test : Replica → Bool) : State :=
  let gone := (s.page pfn).replicas.filter test
  let s := gone.foldl (fun s x => if (s.die x.die).inService then s.mergeReplica pfn x.die x.core fun _ => true else s) s
  s.modPage pfn fun r => { r with replicas := r.replicas.filter fun x => !test x }

/-- Moves the master to a new frame: the present sectors of a frame, or all sixteen from home (07 R160; 16 R315). R160 lets an
automatic-mode fill copy the touched sectors alone: the model copies all sixteen there too (log 12). -/
def State.moveMaster (s : State) (pfn : Nat) (old : Placement) (dst : Nat) : State × BitVec 16 :=
  match old.frameAddr 0 with
  | some src => (s.copySectors dst src old.sect, old.sect)
  | none =>
    ((s.copySectors dst (homeAddr pfn 0) 0xFFFF).modPage pfn fun r => { r with written := 0 }, 0xFFFF)

/-- The placement bits of an entry: RES, and the double-word of MDIE, MUNIT, MFRAME and SECT (07 R155). -/
def Placement.high (p : Placement) : Nat := p.mdie + p.munit * 2 ^ 3 + p.mframe * 2 ^ 9 + p.sect.toNat * 2 ^ 19

/-- Writes the mirror in a leaf, where the record knows one (08 R172). -/
def State.writeMirror (s : State) (leaf : Option Nat) (p : Placement) : State :=
  match leaf with
  | none => s
  | some pa =>
    let lo := s.physNat pa 8
    let lo := lo - natBits lo 13 11 * 2 ^ 11 + p.res.code * 2 ^ 11
    s.physWrite 4 pa (leBytes lo 8 ++ leBytes p.high 8)

/-- A MOVING page whose replica a core still has to drop whole before slices that have left a barrier go on (07 R445). -/
def State.dropsLeft (s : State) (c : Crew) : Option Nat :=
  match s.site c with
  | .core d k =>
    (s.pages.find? fun x => x.2.moving && x.2.drops.any fun y => y.die = d && y.core = k && y.sects == 0xFFFF).map (·.1)
  | _ => none

/-- Lets a slice that waited for a remap go on: with its instruction in its place `order` of arrival, or to issue; its trap is
delivered; one that has left a barrier waits for the next page that its core's drop has met (07 R445; 08 R175, R176, R188). -/
def State.wake (s : State) (k i pfn order : Nat) : State :=
  let sl := (s.crew k).slice i
  let leaves : Bool := sl.held.isNone && sl.addr.isNone
  if sl.wait == .moving pfn then
    match sl.pend, (if leaves then s.dropsLeft (s.crew k) else none) with
    | some t, _ => (s.modCrew k fun c => c.modSlice i fun x => { x with wait := .none, pend := none }).raise k i t
    | none, some q => s.waitMoving k [i] q
    | none, none => s.modCrew k fun c => c.modSlice i fun x => { x with wait := if sl.held.isSome then .replay order else .none }
  else s

/-- Replays requests in their order of arrival. Slices of one crew that arrived together at one instruction go on as one gang. -/
def replayList (pfn : Nat) : List Waiter → Option (Nat × DWord × DWord × Nat) → State → State
  | [], _, s => s
  | .agent e :: rest, _, s =>
    let (s, n) := s.fresh
    replayList pfn rest none { s with replays := s.replays ++ [(n, e)] }
  | .slice k i :: rest, last, s =>
    let sl := (s.crew k).slice i
    match last with
    | some (k', pc, link, order) =>
      if k' = k && pc == sl.pc && link == sl.link then replayList pfn rest last (s.wake k i pfn order)
      else
        let (s, n) := s.fresh
        replayList pfn rest (some (k, sl.pc, sl.link, n)) (s.wake k i pfn n)
    | none =>
      let (s, n) := s.fresh
      replayList pfn rest (some (k, sl.pc, sl.link, n)) (s.wake k i pfn n)

/-- Step 7 of R175: the drops that waited are made, and the requests that waited at the directory, with the traps whose record did, go on
in their order of arrival (07 R445; 08 R176, R188; log 3). -/
def State.replayWaiters (s : State) (pfn : Nat) : State :=
  let r := s.page pfn
  let s := r.drops.foldl (fun s x => s.dropReplicas x.die x.core fun q sec => q == pfn && mbit x.sects sec) s
  replayList pfn r.waiters none (s.modPage pfn fun r => { r with waiters := [], drops := [] })

/-- Steps 6 to 8 of R175. -/
def State.settlePage (s : State) (pfn : Nat) (p : Placement) : State :=
  let r := s.page pfn
  let leaf := match r.run with | some x => x.leafPa | none => r.mirror
  let s := s.modPage pfn fun r =>
    { r with place := p, run := none, sharers := [], mirror := leaf
             written := if p.res = .home || p.res = .poison then 0 else r.written }
  (s.writeMirror leaf p).replayWaiters pfn

/-- Adds a replica that holds the master's present sectors (07 R154). -/
def State.addReplica (s : State) (pfn d c f src : Nat) (sect : BitVec 16) (copy : Bool) : State :=
  let s := if copy then s.copySectors (sramAddr d c (f * 4096)) src sect else s
  s.modPage pfn fun r => { r with replicas := r.replicas ++ [{ die := d, core := c, frame := f, present := sect }] }

/-- Sends home the sectors written since the fill; a clean master is dropped with no DRAM write (07 R160). -/
def State.evict (s : State) (pfn : Nat) (old : Placement) : State :=
  match old.frameAddr 0 with
  | some src => s.copySectors (homeAddr pfn 0) src (s.page pfn).written
  | none => s

/-- A remap that a cut completes never leaves the master in the old frame: a master that the goal would keep moves (08 R178). -/
def State.moveCut (s : State) (pfn : Nat) (run : RemapRun) : State × RemapRun :=
  match run.moved, run.old.res with
  | some (sl, f), .far | some (sl, f), .shared =>
    let (s, sect) := s.moveMaster pfn run.old (farAddr (homeStack pfn) sl f 0)
    let run := { run with old := slicePlace run.old.res (homeStack pfn) sl f sect }
    (s.modPage pfn fun r => { r with run := some run }, run)
  | _, _ => (s, run)

/-- The die that receives a master or a replica is out of service. -/
def State.goalLost (s : State) (g : RemapGoal) : Bool :=
  match g with
  | .near d _ _ | .far d _ _ | .replica d _ _ => !(s.die d).inService
  | .dropReplica _ _ | .home | .poison => false

/-- Steps 5 to 8 of R175: the data of R160, the new placement, and the replay. A master on a die that is out of service is no
source: the page becomes POISON (08 R179). A page on its way to a die that is out of service goes home (log 38). The eviction of a
record ends with the record free (08 R174). -/
def State.endRemap (s : State) (pfn : Nat) : State :=
  match (s.page pfn).run with
  | none => s
  | some run =>
    if run.frees then (s.modPage pfn fun r => { r with sharers := [], mirror := none, run := none }).replayWaiters pfn
    else if (run.old.frameAddr 0).isSome && !(s.die run.old.mdie).inService then
      (s.modPage pfn fun r => { r with replicas := [] }).settlePage pfn { res := .poison }
    else
      let all : Replica → Bool := fun _ => true
      let (s, run) := s.moveCut pfn run
      match (if s.goalLost run.goal then RemapGoal.home else run.goal) with
      | .near d c f =>
        let (s, sect) := s.moveMaster pfn run.old (sramAddr d c (f * 4096))
        s.settlePage pfn (nearPlace d c f sect)
      | .far d sl f =>
        let (s, sect) := s.moveMaster pfn run.old (farAddr d sl f 0)
        s.settlePage pfn (slicePlace .far d sl f sect)
      | .replica d c f =>
        match run.old.res with
        | .near =>
          let (sl, ff) := run.far.getD (0, 0)
          let dst := farAddr (homeStack pfn) sl ff 0
          let (s, sect) := s.moveMaster pfn run.old dst
          let s := if run.moved.isSome then s else s.addReplica pfn run.old.mdie run.old.munit run.old.mframe dst sect false
          (s.addReplica pfn d c f dst sect true).settlePage pfn (slicePlace .shared (homeStack pfn) sl ff sect)
        | _ =>
          let sect : BitVec 16 := if (run.old.frameAddr 0).isSome then run.old.sect else 0xFFFF
          (s.addReplica pfn d c f (masterAddr pfn run.old 0) sect true).settlePage pfn { run.old with res := .shared }
      | .dropReplica d c =>
        let s := s.removeReplicas pfn fun x => x.die = d && x.core = c
        let held := (s.page pfn).held
        s.settlePage pfn (if (s.page pfn).replicas.isEmpty then lastReplica held else held)
      | .home =>
        let s := s.removeReplicas pfn all
        (s.evict pfn (s.page pfn).held).settlePage pfn {}
      | .poison => (s.modPage pfn fun r => { r with replicas := [] }).settlePage pfn { res := .poison }

end Sys2Proof.Machine
end

