-- ==== Sys2Proof/Machine/Protocol.lean ====
section
/-! DEFINITION. The rows of the remap protocol, and the fencing of a compute die, which a cut brings about (spec 08 R175 to R179;
12 R273, R274). -/

namespace Sys2Proof.Machine

/-! ### Fencing (08 R179; 12 R273, R274) -/

/-- A trap of a slice that does not issue now, at the instruction it stands at. -/
def State.trapWaiting (s : State) (k i code : Nat) (a : DWord) : State :=
  let sl := (s.crew k).slice i
  ((s.dropGroup k i).modCrew k fun c => c.modSlice i fun sl => { sl with wait := .none }).raise k i
    { code := BitVec.ofNat 8 code, info := a, addr := a, retpc := sl.pc, word := sl.word, pfx := sl.pfx }

/-- A slice whose access waits at a directory of a die that is cut traps LINKCUT, and a call record that does is DOUBLE (08 R179,
R190). What waits there with no access of its own waits on. -/
def State.cutWaiter (s : State) (k i : Nat) : State :=
  let sl := (s.crew k).slice i
  match sl.pend, sl.addr with
  | some t, _ => (s.modCrew k fun c => c.modSlice i fun sl => { sl with wait := .none, pend := none }).double k i t
  | none, some a => s.trapWaiting k i 0x14 a
  | none, none => s

/-- A waiting request is that of a slice on another die than `d`, for an access or a call record of its own. -/
def State.farWaiter (s : State) (d : Nat) (w : Waiter) : Bool :=
  match w with
  | .slice k i =>
    let sl := (s.crew k).slice i
    cacheDie (s.site (s.crew k)) ≠ d && (sl.pend.isSome || sl.addr.isSome)
  | .agent _ => false

/-- The requests of other dies that wait at a page whose directory slice lies on a die that is cut. -/
def State.cutPage (s : State) (d pfn : Nat) : State :=
  if homeStack pfn ≠ d then s
  else
    let r := s.page pfn
    let s' := s.modPage pfn fun r =>
      { r with waiters := r.waiters.filter fun x => !s.farWaiter d x, refused := r.refused.filter fun x => !s.farWaiter d x }
    ((r.waiters ++ r.refused).filter (s.farWaiter d)).foldl (fun s x =>
      match x with
      | .slice k i => s.cutWaiter k i
      | .agent _ => s) s'

/-- Fences a compute die: its incarnation advances; its engines stop and its caches and requests are gone, and requests of other dies
await no reply from it. -/
def State.fenceDie (s : State) (d : Nat) : State :=
  if 4 ≤ d || !(s.die d).inService then s
  else
    let mine (k : Nat) : Bool := match (s.crew k).partyId with | some p => (s.party p).die = d | none => false
    let s := { s with
      ops := s.ops.filter fun o => o.die ≠ d
      requests := s.requests.filter fun r => !mine r.crew
      caches := s.caches.filter fun ce => cacheDie ce.1 ≠ d
      tables := s.tables.filter fun e => e.die ≠ d
      pages := s.pages.map fun (x : Nat × PageRec) =>
        let stays (w : Waiter) : Bool := match w with | .slice k _ => !mine k | .agent _ => true
        (x.1, { x.2 with waiters := x.2.waiters.filter stays, refused := x.2.refused.filter stays }) }
    let s := s.modDie d fun x => { x with inService := false, inc := x.inc + 1, fencedAt := some s.time, ckpt := false }
    s.pages.foldl (fun s x => s.cutPage d x.1) s

/-! ### The steps of R175 -/

/-- Changes the running remap of a page. -/
def State.modRun (s : State) (pfn : Nat) (f : RemapRun → RemapRun) : State :=
  s.modPage pfn fun r => { r with run := r.run.map f }

/-- A tenant has the page: its tables map it, a cache holds an entry of it for the tenant, or a PLACE of it has placed the page. -/
def State.pageOf (s : State) (pfn t : Nat) : Bool :=
  (s.spanBytes t 0 (2 ^ 64)).any (fun x => x.1 ≤ homeAddr pfn 0 && homeAddr pfn 4096 ≤ x.2)
    || s.caches.any (fun ce => ce.2.tenant = t && ce.2.leaf.pfn = pfn && ce.2.leaf.level = 0 && ce.2.leaf.mtype == .framed)
    || (s.tenant t).farPlaced.any (fun x => x.2 = pfn)
    || s.parties.any fun x => (s.launchRec x.2.launch).tenant = t && x.2.nearPlaced.any fun y => y.1 = pfn

/-- The leaf through which the page is known lets the engine move it: valid, FRAMED, not pinned, and no context in explicit mode has
the page (07 R156, R163). -/
def State.movable (s : State) (pfn : Nat) : Bool :=
  (s.page pfn).mirror.any (fun pa =>
      let w := s.physNat pa 8
      natBit w 0 && natBits w 10 8 = 0 && !natBit w 5 && natBits w 55 16 = pfn)
    && !s.tenants.any fun x => x.2.expl && s.pageOf pfn x.1

/-- The engine fills near frames from the core's pool, or from the quota of a party whose page it is (07 R162; 02 R29). -/
def State.engineFrame (s : State) (pfn : Nat) (g : RemapGoal) : Bool :=
  match g with
  | .near d c f | .replica d c f =>
    s.inPool d c f || (s.onCore d c).any fun x =>
      x.2.nearFrames.contains f && s.pageOf pfn (s.launchRec x.2.launch).tenant && s.carveFrames d c ≤ f
  | .far _ _ _ | .dropReplica _ _ | .home | .poison => true

/-- The remap that the placement engine starts by itself in automatic mode: the kinds of R160, on an eligible page that nothing
protects, into free frames that it may fill (07 R156, R162, R163, R167). -/
def State.engineRemap (s : State) (pfn : Nat) (g : RemapGoal) : State :=
  let r := s.page pfn
  let needsFar : Bool := match g, r.place.res with | .replica _ _ _, .near => true | _, _ => false
  let far : Option (Nat × Nat) := if needsFar then (lowestFar pfn s.frameOpen).map fun f => (dirSlice pfn, f) else none
  let free := (goalFrames pfn g far).all s.frameOpen
  if r.run.isSome || !r.queue.isEmpty || !r.legal g || !s.movable pfn || s.heldAgainst pfn g (fun _ => true) || !s.engineFrame pfn g
      || !free || (needsFar && far.isNone) || !s.recordRoom pfn then s
  else s.startRemap pfn { id := 0, goal := g, far := far }

/-- A page's request takes step 1, or ends without a remap; where its slice has no room for the record, one is evicted first. Where no
remap is left, what waited for it goes on (07 R161; 08 R174, R175). -/
def State.startReq (s : State) (pfn : Nat) (q : RemapReq) : State :=
  let r := s.page pfn
  let q' := s.retarget pfn q
  let starts : Bool := r.legal q'.goal && !s.declined pfn q'
  if !s.startable pfn q then s
  else if starts && !s.recordRoom pfn then s.evictRecord pfn
  else
    let s := s.modPage pfn fun r => { r with queue := r.queue.erase q }
    if starts then (s.renote pfn q').startRemap pfn q'
    else if (s.page pfn).queue.isEmpty then s.replayWaiters pfn
    else s

/-- REMAP_START: the next request of the page, or one of the engine's own. -/
def execRemapStart (pfn : Nat) (goal : Option RemapGoal) (s : State) : Host.Outcome State Fault Refusal :=
  .next <|
    match goal with
    | some g => s.engineRemap pfn g
    | none =>
      match s.nextReq pfn with
      | none => s
      | some q => s.startReq pfn q

/-- INVALIDATION: a sharer drops its entry. -/
def execInvalidation (pfn : Nat) (cache : CacheId) (s : State) : Host.Outcome State Fault Refusal :=
  .next <|
    match (s.page pfn).run with
    | some run =>
      if run.sent.contains cache then
        (s.dropEntries pfn cache).modRun pfn fun x => { x with sent := x.sent.erase cache, dropped := x.dropped ++ [cache] }
      else s
    | none => s

/-- ACKNOWLEDGE: the sharer's drain has ended. Every access of the model is performed when it issues, so nothing translated with
the old entry is under way (log 3). -/
def execAcknowledge (pfn : Nat) (cache : CacheId) (s : State) : Host.Outcome State Fault Refusal :=
  .next <|
    match (s.page pfn).run with
    | some run =>
      if run.dropped.contains cache && (4 ≤ cacheDie cache || (s.die (cacheDie cache)).inService) then
        s.modRun pfn fun x =>
          { x with dropped := x.dropped.erase cache, acks := x.acks ++ [(cache, (s.die (cacheDie cache)).inc.toNat)] }
      else s
    | none => s

/-- ACKNOWLEDGE_RECEIPT: counted when it carries its die's current incarnation, else dropped. -/
def execAcknowledgeReceipt (pfn : Nat) (cache : CacheId) (inc : Nat) (s : State) : Host.Outcome State Fault Refusal :=
  .next <|
    match (s.page pfn).run with
    | some run =>
      if run.acks.contains (cache, inc) then
        s.modRun pfn fun x =>
          { x with
            acks := x.acks.erase (cache, inc)
            wait := if (s.die (cacheDie cache)).inc.toNat = inc then x.wait.erase cache else x.wait }
      else s
    | none => s

/-- REMAP_COMPLETE: steps 5 to 8, once no acknowledgement is awaited. -/
def execRemapComplete (pfn : Nat) (s : State) : Host.Outcome State Fault Refusal :=
  .next <|
    match (s.page pfn).run with
    | some run => if run.wait.isEmpty then s.endRemap pfn else s
    | none => s

/-! ### The cut rule (08 R178) -/

/-- The directory of a page may cut a die: it has waited 100 µs for an acknowledgement from it, or the die is cut already. -/
def State.mayCut (s : State) (pfn d : Nat) : Bool :=
  match (s.page pfn).run with
  | some run =>
    d < 4 && run.wait.any (fun c => cacheDie c = d)
      && (!(s.die d).inService || run.since + 100 * Config.usec ≤ s.time)
  | none => false

/-- The frame to which a cut moves a master that the remap's goal would leave where it is. -/
def State.cutFrame (s : State) (pfn : Nat) (run : RemapRun) : Option (Nat × Nat) :=
  match run.goal with
  | .replica _ _ _ | .dropReplica _ _ =>
    if (run.old.frameAddr 0).isSome then
      if run.far.isSome then run.far else (lowestFar pfn s.frameOpen).map fun f => (dirSlice pfn, f)
    else none
  | _ => none

/-- CUT: the die's caches count as having acknowledged, the old frame is quarantined, a new one is taken, and the die is fenced. A
master for which its slice has no other frame goes home. -/
def State.cutDie (s : State) (pfn d : Nat) : State :=
  match (s.page pfn).run with
  | none => s
  | some run =>
    let other (c : CacheId) : Bool := cacheDie c ≠ d
    let moved := s.cutFrame pfn run
    let stays : Bool := match run.goal with | .replica _ _ _ | .dropReplica _ _ => (run.old.frameAddr 0).isSome | _ => false
    let s := s.modRun pfn fun x =>
      { x with
        wait := x.wait.filter other, sent := x.sent.filter other, dropped := x.dropped.filter other
        acks := x.acks.filter fun a => other a.1
        moved := moved
        goal := if stays && moved.isNone then .home else x.goal }
    let s : State :=
      match run.old.frameAddr 0 with
      | some a => { s.lapseHolds pfn with quarantine := s.quarantine ++ [(d, a)] }
      | none => s
    s.fenceDie d

/-- CUT. -/
def execCut (pfn die : Nat) (s : State) : Host.Outcome State Fault Refusal :=
  .next (if s.mayCut pfn die then s.cutDie pfn die else s)

/-! ### Refused requests (08 R176) -/

/-- REQUEST_RESEND: a refused request waits in the queue where it has room now, or goes on where the page is no longer MOVING. -/
def execRequestResend (pfn crew slice : Nat) (s : State) : Host.Outcome State Fault Refusal :=
  .next <|
    let r := s.page pfn
    let w : Waiter := .slice crew slice
    if r.refused.contains w then
      if !r.moving then
        let (s, order) := s.fresh
        (s.modPage pfn fun r => { r with refused := r.refused.erase w }).wake crew slice pfn order
      else if s.waitersIn pfn < 256 then
        s.modPage pfn fun r => { r with refused := r.refused.erase w, waiters := r.waiters ++ [w] }
      else s
    else s

end Sys2Proof.Machine
end

