-- ==== Sys2Proof/Machine/Fabric.lean ====
section
/-! DEFINITION. The outside: accesses by the host, requests that arrive over the Stodor links, the replies that the module's own
requests get or do not get, and what engines, passes and the scoreboard do after issue (spec 04 R85; 06 R137; 08 R181; 09 R208;
10 R233, R235, R236; 11 R242 to R258; 12 R259). -/

namespace Sys2Proof.Machine

/-! ### The host port (08 R181; 09 R208; 12 R259) -/

/-- Notes a MOVING page among the bytes of a host access, which then waits for its remap, or a die to which the I/O die has no route
(08 R176; 11 R258; log 65). -/
def State.meetHost (s : State) (pa n : Nat) : State :=
  let pfns := [pa / 4096, (pa + n - 1) / 4096]
  match pfns.find? fun pfn => (s.page pfn).moving with
  | some pfn => { s with met := some (.moving pfn) }
  | none => pfns.foldl (fun s pfn => s.meetRoute 4 (.paged pfn (s.page pfn).held 0 0)) s

/-- The bytes of a host read of device memory, at their masters. -/
def State.hostBytes (s : State) (pa n : Nat) : State × List Byte :=
  let s := ((s.meetHost pa n).usePhys pa).usePhys (pa + n - 1)
  (s, s.physRead pa n)

/-- HOST_WRITE: at the master. -/
def execHostWrite (pa : Nat) (data : List Byte) (s : State) : Host.Outcome State Fault Refusal :=
  .next (s.unlessMoving (.hostWrite pa data) fun s => (s.meetHost pa data.length).physWrite 4 pa data)

/-- The widths of an AtomicOp that the module completes. -/
def hostWidth (op : HostOp) (size : Nat) : Bool :=
  match op with
  | .fetchAdd | .swap => size = 4 || size = 8
  | .cas => size = 4 || size = 8 || size = 16

/-- The value that an AtomicOp leaves. -/
def hostNew (op : HostOp) (size old cmp x : Nat) : Nat :=
  match op with
  | .fetchAdd => (old + x) % 2 ^ (8 * size)
  | .swap => x % 2 ^ (8 * size)
  | .cas => if old = cmp % 2 ^ (8 * size) then x % 2 ^ (8 * size) else old

/-- HOST_ATOMICOP: at home; one of a width that is not offered, or misaligned, completes as an Unsupported Request. -/
def execHostAtomicop (op : HostOp) (pa size tag cmp operand : Nat) (s : State) : Host.Outcome State Fault Refusal :=
  .next <|
    if !hostWidth op size || pa % size ≠ 0 then s.send (.refusedAccess 0 tag)
    else
      s.unlessMoving (.hostAtomicop op pa size tag cmp operand) fun s =>
        let (s, bs) := s.hostBytes pa size
        (s.physWrite 4 pa (leBytes (hostNew op size (leNat bs) cmp operand) size)).send (.hostData tag bs)

/-- A cached entry holds a translation of a host address in a range. -/
def hostEntry (e : CacheEntry) (lo hi : Nat) : Bool :=
  (e.leaf.mtype == .hostSnoop || e.leaf.mtype == .hostNS) && e.leaf.pfn * 4096 < hi && lo < (e.leaf.pfn + 1) * 4096

/-- ATS_INVALIDATION of the addresses from `lo` to below `hi`. Every access of the model is performed when it issues, so the
wait of step 2 is over at once (log 3). -/
def execAtsInvalidation (lo hi tag : Nat) (s : State) : Host.Outcome State Fault Refusal :=
  .next (({ s with caches := s.caches.filter fun ce => !hostEntry ce.2 lo hi } : State).send (.atsDone tag))

/-! ### Requests that arrive (11 R249, R252, R253; 10 R233) -/

/-- The tenant that serves FABRIC accesses and the virtual address of a page and offset; none where the access is refused. -/
def State.served (s : State) (page off : Nat) : Option (Nat × Nat) :=
  let f := (sget s.csr 0x21).toNat
  let t := f % 16
  let ten := s.tenant t
  if !natBit f 4 || ten.aplen.toNat ≤ 4096 * page then none
  else some (t, (ten.apbase.toNat + 4096 * page + off) % 2 ^ 64)

/-- READ; one that is refused or cannot be translated gets no response, and so fails where it came from (11 R252, R253). -/
def execRead (page offset size src tag : Nat) (s : State) : Host.Outcome State Fault Refusal :=
  .next <|
    s.unlessMoving (.read page offset size src tag) fun s =>
      match s.served page offset with
      | none => s
      | some (t, va) =>
        match s.agentBytes t va size with
        | some (s, bs) => s.send (.response src tag bs)
        | none => s.agentFail t va

/-- WRITE. -/
def execWrite (page offset : Nat) (data : List Byte) (src tag : Nat) (s : State) : Host.Outcome State Fault Refusal :=
  .next <|
    s.unlessMoving (.write page offset data src tag) fun s =>
      match s.served page offset with
      | none => s
      | some (t, va) =>
        match s.agentStore 4 t va data with
        | some s => s.send (.accepted src tag)
        | none => s.agentFail t va

/-- An atomic served at home in a tenant's context: the old value, or a lock operation's success. -/
def State.serveAtomic (s : State) (t va : Nat) (k : AtomKind) (x : Nat) : Option (State × Nat) :=
  if va % k.size ≠ 0 then none
  else
    match s.agentXlate t va .write with
    | .ok tgt =>
      if !tgt.plain || (k.unsupported tgt).isSome then none
      else
        match s.agentBytes t va k.size with
        | none => none
        | some (s, bs) =>
          match k.apply (leNat bs) x with
          | (none, r) => some (s, r)
          | (some v, r) => (s.agentStore 4 t va (leBytes v k.size)).map fun s => (s, r)
    | _ => none

/-- ATOMIC. -/
def execAtomic (page offset fn op ty : Nat) (operands : List Byte) (src tag : Nat) (s : State) :
    Host.Outcome State Fault Refusal :=
  .next <|
    s.unlessMoving (.atomic page offset fn op ty operands src tag) fun s =>
      match s.served page offset with
      | none => s
      | some (t, va) =>
        let k := linkKind fn op ty
        match s.serveAtomic t va k (leNat operands) with
        | some (s, r) => s.send (.response src tag (leBytes r k.size))
        | none => if va % k.size ≠ 0 then s else s.agentFail t va

/-- MWRITE: a write out of range is dropped, and accepted all the same. -/
def execMwrite (group offset : Nat) (data : List Byte) (src tag : Nat) (s : State) : Host.Outcome State Fault Refusal :=
  .next (s.unlessMoving (.mwrite group offset data src tag) fun s => (s.windowWrite group offset 4 data).send (.accepted src tag))

/-- REDREAD: this member's value for the reduction, at its master; an offset out of range gets none. -/
def execRedread (group offset size src tag : Nat) (s : State) : Host.Outcome State Fault Refusal :=
  .next <|
    s.unlessMoving (.redread group offset size src tag) fun s =>
      match s.windowAt group offset size with
      | none => s
      | some (t, va) =>
        match s.agentBytes t va size with
        | some (s, bs) => s.send (.response src tag bs)
        | none => s.agentFail t va

/-- SIGNAL: the message carries no guarded range, and the spec does not say which it brings to the slot's summary: the model takes the
whole address space (10 R210; log 67). -/
def execSignal (address : DWord) (value : Word) (tenant src tag : Nat) (s : State) : Host.Outcome State Fault Refusal :=
  .next ((s.deliverPost tenant address.toNat value .whole).send (.accepted src tag))

/-- Exactly `n` bytes of a list. -/
def fitBytes (bs : List Byte) (n : Nat) : List Byte := (bs ++ List.replicate n 0).take n

/-- A list of bytes with a piece put at an offset. -/
def putPiece (data : List Byte) (off : Nat) (bs : List Byte) : List Byte := fitBytes data off ++ bs ++ data.drop (off + bs.length)

/-- A piece of a member's contribution joins what has come of it; this module's own part is whole already (11 R246, R252). -/
def State.addPiece (s : State) (group seq rank off : Nat) (desc : List DWord) (bs : List Byte) : State :=
  if seq < (sget s.groupRun group).toNat || rank = s.rank group then s
  else
    let here (p : CollPart) : Bool := p.group = group && p.seq = seq && p.rank = rank
    if s.parts.any here then
      { s with parts := s.parts.map fun p =>
          if here p then { p with data := putPiece p.data off bs, got := p.got + bs.length } else p }
    else
      { s with parts := s.parts ++
          [{ group := group, seq := seq, rank := rank, desc := desc, data := putPiece [] off bs, got := bs.length }] }

/-- CDATA: a piece of a member's contribution to a collective, which is accepted (11 R252; log 27). -/
def execCdata (group seq rank : Nat) (desc : List DWord) (piece : Piece) (s : State) : Host.Outcome State Fault Refusal :=
  .next ((s.addPiece group seq rank piece.offset desc piece.data).send (.accepted piece.src piece.tag))

/-! ### The replies to the module's own requests (02 R38; 11 R252; 25 R425) -/

/-- The slices whose JOINW waits for a request of their crew. -/
def waitersOf (c : Crew) (r : Request) : List Nat :=
  c.liveSlices.filter fun i =>
    match (c.slice i).wait with
    | .join a _ _ => a = r.addr
    | _ => false

/-- A request is gone. -/
def State.dropRequest (s : State) (r : Request) : State := { s with requests := s.requests.filter fun x => x.id ≠ r.id }

/-- A write or a post of an engine operation fails: a SIGNAL is lost, a PUTSIG's slice has lost a write, and any other operation
ends in error (11 R250, R252). -/
def State.failOp (s : State) (r : Request) (id : Nat) : State :=
  if !r.told then s.dropRequest r
  else if s.ops.any fun o => o.id = id && o.kind == EngKind.putsig then
    (s.dropRequest r).modOp id fun o => { o with lost := o.lost ++ [(r.lane, 0x15)] }
  else
    ({ s with requests := s.requests.filter fun x => x.op != some id } : State).modOp id fun o => { o with status := .failed 0x15 }

/-- A request is answered: a read has its data, and a store is accepted. -/
def State.answer (s : State) (r : Request) (data : List Byte) : State :=
  if r.store then { s with requests := s.requests.filter fun x => x.id ≠ r.id }
  else { s with requests := s.requests.map fun x => if x.id = r.id then { x with data := some (fitBytes data r.size) } else x }

/-- A request fails: a store is lost to the lanes that made it; a load, an atomic or an RLOAD traps FABRIC once all of its flight has
been answered, for its lowest lane that has failed; a JOINW does at once (11 R252; 21 R326 step 9; 25 R425). -/
def State.failRequest (s : State) (r : Request) : State :=
  match r.op with
  | some id => s.failOp r id
  | none =>
    let c := s.crew r.crew
    if r.store then
      let lanes := if r.told then lanes32.filter (mbit r.mask) else []
      (s.dropRequest r).modCrew r.crew fun c => { c with lost := c.lost ++ lanes.map fun l => (l, r.addr) }
    else
      match c.flights.find? fun fl => fl.group = r.group with
      | some fl =>
        if c.gone fl r then s.answer r []
        else { s with requests := s.requests.map fun x => if x.id = r.id then { x with failed := some 0x15 } else x }
      | none => (waitersOf c r).foldl (fun s i => s.trapWaiting r.crew i 0x15 r.addr) (s.dropRequest r)

/-- A request that awaits its response. -/
def State.awaited (s : State) (id : Nat) : Option Request := s.requests.find? fun r => r.id = id && r.waits

/-- MEMORY_REPLY: the response to a request, or its refusal. -/
def execMemoryReply (request : Nat) (data : List Byte) (ok : Bool) (s : State) : Host.Outcome State Fault Refusal :=
  .next <|
    match s.awaited request with
    | none => s
    | some r => if ok then s.answer r data else s.failRequest r

/-- A request has had no response for 100 µs. -/
def State.fabricDue (s : State) (r : Request) : Bool := r.waits && r.since + 100 * Config.usec ≤ s.time

/-- FABRIC_TIMEOUT. -/
def execFabricTimeout (request : Nat) (s : State) : Host.Outcome State Fault Refusal :=
  .next <|
    match s.awaited request with
    | none => s
    | some r => if s.fabricDue r then s.failRequest r else s

/-- A slice has waited for a route for 100 µs, and there is none; an atomic some of whose lanes have gone fails in its turn
(11 R258; 21 R334). -/
def State.routeDue (s : State) (c : Crew) (sl : Slice) : Bool :=
  match sl.wait with
  | .route d _ since | .cut d since =>
    sl.group.isNone && since + 100 * Config.usec ≤ s.time && (s.hops (cacheDie (s.site c)) d).isNone && (4 ≤ d || (s.die d).inService)
  | _ => false

/-- ROUTE_TIMEOUT: LINKCUT, with the address in TRAPINFO; a call record that waited is DOUBLE, and a PINV cuts the die (08 R178,
R190; 11 R258). -/
def execRouteTimeout (crew slice : Nat) (s : State) : Host.Outcome State Fault Refusal :=
  .next <|
    let c := s.crew crew
    let sl := c.slice slice
    if !s.routeDue c sl then s
    else
      match sl.wait, sl.pend with
      | .route _ _ _, some t =>
        (s.modCrew crew fun c => c.modSlice slice fun sl => { sl with wait := .none, pend := none }).double crew slice t
      | .route _ a _, none => s.trapWaiting crew slice 0x14 a
      | .cut d _, _ => s.fenceDie d
      | _, _ => s

/-! ### After issue: the scoreboard, passes and engines -/

/-- PENDING_WRITE_COMPLETE: the pending writes of a crew are done, and an access whose replies have come lands (04 R85; 23 R372). -/
def execPendingWriteComplete (crew : Nat) (s : State) : Host.Outcome State Fault Refusal :=
  .next <|
    let s := match s.landing crew with | some fl => s.landFlight crew fl | none => s
    s.modCrew crew fun c => { c with pend := [] }

/-- PASS_RETIRE: a matrix pass retires, the earliest of its crew, and holds its registers no more (06 R137, R138). -/
def execPassRetire (crew : Nat) (s : State) : Host.Outcome State Fault Refusal :=
  .next (s.modCrew crew fun c =>
    if c.cnt.matrix = 0 then c else { c with cnt := c.cnt.lower .matrix, passes := c.passes.drop 1 })

/-- Acts on an operation in flight where that is what it does next. -/
def State.onOp (s : State) (id : Nat) (what : OpNext) (f : State → EngineOp → State) : State :=
  match s.ops.find? fun o => o.id = id with
  | some o => if s.opNext o = what then f s o else s
  | none => s

/-- TILE_POST (10 R235). -/
def execTilePost (op : Nat) (s : State) : Host.Outcome State Fault Refusal := .next (s.onOp op .tile State.runTile)

/-- ENGINE_RETIRE (10 R236). -/
def execEngineRetire (op : Nat) (s : State) : Host.Outcome State Fault Refusal := .next (s.onOp op .retire State.retireOp)

/-- ENGINE_FAULT (11 R242). -/
def execEngineFault (op : Nat) (s : State) : Host.Outcome State Fault Refusal := .next (s.onOp op .fault State.opFault)

/-- COLLECTIVE_RUN (11 R245). -/
def execCollectiveRun (group : Nat) (s : State) : Host.Outcome State Fault Refusal :=
  .next (if s.ops.any fun o => o.group = group && s.collDue o then s.runCollective group else s)

end Sys2Proof.Machine
end

