-- ==== Sys2Proof/Machine/Faultq.lean ====
section
/-! DEFINITION. Fault service: the replay of a fault record and the records that wait behind a full ring (spec 08 R186, R187,
R190; 11 R242). -/

namespace Sys2Proof.Machine

/-- The slices of a record that are still parked. -/
def parkedOf (c : Crew) (mask : BitVec 8) : List Nat := slices8.filter fun i => mbit mask i && (c.slice i).wait == .parked

/-- The record of an index is answered. -/
def State.closeFault (s : State) (t idx : Nat) : State := s.modTenant t fun x => { x with open_ := adel x.open_ idx }

/-- Replays parked slices as one gang, or delivers their fault to each as a crew trap with code PROT (08 R187). -/
def State.replaySlices (s : State) (k : Nat) (is : List Nat) (addr : DWord) (trap : Bool) : State :=
  let c := s.crew k
  let s := s.modCrew k fun c => c.modSlices is fun sl => { sl with wait := .none }
  if !trap then s
  else
    is.foldl (fun s i =>
      let sl := c.slice i
      let a := BitVec.ofNat 64 (protInfo addr.toNat)
      s.raise k i { code := 0x07, info := a, addr := a, retpc := sl.pc, word := sl.word, pfx := sl.pfx }) s

/-- Unfreezes a crew and attempts the delivery of its trap again (08 R190). -/
def State.unfreeze (s : State) (k : Nat) : State :=
  match (s.crew k).frozen with
  | none => s
  | some (i, t) => (s.modCrew k fun c => { c with frozen := none }).deliver k i t

/-- Resumes an engine operation that a PAGE fault stopped, or makes it the error PROT (11 R242, R250; log 71). -/
def State.resumeOp (s : State) (id : Nat) (trap : Bool) : State :=
  s.modOp id fun o =>
    if o.status == .stopped then (if trap then o.failAt o.elems 0x07 else { o with status := .running }) else o

/-- A write to FQREPLAY (08 R187). A record that names nothing parked, frozen or stopped has no effect. -/
def State.replay (s : State) (t idx : Nat) (trap : Bool) : State :=
  match aget (s.tenant t).open_ idx with
  | none => s
  | some target =>
    let s := s.closeFault t idx
    match target with
    | .slices k mask addr => s.replaySlices k (parkedOf (s.crew k) mask) addr trap
    | .frozen k => s.unfreeze k
    | .engine id => s.resumeOp id trap

/-- Whom a record concerns is still there. -/
def State.concerns (s : State) (x : FaultTarget) : Bool :=
  match x with
  | .slices k _ _ | .frozen k => (aget s.crews k).isSome
  | .engine id => s.ops.any fun o => o.id = id

/-- Appends the records that wait, in the order of their faults, while the ring has room (08 R186). -/
def appendWaiting (t : Nat) : Nat → State → State
  | 0, s => s
  | n + 1, s =>
    let ten := s.tenant t
    match ten.waiting with
    | [] => s
    | r :: rest =>
      let s1 := s.modTenant t fun x => { x with waiting := rest }
      if ten.halted || !s.concerns r.target then appendWaiting t n s1
      else if s.ringFull t then s
      else appendWaiting t n (s1.writeFault t r)

/-- FQTAIL is read again while records wait (08 R186). -/
def State.pollTail (s : State) (t : Nat) : State := appendWaiting t (s.tenant t).waiting.length s

/-- FQREPLAY (08 R187). -/
def execFqreplay (tenant index : Nat) (s : State) : Host.Outcome State Fault Refusal := .next (s.replay tenant index false)

/-- FQREPLAY with TRAP set. -/
def execFqreplayTrap (tenant index : Nat) (s : State) : Host.Outcome State Fault Refusal := .next (s.replay tenant index true)

/-- The device reads FQTAIL again. -/
def execFqtailPoll (tenant : Nat) (s : State) : Host.Outcome State Fault Refusal := .next (s.pollTail tenant)

end Sys2Proof.Machine
end

