-- ==== Sys2Proof/Machine/Launching.lean ====
section
/-! DEFINITION. The launch unit's packets: what makes one bad, the limits of a launch, what a core has room for, the start of
a launch, and the packets of a queue with their order (spec 02 R26 to R31; 12 R265 to R269, R446). -/

namespace Sys2Proof.Machine

/-! ### The resource word (12 R267) -/

/-- Crews of a party on a partition: crew c is on partition c mod 8 (02 R25). -/
def crewsOn (n p : Nat) : Nat := (n + 7 - p) / 8

/-- Vector registers of a crew. -/
def resVregs (r : Nat) : Nat := 8 * natBits r 16 10
/-- Accumulators of a crew. -/
def resAccs (r : Nat) : Nat := natBits r 20 17
/-- Operand slots of a party. -/
def resSlots (r : Nat) : Nat := natBits r 28 21
/-- Signal slots of a party. -/
def resSignals (r : Nat) : Nat := natBits r 35 29
/-- Scratchpad bytes of a party. -/
def resScratch (r : Nat) : Nat := 4096 * natBits r 44 36
/-- Near-frame quota of a party. -/
def resNear (r : Nat) : Nat := natBits r 53 45

/-- The declared resources lie within the ranges of R26. -/
def resLegal (r : Nat) : Bool :=
  1 ≤ natBits r 5 0 && natBits r 5 0 ≤ 32 && natBits r 9 6 ≤ 8 && 8 ≤ resVregs r && resVregs r ≤ 512 && resAccs r ≤ 8
    && resSlots r ≤ 128 && resSignals r ≤ 64 && resScratch r ≤ Config.scratchMax && resNear r ≤ 384

/-! ### Room on a core (02 R27, R28) -/

/-- What parties take of a core, by partition for crews and vector registers. -/
structure Usage where
  crews : List Nat := List.replicate 8 0
  vregs : List Nat := List.replicate 8 0
  accs : Nat := 0
  slots : Nat := 0
  signals : Nat := 0
  scratch : Nat := 0
  near : Nat := 0
  deriving DecidableEq, Repr

/-- Adds `n` parties of a resource word. -/
def Usage.add (u : Usage) (r n : Nat) : Usage :=
  let c := natBits r 5 0
  { crews := (List.range 8).map fun p => u.crews.getD p 0 + n * crewsOn c p
    vregs := (List.range 8).map fun p => u.vregs.getD p 0 + n * (resVregs r * crewsOn c p)
    accs := u.accs + n * (c * resAccs r)
    slots := u.slots + n * resSlots r
    signals := u.signals + n * resSignals r
    scratch := u.scratch + n * resScratch r
    near := u.near + n * resNear r }

/-- Bytes of the scratchpad carve: steps of 64 KiB. -/
def carveBytes (x : Nat) : Nat := ceilDiv x 65536 * 65536

/-- Adds one party of a resource word whose near quota is as given. -/
def Usage.addParty (u : Usage) (r quota : Nat) : Usage := { u.add r 1 with near := u.near + quota }

/-- The lines of R27. -/
def Usage.ok (u : Usage) : Bool :=
  u.crews.all (· ≤ 32) && u.vregs.all (· ≤ 2048) && u.accs ≤ 64 && u.slots ≤ 128 && u.signals ≤ 256
    && carveBytes u.scratch ≤ Config.scratchMax && u.near + carveBytes u.scratch / 4096 ≤ 768

/-- What the parties on a core take: those resident and those not yet saved. -/
def State.usage (s : State) (d c : Nat) : Usage :=
  (s.parties.filter fun (_, q) =>
    q.die = d && q.core = c && (match q.status with | .resident | .stopping _ => true | _ => false)).foldl
      (fun (u : Usage) q => u.addParty (s.launchRec q.2.launch).res.toNat q.2.nearQuota) {}

/-- The most parties of a resource word that an empty core takes. -/
def coreCap (r : Nat) : Nat := ((List.range 257).filter fun n => (Usage.add {} r n).ok).length - 1

/-- The octants of a tenant, numbered 4 × die + octant (12 R260). -/
def Tenant.octantList (t : Tenant) : List Nat := (List.range 16).filter fun o => mbit t.octants o

/-- A launch fits the empty cores of its tenant: one party, one outing, and for a cooperative launch the grid (02 R28). -/
def emptyFit (ten : Tenant) (r total : Nat) (coop : Bool) : Bool :=
  let cap := coreCap r
  let per := max 1 (natBits r 9 6)
  let n := ten.octantList.length
  let most := n * (8 * cap / per)
  1 ≤ cap && 1 ≤ n &&
    (!coop || total / per + bit01 (total % per ≠ 0) ≤ most || (total / per ≤ most && total % per ≤ 8 * cap % per))

/-! ### Packets (12 R265, R266) -/

/-- TYPE. -/
def pktType (p : Packet) : Nat := natBits (pktWord p 0) 7 0
/-- FENCE. -/
def pktFence (p : Packet) : Bool := natBit (pktWord p 0) 19
/-- COMPL. -/
def pktCompl (p : Packet) : Nat := pktWord p 6

/-- An unknown TYPE or a reserved bit set (12 R265). -/
def packetBad (p : Packet) : Bool :=
  let w := pktWord p
  4 < pktType p || natBits (w 0) 31 24 ≠ 0 || natBits (w 0) 17 8 ≠ 0 ||
  match pktType p with
  | 1 => natBit (w 2) 63 || natBits (w 3) 63 55 ≠ 0 || w 7 ≠ 0
  | 2 => w 7 ≠ 0
  | 3 => w 3 / 2 ≠ 0 || w 4 ≠ 0 || w 5 ≠ 0 || w 7 ≠ 0
  | 4 => w 4 ≠ 0 || w 5 ≠ 0 || w 7 ≠ 0
  | _ => false

/-- An extent of a LAUNCH packet: its field plus 1 (02 R31). -/
def pktExt (p : Packet) (i : Nat) : Nat := natBits (pktWord p 2) (21 * i + 20) (21 * i) + 1

/-- The parties of a LAUNCH packet's grid. -/
def pktTotal (p : Packet) : Nat := pktExt p 0 * pktExt p 1 * pktExt p 2

/-- The packet exceeds a limit of R26 or R28. -/
def State.overLimit (s : State) (p : Packet) : Bool :=
  !resLegal (pktWord p 3) || 2 ^ 32 < pktTotal p
    || !emptyFit (s.tenant p.tenant) (pktWord p 3) (pktTotal p) (natBit (pktWord p 0) 21)

/-! ### Jobs: the packets of a queue that are not complete -/

/-- Changes the kind of a job. -/
def State.setJob (s : State) (id : Nat) (k : JobKind) : State :=
  { s with jobs := s.jobs.map fun j => if j.id = id then { j with kind := k } else j }

/-- The jobs of a packet's queue that stand before a job. -/
def State.before (s : State) (j : Job) : List Job :=
  (s.jobs.takeWhile fun x => x.id ≠ j.id).filter fun x => x.pkt.tenant = j.pkt.tenant && x.pkt.queue = j.pkt.queue

/-- A packet that has been read may start: in index order, and with FENCE once every earlier packet of its queue has completed
(12 R264, R266). -/
def State.canStart (s : State) (j : Job) : Bool :=
  let l := s.before j
  l.all (fun x => x.kind != .fenced) && (!pktFence j.pkt || l.isEmpty)

/-- Enters a packet that has been read among the jobs of its queue, and starts it where it may. -/
def State.enlist (s : State) (p : Packet) (go : State → Nat → State) : State :=
  let (s, id) := s.fresh
  let j : Job := { id := id, kind := .fenced, pkt := p }
  let s : State := { s with jobs := s.jobs ++ [j] }
  if s.canStart j then go s id else s

/-- The completion of a packet that launches nothing: RETIRED and SPVOR are zero (12 R268). -/
def State.finishPacket (s : State) (p : Packet) (job : Nat) : State :=
  let c := pktCompl p
  let s :=
    if c = 0 then s
    else
      let s := s.complWord p.tenant p.queue (pktTag p) (c + 0x08) fun _ => 0
      s.complWord p.tenant p.queue (pktTag p) (c + 0x10) fun _ => 0
  (s.writeDone p c 0).endJob job

/-! ### Starting a launch -/

/-- A launch tag that no live launch has (10 R232; log 15). -/
def State.freeTag (s : State) : Option Nat :=
  (List.range 1024).find? fun t => !s.launches.any fun (_, l) => !l.complete && l.tag.toNat % 1024 = t

/-- Enters a launch; one of a halted context is discarded (log 33). -/
def State.newLaunch (s : State) (p : Packet) (job tag : Nat) (args : List DWord) : State :=
  let w := pktWord p
  let (s, id) := s.fresh
  let ten := s.tenant p.tenant
  let dw (i : Nat) : DWord := BitVec.ofNat 64 (w i)
  let l : Launch :=
    { tenant := p.tenant, queue := p.queue, tag := BitVec.ofNat 32 tag, addr := p.addr, job := job, entry := dw 1
      e0 := pktExt p 0, e1 := pktExt p 1, e2 := pktExt p 2, res := dw 3
      prio := min (natBits (w 0) 23 22) ten.maxprio
      coop := natBit (w 0) 21, sys := natBit (w 0) 20, args := args, join := dw 5, compl := dw 6
      walks := List.replicate 4 {}, gbars := List.replicate 4 {}, discarded := ten.halted }
  let s := ({ s with launches := aset s.launches id l } : State).setJob job (.grid id)
  if ten.halted then s.discardLaunch id else s

/-- A launch that exceeds a limit is rejected: none of its parties starts, and its record says so (02 R26; 12 R268, R446). -/
def State.rejectLaunch (s : State) (p : Packet) : State :=
  let s := s.queueError p.tenant 1 p.queue (pktTag p) (if p.queue = 0x7F then 0 else p.addr)
  s.writeDone p (pktCompl p) 2

/-- The context in whose name the launch unit orders its reads; it holds no replica. -/
def agentCrew (t : Nat) : Crew := { place := .service 0 0, tenant := t }

/-- An acquire by the launch unit of a word: the lazy releases that its records hold are drained (09 R206), and where one of them
cannot be yet, the step waits (11 R258). -/
def State.agentAcquire (s : State) (t va : Nat) : State :=
  match s.agentXlate t va .read with
  | .ok tgt =>
    match tgt.granule.filter fun g => (s.awayRec g).isSome with
    | some g => { s with met := some (.away g) }
    | none => s.acquire (agentCrew t) tgt
  | _ => s

/-- The double-words of an argument block. -/
def dwordsOf (bs : List Byte) (n : Nat) : List DWord := (List.range n).map fun i => BitVec.ofNat 64 (leNat ((bs.drop (8 * i)).take 8))

/-- A packet that could not be read is discarded and reported (12 R269, R446). -/
def State.unmapped (s : State) (t queue va : Nat) : State := (s.agentFail t va).queueError t 3 queue 0 va

/-- A LAUNCH packet starts its grid or is rejected (12 R267). -/
def State.launchPacket (s : State) (p : Packet) (job : Nat) : State :=
  if s.overLimit p then (s.rejectLaunch p).endJob job
  else
    match s.freeTag with
    | none => s
    | some tag =>
      match p.args with
      | some args => s.newLaunch p job tag args
      | none =>
        match s.agentBytes p.tenant (pktWord p 4) 64 with
        | some (s, bs) => s.newLaunch p job tag (dwordsOf bs 8)
        | none => (s.unmapped p.tenant p.queue (pktWord p 4)).endJob job

/-! ### The other packets (12 R268) -/

/-- A dependency word reads zero; a DEP of 0 names none. -/
def depZero (t : Nat) (s : State) (va : Nat) : State × Bool :=
  if va = 0 then (s, true)
  else
    match (s.agentAcquire t va).agentBytes t va 8 with
    | some (s, bs) => (s, leNat bs = 0)
    | none => (s, false)

/-- Every dependency word of a BARRIER-AND packet reads zero. -/
def State.depsZero (s : State) (p : Packet) : State × Bool :=
  [1, 2, 3, 4, 5].foldl (fun (a : State × Bool) i =>
    let (s, z) := depZero p.tenant a.1 (pktWord p i)
    (s, a.2 && z)) (s, true)

/-- SIGNAL's write or atomic add at home. A word that the context cannot write is left alone (log 34). -/
def State.signalWord (s : State) (p : Packet) : State :=
  let v := pktWord p 2
  (s.modWord p.tenant (pktWord p 1) fun x => if natBit (pktWord p 3) 0 then (x + v) % 2 ^ 64 else v).getD
    (s.agentFail p.tenant (pktWord p 1))

/-- Moves bytes for a COPY packet in rising order, as far as both addresses translate (log 34). -/
def copyBytes (t : Nat) : Nat → State → Nat → Nat → Nat → State
  | 0, s, _, _, _ => s
  | fuel + 1, s, src, dst, n =>
    if n = 0 then s
    else
      let k := min (pieceLen src n) (pieceLen dst n)
      match s.agentBytes t src k with
      | none => s.agentFail t src
      | some (s, bs) =>
        match s.agentStore 4 t dst bs with
        | none => s.agentFail t dst
        | some s => copyBytes t fuel s ((src + k) % 2 ^ 64) ((dst + k) % 2 ^ 64) (n - k)

/-- The launch unit's channel performs a COPY packet. The spec gives no outcome for a length that is not a multiple of 64: the model copies
exactly that many bytes (12 R266; log 70). -/
def State.copyData (s : State) (p : Packet) : State :=
  copyBytes p.tenant (pktWord p 3 / 64 + 4) s (pktWord p 1) (pktWord p 2) (pktWord p 3)

/-- What a packet does once it may start (12 R266). -/
def State.startPacket (s : State) (p : Packet) (job : Nat) : State :=
  match pktType p with
  | 0 => s.finishPacket p job
  | 1 => s.launchPacket p job
  | 2 => s.setJob job .barrier
  | 3 => (s.signalWord p).finishPacket p job
  | _ => (s.copyData p).setJob job .copy

/-- The row of a packet that starts after it has waited. -/
def packetEvent (p : Packet) : Instr :=
  match pktType p with
  | 0 => .nopPacket p
  | 1 => .launch p
  | 2 => .barrierAnd p
  | 3 => .signalPacket p
  | _ => .copyPacket p

/-- The same, which waits with all of it for a MOVING page that it meets (08 R176); nothing starts in a step that waits already. -/
def State.beginPacket (s : State) (p : Packet) (job : Nat) : State :=
  if s.met.isSome then s else s.unlessMoving (packetEvent p) fun s => s.startPacket p job

/-- A packet that has been read: discarded when it is bad, else started or left to wait (12 R265). -/
def State.takePacket (s : State) (p : Packet) : State :=
  if packetBad p then s.queueError p.tenant 2 p.queue (pktTag p) p.addr
  else s.enlist p fun s j => s.beginPacket p j

/-- A waiting packet may start now; a LAUNCH needs a launch tag too. -/
def State.fencedDue (s : State) (j : Job) : Bool :=
  j.kind == .fenced && s.canStart j && (pktType j.pkt != 1 || s.overLimit j.pkt || s.freeTag.isSome)

end Sys2Proof.Machine
end

