-- ==== Sys2Proof/Machine/Queues.lean ====
section
/-! DEFINITION. Contexts and queues: the control block, the activation and destruction of a queue, and the reading of its packets
(spec 12 R260, R263 to R269). -/

namespace Sys2Proof.Machine

/-! ### The context control block (12 R260) -/

/-- The configuration fields of a control block; a halted context is one no longer (log 33). The FPE trap enables are those of the
context's crews at once (05 R112). -/
def State.takeCcb (s : State) (t : Nat) : State :=
  let b := (s.tenant t).ccbaddr.toNat
  let dw (o : Nat) : Nat := s.physNat (b + o) 8
  let vdt : List (Option Nat) := (List.range 4).map fun v =>
    let x := s.physNat (b + 0x20 + v) 1
    if natBit x 7 then some (x % 4) else none
  let ten := BitVec.ofNat 5 (natBits (dw 0x018) 12 8)
  let s : State := { s.usePhys b with crews := s.crews.map fun (k, c) => (k, if c.tenant = t then { c with ten := ten } else c) }
  s.modTenant t fun x =>
    { x with
      root := natBits (dw 0x000) 55 16
      asid := natBits (dw 0x008) 15 0
      number := natBits (dw 0x008) 19 16
      expl := natBit (dw 0x008) 32
      snapu := natBit (dw 0x008) 33
      octants := BitVec.ofNat 16 (dw 0x010)
      maxprio := natBits (dw 0x018) 1 0
      ten := ten
      vdt := vdt
      vecbase := dw 0x028
      errBase := dw 0x030
      errCount := natBits (dw 0x038) 31 0
      fqBase := BitVec.ofNat 64 (dw 0x040)
      fqSize := natBits (dw 0x048) 31 0
      trapvec := BitVec.ofNat 64 (dw 0x058)
      halted := false }

/-! ### Queues (12 R263, R269) -/

/-- Activation reads the descriptor; the read index starts from its word in memory (log 35). -/
def State.activate (s : State) (t q : Nat) : State :=
  let d := (s.tenant t).ccbaddr.toNat + 0x100 + 32 * q
  let s := s.usePhys d
  let ridx := s.physNat (d + 0x18) 8
  let (s, next) : State × Nat :=
    match s.agentBytes t ridx 8 with
    | some (s, bs) => (s, leNat bs)
    | none => (s.agentFail t ridx, 0)
  s.setQueue t q
    { state := 1, rbase := BitVec.ofNat 64 (s.physNat d 8), rsize := s.physNat (d + 8) 4
      widx := BitVec.ofNat 64 (s.physNat (d + 0x10) 8), ridx := BitVec.ofNat 64 ridx, next := next }

/-- Activation, which waits where the read index lies on a MOVING page or no route leads to it (08 R176; 11 R258). -/
def State.activateQueue (s : State) (t q : Nat) : State := s.unlessMoving (.qctlActivate t q) fun s => s.activate t q

/-- ABORT: DRAIN, and every party that the queue's packets launched is discarded. -/
def State.abortQueue (s : State) (t q : Nat) : State :=
  (s.drainQueue t q).discardLaunches fun l => l.tenant = t && l.queue = q

/-- A write to QCTL: QUEUE [5:0] and OP [9:8]. -/
def State.queueControl (s : State) (t v : Nat) : State :=
  let q := natBits v 5 0
  match natBits v 9 8 with
  | 1 => s.activateQueue t q
  | 2 => s.drainQueue t q
  | 3 => s.abortQueue t q
  | _ => s

/-! ### Reading packets (12 R264) -/

/-- Reads the packet of index `i` and moves the read index past it, which it writes for software (log 35); then the packet is acted
on, or reported where its read faulted (12 R269). The spec gives no outcome for an RSIZE of 0 or outside R263's range, nor for an RBASE,
WIDX or RIDX that is not aligned: the model uses them as they stand, and an RSIZE of 0 as 1 (log 68). -/
def State.readPacket (s : State) (t q i : Nat) : State :=
  let x := s.queue t q
  let va := (x.rbase.toNat + 64 * (i % max 1 x.rsize)) % 2 ^ 64
  let r : State × Option (List DWord) :=
    match s.agentBytes t va 64 with
    | some (s, bs) => (s, some (dwordsOf bs 8))
    | none => (s, none)
  let s := r.1.modTenant t fun ten => { ten with queues := amod ten.queues q fun x => { x with next := i + 1 } }
  let s := (s.agentStore 4 t x.ridx.toNat (leBytes (i + 1) 8)).getD (s.agentFail t x.ridx.toNat)
  match r.2 with
  | some ws => s.takePacket { tenant := t, queue := q, addr := va, words := ws }
  | none => s.unmapped t q va

/-- Reads packets up to the write index, as many as the ring holds, while the queue is active. -/
def readPackets (t q widx : Nat) : Nat → State → State
  | 0, s => s
  | n + 1, s =>
    let x := s.queue t q
    if x.state = 1 && x.next < widx then readPackets t q widx n (s.readPacket t q x.next) else s

/-- The launch unit reads a queue's write index with an acquire at system scope, and the packets up to it. -/
def State.serveQueue (s : State) (t q : Nat) : State :=
  let x := s.queue t q
  if x.state ≠ 1 then s
  else
    match (s.agentAcquire t x.widx.toNat).agentBytes t x.widx.toNat 8 with
    | some (s, bs) => readPackets t q (leNat bs) (max 1 x.rsize) s
    | none => s.agentFail t x.widx.toNat

/-- The write index of an active queue stands beyond its read index. -/
def State.queueDue (s : State) (t q : Nat) : Bool :=
  let x := s.queue t q
  x.state = 1 &&
    match s.agentBytes t x.widx.toNat 8 with
    | some (_, bs) => x.next < leNat bs
    | none => false

/-! ### The rows of the launch unit -/

/-- The job of a packet that has waited and may start now. -/
def State.waitingJob (s : State) (p : Packet) : Option Job :=
  s.jobs.find? fun j => j.kind == .fenced && j.pkt == p && s.canStart j

/-- A packet of one type: one that has waited starts, else it has been read now; what is no such packet is not this step. -/
def packetOf (ty : Nat) (p : Packet) (s : State) : Host.Outcome State Fault Refusal :=
  .next <|
    if pktType p ≠ ty then s
    else
      let s : State := { s with met := none }
      match s.waitingJob p with
      | some j => s.beginPacket p j.id
      | none => s.takePacket p

/-- LAUNCH (12 R267). -/
def execLaunch (p : Packet) (s : State) : Host.Outcome State Fault Refusal := packetOf 1 p s

/-- NOP (12 R266). -/
def execNopPacket (p : Packet) (s : State) : Host.Outcome State Fault Refusal := packetOf 0 p s

/-- BARRIER-AND (12 R268). -/
def execBarrierAnd (p : Packet) (s : State) : Host.Outcome State Fault Refusal := packetOf 2 p s

/-- SIGNAL (12 R268). -/
def execSignalPacket (p : Packet) (s : State) : Host.Outcome State Fault Refusal := packetOf 3 p s

/-- COPY (12 R268). -/
def execCopyPacket (p : Packet) (s : State) : Host.Outcome State Fault Refusal := packetOf 4 p s

/-- A BARRIER-AND whose dependency words all read zero completes. -/
def execBarrierAndComplete (job : Nat) (s : State) : Host.Outcome State Fault Refusal :=
  .next <|
    match s.jobs.find? fun j => j.id = job && j.kind == .barrier with
    | some j =>
      s.unlessMoving (.barrierAndComplete job) fun s =>
        let (s, z) := s.depsZero j.pkt
        if z then s.finishPacket j.pkt job else s
    | none => s

/-- The copy channel has finished a COPY packet. -/
def execCopyPacketComplete (job : Nat) (s : State) : Host.Outcome State Fault Refusal :=
  .next <|
    match s.jobs.find? fun j => j.id = job && j.kind == .copy with
    | some j => s.unlessMoving (.copyPacketComplete job) fun s => s.finishPacket j.pkt job
    | none => s

/-- A doorbell write of a queue (12 R264). -/
def execQueueDoorbell (tenant queue : Nat) (s : State) : Host.Outcome State Fault Refusal :=
  .next (s.unlessMoving (.queueDoorbell tenant queue) fun s => s.serveQueue tenant queue)

/-- The poll of a queue's write index (12 R264). -/
def execQueuePoll (tenant queue : Nat) (s : State) : Host.Outcome State Fault Refusal :=
  .next (s.unlessMoving (.queuePoll tenant queue) fun s => s.serveQueue tenant queue)

/-- A write of 1 to CCBGO (12 R260). -/
def execCcbgo (tenant : Nat) (s : State) : Host.Outcome State Fault Refusal := .next (s.takeCcb tenant)

/-- QCTL with OP 1 (12 R263). -/
def execQctlActivate (tenant queue : Nat) (s : State) : Host.Outcome State Fault Refusal := .next (s.activateQueue tenant queue)

/-- QCTL with OP 2 (12 R269). -/
def execQctlDrain (tenant queue : Nat) (s : State) : Host.Outcome State Fault Refusal := .next (s.drainQueue tenant queue)

/-- QCTL with OP 3 (12 R269). -/
def execQctlAbort (tenant queue : Nat) (s : State) : Host.Outcome State Fault Refusal := .next (s.abortQueue tenant queue)

end Sys2Proof.Machine
end

