-- ==== Sys2Proof/Machine/Csr.lean ====
section
/-! DEFINITION. The service registers: what a read gives and what a write does, for the service cores and for the host, with the
rows of the table that are writes of one register (spec 11 R254 to R256; 12 R272, R280, R281; 22 R348, R349). -/

namespace Sys2Proof.Machine

/-! ### Snapshots (12 R280, R281) -/

/-- A trigger: it latches the registers of every block, or is counted while a snapshot is held. What a block's registers show is
left open: their values are free (log 19). -/
def State.snapshot (s : State) : State :=
  if sget s.csr 0x31 = 1 then { s with csr := sset s.csr 0x32 (sget s.csr 0x32 + 1) }
  else { s with snapLatch := some s.free, free := s.free + 8192, csr := sset s.csr 0x31 1 }

/-- A write of 1 to SNAPHELD releases the snapshot and clears SNAPMISS. -/
def State.releaseSnap (s : State) (v : DWord) : State :=
  if natBit v.toNat 0 then { s with csr := sset (sset s.csr 0x31 0) 0x32 0 } else s

/-- A double-word of SNAPWIN: a region's header, its registers, and zero beyond them; an unused region reads zero. -/
def State.snapRead (s : State) (i : Nat) : DWord :=
  let b := i / 64
  let n := Config.snapCount b % 64
  match s.snapLatch with
  | none => 0
  | some base =>
    if !Config.snapUsed b then 0
    else if i % 64 = 0 then BitVec.ofNat 64 (b + n * 2 ^ 16 + (Config.snapVersion b).toNat * 2 ^ 32)
    else if i % 64 ≤ n then Config.freeValue (base + i)
    else 0

/-! ### The host's heartbeat (12 R272) -/

/-- A write of 0 to HBFENCE while the host is fenced: every error ring receives HOST_FENCED, and interrupts resume. -/
def State.unfence (s : State) (v : DWord) : State :=
  if v = 0 && s.hostFenced then
    let s := { s with csr := sset s.csr 0x12 0, hbMissed := 0, hbSeen := false, hbLast := s.time }
    s.tenants.foldl (fun s t => s.queueError t.1 9 0x7F 0 0) s
  else s

/-! ### Circuits (11 R255, R256) -/

/-- The entries of the connection table. -/
def State.conn (s : State) (e : Nat) : Nat := (sget s.csr (0x100 + e)).toNat

/-- The circuits that stand: wanted, and neither being set up nor drained. -/
def State.standing (s : State) : List DWord :=
  ((List.range 32).map fun x => sget s.csr (0x100 + x)).filter fun w => natBit w.toNat 31 && !natBit w.toNat 30

/-- The two ports of an entry. -/
def connPorts (w : Nat) : List (Nat × Nat) := [(natBits w 14 12, natBits w 11 9), (natBits w 8 6, natBits w 5 3)]

/-- A wanted circuit that R255 rejects. -/
def State.connBad (s : State) (e w : Nat) : Bool :=
  let a := natBits w 14 12
  let b := natBits w 8 6
  a = b || 4 < a || 4 < b ||
    (List.range 32).any fun x => x ≠ e && natBit (s.conn x) 31 && (connPorts (s.conn x)).any (connPorts w).contains

/-- A write of an entry: rejected with ERR, or taken, with BUSY while the circuit is set up or drained; new traffic no longer takes a
circuit that drains (11 R255). -/
def State.writeConn (s : State) (e : Nat) (v : DWord) : State :=
  let w := v.toNat
  let fields := natBits w 14 3 * 8
  let old := s.conn e
  let put (x : Nat) : State :=
    let s : State := { s with csr := sset s.csr (0x100 + e) (BitVec.ofNat 64 x) }
    { s with routes := s.standing }
  if 32 ≤ e then s
  else if natBit w 31 then
    if s.connBad e w then put (old % 2 ^ 29 + natBits old 31 30 * 2 ^ 30 + 2 ^ 29)
    else put (2 ^ 31 + 2 ^ 30 + fields)
  else put (bit01 (natBit old 31 || natBit old 30) * 2 ^ 30 + fields)

/-- Call records that wait for a route are tried again (11 R258). -/
def State.retryRecords (s : State) : State :=
  (s.crews.filter fun kc => kc.2.slices.any fun sl =>
    sl.pend.isSome && match sl.wait with | .route _ _ _ => true | _ => false).foldl (fun s kc => s.deliverPending kc.1) s

/-- BUSY falls: the circuit carries traffic where it is wanted, and the hop distances are computed anew (11 R256). -/
def State.endDrain (s : State) (e : Nat) : State :=
  if e < 32 && natBit (s.conn e) 30 then
    let s := { s with csr := sset s.csr (0x100 + e) (BitVec.ofNat 64 (s.conn e - 2 ^ 30)) }
    State.retryRecords { s with routes := s.standing, measured := s.standing }
  else s

/-! ### The group table (11 R254) -/

/-- A value moved into a range. -/
def clampTo (lo hi x : Nat) : Nat := min hi (max lo x)

/-- What a double-word of an entry holds after a write: reserved bits read zero, and the fields keep to their ranges. -/
def groupField (i : Nat) (v : Nat) : Nat :=
  match i with
  | 0 =>
    let n := clampTo 2 4096 (natBits v 28 16)
    natBits v 63 48 * 2 ^ 48 + min (natBits v 44 32) (n - 1) * 2 ^ 32 + n * 2 ^ 16 + natBits v 7 0
  | 1 => v / 4096 * 4096
  | _ => v

/-- A write of the group table: every operation in flight on the group ends in error. -/
def State.writeGroup (s : State) (n : Nat) (v : DWord) : State :=
  let g := (n - 0x400) / 4
  let fail (o : EngineOp) : EngineOp :=
    if o.group = g && (o.kind == EngKind.coll || o.kind == EngKind.mstore) then
      match o.status with
      | .failed _ => o
      | _ => { o with status := .failed 0x15 }
    else o
  { s with
    ops := s.ops.map fail
    csr := sset s.csr n (BitVec.ofNat 64 (groupField (n % 4) v.toNat)) }

/-! ### Reads and writes by number (22 R348, R349) -/

/-- The tenant that TSEL selects. -/
def State.selected (s : State) : Nat := (sget s.csr 0).toNat % 16

/-- A register of the security block: what it holds is left open (log 36). -/
def State.securityRead (s : State) : State × DWord := s.freeVal

/-- A read of a service register; a write-only register reads zero. -/
def State.csrRead (s : State) (n : Nat) : State × DWord :=
  let ten := s.tenant s.selected
  if 0x3000 ≤ n then s.securityRead
  else if 0x1000 ≤ n then (s, s.snapRead (n - 0x1000))
  else
    match n with
    | 0x01 => (s, ten.ccbaddr)
    | 0x05 => (s, ten.apbase)
    | 0x06 => (s, ten.aplen)
    | 0x02 | 0x03 | 0x04 | 0x13 | 0x30 => (s, 0)
    | _ => (s, sget s.csr n)

/-- Sets a register that has no behaviour of its own. -/
def State.csrPut (s : State) (n v : Nat) : State := { s with csr := sset s.csr n (BitVec.ofNat 64 v) }

/-- A write of a service register; a read-only one ignores it, as the host's write finds (22 R348). -/
def State.csrWrite (s : State) (n : Nat) (v : DWord) : State :=
  let t := s.selected
  let x := v.toNat
  if 0x1000 ≤ n then s
  else if 0x400 ≤ n then (if n < 0x800 then s.writeGroup n v else s)
  else if 0x100 ≤ n then s.writeConn (n - 0x100) v
  else
    match n with
    | 0x00 => s.csrPut 0x00 (x % 16)
    | 0x01 => s.modTenant t fun ten => { ten with ccbaddr := BitVec.ofNat 64 (x / 4096 * 4096) }
    | 0x02 => if natBit x 0 then s.takeCcb t else s
    | 0x03 => s.queueControl t x
    | 0x04 => s.replay t (natBits x 15 0) (natBit x 16)
    | 0x05 => s.modTenant t fun ten => { ten with apbase := BitVec.ofNat 64 (x / 4096 * 4096) }
    | 0x06 => s.modTenant t fun ten => { ten with aplen := BitVec.ofNat 64 (x / 4096 * 4096) }
    | 0x10 => s.csrPut 0x10 x
    | 0x11 => s.csrPut 0x11 (clampTo 1000 1000000 x)
    | 0x12 => s.unfence v
    | 0x13 => { s with hbSeen := true }
    | 0x20 => s.csrPut 0x20 (clampTo 24 48 x)
    | 0x21 => s.csrPut 0x21 (x % 32)
    | 0x30 => s.snapshot
    | 0x31 => s.releaseSnap v
    | _ => s

/-! ### The rows that are a write of one register -/

/-- HBREG: the host's heartbeat for the current interval. -/
def execHbreg (_ : DWord) (s : State) : Host.Outcome State Fault Refusal := .next { s with hbSeen := true }

/-- HBFENCE. -/
def execHbfence (value : DWord) (s : State) : Host.Outcome State Fault Refusal := .next (s.unfence value)

/-- SNAPTRIG: any value triggers. -/
def execSnaptrig (_ : DWord) (s : State) : Host.Outcome State Fault Refusal := .next s.snapshot

/-- A falling edge on SNAPIN: the pin was high and is then low (12 R280; log 4). -/
def execSnapin (s : State) : Host.Outcome State Fault Refusal := .next s.snapshot

/-- SNAPHELD. -/
def execSnapheld (value : DWord) (s : State) : Host.Outcome State Fault Refusal := .next (s.releaseSnap value)

/-- A connection-table entry is written. -/
def execConnWrite (entry : Nat) (value : DWord) (s : State) : Host.Outcome State Fault Refusal := .next (s.writeConn entry value)

/-- The setting up or draining of a circuit ends. -/
def execCircuitDrainEnd (entry : Nat) (s : State) : Host.Outcome State Fault Refusal := .next (s.endDrain entry)

/-- The bytes of BAR0 that the host reads: register n at byte offset 8n, and zero for the registers that the host does not reach
(22 R348). -/
def State.barBytes (s : State) (off n : Nat) : State × List Byte :=
  let (s, v) := if 0x3000 ≤ off / 8 then (s, 0) else s.csrRead (off / 8)
  (s, ((leBytes v.toNat 8).drop (off % 8) ++ List.replicate n 0).take n)

/-- HOST_READ: of device memory at the master (09 R208), or of a register through BAR0, which the model puts above the addresses of
memory (22 R348; log 60). -/
def execHostRead (pa size tag : Nat) (s : State) : Host.Outcome State Fault Refusal :=
  .next <|
    s.unlessMoving (.hostRead pa size tag) fun s =>
      let (s, bs) := if Config.bar0 ≤ pa then s.barBytes (pa - Config.bar0) size else s.hostBytes pa size
      s.send (.hostData tag bs)

/-- The host's write of a register, through the physical function's BAR0 (22 R348). -/
def execServiceRegisterWrite (number : Nat) (value : DWord) (s : State) : Host.Outcome State Fault Refusal :=
  .next (s.csrWrite number value)

/-- A group table entry is written, by register number. -/
def execGroupTableWrite (number : Nat) (value : DWord) (s : State) : Host.Outcome State Fault Refusal :=
  .next (if 0x400 ≤ number && number < 0x800 then s.writeGroup number value else s)

end Sys2Proof.Machine
end

