-- ==== Sys2Proof/Machine/Sync.lean ====
section
/-! DEFINITION. The group SYNC: barriers, signals and WAITCNT (spec 10 R225 to R238; 09 R209 to R211; 21 R336 to R338; 23 R364,
R365; 25 R417, R418; 26 R437, R438). On a service thread, which has no party, a barrier completes at once and every slot lies
beyond the signal count (log 26). -/

namespace Sys2Proof.Machine

/-! ### Tokens (10 R227) -/

/-- The token of a phase. -/
def token (ph : BitVec 32) (level n : Nat) : DWord := BitVec.ofNat 64 (ph.toNat * 2 ^ 32 + level * 2 ^ 8 + n)

/-- The level of a token. -/
def tokLevel (t : DWord) : Nat := natBits t.toNat 9 8
/-- The barrier number of a token. -/
def tokNumber (t : DWord) : Nat := natBits t.toNat 3 0
/-- The phase of a token. -/
def tokPhase (t : DWord) : BitVec 32 := BitVec.ofNat 32 (t.toNat / 2 ^ 32)

/-- Where an arriving form counts: in the phase in progress, which it may complete; the crew has arrived in it already; or
nowhere, because the crew is no member. -/
inductive Counted where
  | here
  | again
  | nowhere
  | completes
  deriving DecidableEq, Repr

/-- How an arriving form of crew `i` of a party counts at a party barrier (10 R226, R227). -/
def State.countParty (s : State) (p i n : Nat) : Counted :=
  let b := (s.party p).bars.getD n {}
  if b.members &&& s.liveCrews p = 0 then .completes
  else if !mbit b.members i then .nowhere
  else if mbit b.arrived i then .again else .here

/-- The same at an outing barrier. -/
def State.countOuting (s : State) (p i n : Nat) : Counted :=
  let pa := s.party p
  let b := s.outingBar pa n
  if b.members &&& s.liveMembers pa.launch pa.outing = 0 then .completes
  else if !mbit b.members pa.member then .nowhere
  else if mbit (pa.towardBar 1 n) i then .again else .here

/-- The arrival itself: `level` 0 for a party barrier, 1 for an outing barrier. -/
def State.arriveBar (s : State) (p i level n : Nat) (how : Counted) : State :=
  match how, level with
  | .here, 0 =>
    (s.modParty p fun x => { x with bars := lmod x.bars n fun b => { b with arrived := mset b.arrived i true } }).checkPartyBar
      p n
  | .here, _ => (s.modParty p fun x => x.setToward 1 n (mset (x.towardBar 1 n) i true)).arriveOuting p n
  | .completes, 0 => s.endPartyPhase p n
  | .completes, _ => (s.drain p).endOutingPhase (s.party p) n
  | .again, _ | .nowhere, _ => s

/-- BAR and BAR.ARRIVE once every live slice stands there (21 R337), and once the earlier accesses of the live slices are performed,
those of lanes that have exited too (19 R323): `stay` is what the slices do after the arrival. -/
def barForm (f : FmtA) (s : State) (stay : Crew → List Nat → Nat → Nat → BitVec 32 → Crew) : Host.Outcome State Fault Refusal :=
  withIssue s fun s iss =>
    crossArrive s iss fun s is =>
      let k := iss.crew
      let level := f.cl.toNat
      let n := f.b.toNat % 16
      match (s.crew k).place with
      | .service _ _ =>
        s.modCrew k fun c => (if f.b.toNat / 32 = 1 then c.setSreg f.d.toNat (token 0 level n) else c).advance is iss.len
      | .compute p i _ =>
        let lanes := slicesMask is
        let how := if level = 0 then s.countParty p i n else s.countOuting p i n
        let ph := s.phase (s.crew k) level n
        if s.unperformed k lanes then s.awaitEarlier iss is lanes
        else if how == Counted.again then
          s.modCrew k fun c => c.modSlices is fun sl => { sl with wait := .again level n ph }
        else (s.modCrew k fun c => stay c is level n ph).arriveBar p i level n how

/-- BAR: arrives and waits. -/
def execBar (f : FmtA) (s : State) : Host.Outcome State Fault Refusal :=
  barForm f s fun c is level n ph => c.modSlices is fun sl => { sl with wait := .barrier level n ph }

/-- BAR.ARRIVE: writes the token and goes on. -/
def execBarArrive (f : FmtA) (s : State) : Host.Outcome State Fault Refusal :=
  barForm f s fun c is level n ph => (c.setSreg f.d.toNat (token ph level n)).advance is 4

/-- A wait for a phase: a departure at once when it has completed (20 R324), else the barrier-phase wait. -/
def waitPhase (s : State) (iss : Issue) (is : List Nat) (level n : Nat) (ph : BitVec 32) : State :=
  let c := s.crew iss.crew
  match c.partyId with
  | none => s.advance iss is
  | some p =>
    if phaseDone (s.phase c level n) ph then
      let (s, moving) := s.dropParty p
      s.leaveBar iss.crew is moving
    else s.modCrew iss.crew fun c => c.modSlices is fun sl => { sl with wait := .barrier level n ph }

/-- BAR.WAIT (21 R337): a token that names no barrier traps the lowest slice (03 R74). -/
def execBarWait (f : FmtA) (s : State) : Host.Outcome State Fault Refusal :=
  withIssue s fun s iss =>
    crossArrive s iss fun s is =>
      let t := (s.crew iss.crew).sreg f.a.toNat
      let level := tokLevel t
      let bad : Bool := 2 ≤ level || (level = 1 && 4 ≤ tokNumber t)
      crossChecked s iss is (fun _ => if bad then some (0x01, iss.word.toNat) else none) fun s =>
        waitPhase s iss is level (tokNumber t) (tokPhase t)

/-! ### BARCFG (10 R228; 21 R338) -/

/-- A wait at a barrier. -/
def waitsAt (level n : Nat) (w : Wait) : Bool :=
  match w with
  | .barrier l m _ | .again l m _ => l = level && m = n
  | _ => false

/-- The slice's BAR or BAR.ARRIVE has issued at a barrier and does not count yet (10 R228). -/
def arrivesAt (level n : Nat) (sl : Slice) : Bool :=
  match sl.wait, sl.fetched.instr with
  | .accepted _, some (.bar f) | .accepted _, some (.barArrive f) => f.cl.toNat = level && f.b.toNat % 16 = n
  | _, _ => false

/-- A barrier of some parties has a waiter or an arrival. -/
def State.barBusy (s : State) (level n : Nat) (arrived : BitVec 32) (mine : Nat → Party → Bool) : Bool :=
  arrived != 0
    || s.parties.any (fun (p, q) =>
      mine p q && ((level = 1 && q.towardBar 1 n != 0) || q.saved.any fun c => c.slices.any fun sl => waitsAt level n sl.wait))
    || s.crews.any fun (_, c) =>
      (match c.partyId with | some p => mine p (s.party p) | none => false)
        && c.slices.any fun sl => waitsAt level n sl.wait || arrivesAt level n sl

/-- BARCFG. -/
def execBarcfg (f : FmtA) (s : State) : Host.Outcome State Fault Refusal :=
  withIssue s fun s iss =>
    let c := s.crew iss.crew
    let n := f.b.toNat % 16
    let m : BitVec 32 := (c.sreg f.a.toNat).setWidth 32
    match c.partyId with
    | none => s.advance iss iss.slices
    | some p =>
      let pa := s.party p
      if f.cl = 0 then
        if s.barBusy 0 n (pa.bars.getD n {}).arrived fun q _ => q = p then s.trapGang iss iss.slices 0x0B n 0
        else
          let all := maskOf 32 32 fun i => i < pa.crews.length
          (s.modParty p fun x => { x with bars := lmod x.bars n fun b => { b with members := m &&& all, arrived := 0 } }).advance
            iss iss.slices
      else if s.barBusy 1 n (s.outingBar pa n).arrived fun _ q => q.launch = pa.launch && q.outing = pa.outing then
        s.trapGang iss iss.slices 0x0B (n + 16) 0
      else
        let count := (s.launchRec pa.launch).outingCount pa.outing
        let all := maskOf 32 8 fun i => i < count
        (s.modOutingBar pa n fun b => { b with members := m &&& all, arrived := 0 }).advance iss iss.slices

/-! ### GBAR (10 R229; 23 R364, R365) -/

/-- The checks of every GBAR form: a cooperative launch that is not abandoned. -/
def gridChecked (s : State) (iss : Issue) (illegal : Bool) (go : Nat → Nat → State) : State :=
  match (s.crew iss.crew).partyId with
  | none => s.trapGang iss iss.slices 0x01 iss.word.toNat 0
  | some p =>
    let l := (s.party p).launch
    if !(s.launchRec l).coop || illegal then s.trapGang iss iss.slices 0x01 iss.word.toNat 0
    else if (s.launchRec l).abandoned then s.raiseAll iss.crew iss.slices (iss.trap 0x16 1 0 true)
    else go p l

/-- The arriving forms, once the earlier accesses of the gang's slices are performed (19 R323): a slice that has arrived in the phase
in progress waits for its end and arrives again; the others arrive, after what `stay` does. -/
def gridForm (f : FmtA) (s : State) (stay : Crew → List Nat → Nat → BitVec 32 → Crew) : Host.Outcome State Fault Refusal :=
  withIssue s fun s iss =>
    gridChecked s iss false fun _ l =>
      let k := iss.crew
      let n := f.b.toNat % 4
      let lanes := slicesMask iss.slices
      let ph := ((s.launchRec l).gbars.getD n {}).phase
      let arr : BitVec 8 := (aget (s.crew k).gridArr n).getD 0
      let (old, fresh) := iss.slices.partition (mbit arr)
      if s.unperformed k lanes then s.awaitEarlier iss iss.slices lanes
      else
        let s := s.modCrew k fun c =>
          let c := c.modSlices old fun sl => { sl with wait := .again 2 n ph }
          if fresh.isEmpty then c
          else
            let c := stay c fresh n ph
            { c with gridArr := aset c.gridArr n (arr ||| maskOf 8 8 fun i => fresh.contains i) }
        s.arriveGridCrew k n

/-- GBAR. -/
def execGbar (f : FmtA) (s : State) : Host.Outcome State Fault Refusal :=
  gridForm f s fun c is n ph => c.modSlices is fun sl => { sl with wait := .barrier 2 n ph }

/-- GBAR.ARRIVE. -/
def execGbarArrive (f : FmtA) (s : State) : Host.Outcome State Fault Refusal :=
  gridForm f s fun c is n ph => (c.setSreg f.d.toNat (token ph 2 n)).advance is 4

/-- GBAR.WAIT. -/
def execGbarWait (f : FmtA) (s : State) : Host.Outcome State Fault Refusal :=
  withIssue s fun s iss =>
    let t := (s.crew iss.crew).sreg f.a.toNat
    gridChecked s iss (tokLevel t ≠ 2 || 3 < tokNumber t) fun _ _ =>
      waitPhase s iss iss.slices 2 (tokNumber t) (tokPhase t)

/-! ### Signals (10 R231 to R234; 25 R417, R418) -/

/-- The value or threshold operand: s(B) [31:0], or a constant read as UI32. -/
def sigOperand (c : Crew) (f : FmtA) (k : Option Konst) : Word :=
  BitVec.ofNat 32 ((srcOf false 2 f.b 1 k).read c .ui32 0)

/-- A slot of the issuing party, or ACCALLOC with TRAPINFO 2. -/
def withSlot (s : State) (iss : Issue) (slot : Nat) (go : Nat → State) : State :=
  match (s.crew iss.crew).partyId with
  | some p => if slot < (s.party p).sigCount then go p else s.trapGang iss iss.slices 0x0D 2 0
  | none => s.trapGang iss iss.slices 0x0D 2 0

/-- The drain of a post: eager at outing scope or wider (09 R210); a release at crew or party scope is unranged (09 R203). -/
def postRange (c : Crew) (p : Prefix) (scope : Nat) : GRange := if scope < 2 then .whole else guardOf c p

/-- The merge that a post makes first. -/
def drainPost (s : State) (c : Crew) (p : Prefix) (scope : Nat) : State :=
  if scope < 2 then s else s.mergeRange (s.site c) c.tenant (guardOf c p)

/-- SIGPOST. -/
def execSigpost (f : FmtA) (s : State) : Host.Outcome State Fault Refusal :=
  withIssue s fun s iss =>
    withKonst s iss f.k f.b fun s k =>
      withSlot s iss f.d.toNat fun p =>
        let go (s : State) (is : List Nat) : State :=
          if is.isEmpty then s
          else
            let c := s.crew iss.crew
            let scope := f.p.scope.toNat
            ((drainPost s c f.p scope).postSlot p f.d.toNat (sigOperand c f k) (postRange c f.p scope)).advance iss is
        withPerformed s iss iss.slices (decide (2 ≤ f.p.scope.toNat)) (f.p.scope == 5) go

/-- SIGPOST.REMOTE: a release at device scope at least, at system scope to another module. -/
def execSigpostRemote (f : FmtA) (s : State) : Host.Outcome State Fault Refusal :=
  withIssue s fun s iss =>
    withKonst s iss f.k f.b fun s k =>
      let a := ((s.crew iss.crew).sreg f.a.toNat).toNat
      let away := natBits a 63 48 ≠ 0xFFFF
      let go (s : State) (is : List Nat) : State :=
        if is.isEmpty then s
        else
          let c := s.crew iss.crew
          ((drainPost s c f.p 4).post c.tenant a (sigOperand c f k) (guardOf c f.p) iss.crew none).advance iss is
      withPerformed s iss iss.slices true (away || f.p.scope == 5) go

/-- SIGPOST.ADDR. -/
def execSigpostAddr (f : FmtA) (s : State) : Host.Outcome State Fault Refusal :=
  withIssue s fun s iss =>
    withSlot s iss f.b.toNat fun p =>
      let pa := s.party p
      let v := BitVec.ofNat 64 (sigAddress (s.launchRec pa.launch) pa f.b.toNat)
      s.modCrew iss.crew fun c => (c.setSreg f.d.toNat v).advance iss.slices iss.len

/-- The end of a SIGWAIT: the drop over the slot's summary range (09 R210). -/
def endSigwait (s : State) (iss : Issue) (p slot : Nat) : State :=
  let c := s.crew iss.crew
  let r : GRange := (aget (s.party p).sigSummary slot).getD .nothing
  match s.dropMoving (s.site c) c.tenant r with
  | some pfn => s.waitMoving iss.crew iss.slices pfn
  | none => (s.dropRange (s.site c) c.tenant r).advance iss iss.slices

/-- SIGWAIT: the threshold is the one read at its issue; after a wait for its drop it has ended on the slot's value already. -/
def execSigwait (f : FmtA) (s : State) : Host.Outcome State Fault Refusal :=
  withIssue s fun s iss =>
    let slot := f.d.toNat
    match ((s.crew iss.crew).slice (iss.slices.headD 0)).wait with
    | .signal _ _ | .replay _ => withSlot s iss slot fun p => endSigwait s iss p slot
    | _ =>
      withKonst s iss f.k f.b fun s k =>
        withSlot s iss slot fun p =>
          let thr := sigOperand (s.crew iss.crew) f k
          if thr ≤ sget (s.party p).sigs slot then endSigwait s iss p slot
          else s.modCrew iss.crew fun c => c.modSlices iss.slices fun sl => { sl with wait := .signal slot thr }

/-! ### WAITCNT (10 R237; 26 R437, R438) -/

/-- The class of a counter number (10 R236). -/
def engClass (x : Nat) : EngClass :=
  match x with
  | 0 => .copy
  | 1 => .gather
  | 2 => .matrix
  | _ => .coll

/-- CLASS in TRAPINFO of an ENGINE trap (11 R239; 26 R438). -/
def EngClass.code : EngClass → Nat
  | .copy => 0
  | .gather => 1
  | .matrix => 2
  | .coll => 3

/-- The drops of a WAITCNT over the destinations of the operations that it observes, which it has then observed (09 R209). -/
def observe (s : State) (k : Nat) (cls : EngClass) : State :=
  let c := s.crew k
  let s := (c.unobserved.filter fun u => u.1 == cls).foldl (fun s u => s.dropRange (s.site c) c.tenant u.2) s
  s.modCrew k fun c => { c with unobserved := c.unobserved.filter fun u => u.1 != cls }

/-- The report of the earliest failed operation of a class, by the lowest slice of the gang; the others go on. -/
def reportFailed (s : State) (iss : Issue) (cls : EngClass) : State :=
  match (s.crew iss.crew).failed.find? fun x => x.1 == cls with
  | none => s.advance iss iss.slices
  | some (_, cause) =>
    let s := s.modCrew iss.crew fun c => { c with failed := c.failed.eraseP fun x => x.1 == cls }
    let s := s.advance iss (iss.slices.drop 1)
    s.trapGang iss (iss.slices.take 1) 0x0C (0x10 + cls.code * 2 ^ 8 + cause.toNat * 2 ^ 40) 0

/-- WAITCNT; after a wait for its drops its counter has been met already. -/
def execWaitcnt (f : FmtA) (s : State) : Host.Outcome State Fault Refusal :=
  withIssue s fun s iss =>
    let c := s.crew iss.crew
    let cls := engClass f.d.toNat
    let n := f.b.toNat
    let ended : Bool := match (c.slice (iss.slices.headD 0)).wait with | .replay _ => true | _ => false
    if !ended && n < c.cnt.get f.d.toNat then
      s.modCrew iss.crew fun c => c.modSlices iss.slices fun sl => { sl with wait := .count f.d.toNat n }
    else if 63 ≤ n then reportFailed s iss cls
    else
      match c.unobserved.findSome? fun u => if u.1 == cls then s.dropMoving (s.site c) c.tenant u.2 else none with
      | some pfn => s.waitMoving iss.crew iss.slices pfn
      | none => reportFailed (observe s iss.crew cls) iss cls

end Sys2Proof.Machine
end

