-- ==== Sys2Proof/Machine/Saves.lean ====
section
/-! DEFINITION. Save areas: the layout of a party's state in its save area, the write of it and the read back (spec 02 R46 to
R52; 03 R58, R62; 04 R80, R93 to R96; 25 R406). -/

namespace Sys2Proof.Machine

/-! ### Places (04 R93, R95; log 20) -/

/-- The first byte of a save area. -/
def areaAddr (area : Nat) : Nat := 2 ^ 60 + area * 2 ^ 25

/-- The next 256-byte boundary. -/
def up256 (x : Nat) : Nat := ceilDiv x 256 * 256

/-- Bytes of a crew area. -/
def crewBytes (g k : Nat) : Nat := 0x0988 + 128 * g + 24640 * k

/-- Offset of crew `i`'s area. -/
def crewOff (g k i : Nat) : Nat := 512 + i * up256 (crewBytes g k)

/-- Offsets of the signal slots, the operand slots and the scratchpad, for n crews. -/
def sigOff (g k n : Nat) : Nat := crewOff g k n
/-- Offset of the operand slots. -/
def slotsOff (g k n sigs : Nat) : Nat := up256 (sigOff g k n + 4 * sigs)
/-- Offset of the scratchpad. -/
def padOff (g k n sigs slots : Nat) : Nat := up256 (slotsOff g k n sigs + Config.slotBytes * slots)

/-! ### The gang table (03 R58) -/

/-- STATE of the gang that a slice leads: 2 at a rendezvous, 3 parked, else 1. -/
def gangState (sl : Slice) : Nat :=
  match sl.wait with
  | .regang _ | .cross | .matrix _ => 2
  | .parked => 3
  | _ => 1

/-- The slices that agree with slice `i` in PC, LINK and STATE. -/
def gangSlices (c : Crew) (i : Nat) : List Nat :=
  c.liveSlices.filter fun j =>
    (c.slice j).pc == (c.slice i).pc && (c.slice j).link == (c.slice i).link && gangState (c.slice j) = gangState (c.slice i)

/-- Entry `i` of the gang table: the gang whose lowest slice is `i` (log 22). -/
def gangEntry (c : Crew) (i : Nat) : Nat :=
  let g := gangSlices c i
  if c.sliceLive i && g.headD 8 = i then
    natBits (c.slice i).pc.toNat 55 2 * 2 ^ 10 + gangState (c.slice i) * 2 ^ 8 + (maskOf 8 8 g.contains).toNat
  else 0

/-- Record `j` of the rendezvous stack (03 R62). -/
def rdvEntry (c : Crew) (j : Nat) : Nat :=
  match c.rdv[j]? with
  | some r => (j + 1) * 2 ^ 16 + r.arr.toNat * 2 ^ 8 + r.smask.toNat
  | none => 0

/-! ### A crew's area (04 R95) -/

/-- A field of an area: offset, size in bytes, value. -/
abbrev AreaField := Nat × Nat × Nat

/-- A list of equal fields from an offset. -/
def fieldList (off size n : Nat) (f : Nat → Nat) : List AreaField := (List.range n).map fun i => (off + size * i, size, f i)

/-- The fields of a crew area that do not depend on its allocation. -/
def crewFixed (c : Crew) : List AreaField :=
  let pendOf (i : Nat) : TrapInfo := ((c.slice i).pend).getD { code := 0 }
  let idem : IdemRec := c.idem.getD { pc := 0, sregs := [], live := 0, tile := {} }
  let hs := match c.handler with | some h => h.slice + 8 | none => 0
  let pending := (maskOf 8 8 fun i => (c.slice i).pend.isSome).toNat
  fieldList 0x000 8 8 (fun i => (c.slice i).pc.toNat)
    ++ fieldList 0x040 8 8 (fun i => (c.slice i).link.toNat)
    ++ fieldList 0x080 8 8 (gangEntry c)
    ++ fieldList 0x0C0 4 16 (rdvEntry c)
    ++ [(0x100, 8, c.win % 512 + c.g * 2 ^ 16 + c.k * 2 ^ 32 + c.prio * 2 ^ 40), (0x108, 8, c.flags.toNat + c.ten.toNat * 2 ^ 8),
        (0x110, 8, c.cnt.copy.toNat + c.cnt.gather.toNat * 2 ^ 8 + c.cnt.matrix.toNat * 2 ^ 16 + c.cnt.coll.toNat * 2 ^ 24),
        (0x118, 8, c.hstk.toNat)]
    ++ fieldList 0x120 8 8 (fun i => (c.slice i).info.toNat)
    ++ [(0x160, 8, c.lpb.toNat), (0x168, 8, c.tile.walk + c.tile.ic * 2 ^ 8 + bit01 c.tile.hold * 2 ^ 15), (0x170, 8, c.tile.tile),
        (0x178, 8, idem.pc.toNat), (0x180, 8, idem.live.toNat + bit01 c.idem.isSome * 2 ^ 32)]
    ++ fieldList 0x188 1 8 (fun i => (c.slice i).cause.toNat)
    ++ [(0x190, 8, hs + pending * 2 ^ 8 + bit01 c.frozen.isSome * 2 ^ 16),
        (0x198, 8, match c.handler with | some h => h.base.toNat | none => 0)]
    ++ fieldList 0x1A0 1 16 (fun i => (sget c.atloc (2 * i)).toNat + 16 * (sget c.atloc (2 * i + 1)).toNat)
    ++ fieldList 0x1B0 1 8 (fun i => (pendOf i).code.toNat)
    ++ fieldList 0x1B8 8 8 (fun i => (pendOf i).info.toNat)
    ++ [(0x1F8, 8, c.off.toNat)]
    ++ fieldList 0x200 8 8 (fun x => (sget c.xuni x).toNat)
    ++ fieldList 0x240 2 256 (fun i => (sget c.xofs i).toNat)
    ++ fieldList 0x440 8 32 (fun r => (sget idem.sregs r).toNat)
    ++ fieldList 0x540 8 128 (fun r => (c.sreg r).toNat)
    ++ fieldList 0x940 4 16 (fun p => (sget c.preds p).toNat)
    ++ [(0x980, 4, c.exec.toNat), (0x984, 4, c.live.toNat)]

/-- The vector registers and accumulators of a crew area. -/
def crewFiles (c : Crew) : List AreaField :=
  fieldList 0x988 4 (32 * c.g) (fun i => (sget c.vregs i).toNat)
    ++ (List.range c.k).flatMap fun a =>
        let b := 0x988 + 128 * c.g + 24640 * a
        fieldList b 4 6144 (fun i => (sget c.acc (6144 * a + i)).toNat) ++ [(b + 24576, 8, (sget c.astat a).toNat)]

/-! ### A party's area (04 R93, R94) -/

/-- The header of a party's area. -/
def headerFields (s : State) (p : Nat) : List AreaField :=
  let pa := s.party p
  let viol := (s.partyCrews p).foldl (fun (m : BitVec 32) kc => m ||| kc.2.off) 0
  [(0x000, 8, pa.index), (0x008, 4, viol.toNat), (0x00C, 4, pa.nearQuota)]
    ++ (List.range 16).flatMap (fun n =>
        let b := pa.bars.getD n {}
        [(0x040 + 16 * n, 4, b.phase.toNat), (0x044 + 16 * n, 4, b.arrived.toNat), (0x048 + 16 * n, 4, b.members.toNat)])
    ++ (List.range 4).flatMap fun n =>
        let b := s.outingBar pa n
        [(0x140 + 16 * n, 4, b.phase.toNat), (0x144 + 16 * n, 1, b.arrived.toNat), (0x145 + 16 * n, 1, b.members.toNat)]

/-- Writes fields at an address. -/
def State.putFields (s : State) (base : Nat) (l : List AreaField) : State :=
  l.foldl (fun s f => s.memWrite (base + f.1) (leBytes f.2.2 f.2.1)) s

/-- The allocation of a party's crews: registers, accumulators and their number. -/
def State.partyShape (s : State) (pa : Party) : Nat × Nat × Nat :=
  let r := (s.launchRec pa.launch).res.toNat
  (8 * natBits r 16 10, natBits r 20 17, natBits r 5 0)

/-- Writes a party's whole state to a save area, which holds zero before (02 R46 step 5). -/
def State.writeArea (s : State) (p area : Nat) : State :=
  let pa := s.party p
  let base := areaAddr area
  let (g, k, n) := s.partyShape pa
  let s := (s.memZero base (2 ^ 25)).putFields base (headerFields s p)
  let s := (s.partyCrews p).foldl (fun s kc =>
    match kc.2.place with
    | .compute _ i _ => (s.putFields (base + crewOff g k i) (crewFixed kc.2)).putFields (base + crewOff g k i) (crewFiles kc.2)
    | .service _ _ => s) s
  let s := s.putFields base (fieldList (sigOff g k n) 4 pa.sigCount fun i => (sget pa.sigs i).toNat)
  let s := s.memCopy (base + slotsOff g k n pa.sigCount) (slotAddr p 0 0) (Config.slotBytes * pa.slotCount)
  s.memCopy (base + padOff g k n pa.sigCount pa.slotCount) (scratchAddr p 0) pa.scratchSize

/-! ### Reading an area back -/

/-- A number in an area. -/
def State.areaNat (s : State) (a n : Nat) : Nat := leNat (s.memRead a n)

/-- A sparse store from the equal fields of an area. -/
def State.areaSparse (s : State) (w base size n : Nat) : Sparse w :=
  (List.range n).foldl (fun m i => sset m i (BitVec.ofNat w (s.areaNat (base + size * i) size))) []

/-- The address at which ERET resumes after a pending trap, and the address it concerns, as far as the area tells them: a slice
with a pending trap stays at its faulting instruction (08 R182, R188; log 37). -/
def pendAgain (old : Slice) (pc : DWord) (code : BitVec 8) (info : DWord) : TrapInfo :=
  let next := code = 0x00 || code = 0x10 || code = 0x11 || code = 0x16
  let addr : DWord := if [0x07, 0x08, 0x09, 0x13, 0x14, 0x15, 0x17].contains code.toNat then info else 0
  { code := code, info := info, addr := addr, retpc := if next then pc + 4 else pc, word := old.word, pfx := old.pfx }

/-- A slice that the area and its record at the save give: a parked slice issues its instruction again, a trap whose delivery waited is
delivered again, and the other waits stand, with what their instruction has read (02 R49; log 37). -/
def sliceAgain (s : State) (b i : Nat) (old : Slice) : Slice :=
  { pc := pcOf (BitVec.ofNat 64 (s.areaNat (b + 8 * i) 8))
    link := pcOf (BitVec.ofNat 64 (s.areaNat (b + 0x40 + 8 * i) 8))
    word := old.word, pfx := old.pfx
    wait := match old.wait with | .parked | .moving _ | .route _ _ _ => .none | w => w
    held := match old.wait with | .parked | .moving _ | .route _ _ _ => none | _ => old.held
    cause := BitVec.ofNat 8 (s.areaNat (b + 0x188 + i) 1)
    info := BitVec.ofNat 64 (s.areaNat (b + 0x120 + 8 * i) 8) }

/-- The bits of ASTAT that R131 gives a meaning. -/
def astatMask : BitVec 32 := 0x003F001F

/-- The records of the rendezvous stack of an area; a record that was there keeps its name, by which slices wait for it. -/
def rdvAgain (s : State) (b : Nat) (old : Crew) : List RdvRec :=
  ((List.range 16).map fun j => (j, s.areaNat (b + 0xC0 + 4 * j) 4)).filterMap fun (j, w) =>
    if natBits w 20 0 = 0 then none
    else
      some { id := ((old.rdv[j]?).map (·.id)).getD (1000 + j), smask := BitVec.ofNat 8 w
             arr := BitVec.ofNat 8 (natBits w 15 8) }

/-- A crew from its area and its record at the save. Reserved bits are ignored (00 R7). The area has no place for the tile and the item
counter that IDEM recorded, nor for the tiles taken since (25 R406; 23 R369): they come from the record at the save, and TEN from the
context (05 R112; log 37). -/
def State.crewAgain (s : State) (b : Nat) (old : Crew) : Crew :=
  let rd (off n : Nat) : Nat := s.areaNat (b + off) n
  let cw := rd 0x110 8
  let tw := rd 0x168 8
  let hw := rd 0x190 8
  let live : BitVec 32 := BitVec.ofNat 32 (rd 0x984 4)
  let base : Crew :=
    { old with
      live := live, off := BitVec.ofNat 32 (rd 0x1F8 4), exec := BitVec.ofNat 32 (rd 0x980 4) &&& live &&& ~~~(BitVec.ofNat 32 (rd 0x1F8 4))
      preds := s.areaSparse 32 (b + 0x940) 4 16, sregs := s.areaSparse 64 (b + 0x540) 8 128
      vregs := s.areaSparse 32 (b + 0x988) 4 (32 * old.g)
      xuni := (List.range 8).foldl (fun m x => sset m x (BitVec.ofNat 64 (rd (0x200 + 8 * x) 8) &&& xsetMask)) []
      xofs := s.areaSparse 9 (b + 0x240) 2 256
      acc := (List.range old.k).foldl (fun m a =>
        (List.range 6144).foldl (fun m i =>
          sset m (6144 * a + i) (BitVec.ofNat 32 (rd (0x988 + 128 * old.g + 24640 * a + 4 * i) 4))) m) []
      astat := (List.range old.k).foldl (fun m a =>
        sset m a (BitVec.ofNat 32 (rd (0x988 + 128 * old.g + 24640 * a + 24576) 4) &&& astatMask)) []
      atloc := (List.range 32).foldl (fun m l => sset m l (BitVec.ofNat 4 (rd (0x1A0 + l / 2) 1 / 16 ^ (l % 2)))) []
      win := natBits (rd 0x100 8) 8 0, prio := natBits (rd 0x100 8) 41 40
      flags := BitVec.ofNat 5 (rd 0x108 8), ten := (s.tenant old.tenant).ten
      hstk := BitVec.ofNat 64 (rd 0x118 8), lpb := BitVec.ofNat 64 (rd 0x160 8)
      cnt := { copy := BitVec.ofNat 6 cw, gather := BitVec.ofNat 6 (cw / 2 ^ 8), matrix := BitVec.ofNat 6 (cw / 2 ^ 16)
               coll := BitVec.ofNat 6 (cw / 2 ^ 24) }
      tile := { hold := natBit tw 15, walk := natBits tw 1 0, tile := rd 0x170 8, ic := natBits tw 13 8 }
      rdv := rdvAgain s b old
      handler := if natBit hw 3 then some { slice := natBits hw 2 0, base := BitVec.ofNat 64 (rd 0x198 8) } else none
      frozen := if natBit hw 16 then some (old.frozen.getD (0, { code := 0 })) else none
      idem := if natBit (rd 0x180 8) 32 then
          some { pc := BitVec.ofNat 64 (rd 0x178 8), sregs := s.areaSparse 64 (b + 0x440) 8 32
                 live := BitVec.ofNat 32 (rd 0x180 4), tile := match old.idem with | some r => r.tile | none => {}
                 took := match old.idem with | some r => r.took | none => [] }
        else none
      pend := [], flights := [], passes := [], stopped := false
      slices := (List.range 8).map fun i => sliceAgain s b i (old.slice i) }
  { base with
    slices := base.slices.zipIdx.map fun (sl, i) =>
      if natBit hw (8 + i) then
        { sl with pend := some (pendAgain sl sl.pc (BitVec.ofNat 8 (rd (0x1B0 + i) 1)) (BitVec.ofNat 64 (rd (0x1B8 + 8 * i) 8))) }
      else sl }

/-! ### The ranges of R96 -/

/-- The fields of a crew area lie within their ranges; reserved bits are ignored, and a priority may be another one (00 R7; 04 R78, R80,
R81, R95, R96). -/
def State.crewAreaOk (s : State) (b : Nat) (old : Crew) : Bool :=
  let rd (off n : Nat) : Nat := s.areaNat (b + off) n
  let w := rd 0x100 8
  let live := rd 0x984 4
  let alive (i : Nat) : Bool := live / 16 ^ i % 16 ≠ 0
  let gang (i : Nat) : Nat := rd (0x080 + 8 * i) 8
  let used := (List.range 8).filter fun i => natBits (gang i) 9 8 ≠ 0
  natBits w 25 16 = old.g && natBits w 35 32 = old.k && natBits w 8 0 % 8 = 0 && natBits w 8 0 < old.g
    && (List.range 16).all (fun i => rd (8 * i) 8 % 4 = 0)
    && natBits (rd 0x168 8) 13 8 ≤ 32 && rd 0x160 8 % 256 = 0
    && (List.range 8).all (fun x =>
        let u := rd (0x200 + 8 * x) 8
        natBits u 8 0 + natBits u 25 16 ≤ old.g)
    && (!natBit (rd 0x180 8) 32 || rd 0x178 8 % 4 = 0)
    && ((BitVec.ofNat 32 (rd 0x980 4)) &&& ~~~(BitVec.ofNat 32 live)) == 0#32
    && (List.range 16).all (fun j =>
        let r := natBits (rd (0xC0 + 4 * j) 4) 20 0
        if r = 0 then j = 15 || natBits (rd (0xC4 + 4 * j) 4) 20 0 = 0 else natBits r 20 16 = j + 1)
    && (List.range 8).all (fun i => used.contains i || natBits (gang i) 7 0 = 0)
    && used.all (fun i => used.all fun j => i = j || natBits (gang i) 7 0 &&& natBits (gang j) 7 0 = 0)
    && (List.range 8).all fun i => alive i == used.any fun j => natBit (gang j) i

/-- The barrier states of an area name no crew and no member that does not exist (04 R94). -/
def State.barsOk (s : State) (base crews members : Nat) : Bool :=
  let within (n : Nat) (m : BitVec 32) : Bool := m &&& ~~~(maskOf 32 32 fun i => decide (i < n)) == 0#32
  (List.range 16).all (fun b =>
      within crews (BitVec.ofNat 32 (s.areaNat (base + 0x044 + 16 * b) 4) ||| BitVec.ofNat 32 (s.areaNat (base + 0x048 + 16 * b) 4)))
    && (List.range 4).all fun b =>
      within members (BitVec.ofNat 32 (s.areaNat (base + 0x144 + 16 * b) 1) ||| BitVec.ofNat 32 (s.areaNat (base + 0x145 + 16 * b) 1))

/-- The near quota of an area (04 R93). -/
def State.areaQuota (s : State) (area : Nat) : Nat := s.areaNat (areaAddr area + 0x00C) 4

/-- The whole area of a party lies within its ranges. -/
def State.areaOk (s : State) (p area : Nat) : Bool :=
  let pa := s.party p
  let base := areaAddr area
  let (g, k, n) := s.partyShape pa
  s.areaNat base 8 = pa.index && s.areaQuota area ≤ 384
    && s.barsOk base n ((s.launchRec pa.launch).outingCount pa.outing)
    && pa.saved.all fun c =>
      match c.place with
      | .compute _ i _ => s.crewAreaOk (base + crewOff g k i) c
      | .service _ _ => true

/-- The barriers of a party from its area. -/
def State.barsAgain (s : State) (base : Nat) : List Barrier :=
  (List.range 16).map fun n =>
    { phase := BitVec.ofNat 32 (s.areaNat (base + 0x040 + 16 * n) 4), arrived := BitVec.ofNat 32 (s.areaNat (base + 0x044 + 16 * n) 4)
      members := BitVec.ofNat 32 (s.areaNat (base + 0x048 + 16 * n) 4) }

/-- The outing barriers from the area of one member. -/
def State.outingBarsAgain (s : State) (base : Nat) : List Barrier :=
  (List.range 4).map fun n =>
    { phase := BitVec.ofNat 32 (s.areaNat (base + 0x140 + 16 * n) 4), arrived := BitVec.ofNat 32 (s.areaNat (base + 0x144 + 16 * n) 1)
      members := BitVec.ofNat 32 (s.areaNat (base + 0x145 + 16 * n) 1) }

/-- What a party's area gives back besides its crews: barriers, signal slots, operand slots and scratchpad. -/
def State.partyAgain (s : State) (p area : Nat) : State :=
  let pa := s.party p
  let base := areaAddr area
  let (g, k, n) := s.partyShape pa
  let s := s.memCopy (slotAddr p 0 0) (base + slotsOff g k n pa.sigCount) (Config.slotBytes * pa.slotCount)
  let s := s.memCopy (scratchAddr p 0) (base + padOff g k n pa.sigCount pa.slotCount) pa.scratchSize
  s.modParty p fun x =>
    { x with bars := s.barsAgain base, sigs := s.areaSparse 32 (base + sigOff g k n) 4 pa.sigCount }

end Sys2Proof.Machine
end

