-- ==== Sys2Proof/Machine/Parties.lean ====
section
/-! DEFINITION. The life of a party: its place on a core, its start, pre-emption, save, restore and retirement (spec 02 R27 to
R32, R45 to R55; 07 R167, R168; 09 R212; 12 R268, R271; 16 R314). -/

namespace Sys2Proof.Machine

/-! ### Room on a core, with the frames it takes (02 R27, R29; 16 R314) -/

/-- What a party's placement takes of a core's near frames: its quota, the frames to which other quotas move (party, from, to),
and the frames that must first be empty. -/
structure Plan where
  quota : List Nat := []
  moves : List (Nat × Nat × Nat) := []
  empty : List Nat := []
  deriving DecidableEq, Repr

/-- The pages that occupy a frame. -/
def State.occupants (s : State) (a : Nat) : List Nat := (s.pages.filter fun (_, r) => r.frames.contains a).map (·.1)

/-- The pages that occupy a frame once every remap asked for has ended. -/
def State.stayers (s : State) (a : Nat) : List Nat := (s.pages.filter fun x => s.staysIn x.1 a).map (·.1)

/-- A PINS hold or the PIN bit protects a page in a near frame, or one on its way into it (07 R167, R168). -/
def State.frameHeld (s : State) (d c f : Nat) : Bool :=
  let a := sramAddr d c (f * 4096)
  (s.occupants a ++ s.stayers a).any fun q =>
    s.mirrorPinned q || s.heldBy q fun _ h =>
      (s.page q).held.frameAddr 0 == some a || (s.project q).place.frameAddr 0 == some a || (h.die = d && h.core = c)

/-- The `n` highest-numbered frames from `top` down to `lo` that are not taken and not held. -/
def pickFrames (s : State) (d c lo : Nat) (taken : List Nat) : Nat → Nat → List Nat
  | 0, _ => []
  | top + 1, n =>
    if n = 0 || top < lo then []
    else if taken.contains top || s.frameHeld d c top then pickFrames s d c lo taken top n
    else top :: pickFrames s d c lo taken top (n - 1)

/-- The plan for one more party of a resource word, with its near quota, on a core; none when the core does not fit it, and on a die
whose checkpoint is under way (12 R275). -/
def State.planCore (s : State) (d c r quota : Nat) : Option Plan :=
  let u := (s.usage d c).addParty r quota
  if 4 ≤ d || 32 ≤ c || !(s.die d).inService || (s.die d).ckpt || !u.ok then none
  else
    let lo := carveBytes u.scratch / 4096
    let inCarve := (List.range lo).filter fun f => !s.frameClear (sramAddr d c (f * 4096))
    if inCarve.any (s.frameHeld d c) then none
    else
      let quotas := (s.onCore d c).map fun (p, q) => (p, q.nearFrames)
      let stay := quotas.flatMap fun x => x.2.filter (lo ≤ ·)
      let go : List (Nat × Nat) := quotas.flatMap fun x => (x.2.filter (· < lo)).map fun f => (x.1, f)
      let picked := pickFrames s d c lo stay 768 (go.length + quota)
      if picked.length < go.length + quota then none
      else
        some
          { quota := picked.drop go.length
            moves := (go.zip picked).map fun (x, f) => (x.1, x.2, f)
            empty := inCarve ++ picked.filter fun f => !s.frameClear (sramAddr d c (f * 4096)) }

/-- Moves the quotas that a plan moves (02 R29). -/
def State.moveQuotas (s : State) (moves : List (Nat × Nat × Nat)) : State :=
  moves.foldl (fun s m =>
    s.modParty m.1 fun q => { q with nearFrames := q.nearFrames.map fun f => if f = m.2.1 then m.2.2 else f }) s

/-- Asks for the eviction of the pages that stay in a near frame or are on their way to stay there. -/
def State.evictFrame (s : State) (d c f : Nat) : State :=
  let a := sramAddr d c (f * 4096)
  (s.stayers a).foldl (fun s q =>
    s.askEviction q (if (s.project q).place.frameAddr 0 == some a then .home else .dropReplica d c)) s

/-! ### Crews (02 R32, R52) -/

/-- The lowest crew slot of a partition of a core that is free; slots are numbered 32 × partition + slot (02 R35). -/
def State.freeSlot (s : State) (d c part : Nat) : Nat :=
  let used (x : Nat) : Bool := s.crews.any fun (_, k) =>
    match k.place with
    | .compute p _ slot => slot = x && (s.party p).die = d && (s.party p).core = c
    | .service _ _ => false
  32 * part + (((List.range 32).find? fun i => !used (32 * part + i)).getD 0)

/-- A crew at the start of a party (02 R32). -/
def startCrew (la : Launch) (ten : Tenant) (p i slot : Nat) : Crew :=
  let r := la.res.toNat
  { place := .compute p i slot, tenant := la.tenant, g := resVregs r, k := resAccs r, prio := la.prio, pool := natBit r 54
    live := 0xFFFFFFFF, exec := 0xFFFFFFFF, ten := ten.ten
    sregs := ssetAll [] ((la.args.take 8).zipIdx.map fun (v, j) => (j, v))
    slices := List.replicate 8 { pc := pcOf la.entry } }

/-- A crew of a discarded party from its start: in its idempotent region, retired with its violations, or at the entry PC (02 R52). -/
def restartCrew (c old : Crew) (r : Option IdemRec) : Crew :=
  match r with
  | none => c
  | some r =>
    { c with
      started := true, live := r.live, exec := r.live, sregs := r.sregs, tile := r.tile
      off := if r.live = 0 then old.off else 0
      slices := List.replicate 8 { pc := r.pc } }

/-- Puts a crew into the lowest free slot of its partition. -/
def State.seat (s : State) (p k i : Nat) (c : Crew) : State :=
  let pa := s.party p
  let slot := s.freeSlot pa.die pa.core (i % 8)
  { s with crews := aset s.crews k { c with place := .compute p i slot } }

/-! ### Placement (02 R30, R31) -/

/-- A core by its number in the module: 32 × die + core. -/
def dieOf (x : Nat) : Nat := x / 32
/-- Its number within the die. -/
def coreOf (x : Nat) : Nat := x % 32

/-- The cores of each outing are distinct and lie in one octant of the tenant; the list pairs outings with cores. -/
def octantsOk (ten : Tenant) (l : List (Nat × Nat)) : Bool :=
  l.all fun x =>
    let mine := (l.filter fun y => y.1 = x.1).map (·.2)
    ten.octantList.contains (x.2 / 8) && mine.all (fun y => y / 8 = x.2 / 8) && decide mine.Nodup

/-- Enters one party of a launch on a core, with its crews at their start. -/
def State.enterParty (s : State) (l index core : Nat) (plan : Plan) : State :=
  let la := s.launchRec l
  let r := la.res.toNat
  let n := natBits r 5 0
  let (s, p) := s.fresh
  let ids := (List.range n).map (s.nextId + ·)
  let all := maskOf 32 32 fun i => decide (i < n)
  let pa : Party :=
    { launch := l, index := index, outing := index / la.perOuting, member := index % la.perOuting, die := dieOf core
      core := coreOf core, crews := ids, scratchSize := resScratch r, slotCount := resSlots r, sigCount := resSignals r
      bars := List.replicate 16 { members := all }, nearQuota := resNear r, nearFrames := plan.quota }
  let s := { s.moveQuotas plan.moves with nextId := s.nextId + n }
  let s := { s with parties := aset s.parties p pa }
  ids.zipIdx.foldl (fun s (k, i) => s.seat p k i (startCrew la (s.tenant la.tenant) p i 0)) s

/-- A placement as far as it has come: the state with the parties entered, and the frames that must first be empty. -/
structure Seating where
  s : State
  empty : List (Nat × Nat × Nat) := []
  placed : List Nat := []

/-- Enters the parties of a launch from an index on the cores of a list; none where a core does not fit. -/
def seatAll (l : Nat) : List Nat → Nat → Seating → Option Seating
  | [], _, x => some x
  | core :: rest, index, x =>
    let r := (x.s.launchRec l).res.toNat
    match x.s.planCore (dieOf core) (coreOf core) r (resNear r) with
    | none => none
    | some plan =>
      seatAll l rest (index + 1)
        { s := x.s.enterParty l index core plan
          empty := x.empty ++ plan.empty.map fun f => (dieOf core, coreOf core, f)
          placed := x.placed ++ [core] }

/-- The parties that a launch places next: an outing, or the whole grid of a cooperative launch. -/
def Launch.nextCount (la : Launch) : Nat := if la.coop then la.total else la.outingCount la.nextOuting

/-- The launch has parties to place. -/
def State.placing (s : State) (la : Launch) : Bool :=
  !la.complete && !la.discarded && la.nextOuting < la.outings && !(s.tenant la.tenant).halted

/-- The frames of a seating that hold a page or are to hold one. -/
def State.stillFull (s : State) (l : List (Nat × Nat × Nat)) : List (Nat × Nat × Nat) :=
  l.filter fun x => !s.frameClear (sramAddr x.1 x.2.1 (x.2.2 * 4096))

/-- A core whose replicas cannot be dropped yet, for a page of theirs is MOVING: no party comes to it before (07 R445; 09 R212). -/
def State.coreMoving (s : State) (core : Nat) : Bool := s.pages.any fun x => x.2.dropsAt (dieOf core) (coreOf core)

/-- What every party does before its crews first issue: the core merges and drops its replicas, and held posts are added
(09 R212; 10 R233). -/
def State.openParty (s : State) (p : Nat) : State := ((s.drain p).dropParty p).1.addHeld (s.party p).launch p

/-- The outings that parties from an index belong to. -/
def State.enterOutings (s : State) (l from_ n : Nat) : State :=
  let la := s.launchRec l
  (List.range n).foldl (fun s o =>
    let count := la.outingCount (from_ + o)
    let (s, id) := s.fresh
    let o : Outing :=
      { launch := l, index := from_ + o, members := List.range count
        bars := List.replicate 4 { members := maskOf 32 8 fun i => decide (i < count) } }
    { s with outings := aset s.outings id o }) s

/-- Places the next parties of a launch on cores: all of them, once the frames that they take are empty, whose evictions come
first (02 R29, R30). -/
def State.placeOn (s : State) (l : Nat) (cores : List Nat) : State :=
  let la := s.launchRec l
  let first := la.nextOuting * la.perOuting
  if !s.placing la || cores.length ≠ la.nextCount || cores.any s.coreMoving
      || !octantsOk (s.tenant la.tenant) (cores.zipIdx.map fun (x, i) => (i / la.perOuting, x)) then s
  else
    match seatAll l cores first { s := s } with
    | none => s
    | some x =>
      let full := s.stillFull x.empty
      if !full.isEmpty then full.foldl (fun s f => s.evictFrame f.1 f.2.1 f.2.2) s
      else
        let n := if la.coop then la.outings else 1
        let t := (x.s.enterOutings l la.nextOuting n).modLaunch l fun y => { y with nextOuting := y.nextOuting + n }
        (t.parties.filter fun (_, q) => q.launch = l && first ≤ q.index).foldl (fun s q => s.openParty q.1) t

/-- PARTY_PLACE. -/
def execPartyPlace (launch outing : Nat) (cores : List Nat) (s : State) : Host.Outcome State Fault Refusal :=
  .next (if (s.launchRec launch).nextOuting = outing then s.placeOn launch cores else s)

/-- Puts a core into a list by the parties it holds, those with fewer first. -/
def insertCore (s : State) (x : Nat) : List Nat → List Nat
  | [] => [x]
  | y :: t =>
    if (s.onCore (dieOf x) (coreOf x)).length ≤ (s.onCore (dieOf y) (coreOf y)).length then x :: y :: t else y :: insertCore s x t

/-- The first octant of a tenant with enough cores that fit one more party each, and those cores (log 17). -/
def State.octantCores (s : State) (ten : Tenant) (r quota m : Nat) (even : Bool) : Option (List Nat) :=
  ten.octantList.findSome? fun o =>
    let fit := ((List.range 8).map fun i => 8 * o + i).filter fun x => (s.planCore (dieOf x) (coreOf x) r quota).isSome
    let fit := if even then fit.foldr (insertCore s) [] else fit
    if m ≤ fit.length then some (fit.take m) else none

/-- Chooses cores for the outings of a launch, one after the other. -/
def chooseCores (l : Nat) : Nat → Nat → Seating → Option (List Nat)
  | 0, _, x => some x.placed
  | n + 1, o, x =>
    let la := x.s.launchRec l
    match x.s.octantCores (x.s.tenant la.tenant) la.res.toNat (resNear la.res.toNat) (la.outingCount o) la.coop with
    | none => none
    | some cores =>
      match seatAll l cores (o * la.perOuting) x with
      | none => none
      | some x => chooseCores l n (o + 1) x

/-- The cores on which the next parties of a launch would be placed. -/
def State.coresFor (s : State) (l : Nat) : Option (List Nat) :=
  let la := s.launchRec l
  if s.placing la then chooseCores l (if la.coop then la.outings else 1) la.nextOuting { s := s } else none

/-! ### Retirement (02 R54, R55) -/

/-- The slice is not inside an access, a FENCE or another instruction that it has issued and that completes by itself (02 R46 step 1).
A trap whose delivery waits is no such instruction. -/
def Slice.calm (sl : Slice) : Bool :=
  sl.pend.isSome ||
    match sl.wait with
    | .reply _ | .moving _ | .replay _ | .route _ _ _ | .drain _ _ _ | .cut _ _ | .place _ | .accepted _ => false
    | _ => true

/-- The crews of a party have nothing under way. -/
def State.quiet (s : State) (p : Nat) : Bool :=
  !(s.ops.any fun o => o.party == some p) && (s.partyCrews p).all fun (k, c) =>
    c.cnt == {} && c.flights.isEmpty && !(s.requests.any fun r => r.crew = k && r.waits)
      && c.liveSlices.all fun i => (c.slice i).calm

/-- A party may retire. -/
def State.retirable (s : State) (p : Nat) : Bool :=
  let pa := s.party p
  (match pa.status with | .resident | .stopping _ => true | _ => false)
    && !pa.crews.isEmpty && (s.die pa.die).inService && (s.partyCrews p).all (fun kc => kc.2.live = 0) && s.quiet p

/-- What a retiring party writes: SPVOR and RETIRED of its completion record, and the join word (12 R268, R271). -/
def State.retireWords (s : State) (p : Nat) : State :=
  let la := s.launchRec (s.party p).launch
  let tag := match s.jobs.find? fun j => j.id = la.job with | some j => pktTag j.pkt | none => 0
  let viol := (s.partyCrews p).foldl (fun (m : BitVec 32) kc => m ||| kc.2.off) 0
  let compl := la.compl.toNat
  let s :=
    if compl = 0 then s
    else
      let s := s.complWord la.tenant la.queue tag (compl + 0x08) fun x => x ||| viol.toNat
      s.complWord la.tenant la.queue tag (compl + 0x10) fun x => (x + 1) % 2 ^ 64
  if la.join = 0 then s
  else s.complWord la.tenant la.queue tag la.join.toNat fun x => (x + (2 ^ 64 - 1)) % 2 ^ 64

/-- A party retires: a release of its core's dirty bytes, its words, its resources, and what waited for it. -/
def State.retireParty (s : State) (p : Nat) : State :=
  let l := (s.party p).launch
  let s := (s.drain p).retireWords p
  let s := (s.freeParty p .retired).modLaunch l fun la => { la with retired := la.retired + 1 }
  (s.partyRetired p).finishLaunch l

/-- PARTY_RETIRE. -/
def execPartyRetire (party : Nat) (s : State) : Host.Outcome State Fault Refusal :=
  .next (if s.retirable party then s.unlessMoving (.partyRetire party) fun s => s.retireParty party else s)

/-! ### Pre-emption (02 R45 to R47) -/

/-- The resident parties that are pre-empted with a party: its outing, or its cooperative launch. -/
def State.group (s : State) (p : Nat) : List Nat :=
  let pa := s.party p
  let coop := (s.launchRec pa.launch).coop
  (s.parties.filter fun (_, q) => q.launch = pa.launch && (coop || q.outing = pa.outing) && q.status == .resident).map (·.1)

/-- The parties stop issuing. -/
def State.preempt (s : State) (p : Nat) : State :=
  if (s.party p).status == .resident then
    let ks := s.group p
    { s with parties := s.parties.map fun (k, q) => (k, if ks.contains k then { q with status := .stopping s.time } else q) }
  else s

/-- A launch has parties to place and no core for them (02 R45). -/
def State.starved (s : State) (l : Nat) (la : Launch) : Bool := s.placing la && (s.coresFor l).isNone

/-- A launch of the same tenant with strictly higher priority waits to be placed before a party of a launch. -/
def State.outranked (s : State) (la : Launch) : Bool :=
  s.launches.any fun x => x.2.tenant = la.tenant && decide (la.prio < x.2.prio) && s.placing x.2

/-- The party that the launch unit pre-empts for a waiting launch: one of strictly lower priority of its tenant, the lowest first, and
none while one is already told to stop (02 R45; log 59). -/
def State.victim (s : State) (l : Nat) (la : Launch) : Option Nat :=
  let mine (st : PartyStatus → Bool) (x : Nat × Party) : Bool :=
    let o := s.launchRec x.2.launch
    o.tenant = la.tenant && decide (o.prio < la.prio) && st x.2.status
  let stopping : Bool := s.parties.any (mine fun st => match st with | .stopping _ => true | _ => false)
  if !s.starved l la || stopping then none
  else
    [0, 1, 2].findSome? fun n =>
      (s.parties.find? fun x => mine (· == .resident) x && (s.launchRec x.2.launch).prio = n).map (·.1)

/-- PREEMPT: of a victim of the launch unit, or of any party at the request of service software (02 R45). -/
def execPreempt (party : Nat) (s : State) : Host.Outcome State Fault Refusal := .next (s.preempt party)

/-- The parties that were told to stop together with a party and are not yet saved. -/
def State.stopped (s : State) (p : Nat) : List (Nat × Party) :=
  let pa := s.party p
  let coop := (s.launchRec pa.launch).coop
  s.parties.filter fun (_, q) =>
    q.launch = pa.launch && (coop || q.outing = pa.outing) && (match q.status with | .stopping _ => true | _ => false)

/-- A party that has been told to stop has drained, and so has its group, which is saved together: steps 1 to 3 of R46 are over (02
R45, R46). -/
def State.drained (s : State) (p : Nat) : Bool :=
  (match (s.party p).status with | .stopping _ => true | _ => false)
    && (s.stopped p).all fun x => (s.die x.2.die).inService && s.quiet x.1 && !s.retirable x.1

/-- Every crew is inside an idempotent region, not yet started, or retired (02 R51); a party that a checkpoint stops is saved all the
same (12 R275). -/
def State.discardable (s : State) (p : Nat) : Bool :=
  !(s.die (s.party p).die).ckpt && (s.partyCrews p).all fun kc => kc.2.idem.isSome || kc.2.live = 0 || !kc.2.started

/-- The record by which a crew of a discarded party restarts: its region's, none where it had not started. -/
def restartOf (c : Crew) : Option IdemRec :=
  if c.live = 0 then some { pc := 0, sregs := [], live := 0, tile := {} } else c.idem

/-- What is kept of a crew of a discarded party: its violations, which count where it has retired. -/
def keptCrew (c : Crew) : Crew := { place := c.place, off := c.off, live := c.live }

/-- The tiles that a crew of a discarded party took inside its region go back to the launch unit (23 R369). -/
def giveBack (c : Crew) (walks : List Walk) : List Walk :=
  match c.idem with
  | some r => walks.zipIdx.map fun (w, i) => { w with returned := w.returned ++ (r.took.filter fun x => x.1 = i).map (·.2) }
  | none => walks

/-- The crews of a party with their numbers, in order of crew index. -/
def State.crewsByIndex (s : State) (p : Nat) : List (Nat × Crew) :=
  (s.party p).crews.map fun k => (k, s.crew k)

/-- Fault records of parked slices of a party that leaves its core name nothing any longer: the slices issue again at their
restore (02 R49). -/
def State.dropFaults (s : State) (p : Nat) : State :=
  let ids := (s.party p).crews
  let mine (t : FaultTarget) : Bool := match t with | .slices k _ _ => ids.contains k | _ => false
  { s with tenants := s.tenants.map fun (n, t) =>
      (n, { t with open_ := t.open_.filter fun o => !mine o.2, waiting := t.waiting.filter fun r => !mine r.target }) }

/-- Steps 4 to 6 of R46, or the discard of R51. -/
def State.saveParty (s : State) (p : Nat) : State :=
  let s := (s.drain p).dropFaults p
  let ids := (s.party p).crews
  let crews := (s.crewsByIndex p).map (·.2)
  if s.discardable p then
    let s := s.modLaunch (s.party p).launch fun l =>
      { l with walks := (crews.filter fun c => c.live ≠ 0).foldl (fun w c => giveBack c w) l.walks }
    (s.freeParty p (.saved 0)).modParty p fun x =>
      { x with crews := ids, restart := crews.map restartOf, saved := crews.map keptCrew, toward := [] }
  else
    let (s, area) := s.fresh
    ((s.writeArea p area).freeParty p (.saved area)).modParty p fun x => { x with crews := ids, restart := [], saved := crews }

/-- PARTY_SAVE. -/
def execPartySave (party : Nat) (s : State) : Host.Outcome State Fault Refusal :=
  .next (if s.drained party then s.saveParty party else s)

/-- The deadline of R47 has passed for a party that has not drained. -/
def State.overdue (s : State) (p : Nat) : Bool :=
  match (s.party p).status with
  | .stopping since => since + 1000 * Config.usec ≤ s.time && !s.quiet p && (s.die (s.party p).die).inService
  | _ => false

/-- PREEMPT_TIMEOUT: the context halts. -/
def execPreemptTimeout (party : Nat) (s : State) : Host.Outcome State Fault Refusal :=
  .next (if s.overdue party then s.haltTenant (s.launchRec (s.party party).launch).tenant 0x16 4 0 0 else s)

/-! ### Restore (02 R48, R49, R52) -/

/-- The party is saved, or discarded for a restart. -/
def Party.isSaved (q : Party) : Bool := match q.status with | .saved _ => true | _ => false

/-- The saved parties that are restored with a party, by index. -/
def State.savedGroup (s : State) (p : Nat) : List Nat :=
  let pa := s.party p
  let coop := (s.launchRec pa.launch).coop
  let l := s.parties.filter fun (_, q) => q.launch = pa.launch && (coop || q.outing = pa.outing) && q.isSaved
  (List.range (s.launchRec pa.launch).total).filterMap fun i => (l.find? fun x => x.2.index = i).map (·.1)

/-- The pending traps of some crews are delivered where they can be. -/
def State.deliverAll (s : State) (ks : List Nat) : State := ks.foldl (fun s k => s.deliverPending k) s

/-- A party whose area is out of range is discarded, with RESTORE_INVALID, and waiters of an abandoned grid on other cores trap (04 R96;
10 R229; 12 R446). -/
def State.refuseRestore (s : State) (p : Nat) : State :=
  let pa := s.party p
  let la := s.launchRec pa.launch
  let s := (s.discardParty p).queueError la.tenant 5 la.queue pa.index 0
  s.deliverAll ((s.crews.filter fun kc => s.crewLaunch kc.2 == some pa.launch).map (·.1))

/-- Puts a saved party on a core with its crews as its area, or its restart, gives them. -/
def State.reenter (s : State) (p core area : Nat) (plan : Plan) : State :=
  let pa := s.party p
  let la := s.launchRec pa.launch
  let fresh (i : Nat) : Crew := startCrew la (s.tenant la.tenant) p i 0
  let (g, k, n) := s.partyShape pa
  let back (i : Nat) : Crew :=
    if pa.restart.isEmpty then
      s.crewAgain (areaAddr area + crewOff g k i) (pa.saved.getD i (fresh i))
    else restartCrew (fresh i) (pa.saved.getD i (fresh i)) (pa.restart.getD i none)
  let crews := (List.range n).map back
  let s := if pa.restart.isEmpty then s.partyAgain p area else s.modParty p fun x =>
    { x with bars := List.replicate 16 { members := maskOf 32 32 fun i => decide (i < n) }, sigs := [], sigSummary := [] }
  let s := (s.moveQuotas plan.moves).modParty p fun x =>
    { x with status := .resident, die := dieOf core, core := coreOf core, nearFrames := plan.quota, nearPlaced := [], holds := []
             nearQuota := plan.quota.length, restart := [], saved := [] }
  (pa.crews.zip crews).zipIdx.foldl (fun s (kc, i) => s.seat p kc.1 i kc.2) s

/-- The area of a saved party. -/
def Party.area (q : Party) : Nat := match q.status with | .saved a => a | _ => 0

/-- The near quota that a saved party comes back with: its area's, which software may have changed, or its own at a restart. -/
def State.quotaAgain (s : State) (q : Party) : Nat := if q.restart.isEmpty then s.areaQuota q.area else q.nearQuota

/-- Puts the parties of a group on cores; none where a core does not fit. -/
def reseatAll : List (Nat × Nat) → Seating → Option Seating
  | [], x => some x
  | (p, core) :: rest, x =>
    let pa := x.s.party p
    match x.s.planCore (dieOf core) (coreOf core) (x.s.launchRec pa.launch).res.toNat (x.s.quotaAgain pa) with
    | none => none
    | some plan =>
      reseatAll rest
        { s := x.s.reenter p core pa.area plan
          empty := x.empty ++ plan.empty.map fun f => (dieOf core, coreOf core, f)
          placed := x.placed ++ [core] }

/-- The outing barriers of a restored outing: from the area of its lowest-numbered saved member, or as at their start
(04 R94; 02 R52). -/
def State.outingAgain (s : State) (p : Nat) (group : List Nat) : State :=
  let pa := s.party p
  match (group.find? fun q => (s.party q).outing = pa.outing && (s.party q).restart.isEmpty) with
  | some q =>
    let bars := s.outingBarsAgain (areaAddr (s.party q).area)
    { s with outings := s.outings.map fun (k, o) =>
        (k, if o.launch = pa.launch && o.index = pa.outing then { o with bars := bars } else o) }
  | none =>
    { s with outings := s.outings.map fun (k, o) =>
        (k, if o.launch = pa.launch && o.index = pa.outing then
              { o with bars := o.bars.map fun _ => { members := maskOf 32 8 o.members.contains } }
            else o) }

/-- Slices of a restored party whose barrier phase has completed depart (02 R49; 10 R226). -/
def State.departDone (s : State) (p : Nat) : State :=
  let me (c : Crew) : Bool := c.partyId == some p
  let s := (List.range 16).foldl (fun s n => s.depart me 0 n ((s.party p).bars.getD n {}).phase) s
  (List.range 4).foldl (fun s n =>
    let s := s.depart me 1 n (s.outingBar (s.party p) n).phase
    s.depart me 2 n ((s.launchRec (s.party p).launch).gbars.getD n {}).phase) s

/-- Restores the group of a saved party on cores, once all of it is saved and the frames it takes are empty. -/
def State.restoreOn (s : State) (p : Nat) (cores : List Nat) : State :=
  let pa := s.party p
  let la := s.launchRec pa.launch
  let group := s.savedGroup p
  if !pa.isSaved || !(s.stopped p).isEmpty || cores.length ≠ group.length || cores.any s.coreMoving
      || !octantsOk (s.tenant la.tenant) ((group.zip cores).map fun (q, x) => ((s.party q).outing, x)) then s
  else
    match group.find? fun q => (s.party q).restart.isEmpty && !s.areaOk q (s.party q).area with
    | some q => s.refuseRestore q
    | none =>
      match reseatAll (group.zip cores) { s := s } with
      | none => s
      | some x =>
        let full := s.stillFull x.empty
        if !full.isEmpty then full.foldl (fun s f => s.evictFrame f.1 f.2.1 f.2.2) s
        else
          let bars := group.foldl (fun t q => t.outingAgain q group) s
          let t := group.foldl (fun t q => t.openParty q) ({ x.s with outings := bars.outings } : State)
          group.foldl (fun t q => (t.departDone q).deliverAll (t.party q).crews) t

/-- PARTY_RESTORE. -/
def execPartyRestore (party : Nat) (cores : List Nat) (s : State) : Host.Outcome State Fault Refusal :=
  .next (s.restoreOn party cores)

/-- Chooses cores for the outings of a saved group. -/
def chooseAgain (ten : Tenant) (even : Bool) : List (List Nat) → Seating → Option (List Nat)
  | [], x => some x.placed
  | out :: rest, x =>
    let quota := out.foldl (fun n p => max n (x.s.quotaAgain (x.s.party p))) 0
    match out.head?.bind fun p => x.s.octantCores ten (x.s.launchRec (x.s.party p).launch).res.toNat quota out.length even with
    | none => if out.isEmpty then chooseAgain ten even rest x else none
    | some cores =>
      match reseatAll (out.zip cores) x with
      | none => none
      | some x => chooseAgain ten even rest x

/-- The cores on which the group of a saved party would be restored, once it is saved whole and no launch of its tenant with strictly
higher priority waits (02 R45). -/
def State.coresAgain (s : State) (p : Nat) : Option (List Nat) :=
  let pa := s.party p
  let la := s.launchRec pa.launch
  let group := s.savedGroup p
  let outs := (List.range la.outings).map fun o => group.filter fun q => (s.party q).outing = o
  if pa.isSaved && group.head? == some p && (s.stopped p).isEmpty && !(s.die pa.die).ckpt && !(s.tenant la.tenant).halted
      && !s.outranked la then
    chooseAgain (s.tenant la.tenant) la.coop (outs.filter fun o => !o.isEmpty) { s := s }
  else none

end Sys2Proof.Machine
end

