-- ==== Sys2Proof/Machine/Dies.lean ====
section
/-! DEFINITION. The compute dies: heartbeats, fencing, checkpoint and restart, the power limit, drowsy banks, and the promotion of
gangs (spec 01 R18, R22; 02 R35; 12 R273 to R276). -/

namespace Sys2Proof.Machine

/-! ### Heartbeats and fencing (12 R273) -/

/-- DIE_HEARTBEAT: a die in service reports every 100 µs. -/
def execDieHeartbeat (die : Nat) (s : State) : Host.Outcome State Fault Refusal :=
  .next (if (s.die die).inService then s.modDie die fun x => { x with lastBeat := s.time } else s)

/-- DIE_HEARTBEAT_MISSING: the heartbeats of a die have been missing for 300 µs (log 4). -/
def execDieHeartbeatMissing (die : Nat) (s : State) : Host.Outcome State Fault Refusal := .next (s.fenceDie die)

/-- DIE_FENCE: a service request. -/
def execDieFence (die : Nat) (s : State) : Host.Outcome State Fault Refusal := .next (s.fenceDie die)

/-! ### The reset of a die (12 R274, R276) -/

/-- The page has its master on a die. -/
def PageRec.masterOn (r : PageRec) (d : Nat) : Bool := (r.held.frameAddr 0).isSome && r.held.mdie = d

/-- The page has a replica on a die. -/
def PageRec.replicaOn (r : PageRec) (d : Nat) : Bool := r.replicas.any fun x => x.die = d

/-- The page leaves its master for its DRAM home, without a copy. -/
def loseMaster (r : PageRec) : PageRec := { r with place := {}, run := r.run.map fun x => { x with old := {} } }

/-- A page placed on a die is settled at the die's reset: POISON when the die has written it since its checkpoint, else HOME or
SHARED without the die's replicas (12 R276); its holds lapse (07 R168). -/
def State.settleAtReset (s : State) (d pfn : Nat) : State :=
  let r := s.page pfn
  if !(r.masterOn d || r.replicaOn d) then s
  else
    let s := s.lapseHolds pfn
    if mbit r.wsc d then
      ((s.dropAll pfn).modPage pfn fun r => { r with replicas := [] }).settlePage pfn { res := .poison }
    else if r.masterOn d then
      (((s.dropAll pfn).modPage pfn loseMaster).removeReplicas pfn fun _ => true).settlePage pfn {}
    else
      let s := s.modPage pfn fun r => { r with replicas := r.replicas.filter fun x => x.die ≠ d }
      let r := s.page pfn
      if r.run.isSome then s
      else (s.dropAll pfn).settlePage pfn (if r.replicas.isEmpty then lastReplica r.place else r.place)

/-- A party of the latest checkpoint goes back to its saved state. -/
def State.backToCheckpoint (s : State) (p : Nat) (q : Party) : State :=
  ((s.dropFaults p).freeParty p q.status).modParty p fun _ => q

/-- A party placed since the checkpoint restarts at its entry PC: its crews are not yet started, and its arrivals at grid
barriers are gone. -/
def State.backToEntry (s : State) (p : Nat) : State :=
  let ids := (s.party p).crews
  let index := (s.party p).index
  let s := (s.dropFaults p).freeParty p (.saved 0)
  let s := s.modLaunch (s.party p).launch fun l =>
    { l with gbars := l.gbars.map fun g => { g with arrived := g.arrived.filter (· != index) } }
  s.modParty p fun x => { x with crews := ids, restart := ids.map fun _ => none, saved := [], toward := [] }

/-- What a die's reset does to one party. One in the die's checkpoint that has been restored on another die since is left alone: the spec
does not name the case (log 39). -/
def State.partyAtReset (s : State) (d p : Nat) : State :=
  let q := s.party p
  if q.die ≠ d then s
  else
    match q.status with
    | .retired | .discarded => s
    | .saved _ =>
      match aget (s.die d).checkpoint p with
      | some c => s.backToCheckpoint p c
      | none => s
    | .resident | .stopping _ =>
      match aget (s.die d).checkpoint p with
      | some c => s.backToCheckpoint p c
      | none => s.backToEntry p

/-- The tenants with a party on a die. -/
def State.tenantsOn (s : State) (d : Nat) : List Nat :=
  (s.tenants.map (·.1)).filter fun t => s.parties.any fun (_, q) =>
    q.die = d && (s.launchRec q.launch).tenant = t && (match q.status with | .resident | .stopping _ => true | _ => false)

/-- The die leaves reset once the wait of 100 µs is over (12 R274). R15 lets a die be harvested at test, and the spec
names no state that says so: the model has no such die, and every die that is out restarts (log 63). -/
def State.restartDue (s : State) (d : Nat) : Bool :=
  d < 4 && !(s.die d).inService &&
    match (s.die d).fencedAt with
    | some t => decide (t + 100 * Config.usec ≤ s.time)
    | none => true

/-- The banks of a die are at full voltage and their idle counts start at zero (01 R18). -/
def State.wakeBanks (s : State) (d : Nat) : State :=
  { s with
    bankUse := (List.range 384).foldl (fun m i => sset m (d * 384 + i) (BitVec.ofNat 64 s.clock)) s.bankUse
    drowsy := s.drowsy.filter fun b => b / 384 ≠ d }

/-- The reset of a compute die: pages and parties are settled, its sync records and quarantined frames are gone, and its tenants
hear of it (12 R276; 08 R178). -/
def State.resetDie (s : State) (d : Nat) : State :=
  let told := s.tenantsOn d
  let s := s.pages.foldl (fun s x => s.settleAtReset d x.1) s
  let s := s.parties.foldl (fun s x => s.partyAtReset d x.1) s
  let s : State := { s.wakeBanks d with
    syncs := s.syncs.map fun w => { w with recs := w.recs.filter fun r => r.die ≠ d }
    quarantine := s.quarantine.filter fun q => q.1 ≠ d }
  let s := s.modDie d fun x => { x with inService := true, fencedAt := none, clockBase := s.clock, lastBeat := s.time }
  told.foldl (fun s t => s.queueError t 8 0x7F 0 d) s

/-- DIE_RESTART. -/
def execDieRestart (die : Nat) (s : State) : Host.Outcome State Fault Refusal :=
  .next (if s.restartDue die then s.resetDie die else s)

/-! ### Checkpoint (12 R275) -/

/-- No party of a die is still to be saved. -/
def State.allSaved (s : State) (d : Nat) : Bool :=
  !s.parties.any fun (_, q) => q.die = d && (match q.status with | .resident | .stopping _ => true | _ => false)

/-- Writes the dirty sectors of a master frame on a die home; the holds on a page of the die lapse (07 R168). -/
def State.cleanMaster (s : State) (d pfn : Nat) : State :=
  let r := s.page pfn
  let s := if r.masterOn d || r.replicaOn d then s.lapseHolds pfn else s
  if r.masterOn d then
    match r.held.frameAddr 0 with
    | some a => (s.copySectors (homeAddr pfn 0) a r.written).modPage pfn fun r => { r with written := 0 }
    | none => s
  else s

/-- The end of a checkpoint: dirty masters go home, the WSC bits of the die clear, and its saved parties are recorded. -/
def State.endCheckpoint (s : State) (d : Nat) : State :=
  let s := (List.range 32).foldl (fun s c => s.mergeDirty d c fun _ _ => true) s
  let s := s.pages.foldl (fun s x => s.cleanMaster d x.1) s
  let s : State := { s with pages := s.pages.map fun (k, r) => (k, { r with wsc := mset r.wsc d false }) }
  s.modDie d fun x =>
    { x with ckpt := false, checkpoint := s.parties.filter fun (_, q) => q.die = d && q.isSaved }

/-- DIE_CHECKPOINT: the die's parties stop, and once they are saved the checkpoint ends; they are restored as any saved party
is. -/
def execDieCheckpoint (die : Nat) (s : State) : Host.Outcome State Fault Refusal :=
  .next <|
    if 4 ≤ die || !(s.die die).inService then s
    else
      let s := if (s.die die).ckpt then s else s.modDie die fun x => { x with ckpt := true }
      if s.allSaved die then s.endCheckpoint die
      else (s.parties.filter fun (_, q) => q.die = die).foldl (fun s x => s.preempt x.1) s

/-! ### Power and banks (01 R18, R22) -/

/-- POWER_LIMIT: the draw would exceed the limit, and the die's core clock is lowered; nothing else changes. When it rises again the spec
does not say: the model leaves it lowered until a fundamental reset (log 52). -/
def execPowerLimit (die : Nat) (s : State) : Host.Outcome State Fault Refusal := .next (s.modDie die fun x => { x with slowed := true })

/-- The bank of a frame slice has been idle for 65,536 cycles. The spec does not say whether the interval counts while the core clock of an
IDLE die is gated: the model counts it on (log 52). -/
def State.drowsyDue (s : State) (d slice bank : Nat) : Bool :=
  let b := (d * 16 + slice) * 24 + bank
  d < 4 && slice < 16 && bank < 24 && (s.die d).inService && !s.drowsy.contains b
    && (sget s.bankUse b).toNat + 65536 ≤ s.clock

/-- DROWSY. -/
def execDrowsy (die slice bank : Nat) (s : State) : Host.Outcome State Fault Refusal :=
  .next (if s.drowsyDue die slice bank then { s with drowsy := s.drowsy ++ [(die * 16 + slice) * 24 + bank] } else s)

/-! ### Promotion (02 R35) -/

/-- PROMOTION: a gang that has been ready for 4,096 cycles without issuing, by its lowest slice. -/
def execPromotion (crew gang : Nat) (s : State) : Host.Outcome State Fault Refusal :=
  .next <|
    let sl := (s.crew crew).slice gang
    if 4096 ≤ sl.ready then s.modCrew crew fun c => c.modSlice gang fun x => { x with promoted := true } else s

end Sys2Proof.Machine
end

