-- ==== Sys2Proof/Machine/Engine.lean ====
section
/-! DEFINITION. The group ENGINE at issue: descriptor checks, the issue merge, and the start of an operation (spec 09 R209; 11
R238 to R251; 22 R345 to R347; 23 R362, R363; 24 R386, R400; 25 R410, R413, R414). -/

namespace Sys2Proof.Machine

/-! ### Starting an operation -/

/-- The issue merge: the core's dirty bytes over the sources and the destination, and the drop over the destination. A page MOVING
to or from a replica is dropped at the end of its remap; such pages are named (07 R445; 09 R209). -/
def State.issueMerge (s : State) (c : Crew) (srcs : List GRange) (dst : GRange) : State × List Nat :=
  let s := srcs.foldl (fun s r => s.mergeRange (s.site c) c.tenant r) s
  match s.site c with
  | .core d k => if dst == .nothing then (s, []) else s.dropOrLeave d k (s.hits c.tenant dst)
  | _ => (s, [])

/-- The issue merge and then the start of an operation, whose first access waits for the pages that the merge names: the slices go on
at once (07 R445; 22 R347). -/
def withMerge (s : State) (c : Crew) (srcs : List GRange) (dst : GRange) (go : State → List Nat → State) : State :=
  let (s, late) := s.issueMerge c srcs dst
  go s late

/-- Starts an operation for some slices of the issuing gang: its counter rises and the slices go on (10 R236; 22 R345). Its fault
records name the lowest slice and that slice's active lanes (08 R185, R187). -/
def State.startOp (s : State) (iss : Issue) (is : List Nat) (cls : EngClass) (kind : EngKind) (desc : List DWord)
    (writes : List LaneWrite) (group seq : Nat) (dst : GRange) (after : List Nat) : State :=
  let c := s.crew iss.crew
  let (die, core) := match s.site c with | .core d k => (d, k) | _ => (4, 0)
  let (s, id) := s.fresh
  let o : EngineOp :=
    { id := id, crew := iss.crew, party := c.partyId, tenant := c.tenant, die := die, core := core, cls := cls, kind := kind
      desc := desc, writes := writes, group := group, seq := seq, dst := dst, after := after, pc := iss.pc, word := iss.word
      slice := is.headD 0, lanes := (c.exec &&& sliceMask (is.headD 0)).toNat }
  ({ s with ops := s.ops ++ [o] } : State).modCrew iss.crew fun c =>
    { c with cnt := c.cnt.bump cls }.advance is iss.len

/-- A 64th operation of a class in flight is not ready (10 R236). -/
def withRoom (s : State) (iss : Issue) (cls : Nat) (go : State) : State :=
  if (s.crew iss.crew).cnt.get cls = 63 then
    s.modCrew iss.crew fun c => c.modSlices iss.slices fun sl => { sl with wait := .count cls 62 }
  else go

/-- The trap of a descriptor that fails its checks (11 R239). -/
def descTrap (s : State) (iss : Issue) (cls reason : Nat) : State :=
  s.trapGang iss iss.slices 0x0C (reason + cls * 2 ^ 8) 0

/-- The registers of a descriptor. -/
def descOf (c : Crew) (f : FmtA) (n : Nat) : List DWord := (List.range n).map fun i => c.sreg (f.a.toNat + i)

/-- The double-words of a descriptor as numbers. -/
def wordsFn (l : List DWord) (i : Nat) : Nat := (l.getD i 0).toNat

/-- The operand slots of a crew's party. -/
def State.slotsOf (s : State) (c : Crew) : Nat := match c.partyId with | some p => (s.party p).slotCount | none => 0

/-- The scratchpad bytes of a member of a crew's outing, none for a member that does not exist. -/
def State.memberSize (s : State) (c : Crew) (m : Nat) : Option Nat :=
  match c.partyId with
  | none => none
  | some p =>
    let pa := s.party p
    let la := s.launchRec pa.launch
    if m < la.outingCount pa.outing then
      (s.findParty pa.launch (pa.outing * la.perOuting + m)).map fun x => x.2.scratchSize
    else none

/-- A span of bytes relative to a base lies inside its slot or its member's scratchpad (11 R239, R240). -/
def State.spaceHolds (s : State) (c : Crew) (space base : Nat) (lo hi : Int) : Bool :=
  match space with
  | 0 => true
  | 1 =>
    match s.memberSize c (natBits base 23 21) with
    | none => false
    | some size => 0 ≤ (natBits base 20 0 : Nat) + lo && (natBits base 20 0 : Nat) + hi ≤ (size : Int)
  | _ => 0 ≤ (natBits base 15 0 : Nat) + lo && (natBits base 15 0 : Nat) + hi ≤ (Config.slotBytes : Int)

/-! ### COPY (11 R239 to R241; 22 R347) -/

/-- The first reason for which a COPY descriptor fails. -/
def copyReason (s : State) (c : Crew) (w : Nat → Nat) : Option Nat :=
  let ndim := natBits (w 5) 35 32
  let tdim := natBits (w 5) 43 40
  let esize := natBits (w 5) 38 36
  let ds := natBits (w 5) 47 46
  let ss := natBits (w 5) 45 44
  let e := 2 ^ esize
  let (sl, sh) := copySpan w (copySstr w) ndim
  let (dl, dh) := copySpan w (copyDstr w) ndim
  if ndim = 0 || 10 < ndim || tdim = 0 || ndim < tdim then some 1
  else if 4 < esize then some 2
  else if ds = 3 || ss = 3 then some 3
  else if (ss = 2 && s.slotsOf c ≤ natBits (w 0) 22 16) || (ds = 2 && s.slotsOf c ≤ natBits (w 1) 22 16) then some 4
  else if w 0 % e ≠ 0 || w 1 % e ≠ 0 then some 6
  else if extProd w 0 ndim ≠ 0 && !(s.spaceHolds c ss (w 0) sl sh && s.spaceHolds c ds (w 1) dl dh) then some 5
  else none

/-- COPY. -/
def execCopy (f : FmtA) (s : State) : Host.Outcome State Fault Refusal :=
  withIssue s fun s iss =>
    withRoom s iss 0
      (let c := s.crew iss.crew
       let desc := descOf c f 16
       let w := wordsFn desc
       match copyReason s c w with
       | some r => descTrap s iss 0 r
       | none =>
         let ndim := natBits (w 5) 35 32
         let empty := extProd w 0 ndim = 0
         let range (space base : Nat) (x : Int × Int) : GRange :=
           if space = 0 && !empty then spanOf (base + x.1) (base + x.2) else .nothing
         let src := range (natBits (w 5) 45 44) (w 0) (copySpan w (copySstr w) ndim)
         let dst := range (natBits (w 5) 47 46) (w 1) (copySpan w (copyDstr w) ndim)
         withMerge s c [src] dst fun s late => s.startOp iss iss.slices .copy .copy desc [] 0 0 dst late)

/-! ### GATHER and SCATTER (11 R243, R244; 23 R362, R363; 25 R413, R414) -/

/-- The first reason for which a row descriptor fails. -/
def rowReason (s : State) (c : Crew) (w : Nat → Nat) (scatter : Bool) : Option Nat :=
  let count := natBits (w 4) 63 32
  let rbytes := natBits (w 4) 31 0
  let xs := natBits (w 6) 51 50
  let ls := natBits (w 6) 49 48
  let xstride := natBits (w 6) 31 0
  if count = 0 || 2 ^ 24 < count || rbytes = 0 || 65536 < rbytes || rbytes % 4 ≠ 0 then some 1
  else if xs = 3 || (scatter && xs = 2) || 2 ≤ ls then some 3
  else if xs = 2 && s.slotsOf c ≤ natBits (w 1) 22 16 then some 4
  else if w 0 % 4 ≠ 0 || w 1 % 4 ≠ 0 || w 3 % 4 ≠ 0 || w 5 % 4 ≠ 0 || xstride % 4 ≠ 0 then some 6
  else if !(s.spaceHolds c xs (w 1) 0 (((count - 1) * xstride + rbytes : Nat)) && s.spaceHolds c ls (w 3) 0 ((4 * count : Nat)))
    then some 5
  else none

/-- The ranges of a row operation: the rows at XBASE, the index list, and the table (23 R363). -/
def rowRanges (w : Nat → Nat) : GRange × GRange × GRange :=
  let count := natBits (w 4) 63 32
  let rbytes := natBits (w 4) 31 0
  let nrows := natBits (w 7) 31 0
  let list := if natBits (w 6) 49 48 = 0 then spanOf (w 3) ((w 3 + 4 * count : Nat)) else .nothing
  let table := if nrows = 0 then .nothing else spanOf (w 0) ((w 0 + (nrows - 1) * w 5 + rbytes : Nat))
  (rowSpan w 0 count, list, table)

/-- GATHER and SCATTER. -/
def rowInstr (f : FmtA) (s : State) (kind : EngKind) (scatter : Bool) : Host.Outcome State Fault Refusal :=
  withIssue s fun s iss =>
    withRoom s iss 1
      (let c := s.crew iss.crew
       let desc := descOf c f 8
       let w := wordsFn desc
       match rowReason s c w scatter with
       | some r => descTrap s iss 1 r
       | none =>
         let (rows, list, table) := rowRanges w
         let (src, dst) := if scatter then (rows, table) else (table, rows)
         withMerge s c [list, src] dst fun s late => s.startOp iss iss.slices .gather kind desc [] 0 0 dst late)

/-- GATHER. -/
def execGather (f : FmtA) (s : State) : Host.Outcome State Fault Refusal := rowInstr f s .gather false

/-- SCATTER: its operation in D. -/
def execScatter (f : FmtA) (s : State) : Host.Outcome State Fault Refusal := rowInstr f s (.scatter f.d.toNat) true

/-! ### COLL (11 R239, R245; 22 R346) -/

/-- The first reason for which a collective's descriptor fails; a reserved ROP counts with the reserved codes (log 27). -/
def collReason (s : State) (c : Crew) (w : Nat → Nat) : Option Nat :=
  let g := natBits (w 0) 23 16
  let (kind, count, ty, rop, root) := collKey w
  let size := collSize ty
  if count = 0 || 4 ≤ kind then some 1
  else if 3 ≤ ty || ((kind = 1 || kind = 2) && rop = 3) then some 2
  else if !s.groupOk g c.tenant || s.members g ≤ root then some 7
  else if w 1 % size ≠ 0 || w 2 % size ≠ 0 then some 6
  else none

/-- COLL. -/
def execColl (f : FmtA) (s : State) : Host.Outcome State Fault Refusal :=
  withIssue s fun s iss =>
    withRoom s iss 3
      (let c := s.crew iss.crew
       let desc := descOf c f 6
       let w := wordsFn desc
       match collReason s c w with
       | some r => descTrap s iss 3 r
       | none =>
         let g := natBits (w 0) 23 16
         let size := collSize (natBits (w 0) 7 5)
         let src := spanOf (w 1) ((w 1 + collSource (s.members g) (s.rank g) w * size : Nat))
         let dst := spanOf (w 2) ((w 2 + collElems (s.members g) w * size : Nat))
         withMerge s c [src] dst fun s late =>
           let seq := (sget s.groupSeq g).toNat
           ({ s with groupSeq := sset s.groupSeq g (BitVec.ofNat 32 (seq + 1)) } : State).startOp iss iss.slices .coll .coll desc []
             g seq dst late)

/-! ### MSTORE and PUTSIG (11 R248 to R251; 24 R386, R400) -/

/-- Data registers of MSTORE and PUTSIG: 1, 2 or 4. -/
def laneRegs (f : FmtA) : Nat := 2 ^ f.cl.toNat

/-- The vector operands of MSTORE and PUTSIG. -/
def laneOps (f : FmtA) : List VOp :=
  [{ pos := 0, field := f.d.toNat, n := laneRegs f }, { pos := 2, field := f.b.toNat, n := 1 }]

/-- s(A) plus a lane's v(B), unsigned, modulo 2^64: the lane's address of PUTSIG (24 R400). -/
def laneAddr (f : FmtA) (c : Crew) (l : Nat) : Nat :=
  ((c.sreg f.a.toNat).toNat + c.vnat { pos := 2, field := f.b.toNat, n := 1 } l) % 2 ^ 64

/-- A lane's byte offset in the group window of s(A): the sum is not reduced (11 R248). -/
def laneOffset (f : FmtA) (c : Crew) (l : Nat) : Nat :=
  natBits (c.sreg f.a.toNat).toNat 47 0 + c.vnat { pos := 2, field := f.b.toNat, n := 1 } l

/-- The writes of the active lanes of some slices, in lane order. -/
def laneWrites (f : FmtA) (c : Crew) (is : List Nat) (addr : Nat → Nat) : List LaneWrite :=
  (c.activeIn is).map fun l =>
    { slice := l / 4, addr := BitVec.ofNat 64 (addr l)
      data := leBytes (c.vnat { pos := 0, field := f.d.toNat, n := laneRegs f } l) (4 * laneRegs f) }

/-- The checks of the slices of a gang before one operation starts: a slice that fails traps or waits, and then nothing
starts and the others stay at the instruction. A die that cannot be reached fails no check: the operation ends in error (11
R258). -/
def laneChecks (s : State) (iss : Issue) (f : FmtA) (xl : State → Crew → Nat → Xlat) (bad : Tgt → Option Nat)
    (go : State → State) : State :=
  let c := s.crew iss.crew
  let n := 4 * laneRegs f
  let check (i : Nat) : Option Checked :=
    match c.nameFault i (laneOps f) with
    | some (code, info) => some (.trap code info 0)
    | none =>
      match checkLanes ((c.activeOf i).map fun l => (l, laneAddr f c l)) n (xl s c) bad with
      | .ok _ => none
      | x => some x
  let fails := iss.slices.filterMap fun i => (check i).map fun x => (i, x)
  if fails.isEmpty then go s
  else
    fails.foldl (fun s (i, x) =>
      match x with
      | .trap code info a => s.raise iss.crew i (iss.trap code info a)
      | .xlat a x => s.xlatFault iss [i] .store a (c.exec &&& sliceMask i) x
      | .ok _ => s) s

/-- The advance of the index registers that MSTORE or PUTSIG names. -/
def State.laneAdvance (s : State) (iss : Issue) (ops : List VOp) : State :=
  s.modCrew iss.crew fun c => c.postAdvance (c.activeIn iss.slices) ops

/-- MSTORE: its lanes name offsets in a group's window, so that only their alignment is checked here. -/
def execMstore (f : FmtA) (s : State) : Host.Outcome State Fault Refusal :=
  withIssue s fun s iss =>
    withRoom s iss 3
      (laneChecks s iss f (fun _ _ _ => .ok (.scratch 0 false)) (fun _ => none) fun s =>
        let c := s.crew iss.crew
        let a := (c.sreg f.a.toNat).toNat
        let g := natBits a 63 56
        if !s.groupOk g c.tenant then s.trapGang iss iss.slices 0x15 a a
        else
          let ws := laneWrites f c iss.slices (laneOffset f c)
          let dst := writesSpan (s.groupWord g 1) ws
          withMerge s c [] dst fun s late => (s.startOp iss iss.slices .coll .mstore [] ws g 0 dst late).laneAdvance iss (laneOps f))

/-- PUTSIG: a page of MTYPE MMIO traps PROT. -/
def execPutsig (f : FmtA) (s : State) : Host.Outcome State Fault Refusal :=
  withIssue s fun s iss =>
    withRoom s iss 3
      (laneChecks s iss f
        (fun s c a =>
          match s.access c a (4 * laneRegs f) .write with
          | .ok (.mmio _) => .prot
          | x => x)
        (fun _ => none) fun s =>
          let c := s.crew iss.crew
          let ws := laneWrites f c iss.slices (laneAddr f c)
          let dst := writesSpan 0 ws
          withMerge s c [] dst fun s late =>
            (s.startOp iss iss.slices .coll .putsig [c.sreg f.a.toNat, c.sreg (f.a.toNat + 1)] ws 0 0 dst late).laneAdvance iss
              (laneOps f))

/-! ### RLOAD (11 R249; 25 R410) -/

/-- TYPE of a reducing load: 0 F32, 1 BF16, 2 SI32, from DT. -/
def rloadType (f : FmtA) : Nat := if f.p.dt = 4 then 1 else if f.p.dt = 10 then 2 else 0

/-- The vector operands of RLOAD. -/
def rloadOps (f : FmtA) : List VOp := [{ pos := 0, field := f.d.toNat, n := 1 }, { pos := 2, field := f.b.toNat, n := 1 }]

/-- The lanes of some slices that this module asks its switches to reduce for: an RLOAD's requests go out on the I/O die. -/
def rloadLane (f : FmtA) (c : Crew) (l : Nat) : LaneTgt :=
  { lane := l, addr := (c.sreg f.a.toNat).toNat, tgt := .fabric (natBits (c.sreg f.a.toNat).toNat 63 56) 0 (laneOffset f c l) }

/-- The message of a lane's RLOAD. -/
def redMsg (f : FmtA) (x : LaneTgt) (id : Nat) : Msg :=
  match x.tgt with
  | .fabric g _ off => .redread g off (collSize (rloadType f)) f.cl.toNat (rloadType f) id
  | _ => .redread 0 0 (collSize (rloadType f)) f.cl.toNat (rloadType f) id

/-- One slice of RLOAD: names, alignment, the group entry, a route to the links, this member's range, and then the requests, whose
replies it awaits (11 R249, R258). -/
def rloadSlice (f : FmtA) (iss : Issue) (s : State) (c : Crew) (i : Nat) : State :=
  let n := collSize (rloadType f)
  let ops := rloadOps f
  let a := (c.sreg f.a.toNat).toNat
  let g := natBits a 63 56
  let lanes := (c.activeOf i).map (rloadLane f c)
  match c.nameFault i ops with
  | some (code, info) => s.raise iss.crew i (iss.trap code info 0)
  | none =>
    match checkLanes ((c.activeOf i).map fun l => (l, laneAddr f c l)) n (fun _ => .ok (.scratch 0 false)) fun _ => none with
    | .trap code info x => s.raise iss.crew i (iss.trap code info x)
    | .xlat _ _ => s
    | .ok _ =>
      if !s.groupOk g c.tenant then s.raise iss.crew i (iss.trap 0x15 a a)
      else
        match lanes.find? fun x => (s.noRoute (s.site c) x.tgt true).isSome with
        | some x => s.linkFault iss [i] a x.tgt true
        | none =>
          if (c.activeOf i).any fun l => s.groupWord g 2 < laneOffset f c l + n then s.raise iss.crew i (iss.trap 0x15 a a)
          else if lanes.isEmpty then s.commitMem iss c i ops []
          else
            let d : VOp := { pos := 0, field := f.d.toNat, n := 1 }
            let dests : List LaneDest := (c.activeOf i).map fun l => { lane := l, regs := [c.phys d l 0] }
            let fl := iss.flight c [i] ops [] [c.pendOf d]
            s.takeOff iss [i] { fl with lanes := dests, sz := 2 } [] lanes n (redMsg f)

/-- RLOAD: each slice sends its requests and writes its lanes once they are answered. -/
def execRload (f : FmtA) (s : State) : Host.Outcome State Fault Refusal :=
  withIssue s fun s iss =>
    let c := s.crew iss.crew
    iss.slices.foldl (fun s i => rloadSlice f iss s c i) s

end Sys2Proof.Machine
end

