-- ==== Sys2Proof/Machine/Sha.lean ====
section
/-! DEFINITION. SHA-384, which R277 names, as FIPS 180-4 defines it: SHA-512's compression with its own initial value, cut to 384
bits (spec 12 R277). -/

namespace Sys2Proof.Machine

/-- A rotation to the right. -/
def shaRotr (x : BitVec 64) (n : Nat) : BitVec 64 := x.rotateRight n

/-- The functions of the standard: Ch, Maj, the two sums and the two schedule functions. -/
def shaCh (x y z : BitVec 64) : BitVec 64 := (x &&& y) ^^^ (~~~x &&& z)
/-- Maj. -/
def shaMaj (x y z : BitVec 64) : BitVec 64 := (x &&& y) ^^^ (x &&& z) ^^^ (y &&& z)
/-- The sum of the first word. -/
def shaSumA (x : BitVec 64) : BitVec 64 := shaRotr x 28 ^^^ shaRotr x 34 ^^^ shaRotr x 39
/-- The sum of the fifth word. -/
def shaSumE (x : BitVec 64) : BitVec 64 := shaRotr x 14 ^^^ shaRotr x 18 ^^^ shaRotr x 41
/-- The schedule's function of the word 15 places back. -/
def shaSigA (x : BitVec 64) : BitVec 64 := shaRotr x 1 ^^^ shaRotr x 8 ^^^ (x >>> 7)
/-- The schedule's function of the word 2 places back. -/
def shaSigB (x : BitVec 64) : BitVec 64 := shaRotr x 19 ^^^ shaRotr x 61 ^^^ (x >>> 6)

/-- The round constants: the fractions of the cube roots of the first 80 primes. -/
def shaK : List (BitVec 64) :=
  [0x428a2f98d728ae22, 0x7137449123ef65cd, 0xb5c0fbcfec4d3b2f, 0xe9b5dba58189dbbc] ++
  [0x3956c25bf348b538, 0x59f111f1b605d019, 0x923f82a4af194f9b, 0xab1c5ed5da6d8118] ++
  [0xd807aa98a3030242, 0x12835b0145706fbe, 0x243185be4ee4b28c, 0x550c7dc3d5ffb4e2] ++
  [0x72be5d74f27b896f, 0x80deb1fe3b1696b1, 0x9bdc06a725c71235, 0xc19bf174cf692694] ++
  [0xe49b69c19ef14ad2, 0xefbe4786384f25e3, 0x0fc19dc68b8cd5b5, 0x240ca1cc77ac9c65] ++
  [0x2de92c6f592b0275, 0x4a7484aa6ea6e483, 0x5cb0a9dcbd41fbd4, 0x76f988da831153b5] ++
  [0x983e5152ee66dfab, 0xa831c66d2db43210, 0xb00327c898fb213f, 0xbf597fc7beef0ee4] ++
  [0xc6e00bf33da88fc2, 0xd5a79147930aa725, 0x06ca6351e003826f, 0x142929670a0e6e70] ++
  [0x27b70a8546d22ffc, 0x2e1b21385c26c926, 0x4d2c6dfc5ac42aed, 0x53380d139d95b3df] ++
  [0x650a73548baf63de, 0x766a0abb3c77b2a8, 0x81c2c92e47edaee6, 0x92722c851482353b] ++
  [0xa2bfe8a14cf10364, 0xa81a664bbc423001, 0xc24b8b70d0f89791, 0xc76c51a30654be30] ++
  [0xd192e819d6ef5218, 0xd69906245565a910, 0xf40e35855771202a, 0x106aa07032bbd1b8] ++
  [0x19a4c116b8d2d0c8, 0x1e376c085141ab53, 0x2748774cdf8eeb99, 0x34b0bcb5e19b48a8] ++
  [0x391c0cb3c5c95a63, 0x4ed8aa4ae3418acb, 0x5b9cca4f7763e373, 0x682e6ff3d6b2b8a3] ++
  [0x748f82ee5defb2fc, 0x78a5636f43172f60, 0x84c87814a1f0ab72, 0x8cc702081a6439ec] ++
  [0x90befffa23631e28, 0xa4506cebde82bde9, 0xbef9a3f7b2c67915, 0xc67178f2e372532b] ++
  [0xca273eceea26619c, 0xd186b8c721c0c207, 0xeada7dd6cde0eb1e, 0xf57d4f7fee6ed178] ++
  [0x06f067aa72176fba, 0x0a637dc5a2c898a6, 0x113f9804bef90dae, 0x1b710b35131c471b] ++
  [0x28db77f523047d84, 0x32caab7b40c72493, 0x3c9ebe0a15c9bebc, 0x431d67c49c100d4c] ++
  [0x4cc5d4becb3e42b6, 0x597f299cfc657e2a, 0x5fcb6fab3ad6faec, 0x6c44198c4a475817]

/-- The initial value of SHA-384: the fractions of the square roots of the ninth to the sixteenth prime. -/
def shaInit : List (BitVec 64) :=
  [0xcbbb9d5dc1059ed8, 0x629a292a367cd507, 0x9159015a3070dd17, 0x152fecd8f70e5939] ++
  [0x67332667ffc00b31, 0x8eb44a8768581511, 0xdb0c2e0d64f98fa7, 0x47b5481dbefa4fa4]

/-- The message with its padding: 0x80, zeros, and the length in bits as 16 bytes, the highest first, up to whole blocks of 128. -/
def shaPad (m : List Byte) : List Byte :=
  m ++ [0x80] ++ List.replicate ((239 - m.length % 128) % 128) 0 ++ (leBytes (8 * m.length) 16).reverse

/-- A block's 16 words. -/
def shaWords (block : List Byte) : List (BitVec 64) :=
  (List.range 16).map fun i => BitVec.ofNat 64 (leNat ((block.drop (8 * i)).take 8).reverse)

/-- The schedule from 16 words onwards: `n` further words, of which each depends on the 16 before it. -/
def shaSchedule : Nat → List (BitVec 64) → List (BitVec 64)
  | 0, w => w
  | n + 1, w =>
    w.take 1 ++ shaSchedule n
      (w.drop 1 ++ [shaSigB (w.getD 14 0) + w.getD 9 0 + shaSigA (w.getD 1 0) + w.getD 0 0])

/-- One round on the eight working words, with a constant and a word of the schedule. -/
def shaRound (h : List (BitVec 64)) (k w : BitVec 64) : List (BitVec 64) :=
  match h with
  | [a, b, c, d, e, f, g, x] =>
    let t := x + shaSumE e + shaCh e f g + k + w
    [t + shaSumA a + shaMaj a b c, a, b, c, d + t, e, f, g]
  | _ => h

/-- The compression of one block. -/
def shaBlock (h : List (BitVec 64)) (block : List Byte) : List (BitVec 64) :=
  let r := (shaK.zip (shaSchedule 64 (shaWords block))).foldl (fun h kw => shaRound h kw.1 kw.2) h
  h.zipWith (· + ·) r

/-- SHA-384 of a message: the first six words, the first one highest. -/
def sha384 (m : List Byte) : BitVec 384 :=
  let p := shaPad m
  let h := (List.range (p.length / 128)).foldl (fun h i => shaBlock h ((p.drop (128 * i)).take 128)) shaInit
  BitVec.ofNat 384 ((h.take 6).foldl (fun n w => n * 2 ^ 64 + w.toNat) 0)

/-- The 48 bytes of a digest, in the order in which the standard writes them. -/
def digestBytes (d : BitVec 384) : List Byte := (leBytes d.toNat 48).reverse

end Sys2Proof.Machine
end

