-- ==== Sys2Proof/Machine/Life.lean ====
section
/-! DEFINITION. The module's life: reset, boot, update, attestation and the host's heartbeat (spec 11 R255; 12 R270, R272, R273,
R277 to R279). -/

namespace Sys2Proof.Machine

/-! ### Reset (12 R273) -/

/-- Every domain is reset and DRAM is not kept; what lies outside the module stays: host memory, the inputs that come, what has
been sent, the flash, the fuse and the monotonic counter, and the model's own counters. -/
def State.resetAll (s : State) : State :=
  { State.reset with
    mem := s.mem.filter fun kv => hostBase ≤ kv.1 && kv.1 < 2 ^ 53
    inputs := s.inputs, free := s.free, nextId := s.nextId, outbox := s.outbox
    boot := { State.reset.boot with stored := s.boot.stored, fusedMin := s.boot.fusedMin, lmsLeaf := s.boot.lmsLeaf } }

/-- FUNDAMENTAL_RESET. -/
def execFundamentalReset (s : State) : Host.Outcome State Fault Refusal := .next s.resetAll

/-- HOST_LINK_LOSS. -/
def execHostLinkLoss (s : State) : Host.Outcome State Fault Refusal := .next s.resetAll

/-! ### Firmware (12 R277, R278) -/

/-- The image verifies: both signatures over its digest, and its security version. -/
def State.verifies (s : State) (f : FwImage) : Bool :=
  let d := sha384 f.bytes
  Config.ecdsaVerifies d f.ecdsa && Config.lmsVerifies d f.lms && s.boot.fusedMin ≤ f.version

/-- M extended by a digest: SHA-384(M ‖ digest), each as its 48 bytes. -/
def extendMeasure (m d : BitVec 384) : BitVec 384 := sha384 (digestBytes m ++ digestBytes d)

/-- The measurement registers after boot: the image in register 0, firmware's later loads in 1 to 7. -/
def measureBoot (f : FwImage) (m : List (BitVec 384)) : List (BitVec 384) :=
  m.zipIdx.map fun (x, i) =>
    if i = 0 then extendMeasure x (sha384 f.bytes) else (Config.laterLoads i).foldl extendMeasure x

/-- The ten pairs of dies. -/
def diePairs : List (Nat × Nat) :=
  [(0, 1), (0, 2), (0, 3), (0, 4), (1, 2), (1, 3), (1, 4), (2, 3), (2, 4), (3, 4)]

/-- The circuit that joins two dies, each by the port with the other's number (log 30). -/
def pairCircuit (p : Nat × Nat) : DWord :=
  BitVec.ofNat 64 (2 ^ 31 + p.1 * 2 ^ 12 + p.2 * 2 ^ 9 + p.2 * 2 ^ 6 + p.1 * 2 ^ 3)

/-- Firmware loads entries 0 to 9 of the connection table (11 R255). -/
def State.loadCircuits (s : State) : State :=
  { s with
    csr := ssetAll s.csr (diePairs.zipIdx.map fun (p, e) => (0x100 + e, pairCircuit p))
    routes := diePairs.map pairCircuit, measured := diePairs.map pairCircuit }

/-- A service thread as firmware starts it (12 R270; log 7): thread 0 is firmware's own. -/
def serviceCrew (s : State) (n : Nat) : Crew :=
  let t := if n = 0 then Config.firmwareTenant else Config.threadTenant n
  let pc := if n = 0 then Config.firmwareEntry else Config.threadEntry n
  { place := .service (n / 8) (n % 8), tenant := t, g := 128, k := 0
    level := if n = 0 then .firmware else if Config.threadService n then .service else .user
    live := 0xF, exec := 0xF, ten := (s.tenant t).ten
    slices := List.replicate 8 { pc := pcOf pc } }

/-- Starts the service threads. -/
def State.startThreads (s : State) : State :=
  (List.range 128).foldl (fun s n =>
    if n = 0 || Config.threadRuns n then
      let (s, id) := s.fresh
      { s with crews := aset s.crews id (serviceCrew s n) }
    else s) s

/-- FIRMWARE_BOOT: an image that does not verify does not run. -/
def execFirmwareBoot (s : State) : Host.Outcome State Fault Refusal :=
  .next <|
    if s.boot.running || !s.verifies s.boot.stored then s
    else
      let s : State := { s with
        boot := { s.boot with running := true, measure := measureBoot s.boot.stored s.boot.measure }
        hbLast := s.time }
      s.loadCircuits.startThreads

/-- FIRMWARE_UPDATE: an image that verifies replaces the stored one. -/
def execFirmwareUpdate (image : FwImage) (s : State) : Host.Outcome State Fault Refusal :=
  .next (if s.verifies image then { s with boot := { s.boot with stored := image } } else s)

/-! ### Attestation (12 R279) -/

/-- SPDM_MEASUREMENT: the counter is advanced before the leaf is used, and at 2^20 nothing is signed. -/
def execSpdmMeasurement (request : List Byte) (s : State) : Host.Outcome State Fault Refusal :=
  .next <|
    if 2 ^ 20 ≤ s.boot.lmsLeaf then s.send .spdmError
    else
      ({ s with boot := { s.boot with lmsLeaf := s.boot.lmsLeaf + 1 } } : State).send
        (.spdm (Config.spdmResponse request s.boot.measure s.boot.lmsLeaf))

/-! ### Heartbeats (12 R272) -/

/-- An interval of HBINT has passed since the last heartbeat. -/
def State.heartbeatDue (s : State) : Bool :=
  s.boot.running && !s.hostFenced && s.hbLast + (sget s.csr 0x11).toNat * Config.usec ≤ s.time

/-- HEARTBEAT_WRITE: the count goes to HBADDR in host memory, and an interval without the host's heartbeat is counted. -/
def execHeartbeatWrite (s : State) : Host.Outcome State Fault Refusal :=
  .next <|
    if s.heartbeatDue then
      let n := s.hbCount + 1
      let a := sget s.csr 0x10
      let s : State := { s with
        hbCount := n, hbLast := s.time, hbSeen := false, hbMissed := if s.hbSeen then 0 else s.hbMissed + 1 }
      (s.memWrite (hostBase + a.toNat % 2 ^ 52) (leBytes n.toNat 8)).send (.heartbeat a n)
    else s

/-- HOST_FENCE: three intervals have passed without a heartbeat of the host. -/
def execHostFence (s : State) : Host.Outcome State Fault Refusal :=
  .next (if 3 ≤ s.hbMissed then { s with csr := sset s.csr 0x12 1 } else s)

end Sys2Proof.Machine
end

