-- ==== Sys2Proof/Machine/Matrix.lean ====
section
/-! DEFINITION. The group MATRIX: the passes MMA and MMAB, and the moves between accumulators, vector registers and ASTAT
(spec 06 R121 to R145; 21 R328 to R331; 24 R382, R383). A pass takes its operands and writes its rows at issue; its
retirement alone comes later (log 2). -/

namespace Sys2Proof.Machine

/-! ### The operands of a pass (06 R122 to R126) -/

/-- A byte of a party's operand slot. -/
def slotByte (s : State) (pa : Nat) (slot off : Nat) : Nat :=
  (sget s.mem (slotAddr pa slot off)).toNat

/-- Element B[k][n] of a slot. -/
def bElem (s : State) (pa : Nat) (fmt slot k n : Nat) : Nat :=
  match mxBits fmt with
  | 4 => slotByte s pa slot (192 * n + k / 2) / (if k % 2 = 0 then 1 else 16) % 16
  | 8 => slotByte s pa slot (192 * n + k)
  | _ =>
    let (sl, off) := if k < 96 then (slot, 192 * n + 2 * k) else (slot + 1, 192 * n + 2 * (k - 96))
    slotByte s pa sl off + 256 * slotByte s pa sl (off + 1)

/-- The block scale byte of column n, block j. -/
def bScale (s : State) (pa : Nat) (slot n j : Nat) : Nat := slotByte s pa slot (Config.sidecar + 48 * n + j)

/-- The band scale of column n. -/
def bBand (s : State) (pa : Nat) (slot n : Nat) : Nat :=
  let off := 0xB400 + 2 * (n / 64)
  slotByte s pa slot off + 256 * slotByte s pa slot (off + 1)

/-- Item `k` of `w` bits in a row of registers. -/
def rowItem (row w k : Nat) : Nat := row / 2 ^ (w * k) % 2 ^ w

/-! ### One cell (06 R135) -/

/-- The product of a list of values, none where it is 0 × ∞. -/
def product : List FVal → Option FVal
  | [] => some (.fin ⟨false, 1, 0⟩)
  | v :: vs => (product vs).bind (fprod v)

/-- The elements and scales that a cell uses: A's and B's elements and scale bytes by k, and the band scales. -/
structure CellIn where
  a : Nat → Nat
  b : Nat → Nat
  sa : Nat → Nat
  sb : Nat → Nat
  bband : Nat

/-- A float cell over the terms of `ks`: its new pattern and its events in ASTAT [4:0]. -/
def floatCell (fb : FmtBlock) (fa fbm : Fmt) (x : CellIn) (ks : List Nat) (acc : Nat) : Nat × BitVec 5 :=
  let aband := Fmt.bf16.value fb.aband
  let bband := Fmt.bf16.value x.bband
  let old := Fmt.f32.value acc
  let nan := aband == .nan || bband == .nan || old == .nan
    || ks.any fun k => fa.value (x.a k) == .nan || fbm.value (x.b k) == .nan
  let badScale := ks.any fun k => (fb.asc && x.sa k = 0xFF) || (fb.bsc && x.sb k = 0xFF)
  let scale (on : Bool) (c : Nat) : FVal := if on then .fin (e3m5 c) else .fin ⟨false, 1, 0⟩
  let ts := ks.map fun k =>
    product [fa.value (x.a k), scale fb.asc (x.sa k), fbm.value (x.b k), scale fb.bsc (x.sb k), aband, bband]
  let infs := (old :: ts.filterMap id).filterMap fun v => match v with | .inf n => some n | _ => none
  if nan then (Fmt.f32.canon, 8)
  else if badScale || ts.contains none || (infs.contains true && infs.contains false) then (Fmt.f32.canon, 16)
  else
    match infs, old with
    | n :: _, _ => (infCode .f32 n, 0)
    | [], .fin d =>
      let sum := ts.foldl (fun (a : Dy) t =>
        match t with
        | some (.fin y) => a.add .rn y
        | _ => a) ⟨false, 0, 0⟩
      let r := roundDy .f32 .rn false (d.add .rn sum)
      (r.code, r.fl &&& 0b00101)
    | [], _ => (Fmt.f32.canon, 16)

/-- An integer cell over the terms of `ks`. -/
def intCell (fb : FmtBlock) (x : CellIn) (ks : List Nat) (acc : Nat) : Nat × BitVec 5 :=
  let sum := ks.foldl (fun (a : Int) k => a + natSext (x.a k) (mxBits fb.afmt) * natSext (x.b k) (mxBits fb.bfmt)) 0
  let w := natSext acc 32 + sum
  let (c, out) := Ty.clamp .si32 w
  if fb.sat then (intMod c 32, flIf out 2) else (intMod w 32, flIf out 4)

/-- The values of k that column n sums over: all for MMA, those of its diagonal block for MMAB (06 R136). -/
def FmtBlock.terms (b : FmtBlock) (diagonal : Bool) (n : Nat) : List Nat :=
  if diagonal then
    let w := if b.depth = 384 then 24 else 12
    (List.range w).map (w * (n / 12) + ·)
  else List.range b.depth

/-- A lane's row of A and its block scales, as the registers hold them. -/
def passRow (c : Crew) (fb : FmtBlock) (f : FmtA) (l : Nat) : Nat × Nat :=
  (c.vnat { pos := 1, field := f.a.toNat, n := fb.aRegs } l,
   if fb.asc then c.vnat { pos := 3, field := fb.asreg, n := fb.scaleRegs } l else 0)

/-- The new cell of column n for a lane's row and scales, and its events. -/
def passCell (s : State) (pa : Nat) (fb : FmtBlock) (diagonal : Bool) (slot : Nat) (row : Nat × Nat) (n old : Nat) :
    Nat × BitVec 5 :=
  let x : CellIn :=
    { a := rowItem row.1 (mxBits fb.afmt), b := fun k => bElem s pa fb.bfmt slot k n
      sa := fun k => rowItem row.2 8 (k / fb.len), sb := fun k => bScale s pa slot n (k / fb.len), bband := bBand s pa slot n }
  match mxFmt fb.afmt, mxFmt fb.bfmt with
  | some fa, some fbm => floatCell fb fa fbm x (fb.terms diagonal n) old
  | _, _ => intCell fb x (fb.terms diagonal n) old

/-! ### A pass (06 R134 to R137; 24 R382) -/

/-- ASTAT with events and a band. -/
def Crew.orStat (c : Crew) (a : Nat) (ev : BitVec 5) : Crew :=
  { c with astat := sset c.astat a (sget c.astat a ||| ev.setWidth 32) }

/-- The first check of a pass that fails in a slice (24 R382). -/
def passFault (s : State) (c : Crew) (fb : FmtBlock) (f : FmtA) (i : Nat) : Option (Nat × Nat) :=
  match fb.reason f.b.toNat with
  | some r => some (0x0E, r)
  | none =>
    match c.nameFault i (passOps fb f) with
    | some t => some t
    | none =>
      let slots := match c.partyId with | some p => (s.party p).slotCount | none => 0
      if c.k ≤ f.d.toNat then some (0x0D, 0)
      else if slots ≤ f.b.toNat + (if fb.bfmt < 2 then 1 else 0) then some (0x0D, 1)
      else none

/-- The rows of a pass in the lanes of some slices. -/
def passRows (s : State) (c : Crew) (pa : Nat) (fb : FmtBlock) (diagonal : Bool) (f : FmtA) (lanes : List Nat) : Crew :=
  let a := f.d.toNat
  let c' := lanes.foldl (fun r l =>
    let row := passRow c fb f l
    (List.range 192).foldl (fun r n =>
      let (v, ev) := passCell s pa fb diagonal f.b.toNat row n (sget c.acc (accKey a l n)).toNat
      { (r.orStat a ev) with acc := sset r.acc (accKey a l n) (BitVec.ofNat 32 v) }) r) c
  if lanes.isEmpty then c'
  else
    let st : Word := (sget c'.astat a &&& ~~~(BitVec.ofNat 32 (63 * 2 ^ 16))) ||| BitVec.ofNat 32 (fb.row0 * 2 ^ 16)
    { c' with astat := sset c'.astat a st }

/-- Slices that wait at this pass for a slice of the gang (03 R74). -/
def passWaiters (c : Crew) (iss : Issue) : List Nat :=
  c.liveSlices.filter fun i =>
    (c.slice i).pc == iss.pc && (c.slice i).pend.isNone &&
    match (c.slice i).wait with
    | .matrix o => iss.slices.contains o
    | _ => false

/-- MMA and MMAB: the slices that a failed check left waiting join the gang; a failure traps the lowest slice and the others
wait for it (03 R74). Until its retirement the pass holds its accumulator and the registers that it reads (06 R138). -/
def matrixPass (diagonal : Bool) (f : FmtA) (s : State) : Host.Outcome State Fault Refusal :=
  withIssue s fun s iss =>
    let k := iss.crew
    let c := s.crew k
    if c.cnt.matrix = 63 then s.modCrew k fun c => c.modSlices iss.slices fun sl => { sl with wait := .count 2 62 }
    else
      let waiters := passWaiters c iss
      let is := slices8.filter fun i => iss.slices.contains i || waiters.contains i
      let fb := fmtBlock (c.sreg (if f.p.cp then f.p.c.toNat else 126)).toNat
      match is.findSome? fun i => (passFault s c fb f i).map fun t => (i, t) with
      | some (i, code, info) =>
        let others := is.filter fun j => j ≠ i
        let s := s.modCrew k fun c => c.modSlices others fun sl => { sl with wait := .matrix i }
        s.raise k i (iss.trap code info 0)
      | none =>
        let pa := c.partyId.getD 0
        let lanes := c.activeIn is
        let c := passRows s c pa fb diagonal f lanes
        let pass : Pass := { acc := f.d.toNat, reads := (passOps fb f).map c.pendOf }
        let c := c.postAdvance lanes (passOps fb f)
        s.setCrew k ({ c with cnt := { c.cnt with matrix := c.cnt.matrix + 1 }, passes := c.passes ++ [pass] }.advance is iss.len)

/-- MMA (06 R135). -/
def execMma (f : FmtA) (s : State) : Host.Outcome State Fault Refusal := matrixPass false f s

/-- MMAB (06 R136). -/
def execMmab (f : FmtA) (s : State) : Host.Outcome State Fault Refusal := matrixPass true f s

/-! ### Moves (06 R141 to R145; 21 R328 to R331) -/

/-- An instruction on accumulator `a` that each slice commits: names, ACCALLOC, then its effect on the slice's active lanes. -/
def accInstr (s : State) (iss : Issue) (a : Nat) (ops : List VOp) (effect : Crew → Crew → Nat → Crew) : State :=
  let c := s.crew iss.crew
  iss.slices.foldl (fun s i =>
    match c.nameFault i ops with
    | some (code, info) => s.raise iss.crew i (iss.trap code info 0)
    | none =>
      if c.k ≤ a then s.raise iss.crew i (iss.trap 0x0D 0 0)
      else
        s.modCrew iss.crew fun r =>
          (((c.activeOf i).foldl (effect c) r).postAdvance (c.activeOf i) ops).advance [i] iss.len) s

/-- ACCZ: zeroes the rows; ASTAT is unchanged. -/
def execAccz (f : FmtA) (s : State) : Host.Outcome State Fault Refusal :=
  withIssue s fun s iss =>
    let a := f.d.toNat
    accInstr s iss a [] fun _ r l => { r with acc := sclear r.acc (accKey a l 0) (accKey a l 192) }.addPend [.acc a]

/-- The events of a conversion in ASTAT (06 R142). -/
def CvtRes.events (r : CvtRes) : BitVec 5 := (r.fl &&& 0b10101) ||| flIf r.nanIn 8 ||| flIf r.clamped 2

/-- ACCRD: 32 converted columns into 32 registers. -/
def execAccrd (f : FmtA) (s : State) : Host.Outcome State Fault Refusal :=
  withIssue s fun s iss =>
    let a := f.a.toNat
    let d : VOp := { pos := 0, field := f.d.toNat, n := 32 }
    accInstr s iss a [d] fun c r l =>
      let out := (List.range 32).map fun i =>
        convertAs (Ty.ofCode .f32 f.p.dt) (Ty.ofCode .f32 f.p.st) (Rnd.ofField f.p.rnd) f.p.sat
          (sget c.acc (accKey a l (32 * f.b.toNat + i))).toNat
      let r := c.vput r d l (out.map fun x => BitVec.ofNat 32 x.code)
      (r.orStat a (out.foldl (fun ev x => ev ||| x.events) 0)).addPend [c.pendOf d, .acc a]

/-- ACCRD.STAT. -/
def execAccrdStat (f : FmtA) (s : State) : Host.Outcome State Fault Refusal :=
  withIssue s fun s iss =>
    let a := f.a.toNat
    let d : VOp := { pos := 0, field := f.d.toNat, n := 1 }
    accInstr s iss a [d] fun c r l => (c.vput r d l [sget c.astat a]).addPend [c.pendOf d, .acc a]

/-- ACCWR: 32 converted registers into 32 columns. -/
def execAccwr (f : FmtA) (s : State) : Host.Outcome State Fault Refusal :=
  withIssue s fun s iss =>
    let a := f.d.toNat
    let n : VOp := { pos := 1, field := f.a.toNat, n := 32 }
    accInstr s iss a [n] fun c r l =>
      (List.range 32).foldl (fun r i =>
        let x := convertAs (Ty.ofCode .f32 f.p.dt) (Ty.ofCode .f32 f.p.st) (Rnd.ofField f.p.rnd) f.p.sat (c.vget n l i).toNat
        let r := r.orStat a x.events
        { r with acc := sset r.acc (accKey a l (32 * f.b.toNat + i)) (BitVec.ofNat 32 x.code) }) (r.addPend [.acc a])

/-- ACCWR.STAT. -/
def execAccwrStat (f : FmtA) (s : State) : Host.Outcome State Fault Refusal :=
  withIssue s fun s iss =>
    let a := f.d.toNat
    let n : VOp := { pos := 1, field := f.a.toNat, n := 1 }
    accInstr s iss a [n] fun c r l => (r.orStat a ((c.vget n l 0).setWidth 5)).addPend [.acc a]

/-- ACCST, and with B = 1 ACCST.CLR. -/
def execAccst (f : FmtA) (s : State) : Host.Outcome State Fault Refusal :=
  withIssue s fun s iss =>
    let a := f.a.toNat
    if (s.crew iss.crew).k ≤ a then s.trapGang iss iss.slices 0x0D 0 0
    else
      s.modCrew iss.crew fun c =>
        let c := c.setSreg f.d.toNat ((sget c.astat a).setWidth 64)
        (if f.b = 1 then { c with astat := sset c.astat a 0 } else c).advance iss.slices iss.len

end Sys2Proof.Machine
end

