-- ==== Sys2Proof/Machine/Memctl.lean ====
section
/-! DEFINITION. The group MEMCTL: FENCE, PLACE, PEQ, PINS, PINV and VDIE (spec 07 R164 to R168; 09 R207; 11 R257; 22 R360; 24
R394 to R398; 26 R434). -/

namespace Sys2Proof.Machine

/-! ### FENCE (09 R207; 22 R360) -/

/-- The drop of a FENCE at outing scope or wider, or its slices' wait for a MOVING page that the drop meets (07 R445). -/
def fenceDrop (s : State) (iss : Issue) (is : List Nat) (go : State → State) : State :=
  let c := s.crew iss.crew
  match s.dropMoving (s.site c) c.tenant .whole with
  | some pfn => s.waitMoving iss.crew is pfn
  | none => go (s.dropRange (s.site c) c.tenant .whole)

/-- The effect of a FENCE.DEV for the issuing gang, which waits for the earlier accesses of its lanes. -/
def fenceWide (s : State) (iss : Issue) (go : State → State) : State :=
  withPerformed s iss iss.slices true false fun s is => fenceDrop s iss is go

/-- FENCE. -/
def execFence (f : FmtA) (s : State) : Host.Outcome State Fault Refusal :=
  withIssue s fun s iss =>
    let scope := f.b.toNat
    withPerformed s iss iss.slices (decide (2 ≤ scope)) (scope == 5) fun s is =>
      if scope < 2 || is.isEmpty then s.advance iss is
      else fenceDrop s iss is fun s => s.advance iss is

/-! ### The page that an address names -/

/-- The eligible page of an address (07 R156, R165): its frame and its leaf's address. The walk is not one of translation: it sets no
bit. -/
def State.eligible (s : State) (t va : Nat) : Option (Nat × Nat) :=
  if !canonical va || inPartyWindow va || inOutingWindow va then none
  else
    match s.walk t va with
    | .leaf l _ => if l.level = 0 && l.mtype == .framed && !l.pin then some (l.pfn, l.leafPa) else none
    | _ => none

/-- The pages of PLACE and PINV: `n` from the page of an address. -/
def pagesFrom (va n : Nat) : List Nat := (List.range n).map fun i => (va / 4096 + i) * 4096 % 2 ^ 64

/-! ### PLACE (07 R165; 16 R314 to R316; 24 R398) -/

/-- A walk that only looks at a page uses the banks of the entries that it reads (01 R18). -/
def State.lookAt (s : State) (t va : Nat) : State :=
  if !canonical va || inPartyWindow va || inOutingWindow va then s else s.useWalk t va

/-- One page of PLACE: the state, and the remap that it asked for. R165 has a party and a core of its own in PLACE.NEAR: by a service
thread, which has neither, the model skips every page (log 26). -/
def placePage (s : State) (c : Crew) (place va : Nat) : State × Option Nat :=
  let expl := (s.tenant c.tenant).expl
  let s := s.lookAt c.tenant va
  match s.eligible c.tenant va with
  | none => (s, none)
  | some (pfn, leafPa) =>
    let r : Option (State × Nat) :=
      match place, c.partyId with
      | 0, some p => s.placeNear c.tenant p pfn leafPa expl
      | 0, none => none
      | 1, p => s.placeFar c.tenant p pfn leafPa expl
      | _, p => s.placeHome p pfn leafPa
    match r with
    | some (s, id) => (s, some id)
    | none => (s, none)

/-- PLACE: a slice that waited for its remaps to start goes on. -/
def execPlace (f : FmtA) (s : State) : Host.Outcome State Fault Refusal :=
  withIssue s fun s iss =>
    let c := s.crew iss.crew
    match (c.slice (iss.slices.headD 0)).wait with
    | .place _ => s.advance iss iss.slices
    | _ =>
      let (s, ids) := (pagesFrom (c.sreg f.a.toNat).toNat (f.b.toNat + 1)).foldl (fun (a : State × List Nat) va =>
        let (s, id) := placePage a.1 c f.d.toNat va
        (s, a.2 ++ id.toList)) (s, [])
      if ids.isEmpty || !(s.tenant c.tenant).expl then s.advance iss iss.slices
      else s.modCrew iss.crew fun c => c.modSlices iss.slices fun sl => { sl with wait := .place ids }

/-! ### PEQ (07 R166; 24 R394) -/

/-- The low double-word of a placement entry as it stands for a page (07 R155, R166). -/
def entryLow (l : Leaf) (p : Placement) : Nat :=
  1 + bit01 l.w * 2 + bit01 l.x * 4 + bit01 l.a * 8 + bit01 l.d * 16 + bit01 l.pin * 32 + bit01 l.g * 64
    + l.mtype.code * 2 ^ 8 + p.res.code * 2 ^ 11 + l.pfn * 2 ^ 16

/-- The leaf is one of R155: its MTYPE is neither the reserved code nor SCRATCH, which only windows have (07 R156). -/
def Leaf.wellFormed (l : Leaf) : Bool := l.mtype != .scratch && l.mtype != .reserved

/-- The pair of double-words that PEQ writes. For a leaf with RES 6 or 7, with MTYPE 7, or with MTYPE 2, which R156 gives to windows
alone, and for a walk that ends in a malformed entry, R166 says nothing: V is 0 as for an entry that is not valid (log 58). -/
def peqPair (s : State) (c : Crew) (va : Nat) : Nat × Nat :=
  if inPartyWindow va || inOutingWindow va then (3 + 2 * 2 ^ 8 + 1 * 2 ^ 11, 0)
  else if !canonical va then (0, 0)
  else
    let site := s.site c
    let hit := (s.cached site c.tenant (vpnOf va)).isSome
    let out (l : Leaf) (p : Placement) : Nat × Nat :=
      let rpl := if l.level = 0 && l.mtype == .framed then (s.page l.pfn).replicaAt site else none
      let low := entryLow l p
      let high := p.high + bit01 hit * 2 ^ 46
      match rpl with
      | some x => (low, high + 2 ^ 35 + x.frame * 2 ^ 36)
      | none => (low, high)
    match s.find site c.tenant va with
    | .absent | .bad => (0, 0)
    | .hit e => if e.leaf.wellFormed then out e.leaf (s.leafPlace e.leaf) else (0, 0)
    | .filled l p _ => if l.wellFormed then out l p else (0, 0)

/-- PEQ. -/
def execPeq (f : FmtA) (s : State) : Host.Outcome State Fault Refusal :=
  withIssue s fun s iss =>
    let c := s.crew iss.crew
    let va := (c.sreg f.a.toNat).toNat
    let (lo, hi) := peqPair s c va
    let s := if !canonical va || (s.windowAddr c va).isSome then s else s.useFind (s.site c) c.tenant va
    s.modCrew iss.crew fun c =>
      (((c.setSreg f.d.toNat (BitVec.ofNat 64 lo)).setSreg (f.d.toNat + 1) (BitVec.ofNat 64 hi)).addPend
        [.uniform f.d.toNat, .uniform (f.d.toNat + 1)]).advance iss.slices iss.len

/-! ### PINS (07 R167; 24 R395) -/

/-- PINS.ON may take its hold: the page is in reach of the issuing core and the party has fewer than 32 holds. -/
def State.mayHold (s : State) (pa : Party) (pfn : Nat) : Bool :=
  let r := s.page pfn
  let here :=
    match r.place.res with
    | .near => r.place.mdie = pa.die && r.place.munit = pa.core
    | .far => true
    | .shared => (r.replicaIn pa.die pa.core).isSome
    | .home | .moving | .poison => false
  here && pa.holds.length < 32

/-- PINS. A service thread has no party that could hold a page: both forms write 0 there (log 26). -/
def execPins (f : FmtA) (s : State) : Host.Outcome State Fault Refusal :=
  withIssue s fun s iss =>
    let c := s.crew iss.crew
    let va := (c.sreg f.a.toNat).toNat
    let write (s : State) (v : DWord) : State :=
      s.modCrew iss.crew fun c => ((c.setSreg f.d.toNat v).addPend [.uniform f.d.toNat]).advance iss.slices iss.len
    let page := s.eligible c.tenant va
    let s := s.lookAt c.tenant va
    match c.partyId, page with
    | some p, some (pfn, _) =>
      let pa := s.party p
      if f.b = 1 then
        if pa.holds.contains pfn then
          write (s.modParty p fun x => { x with holds := x.holds.filter (· != pfn) }) 1
        else write s 0
      else if (s.page pfn).moving then s.waitMoving iss.crew iss.slices pfn
      else if pa.holds.contains pfn then write s 1
      else if s.mayHold pa pfn then write (s.modParty p fun x => { x with holds := x.holds ++ [pfn] }) 1
      else write s 0
    | _, _ => write s 0

/-! ### PINV (24 R396, R397) -/

/-- The frame of an address of a context, whatever its PIN bit; a window has no entry (07 R147). -/
def State.frameOf (s : State) (t va : Nat) : Option (Nat × Nat) :=
  if !canonical va || inPartyWindow va || inOutingWindow va then none
  else
    match s.walk t va with
    | .leaf l _ => if l.level = 0 && l.mtype == .framed then some (l.pfn, l.leafPa) else none
    | _ => none

/-- An entry of a cache that the invalidation of a page of a context drops: for its ASID, and G entries. -/
def CacheEntry.names (e : CacheEntry) (t asid va : Nat) : Bool := e.tenant = t && e.vpn = vpnOf va && (e.leaf.g || e.asid = asid)

/-- A cached table pointer on the page's walk path. -/
def TableEntry.names (e : TableEntry) (t asid va : Nat) : Bool :=
  e.tenant = t && e.asid = asid && e.vpn = vpnOf va / 2 ^ levelShift e.level

/-- Invalidates a page of a context in every cache, with the table pointers on its path; its holds lapse, and the directory keeps as
sharers the caches that still hold an entry of the frame under another address (07 R168; 24 R397). -/
def invalidatePage (s : State) (t va : Nat) : State :=
  let asid := (s.tenant t).asid
  let s : State := { s with
    caches := s.caches.filter fun ce => !ce.2.names t asid va
    tables := s.tables.filter fun e => !e.names t asid va }
  match s.frameOf t va with
  | none => s
  | some (pfn, _) =>
    (s.lapseHolds pfn).modPage pfn fun r =>
      { r with sharers := r.sharers.filter fun k => s.caches.any fun (c, e) => c == k && e.leaf.pfn = pfn && e.leaf.level = 0 }

/-- A compute die in service that the invalidation of some pages cannot reach, one of whose caches holds an entry to invalidate:
PINV waits for its acknowledgement, and cuts it after 100 µs (08 R178; 11 R258). -/
def State.pinvDie (s : State) (site : CacheId) (t : Nat) (pages : List Nat) : Option Nat :=
  let asid := (s.tenant t).asid
  (List.range 4).find? fun d =>
    (s.die d).inService && (s.hops (cacheDie site) d).isNone && pages.any fun va =>
      s.caches.any (fun ce => cacheDie ce.1 = d && ce.2.names t asid va) || s.tables.any fun e => e.die = d && e.names t asid va

/-- An access of a context to a page awaits its reply, or a route to its place, so that the cache that translated it has not drained (08
R175 step 3). -/
def State.pageBusy (s : State) (t va : Nat) : Bool :=
  s.requests.any (fun r => r.waits && r.op.isNone && (s.crew r.crew).tenant = t && vpnOf r.addr.toNat = vpnOf va)
    || s.crews.any fun kc => kc.2.tenant = t && kc.2.slices.any fun sl =>
      match sl.wait with | .route _ a _ => sl.completes && vpnOf a.toNat = vpnOf va | _ => false

/-- PINV.HOME on one page: the frame that it must still wait for, if any. -/
def homePage (s : State) (t va : Nat) : State × Option Nat :=
  match s.frameOf t va with
  | none => (s, none)
  | some (pfn, leafPa) =>
    let r := s.page pfn
    let ask : State := (s.askRemap pfn .home (some leafPa) .service).1
    if r.moving || !r.queue.isEmpty then
      (if (s.project pfn).place.res == .home && !r.queue.any (s.deferred pfn) then s else ask, some pfn)
    else
      match r.place.res with
      | .home | .moving => (s, none)
      | .poison => (s.modPage pfn fun r => { r with place := {}, written := 0 }, none)
      | .near | .far | .shared => (ask, some pfn)

/-- The remaps of the HOME form for some pages: the frame that PINV must still wait for, if any. -/
def homePages (s : State) (t : Nat) (pages : List Nat) : State × Option Nat :=
  pages.foldl (fun (a : State × Option Nat) va =>
    let (s, w) := homePage (a.1.lookAt t va) t va
    (s, a.2.orElse fun _ => w)) (s, none)

/-- PINV: the effect of FENCE.DEV, the remaps of the HOME form, which it waits for, then the invalidations, for whose
acknowledgements it waits: for a die that does not answer, and, trying again, for accesses translated with an old entry. -/
def execPinv (f : FmtA) (s : State) : Host.Outcome State Fault Refusal :=
  withIssue s fun s iss =>
    let c := s.crew iss.crew
    privileged (c.level != Level.user) iss s
      (fenceWide s iss fun s =>
        let pages := pagesFrom (c.sreg f.a.toNat).toNat (f.b.toNat + 1)
        let (s, wait) := if f.d = 1 then homePages s c.tenant pages else (s, none)
        match wait, s.pinvDie (s.site c) c.tenant pages with
        | some pfn, _ => s.waitMoving iss.crew iss.slices pfn
        | none, some d => s.modCrew iss.crew fun c => c.modSlices iss.slices fun sl => { sl with wait := .cut d s.time }
        | none, none =>
          if pages.any (s.pageBusy c.tenant) then s.modCrew iss.crew fun c => c.modSlices iss.slices fun sl => { sl with wait := .retry }
          else (pages.foldl (fun s va => invalidatePage s c.tenant va) s).advance iss iss.slices)

/-! ### VDIE (11 R256, R257; 26 R434) -/

/-- What VDIE writes. -/
def vdieValue (s : State) (ten : Tenant) (a b : Nat) : Nat :=
  match (if a < 4 then ten.vdt.getD a none else none), (if b < 4 then ten.vdt.getD b none else none) with
  | some x, some y => (hopGo s.measured y 5 0 [x]).getD 0xFF
  | _, _ => 0xFF

/-- VDIE. -/
def execVdie (f : FmtA) (s : State) : Host.Outcome State Fault Refusal :=
  withIssue s fun s iss =>
    withKonst s iss f.k f.b fun s k =>
      let c := s.crew iss.crew
      let b := (srcOf false 2 f.b 1 k).read c .ui64 0
      let v := vdieValue s (s.tenant c.tenant) (c.sreg f.a.toNat).toNat b
      s.modCrew iss.crew fun c => (c.setSreg f.d.toNat (BitVec.ofNat 64 v)).advance iss.slices iss.len

end Sys2Proof.Machine
end

