-- ==== Sys2Proof/Machine/System.lean ====
section
/-! DEFINITION. SNAP, CSRR, CSRW, SPAWN and JOINW (spec 12 R271, R280; 22 R348 to R350; 23 R370; 25 R419, R420). -/

namespace Sys2Proof.Machine

/-- SNAP: at service level or above, or where the context allows it at user level (25 R419). -/
def execSnap (_ : FmtA) (s : State) : Host.Outcome State Fault Refusal :=
  withIssue s fun s iss =>
    let c := s.crew iss.crew
    privileged (c.level != Level.user || (s.tenant c.tenant).snapu) iss s (s.snapshot.advance iss iss.slices)

/-- A level may reach a service register (22 R348). -/
def csrAllowed (l : Level) (n : Nat) : Bool :=
  match l with
  | .user => false
  | .service => n < 0x3000
  | .firmware => true

/-- CSRR: the effect of FENCE.DEV, then the read (22 R350). -/
def execCsrr (f : FmtA) (s : State) : Host.Outcome State Fault Refusal :=
  withIssue s fun s iss =>
    privileged (csrAllowed (s.crew iss.crew).level f.csrNumber) iss s
      (fenceWide s iss fun s =>
        let (s, v) := s.csrRead f.csrNumber
        s.modCrew iss.crew fun c => ((c.setSreg f.d.toNat v).addPend [.uniform f.d.toNat]).advance iss.slices iss.len)

/-- CSRW: the effect of FENCE.DEV, then the write. -/
def execCsrw (f : FmtA) (s : State) : Host.Outcome State Fault Refusal :=
  withIssue s fun s iss =>
    let c := s.crew iss.crew
    privileged (csrAllowed c.level f.csrNumber) iss s
      (fenceWide s iss fun s => (s.csrWrite f.csrNumber (c.sreg f.d.toNat)).advance iss iss.slices)

/-- The packet of a SPAWN: it belongs to no queue, and brings its arguments (12 R271, R446). -/
def spawnPacket (c : Crew) (f : FmtA) : Packet :=
  let regs (r : Nat) : List DWord := (List.range 8).map fun i => c.sreg (r + i)
  { tenant := c.tenant, queue := 0x7F, addr := 0, words := regs f.a.toNat, args := some (regs f.b.toNat) }

/-- What a SPAWN does with its packet, and its status; nothing while no launch tag is free. -/
def State.spawn (s : State) (p : Packet) : Option (State × Nat) :=
  if pktType p ≠ 1 || packetBad p then some (s, 1)
  else if s.overLimit p then some (s.rejectLaunch p, 2)
  else
    s.freeTag.map fun tag =>
      let (s, id) := s.fresh
      let s : State := { s with jobs := s.jobs ++ [{ id := id, kind := .fenced, pkt := p }] }
      (s.newLaunch p id tag (p.args.getD []), 0)

/-- SPAWN: an eager release at device scope, then the submission, which waits for a launch tag (25 R420). -/
def execSpawn (f : FmtA) (s : State) : Host.Outcome State Fault Refusal :=
  withIssue s fun s iss =>
    let c := s.crew iss.crew
    privileged c.isService iss s
      (withPerformed s iss iss.slices true false fun s is =>
        match (s.mergeRange (s.site c) c.tenant .whole).spawn (spawnPacket c f) with
        | some (s, status) =>
          s.modCrew iss.crew fun c =>
            ((c.setSreg f.d.toNat (BitVec.ofNat 64 status)).addPend [.uniform f.d.toNat]).advance is iss.len
        | none => s.modCrew iss.crew fun c => c.modSlices is fun sl => { sl with wait := .retry })

/-- The read that ends a JOINW is an acquire at device scope, and drops the core's replicas for the context (09 R212); the wait goes
on while a page that the drop meets is MOVING, or a record of the word has no route to its die (07 R445; 11 R258). -/
def joinEnds (s : State) (iss : Issue) (a : Nat) (tgt : Tgt) (again : State → State) : State :=
  let c := s.crew iss.crew
  match s.dropMoving (s.site c) c.tenant .whole, tgt.granule.bind fun g => (s.awayRec g).map fun _ => g with
  | some _, _ => again s
  | none, some g => again (s.markAway g)
  | none, none =>
    let s := s.touchFor c a false
    let s : State :=
      match tgt with
      | .fabric _ _ _ | .mmio _ => s.acquire c tgt
      | _ => (s.loadLane c tgt 8 { scope := 4, ord := 1 }).1
    (s.dropRange (s.site c) c.tenant .whole).advance iss iss.slices

/-- One read of the word of a JOINW at its master: the wait ends or goes on. -/
def joinRead (s : State) (iss : Issue) (a : DWord) (thr : Int) : State :=
  let k := iss.crew
  let c := s.crew k
  let is := iss.slices
  let lanes := c.liveIn is
  let lane := (lanes32.find? (mbit lanes)).getD 0
  let again (s : State) : State := s.modCrew k fun c => c.modSlices is fun sl => { sl with wait := .join a thr (some s.time) }
  let mine (r : Request) : Bool := r.crew = k && r.addr = a && r.lane = lane && !r.store && r.op.isNone
  if a.toNat % 8 ≠ 0 then s.trapLive iss is 0x05 a.toNat
  else
    match s.access c a.toNat 8 .read with
    | .ok tgt =>
      if s.stuck (s.site c) tgt true then s.linkFault iss is a.toNat tgt true
      else if tgt.violates then s.modCrew k fun r => (r.switchOff lanes).advance is iss.len
      else if tgt.remote then
        let x : LaneTgt := { lane := lane, addr := a.toNat, tgt := tgt }
        let ask (s : State) : State := again (s.request (x.request k 8) (readMsg 8 x))
        match s.requests.find? mine with
        | none => ask s
        | some r =>
          match r.data with
          | none => again s
          | some bs =>
            let s := { s with requests := s.requests.filter fun x => x.id ≠ r.id }
            if natSext (leNat bs) 64 ≤ thr then joinEnds s iss a.toNat tgt again else ask s
      else
        let (s, v) := atHome (s.site c) tgt s fun s => s.readTgt (s.site c) tgt 8 true
        if natSext (leNat v) 64 ≤ thr then joinEnds s iss a.toNat tgt again else again (s.touchFor c a.toNat false)
    | .moving _ => again s
    | x => s.xlatFault iss is .load a.toNat lanes x

/-- JOINW: the address and the threshold are those read at its issue (23 R370). -/
def execJoinw (f : FmtA) (s : State) : Host.Outcome State Fault Refusal :=
  withIssue s fun s iss =>
    let c := s.crew iss.crew
    match (c.slice (iss.slices.headD 0)).wait with
    | .join a thr _ => joinRead s iss a thr
    | _ =>
      withKonst s iss f.k f.b fun s k =>
        joinRead s iss (c.sreg f.a.toNat) (natSext ((srcOf false 2 f.b 1 k).read c .si64 0) 64)

/-- A JOINW that waits on a word in host memory reads it again (23 R370). -/
def execJoinwReread (crew slice : Nat) (s : State) : Host.Outcome State Fault Refusal :=
  .next <|
    let sl := (s.crew crew).slice slice
    match sl.wait with
    | .join a thr _ => s.modCrew crew fun c => c.modSlice slice fun x => { x with wait := .join a thr none }
    | _ => s

end Sys2Proof.Machine
end

