-- ==== Sys2Proof/Machine/Work.lean ====
section
/-! DEFINITION. The group WORK: walks, tiles and items (spec 02 R40 to R44; 25 R406, R407; 26 R428 to R433). -/

namespace Sys2Proof.Machine

/-- The tiles of a configured walk (02 R40). -/
def Walk.count (w : Walk) : Nat := w.e0 * w.e1 * w.e2

/-- The walk of a slot of a launch. -/
def State.walkOf (s : State) (l w : Nat) : Walk := (s.launchRec l).walks.getD w {}

/-- Changes the walk of a slot. -/
def State.modWalk (s : State) (l w : Nat) (f : Walk → Walk) : State :=
  s.modLaunch l fun la => { la with walks := lmod la.walks w f }

/-- The walk that the operands of TWALK configure: an extent of 0 is read as 1 (26 R432). -/
def walkFrom3 (x h sh : Nat) : Walk :=
  { configured := true, e0 := max 1 (natBits x 20 0), e1 := max 1 (natBits x 41 21), e2 := max 1 (natBits x 62 42)
    hbase := BitVec.ofNat 64 h, hstride := natSext (natBits sh 47 0) 48, hpages := natBits sh 63 56 }

/-- TWALK (26 R433). A service thread has no launch whose slot it could configure (log 26). -/
def execTwalk (f : FmtA) (s : State) : Host.Outcome State Fault Refusal :=
  withIssue s fun s iss =>
    let c := s.crew iss.crew
    let reg (i : Nat) : Nat := (c.sreg (f.a.toNat + i)).toNat
    let new := walkFrom3 (reg 0) (reg 1) (reg 2)
    let (s, n) : State × Nat :=
      match s.crewLaunch c with
      | none => (s, new.count)
      | some l =>
        let s := if (s.walkOf l f.b.toNat).configured then s else s.modWalk l f.b.toNat fun _ => new
        (s, (s.walkOf l f.b.toNat).count)
    s.modCrew iss.crew fun c =>
      ((c.setSreg f.d.toNat (BitVec.ofNat 64 n)).addPend [.uniform f.d.toNat]).advance iss.slices iss.len

/-! ### Handing out tiles (02 R41, R42) -/

/-- The operand pages of a tile all stand in the core's cache as NEAR, FAR or SHARED (02 R41; 26 R432). -/
def State.tilePlaced (s : State) (site : CacheId) (t : Nat) (w : Walk) (tile : Nat) : Bool :=
  w.hpages != 0 &&
  (List.range w.hpages).all fun i =>
    let va := intMod ((w.hbase.toNat / 4096 * 4096 : Nat) + (tile : Int) * w.hstride + (w.hbase.toNat % 4096 : Nat)) 64
    let page := (va / 4096 + i) * 4096 % 2 ^ 64
    match s.cached site t (vpnOf page) with
    | some e => canonical page && (e.place.res == .near || e.place.res == .far || e.place.res == .shared)
    | none => false

/-- Reserves tiles ahead for a core, up to 16: returned ones first, then from the work counter. -/
def reserveTiles : Nat → Walk → List Nat → Walk × List Nat
  | 0, w, mine => (w, mine)
  | n + 1, w, mine =>
    if 16 ≤ mine.length then (w, mine)
    else
      match w.returned with
      | t :: rest => reserveTiles n { w with returned := rest } (mine ++ [t])
      | [] => if w.counter < w.count then reserveTiles n { w with counter := w.counter + 1 } (mine ++ [w.counter]) else (w, mine)

/-- One tile for a core: among its reserved ones, the placed first; a core that finds none takes the earliest that another core
has reserved (log 29). -/
def takeTile (s : State) (site : CacheId) (t : Nat) (key : Nat × Nat) (w : Walk) : Walk × Option Nat :=
  let mine := ((w.reserved.find? fun r => r.1 == key).map (·.2)).getD []
  let others := w.reserved.filter fun r => !(r.1 == key)
  let (w, mine) := reserveTiles 16 w mine
  match (mine.find? (s.tilePlaced site t w)).orElse fun _ => mine.head? with
  | some x => ({ w with reserved := others ++ [(key, mine.erase x)] }, some x)
  | none =>
    match others.findSome? fun r => r.2.head? with
    | some x => ({ w with reserved := others.map fun r => (r.1, r.2.erase x) }, some x)
    | none => (w, none)

/-- Takes a tile of a walk slot for a crew: none when the slot is not configured or the walk is exhausted. -/
def State.nextTile (s : State) (c : Crew) (w : Nat) : State × Option Nat :=
  match c.partyId with
  | none => (s, none)
  | some p =>
    let pa := s.party p
    let wk := s.walkOf pa.launch w
    if !wk.configured then (s, none)
    else
      let (wk, t) := takeTile s (s.site c) c.tenant (pa.die, pa.core) wk
      (s.modWalk pa.launch w fun _ => wk, t)

/-- A crew takes a tile: inside an idempotent region it is noted for a discard (23 R369). -/
def Crew.takesTile (c : Crew) (w tile : Nat) : Crew :=
  { c with
    tile := { hold := true, walk := w, tile := tile, ic := 0 }
    idem := c.idem.map fun r => { r with took := r.took ++ [(w, tile)] } }

/-- TNEXT (26 R429). -/
def execTnext (f : FmtA) (s : State) : Host.Outcome State Fault Refusal :=
  withIssue s fun s iss =>
    let w := f.b.toNat
    let (s, t) := s.nextTile (s.crew iss.crew) w
    s.modCrew iss.crew fun c =>
      let c : Crew :=
        match t with
        | some x => (c.setSreg f.d.toNat (BitVec.ofNat 64 x)).takesTile w x
        | none => { c.setSreg f.d.toNat (BitVec.allOnes 64) with tile := { c.tile with hold := false } }
      (c.addPend [.uniform f.d.toNat]).advance iss.slices iss.len

/-- The lanes of REFILL in turn: the crew and its tile change, and the served lanes are listed (25 R407). -/
def serveLanes (k : Nat) (c : Crew) (d : VOp) : State → List Nat → State × List Nat
  | s, [] => (s, [])
  | s, l :: rest =>
    let h := (s.crew k).tile
    if !h.hold then (s, [])
    else
      let s : State :=
        if h.ic < 32 then s
        else
          match s.nextTile c h.walk with
          | (s, some x) => s.modCrew k fun r => r.takesTile h.walk x
          | (s, none) => s.modCrew k fun r => { r with tile := { h with hold := false } }
      let h := (s.crew k).tile
      if !h.hold then (s, [])
      else
        let s := s.modCrew k fun r =>
          { c.vput r d l (wordsOf (32 * h.tile + h.ic) 2) with tile := { h with ic := h.ic + 1 } }
        let (s, out) := serveLanes k c d s rest
        (s, l :: out)

/-- REFILL: the slices whose names fail trap, the others take items. -/
def execRefill (f : FmtA) (s : State) : Host.Outcome State Fault Refusal :=
  withIssue s fun s iss =>
    let k := iss.crew
    let c := s.crew k
    let d : VOp := { pos := 0, field := f.d.toNat, n := 2 }
    let good := iss.slices.filter fun i => (c.nameFault i [d]).isNone
    let lanes := (c.activeIn good).filter (mbit (c.pred f.a.toNat))
    let (s, served) := serveLanes k c d s lanes
    let s := s.modCrew k fun r =>
      let r := r.postAdvance (c.activeIn good) [d]
      let r := r.setPred f.b.toNat (slicesMask good) (maskOf 32 32 served.contains)
      (r.addPend [c.pendOf d]).advance good iss.len
    iss.slices.foldl (fun s i =>
      match c.nameFault i [d] with
      | some (code, info) => s.raise k i (iss.trap code info 0)
      | none => s) s

end Sys2Proof.Machine
end

