-- ==== Sys2Proof/Machine/Dispatch.lean ====
section
/-! DEFINITION. The one match from an instruction to its meaning. -/

namespace Sys2Proof.Machine

/-- Runs one instruction, or one of the device's own steps. -/
def exec (i : Instr) (s : State) : Host.Outcome State Fault Refusal :=
  match i with
  | .nop f => Sys2Proof.Machine.execNop f s
  | .exit f => Sys2Proof.Machine.execExit f s
  | .regang f => Sys2Proof.Machine.execRegang f s
  | .ret f => Sys2Proof.Machine.execRet f s
  | .trap imm => Sys2Proof.Machine.execTrap imm s
  | .brk imm => Sys2Proof.Machine.execBrk imm s
  | .idem f => Sys2Proof.Machine.execIdem f s
  | .idemend f => Sys2Proof.Machine.execIdemend f s
  | .syscall imm => Sys2Proof.Machine.execSyscall imm s
  | .eret f => Sys2Proof.Machine.execEret f s
  | .snap f => Sys2Proof.Machine.execSnap f s
  | .csrr f => Sys2Proof.Machine.execCsrr f s
  | .csrw f => Sys2Proof.Machine.execCsrw f s
  | .spawn f => Sys2Proof.Machine.execSpawn f s
  | .joinw f => Sys2Proof.Machine.execJoinw f s
  | .iadd f => Sys2Proof.Machine.execIadd f s
  | .isub f => Sys2Proof.Machine.execIsub f s
  | .imul f => Sys2Proof.Machine.execImul f s
  | .imulh f => Sys2Proof.Machine.execImulh f s
  | .imin f => Sys2Proof.Machine.execImin f s
  | .imax f => Sys2Proof.Machine.execImax f s
  | .iabs f => Sys2Proof.Machine.execIabs f s
  | .imad f => Sys2Proof.Machine.execImad f s
  | .lea f => Sys2Proof.Machine.execLea f s
  | .mov f => Sys2Proof.Machine.execMov f s
  | .sel f => Sys2Proof.Machine.execSel f s
  | .movk f => Sys2Proof.Machine.execMovk f s
  | .sread f => Sys2Proof.Machine.execSread f s
  | .swrite f => Sys2Proof.Machine.execSwrite f s
  | .popc f => Sys2Proof.Machine.execPopc f s
  | .clz f => Sys2Proof.Machine.execClz f s
  | .band f => Sys2Proof.Machine.execBand f s
  | .bor f => Sys2Proof.Machine.execBor f s
  | .bxor f => Sys2Proof.Machine.execBxor f s
  | .bandn f => Sys2Proof.Machine.execBandn f s
  | .shl f => Sys2Proof.Machine.execShl f s
  | .shr f => Sys2Proof.Machine.execShr f s
  | .sar f => Sys2Proof.Machine.execSar f s
  | .brev f => Sys2Proof.Machine.execBrev f s
  | .bfx f => Sys2Proof.Machine.execBfx f s
  | .bfi f => Sys2Proof.Machine.execBfi f s
  | .icmp cond f => Sys2Proof.Machine.execIcmp cond f s
  | .fcmp cond f => Sys2Proof.Machine.execFcmp cond f s
  | .fadd f => Sys2Proof.Machine.execFadd f s
  | .fmul f => Sys2Proof.Machine.execFmul f s
  | .ffma f => Sys2Proof.Machine.execFfma f s
  | .fmin f => Sys2Proof.Machine.execFmin f s
  | .fmax f => Sys2Proof.Machine.execFmax f s
  | .frnd f => Sys2Proof.Machine.execFrnd f s
  | .cvt f => Sys2Proof.Machine.execCvt f s
  | .frcp f => Sys2Proof.Machine.execFrcp f s
  | .frsq f => Sys2Proof.Machine.execFrsq f s
  | .fsqrt f => Sys2Proof.Machine.execFsqrt f s
  | .fexp2 f => Sys2Proof.Machine.execFexp2 f s
  | .flog2 f => Sys2Proof.Machine.execFlog2 f s
  | .fsinpi f => Sys2Proof.Machine.execFsinpi f s
  | .fcospi f => Sys2Proof.Machine.execFcospi f s
  | .qpack f => Sys2Proof.Machine.execQpack f s
  | .qunpk f => Sys2Proof.Machine.execQunpk f s
  | .shfl f => Sys2Proof.Machine.execShfl f s
  | .vote f => Sys2Proof.Machine.execVote f s
  | .matchEq f => Sys2Proof.Machine.execMatchEq f s
  | .redux f => Sys2Proof.Machine.execRedux f s
  | .scan f => Sys2Proof.Machine.execScan f s
  | .pand f => Sys2Proof.Machine.execPand f s
  | .por f => Sys2Proof.Machine.execPor f s
  | .pxor f => Sys2Proof.Machine.execPxor f s
  | .pandn f => Sys2Proof.Machine.execPandn f s
  | .pmov f => Sys2Proof.Machine.execPmov f s
  | .pcnt f => Sys2Proof.Machine.execPcnt f s
  | .win f => Sys2Proof.Machine.execWin f s
  | .xset f => Sys2Proof.Machine.execXset f s
  | .xld f => Sys2Proof.Machine.execXld f s
  | .xget f => Sys2Proof.Machine.execXget f s
  | .br cond f => Sys2Proof.Machine.execBr cond f s
  | .call f => Sys2Proof.Machine.execCall f s
  | .split f => Sys2Proof.Machine.execSplit f s
  | .lpool f => Sys2Proof.Machine.execLpool f s
  | .leave depth f => Sys2Proof.Machine.execLeave depth f s
  | .ldl f => Sys2Proof.Machine.execLdl f s
  | .ld f => Sys2Proof.Machine.execLd f s
  | .st f => Sys2Proof.Machine.execSt f s
  | .lds f => Sys2Proof.Machine.execLds f s
  | .sts f => Sys2Proof.Machine.execSts f s
  | .ldu f => Sys2Proof.Machine.execLdu f s
  | .stu f => Sys2Proof.Machine.execStu f s
  | .atom f => Sys2Proof.Machine.execAtom f s
  | .red f => Sys2Proof.Machine.execRed f s
  | .acas f => Sys2Proof.Machine.execAcas f s
  | .atoms f => Sys2Proof.Machine.execAtoms f s
  | .rwl f => Sys2Proof.Machine.execRwl f s
  | .fence f => Sys2Proof.Machine.execFence f s
  | .place f => Sys2Proof.Machine.execPlace f s
  | .peq f => Sys2Proof.Machine.execPeq f s
  | .pins f => Sys2Proof.Machine.execPins f s
  | .pinv f => Sys2Proof.Machine.execPinv f s
  | .vdie f => Sys2Proof.Machine.execVdie f s
  | .bar f => Sys2Proof.Machine.execBar f s
  | .barArrive f => Sys2Proof.Machine.execBarArrive f s
  | .barWait f => Sys2Proof.Machine.execBarWait f s
  | .barcfg f => Sys2Proof.Machine.execBarcfg f s
  | .gbar f => Sys2Proof.Machine.execGbar f s
  | .gbarArrive f => Sys2Proof.Machine.execGbarArrive f s
  | .gbarWait f => Sys2Proof.Machine.execGbarWait f s
  | .sigpost f => Sys2Proof.Machine.execSigpost f s
  | .sigpostRemote f => Sys2Proof.Machine.execSigpostRemote f s
  | .sigpostAddr f => Sys2Proof.Machine.execSigpostAddr f s
  | .sigwait f => Sys2Proof.Machine.execSigwait f s
  | .waitcnt f => Sys2Proof.Machine.execWaitcnt f s
  | .copy f => Sys2Proof.Machine.execCopy f s
  | .gather f => Sys2Proof.Machine.execGather f s
  | .scatter f => Sys2Proof.Machine.execScatter f s
  | .coll f => Sys2Proof.Machine.execColl f s
  | .mstore f => Sys2Proof.Machine.execMstore f s
  | .rload f => Sys2Proof.Machine.execRload f s
  | .putsig f => Sys2Proof.Machine.execPutsig f s
  | .mma f => Sys2Proof.Machine.execMma f s
  | .mmab f => Sys2Proof.Machine.execMmab f s
  | .accz f => Sys2Proof.Machine.execAccz f s
  | .accrd f => Sys2Proof.Machine.execAccrd f s
  | .accrdStat f => Sys2Proof.Machine.execAccrdStat f s
  | .accwr f => Sys2Proof.Machine.execAccwr f s
  | .accwrStat f => Sys2Proof.Machine.execAccwrStat f s
  | .accst f => Sys2Proof.Machine.execAccst f s
  | .twalk f => Sys2Proof.Machine.execTwalk f s
  | .tnext f => Sys2Proof.Machine.execTnext f s
  | .refill f => Sys2Proof.Machine.execRefill f s
  | .launch p => Sys2Proof.Machine.execLaunch p s
  | .nopPacket p => Sys2Proof.Machine.execNopPacket p s
  | .barrierAnd p => Sys2Proof.Machine.execBarrierAnd p s
  | .barrierAndComplete job => Sys2Proof.Machine.execBarrierAndComplete job s
  | .signalPacket p => Sys2Proof.Machine.execSignalPacket p s
  | .copyPacket p => Sys2Proof.Machine.execCopyPacket p s
  | .queueDoorbell tenant queue => Sys2Proof.Machine.execQueueDoorbell tenant queue s
  | .queuePoll tenant queue => Sys2Proof.Machine.execQueuePoll tenant queue s
  | .ccbgo tenant => Sys2Proof.Machine.execCcbgo tenant s
  | .qctlActivate tenant queue => Sys2Proof.Machine.execQctlActivate tenant queue s
  | .qctlDrain tenant queue => Sys2Proof.Machine.execQctlDrain tenant queue s
  | .qctlAbort tenant queue => Sys2Proof.Machine.execQctlAbort tenant queue s
  | .fqreplay tenant index => Sys2Proof.Machine.execFqreplay tenant index s
  | .fqreplayTrap tenant index => Sys2Proof.Machine.execFqreplayTrap tenant index s
  | .fqtailPoll tenant => Sys2Proof.Machine.execFqtailPoll tenant s
  | .hbreg value => Sys2Proof.Machine.execHbreg value s
  | .hbfence value => Sys2Proof.Machine.execHbfence value s
  | .heartbeatWrite => Sys2Proof.Machine.execHeartbeatWrite s
  | .hostFence => Sys2Proof.Machine.execHostFence s
  | .snaptrig value => Sys2Proof.Machine.execSnaptrig value s
  | .snapin => Sys2Proof.Machine.execSnapin s
  | .snapheld value => Sys2Proof.Machine.execSnapheld value s
  | .connWrite entry value => Sys2Proof.Machine.execConnWrite entry value s
  | .circuitDrainEnd entry => Sys2Proof.Machine.execCircuitDrainEnd entry s
  | .serviceRegisterWrite number value => Sys2Proof.Machine.execServiceRegisterWrite number value s
  | .hostRead pa size tag => Sys2Proof.Machine.execHostRead pa size tag s
  | .hostWrite pa data => Sys2Proof.Machine.execHostWrite pa data s
  | .hostAtomicop op pa size tag cmp operand => Sys2Proof.Machine.execHostAtomicop op pa size tag cmp operand s
  | .atsInvalidation lo hi tag => Sys2Proof.Machine.execAtsInvalidation lo hi tag s
  | .read page offset size src tag => Sys2Proof.Machine.execRead page offset size src tag s
  | .write page offset data src tag => Sys2Proof.Machine.execWrite page offset data src tag s
  | .atomic page offset fn op ty operands src tag => Sys2Proof.Machine.execAtomic page offset fn op ty operands src tag s
  | .mwrite group offset data src tag => Sys2Proof.Machine.execMwrite group offset data src tag s
  | .redread group offset size src tag => Sys2Proof.Machine.execRedread group offset size src tag s
  | .signal address value tenant src tag => Sys2Proof.Machine.execSignal address value tenant src tag s
  | .cdata group seq rank desc piece => Sys2Proof.Machine.execCdata group seq rank desc piece s
  | .fabricTimeout request => Sys2Proof.Machine.execFabricTimeout request s
  | .routeTimeout crew slice => Sys2Proof.Machine.execRouteTimeout crew slice s
  | .remapStart pfn goal => Sys2Proof.Machine.execRemapStart pfn goal s
  | .invalidation pfn cache => Sys2Proof.Machine.execInvalidation pfn cache s
  | .acknowledge pfn cache => Sys2Proof.Machine.execAcknowledge pfn cache s
  | .acknowledgeReceipt pfn cache inc => Sys2Proof.Machine.execAcknowledgeReceipt pfn cache inc s
  | .remapComplete pfn => Sys2Proof.Machine.execRemapComplete pfn s
  | .cut pfn die => Sys2Proof.Machine.execCut pfn die s
  | .requestResend pfn crew slice => Sys2Proof.Machine.execRequestResend pfn crew slice s
  | .drowsy die slice bank => Sys2Proof.Machine.execDrowsy die slice bank s
  | .promotion crew gang => Sys2Proof.Machine.execPromotion crew gang s
  | .memoryReply request data ok => Sys2Proof.Machine.execMemoryReply request data ok s
  | .pendingWriteComplete crew => Sys2Proof.Machine.execPendingWriteComplete crew s
  | .tilePost op => Sys2Proof.Machine.execTilePost op s
  | .engineRetire op => Sys2Proof.Machine.execEngineRetire op s
  | .engineFault op => Sys2Proof.Machine.execEngineFault op s
  | .passRetire crew => Sys2Proof.Machine.execPassRetire crew s
  | .collectiveRun group => Sys2Proof.Machine.execCollectiveRun group s
  | .partyPlace launch outing cores => Sys2Proof.Machine.execPartyPlace launch outing cores s
  | .partyRetire party => Sys2Proof.Machine.execPartyRetire party s
  | .preempt party => Sys2Proof.Machine.execPreempt party s
  | .partySave party => Sys2Proof.Machine.execPartySave party s
  | .preemptTimeout party => Sys2Proof.Machine.execPreemptTimeout party s
  | .partyRestore party cores => Sys2Proof.Machine.execPartyRestore party cores s
  | .dieHeartbeat die => Sys2Proof.Machine.execDieHeartbeat die s
  | .dieHeartbeatMissing die => Sys2Proof.Machine.execDieHeartbeatMissing die s
  | .dieFence die => Sys2Proof.Machine.execDieFence die s
  | .dieRestart die => Sys2Proof.Machine.execDieRestart die s
  | .dieCheckpoint die => Sys2Proof.Machine.execDieCheckpoint die s
  | .fundamentalReset => Sys2Proof.Machine.execFundamentalReset s
  | .hostLinkLoss => Sys2Proof.Machine.execHostLinkLoss s
  | .firmwareBoot => Sys2Proof.Machine.execFirmwareBoot s
  | .firmwareUpdate image => Sys2Proof.Machine.execFirmwareUpdate image s
  | .spdmMeasurement request => Sys2Proof.Machine.execSpdmMeasurement request s
  | .powerLimit die => Sys2Proof.Machine.execPowerLimit die s
  | .joinwReread crew slice => Sys2Proof.Machine.execJoinwReread crew slice s
  | .groupTableWrite number value => Sys2Proof.Machine.execGroupTableWrite number value s
  | .copyPacketComplete job => Sys2Proof.Machine.execCopyPacketComplete job s

end Sys2Proof.Machine
end

