-- ==== Sys2Proof/Machine/Events.lean ====
section
/-! DEFINITION. What the device does next by itself, if anything is due (spec 95; log 2, 4). Every source of such steps, and every
one of the things that a source looks at, takes its turn to be looked at first, so that none is held up for ever (02 R37). -/

namespace Sys2Proof.Machine

/-- A list from its `n`th member on, and then from its start. -/
def rotate {α : Type} (n : Nat) (l : List α) : List α := l.drop (n % l.length) ++ l.take (n % l.length)

/-- The first event of a list, looked at from the `n`th on. -/
def firstFrom {α : Type} (n : Nat) (l : List α) (f : α → Option Instr) : Option Instr := (rotate n l).findSome? f

/-- The same, past steps that wait already for a page or a route (08 R176; 11 R258). -/
def State.firstDue (s : State) {α : Type} (n : Nat) (l : List α) (f : α → Option Instr) : Option Instr :=
  firstFrom n l fun x => (f x).filter fun e => !s.waits e

/-! ### Remaps (08 R175 to R178) -/

/-- A message passes between the directory of a page and a cache: the cache's die is in service and a route joins them
(11 R258). -/
def State.passes (s : State) (pfn : Nat) (c : CacheId) : Bool :=
  (4 ≤ cacheDie c || (s.die (cacheDie c)).inService) && (s.hops (homeStack pfn) (cacheDie c)).isSome

/-- The next step of a page's remap or of the requests that wait for it. -/
def State.pageEvent (s : State) (pfn : Nat) (r : PageRec) : Option Instr :=
  match r.run with
  | some run =>
    match run.sent.find? (s.passes pfn), run.dropped.find? (s.passes pfn), run.acks with
    | some c, _, _ => some (.invalidation pfn c)
    | none, some c, _ => some (.acknowledge pfn c)
    | none, none, (c, i) :: _ => some (.acknowledgeReceipt pfn c i)
    | none, none, [] =>
      if run.wait.isEmpty then some (.remapComplete pfn) else ((List.range 4).find? (s.mayCut pfn)).map (.cut pfn)
  | none =>
    match s.nextReq pfn with
    | some q => if s.startable pfn q then some (.remapStart pfn none) else none
    | none => none

/-- A refused request is sent again where it will be taken; an agent makes its step anew. -/
def State.resendEvent (s : State) (pfn : Nat) (r : PageRec) : Option Instr :=
  match r.refused with
  | w :: _ =>
    if !r.moving || s.waitersIn pfn < 256 then
      some (match w with | .slice k i => .requestResend pfn k i | .agent e => e)
    else none
  | [] => none

/-- A step that waits for a route is made once there is one (11 R258; log 65). -/
def State.stalledEvent (s : State) (x : Nat × Instr) : Option Instr := if (s.hops 4 x.1).isSome then some x.2 else none

/-! ### The launch unit and fault service (08 R186; 12 R264 to R268) -/

/-- The end of a packet in progress. -/
def State.jobEvent (s : State) (j : Job) : Option Instr :=
  match j.kind with
  | .barrier => if (s.depsZero j.pkt).2 then some (.barrierAndComplete j.id) else none
  | .copy => some (.copyPacketComplete j.id)
  | .fenced | .grid _ => none

/-- The queues of every tenant, by tenant and number. -/
def State.allQueues (s : State) : List (Nat × Nat) := s.tenants.flatMap fun t => t.2.queues.map fun q => (t.1, q.1)

/-- The first record that waits can be appended, or dropped. -/
def State.recordDue (s : State) (t : Nat) (ten : Tenant) : Bool :=
  match ten.waiting with
  | r :: _ => ten.halted || !s.concerns r.target || !s.ringFull t
  | [] => false

/-! ### Engines and crews (02 R35; 06 R137; 10 R235, R236; 11 R245, R252, R258; 23 R370) -/

/-- The next step of an engine operation. -/
def State.engineEvent (s : State) (o : EngineOp) : Option Instr :=
  if s.collDue o then some (.collectiveRun o.group)
  else
    match s.opNext o with
    | .tile => some (.tilePost o.id)
    | .fault => some (.engineFault o.id)
    | .retire => some (.engineRetire o.id)
    | .nothing => none

/-- A JOINW that waits on host memory has not read its word for 10 µs. -/
def State.rereadDue (s : State) (sl : Slice) : Bool :=
  match sl.wait with
  | .join _ _ (some t) => t + 10 * Config.usec ≤ s.time
  | _ => false

/-- A crew's pending writes are done, or one of its accesses lands. -/
def State.crewEvent (s : State) (k : Nat) (c : Crew) : Option Instr :=
  if !c.pend.isEmpty || (s.landing k).isSome then some (.pendingWriteComplete k) else none

/-- What happens to a slice by itself. -/
def State.sliceEvent (s : State) (k i : Nat) (c : Crew) : Option Instr :=
  let sl := c.slice i
  if s.rereadDue sl then some (.joinwReread k i)
  else if s.routeDue c sl then some (.routeTimeout k i)
  else if 4096 ≤ sl.ready && !sl.promoted then some (.promotion k i)
  else none

/-- The slices of every crew. -/
def State.allSlices (s : State) : List (Nat × Nat × Crew) := s.crews.flatMap fun x => slices8.map fun i => (x.1, i, x.2)

/-! ### Parties (02 R30, R45 to R48, R54) -/

/-- Taking the seats that a plan gives has an effect now: their cores can drop what they hold, and the frames are clear or one of them
is still to be evicted. -/
def State.seatsAct (s : State) (x : Seating) : Bool :=
  let full := s.stillFull x.empty
  !(x.placed.any s.coreMoving)
    && (full.isEmpty || full.any fun f => !(s.stayers (sramAddr f.1 f.2.1 (f.2.2 * 4096))).isEmpty)

/-- The placement of the next parties of a launch. -/
def State.placeEvent (s : State) (l : Nat) (la : Launch) : Option Instr :=
  match s.coresFor l with
  | none => none
  | some cores =>
    match seatAll l cores (la.nextOuting * la.perOuting) { s := s } with
    | some x => if s.seatsAct x then some (.partyPlace l la.nextOuting cores) else none
    | none => none

/-- The restore of a saved party's group. -/
def State.restoreEvent (s : State) (p : Nat) : Option Instr :=
  match s.coresAgain p with
  | none => none
  | some cores =>
    match reseatAll ((s.savedGroup p).zip cores) { s := s } with
    | some x => if s.seatsAct x then some (.partyRestore p cores) else none
    | none => none

/-- What happens to a party by itself. -/
def State.partyEvent (s : State) (p : Nat) : Option Instr :=
  if s.retirable p then some (.partyRetire p)
  else if s.drained p then some (.partySave p)
  else if s.overdue p then some (.preemptTimeout p)
  else none

/-! ### Dies, circuits, banks and the host (01 R18; 11 R256; 12 R272 to R276) -/

/-- What happens to a compute die by itself. -/
def State.dieEvent (s : State) (d : Nat) : Option Instr :=
  if s.restartDue d then some (.dieRestart d)
  else if (s.die d).inService && (s.die d).ckpt && s.allSaved d then some (.dieCheckpoint d)
  else if (s.die d).inService && (s.die d).lastBeat + 100 * Config.usec ≤ s.time then some (.dieHeartbeat d)
  else none

/-- What the module owes the host: its heartbeat, or its fence. -/
def State.hostEvent (s : State) : Option Instr :=
  if s.heartbeatDue then some .heartbeatWrite
  else if 3 ≤ s.hbMissed && !s.hostFenced then some .hostFence
  else none

/-- The next bank that becomes drowsy, looked at from the `n`th on. -/
def State.bankEvent (s : State) (n : Nat) : Option Instr :=
  if s.clock < 65536 then none
  else
    firstFrom n (List.range 1536) fun b =>
      if s.drowsyDue (b / 384) (b / 24 % 16) (b % 24) then some (.drowsy (b / 384) (b / 24 % 16) (b % 24)) else none

/-! ### All of them -/

/-- The sources of steps, each looked at from its `n`th member on. -/
def eventSources : List (State → Nat → Option Instr) :=
  [ fun s n => firstFrom n s.pages fun x => s.pageEvent x.1 x.2,
    fun s n => firstFrom n s.pages fun x => s.resendEvent x.1 x.2,
    fun s n => firstFrom n s.stalled s.stalledEvent,
    fun s n => firstFrom n (List.range 4) s.dieEvent,
    fun s n => firstFrom n (List.range 32) fun e => if natBit (s.conn e) 30 then some (.circuitDrainEnd e) else none,
    fun s _ => s.hostEvent,
    State.bankEvent,
    fun s n => firstFrom n s.tenants fun t => if s.recordDue t.1 t.2 then some (.fqtailPoll t.1) else none,
    fun s n => s.firstDue n s.jobs fun j => if s.fencedDue j then some (packetEvent j.pkt) else none,
    fun s n => s.firstDue n s.jobs s.jobEvent,
    fun s n => s.firstDue n s.allQueues fun q => if s.queueDue q.1 q.2 then some (.queuePoll q.1 q.2) else none,
    fun s n => s.firstDue n s.ops s.engineEvent,
    fun s n => firstFrom n s.crews fun x => if x.2.cnt.matrix ≠ 0 then some (.passRetire x.1) else none,
    fun s n => firstFrom n s.crews fun x => s.crewEvent x.1 x.2,
    fun s n => firstFrom n s.allSlices fun x => s.sliceEvent x.1 x.2.1 x.2.2,
    fun s n => firstFrom n s.requests fun r => if s.fabricDue r then some (.fabricTimeout r.id) else none,
    fun s n => s.firstDue n s.parties fun x => s.partyEvent x.1,
    fun s n => firstFrom n s.parties fun x => s.restoreEvent x.1,
    fun s n => firstFrom n s.launches fun x => s.placeEvent x.1 x.2,
    fun s n => firstFrom n s.launches fun x => (s.victim x.1 x.2).map .preempt ]

/-- The step that the device takes by itself, if one is due now: one that a remap has held up goes first, in its place in the order of
arrival (08 R175); then the sources take turns to be asked first, and so do the members of each. An encoded instruction is no such
step: gangs alone run those. -/
def State.internalEvent (s : State) : Option Instr :=
  (s.replayEvent.orElse fun _ => (rotate s.rota eventSources).findSome? fun f => f s (s.rota / eventSources.length)).filter
    fun e => !e.encoded

end Sys2Proof.Machine
end

