-- ==== Sys2Proof/Machine/Step.lean ====
section
/-! DEFINITION. One step of the module: an input, an event of the device's own, or the instruction of one gang. -/

namespace Sys2Proof.Machine

/-- The step of one gang: the instruction that it waits inside goes on, or fetch, decode, and the meaning of the instruction. -/
def stepGang (s : State) (g : Cand) : Host.Outcome State Fault Refusal :=
  let s1 := s.begin g
  let sl := (s1.crew g.crew).slice g.lead
  match sl.inside with
  | some h =>
    let iss := s1.issueOf g sl.fetched
    match sl.fetched.instr with
    | none => .next (s1.illegal iss)
    | some i => mapNext (s1.afterGoOn · iss h) (exec i (s1.goOn iss h))
  | none =>
    match s1.fetch (s1.crew g.crew) sl.pc with
    | (s2, .bad va x) => .next (s2.fetchFault g va x)
    | (s2, .ok f) =>
      let iss := s2.issueOf g f
      match f.instr with
      | none => .next (s2.illegal iss)
      | some i => mapNext (s2.afterIssue · iss i) (exec i (s2.issueNow iss))

/-- A step that nothing else fills: time passes. -/
def stepIdle (s : State) : Host.Outcome State Fault Refusal := .next { s.idleCycle with turn := false }

/-- A step of the device's own, or what else is to be done. -/
def stepEvent (s : State) (other : Host.Outcome State Fault Refusal) : Host.Outcome State Fault Refusal :=
  match s.internalEvent with
  | some e => exec e { s.idleCycle.takeUp e with turn := false, rota := s.rota + 1 }
  | none => other

/-- One step: the inputs first, then events and gangs in turn (log 4). -/
def step (s : State) : Host.Outcome State Fault Refusal :=
  match s.inputs with
  | e :: rest => exec e { s with inputs := rest }
  | [] =>
    let gang (other : Host.Outcome State Fault Refusal) : Host.Outcome State Fault Refusal :=
      match s.chooseGang with
      | some g => stepGang s g
      | none => other
    if s.turn then stepEvent s (gang (stepIdle s)) else gang (stepEvent s (stepIdle s))

/-- The state with the instruction of an opcode-table word where the next step fetches (log 6). -/
def State.withFetchWord (s : State) (nbits w : Nat) : State := s.loadProgram (tableBytes nbits w)

end Sys2Proof.Machine
end

