-- ==== Sys2Proof/Safety.lean ====
section
/-! DEFINITION. What counts as a safe run, and the words in which statements about the machine are made: the gang that issues, the
constant that an instruction reads, what an instruction does to its crew, and what it leaves alone. -/

namespace Sys2Proof

/-- The step from a state gives a next state. -/
def Machine.StepsOn (s : Machine.State) : Prop := ∃ t, Machine.step s = .next t

/-- A state is safe for `n` steps when each of them gives a next state. -/
def Machine.SafeFor : Nat → Machine.State → Prop
  | 0, _ => True
  | n + 1, s => ∃ t, Machine.step s = .next t ∧ Machine.SafeFor n t

namespace Machine

/-! ### The gang that issues -/

/-- The state once the gang that issues has been taken from it: what an instruction starts from. -/
def State.taken (s : State) : State := { s with issue := none }

/-- The gang of `iss` issues now; its crew is `c`. -/
def State.Issues (s : State) (iss : Issue) (c : Crew) : Prop := s.issue = some iss ∧ aget s.crews iss.crew = some c

/-- The K = 1 constant of an instruction, if it has one, has been read: `s1` is the state after it, `kc` the constant. A table
constant and K = 0 read nothing; a pool constant is a word of the fetch path (14 R290, R291). -/
def State.ReadsConst (s : State) (iss : Issue) (k : BitVec 1) (b : BitVec 7) (s1 : State) (kc : Option Konst) : Prop :=
  (k = 0 ∧ s1 = s.taken ∧ kc = none)
    ∨ (k ≠ 0 ∧ (s.crew iss.crew).pool = false ∧ s1 = s.taken ∧ kc = some (.table (b.toNat % 64)))
    ∨ (k ≠ 0 ∧ (s.crew iss.crew).pool = true ∧ ∃ bs,
        s.taken.fetchRead (s.crew iss.crew) (((s.crew iss.crew).lpb.toNat + 4 * (b.toNat % 64)) % 2 ^ 64) 4 = .ok (s1, bs)
          ∧ kc = some (.pool (leNat bs)))

/-- Every register name of the operands lies in the window and the crew's registers, in every slice of the gang
(04 R78, R82). -/
def Crew.NamesOk (c : Crew) (iss : Issue) (ops : List VOp) : Prop := ∀ i ∈ iss.slices, c.nameFault i ops = none

/-- `i` gives a next state that differs from `s` in crew `k` alone, which is now `c'`: no other field and no byte of memory
changes. -/
def OnlyCrew (i : Instr) (s0 s : State) (k : Nat) (c' : Crew) : Prop :=
  ∃ t, exec i s0 = .next t ∧ t = s.setCrew k c' ∧ ∀ a, t.memRead a 1 = s.memRead a 1

/-! ### What an instruction does to its crew -/

/-- The slices of a list have moved past an instruction of `len` bytes and wait for nothing; every other slice is as it was. -/
def Crew.Moved (c c' : Crew) (is : List Nat) (len : Nat) : Prop :=
  ∀ i, c'.slice i =
    if i ∈ is ∧ i < c.slices.length then { c.slice i with pc := (c.slice i).pc + BitVec.ofNat 64 len, wait := .none }
    else c.slice i

/-- In each of `lanes` the destination holds the words of `val`, and no other register of any lane has changed. Where two names
of the destination fall on one register, through a ring of too few, the later name's word stands. -/
def Crew.VecWritten (c c' : Crew) (lanes : List Nat) (d : VOp) (val : Nat → List Word) : Prop :=
  (∀ l ∈ lanes, ∀ j, j < (val l).length → (∀ m, j < m → m < (val l).length → c.phys d l m ≠ c.phys d l j) →
      c'.vreg (c.phys d l j) l = (val l).getD j 0)
    ∧ ∀ r l, l < 32 → (l ∈ lanes → ∀ j, j < (val l).length → c.phys d l j ≠ r) → c'.vreg r l = c.vreg r l

/-- The offsets of the POST index registers that the operands name have advanced in each of `lanes`, and no other offset has
changed (04 R84). -/
def Crew.OffsetsMoved (c c' : Crew) (lanes : List Nat) (ops : List VOp) : Prop :=
  ∀ x l, x < 8 → l < 32 → c'.ofs x l =
    if l ∈ lanes ∧ ops.any (fun o => o.index == some x) ∧ xPost (c.xreg x) then nextOfs (c.xreg x) (c.ofs x l) % 512
    else c.ofs x l

/-- Nothing of the crew has changed but its vector registers, the offsets of its index registers, FLAGS and its slices. -/
def Crew.SameButVec (c c' : Crew) : Prop :=
  { c' with vregs := c.vregs, xofs := c.xofs, flags := c.flags, slices := c.slices } = c

/-- Nothing of the crew has changed but its predicates, exec, the offsets of its index registers, FLAGS and its slices. -/
def Crew.SameButPred (c c' : Crew) : Prop :=
  { c' with preds := c.preds, exec := c.exec, xofs := c.xofs, flags := c.flags, slices := c.slices } = c

/-- Nothing of the crew has changed but its uniform registers, FLAGS and its slices. -/
def Crew.SameButUni (c c' : Crew) : Prop := { c' with sregs := c.sregs, flags := c.flags, slices := c.slices } = c

/-- The flags that the lanes of a gang raise together. -/
def raised (lanes : List Nat) (fl : Nat → BitVec 5) : BitVec 5 := lanes.foldl (fun f l => f ||| fl l) 0

/-- `i` completes for the gang of `iss` with a vector destination: each active lane of the gang gets the words of `val` in `d`, the
flags `fl` of those lanes join FLAGS, the POST index registers advance, the gang moves on, and nothing else changes. -/
def ComputesVec (i : Instr) (s s1 : State) (iss : Issue) (c : Crew) (d : VOp) (ops : List VOp) (val : Nat → List Word)
    (fl : Nat → BitVec 5) : Prop :=
  ∃ c', OnlyCrew i s s1 iss.crew c' ∧ c.VecWritten c' (c.activeIn iss.slices) d val
    ∧ c'.flags = c.flags ||| raised (c.activeIn iss.slices) fl
    ∧ c.OffsetsMoved c' (c.activeIn iss.slices) ops ∧ c.Moved c' iss.slices iss.len ∧ c.SameButVec c'

/-- A lane of a slice raises an enabled flag (05 R115). -/
def Crew.flagged (c : Crew) (fl : Nat → BitVec 5) (j : Nat) : Bool := (c.activeOf j).any fun l => fl l &&& c.ten != 0

/-- TRAPINFO of an FPE trap of a slice: every flag that its lanes raise, and the mask of the lanes that raise an enabled one
(05 R115). -/
def Crew.fpeInfo (c : Crew) (fl : Nat → BitVec 5) (j : Nat) : Nat :=
  (raised (c.activeOf j) fl).toNat
    + (maskOf 32 32 fun l => decide (l ∈ c.activeOf j) && fl l &&& c.ten != 0).toNat * 2 ^ 5

/-- The slices of the gang in which a lane raises an enabled flag take FPE, in increasing order. -/
def State.raiseFlagged (s : State) (iss : Issue) (c : Crew) (fl : Nat → BitVec 5) : State :=
  (iss.slices.filter (c.flagged fl)).foldl (fun t j => t.raise iss.crew j (iss.trap 0x12 (c.fpeInfo fl j) 0)) s

/-- The slices of the gang in which no lane raises an enabled flag. -/
def Crew.quiet (c : Crew) (iss : Issue) (fl : Nat → BitVec 5) : List Nat := iss.slices.filter fun j => !c.flagged fl j

/-- `i`, with a vector destination, completes in the slices of the gang that raise no enabled flag, as `ComputesVec` says of a whole
gang, and then the others trap, nothing of theirs written. -/
def TrapsVec (i : Instr) (s s1 : State) (iss : Issue) (c : Crew) (d : VOp) (ops : List VOp) (val : Nat → List Word)
    (fl : Nat → BitVec 5) : Prop :=
  ∃ c', exec i s = .next ((s1.setCrew iss.crew c').raiseFlagged iss c fl)
    ∧ c.VecWritten c' (c.activeIn (c.quiet iss fl)) d val ∧ c'.flags = c.flags ||| raised (c.activeIn (c.quiet iss fl)) fl
    ∧ c.OffsetsMoved c' (c.activeIn (c.quiet iss fl)) ops ∧ c.Moved c' (c.quiet iss fl) iss.len ∧ c.SameButVec c'

/-- `i` completes once for the gang of `iss` with the uniform destination `d`: it gets `v`, the flags `fl` join FLAGS, the gang
moves on, and nothing else changes. -/
def ComputesUni (i : Instr) (s s1 : State) (iss : Issue) (c : Crew) (d : Nat) (v : DWord) (fl : BitVec 5) : Prop :=
  ∃ c', OnlyCrew i s s1 iss.crew c' ∧ c'.sreg d = v ∧ (∀ q, q ≠ d → c'.sreg q = c.sreg q) ∧ c'.flags = c.flags ||| fl
    ∧ c.Moved c' iss.slices iss.len ∧ c.SameButUni c'

/-- `i` completes with a destination predicate: in every lane of the gang's slices the bit is set exactly where the lane is active
and `bit` holds, with exec kept inside the live lanes that are not switched off; no other predicate bit changes. -/
def ComputesPred (i : Instr) (s s1 : State) (iss : Issue) (c : Crew) (d : Nat) (ops : List VOp) (bit : Nat → Bool)
    (fl : BitVec 5) : Prop :=
  ∃ c', OnlyCrew i s s1 iss.crew c'
    ∧ (∀ l, l < 32 → l / 4 ∈ iss.slices → mbit (c'.pred d) l =
        (c.active l && bit l && (d != 16 || (mbit c.live l && !mbit c.off l))))
    ∧ (∀ l, l < 32 → l / 4 ∉ iss.slices → (d = 16 → mbit c.live l = true ∧ mbit c.off l = false) →
        mbit (c'.pred d) l = mbit (c.pred d) l)
    ∧ (∀ q, q ≤ 16 → q ≠ d → c'.pred q = c.pred q)
    ∧ c'.flags = c.flags ||| fl
    ∧ c.OffsetsMoved c' (c.activeIn iss.slices) ops ∧ c.Moved c' iss.slices iss.len ∧ c.SameButPred c'

/-- The same for a destination predicate: `ComputesPred` in the slices that raise no enabled flag, and a trap in the others. -/
def TrapsPred (i : Instr) (s s1 : State) (iss : Issue) (c : Crew) (d : Nat) (ops : List VOp) (bit : Nat → Bool)
    (fl : Nat → BitVec 5) : Prop :=
  ∃ c', exec i s = .next ((s1.setCrew iss.crew c').raiseFlagged iss c fl)
    ∧ (∀ l, l < 32 → l / 4 ∈ c.quiet iss fl → mbit (c'.pred d) l =
        (c.active l && bit l && (d != 16 || (mbit c.live l && !mbit c.off l))))
    ∧ (∀ l, l < 32 → l / 4 ∉ c.quiet iss fl → (d = 16 → mbit c.live l = true ∧ mbit c.off l = false) →
        mbit (c'.pred d) l = mbit (c.pred d) l)
    ∧ (∀ q, q ≤ 16 → q ≠ d → c'.pred q = c.pred q)
    ∧ c'.flags = c.flags ||| raised (c.activeIn (c.quiet iss fl)) fl
    ∧ c.OffsetsMoved c' (c.activeIn (c.quiet iss fl)) ops ∧ c.Moved c' (c.quiet iss fl) iss.len ∧ c.SameButPred c'

/-- The crews are listed by rising numbers, each once. -/
def State.Ordered (s : State) : Prop := (s.crews.map (·.1)).Pairwise (· < ·)

/-! ### Memory instructions (07 R149, R150; 21 R326) -/

/-- The byte of memory at which a plain access of a site finds a location: the replica of its core, else the page's master; none
where the location lies outside the module's memory. -/
def State.cellOf (s : State) (site : CacheId) : Tgt → Option Nat
  | .scratch a _ | .dram a | .host a _ => some a
  | .paged pfn _ off _ =>
    some (match (s.page pfn).replicaAt site with
      | some x => x.addr off
      | none => masterAddr pfn (s.page pfn).held off)
  | .violation | .fabric _ _ _ | .mmio _ => none

/-- Byte `a` belongs to the sector of a frame that an access of a site to `tgt` fills first, because it is absent (07 R154). -/
def State.Fills (s : State) (site : CacheId) (tgt : Tgt) (a : Nat) : Prop :=
  ∃ pfn p off l, tgt = .paged pfn p off l
    ∧ ((∃ m, (s.page pfn).held.frameAddr (off / 256 * 256) = some m ∧ mbit (s.page pfn).held.sect (off / 256) = false
          ∧ m ≤ a ∧ a < m + 256)
      ∨ ∃ x, (s.page pfn).replicaAt site = some x ∧ mbit x.present (off / 256) = false
          ∧ x.addr (off / 256 * 256) ≤ a ∧ a < x.addr (off / 256 * 256) + 256)

/-- Slice `i` passes the checks of a memory access of `n` bytes to `addr` in each active lane: its vector names, the alignment
and the translation, whose target `tg` can be reached, at its master where `atMaster` holds. -/
def Crew.Reaches (c : Crew) (s : State) (i : Nat) (ops : List VOp) (n : Nat) (addr : Nat → Nat) (xl : Nat → Xlat)
    (tg : Nat → Tgt) (atMaster : Bool) : Prop :=
  c.nameFault i ops = none
    ∧ ∀ l ∈ c.activeOf i, addr l % n = 0 ∧ xl (addr l) = .ok (tg l) ∧ s.stuck (s.site c) (tg l) atMaster = false

/-- The accesses of a slice's active lanes, in increasing lane order. -/
def Crew.laneTgts (c : Crew) (i : Nat) (addr : Nat → Nat) (tg : Nat → Tgt) : List LaneTgt :=
  (c.activeOf i).map fun l => { lane := l, addr := addr l, tgt := tg l }

/-- A memory instruction has been committed in some slices: the lanes that violate are switched off, index registers with POST
advance, the slices move on, and nothing else of the crew changes but its vector registers, ATLOC and the scoreboard. -/
def Crew.Committed (c c' : Crew) (iss : Issue) (is : List Nat) (ops : List VOp) (bad : Nat → Bool) : Prop :=
  (∀ l, l < 32 → mbit c'.off l = (mbit c.off l || (decide (l ∈ c.activeIn is) && bad l)))
    ∧ (∀ l, l < 32 → mbit c'.exec l = (mbit c.exec l && !(decide (l / 4 ∈ is) && bad l)))
    ∧ c.OffsetsMoved c' (c.activeIn is) ops ∧ c.Moved c' is iss.len
    ∧ { c' with vregs := c.vregs, xofs := c.xofs, off := c.off, exec := c.exec, atloc := c.atloc, pend := c.pend
                slices := c.slices } = c

/-- Every earlier access of some lanes of a crew has been performed: none of its requests awaits a response (09 R204). -/
def State.Performed (s : State) (k : Nat) (lanes : BitVec 32) : Prop :=
  ∀ r ∈ s.requests, r.crew = k → r.op = none → r.waits = true → r.mask &&& lanes = 0

/-- A release by some lanes of the crew waits for nothing: it is none at outing scope or wider, or the lanes' earlier accesses have
been performed and, at system scope, none of their writes was lost (09 R204; 25 R425). -/
def State.MayRelease (s : State) (iss : Issue) (c : Crew) (p : Prefix) (lanes : BitVec 32) : Prop :=
  (isWide p && isRelease p) = false
    ∨ (s.Performed iss.crew lanes ∧ (sysRelease p = true → ∀ x ∈ c.lost, mbit lanes x.1 = false))

/-- An acquire at some locations waits for nothing: it is none at outing scope or wider, or what it drops meets no MOVING page and
every die that a record names has a route (07 R445; 11 R258). -/
def State.MayAcquire (s : State) (c : Crew) (p : Prefix) (tgts : List Tgt) : Prop :=
  (isWide p && isAcquire p) = false
    ∨ ∀ t ∈ tgts, t.remote = false →
        s.dropMoving (s.site c) c.tenant (s.acquired t) = none ∧ ∀ g, t.granule = some g → s.awayRec g = none

/-- The addresses of the page-table entries that a translation passes: those of a walk, or the leaf behind a cached entry. -/
def State.walkEntries (s : State) (site : CacheId) (t va : Nat) : List Nat :=
  match s.find site t va with
  | .absent | .bad => []
  | .hit e => [e.leaf.leafPa]
  | .filled l _ path => path ++ [l.leafPa]

/-- The byte at `a` is one of a page-table entry that the translation of a lane's access marks, or of a table that is not at its
home: the only bytes that the translation may change (07 R155). -/
def State.Marks (s : State) (c : Crew) (x : LaneTgt) (a : Nat) : Prop :=
  ∃ pa ∈ s.walkEntries (s.site c) c.tenant x.addr,
    a = pa ∨ ∃ o, ((s.page (pa / 4096)).held.frameAddr o).isSome = true

/-- One slice of a gang runs the gang's instruction alone: the state after it (03 R72). -/
def State.aloneStep (i : Instr) (iss : Issue) (s : State) (j : Nat) : State :=
  match exec i { s with issue := some { iss with mask := BitVec.ofNat 8 (2 ^ j) } } with
  | .next t => t
  | .fault _ | .refused _ => s

/-- A gang of any number of slices runs the instruction slice by slice, in increasing order: each as it would alone, in the state that
those before it have left, with its own commit, trap or wait (03 R72). -/
def SliceBySlice (i : Instr) : Prop :=
  ∀ (s : State) (iss : Issue), s.issue = some iss →
    exec i s = .next (iss.slices.foldl (State.aloneStep i iss) { s with issue := none })

/-- Accesses one after another: each stands in the relation `rel` to the state before it and the state after it. -/
def Steps (rel : State → LaneTgt → State → Prop) : List LaneTgt → State → State → Prop
  | [], s, t => s = t
  | x :: l, s, t => ∃ u, rel s x u ∧ Steps rel l u t

/-! ### Instructions that compute (14 R288; 05 R99) -/

/-- The destination of a vector form. -/
def destOp (f : FmtA) (t : Ty) : VOp := { pos := 0, field := f.d.toNat, n := t.regs }

/-- Source A of a format A word that has one. -/
def sourceA (f : FmtA) (use : Bool) (t : Ty) : Src := if use then srcOf (aVec f.cl) 1 f.a t.regs else .zero

/-- Source B of a format A word that has one: a constant with K = 1. -/
def sourceB (f : FmtA) (use : Bool) (t : Ty) (kc : Option Konst) : Src :=
  if use then srcOf (bVec f.cl) 2 f.b t.regs kc else .zero

/-- The third source, of the kind of D: its field and its operand position. -/
def sourceC (f : FmtA) (third : Option (BitVec 7 × Nat)) (t : Ty) : Src :=
  match third with
  | some (fl, pos) => srcOf (dVec f.cl) pos fl t.regs
  | none => .zero

/-- In every form, class and source of constants, `mk f` gives each active lane of the gang (in the uniform form, the gang once) a
result that stands in the relation `rel` to the sources, where no enabled flag is raised. -/
def Computes (mk : FmtA → Instr) (td ts : FmtA → Ty) (useA useB : Bool) (third : FmtA → Option (BitVec 7 × Nat))
    (rel : FmtA → Nat → Nat → Nat → FRes → Prop) : Prop :=
  ∀ (f : FmtA) (s s1 : State) (iss : Issue) (c : Crew) (kc : Option Konst),
    s.issue = some iss → s.ReadsConst iss f.k f.b s1 kc → aget s1.crews iss.crew = some c →
    (f.cl ≠ 3 →
      c.NamesOk iss ([destOp f (td f)] ++ vopsOf [sourceA f useA (ts f), sourceB f useB (ts f) kc, sourceC f (third f) (ts f)]) →
      ∃ res : Nat → FRes,
        (∀ l, rel f ((sourceA f useA (ts f)).read c (ts f) l) ((sourceB f useB (ts f) kc).read c (ts f) l)
          ((sourceC f (third f) (ts f)).read c (ts f) l) (res l))
        ∧ ((∀ l ∈ c.activeIn iss.slices, (res l).fl &&& c.ten = 0) →
            ComputesVec (mk f) s s1 iss c (destOp f (td f))
              ([destOp f (td f)] ++ vopsOf [sourceA f useA (ts f), sourceB f useB (ts f) kc, sourceC f (third f) (ts f)])
              (fun l => wordsOf (res l).code (td f).regs) fun l => (res l).fl))
    ∧ (f.cl = 3 →
      ∃ res : FRes,
        rel f ((sourceA f useA (ts f)).read c (ts f) 0) ((sourceB f useB (ts f) kc).read c (ts f) 0)
          ((sourceC f (third f) (ts f)).read c (ts f) 0) res
        ∧ (res.fl &&& c.ten = 0 →
            ComputesUni (mk f) s s1 iss c f.d.toNat (BitVec.ofNat 64 (res.code % 2 ^ (td f).width)) res.fl))

/-- In every form, `mk f` puts the truth of a comparison into the predicate D: `truth` gives it, with the flags, from the sources. -/
def Compares (mk : FmtA → Instr) (t : FmtA → Ty) (truth : FmtA → Nat → Nat → Bool × BitVec 5) : Prop :=
  ∀ (f : FmtA) (s s1 : State) (iss : Issue) (c : Crew) (kc : Option Konst),
    s.issue = some iss → s.ReadsConst iss f.k f.b s1 kc → aget s1.crews iss.crew = some c → f.d ≤ 16 →
    let a (l : Nat) : Nat := (sourceA f true (t f)).read c (t f) l
    let b (l : Nat) : Nat := (sourceB f true (t f) kc).read c (t f) l
    let ops := vopsOf [sourceA f true (t f), sourceB f true (t f) kc]
    (f.cl ≠ 3 → c.NamesOk iss ops → (∀ l ∈ c.activeIn iss.slices, (truth f (a l) (b l)).2 &&& c.ten = 0) →
      ComputesPred (mk f) s s1 iss c f.d.toNat ops (fun l => (truth f (a l) (b l)).1)
        (raised (c.activeIn iss.slices) fun l => (truth f (a l) (b l)).2))
    ∧ (f.cl = 3 → (truth f (a 0) (b 0)).2 &&& c.ten = 0 →
      ComputesPred (mk f) s s1 iss c f.d.toNat [] (fun _ => (truth f (a 0) (b 0)).1) (truth f (a 0) (b 0)).2)

/-- `mk f` gives each active lane a result of one F32 operand that stands in the relation `rel` to its value, where no enabled flag
is raised; the next 32 free values have been set aside (22 R358; log 11). -/
def ComputesFsp (mk : FmtA → Instr) (rel : FmtA → FVal → FRes → Prop) : Prop :=
  ∀ (f : FmtA) (s : State) (iss : Issue) (c : Crew),
    s.issue = some iss → aget s.crews iss.crew = some c →
    let d : VOp := { pos := 0, field := f.d.toNat, n := 1 }
    let a : VOp := { pos := 1, field := f.a.toNat, n := 1 }
    c.NamesOk iss [d, a] →
    ∃ res : Nat → FRes, (∀ l, rel f (Fmt.f32.value (flipIf .f32 f.p.na (c.vnat a l))) (res l))
      ∧ ((∀ l ∈ c.activeIn iss.slices, (res l).fl &&& c.ten = 0) →
          ComputesVec (mk f) s { s.taken with free := s.free + 32 } iss c d [d, a] (fun l => wordsOf (res l).code 1)
            fun l => (res l).fl)

/-! ### Values as real numbers (05 R100, R105 to R109, R113) -/

/-- The real number that a dyadic value stands for. -/
noncomputable def Dy.real (d : Dy) : ℝ := (if d.neg then -1 else 1) * d.m * 2 ^ d.e

/-- `n` units of 2^q are what the mode rounds `x` to; on a tie RN takes the even multiple (05 R105). -/
def Rnd.Multiple (mode : Rnd) (q : ℤ) (x : ℝ) (n : ℤ) : Prop :=
  let y : ℝ := n * 2 ^ q
  match mode with
  | .rn => |x - y| ≤ 2 ^ q / 2 ∧ (|x - y| = 2 ^ q / 2 → Even n)
  | .rz => |y| ≤ |x| ∧ |x| < |y| + 2 ^ q ∧ 0 ≤ x * y
  | .ru => x ≤ y ∧ y < x + 2 ^ q
  | .rd => y ≤ x ∧ x < y + 2 ^ q

/-- The largest finite value of a format. -/
noncomputable def Fmt.top (f : Fmt) : ℝ :=
  match f.value f.maxCode with
  | .fin d => d.real
  | .nan | .inf _ => 0

/-- `r` is the real `x`, not zero, rounded once into the format (05 R105, R106, R108, R113). Let `y` be `x` rounded at the format's
precision, which ends at the last place of its subnormals. Within the range the code stands for `y` with the sign of `x`, NX says
that it differs from `x`, and UF that moreover `x` rounded as though the exponent were unbounded lies below the smallest normal.
Beyond the range the code is the infinity, the canonical NaN or the largest finite value by R108, with OF and NX. -/
def Fmt.Rounded (f : Fmt) (mode : Rnd) (sat : Bool) (x : ℝ) (r : FRes) : Prop :=
  ∃ u n k : ℤ,
    let least : ℤ := 1 - f.bias - f.mw
    let y : ℝ := n * 2 ^ max u least
    let away : Prop := mode = .rn ∨ (mode = .ru ∧ 0 < x) ∨ (mode = .rd ∧ x < 0)
    (2 ^ (u + f.mw) ≤ |x| ∧ |x| < 2 ^ (u + f.mw + 1)) ∧ mode.Multiple (max u least) x n ∧ mode.Multiple u x k
      ∧ r.code < 2 * f.signBit
      ∧ (|y| ≤ f.top →
          (∃ d, f.value r.code = .fin d ∧ d.real = y ∧ (d.neg = true ↔ x < 0))
          ∧ (y = x → r.fl = 0)
          ∧ (y ≠ x → |(k : ℝ) * 2 ^ u| < 2 ^ (least + f.mw) → r.fl = flUF ||| flNX)
          ∧ (y ≠ x → 2 ^ (least + f.mw) ≤ |(k : ℝ) * 2 ^ u| → r.fl = flNX))
      ∧ (f.top < |y| →
          r.fl = flOF ||| flNX
          ∧ (sat = false → away → f.hasInf = true → ∃ neg, f.value r.code = .inf neg ∧ (neg = true ↔ x < 0))
          ∧ (sat = false → away → f.hasInf = false → f.hasNan = true → r.code = f.canon)
          ∧ (sat = true ∨ ¬away ∨ (f.hasInf = false ∧ f.hasNan = false) →
              ∃ d, f.value r.code = .fin d ∧ |d.real| = f.top ∧ (d.neg = true ↔ x < 0)))

/-- The seven floating formats (05 R98). -/
def allFmts : List Fmt := [.f64, .f32, .f16, .bf16, .e5m2, .e4m3, .e2m1]

/-- The pattern `r` holds the exact integer `e` at the type `t`: clamped into the type's range under SAT, else modulo 2^w
(23 R367). -/
def Ty.Pattern (t : Ty) (sat : Bool) (e : Int) (r : Nat) : Prop :=
  r < 2 ^ t.width
    ∧ if sat then t.intVal r = max t.range.1 (min t.range.2 e) else ∃ q : Int, (r : Int) = e + q * (2 ^ t.width : Nat)

end Machine

end Sys2Proof
end

