-- ==== Sys2Proof/WellFormed.lean ====
section
/-! DEFINITION. Well-formed instructions: those that the decoder can give (14 R302). The checks themselves are
`Instr.legal` in Decode.lean; an instruction that fails them is the one whose words trap ILLEGAL. -/

namespace Sys2Proof

/-- The instruction's fields hold values that R302 lets through. -/
abbrev Instr.WellFormed (i : Instr) : Prop := i.legal = true

end Sys2Proof
end

