-- ==== Sys2Proof/Certificates/Slice0/Obligations.lean ====
section
/-! DEFINITION. The statements about the machine that are to be proved: encodings, the step, each family of instructions and each
kind of step of the device, reset and the invariant of memory. -/

open Sys2Proof Sys2Proof.Machine

/-- With no input waiting and no event of the device due, where a gang is chosen that does not wait inside an instruction:
if the four bytes at its PC hold a word that is no prefix and decodes to i, step is exec of i at the state after the fetch,
with the gang, the PC, the word and length 4 named as what issues; if they hold a prefix, the next four are fetched too and
the pair of length 8 runs. A gang that waits inside an instruction fetches nothing: step is exec of the instruction whose
words its slices have noted. What step adds before is the advance of the clock by one and of the time by the length of a
cycle, the CLOCK base of an IDLE die, whose gated clock stands still, the turn, each slice's count of cycles ready, and for
a gang that issues the port's round-robin place; naming the gang notes the words at its slices and that its crew has
started. What step adds after is a note at the slices that wait inside the instruction: what it has read of the crew's
shared registers at its issue, and its pending writes (R85, R87, R89). An instruction with which a gang goes on sees those
registers, and the crew's own are then as they stood but for the uniform registers that it has written. Nothing else
changes. (Which gang is chosen and that one issues in a step is the model's choice, log 2 and 4; the length of a lowered
cycle is log 52; when a crew counts as started, log 66.) -/
def Obligations.StepRunsTheDecodedInstruction : Prop :=
  (∀ (s : State) (g : Cand), s.inputs = [] → (s.turn = true → s.internalEvent = none) → s.chooseGang = some g →
    let s1 := s.begin g
    let c := s1.crew g.crew
    let sl := c.slice g.lead
    let pc := sl.pc
    (∀ (s2 : State) (bs : List Byte) (i : Instr) (rest : List Word), sl.inside = none →
      s1.fetchRead c pc.toNat 4 = .ok (s2, bs) →
      let w : Word := BitVec.ofNat 32 (leNat bs)
      let iss := { s2.issueOf g { word := w, pfx := none, len := 4 } with pc := pc }
      isPrefix w = false → decodeWords [w] = .ok (i, rest) →
      step s = mapNext (fun t => s2.afterIssue t iss i) (exec i (s2.issueNow iss)))
    ∧ (∀ (s2 s3 : State) (bs bs' : List Byte) (i : Instr) (rest : List Word), sl.inside = none →
      s1.fetchRead c pc.toNat 4 = .ok (s2, bs) →
      let p : Word := BitVec.ofNat 32 (leNat bs)
      isPrefix p = true → s2.fetchRead c (pc + 4).toNat 4 = .ok (s3, bs') →
      let w : Word := BitVec.ofNat 32 (leNat bs')
      let iss := { s3.issueOf g { word := w, pfx := some p, len := 8 } with pc := pc }
      decodeWords [p, w] = .ok (i, rest) →
      step s = mapNext (fun t => s3.afterIssue t iss i) (exec i (s3.issueNow iss)))
    ∧ ∀ (h : Held) (i : Instr) (rest : List Word), sl.inside = some h →
      let ws : List Word := if sl.pfx = 0 then [sl.word] else [sl.pfx, sl.word]
      let iss := s1.issueOf g sl.fetched
      decodeWords ws = .ok (i, rest) → step s = mapNext (fun t => s1.afterGoOn t iss h) (exec i (s1.goOn iss h)))
    ∧ (∀ (s : State) (iss : Issue),
      let t := s.issueNow iss
      let bare (l : List (Nat × Crew)) : List (Nat × Crew) := l.map fun kc =>
        (kc.1, { kc.2 with started := true, slices := kc.2.slices.map fun sl => { sl with word := 0, pfx := 0, group := none } })
      t.issue = some iss ∧ bare t.crews = bare s.crews ∧ { t with issue := s.issue, crews := s.crews } = s)
    ∧ (∀ (s : State) (g : Cand),
      let t := s.begin g
      let bare (l : List (Nat × Crew)) : List (Nat × Crew) := l.map fun kc =>
        (kc.1, { kc.2 with slices := kc.2.slices.map fun sl => { sl with ready := 0, promoted := false } })
      t.clock = s.clock + 1 ∧ t.time = s.time + s.tick ∧ t.turn = true ∧ t.mem = s.mem ∧ bare t.crews = bare s.crews
        ∧ (∀ d, d < s.dies.length → t.die d =
            if s.power d = some .idle then { s.die d with clockBase := (s.die d).clockBase + 1 } else s.die d)
        ∧ (g.first.isSome = true → t.portTurn = s.portTurn ∧ t.lastIssued = s.lastIssued)
        ∧ { t with clock := s.clock, time := s.time, dies := s.dies, turn := s.turn, portTurn := s.portTurn, lastIssued := s.lastIssued
                   crews := s.crews } = s)
    ∧ (∀ (s t : State) (iss : Issue) (i : Instr) (x : Crew), aget t.crews iss.crew = some x → s.poolFails (s.crew iss.crew) i = false →
      let u := s.afterIssue t iss i
      let c := s.crew iss.crew
      let bare (l : List (Nat × Crew)) : List (Nat × Crew) := l.map fun kc =>
        (kc.1, { kc.2 with slices := kc.2.slices.map fun sl => { sl with held := none, entries := 0 } })
      bare u.crews = bare t.crews ∧ { u with crews := t.crews } = t
        ∧ ∀ j ∈ iss.slices, j < x.slices.length → (x.slice j).within = true → (x.slice j).pc = iss.pc →
            ∃ h, ((u.crew iss.crew).slice j).held = some h ∧ h.win = c.win ∧ h.xuni = c.xuni ∧ h.sregs = c.sregs ∧ h.lpb = c.lpb
              ∧ ∀ p ∈ (placesOf i c).writes, p ∈ h.pend)
    ∧ (∀ (s : State) (iss : Issue) (h : Held) (c : Crew), aget s.crews iss.crew = some c →
      let t := s.goOn iss h
      t.issue = some iss ∧ t.crew iss.crew = { c with win := h.win, xuni := h.xuni, sregs := h.sregs, lpb := h.lpb }
        ∧ (∀ k, k ≠ iss.crew → aget t.crews k = aget s.crews k) ∧ { t with issue := s.issue, crews := s.crews } = s)
    ∧ ∀ (s t : State) (iss : Issue) (h : Held) (x : Crew), aget t.crews iss.crew = some x →
      let u := s.afterGoOn t iss h
      let c := s.crew iss.crew
      let y := u.crew iss.crew
      y.win = c.win ∧ y.xuni = c.xuni ∧ y.lpb = c.lpb
        ∧ (∀ r, r < 128 → y.sreg r = if x.sreg r = sget h.sregs r then c.sreg r else x.sreg r)
        ∧ { y with win := x.win, xuni := x.xuni, lpb := x.lpb, sregs := x.sregs, slices := x.slices } = x
        ∧ (∀ k, k ≠ iss.crew → aget u.crews k = aget t.crews k) ∧ { u with crews := t.crews } = t

/-- From every state, reached or not, whose next input is not an encoded instruction (an input never is one), step gives a
next state: whatever the input, the event or the bytes at the PC, no step ends in a fault or a refusal. An input that waits
is run first; otherwise events of the device and gangs alternate, and where nothing is to be done time passes. A step that a
remap has held up goes before the other events, unless a slice whose request arrived before it may go (R175); the sources of
events take turns to be asked first, so that none is held up for ever. A word that decodes to nothing traps ILLEGAL in the
gang with the word in TRAPINFO. (That inputs come first and events alternate with gangs is the model's choice, log 4.) -/
def Obligations.EveryStateSteps : Prop :=
  (∀ s : State, (∀ e rest, s.inputs = e :: rest → e.encoded = false) → ∃ t, step s = .next t)
    ∧ (∀ (s : State) (e : Instr) (rest : List Instr), s.inputs = e :: rest → step s = exec e { s with inputs := rest })
    ∧ (∀ (s : State) (e : Instr), s.inputs = [] → s.turn = true ∨ s.chooseGang = none → s.internalEvent = some e →
        step s = exec e { s.idleCycle.takeUp e with turn := false, rota := s.rota + 1 })
    ∧ (∀ (s : State) (f : State → Nat → Option Instr) (e : Instr),
        s.replayEvent = none → e.encoded = false → eventSources[s.rota % eventSources.length]? = some f → f s (s.rota / eventSources.length) = some e →
        s.internalEvent = some e)
    ∧ (∀ (s : State) (n : Nat) (e : Instr) (rest : List (Nat × Instr)), s.replays = (n, e) :: rest → e.encoded = false →
        (∀ c ∈ s.candidates, ∀ m, c.first = some m → m = 0 ∨ n ≤ m) → s.internalEvent = some e)
    ∧ (∀ s : State, s.inputs = [] → s.chooseGang = none → s.internalEvent = none →
        step s = .next { s.idleCycle with turn := false })
    ∧ (∀ (s : State) (g : Cand) (s2 : State) (f : Fetched),
        s.inputs = [] → (s.turn = true → s.internalEvent = none) → s.chooseGang = some g →
        (((s.begin g).crew g.crew).slice g.lead).inside = none →
        (s.begin g).fetch ((s.begin g).crew g.crew) (((s.begin g).crew g.crew).slice g.lead).pc = (s2, .ok f) →
        (∀ i rest, decodeWords (f.pfx.toList ++ [f.word]) ≠ .ok (i, rest)) →
        let iss := s2.issueOf g f
        step s = .next (s2.raiseAll g.crew iss.slices (iss.trap 0x01 f.word.toNat 0)))

/-- For each of the 127 rows that have words, every value of every field that R302 lets through, with the prefix or without,
and any words after it: decoding the encoded instruction gives that instruction and leaves the words after it. -/
def Obligations.EncodedInstructionsDecode : Prop :=
  ∀ i : Instr, i.encoded = true → i.WellFormed → ∀ rest : List Word, decodeWords (encode i ++ rest) = .ok (i, rest)

/-- For every list of words that decodes to an instruction i with some words left: i is well-formed, it has words, and the
words of i followed by the words left are the list. So two different words never decode to one instruction, and no bit is
ignored. -/
def Obligations.DecodedWordsEncode : Prop :=
  ∀ (ws rest : List Word) (i : Instr), decodeWords ws = .ok (i, rest) →
    i.WellFormed ∧ i.encoded = true ∧ encode i ++ rest = ws

/-- The example words of the spec for BREV, COPY, FENCE, FEXP2, FMUL, MMA, PCNT, REDUX, REFILL, SAR, SCAN, SHFL, TWALK,
VOTE, XGET, XLD and, with its prefix, FLOG2 of a negated operand decode to those instructions with the operands that the
spec names; a second prefix, an unallocated major and a non-zero field of NOP decode to nothing. -/
def Obligations.SpecWordsDecode : Prop :=
  decodeWords [0x20E08180#32] = .ok (.brev { d := 2, a := 3 }, [])
    ∧ decodeWords [0x26E10280#32] = .ok (.brev { cl := 3, d := 4, a := 5 }, [])
    ∧ decodeWords [0xD6000800#32] = .ok (.copy { cl := 3, a := 16 }, [])
    ∧ decodeWords [0xC6000001#32] = .ok (.fence { cl := 3, b := 1 }, [])
    ∧ decodeWords [0x4860C100#32] = .ok (.fexp2 { d := 3, a := 2 }, [])
    ∧ decodeWords [0xF8000400#32, 0x4880C100#32] = .ok (.flog2 { px := some { na := true }, d := 3, a := 2 }, [])
    ∧ decodeWords [0x4021C205#32] = .ok (.fmul { d := 7, a := 4, b := 5 }, [])
    ∧ decodeWords [0xD8008403#32] = .ok (.mma { d := 2, a := 8, b := 3 }, [])
    ∧ decodeWords [0x5EA24180#32] = .ok (.pcnt { cl := 3, d := 9, a := 3 }, [])
    ∧ decodeWords [0x50A14180#32] = .ok (.redux { d := 5, a := 3 }, [])
    ∧ decodeWords [0xE0450103#32] = .ok (.refill { d := 20, a := 2, b := 3 }, [])
    ∧ decodeWords [0x20C0C205#32] = .ok (.sar { d := 3, a := 4, b := 5 }, [])
    ∧ decodeWords [0x50C10188#32] = .ok (.scan { d := 4, a := 3, b := 8 }, [])
    ∧ decodeWords [0x51410189#32] = .ok (.shfl { k := 1, d := 4, a := 3, b := 9 }, [])
    ∧ decodeWords [0xE6054B00#32] = .ok (.twalk { cl := 3, d := 21, a := 22 }, [])
    ∧ decodeWords [0x54624100#32] = .ok (.vote { cl := 2, d := 9, a := 2 }, [])
    ∧ decodeWords [0x60618080#32] = .ok (.xget { d := 6, a := 1 }, [])
    ∧ decodeWords [0x60404200#32] = .ok (.xld { d := 1, a := 4 }, [])
    ∧ decodeWords [0x00000001#32] = .error .badField
    ∧ decodeWords [0xE8000000#32] = .error .unallocated
    ∧ decodeWords [0xF8000400#32, 0xF8000400#32] = .error .prefixPrefix

/-- In the state after reset every service register number reads 0 but HBINT (100,000) and PWRLIMIT (48); the four compute
dies are in service with incarnation 0; every measurement register is 48 zero bytes; there is no crew, party, launch,
tenant, page, cached entry, engine operation, request, packet or record of a synchronisation word; no circuit is set up, no
frame is quarantined, no bank is drowsy and nothing has been sent. (That tenants, pages, cached entries and frames are empty
at reset and that nothing runs, waits or is to be served are the model's choices, log 14 and log 6: the spec states no such
contents.) Every byte of memory reads 0 (the model's choice, log 1), and memory is in its canonical form, every crew's exec
within its live lanes. -/
def Obligations.ResetState : Prop :=
  (∀ n, sget State.reset.csr n = if n = 0x11 then 100000 else if n = 0x20 then 48 else 0)
    ∧ State.reset.dies.length = 4 ∧ (∀ d, d < 4 → (State.reset.die d).inService = true ∧ (State.reset.die d).inc = 0)
    ∧ State.reset.boot.measure = List.replicate 8 0 ∧ State.reset.boot.running = false
    ∧ State.reset.crews = [] ∧ State.reset.parties = [] ∧ State.reset.launches = [] ∧ State.reset.tenants = []
    ∧ State.reset.pages = [] ∧ State.reset.caches = [] ∧ State.reset.ops = [] ∧ State.reset.requests = []
    ∧ State.reset.jobs = [] ∧ State.reset.routes = [] ∧ State.reset.measured = [] ∧ State.reset.tables = []
    ∧ State.reset.replays = [] ∧ State.reset.stalled = [] ∧ State.reset.inputs = []
    ∧ State.reset.syncs = [] ∧ State.reset.quarantine = [] ∧ State.reset.drowsy = [] ∧ State.reset.outbox = [] ∧ State.reset.issue = none
    ∧ (∀ a, sget State.reset.mem a = 0) ∧ Memory.wf State.reset.mem = true
    ∧ ∀ kc ∈ State.reset.crews, kc.2.exec &&& ~~~(kc.2.live &&& ~~~kc.2.off) = 0

/-- After a write of any bytes at any address each byte of the span reads what was written and every other address reads
what it read before; after bytes are zeroed the span reads zero and the rest is unchanged; a copy between places that do not
meet gives the destination the source's bytes. Numbers are little-endian: the bytes written for x, read as a number, give x
modulo 2^(8n). A write, a zeroing and a copy keep memory's canonical form, in which equal memories are equal data. -/
def Obligations.MemoryOperations : Prop :=
  (∀ (s : State) (a : Nat) (bs : List Byte) (x : Nat),
      sget (s.memWrite a bs).mem x = if a ≤ x ∧ x < a + bs.length then bs.getD (x - a) 0 else sget s.mem x)
    ∧ (∀ (s : State) (a n x : Nat), sget (s.memZero a n).mem x = if a ≤ x ∧ x < a + n then 0 else sget s.mem x)
    ∧ (∀ (s : State) (a b n : Nat), (a + n ≤ b ∨ b + n ≤ a) → (s.memCopy a b n).memRead a n = s.memRead b n)
    ∧ (∀ (s : State) (a : Nat) (bs : List Byte), (s.memWrite a bs).memRead a bs.length = bs)
    ∧ (∀ x n : Nat, leNat (leBytes x n) = x % 2 ^ (8 * n))
    ∧ (∀ (s : State) (a b n : Nat) (bs : List Byte), Memory.wf s.mem = true →
        Memory.wf (s.memWrite a bs).mem = true ∧ Memory.wf (s.memZero a n).mem = true ∧ Memory.wf (s.memCopy a b n).mem = true)
    ∧ (∀ m m' : Memory, Memory.wf m = true → Memory.wf m' = true → (∀ a, sget m a = sget m' a) → m = m')

/-- From every state whose memory is in its canonical form (addresses strictly rising, no entry that holds what an unlisted
address reads as), whatever instruction, input or event of the device the step runs, the memory of the next state is in its
canonical form. -/
def Obligations.MemoryStaysCanonical : Prop :=
  ∀ s t : State, Memory.wf s.mem = true → step s = .next t → Memory.wf t.mem = true

/-- Where in every crew the bits of exec lie within the lanes that are live and have not been switched off, they do so in
every crew after any step: every write to exec, by any instruction, trap, return, exit, restore or restart, sets only bits
of such lanes and writes the others 0. -/
def Obligations.ExecStaysWithinLiveLanes : Prop :=
  let inv (s : State) : Prop := ∀ kc ∈ s.crews, kc.2.exec &&& ~~~(kc.2.live &&& ~~~kc.2.off) = 0
  (∀ s t : State, inv s → step s = .next t → inv t)
    ∧ (∀ (c : Crew) (m : BitVec 32) (l : Nat), l < 32 →
        mbit (c.writeExec m).exec l = (mbit m l && mbit c.live l && !mbit c.off l))

/-- For each of IADD, ISUB, IMUL, IMIN, IMAX, IABS, IMULH and IMAD, in the vector forms of every operand class, type and
source of constants and in the uniform form: exec answers the next state in which every active lane of the gang (or the
uniform register D) holds the exact integer result of the sources, negated first where NA or NB asks for it, clamped into
the type's range under SAT and taken modulo 2^w otherwise (for IMULH the high half of the product); no flag is raised, index
registers with POST advance, the gang moves past the instruction, and no other register, no memory and no other part of the
state changes. -/
def Obligations.IntegerArithmetic : Prop :=
  let t (f : FmtA) : Ty := intTy f.cl f.p.dt
  let val (f : FmtA) (neg : Bool) (x : Nat) : Int := (t f).intVal (negIf (t f) neg x)
  Computes .iadd t t true true (fun _ => none)
      (fun f x y _ r => (t f).Pattern f.p.sat (val f f.p.na x + val f f.p.nb y) r.code ∧ r.fl = 0)
    ∧ Computes .isub t t true true (fun _ => none)
      (fun f x y _ r => (t f).Pattern f.p.sat (val f f.p.na x - val f f.p.nb y) r.code ∧ r.fl = 0)
    ∧ Computes .imul t t true true (fun _ => none)
      (fun f x y _ r => (t f).Pattern f.p.sat (val f f.p.na x * val f f.p.nb y) r.code ∧ r.fl = 0)
    ∧ Computes .imin t t true true (fun _ => none)
      (fun f x y _ r => (t f).Pattern f.p.sat (min (val f f.p.na x) (val f f.p.nb y)) r.code ∧ r.fl = 0)
    ∧ Computes .imax t t true true (fun _ => none)
      (fun f x y _ r => (t f).Pattern f.p.sat (max (val f f.p.na x) (val f f.p.nb y)) r.code ∧ r.fl = 0)
    ∧ Computes .iabs t t true false (fun _ => none)
      (fun f x _ _ r => (t f).Pattern f.p.sat ((val f false x).natAbs : Int) r.code ∧ r.fl = 0)
    ∧ Computes .imulh t t true true (fun _ => none)
      (fun f x y _ r => (t f).Pattern false (val f false x * val f false y / (2 ^ (t f).width : Nat)) r.code ∧ r.fl = 0)
    ∧ Computes .imad t t true true (fun f => some (if f.p.cp then (f.p.c, 3) else (f.d, 0)))
      (fun f x y z r => (t f).Pattern f.p.sat (val f f.p.na x * val f f.p.nb y + val f false z) r.code ∧ r.fl = 0)

/-- For each of AND, OR, XOR, ANDN, SHL, SHR, SAR, BREV, BFX and BFI, in every form, class, type of width w and source of
constants: exec answers the next state in which bit j of the result is the bit that the rule names (for j of w or more it is
0). SHL, SHR and SAR shift by bits [7:0] of B, a shift of w or more giving zeros or, for SAR, copies of the sign. BFX and
BFI take the position from bits [7:0] and the length from bits [15:8] of B, clipped at w. POPC counts the set bits and CLZ
the leading zeros of w bits. No flag is raised and nothing else changes but the POST index registers and the PC of the gang. -/
def Obligations.BitOperations : Prop :=
  let t (f : FmtA) : Ty := bitTy f.cl f.p.dt
  let w (f : FmtA) : Nat := (t f).width
  let n (y : Nat) : Nat := y % 256
  let len (f : FmtA) (y : Nat) : Nat := min (y / 256 % 256) (w f - n y)
  let bits (mk : FmtA → Instr) (useB : Bool) (third : FmtA → Option (BitVec 7 × Nat))
      (bit : FmtA → Nat → Nat → Nat → Nat → Bool) : Prop :=
    Computes mk t t true useB third fun f x y z r =>
      r.fl = 0 ∧ ∀ j, r.code.testBit j = (decide (j < w f) && bit f x y z j)
  bits .band true (fun _ => none) (fun _ x y _ j => x.testBit j && y.testBit j)
    ∧ bits .bor true (fun _ => none) (fun _ x y _ j => x.testBit j || y.testBit j)
    ∧ bits .bxor true (fun _ => none) (fun _ x y _ j => x.testBit j != y.testBit j)
    ∧ bits .bandn true (fun _ => none) (fun _ x y _ j => x.testBit j && !y.testBit j)
    ∧ bits .shl true (fun _ => none) (fun _ x y _ j => decide (n y ≤ j) && x.testBit (j - n y))
    ∧ bits .shr true (fun _ => none) (fun _ x y _ j => x.testBit (j + n y))
    ∧ bits .sar true (fun _ => none) (fun f x y _ j => x.testBit (min (j + n y) (w f - 1)))
    ∧ bits .brev false (fun _ => none) (fun f x _ _ j => x.testBit (w f - 1 - j))
    ∧ bits .bfx true (fun _ => none) (fun f x y _ j =>
        if j < len f y then x.testBit (n y + j)
        else (t f).signed && decide (0 < len f y) && x.testBit (n y + len f y - 1))
    ∧ bits .bfi true (fun f => some (f.d, 0)) (fun f x y d j =>
        if n y ≤ j ∧ j < n y + len f y then x.testBit (j - n y) else d.testBit j)
    ∧ Computes .popc (fun f => intTy f.cl f.p.dt) (fun f => intTy f.cl f.p.dt) true false (fun _ => none)
        (fun f x _ _ r => r.fl = 0 ∧ r.code = ((List.range (intTy f.cl f.p.dt).width).filter x.testBit).length)
    ∧ Computes .clz (fun f => intTy f.cl f.p.dt) (fun f => intTy f.cl f.p.dt) true false (fun _ => none)
        (fun f x _ _ r => r.fl = 0 ∧ r.code ≤ (intTy f.cl f.p.dt).width
          ∧ (∀ j, j < r.code → x.testBit ((intTy f.cl f.p.dt).width - 1 - j) = false)
          ∧ (r.code < (intTy f.cl f.p.dt).width → x.testBit ((intTy f.cl f.p.dt).width - 1 - r.code) = true))

/-- For each condition of ICMP and of FCMP, in every form, class, type and source of constants: exec answers the next state
in which, in each lane of the gang's slices, the bit of the predicate D is set exactly where the lane is active and the
condition holds of its sources (of the one comparison in the uniform form); where D is exec a bit is set only in a live lane
that is not switched off. FCMP compares the values that the formats name: EQ holds of equal numbers and of one infinity with
itself, LT of ordered numbers, −∞ below every number and +∞ above; zeros of both signs are equal, and a NaN is neither equal
nor ordered. It raises IV for a NaN operand of LT, LE, GT and GE; no enabled flag is raised by hypothesis. Other predicates,
other lanes, registers, memory and every other part of the state are unchanged. -/
def Obligations.ComparisonsWritePredicate : Prop :=
  let ti (f : FmtA) : Ty := intTy f.cl f.p.dt
  let icmp (cond : BitVec 3) (p : Int → Int → Prop) [DecidableRel p] : Prop :=
    Compares (.icmp cond) ti fun f x y => (decide (p ((ti f).intVal x) ((ti f).intVal y)), 0)
  let v (f : FmtA) (neg : Bool) (x : Nat) : FVal := (fltFmt f).value (flipIf (fltFmt f) neg x)
  let unordered (f : FmtA) (x y : Nat) : Bool := v f f.p.na x == .nan || v f f.p.nb y == .nan
  let fcmp (cond : BitVec 3) (p : FVal → FVal → Bool) (signals : Bool) : Prop :=
    Compares (.fcmp cond) fltTy fun f x y =>
      (p (v f f.p.na x) (v f f.p.nb y), if signals && unordered f x y then 16 else 0)
  icmp 0 (· = ·) ∧ icmp 1 (· ≠ ·) ∧ icmp 2 (· < ·) ∧ icmp 3 (· ≤ ·) ∧ icmp 4 (· > ·) ∧ icmp 5 (· ≥ ·)
    ∧ fcmp 0 feq false ∧ fcmp 1 (fun a b => !feq a b) false
    ∧ fcmp 2 (flt false) true ∧ fcmp 3 (fun a b => flt false a b || feq a b) true
    ∧ fcmp 4 (fun a b => flt false b a) true ∧ fcmp 5 (fun a b => flt false b a || feq a b) true
    ∧ (∀ a b : FVal,
        (feq a b = true ↔
          match a, b with
          | .fin x, .fin y => x.real = y.real
          | .inf m, .inf n => m = n
          | _, _ => False)
        ∧ (flt false a b = true ↔
          match a, b with
          | .fin x, .fin y => x.real < y.real
          | .inf m, .inf n => m = true ∧ n = false
          | .inf m, .fin _ => m = true
          | .fin _, .inf n => n = false
          | _, _ => False))
    ∧ fcmp 6 (fun a b => a == .nan || b == .nan) false ∧ fcmp 7 (fun a b => !(a == .nan || b == .nan)) false

/-- For each of FADD, FMUL, FFMA, FMIN, FMAX, FRND and CVT, in every form, class, format, rounding mode and source of
constants, where no flag that a lane raises is enabled: exec answers the next state in which each active lane of the gang
(or the uniform register D) holds the result of the operation of the format on the values of its sources, with the signs of
A and B flipped where NA or NB asks for it, and FLAGS holds in addition the flags of those lanes. FFMA rounds the exact
product and sum once, its addend being C or D's old value. Nothing else changes but POST index registers and the PC of the
gang. -/
def Obligations.FloatArithmetic : Prop :=
  let t : FmtA → Ty := fltTy
  let v (f : FmtA) (neg : Bool) (x : Nat) : FVal := (fltFmt f).value (flipIf (fltFmt f) neg x)
  Computes .fadd t t true true (fun _ => none)
      (fun f x y _ r => r = fadd (fltFmt f) (.ofField f.p.rnd) (v f f.p.na x) (v f f.p.nb y))
    ∧ Computes .fmul t t true true (fun _ => none)
      (fun f x y _ r => r = fmul (fltFmt f) (.ofField f.p.rnd) (v f f.p.na x) (v f f.p.nb y))
    ∧ Computes .ffma t t true true (fun f => some (if f.p.cp then (f.p.c, 3) else (f.d, 0)))
      (fun f x y z r => r = ffma (fltFmt f) (.ofField f.p.rnd) (v f f.p.na x) (v f f.p.nb y) (v f false z))
    ∧ Computes .fmin t t true true (fun _ => none)
      (fun f x y _ r => r.code = fminmax (fltFmt f) false (flipIf (fltFmt f) f.p.na x) (flipIf (fltFmt f) f.p.nb y) ∧ r.fl = 0)
    ∧ Computes .fmax t t true true (fun _ => none)
      (fun f x y _ r => r.code = fminmax (fltFmt f) true (flipIf (fltFmt f) f.p.na x) (flipIf (fltFmt f) f.p.nb y) ∧ r.fl = 0)
    ∧ Computes .frnd t t true false (fun _ => none) (fun f x _ _ r => r = frnd (fltFmt f) (.ofField f.p.rnd) x)
    ∧ Computes .cvt (fun f => .ofCode .f32 f.p.dt) (fun f => .ofCode .f32 f.p.st) true false (fun _ => none)
      (fun f x _ _ r =>
        let q := cvt (.ofCode .f32 f.p.dt) (.ofCode .f32 f.p.st) (.ofField f.p.rnd) f.p.sat x
        r.code = q.code ∧ r.fl = q.fl)

/-- For each of FRCP, FRSQ, FSQRT, FEXP2, FLOG2, FSINPI and FCOSPI, in every rounding mode, with NA and on every operand,
direct or indirect: where no flag that a lane raises is enabled, exec answers the next state in which each active lane of
the gang holds in D the result for the value of its operand and FLAGS holds in addition the flags of those lanes. A NaN
gives the canonical NaN with no flag; the zeros, the infinities and the values below -0 give the result and the flag of the
spec's table; a finite operand gives the function rounded once. The next 32 free values are set aside; one of them stands
for a result, with NX raised, only where the model's bounds do not decide the rounding (the model's choice, log 11). Nothing
else changes but POST index registers and the PC of the gang. -/
def Obligations.SpecialFunctions : Prop :=
  let f32 : Fmt := .f32
  let nan : FRes := ⟨f32.canon, 0⟩
  let invalid : FRes := ⟨f32.canon, 16⟩
  let zero (neg : Bool) : FRes := ⟨f32.signed neg 0, 0⟩
  let inf (neg : Bool) (fl : BitVec 5) : FRes := ⟨infCode f32 neg, fl⟩
  let mode (f : FmtA) : Rnd := modeOf f
  let decided (e : Option FRes) (r : FRes) : Prop := (∀ q, e = some q → r = q) ∧ (e = none → r.fl = 1)
  ComputesFsp .frcp (fun f v r =>
      match v with
      | .nan => r = nan
      | .inf n => r = zero n
      | .fin x => if x.m = 0 then r = inf x.neg 8 else r = frcp f32 (mode f) v)
    ∧ ComputesFsp .frsq (fun f v r =>
      match v with
      | .nan => r = nan
      | .inf n => r = if n then invalid else zero false
      | .fin x => if x.m = 0 then r = inf x.neg 8 else if x.neg then r = invalid else r = frsq f32 (mode f) v)
    ∧ ComputesFsp .fsqrt (fun f v r =>
      match v with
      | .nan => r = nan
      | .inf n => r = if n then invalid else inf false 0
      | .fin x => if x.m = 0 then r = zero x.neg else if x.neg then r = invalid else r = fsqrt f32 (mode f) v)
    ∧ ComputesFsp .fexp2 (fun f v r =>
      match v with
      | .nan => r = nan
      | .inf n => r = if n then zero false else inf false 0
      | .fin x => decided (exp2Fin f32 (mode f) x) r)
    ∧ ComputesFsp .flog2 (fun f v r =>
      match v with
      | .nan => r = nan
      | .inf n => r = if n then invalid else inf false 0
      | .fin x => if x.m = 0 then r = inf true 8 else if x.neg then r = invalid else decided (log2Fin f32 (mode f) x) r)
    ∧ ComputesFsp .fsinpi (fun f v r =>
      match v with
      | .nan => r = nan
      | .inf n => r = zero n
      | .fin x => decided (sinpiFin f32 (mode f) x) r)
    ∧ ComputesFsp .fcospi (fun f v r =>
      match v with
      | .nan => r = nan
      | .inf _ => r = ⟨0x3F800000, 0⟩
      | .fin x => decided (cospiFin f32 (mode f) x) r)

/-- For QPACK and QUNPK on every operand, direct or indirect: exec answers the next state in which each active lane of the
slices that raise no enabled flag has its results (TrapsVec; where none does, of the whole gang), and nothing else changes
but FLAGS, POST index registers and the PC. QPACK: with a NaN the codes are 0, the scale 0xFF and IV is raised; of zeros
alone codes and scale are 0 with no flag; else the scale is the smallest code 0x01 to 0xFE whose value is at least a sixth
of every magnitude, 0xFE where none is, and each code is its element over the scale rounded to the nearest E2M1 and
saturated, a zero keeping its sign; OF says that an element exceeds six scales, NX that a code times the scale differs from
its element. QUNPK gives exactly the code's value times the scale in bits [7:0] of A+1; scale 0xFF gives canonical NaNs and
IV. -/
def Obligations.Quantisation : Prop :=
  (∀ (f : FmtA) (s : State) (iss : Issue) (c : Crew), s.issue = some iss → aget s.crews iss.crew = some c →
    let d : VOp := { pos := 0, field := f.d.toNat, n := 2 }
    let a : VOp := { pos := 1, field := f.a.toNat, n := 8 }
    let q (l : Nat) : Nat × Nat × BitVec 5 := qpack ((List.range 8).map fun i => (c.vget a l i).toNat)
    let val (l : Nat) : List Word := [BitVec.ofNat 32 (q l).1, BitVec.ofNat 32 (q l).2.1]
    c.NamesOk iss [d, a] →
    TrapsVec (.qpack f) s s.taken iss c d [d, a] val (fun l => (q l).2.2)
      ∧ ((∀ l ∈ c.activeIn iss.slices, (q l).2.2 &&& c.ten = 0) →
          ComputesVec (.qpack f) s s.taken iss c d [d, a] val fun l => (q l).2.2))
    ∧ (∀ x : List Nat, x.length = 8 → (∀ v ∈ x, v < 2 ^ 32) →
      let v (i : Nat) : FVal := Fmt.f32.value (x.getD i 0)
      let codes := (qpack x).1
      let sc := (qpack x).2.1
      let fl := (qpack x).2.2
      let code (i : Nat) : Nat := natBits codes (4 * i + 3) (4 * i)
      let fits (s : Nat) (i : Nat) : Prop := ∃ y, v i = .fin y ∧ |y.real| ≤ 6 * (e3m5 s).real
      codes < 2 ^ 32
        ∧ ((∃ i, i < 8 ∧ v i = .nan) → codes = 0 ∧ sc = 0xFF ∧ fl = 16)
        ∧ ((∀ i, i < 8 → x.getD i 0 % 2 ^ 31 = 0) → codes = 0 ∧ sc = 0 ∧ fl = 0)
        ∧ ((∀ i, i < 8 → v i ≠ .nan) → (∃ i, i < 8 ∧ x.getD i 0 % 2 ^ 31 ≠ 0) →
          (1 ≤ sc ∧ sc ≤ 0xFE ∧ ((∀ i, i < 8 → fits sc i) ∨ sc = 0xFE)
            ∧ ∀ s', 1 ≤ s' → s' < sc → ∃ i, i < 8 ∧ ¬fits s' i)
          ∧ (∀ i, i < 8 →
              (∀ neg, v i = .inf neg → code i = if neg then 15 else 7)
              ∧ ∀ y, v i = .fin y →
                (y.m = 0 → code i = if y.neg then 8 else 0)
                ∧ (y.m ≠ 0 → ∃ g, Fmt.e2m1.Rounded .rn true (y.real / (e3m5 sc).real) { code := code i, fl := g }))
          ∧ fl &&& 26 = 0
          ∧ (fl &&& 4 ≠ 0 ↔ ∃ i, i < 8 ∧ ¬fits sc i)
          ∧ (fl &&& 1 ≠ 0 ↔ ∃ i, i < 8 ∧ ∀ y z, v i = .fin y → Fmt.e2m1.value (code i) = .fin z → z.real * (e3m5 sc).real ≠ y.real)))
    ∧ (∀ (f : FmtA) (s : State) (iss : Issue) (c : Crew), s.issue = some iss → aget s.crews iss.crew = some c →
      let d : VOp := { pos := 0, field := f.d.toNat, n := 8 }
      let a : VOp := { pos := 1, field := f.a.toNat, n := 2 }
      let q (l : Nat) : List Nat × BitVec 5 := qunpk (c.vget a l 0).toNat (c.vget a l 1).toNat
      c.NamesOk iss [d, a] →
      TrapsVec (.qunpk f) s s.taken iss c d [d, a] (fun l => (q l).1.map (BitVec.ofNat 32)) (fun l => (q l).2)
        ∧ ((∀ l ∈ c.activeIn iss.slices, (q l).2 &&& c.ten = 0) →
            ComputesVec (.qunpk f) s s.taken iss c d [d, a] (fun l => (q l).1.map (BitVec.ofNat 32)) fun l => (q l).2))
    ∧ (∀ x y : Nat,
      let r := qunpk x y
      r.1.length = 8
        ∧ (y % 256 = 255 → r.2 = 16 ∧ ∀ i, i < 8 → r.1.getD i 0 = Fmt.f32.canon)
        ∧ (y % 256 ≠ 255 → r.2 = 0 ∧ ∀ i, i < 8 → ∃ u z, Fmt.e2m1.value (natBits x (4 * i + 3) (4 * i)) = .fin u
            ∧ Fmt.f32.value (r.1.getD i 0) = .fin z ∧ z.real = u.real * (e3m5 (y % 256)).real ∧ z.neg = u.neg
            ∧ r.1.getD i 0 < 2 ^ 32))
    ∧ (∀ k, k ≤ 0xFE →
      (e3m5 k).real = if k < 32 then (k : ℝ) / 256 else (1 + ((k % 32 : ℕ) : ℝ) / 32) * 2 ^ (((k / 32 : ℕ) : ℤ) - 4))

/-- MOV writes B into D of each active lane, or into the uniform register D. LEA writes the 64-bit address A + index x
scale, modulo 2^64, with the index signed (SI32 from a vector register, else SI64) and the scale that DT names. SEL writes A
where the lane's bit of the predicate C (p0 without one) is set and B elsewhere; in the uniform form A when any active lane
of the gang has its bit set. MOVK writes the signed 15-bit immediate, sign-extended. In each case exec answers the next
state, FLAGS is unchanged, POST index registers advance, the gang moves past the instruction, and nothing else changes. -/
def Obligations.MovesWriteSelectedValue : Prop :=
  Computes .mov (fun f => intTy f.cl 0) (fun f => intTy f.cl 0) false true (fun _ => none)
      (fun _ _ y _ r => r.code = y ∧ r.fl = 0)
    ∧ (∀ (f : FmtA) (s s1 : State) (iss : Issue) (c : Crew) (kc : Option Konst),
      s.issue = some iss → s.ReadsConst iss f.k f.b s1 kc → aget s1.crews iss.crew = some c →
      let d : VOp := { pos := 0, field := f.d.toNat, n := 2 }
      let a := srcOf (f.cl == 0) 1 f.a 2
      let b := srcOf (f.cl != 3) 2 f.b 1 kc
      let index (l : Nat) : Int :=
        if f.cl ≠ 3 ∧ kc = none then natSext (b.read c .si32 l) 32 else natSext (b.read c .si64 l) 64
      let addr (l : Nat) : Int := (a.read c .ui64 l : Int) + index l * leaScale f.p.dt
      (f.cl ≠ 3 → c.NamesOk iss ([d] ++ vopsOf [a, b]) →
        ComputesVec (.lea f) s s1 iss c d ([d] ++ vopsOf [a, b]) (fun l => wordsOf (intMod (addr l) 64) 2) fun _ => 0)
      ∧ (f.cl = 3 → ComputesUni (.lea f) s s1 iss c f.d.toNat (BitVec.ofInt 64 (addr 0)) 0))
    ∧ (∀ (f : FmtA) (s s1 : State) (iss : Issue) (c : Crew) (kc : Option Konst),
      s.issue = some iss → s.ReadsConst iss f.k f.b s1 kc → aget s1.crews iss.crew = some c →
      let t := intTy f.cl f.p.dt
      let d : VOp := { pos := 0, field := f.d.toNat, n := t.regs }
      let a := srcOf (aVec f.cl) 1 f.a t.regs
      let b := srcOf (bVec f.cl) 2 f.b t.regs kc
      let p : BitVec 32 := c.pred (if f.p.cp then f.p.c.toNat else 0)
      (f.cl ≠ 3 → c.NamesOk iss ([d] ++ vopsOf [a, b]) →
        ComputesVec (.sel f) s s1 iss c d ([d] ++ vopsOf [a, b])
          (fun l => wordsOf (if p.getLsbD l then a.read c t l else b.read c t l) t.regs) fun _ => 0)
      ∧ (f.cl = 3 →
        ComputesUni (.sel f) s s1 iss c f.d.toNat
          (BitVec.ofNat 64 (if ∃ l ∈ c.activeIn iss.slices, p.getLsbD l = true then a.read c t 0 else b.read c t 0)) 0))
    ∧ (∀ (f : FmtA) (s : State) (iss : Issue) (c : Crew), s.issue = some iss → aget s.crews iss.crew = some c →
      let d : VOp := { pos := 0, field := f.d.toNat, n := 1 }
      let imm : BitVec 15 := f.k ++ f.a ++ f.b
      (f.cl ≠ 3 → c.NamesOk iss [d] →
        ComputesVec (.movk f) s s.taken iss c d [d] (fun _ => [imm.signExtend 32]) fun _ => 0)
      ∧ (f.cl = 3 → ComputesUni (.movk f) s s.taken iss c f.d.toNat (imm.signExtend 64) 0))

/-- For each of PAND, POR, PXOR, PANDN and PMOV and all predicate fields, exec as source and as destination included: exec
answers the next state in which every lane of the gang's slices, active or not, holds in D the operation of its bits in A
and B; where D is exec a bit is set only in a live lane that is not switched off. Bits outside the gang's slices keep their
value (exec's under the same bound), as does every other predicate. PCNT writes to the uniform register D how many of the 32
bits of A are set. FLAGS, vector registers, memory and everything else are unchanged but the PC of the gang. -/
def Obligations.PredicateLogic : Prop :=
  let logic (mk : FmtA → Instr) (e : Bool → Bool → Bool) : Prop :=
    ∀ (f : FmtA) (s : State) (iss : Issue) (c : Crew), s.issue = some iss → aget s.crews iss.crew = some c → f.d ≤ 16 →
      ∃ c', OnlyCrew (mk f) s s.taken iss.crew c'
        ∧ (∀ l, l < 32 → mbit (c'.pred f.d.toNat) l =
            ((if l / 4 ∈ iss.slices then e (mbit (c.pred f.a.toNat) l) (mbit (c.pred f.b.toNat) l)
              else mbit (c.pred f.d.toNat) l) && (f.d != 16 || (mbit c.live l && !mbit c.off l))))
        ∧ (∀ q, q ≤ 16 → q ≠ f.d.toNat → c'.pred q = c.pred q)
        ∧ c'.flags = c.flags ∧ c'.xofs = c.xofs ∧ c.Moved c' iss.slices iss.len ∧ c.SameButPred c'
  logic .pand (fun a b => a && b) ∧ logic .por (fun a b => a || b) ∧ logic .pxor (fun a b => a != b)
    ∧ logic .pandn (fun a b => a && !b) ∧ logic .pmov (fun a _ => a)
    ∧ (∀ (f : FmtA) (s : State) (iss : Issue) (c : Crew), s.issue = some iss → aget s.crews iss.crew = some c →
        ComputesUni (.pcnt f) s s.taken iss c f.d.toNat
          (BitVec.ofNat 64 ((List.range 32).countP fun l => mbit (c.pred f.a.toNat) l)) 0)

/-- WIN sets the window to B when it is a multiple of 8 below g, and otherwise every slice of the gang traps WINDOW. XSET
writes the uniform part of index register D, its reserved bits dropped, when BASE + BOUND is at most g, and otherwise every
slice traps REGBOUND; the offsets stay. XLD writes the low 9 bits of A in each active lane to that lane's offset in index
register D, over an advance by the same instruction. XGET reads the uniform part into a uniform register, or each active
lane's offset into D. In the cases without a trap exec answers the next state, the gang moves on, and nothing else changes. -/
def Obligations.WindowAndIndexRegisters : Prop :=
  (∀ (f : FmtA) (s s1 : State) (iss : Issue) (c : Crew) (kc : Option Konst),
    s.issue = some iss → s.ReadsConst iss f.k f.b s1 kc → aget s1.crews iss.crew = some c →
    let v : Nat := (srcOf false 2 f.b 1 kc).read c .ui64 0
    (v % 8 = 0 ∧ v < c.g →
      ∃ c', OnlyCrew (.win f) s s1 iss.crew c' ∧ c'.win = v ∧ c.Moved c' iss.slices iss.len
        ∧ { c' with win := c.win, slices := c.slices } = c)
    ∧ (¬(v % 8 = 0 ∧ v < c.g) →
      exec (.win f) s =
        .next (s1.raiseAll iss.crew iss.slices (iss.trap 0x04 (v % 512 * 2 ^ 9 + if 512 ≤ v then 2 ^ 18 else 0) 0))))
    ∧ (∀ (f : FmtA) (s s1 : State) (iss : Issue) (c : Crew) (kc : Option Konst),
      s.issue = some iss → s.ReadsConst iss f.k f.b s1 kc → aget s1.crews iss.crew = some c →
      let v : DWord := BitVec.ofNat 64 ((srcOf false 2 f.b 1 kc).read c .ui64 0)
      (xBase v + xBound v ≤ c.g →
        ∃ c', OnlyCrew (.xset f) s s1 iss.crew c'
          ∧ xBase (c'.xreg f.d.toNat) = xBase v ∧ xBound (c'.xreg f.d.toNat) = xBound v ∧ xStep (c'.xreg f.d.toNat) = xStep v
          ∧ xRing (c'.xreg f.d.toNat) = xRing v ∧ xPost (c'.xreg f.d.toNat) = xPost v
          ∧ (c'.xreg f.d.toNat) &&& ~~~0x000301FF03FF01FF#64 = 0
          ∧ (∀ x, x ≠ f.d.toNat → c'.xreg x = c.xreg x) ∧ c.Moved c' iss.slices iss.len
          ∧ { c' with xuni := c.xuni, slices := c.slices } = c)
      ∧ (c.g < xBase v + xBound v →
        exec (.xset f) s = .next (s1.raiseAll iss.crew iss.slices (iss.trap 0x03 (0xFF + f.d.toNat * 2 ^ 8) 0))))
    ∧ (∀ (f : FmtA) (s : State) (iss : Issue) (c : Crew), s.issue = some iss → aget s.crews iss.crew = some c →
      let a : VOp := { pos := 1, field := f.a.toNat, n := 1 }
      c.NamesOk iss [a] → f.d.toNat < 8 →
      ∃ c', OnlyCrew (.xld f) s s.taken iss.crew c'
        ∧ (∀ l ∈ c.activeIn iss.slices, c'.ofs f.d.toNat l = c.vnat a l % 512)
        ∧ (∀ x l, x < 8 → l < 32 → x ≠ f.d.toNat ∨ l ∉ c.activeIn iss.slices → c'.ofs x l =
            if l ∈ c.activeIn iss.slices ∧ a.index = some x ∧ xPost (c.xreg x) then nextOfs (c.xreg x) (c.ofs x l) % 512
            else c.ofs x l)
        ∧ c.Moved c' iss.slices iss.len ∧ { c' with xofs := c.xofs, slices := c.slices } = c)
    ∧ (∀ (f : FmtA) (s : State) (iss : Issue) (c : Crew), s.issue = some iss → aget s.crews iss.crew = some c →
      let d : VOp := { pos := 0, field := f.d.toNat, n := 1 }
      (f.cl = 3 → ComputesUni (.xget f) s s.taken iss c f.d.toNat (c.xreg f.a.toNat) 0)
      ∧ (f.cl ≠ 3 → c.NamesOk iss [d] →
        ComputesVec (.xget f) s s.taken iss c d [d] (fun l => [BitVec.ofNat 32 (c.ofs f.a.toNat l)]) fun _ => 0))

/-- SREAD of register B gives, for a crew of a party, the value that the table of R92 names, and for a service thread the
value of R444: into the uniform register D, or into D of each active lane, a 64-bit register as a pair; a vector read of
LINK goes to all four lanes of each slice of the gang whatever exec holds. That an inactive lane whose indirect name is out
of bounds is not written by it, and that SWRITE LINK reads register BASE plus offset for such a lane, is the model's choice
(log 61). SWRITE takes the uniform register B, or the lowest active lane of the gang (for LINK lane 4s of each slice): FLAGS
gets the low five bits with TEN kept, HSTK the value, LPB the value with bits [7:0] cleared, LINK the value with bits [1:0]
cleared in each slice of the gang; with no active lane nothing is written. exec answers the next state, the gang moves on,
POST index registers advance, and nothing else changes. -/
def Obligations.SpecialRegisters : Prop :=
  let value (s : State) (c : Crew) (n l : Nat) : Nat :=
    let sl := c.slice (l / 4)
    match n, c.place with
    | 0x00, _ => l
    | 0x01, _ => l / 4
    | 0x09, _ => c.ten.toNat * 2 ^ 8 + c.flags.toNat
    | 0x0A, _ => sl.link.toNat
    | 0x0B, _ => c.hstk.toNat
    | 0x0C, _ => sl.cause.toNat
    | 0x0D, _ => sl.info.toNat
    | 0x0E, _ => c.off.toNat
    | 0x0F, _ => (sget c.atloc l).toNat
    | 0x10, _ => c.lpb.toNat
    | 0x02, .compute _ index _ => index
    | 0x03, .compute p _ _ => (s.party p).index
    | 0x04, .compute p _ _ =>
      let la := s.launchRec (s.party p).launch
      la.e0 * la.e1 * la.e2 * 2 ^ 16 + la.perOuting * 2 ^ 8 + la.crews
    | 0x05, .compute p _ _ =>
      let la := s.launchRec (s.party p).launch
      let i := (s.party p).index
      i / (la.e0 * la.e1) * 2 ^ 42 + i / la.e0 % la.e1 * 2 ^ 21 + i % la.e0
    | 0x06, .compute p _ _ => (s.party p).core
    | 0x07, .compute p _ _ => virtualDie (s.tenant c.tenant) (s.party p).die
    | 0x08, .compute p _ _ => s.clock - (s.die (s.party p).die).clockBase
    | _, .compute p _ _ => (s.party p).member
    | 0x04, .service _ _ => 2 ^ 16 + 2 ^ 8 + 1
    | 0x06, .service core thread => core + 2 ^ 5 + thread * 2 ^ 6
    | 0x07, .service _ _ => 0xFF
    | 0x08, .service _ _ => s.clock
    | _, .service _ _ => 0
  let width (n : Nat) : Nat := if n ∈ [0x03, 0x04, 0x05, 0x08, 0x0A, 0x0B, 0x0D, 0x10] then 2 else 1
  (∀ (f : FmtA) (s : State) (iss : Issue) (c : Crew), s.issue = some iss → aget s.crews iss.crew = some c → f.b ≤ 0x11 →
    let n := f.b.toNat
    let d : VOp := { pos := 0, field := f.d.toNat, n := width n }
    let val (l : Nat) : List Word := wordsOf (value s c n l) (width n)
    (f.cl = 3 → ComputesUni (.sread f) s s.taken iss c f.d.toNat (BitVec.ofNat 64 (value s c n 0)) 0)
    ∧ (f.cl ≠ 3 → n ≠ 0x0A → c.NamesOk iss [d] → ComputesVec (.sread f) s s.taken iss c d [d] val fun _ => 0)
    ∧ (f.cl ≠ 3 → n = 0x0A → c.NamesOk iss [d] →
      let lanes := (lanes32.filter fun l => iss.slices.contains (l / 4)).filter fun l =>
        match d.index with
        | some x => !c.ofsBad x l 2
        | none => true
      ∃ c', OnlyCrew (.sread f) s s.taken iss.crew c' ∧ c.VecWritten c' lanes d val ∧ c'.flags = c.flags
        ∧ c.OffsetsMoved c' (c.activeIn iss.slices) [d] ∧ c.Moved c' iss.slices iss.len ∧ c.SameButVec c'))
    ∧ (∀ (f : FmtA) (s : State) (iss : Issue) (c : Crew), s.issue = some iss → aget s.crews iss.crew = some c →
      f.d.toNat ∈ [0x09, 0x0A, 0x0B, 0x10] →
      let n := f.d.toNat
      let b : VOp := { pos := 2, field := f.b.toNat, n := width n }
      (f.cl ≠ 3 → c.NamesOk iss [b]) →
      let v : Option Nat :=
        if f.cl = 3 then some (c.sreg f.b.toNat).toNat else (c.activeIn iss.slices).head?.map fun l => c.vnat b l
      let link (i : Nat) : Nat := if f.cl = 3 then (c.sreg f.b.toNat).toNat else c.vnat b (4 * i)
      ∃ c', OnlyCrew (.swrite f) s s.taken iss.crew c'
        ∧ c'.flags = (if n = 0x09 then (v.map (BitVec.ofNat 5)).getD c.flags else c.flags)
        ∧ c'.hstk = (if n = 0x0B then (v.map (BitVec.ofNat 64)).getD c.hstk else c.hstk)
        ∧ c'.lpb = (if n = 0x10 then (v.map fun x => BitVec.ofNat 64 (x / 256 * 256)).getD c.lpb else c.lpb)
        ∧ (∀ i, c'.slice i =
            if i ∈ iss.slices ∧ i < c.slices.length then
              { c.slice i with
                pc := (c.slice i).pc + BitVec.ofNat 64 iss.len, wait := .none
                link := if n = 0x0A then pcOf (BitVec.ofNat 64 (link i)) else (c.slice i).link }
            else c.slice i)
        ∧ c.OffsetsMoved c' (if f.cl = 3 then [] else c.activeIn iss.slices) [b]
        ∧ { c' with flags := c.flags, hstk := c.hstk, lpb := c.lpb, xofs := c.xofs, slices := c.slices } = c)

/-- TRAP and BRK trap every slice of the gang, whatever exec holds, with code 0x10 and 0x11, the constant as TRAPINFO and
RETPC past the instruction; SYSCALL on a service thread does so with code 0 and the caller's level, on a compute core it
traps PRIV. Where no other slice is in a handler, the crew is not frozen, HSTK is a non-zero multiple of 64, the handler's
entry is set (TRAPVEC; the service entry for SYSCALL) and the 64 bytes at HSTK-64 can be written: the call record is written
there, HSTK moves down, the lowest slice gets TRAPCAUSE, TRAPINFO, exec bits equal to its live lanes that are not switched
off and the PC of the entry, and the handler's base is kept; the other slices stay as they stand, with the trap pending.
Nothing else changes but what the write of the record does. The record holds the fields of R189. -/
def Obligations.TrapEntry : Prop :=
  let enters (t0 t : State) (k : Nat) (is : List Nat) (c : Crew) (T : TrapInfo) (entry : DWord) : Prop :=
    ∀ i rest tgt, is = i :: rest → is.Nodup → c.frozen = none → (∀ h, c.handler = some h → h.slice = i) →
      c.hstk ≠ 0 → c.hstk.toNat % 64 = 0 → entry ≠ 0 →
      let a : DWord := c.hstk - 64
      t0.access c a.toNat 64 .write = .ok tgt → tgt ≠ .violation → t0.stuck (t0.site c) tgt false = false →
      ∃ c', t = ((t0.touchFor c a.toNat true).writeTgt (t0.site c) tgt (callRecord c i T) false).setCrew k c'
        ∧ c'.hstk = a ∧ c'.handler = some { slice := i, base := (c.handler.map (·.base)).getD c.hstk }
        ∧ c'.level = (if T.code = 0 ∧ c.level = .user then .service else c.level)
        ∧ (∀ j, c'.slice j =
            if j = i ∧ j < c.slices.length then
              { c.slice j with cause := T.code, info := T.info, pc := pcOf entry, wait := .none, pend := none }
            else if j ∈ rest ∧ j < c.slices.length then { c.slice j with pend := some T }
            else c.slice j)
        ∧ (∀ l, l < 32 → mbit c'.exec l =
            ((if l / 4 = i then mbit c.live l else mbit c.exec l) && mbit c.live l && !mbit c.off l))
        ∧ { c' with hstk := c.hstk, handler := c.handler, level := c.level, exec := c.exec, slices := c.slices } = c
  (∀ (imm : BitVec 21) (s : State) (iss : Issue) (c : Crew), s.issue = some iss → aget s.crews iss.crew = some c →
    let T (code : BitVec 8) (plev : BitVec 2) : TrapInfo :=
      { code := code, info := imm.setWidth 64, addr := 0, retpc := iss.pc + BitVec.ofNat 64 iss.len, word := iss.word
        pfx := iss.pfx.getD 0, plev := plev }
    (∃ t, exec (.trap imm) s = .next t ∧ enters s.taken t iss.crew iss.slices c (T 0x10 0) (s.tenant c.tenant).trapvec)
    ∧ (∃ t, exec (.brk imm) s = .next t ∧ enters s.taken t iss.crew iss.slices c (T 0x11 0) (s.tenant c.tenant).trapvec)
    ∧ (c.isService = true → ∃ t, exec (.syscall imm) s = .next t
        ∧ enters s.taken t iss.crew iss.slices c (T 0 (levelCode c.level)) Config.serviceEntry)
    ∧ (c.isService = false →
        exec (.syscall imm) s = .next (s.taken.raiseAll iss.crew iss.slices (iss.trap 0x02 iss.word.toNat 0))))
    ∧ (∀ (c : Crew) (i : Nat) (T : TrapInfo), i < 8 →
      let dw (n : Nat) : Nat := leNat (((callRecord c i T).drop (8 * n)).take 8)
      (callRecord c i T).length = 64
        ∧ dw 0 = sliceBits c.live i * 2 ^ 20 + sliceBits c.exec i * 2 ^ 16 + T.plev.toNat * 2 ^ 11 + i * 2 ^ 8 + T.code.toNat
        ∧ dw 1 = T.retpc.toNat ∧ dw 2 = (c.slice i).link.toNat ∧ dw 3 = T.info.toNat ∧ dw 4 = T.addr.toNat
        ∧ dw 5 = T.pfx.toNat * 2 ^ 32 + T.word.toNat ∧ dw 6 = c.hstk.toNat ∧ dw 7 = 0)

/-- ERET of a handler slice whose call record, at HSTK, lies on this module and can be reached reads the 64 bytes there and
takes them: the slice's LINK and PC, its exec bits (only in live lanes not switched off), HSTK, and for a SYSCALL record a
level no higher than the record's are restored; the handler ends exactly when HSTK is its base again. A record on another
device is asked for, and the slice waits for the reply; a HSTK that is no multiple of 64 traps ALIGN. ERET in a slice that
is not the handler slice traps ILLEGAL. A trap whose HSTK is 0 or no multiple of 64, or whose handler entry is 0, is DOUBLE:
the crew is frozen with the trap kept, no register of any slice and no HSTK changes, and the fault record with CODE DOUBLE
is appended; that its ADDR is HSTK-64, the place of the record that could not be written, is the model's reading (log 48):
the rules ask for the faulting address alone. -/
def Obligations.TrapReturnAndDouble : Prop :=
  (∀ (c : Crew) (i : Nat) (bs : List Byte), bs.length = 64 →
    let dw (n : Nat) : Nat := leNat ((bs.drop (8 * n)).take 8)
    let c' := popRecord c i bs
    (∀ j, c'.slice j =
        if j = i ∧ j < c.slices.length then
          { c.slice j with link := pcOf (BitVec.ofNat 64 (dw 2)), pc := pcOf (BitVec.ofNat 64 (dw 1)), wait := .none }
        else c.slice j)
      ∧ (∀ l, l < 32 → mbit c'.exec l =
          ((if l / 4 = i then natBit (dw 0) (16 + l % 4) else mbit c.exec l) && mbit c.live l && !mbit c.off l))
      ∧ c'.hstk = BitVec.ofNat 64 (dw 6)
      ∧ c'.level = (if dw 0 % 256 = 0 then lowerLevel (levelOfCode (natBits (dw 0) 12 11)) c.level else c.level)
      ∧ (c'.handler = if c.handler.map (·.base) = some (BitVec.ofNat 64 (dw 6)) then none else c.handler)
      ∧ { c' with hstk := c.hstk, level := c.level, exec := c.exec, slices := c.slices, handler := c.handler } = c)
    ∧ (∀ (f : FmtA) (s : State) (iss : Issue) (c : Crew) (i : Nat) (b : DWord) (tgt : Tgt),
      s.issue = some iss → aget s.crews iss.crew = some c → iss.slices = [i] → c.handler = some { slice := i, base := b } →
      c.hstk.toNat % 64 = 0 → s.taken.access c c.hstk.toNat 64 .read = .ok tgt →
      tgt.remote = false → tgt.violates = false → s.taken.stuck (s.taken.site c) tgt false = false →
      let r := (s.taken.touchLane c { lane := 4 * i, addr := c.hstk.toNat, tgt := tgt } false).readTgt (s.site c) tgt 64 false
      exec (.eret f) s = .next (((r.1.modCrew iss.crew fun c => popRecord c i r.2).deliverPending iss.crew).settle iss.crew)
        ∧ (∀ a, tgt = .dram a ∨ tgt = .scratch a false → r.2 = r.1.memRead a 64))
    ∧ (∀ (f : FmtA) (s : State) (iss : Issue) (c : Crew) (i : Nat) (b : DWord) (ep page off : Nat),
      s.issue = some iss → aget s.crews iss.crew = some c → iss.slices = [i] → c.handler = some { slice := i, base := b } →
      c.hstk.toNat % 64 = 0 → s.taken.access c c.hstk.toNat 64 .read = .ok (.fabric ep page off) →
      s.taken.stuck (s.taken.site c) (.fabric ep page off) false = false → 0 < s.nextId →
      ∃ (u : State) (c' : Crew) (fl : Flight),
        u = s.taken.touchFor c c.hstk.toNat false
        ∧ exec (.eret f) s = .next ((State.setCrew { u with
            nextId := u.nextId + 2
            requests := u.requests ++ [{ id := u.nextId + 1, group := u.nextId, crew := iss.crew, lane := 4 * i
                                         mask := maskOf 32 32 (· = 4 * i), addr := c.hstk, size := 64, since := u.time }]
            outbox := u.outbox ++ [.stodorRead ep page off 64 (u.nextId + 1)] } iss.crew c').settle iss.crew)
        ∧ c'.flights = c.flights ++ [fl] ∧ fl.group = u.nextId ∧ fl.eret = true ∧ fl.lanes = [] ∧ fl.uni = []
        ∧ (∀ j, c'.slice j = if j = i ∧ i < c.slices.length then
              { c.slice i with pc := (c.slice i).pc + BitVec.ofNat 64 iss.len, wait := .reply u.nextId } else c.slice j)
        ∧ { c' with flights := c.flights, slices := c.slices } = c)
    ∧ (∀ (f : FmtA) (s : State) (iss : Issue) (c : Crew) (i : Nat) (b : DWord),
      s.issue = some iss → aget s.crews iss.crew = some c → iss.slices = [i] → c.handler = some { slice := i, base := b } →
      c.hstk.toNat % 64 ≠ 0 →
      exec (.eret f) s =
        .next ((s.taken.raise iss.crew i (iss.trap 0x05 (c.live &&& sliceMask i).toNat c.hstk.toNat)).settle iss.crew))
    ∧ (∀ (f : FmtA) (s : State) (iss : Issue) (c : Crew) (i : Nat),
      s.issue = some iss → aget s.crews iss.crew = some c → iss.slices = [i] → (∀ h, c.handler = some h → h.slice ≠ i) →
      exec (.eret f) s = .next ((s.taken.raise iss.crew i (iss.trap 0x01 iss.word.toNat 0)).settle iss.crew))
    ∧ (∀ (s : State) (k i : Nat) (c : Crew) (T : TrapInfo), aget s.crews k = some c → c.frozen = none →
      (∀ h, c.handler = some h → h.slice = i) →
      c.hstk = 0 ∨ c.hstk.toNat % 64 ≠ 0 ∨ (T.code ≠ 0 ∧ (s.tenant c.tenant).trapvec = 0) →
      ∃ r : FaultRec, s.raise k i T = (s.modCrew k fun c => { c with frozen := some (i, T) }).appendFault c.tenant r
        ∧ r.target = .frozen k ∧ r.words.length = 6
        ∧ natBits (r.words.getD 0 0).toNat 7 0 = 0x0F ∧ natBits (r.words.getD 0 0).toNat 10 8 = 6
        ∧ natBits (r.words.getD 0 0).toNat 11 11 = 0 ∧ r.words.getD 1 0 = c.hstk - 64 ∧ r.words.getD 2 0 = (c.slice i).pc
        ∧ r.words.getD 4 0 = T.code.setWidth 64)

/-- For FADD, FMUL, FFMA, FRND, CVT, the comparisons FCMP, the seven FSP instructions, QPACK and QUNPK, in vector form on a
gang of any number of slices: exec answers the state in which the slices without a lane that raises an enabled flag have
committed as a completing instruction does, and then each other slice, in increasing order, with nothing of it written (no
destination, no FLAGS, no offset), takes FPE (code 0x12) with every flag that its lanes raised in TRAPINFO[4:0] and the mask
of the lanes that raised an enabled one in [36:5]. In uniform form (all but the FSP instructions, QPACK and QUNPK) nothing
is written and every slice of the gang takes FPE with the raised flags and the gang's live lanes. -/
def Obligations.FlagTrap : Prop :=
  let uniform (i : Instr) (s s1 : State) (iss : Issue) (c : Crew) (fl : BitVec 5) : Prop :=
    fl &&& c.ten ≠ 0 → exec i s = .next (s1.raiseAll iss.crew iss.slices
      (iss.trap 0x12 (fl.toNat + (c.live &&& slicesMask iss.slices).toNat * 2 ^ 5) 0))
  let traps (mk : FmtA → Instr) (td ts : FmtA → Ty) (useB : Bool) (third : FmtA → Option (BitVec 7 × Nat))
      (fn : FmtA → Nat → Nat → Nat → FRes) : Prop :=
    ∀ (f : FmtA) (s s1 : State) (iss : Issue) (c : Crew) (kc : Option Konst),
      s.issue = some iss → s.ReadsConst iss f.k f.b s1 kc → aget s1.crews iss.crew = some c →
      let a := sourceA f true (ts f)
      let b := sourceB f useB (ts f) kc
      let z := sourceC f (third f) (ts f)
      let res (l : Nat) : FRes := fn f (a.read c (ts f) l) (b.read c (ts f) l) (z.read c (ts f) l)
      (f.cl = 3 → uniform (mk f) s s1 iss c (res 0).fl)
      ∧ (f.cl ≠ 3 → c.NamesOk iss ([destOp f (td f)] ++ vopsOf [a, b, z]) →
          TrapsVec (mk f) s s1 iss c (destOp f (td f)) ([destOp f (td f)] ++ vopsOf [a, b, z])
            (fun l => wordsOf (res l).code (td f).regs) fun l => (res l).fl)
  let special (mk : FmtA → Instr) (fn : FmtA → FVal → Option FRes) : Prop :=
    ∀ (f : FmtA) (s : State) (iss : Issue) (c : Crew), s.issue = some iss → aget s.crews iss.crew = some c →
      let d : VOp := { pos := 0, field := f.d.toNat, n := 1 }
      let a : VOp := { pos := 1, field := f.a.toNat, n := 1 }
      let res (l : Nat) : FRes := (fn f (Fmt.f32.value (flipIf .f32 f.p.na (c.vnat a l)))).getD
        { code := (Config.freeValue (s.free + l)).toNat % 2 ^ 32, fl := 1 }
      c.NamesOk iss [d, a] →
      TrapsVec (mk f) s { s.taken with free := s.free + 32 } iss c d [d, a] (fun l => wordsOf (res l).code 1) fun l => (res l).fl
  let v (f : FmtA) (neg : Bool) (x : Nat) : FVal := (fltFmt f).value (flipIf (fltFmt f) neg x)
  let pos (e : FmtA → Dy → Option FRes) (low : FRes) (f : FmtA) : FVal → Option FRes
    | .nan => some { code := Fmt.f32.canon, fl := 0 }
    | .inf n => some (if n then low else { code := infCode .f32 false, fl := 0 })
    | .fin x => e f x
  let wave (e : FmtA → Dy → Option FRes) (top : Bool → FRes) (f : FmtA) : FVal → Option FRes
    | .nan => some { code := Fmt.f32.canon, fl := 0 }
    | .inf n => some (top n)
    | .fin x => e f x
  traps .fadd fltTy fltTy true (fun _ => none)
      (fun f x y _ => fadd (fltFmt f) (.ofField f.p.rnd) (v f f.p.na x) (v f f.p.nb y))
    ∧ traps .fmul fltTy fltTy true (fun _ => none)
      (fun f x y _ => fmul (fltFmt f) (.ofField f.p.rnd) (v f f.p.na x) (v f f.p.nb y))
    ∧ traps .ffma fltTy fltTy true (fun f => some (if f.p.cp then (f.p.c, 3) else (f.d, 0)))
      (fun f x y z => ffma (fltFmt f) (.ofField f.p.rnd) (v f f.p.na x) (v f f.p.nb y) ((fltFmt f).value z))
    ∧ traps .frnd fltTy fltTy false (fun _ => none) (fun f x _ _ => frnd (fltFmt f) (.ofField f.p.rnd) x)
    ∧ traps .cvt (fun f => .ofCode .f32 f.p.dt) (fun f => .ofCode .f32 f.p.st) false (fun _ => none)
      (fun f x _ _ =>
        let q := cvt (.ofCode .f32 f.p.dt) (.ofCode .f32 f.p.st) (.ofField f.p.rnd) f.p.sat x
        { code := q.code, fl := q.fl })
    ∧ (∀ (cond : BitVec 3) (f : FmtA) (s s1 : State) (iss : Issue) (c : Crew) (kc : Option Konst),
      s.issue = some iss → s.ReadsConst iss f.k f.b s1 kc → aget s1.crews iss.crew = some c → f.d ≤ 16 →
      let t := fltTy f
      let a := sourceA f true t
      let b := sourceB f true t kc
      let res (l : Nat) : Bool × BitVec 5 := fcmpHolds cond (v f f.p.na (a.read c t l)) (v f f.p.nb (b.read c t l))
      (f.cl = 3 → uniform (.fcmp cond f) s s1 iss c (res 0).2)
      ∧ (f.cl ≠ 3 → c.NamesOk iss (vopsOf [a, b]) →
          TrapsPred (.fcmp cond f) s s1 iss c f.d.toNat (vopsOf [a, b]) (fun l => (res l).1) fun l => (res l).2))
    ∧ special .frcp (fun f x => some (frcp .f32 (modeOf f) x))
    ∧ special .frsq (fun f x => some (frsq .f32 (modeOf f) x))
    ∧ special .fsqrt (fun f x => some (fsqrt .f32 (modeOf f) x))
    ∧ special .fexp2 (pos (fun f x => exp2Fin .f32 (modeOf f) x) { code := 0, fl := 0 })
    ∧ special .flog2 (pos
        (fun f x =>
          if x.m = 0 then some { code := infCode .f32 true, fl := 8 }
          else if x.neg then some { code := Fmt.f32.canon, fl := 16 }
          else log2Fin .f32 (modeOf f) x)
        { code := Fmt.f32.canon, fl := 16 })
    ∧ special .fsinpi (wave (fun f x => sinpiFin .f32 (modeOf f) x) fun n => { code := Fmt.f32.signed n 0, fl := 0 })
    ∧ special .fcospi (wave (fun f x => cospiFin .f32 (modeOf f) x) fun _ => { code := 0x3F800000, fl := 0 })
    ∧ (∀ (f : FmtA) (s : State) (iss : Issue) (c : Crew), s.issue = some iss → aget s.crews iss.crew = some c →
      let d (n : Nat) : VOp := { pos := 0, field := f.d.toNat, n := n }
      let a (n : Nat) : VOp := { pos := 1, field := f.a.toNat, n := n }
      let q (l : Nat) : Nat × Nat × BitVec 5 := qpack ((List.range 8).map fun i => (c.vget (a 8) l i).toNat)
      let r (l : Nat) : List Nat × BitVec 5 := qunpk (c.vget (a 2) l 0).toNat (c.vget (a 2) l 1).toNat
      (c.NamesOk iss [d 2, a 8] →
        TrapsVec (.qpack f) s s.taken iss c (d 2) [d 2, a 8] (fun l => [BitVec.ofNat 32 (q l).1, BitVec.ofNat 32 (q l).2.1])
          fun l => (q l).2.2)
      ∧ (c.NamesOk iss [d 8, a 2] →
        TrapsVec (.qunpk f) s s.taken iss c (d 8) [d 8, a 2] (fun l => (r l).1.map (BitVec.ofNat 32)) fun l => (r l).2))

/-- NOP answers the next state in which each slice of the gang has its PC past the instruction and every other piece of
state, memory and the records of releases included, is as it was. A word with MAJ 0x00 and FN 0 and any other bit set
decodes to nothing, and so does the word of NOP after any prefix, so that its gang traps ILLEGAL. -/
def Obligations.NopOnlyAdvances : Prop :=
  (∀ (f : FmtA) (s : State) (iss : Issue) (c : Crew), s.issue = some iss → aget s.crews iss.crew = some c →
    ∃ c', OnlyCrew (.nop f) s s.taken iss.crew c' ∧ c.Moved c' iss.slices iss.len ∧ { c' with slices := c.slices } = c)
    ∧ (∀ w : Word, w.extractLsb' 27 5 = 0 → w.extractLsb' 21 3 = 0 → w ≠ 0 →
        ∀ i rest, decodeWords [w] ≠ .ok (i, rest))
    ∧ (∀ w p : Word, isPrefix p = true → w.extractLsb' 27 5 = 0 → w.extractLsb' 21 3 = 0 →
        ∀ i rest, decodeWords [p, w] ≠ .ok (i, rest))

/-- BR tests its condition in each slice on the slice's active lanes: a slice that takes it goes to PC + 4 x OFF, any other
past the word. CALL sets LINK to PC + 4 and PC to the target in every slice of the gang. RET goes to LINK, or to the uniform
register A when A is not 0. LPOOL sets the pool base to its target, a multiple of 256. LDL writes the 4 bytes
(zero-extended) or 8 bytes at its target, a multiple of their number, to the uniform register D. None is gated by exec. exec
answers the next state, and no other field of the crew, no other crew, no memory and no other part of the state changes, but
for LDL what its fetch does to caches. In a gang of any number of slices, a misaligned target of RET traps ALIGN in its
slice, in slice order, while the others return; one of LPOOL or LDL traps ALIGN in every slice of the gang, in increasing
order, with nothing written. ADDR is the target and TRAPINFO the slice's live lanes (log 24). -/
def Obligations.BranchesSetPcAndLink : Prop :=
  let target (iss : Issue) (off : BitVec 19) : DWord := iss.pc + off.signExtend 64 * 4
  let holds (cond : BitVec 4) (c : Crew) (p : BitVec 32) (i : Nat) : Prop :=
    let act : List Nat := (List.range 32).filter fun l => l / 4 = i && mbit c.exec l
    match cond with
    | 0 => True
    | 1 => ∃ l ∈ act, mbit p l = true
    | 2 => ∀ l ∈ act, mbit p l = true
    | 3 => ¬∃ l ∈ act, mbit p l = true
    | 4 => ¬∀ l ∈ act, mbit p l = true
    | 5 => act = []
    | _ => act ≠ []
  (∀ (cond : BitVec 4) (f : FmtC) (s : State) (iss : Issue) (c : Crew), cond ≤ 6 →
    s.issue = some iss → aget s.crews iss.crew = some c →
    ∃ c', OnlyCrew (.br cond f) s s.taken iss.crew c'
      ∧ (∀ i, i ∈ iss.slices → i < c.slices.length →
          (holds cond c (c.pred f.p.toNat) i → c'.slice i = { c.slice i with pc := target iss f.off, wait := .none })
          ∧ (¬holds cond c (c.pred f.p.toNat) i →
              c'.slice i = { c.slice i with pc := (c.slice i).pc + BitVec.ofNat 64 iss.len, wait := .none }))
      ∧ (∀ i, i ∉ iss.slices → c'.slice i = c.slice i) ∧ { c' with slices := c.slices } = c)
    ∧ (∀ (f : FmtC) (s : State) (iss : Issue) (c : Crew), s.issue = some iss → aget s.crews iss.crew = some c →
      ∃ c', OnlyCrew (.call f) s s.taken iss.crew c'
        ∧ (∀ i, c'.slice i =
            if i ∈ iss.slices ∧ i < c.slices.length then
              { c.slice i with link := iss.pc + 4, pc := target iss f.off, wait := .none }
            else c.slice i)
        ∧ { c' with slices := c.slices } = c)
    ∧ (∀ (f : FmtA) (s : State) (iss : Issue) (c : Crew), s.issue = some iss → aget s.crews iss.crew = some c →
      let t (i : Nat) : DWord := if f.a = 0 then (c.slice i).link else c.sreg f.a.toNat
      ((∀ i ∈ iss.slices, (t i).toNat % 4 = 0) →
        ∃ c', OnlyCrew (.ret f) s s.taken iss.crew c'
          ∧ (∀ i, c'.slice i =
              if i ∈ iss.slices ∧ i < c.slices.length then { c.slice i with pc := t i, wait := .none } else c.slice i)
          ∧ { c' with slices := c.slices } = c)
      ∧ exec (.ret f) s = .next (iss.slices.foldl (fun u i =>
          if (t i).toNat % 4 = 0 then u.modCrew iss.crew fun r => r.modSlice i fun sl => { sl with pc := t i, wait := .none }
          else u.raise iss.crew i (iss.trap 0x05 ((u.crew iss.crew).live &&& sliceMask i).toNat (t i).toNat)) s.taken))
    ∧ (∀ (f : FmtC) (s : State) (iss : Issue) (c : Crew), s.issue = some iss → aget s.crews iss.crew = some c →
      let t := target iss f.off
      (t.toNat % 256 = 0 →
        ∃ c', OnlyCrew (.lpool f) s s.taken iss.crew c' ∧ c'.lpb = t ∧ c.Moved c' iss.slices iss.len
          ∧ { c' with lpb := c.lpb, slices := c.slices } = c)
      ∧ (t.toNat % 256 ≠ 0 →
          exec (.lpool f) s = .next (iss.slices.foldl (fun u i =>
            u.raise iss.crew i (iss.trap 0x05 (c.live &&& sliceMask i).toNat t.toNat)) s.taken)))
    ∧ (∀ (f : FmtL) (s : State) (iss : Issue) (c : Crew), s.issue = some iss → aget s.crews iss.crew = some c →
      let t := target iss f.off
      let n := if f.w = 1 then 8 else 4
      t.toNat % n ≠ 0 →
        exec (.ldl f) s = .next (iss.slices.foldl (fun u i =>
          u.raise iss.crew i (iss.trap 0x05 (c.live &&& sliceMask i).toNat t.toNat)) s.taken))
    ∧ (∀ (f : FmtL) (s s1 : State) (bs : List Byte) (iss : Issue) (c : Crew),
      s.issue = some iss → aget s.crews iss.crew = some c →
      let t := target iss f.off
      let n := if f.w = 1 then 8 else 4
      t.toNat % n = 0 → s.taken.fetchRead c t.toNat n = .ok (s1, bs) →
      ∃ c', exec (.ldl f) s = .next (s1.setCrew iss.crew c') ∧ c'.sreg f.d.toNat = BitVec.ofNat 64 (leNat bs)
        ∧ (∀ q, q ≠ f.d.toNat → c'.sreg q = c.sreg q) ∧ c.Moved c' iss.slices iss.len
        ∧ { c' with sregs := c.sregs, pend := c.pend, slices := c.slices } = c)

/-- SPLIT, with fewer than 16 records, pushes one with the gang as SMASK and nothing arrived; slices with an active lane
whose predicate bit is set branch, the others go on; with 16 it traps SPLITDEPTH. REGANG marks each slice of the gang in its
innermost open record and makes it wait there; a slice with none goes on. LEAVE marks each slice in its containing records
from DEPTH up and branches. EXIT clears the gang's active lanes from live and exec; slices with a live lane left go on, and
a handler whose slice has none ends. Then records whose live members have all arrived go, and their waiters without a
pending trap go past their REGANG (settle). A slice past an access that awaits a reply keeps that wait at an EXIT. Nothing
else of the crew, no other crew and no memory changes before that. -/
def Obligations.RendezvousOfSlices : Prop :=
  let branch (c c' : Crew) (iss : Issue) (t : DWord) (takes : Nat → Prop) : Prop :=
    ∀ i, (i ∈ iss.slices → i < c.slices.length →
        (takes i → c'.slice i = { c.slice i with pc := t, wait := .none })
        ∧ (¬takes i → c'.slice i = { c.slice i with pc := (c.slice i).pc + BitVec.ofNat 64 iss.len, wait := .none }))
      ∧ (i ∉ iss.slices → c'.slice i = c.slice i)
  let marked (c c' : Crew) (marks : Nat → RdvRec → Prop) : Prop :=
    c'.rdv.length = c.rdv.length ∧ ∀ (n : Nat) (r : RdvRec), c.rdv[n]? = some r →
      ∃ r', c'.rdv[n]? = some r' ∧ r'.id = r.id ∧ r'.smask = r.smask
        ∧ ∀ i, i < 8 → (mbit r'.arr i = true ↔ mbit r.arr i = true ∨ marks i r)
  (∀ (f : FmtC) (s : State) (iss : Issue) (c : Crew), s.issue = some iss → aget s.crews iss.crew = some c →
    (c.rdv.length < 16 →
      ∃ c', exec (.split f) s = .next (({ s.taken with nextId := s.nextId + 1 } : State).setCrew iss.crew c')
        ∧ c'.rdv = c.rdv ++ [{ id := s.nextId, smask := iss.mask, arr := 0 }]
        ∧ branch c c' iss (targetOf iss f.off) (fun i => ∃ l ∈ c.activeOf i, mbit (c.pred f.p.toNat) l = true)
        ∧ { c' with rdv := c.rdv, slices := c.slices } = c)
    ∧ (16 ≤ c.rdv.length →
        exec (.split f) s = .next (s.taken.raiseAll iss.crew iss.slices (iss.trap 0x0A 0 0))))
    ∧ (∀ (f : FmtA) (s : State) (iss : Issue) (c : Crew), s.issue = some iss → aget s.crews iss.crew = some c →
      let inner (i : Nat) : Option RdvRec := (c.rdv.filter fun r => mbit r.smask i && !mbit r.arr i).getLast?
      ∃ c', exec (.regang f) s = .next ((s.taken.setCrew iss.crew c').settle iss.crew)
        ∧ marked c c' (fun i r => i ∈ iss.slices ∧ (inner i).map (·.id) = some r.id)
        ∧ (∀ i, c'.slice i =
            if i ∈ iss.slices ∧ i < c.slices.length then
              match inner i with
              | none => { c.slice i with pc := (c.slice i).pc + BitVec.ofNat 64 iss.len, wait := .none }
              | some r => { c.slice i with wait := .regang r.id }
            else c.slice i)
        ∧ { c' with rdv := c.rdv, slices := c.slices } = c)
    ∧ (∀ (depth : BitVec 4) (f : FmtC) (s : State) (iss : Issue) (c : Crew),
      s.issue = some iss → aget s.crews iss.crew = some c →
      ∃ c', exec (.leave depth f) s = .next ((s.taken.setCrew iss.crew c').settle iss.crew)
        ∧ marked c c' (fun i r => i ∈ iss.slices
            ∧ ∃ x ∈ (c.rdv.filter fun r => mbit r.smask i).drop depth.toNat, x.id = r.id)
        ∧ (∀ i, c'.slice i =
            if i ∈ iss.slices ∧ i < c.slices.length then { c.slice i with pc := targetOf iss f.off, wait := .none } else c.slice i)
        ∧ { c' with rdv := c.rdv, slices := c.slices } = c)
    ∧ (∀ (f : FmtA) (s : State) (iss : Issue) (c : Crew), s.issue = some iss → aget s.crews iss.crew = some c →
      ∃ c', (exec (.exit f) s = .next
            (let u := (s.taken.setCrew iss.crew c').sliceRetired iss.crew
             ((if c'.live = 0 then u.crewRetired iss.crew else u).deliverPending iss.crew).settle iss.crew))
        ∧ (c'.live ≠ 0 → c.gridArr = [] → (∀ i, (c.slice i).pend = none) →
            exec (.exit f) s = .next ((s.taken.setCrew iss.crew c').settle iss.crew))
        ∧ (∀ l, l < 32 → mbit c'.live l = (mbit c.live l && !(decide (l / 4 ∈ iss.slices) && mbit c.exec l)))
        ∧ (∀ l, l < 32 → mbit c'.exec l = (mbit c.exec l && !decide (l / 4 ∈ iss.slices)))
        ∧ (∀ i, c'.slice i =
            if i ∈ iss.slices ∧ i < c.slices.length ∧ sliceBits c'.live i ≠ 0 then
              { c.slice i with pc := (c.slice i).pc + BitVec.ofNat 64 iss.len
                               wait := match (c.slice i).wait with | .reply g => .reply g | _ => .none }
            else c.slice i)
        ∧ (c.handler = none → c'.handler = none)
        ∧ (∀ h, c.handler = some h → c'.handler = if sliceBits c'.live h.slice ≠ 0 then some h else none)
        ∧ { c' with live := c.live, exec := c.exec, slices := c.slices, handler := c.handler } = c)
    ∧ (∀ c : Crew,
      let done (r : RdvRec) : Prop :=
        ∀ i, i < 8 → mbit r.smask i = true → mbit r.arr i = true ∨ sliceBits c.live i = 0
      let c' := settleRdv c
      (∀ r, r ∈ c'.rdv ↔ r ∈ c.rdv ∧ ¬done r)
        ∧ (∀ i, i < c.slices.length →
            ((c.slice i).pend = none → (∃ r ∈ c.rdv, done r ∧ (c.slice i).wait = .regang r.id) →
                c'.slice i = { c.slice i with pc := (c.slice i).pc + 4, wait := .none })
            ∧ ((c.slice i).pend ≠ none ∨ (∀ r ∈ c.rdv, done r → (c.slice i).wait ≠ .regang r.id) → c'.slice i = c.slice i))
        ∧ { c' with rdv := c.rdv, slices := c.slices } = c)

/-- A gang that reaches SHFL, VOTE, MATCH, REDUX, SCAN or IDEM before every live slice of its crew waits there, and so it
does while a slice runs its handler (log 62) and where the crew is frozen. When every live slice is there: each active lane
gets from SHFL the value that lane B mod 32 (mod 4 on a service thread) held; from MATCH the mask of the active lanes with
an equal value; from REDUX the combination of all active lanes and from SCAN of those up to it (below it with bit 3 of B),
for integer types by folding the operation over them from its identity, for floating types by the node of level 5 of the
tree of R118: a node of level 0 is a lane, absent where it does not take part; a node combines its two children (ADD rounds
once, MIN and MAX follow R111; O57 states these), or is the one that is present; an absent root gives +0, +∞ or −∞, and a
NaN the canonical one. VOTE puts ALL or ANY into the bits of the active lanes of the predicate D and 0 elsewhere, BALLOT the
mask into the uniform register D. IDEM records the PC, s0 to s31, the live lanes and the held tile; IDEMEND drops the
record. The live slices go on and the rendezvous is settled; nothing else changes. -/
def Obligations.CrossSliceRunsOnceForTheCrew : Prop :=
  let here (c : Crew) (iss : Issue) : Prop :=
    c.handler = none ∧ c.frozen = none ∧ c.slices.length = 8 ∧ (∀ i ∈ iss.slices, i ∈ c.liveSlices) ∧ ∀ i ∈ c.liveSlices,
      (c.slice i).pc = iss.pc ∧ (c.slice i).pend = none ∧ (i ∈ iss.slices ∨ (c.slice i).wait = .cross)
  let runs (i : Instr) (s s1 : State) (iss : Issue) (c : Crew) (d : VOp) (ops : List VOp) (val : Nat → List Word) : Prop :=
    here c iss → (∀ i ∈ c.liveSlices, c.nameFault i ops = none) →
    ∃ c', exec i s = .next ((s1.setCrew iss.crew c').settle iss.crew)
      ∧ c.VecWritten c' (c.activeIn c.liveSlices) d val ∧ c'.flags = c.flags
      ∧ c.OffsetsMoved c' (c.activeIn c.liveSlices) ops ∧ c.Moved c' c.liveSlices iss.len ∧ c.SameButVec c'
  (∀ (f : FmtA) (s s1 : State) (iss : Issue) (c : Crew) (kc : Option Konst),
    s.issue = some iss → s.ReadsConst iss f.k f.b s1 kc → aget s1.crews iss.crew = some c →
    let t := Ty.ofCode .b32 f.p.dt
    let a : VOp := { pos := 1, field := f.a.toNat, n := t.regs }
    let b := srcOf (f.cl == 0) 2 f.b 1 kc
    let d : VOp := { pos := 0, field := f.d.toNat, n := t.regs }
    runs (.shfl f) s s1 iss c d ([d, a] ++ vopsOf [b]) fun l => (List.range t.regs).map fun i =>
      c.vreg (c.phys a l i) (b.read c .ui32 l % if c.isService then 4 else 32))
    ∧ (∀ (f : FmtA) (s : State) (iss : Issue) (c : Crew), s.issue = some iss → aget s.crews iss.crew = some c →
      let t := Ty.ofCode .b32 f.p.dt
      let a : VOp := { pos := 1, field := f.a.toNat, n := t.regs }
      let d : VOp := { pos := 0, field := f.d.toNat, n := 1 }
      ∃ m : Nat → Word, (∀ l j, j < 32 → mbit (m l) j = (mbit c.exec j && c.vnat a j == c.vnat a l))
        ∧ runs (.matchEq f) s s.taken iss c d [d, a] fun l => [m l])
    ∧ (∀ (scan : Bool) (f : FmtA) (s : State) (iss : Issue) (c : Crew),
      s.issue = some iss → aget s.crews iss.crew = some c →
      let sees (l m : Nat) : Bool := !scan || (if 8 ≤ f.b.toNat then decide (m < l) else decide (m ≤ l))
      let t := Ty.ofCode .si32 f.p.dt
      let op := f.b.toNat % 8
      let a : VOp := { pos := 1, field := f.a.toNat, n := t.regs }
      let d : VOp := { pos := 0, field := f.d.toNat, n := t.regs }
      let x (m : Nat) : Nat := c.vnat a m % 2 ^ t.width
      let seen (l : Nat) : List Nat := lanes32.filter fun m => mbit c.exec m && sees l m
      ∃ r : Nat → Nat,
        (∀ l, t.fmt = none →
          r l = ((seen l).map x).foldl
            (fun u v =>
              match op with
              | 0 => (u + v) % 2 ^ t.width
              | 1 => if t.intVal u ≤ t.intVal v then u else v
              | 2 => if t.intVal v ≤ t.intVal u then u else v
              | 3 => u &&& v
              | 4 => u ||| v
              | _ => u ^^^ v)
            (identityOf op t))
        ∧ (∀ (l : Nat) (m : Fmt), t.fmt = some m → ∃ node : Nat → Nat → Option Nat,
            (∀ i, i < 32 → node 0 i = if mbit c.exec i && sees l i then some (x i) else none)
              ∧ (∀ k i, node (k + 1) i =
                  match node k (2 * i), node k (2 * i + 1) with
                  | some u, some v => some (
                      match op with
                      | 0 => (fadd m (modeOf f) (m.value u) (m.value v)).code
                      | 1 => fminmax m false u v
                      | _ => fminmax m true u v)
                  | some u, none => some u
                  | none, v => v)
              ∧ (let y : Nat :=
                  match node 5 0, op with
                  | some u, _ => u
                  | none, 0 => 0
                  | none, 1 => infCode m false
                  | none, _ => infCode m true
                 r l = if m.value y = .nan then m.canon else y))
        ∧ runs (if scan then .scan f else .redux f) s s.taken iss c d [d, a] fun l => wordsOf (r l) t.regs)
    ∧ (∀ (f : FmtA) (s : State) (iss : Issue) (c : Crew), s.issue = some iss → aget s.crews iss.crew = some c → here c iss →
      let set (l : Nat) : Bool := mbit c.exec l && decide (l / 4 ∈ c.liveSlices)
      let ok (l : Nat) : Bool := f.d != 16 || (mbit c.live l && !mbit c.off l)
      let yes : Prop :=
        if f.cl = 0 then ∀ l, l < 32 → set l = true → mbit (c.pred f.a.toNat) l = true
        else ∃ l, l < 32 ∧ set l = true ∧ mbit (c.pred f.a.toNat) l = true
      ∃ c', exec (.vote f) s = .next ((s.taken.setCrew iss.crew c').settle iss.crew)
        ∧ (f.cl = 2 → (∀ l, l < 64 → mbit (c'.sreg f.d.toNat) l = (decide (l < 32) && set l && mbit (c.pred f.a.toNat) l))
            ∧ (∀ q, q ≠ f.d.toNat → c'.sreg q = c.sreg q) ∧ ∀ q, q ≤ 16 → c'.pred q = c.pred q)
        ∧ (f.cl ≠ 2 → f.d ≤ 16 →
            (∀ l, l < 32 → (mbit (c'.pred f.d.toNat) l = true ↔ set l = true ∧ ok l = true ∧ yes))
            ∧ (∀ q, q ≤ 16 → q ≠ f.d.toNat → c'.pred q = c.pred q) ∧ ∀ q, c'.sreg q = c.sreg q)
        ∧ c.Moved c' c.liveSlices iss.len
        ∧ { c' with sregs := c.sregs, preds := c.preds, exec := c.exec, slices := c.slices } = c)
    ∧ (∀ (f : FmtA) (s : State) (iss : Issue) (c : Crew), s.issue = some iss → aget s.crews iss.crew = some c → here c iss →
      ∃ (c' : Crew) (r : IdemRec), exec (.idem f) s = .next ((s.taken.setCrew iss.crew c').settle iss.crew)
        ∧ c'.idem = some r ∧ r.pc = iss.pc ∧ r.live = c.live ∧ r.tile = c.tile ∧ r.took = []
        ∧ (∀ q, sget r.sregs q = if q < 32 then c.sreg q else 0)
        ∧ c.Moved c' c.liveSlices iss.len ∧ { c' with idem := c.idem, slices := c.slices } = c)
    ∧ (∀ (f : FmtA) (s : State) (iss : Issue) (c : Crew), s.issue = some iss → aget s.crews iss.crew = some c →
      ∃ c', OnlyCrew (.idemend f) s s.taken iss.crew c' ∧ c'.idem = none ∧ c.Moved c' iss.slices iss.len
        ∧ { c' with idem := c.idem, slices := c.slices } = c)
    ∧ (∀ (i : Instr) (f : FmtA) (s : State) (iss : Issue) (c : Crew), s.issue = some iss → aget s.crews iss.crew = some c →
      f.k = 0 → i ∈ [.shfl f, .vote f, .matchEq f, .redux f, .scan f, .idem f] →
      c.slices.length = 8 →
      (c.handler ≠ none ∨ c.frozen ≠ none ∨ ∃ j ∈ c.liveSlices, j ∉ iss.slices ∧ (c.slice j).wait ≠ .cross) →
      ∃ c', exec i s = .next ((s.taken.setCrew iss.crew c').settle iss.crew)
        ∧ (∀ j, c'.slice j = if j ∈ iss.slices ∧ j < 8 then { c.slice j with wait := .cross } else c.slice j)
        ∧ { c' with slices := c.slices } = c)

/-- LD and LDS run a gang slice by slice, in increasing order, each slice as it would run alone in the state that those
before it have left (SliceBySlice, R72). LD, for one slice whose names, alignment, translation and routes pass and whose
acquire need not wait: the lanes' reads on this module are performed in increasing lane order, each by the read of its
location (O30), with an acquire at outing scope or wider at its home, after which the core's replicas are dropped (acquire);
none changes a byte but what a translation marks and a sector that is filled. With no lane on another device every active
lane holds in D its bytes extended as SZ says; a violating lane keeps its destination and is switched off, POST index
registers advance, the slice moves on and no other crew state changes. Else one read for each lane on another device is sent
after them, registers stay, and the slice goes past the LD to wait for the replies (a flight; O48 says how it lands). LDS,
for the whole gang and no acquire: the bytes are those of memory at each lane's scratchpad address, and the state differs in
the crew alone. Misaligned lanes trap ALIGN with their mask. -/
def Obligations.LoadsWriteLoadedValues : Prop :=
  let bytesOf (out : List (LaneTgt × List Byte)) (l : Nat) : List Byte :=
    ((out.find? fun x => x.1.lane == l).map (·.2)).getD []
  let reads (c : Crew) (n : Nat) (p : Prefix) (out : Nat → List Byte) (s : State) (x : LaneTgt) (t : State) : Prop :=
    let s1 := s.touchLane c x false
    let site := s.site c
    ((isWide p && isAcquire p) = false → (t, out x.lane) = s1.readTgt site x.tgt n false)
      ∧ ((isWide p && isAcquire p) = true →
          (∀ pfn q off leaf, x.tgt = .paged pfn q off leaf →
            let r := (s1.mergeSector site pfn off).readTgt site x.tgt n true
            t = (r.1.refillSector site pfn off).acquire c x.tgt ∧ out x.lane = r.2)
          ∧ ((∀ pfn q off leaf, x.tgt ≠ .paged pfn q off leaf) →
              let r := s1.readTgt site x.tgt n true
              t = r.1.acquire c x.tgt ∧ out x.lane = r.2))
      ∧ ((isWide p && isAcquire p) = false →
          ∀ a, ¬s.Marks c x a → ¬s1.Fills site x.tgt a → t.memRead a 1 = s.memRead a 1)
  (∀ (f : FmtM) (s : State) (iss : Issue) (c : Crew) (i : Nat) (tg : Nat → Tgt),
    s.issue = some iss → aget s.crews iss.crew = some c → iss.slices = [i] →
    let n := szBytes f.sz
    let d := memData f
    let ops := [d] ++ memOps f false
    let addr := memAddr f false c
    let l := c.laneTgts i addr tg
    let bad (m : Nat) : Bool := (tg m).violates
    let far := l.filter fun x => x.tgt.remote
    let near := l.filter fun x => !x.tgt.violates && !x.tgt.remote
    c.Reaches s.taken i ops n addr (fun a => s.taken.access c a n .read) tg (atMasterOf f.p) → (c.slice i).group = none →
    s.MayAcquire c f.p (l.map (·.tgt)) → s.MayRelease iss c f.p (c.exec &&& sliceMask i) →
    ∃ (u v : State) (out : List (LaneTgt × List Byte)),
      out.map (·.1) = near ∧ Steps (reads c n f.p (bytesOf out)) near s.taken u ∧ u.crews = s.crews
      ∧ Steps (fun s x t => t = s.touchLane c x false) far u v ∧ v.crews = s.crews
      ∧ ((∀ m ∈ c.activeOf i, (tg m).remote = false) →
        ∃ c', exec (.ld f) s = .next (u.setCrew iss.crew c')
          ∧ c.VecWritten c' ((c.activeOf i).filter fun m => !bad m) d
              (fun m => wordsOf (loadedValue f.sz (bytesOf out m) 32) (szRegs f.sz))
          ∧ c.Committed c' iss [i] ops bad)
      ∧ ((∃ m ∈ c.activeOf i, (tg m).remote = true) → 0 < s.nextId →
        ∃ (c' : Crew) (fl : Flight),
          exec (.ld f) s = .next (State.setCrew { v with
            nextId := v.nextId + 1 + far.length
            requests := v.requests
              ++ far.zipIdx.map (fun (x, j) => { x.request iss.crew n with id := v.nextId + 1 + j, group := v.nextId, since := v.time })
              ++ out.map (fun x => { x.1.request iss.crew n with group := v.nextId, data := some x.2 })
            outbox := v.outbox ++ far.zipIdx.map fun (x, j) => readMsg n x (v.nextId + 1 + j) } iss.crew c')
          ∧ c'.flights = c.flights ++ [fl] ∧ fl.group = v.nextId ∧ fl.sz = f.sz ∧ fl.uni = [] ∧ fl.eret = false
          ∧ fl.drop = (isWide f.p && isAcquire f.p)
          ∧ fl.lanes = ((l.filter fun x => !x.tgt.violates).map fun x =>
              { lane := x.lane, regs := (List.range d.n).map (c.phys d x.lane), code := none })
          ∧ (∀ m, m < 32 → mbit fl.off m = (decide (m ∈ c.activeOf i) && bad m))
          ∧ (∀ x m v, (x, m, v) ∈ fl.offs ↔ x < 8 ∧ m ∈ c.activeOf i ∧ ops.any (fun o => o.index == some x)
              ∧ xPost (c.xreg x) = true ∧ v = nextOfs (c.xreg x) (c.ofs x m))
          ∧ (∀ j, c'.slice j = if j = i ∧ i < c.slices.length then
              { c.slice i with pc := (c.slice i).pc + BitVec.ofNat 64 iss.len, wait := .reply v.nextId } else c.slice j)
          ∧ { c' with flights := c.flights, slices := c.slices } = c))
    ∧ (∀ (f : FmtM) (s : State) (iss : Issue) (c : Crew) (tg : Nat → Tgt),
      s.issue = some iss → aget s.crews iss.crew = some c →
      (isWide f.p && isAcquire f.p) = false → (isWide f.p && isRelease f.p) = false →
      let n := szBytes f.sz
      let ops := [memData f] ++ memOps f true
      let a := memAddr f true c
      (∀ i ∈ iss.slices, c.Reaches s.taken i ops n a (fun x => .ok (s.taken.scratchTgt c x n)) tg false
        ∧ (c.slice i).group = none) →
      ∃ c', OnlyCrew (.lds f) s s.taken iss.crew c'
        ∧ c.VecWritten c' ((c.activeIn iss.slices).filter fun m => !(tg m).violates) (memData f)
            (fun m => wordsOf (loadedValue f.sz (match tg m with | .scratch x _ => s.memRead x n | _ => []) 32) (szRegs f.sz))
        ∧ c.Committed c' iss iss.slices ops fun m => (tg m).violates)
    ∧ (∀ (scratch : Bool) (f : FmtM) (s : State) (iss : Issue) (c : Crew) (i m : Nat) (rest : List Nat),
      s.issue = some iss → aget s.crews iss.crew = some c → iss.slices = [i] →
      c.nameFault i ([memData f] ++ memOps f scratch) = none → (c.slice i).group = none →
      (c.activeOf i).filter (fun l => memAddr f scratch c l % szBytes f.sz ≠ 0) = m :: rest →
      exec (if scratch then .lds f else .ld f) s =
        .next (s.taken.raise iss.crew i (iss.trap 0x05 ((m :: rest).foldl (fun x l => x + 2 ^ l) 0) (memAddr f scratch c m))))
    ∧ (∀ f : FmtM, SliceBySlice (.ld f) ∧ SliceBySlice (.lds f))

/-- ST and STS run a gang slice by slice, in increasing order, each slice as it would run alone in the state that those
before it have left (SliceBySlice, R72). ST, for one slice whose names, alignment, translation and routes pass and that need
not wait before a release: exec answers the state after the stores of its active lanes in increasing lane order, each of its
data register's low bytes at the location of its address, by the write of the location (O30); no step changes a byte outside
the location but what its translation marks and a sector that is filled. A release at outing scope or wider writes at the
home, after the drain where it is eager, and leaves its record (leaveRecord). A store to another device sends one write
whose acceptance is awaited. Violating lanes store nothing and are switched off, POST index registers advance and the slice
moves on. STS, for the whole gang and no release at outing scope or wider: a byte of memory inside a lane's span holds that
lane's byte, the highest-numbered lane's where several store it, every byte outside all spans is as before, and nothing but
the crew and memory changes. Misaligned lanes trap ALIGN and store nothing. Where a lane of ST cannot be reached, the lowest
such lane decides: LINKCUT where its home is cut, else a wait for a route (R258), and nothing is stored. A release waits for
its lanes' earlier accesses; at system scope one whose earlier write was lost traps FABRIC once. -/
def Obligations.StoresWriteComputedAddresses : Prop :=
  let writes (k : Nat) (c : Crew) (p : Prefix) (data : Nat → List Byte) (s : State) (x : LaneTgt) (t : State) : Prop :=
    let s1 := s.touchLane c x true
    let site := s.site c
    let bs := data x.lane
    (x.tgt.violates = true → t = s)
      ∧ (∀ ep page off, x.tgt = .fabric ep page off →
          let s2 := if isWide p && isRelease p then s1.mergeRange site c.tenant (guardOf c p) else s1
          t = { s2 with
            nextId := s2.nextId + 1
            requests := s2.requests ++ [{ x.request k bs.length with
              id := s2.nextId, group := s2.nextId, since := s2.time, store := true }]
            outbox := s2.outbox ++ [.stodorWrite ep page off bs s2.nextId] })
      ∧ (x.tgt.violates = false → x.tgt.remote = false → (isWide p && isRelease p) = false →
          t = s1.writeTgt site x.tgt bs false
          ∧ (∀ a, s1.cellOf site x.tgt = some a →
              (∀ pfn q off l, x.tgt = .paged pfn q off l → off < 4096 ∧ off % 256 + bs.length ≤ 256) → t.memRead a bs.length = bs)
          ∧ ∀ b, ¬s.Marks c x b → ¬s1.Fills site x.tgt b →
              (∀ a, s1.cellOf site x.tgt = some a → b < a ∨ a + bs.length ≤ b) → t.memRead b 1 = s.memRead b 1)
      ∧ (x.tgt.violates = false → x.tgt.remote = false → (isWide p && isRelease p) = true →
          let eager := s1.eager c x.tgt p
          let s2 := if eager then s1.mergeRange site c.tenant (guardOf c p) else s1
          ∃ s3, (∀ pfn q off l, x.tgt = .paged pfn q off l →
                s3 = ((s2.mergeSector site pfn off).writeTgt site x.tgt bs true).refillSector site pfn off)
            ∧ ((∀ pfn q off l, x.tgt ≠ .paged pfn q off l) → s3 = s2.writeTgt site x.tgt bs true)
            ∧ (∀ g, x.tgt.granule = some g → t = s3.leaveRecord c g (guardOf c p) (!eager || !x.tgt.framed))
            ∧ (x.tgt.granule = none → t = s3))
  (∀ (f : FmtM) (s : State) (iss : Issue) (c : Crew) (i : Nat) (tg : Nat → Tgt),
    s.issue = some iss → aget s.crews iss.crew = some c → iss.slices = [i] →
    s.MayRelease iss c f.p (c.exec &&& sliceMask i) →
    let n := szBytes f.sz
    let ops := [memData f] ++ memOps f false
    c.Reaches s.taken i ops n (memAddr f false c) (fun a => s.taken.access c a n .write) tg (atMasterOf f.p) →
    (c.slice i).group = none →
    ∃ (u : State) (c' : Crew),
      Steps (writes iss.crew c f.p fun m => leBytes (c.vnat (memData f) m) n) (c.laneTgts i (memAddr f false c) tg) s.taken u
      ∧ u.crews = s.crews ∧ exec (.st f) s = .next (u.setCrew iss.crew c')
      ∧ c.Committed c' iss [i] ops (fun m => (tg m).violates) ∧ c'.vregs = c.vregs)
    ∧ (∀ (f : FmtM) (s : State) (iss : Issue) (c : Crew) (tg : Nat → Tgt),
      s.issue = some iss → aget s.crews iss.crew = some c → (isWide f.p && isRelease f.p) = false →
      let n := szBytes f.sz
      let ops := [memData f] ++ memOps f true
      let a := memAddr f true c
      (∀ i ∈ iss.slices, c.Reaches s.taken i ops n a (fun x => .ok (s.taken.scratchTgt c x n)) tg false
        ∧ (c.slice i).group = none) →
      let stores (m x : Nat) : Prop := m ∈ c.activeIn iss.slices ∧ ∃ b peer, tg m = .scratch b peer ∧ b ≤ x ∧ x < b + n
      ∃ (t : State) (c' : Crew), exec (.sts f) s = .next t ∧ { t with mem := s.mem } = s.taken.setCrew iss.crew c'
        ∧ (∀ m b peer j, m ∈ c.activeIn iss.slices → tg m = .scratch b peer → j < n →
            (∀ m', m < m' → ¬stores m' (b + j)) →
            t.memRead (b + j) 1 = [(leBytes (c.vnat (memData f) m) n).getD j 0])
        ∧ (∀ x, (∀ m, ¬stores m x) → t.memRead x 1 = s.memRead x 1)
        ∧ c.Committed c' iss iss.slices ops (fun m => (tg m).violates) ∧ c'.vregs = c.vregs)
    ∧ (∀ (scratch : Bool) (f : FmtM) (s : State) (iss : Issue) (c : Crew) (i m : Nat) (rest : List Nat),
      s.issue = some iss → aget s.crews iss.crew = some c → iss.slices = [i] →
      c.nameFault i ([memData f] ++ memOps f scratch) = none → (c.slice i).group = none →
      (c.activeOf i).filter (fun l => memAddr f scratch c l % szBytes f.sz ≠ 0) = m :: rest →
      exec (if scratch then .sts f else .st f) s =
        .next (s.taken.raise iss.crew i (iss.trap 0x05 ((m :: rest).foldl (fun x l => x + 2 ^ l) 0) (memAddr f scratch c m))))
    ∧ (∀ (scratch : Bool) (f : FmtM) (s : State) (iss : Issue) (c : Crew) (i : Nat) (tg : Nat → Tgt),
      s.issue = some iss → aget s.crews iss.crew = some c → iss.slices = [i] → (isWide f.p && isRelease f.p) = true →
      let n := szBytes f.sz
      let lanes := c.exec &&& sliceMask i
      let run := exec (if scratch then .sts f else .st f) s
      c.Reaches s.taken i ([memData f] ++ memOps f scratch) n (memAddr f scratch c)
        (fun a => if scratch then .ok (s.taken.scratchTgt c a n) else s.taken.access c a n .write) tg true →
      (c.slice i).group = none →
      ((∃ r ∈ s.requests, r.crew = iss.crew ∧ r.op = none ∧ r.waits = true ∧ r.mask &&& lanes ≠ 0) →
        ∃ c', run = .next (s.taken.setCrew iss.crew c')
          ∧ (∀ j, c'.slice j = if j = i ∧ i < c.slices.length then { c.slice i with wait := .accepted lanes } else c.slice j)
          ∧ { c' with slices := c.slices } = c)
      ∧ (s.Performed iss.crew lanes → f.p.scope = 5 →
          ∀ x ∈ c.lost.find? (fun x => decide (x.1 / 4 = i) && mbit lanes x.1),
            run = .next ((s.taken.modCrew iss.crew fun c => { c with lost := c.lost.filter fun y => !(y.1 / 4 = i && y.2 == x.2) }).raise
              iss.crew i (iss.trap 0x15 x.2.toNat x.2.toNat))))
    ∧ (∀ f : FmtM, SliceBySlice (.st f) ∧ SliceBySlice (.sts f))
    ∧ (∀ (f : FmtM) (s : State) (iss : Issue) (c : Crew) (i : Nat) (tg : Nat → Tgt) (x : LaneTgt),
      s.issue = some iss → aget s.crews iss.crew = some c → iss.slices = [i] →
      let n := szBytes f.sz
      let a := memAddr f false c
      let most := atMasterOf f.p
      (c.slice i).group = none → s.MayRelease iss c f.p (c.exec &&& sliceMask i) →
      c.nameFault i ([memData f] ++ memOps f false) = none →
      (∀ l ∈ c.activeOf i, a l % n = 0 ∧ s.taken.access c (a l) n .write = .ok (tg l)) →
      (c.laneTgts i a tg).find? (fun y => s.taken.stuck (s.site c) y.tgt most) = some x →
      (s.taken.cutFrom (s.site c) x.tgt most = true →
        exec (.st f) s = .next (s.taken.raise iss.crew i (iss.trap 0x14 x.addr x.addr)))
      ∧ (∀ d, s.taken.cutFrom (s.site c) x.tgt most = false → s.taken.noRoute (s.site c) x.tgt most = some d →
        ∃ c', exec (.st f) s = .next (s.taken.setCrew iss.crew c')
          ∧ (∀ j, c'.slice j = if j = i ∧ i < c.slices.length then
              { c.slice i with
                wait := .route d (BitVec.ofNat 64 x.addr) (match (c.slice i).wait with | .route _ _ t => t | _ => s.time) }
            else c.slice j)
          ∧ { c' with slices := c.slices } = c))

/-- LDU, with its address aligned and its location reached, and no wait due before it: exec answers the state after one read
(at the home for an acquire at outing scope or wider), with s(D) the bytes read, zero- or sign-extended to 64 bits as SZ
says, for B128 s(D) and s(D+1), every other uniform register as it was, and the gang moved on; from another device, one read
is sent and the gang goes past the LDU to wait for the reply (a flight). STU answers the state after one store of the low
bytes of s(D) (for B128 of the pair) at its location, or one write sent to another device, with the crew unchanged but for
the PC. At a scratchpad location every byte of memory outside the span is as before. A violation leaves memory and registers
and switches off the live lanes of the gang. A misaligned address traps ALIGN in every slice of the gang, in increasing
order, with its live lanes. A release waits for the earlier accesses of the gang's live lanes. -/
def Obligations.UniformAccess : Prop :=
  (∀ (f : FmtM) (s : State) (iss : Issue) (c : Crew) (tgt : Tgt),
    s.issue = some iss → aget s.crews iss.crew = some c → iss.slices ≠ [] →
    let n := szBytes f.sz
    let a := memAddr f false c 0
    let lanes := c.live &&& slicesMask iss.slices
    let x : LaneTgt := { lane := ((List.range 32).find? (mbit lanes)).getD 0, addr := a, tgt := tgt }
    let s1 := s.taken.touchLane c x false
    let site := s.site c
    let home (r : State × List Byte → Prop) : Prop :=
      (∀ pfn q off l, tgt = .paged pfn q off l →
        let y := (s1.mergeSector site pfn off).readTgt site tgt n true
        r ((y.1.refillSector site pfn off).acquire c tgt, y.2))
      ∧ ((∀ pfn q off l, tgt ≠ .paged pfn q off l) → let y := s1.readTgt site tgt n true; r (y.1.acquire c tgt, y.2))
    a % n = 0 → s.taken.access c a n .read = .ok tgt → s.taken.stuck site tgt (atMasterOf f.p) = false → tgt.violates = false →
    s.MayAcquire c f.p [tgt] → s.MayRelease iss c f.p lanes →
    (tgt.remote = false →
      ∃ (u : State) (bs : List Byte) (c' : Crew),
        ((isWide f.p && isAcquire f.p) = false → (u, bs) = s1.readTgt site tgt n false)
        ∧ ((isWide f.p && isAcquire f.p) = true → home fun r => (u, bs) = r)
        ∧ u.crews = s.crews ∧ exec (.ldu f) s = .next (u.setCrew iss.crew c')
        ∧ (f.sz ≠ 4 → c'.sreg f.d.toNat = BitVec.ofNat 64 (loadedValue f.sz bs 64) ∧ ∀ q, q ≠ f.d.toNat → c'.sreg q = c.sreg q)
        ∧ (f.sz = 4 → c'.sreg f.d.toNat = BitVec.ofNat 64 (leNat bs) ∧ c'.sreg (f.d.toNat + 1) = BitVec.ofNat 64 (leNat bs / 2 ^ 64)
            ∧ ∀ q, q ≠ f.d.toNat → q ≠ f.d.toNat + 1 → c'.sreg q = c.sreg q)
        ∧ (∀ y peer, tgt = .scratch y peer → (isWide f.p && isAcquire f.p) = false → bs = s.memRead y n ∧ u = s.taken)
        ∧ c.Moved c' iss.slices iss.len ∧ { c' with sregs := c.sregs, pend := c.pend, slices := c.slices } = c)
    ∧ (∀ ep page off, tgt = .fabric ep page off → 0 < s.nextId →
      ∃ (c' : Crew) (fl : Flight),
        exec (.ldu f) s = .next (State.setCrew { s1 with
          nextId := s1.nextId + 2
          requests := s1.requests ++ [{ x.request iss.crew n with id := s1.nextId + 1, group := s1.nextId, since := s1.time }]
          outbox := s1.outbox ++ [.stodorRead ep page off n (s1.nextId + 1)] } iss.crew c')
        ∧ c'.flights = c.flights ++ [fl] ∧ fl.group = s1.nextId ∧ fl.sz = f.sz ∧ fl.lanes = [] ∧ fl.offs = [] ∧ fl.off = 0
        ∧ fl.uni = (if f.sz = 4 then [f.d.toNat, f.d.toNat + 1] else [f.d.toNat]) ∧ fl.eret = false
        ∧ fl.drop = (isWide f.p && isAcquire f.p)
        ∧ (∀ j, c'.slice j = if j ∈ iss.slices ∧ j < c.slices.length then
            { c.slice j with pc := (c.slice j).pc + BitVec.ofNat 64 iss.len, wait := .reply s1.nextId } else c.slice j)
        ∧ { c' with flights := c.flights, slices := c.slices } = c))
    ∧ (∀ (f : FmtM) (s : State) (iss : Issue) (c : Crew) (tgt : Tgt),
      s.issue = some iss → aget s.crews iss.crew = some c → iss.slices ≠ [] →
      let n := szBytes f.sz
      let a := memAddr f false c 0
      let lanes := c.live &&& slicesMask iss.slices
      let x : LaneTgt := { lane := ((List.range 32).find? (mbit lanes)).getD 0, addr := a, tgt := tgt }
      let s1 := s.taken.touchLane c x true
      let v := (c.sreg f.d.toNat).toNat + 2 ^ 64 * (c.sreg (f.d.toNat + 1)).toNat
      s.MayRelease iss c f.p lanes →
      a % n = 0 → s.taken.access c a n .write = .ok tgt → s.taken.stuck (s.site c) tgt (atMasterOf f.p) = false → tgt.violates = false →
      ∃ (u : State) (c' : Crew), u.crews = s.crews ∧ exec (.stu f) s = .next (u.setCrew iss.crew c')
        ∧ (tgt.remote = false → (isWide f.p && isRelease f.p) = false →
            u = s1.writeTgt (s.site c) tgt (leBytes v n) false
            ∧ ∀ b, ¬s.taken.Marks c x b → ¬s1.Fills (s.site c) tgt b →
              (∀ a, s1.cellOf (s.site c) tgt = some a → b < a ∨ a + n ≤ b) → u.memRead b 1 = s.memRead b 1)
        ∧ (tgt.remote = false → (isWide f.p && isRelease f.p) = true → u = s1.storeLane c tgt (leBytes v n) f.p)
        ∧ (∀ ep page off, tgt = .fabric ep page off →
            let s2 := if isWide f.p && isRelease f.p then s1.mergeRange (s.site c) c.tenant (guardOf c f.p) else s1
            u = { s2 with
              nextId := s2.nextId + 1
              requests := s2.requests ++ [{ x.request iss.crew n with
                id := s2.nextId, group := s2.nextId, mask := lanes, since := s2.time, store := true }]
              outbox := s2.outbox ++ [.stodorWrite ep page off (leBytes v n) s2.nextId] })
        ∧ (∀ y peer, tgt = .scratch y peer → (isWide f.p && isRelease f.p) = false →
            u.memRead y n = leBytes v n ∧ (∀ b, b < y ∨ y + n ≤ b → u.memRead b 1 = s.memRead b 1)
              ∧ { u with mem := s.mem } = s.taken)
        ∧ c.Moved c' iss.slices iss.len ∧ { c' with slices := c.slices } = c)
    ∧ (∀ (store : Bool) (f : FmtM) (s : State) (iss : Issue) (c : Crew),
      s.issue = some iss → aget s.crews iss.crew = some c → iss.slices ≠ [] →
      let n := szBytes f.sz
      let a := memAddr f false c 0
      let lanes := c.live &&& slicesMask iss.slices
      let i : Instr := if store then .stu f else .ldu f
      (s.MayRelease iss c f.p lanes → a % n = 0 → s.taken.access c a n (if store then .write else .read) = .ok .violation →
        ∃ c', OnlyCrew i s s.taken iss.crew c'
          ∧ (∀ l, l < 32 → mbit c'.off l = (mbit c.off l || mbit lanes l) ∧ mbit c'.exec l = (mbit c.exec l && !mbit lanes l))
          ∧ c.Moved c' iss.slices iss.len ∧ { c' with off := c.off, exec := c.exec, slices := c.slices } = c)
      ∧ (a % n ≠ 0 → exec i s = .next (iss.slices.foldl (fun u j =>
            u.raise iss.crew j (iss.trap 0x05 (c.live &&& sliceMask j).toNat a)) s.taken))
      ∧ (∀ tgt, a % n = 0 → s.taken.access c a n (if store then .write else .read) = .ok tgt →
          (isWide f.p && isRelease f.p) = true →
          (∃ r ∈ s.requests, r.crew = iss.crew ∧ r.op = none ∧ r.waits = true ∧ r.mask &&& lanes ≠ 0) →
          ∃ c', OnlyCrew i s s.taken iss.crew c'
            ∧ (∀ j, c'.slice j =
                if j ∈ iss.slices ∧ j < c.slices.length then { c.slice j with wait := .accepted lanes } else c.slice j)
            ∧ { c' with slices := c.slices } = c))

/-- An access of a core to scratchpad, DRAM, host memory or a FRAMED page, within one sector: a store puts its bytes at the
location, which is the core's replica where it holds one, else the page's master, and a load after it returns them; every
byte outside is as before, but for a sector of a frame that was absent and is filled first. A store to a replica marks the
bytes dirty. A store or load outside memory changes no byte: a FABRIC store sends its write, an MMIO store its write, an
MMIO load its read with a free value. A load changes no byte but by filling. -/
def Obligations.AccessesAtTheirPlace : Prop :=
  (∀ (s : State) (site : CacheId) (tgt : Tgt) (bs : List Byte) (a : Nat),
    s.cellOf site tgt = some a →
    (∀ pfn p off l, tgt = .paged pfn p off l → off < 4096 ∧ off % 256 + bs.length ≤ 256) →
    (s.writeTgt site tgt bs false).memRead a bs.length = bs
      ∧ ((s.writeTgt site tgt bs false).readTgt site tgt bs.length false).2 = bs
      ∧ (∀ x, ¬(a ≤ x ∧ x < a + bs.length) → ¬s.Fills site tgt x →
          (s.writeTgt site tgt bs false).memRead x 1 = s.memRead x 1)
      ∧ (s.writeTgt site tgt bs false).cellOf site tgt = some a)
    ∧ (∀ (s : State) (site : CacheId) (tgt : Tgt) (n a : Nat), s.cellOf site tgt = some a →
      (s.readTgt site tgt n false).2 = (s.readTgt site tgt n false).1.memRead a n
        ∧ (∀ x, ¬s.Fills site tgt x → (s.readTgt site tgt n false).1.memRead x 1 = s.memRead x 1)
        ∧ { (s.readTgt site tgt n false).1 with mem := s.mem, pages := s.pages, bankUse := s.bankUse, drowsy := s.drowsy } = s)
    ∧ (∀ (s : State) (d k pfn : Nat) (p : Placement) (off l : Nat) (bs : List Byte) (x : Replica),
      (s.page pfn).replicaIn d k = some x →
      ∃ y, ((s.writeTgt (.core d k) (.paged pfn p off l) bs false).page pfn).replicaIn d k = some y
        ∧ ∀ o, o ∈ y.dirty ↔ o ∈ x.dirty ∨ (off ≤ o ∧ o < off + bs.length))
    ∧ (∀ (s : State) (site : CacheId) (ep page off pa n : Nat) (bs : List Byte) (m : Bool),
      s.writeTgt site .violation bs m = s
        ∧ s.writeTgt site (.mmio pa) bs m = { s with outbox := s.outbox ++ [.mmioWrite pa bs] }
        ∧ s.writeTgt site (.fabric ep page off) bs m = { s with outbox := s.outbox ++ [.stodorWrite ep page off bs 0] }
        ∧ s.readTgt site (.mmio pa) n m = ({ s with outbox := s.outbox ++ [.mmioRead pa n], free := s.free + 2 },
            leBytes ((Config.freeValue s.free).toNat + 2 ^ 64 * (Config.freeValue (s.free + 1)).toNat) n))

/-- Each runs a gang slice by slice, in increasing order, each slice as it would run alone in the state that those before it
have left (SliceBySlice, R72). For one slice whose names, alignment, translation and places pass, each of the five answers
the state after its lanes' operations on this module or at the host in increasing lane order; every such lane that does not
violate gets its result in D (RED: no register changes) and its location's code in ATLOC, violating lanes are switched off,
and the slice moves on. A RED on another device sends its operation and commits at once; any other one sends them and goes
past the instruction to wait for the replies (a flight). A lane's operation, wide or not, gives as its result the value that
the location held at its home and leaves there the new value (a compare and swap only where the value equals the compare
operand; a lock operation its 1 or 0, and the word changed where it succeeds), after the drain of an eager release and
before the drains of an acquire; on a FRAMED page the core's own next load reads the new value. The new value of a floating
ADD is the sum rounded by RN (O57), of MIN and MAX that of R111. Where a lane's home is cut, an instruction that returns
values performs its other lanes, marks the cut lanes as failed and waits for the end of the flight, which traps LINKCUT and
writes nothing (O48); a RED traps LINKCUT in the slice before any of its lanes is performed. A place that does not carry the
operation traps ATOM_UNSUP, a refused probe ATOM_UR. -/
def Obligations.AtomicsUpdateAtTheirPlace : Prop :=
  let forms (f : FmtA) : List (Instr × AtomForm) :=
    let op := f.op3.toNat
    [(.atom f, { kind := .rmw op (atomTy op f.p.dt), addrRegs := 2, returns := true, scratch := false }),
      (.red f, { kind := .rmw op (atomTy op f.p.dt), addrRegs := 2, returns := false, scratch := false }),
      (.acas f, { kind := .cas (Ty.ofCode .b32 f.p.dt), addrRegs := 2, returns := true, scratch := false }),
      (.atoms f, { kind := if op = 7 then .cas (Ty.ofCode .b32 f.p.dt) else .rmw op (atomTy op f.p.dt)
                   addrRegs := 1, returns := true, scratch := true }),
      (.rwl f, { kind := .lock op, addrRegs := 2, returns := true, scratch := false })]
  let data (fm : AtomForm) (f : FmtA) : VOp := { pos := 0, field := f.d.toNat, n := fm.kind.regs.1 }
  let target (fm : AtomForm) (_ : FmtA) (s : State) (c : Crew) (a : Nat) : Xlat :=
    if fm.scratch then .ok (s.scratchTgt c a fm.kind.size) else s.access c a fm.kind.size .write
  let performs (fm : AtomForm) (f : FmtA) (c : Crew) (out : Nat → Nat) (s : State) (x : LaneTgt) (t : State) : Prop :=
    let v := c.vnat (data fm f) x.lane
    if x.tgt.violates || x.tgt.remote then t = s
    else (t, out x.lane) = ((s.touchLane c x true).toHost fm.kind x.tgt v).atomLane c x.tgt fm.kind v f.p
  let leaves (f : FmtA) (c : Crew) (s : State) (x : LaneTgt) (t : State) : Prop :=
    t = if isWide f.p && isRelease f.p then (s.touchLane c x true).mergeRange (s.site c) c.tenant (guardOf c f.p)
      else s.touchLane c x true
  let sends (k : Nat) (fm : AtomForm) (f : FmtA) (c : Crew) (s : State) (x : LaneTgt) (t : State) : Prop :=
    ∃ u, leaves f c s x u ∧ t = { u with
      nextId := u.nextId + 1
      requests := u.requests ++ [{ x.request k fm.kind.size with
        id := u.nextId, group := u.nextId, since := u.time, store := true, told := false }]
      outbox := u.outbox ++ [atomMsg fm.kind (c.vnat (data fm f) x.lane) x.tgt u.nextId] }
  (∀ (f : FmtA) (i : Instr) (fm : AtomForm) (s : State) (iss : Issue) (c : Crew) (j : Nat) (tg : Nat → Tgt), (i, fm) ∈ forms f →
    s.issue = some iss → aget s.crews iss.crew = some c → iss.slices = [j] →
    let n := fm.kind.size
    let r : VOp := { pos := 0, field := f.d.toNat, n := fm.kind.regs.2 }
    let ops : List VOp := [data fm f, atomOp f fm.addrRegs]
    let l := c.laneTgts j (atomAddr f fm.addrRegs n c) tg
    let good := (c.activeOf j).filter fun m => !(tg m).violates
    let far := l.filter fun x => x.tgt.remote
    let waits := fm.returns || isAcquire f.p
    (c.slice j).group = none → s.MayRelease iss c f.p (c.exec &&& sliceMask j) → s.MayAcquire c f.p (l.map (·.tgt)) →
    c.Reaches s.taken j ops n (atomAddr f fm.addrRegs n c) (target fm f s.taken c) tg true →
    (∀ m ∈ c.activeOf j, fm.kind.unsupported (tg m) = none) → hostRefuses fm.kind l = none →
    ∃ (u v : State) (out : Nat → Nat) (c' : Crew),
      Steps (performs fm f c out) l (s.taken.probeHost l) u ∧ u.crews = s.crews ∧ v.crews = s.crews
      ∧ ((waits = true → ∀ m ∈ c.activeOf j, (tg m).remote = false) →
          Steps (sends iss.crew fm f c) far u v ∧ exec i s = .next (v.setCrew iss.crew c')
          ∧ (fm.returns = true → c.VecWritten c' good r fun m => wordsOf (out m) fm.kind.regs.2)
          ∧ (fm.returns = false → c'.vregs = c.vregs)
          ∧ (∀ m, sget c'.atloc m = if m ∈ good then BitVec.ofNat 4 (atLoc (cacheDie (s.site c)) (tg m)) else sget c.atloc m)
          ∧ c.Committed c' iss [j] ops fun m => (tg m).violates)
      ∧ (waits = true → (∃ m ∈ c.activeOf j, (tg m).remote = true) → 0 < s.nextId →
          Steps (leaves f c) far u v ∧ ∃ fl : Flight,
          exec i s = .next (State.setCrew { v with
            nextId := v.nextId + 1 + far.length
            requests := v.requests
              ++ far.zipIdx.map (fun (x, h) => { x.request iss.crew n with id := v.nextId + 1 + h, group := v.nextId, since := v.time })
              ++ (l.filter fun x => !x.tgt.violates && !x.tgt.remote).map
                  (fun x => { x.request iss.crew n with group := v.nextId, data := some (leBytes (out x.lane) n) })
            outbox := v.outbox ++ far.zipIdx.map fun (x, h) =>
              atomMsg fm.kind (c.vnat (data fm f) x.lane) x.tgt (v.nextId + 1 + h) } iss.crew c')
          ∧ c'.flights = c.flights ++ [fl] ∧ fl.group = v.nextId ∧ fl.uni = [] ∧ fl.eret = false
          ∧ fl.drop = (isWide f.p && isAcquire f.p)
          ∧ fl.lanes = good.map (fun m =>
              { lane := m, regs := if fm.returns then (List.range fm.kind.regs.2).map (c.phys r m) else []
                code := some (atLoc (cacheDie (s.site c)) (tg m)) })
          ∧ (∀ m, m < 32 → mbit fl.off m = (decide (m ∈ c.activeOf j) && (tg m).violates))
          ∧ (∀ k, c'.slice k = if k = j ∧ j < c.slices.length then
              { c.slice j with pc := (c.slice j).pc + BitVec.ofNat 64 iss.len, wait := .reply v.nextId } else c.slice k)
          ∧ { c' with flights := c.flights, slices := c.slices } = c))
    ∧ (∀ (s : State) (k : AtomKind) (tgt : Tgt) (x : Nat),
      (∀ a snoop op, tgt = .host a snoop → k.carried = some op → s.toHost k tgt x =
        { s with outbox := s.outbox ++
            [.hostAtomic (a - hostBase) op k.size (leBytes x (if op = 2 then 2 * k.size else k.size))] })
      ∧ ((∀ a snoop, tgt ≠ .host a snoop) → s.toHost k tgt x = s))
    ∧ (∀ (s : State) (c : Crew) (tgt : Tgt) (k : AtomKind) (x : Nat) (p : Prefix),
      let rel := isWide p && isRelease p
      let eager := rel && s.eager c tgt p
      let s1 := if eager then s.mergeRange (s.site c) c.tenant (guardOf c p) else s
      let after (u : State) : State :=
        let w := match tgt.granule with
          | some g => if rel then u.leaveRecord c g (guardOf c p) (!eager || !tgt.framed) else u
          | none => u
        if isWide p && isAcquire p then w.acquire c tgt else w
      (∀ a, s1.cellOf (s.site c) tgt = some a → (∀ pfn q o l, tgt ≠ .paged pfn q o l) →
        let old := leNat (s1.memRead a k.size)
        s.atomLane c tgt k x p =
          (after (match (k.apply old x).1 with | some v => s1.memWrite a (leBytes v k.size) | none => s1), (k.apply old x).2))
      ∧ (∀ pfn q off l, tgt = .paged pfn q off l → off < 4096 → off % 256 + k.size ≤ 256 →
        let r := (s1.mergeSector (s.site c) pfn off).readTgt (s.site c) tgt k.size true
        let old := leNat r.2
        let v := leBytes ((k.apply old x).1.getD old) k.size
        ∃ u, s.atomLane c tgt k x p = (after u, (k.apply old x).2)
          ∧ (u.readTgt (s.site c) tgt k.size false).2 = v ∧ (u.readTgt (s.site c) tgt k.size true).2 = v))
    ∧ (∀ (t : Ty) (old x : Nat), old < 2 ^ t.width →
      let y := x % 2 ^ t.width
      (∀ op, ((AtomKind.rmw op t).apply old x).2 = old)
        ∧ (t.fmt = none →
          ((AtomKind.rmw 0 t).apply old x).1 = some ((old + y) % 2 ^ t.width)
          ∧ (∃ v, ((AtomKind.rmw 1 t).apply old x).1 = some v ∧ t.intVal v = min (t.intVal old) (t.intVal y))
          ∧ (∃ v, ((AtomKind.rmw 2 t).apply old x).1 = some v ∧ t.intVal v = max (t.intVal old) (t.intVal y)))
        ∧ (∀ m : Fmt, t.fmt = some m →
          ((AtomKind.rmw 0 t).apply old x).1 = some (fadd m .rn (m.value old) (m.value y)).code
          ∧ ((AtomKind.rmw 1 t).apply old x).1 = some (fminmax m false old y)
          ∧ ((AtomKind.rmw 2 t).apply old x).1 = some (fminmax m true old y))
        ∧ ((AtomKind.rmw 3 t).apply old x).1 = some (old &&& y) ∧ ((AtomKind.rmw 4 t).apply old x).1 = some (old ||| y)
        ∧ ((AtomKind.rmw 5 t).apply old x).1 = some (old ^^^ y) ∧ ((AtomKind.rmw 6 t).apply old x).1 = some y
        ∧ ((AtomKind.rmw 7 t).apply old x).1 = some (if y ≤ old then 0 else old + 1)
        ∧ (AtomKind.cas t).apply old x = (if old = y then some (x / 2 ^ t.width) else none, old))
    ∧ (∀ (w : Word) (x : Nat),
      let readers := w.extractLsb' 0 16
      let waiting := w.extractLsb' 16 14
      let held := w.getLsbD 30
      let pref := w.getLsbD 31
      let try_ (op : Nat) (ok : Prop) (new : Word) : Prop :=
        (ok → (AtomKind.lock op).apply w.toNat x = (some new.toNat, 1)) ∧ (¬ok → (AtomKind.lock op).apply w.toNat x = (none, 0))
      try_ 0 (held = false ∧ readers ≠ 65535 ∧ ¬(pref = true ∧ waiting ≠ 0)) (w + 1)
        ∧ try_ 1 (held = false ∧ readers = 0) (w ||| 0x40000000#32) ∧ try_ 2 (readers ≠ 0) (w - 1)
        ∧ try_ 3 (held = true) (w &&& ~~~0x40000000#32) ∧ try_ 4 (waiting ≠ 16383) (w + 0x10000#32)
        ∧ try_ 5 (waiting ≠ 0) (w - 0x10000#32) ∧ try_ 6 True (w ||| 0x80000000#32) ∧ try_ 7 True (w &&& ~~~0x80000000#32))
    ∧ (∀ (f : FmtA) (i : Instr) (fm : AtomForm) (s : State) (iss : Issue) (c : Crew) (j : Nat) (tg : Nat → Tgt),
      (i, fm) ∈ forms f → s.issue = some iss → aget s.crews iss.crew = some c → iss.slices = [j] →
      let n := fm.kind.size
      let r : VOp := { pos := 0, field := f.d.toNat, n := fm.kind.regs.2 }
      let a := atomAddr f fm.addrRegs n c
      let l := c.laneTgts j a tg
      let near := l.filter fun x => !s.taken.cutOff x.tgt
      let cut := l.filter fun x => s.taken.cutOff x.tgt
      (c.slice j).group = none → s.MayRelease iss c f.p (c.exec &&& sliceMask j) → s.MayAcquire c f.p (l.map (·.tgt)) →
      c.nameFault j [data fm f, atomOp f fm.addrRegs] = none →
      (∀ m ∈ c.activeOf j, a m % n = 0 ∧ target fm f s.taken c (a m) = .ok (tg m) ∧ fm.kind.unsupported (tg m) = none
        ∧ (tg m).remote = false
        ∧ (s.taken.cutOff (tg m) = false → s.taken.noRoute (s.site c) (tg m) true = none)) →
      hostRefuses fm.kind near = none → cut ≠ [] →
      (fm.returns = true → ∃ (u : State) (out : Nat → Nat) (c' : Crew) (fl : Flight),
        Steps (performs fm f c out) near (s.taken.probeHost near) u ∧ u.crews = s.crews
        ∧ exec i s = .next (State.setCrew { u with
            nextId := u.nextId + 1
            requests := u.requests
              ++ (near.filter fun x => !x.tgt.violates).map
                  (fun x => { x.request iss.crew n with group := u.nextId, data := some (leBytes (out x.lane) n) })
              ++ cut.map fun x => { x.request iss.crew n with group := u.nextId, failed := some 0x14 } } iss.crew c')
        ∧ c'.flights = c.flights ++ [fl] ∧ fl.group = u.nextId ∧ fl.pc = iss.pc ∧ fl.uni = [] ∧ fl.eret = false
        ∧ fl.lanes = ((near.filter fun x => !x.tgt.violates) ++ cut).map (fun x =>
            { lane := x.lane, regs := (List.range fm.kind.regs.2).map (c.phys r x.lane)
              code := some (atLoc (cacheDie (s.site c)) x.tgt) })
        ∧ (∀ k, c'.slice k = if k = j ∧ j < c.slices.length then
            { c.slice j with pc := (c.slice j).pc + BitVec.ofNat 64 iss.len, wait := .reply u.nextId } else c.slice k)
        ∧ { c' with flights := c.flights, slices := c.slices } = c)
      ∧ (∀ x rest, fm.returns = false → cut = x :: rest →
          exec i s = .next (s.taken.raise iss.crew j (iss.trap 0x14 x.addr x.addr))))
    ∧ (∀ (f : FmtA) (i : Instr) (fm : AtomForm) (s : State) (iss : Issue) (c : Crew) (j m : Nat) (rest : List Nat),
      (i, fm) ∈ forms f → fm.scratch = false →
      s.issue = some iss → aget s.crews iss.crew = some c → iss.slices = [j] →
      let n := fm.kind.size
      let a := atomAddr f fm.addrRegs n c
      (c.slice j).group = none → c.nameFault j [data fm f, atomOp f fm.addrRegs] = none →
      c.activeOf j = m :: rest → (∀ l ∈ c.activeOf j, a l % n = 0) →
      ((∃ pa, s.taken.access c (a m) n .write = .ok (.mmio pa)
          ∨ s.taken.access c (a m) n .write = .ok (.host pa false)
          ∨ (s.taken.access c (a m) n .write = .ok (.host pa true) ∧ fm.kind.carried = none)) →
        exec i s = .next (s.taken.raise iss.crew j (iss.trap 0x08 (a m) (a m))))
      ∧ (∀ b, rest = [] → s.taken.access c (a m) n .write = .ok (.host b true) → fm.kind.carried ≠ none →
          Config.hostAccepts ((b - hostBase) / 4 * 4) 2 4 = false → s.taken.stuck (s.site c) (.host b true) true = false →
          exec i s = .next (State.raise { s.taken with outbox := s.outbox ++ [.hostProbe ((b - hostBase) / 4 * 4)] } iss.crew j
            (iss.trap 0x09 (a m) (a m)))))
    ∧ (∀ (f : FmtA) (x : Instr × AtomForm), x ∈ forms f → SliceBySlice x.1)

/-- FENCE below outing scope only moves the gang on; at outing scope or wider, with the earlier accesses of the gang's live
lanes performed, no MOVING page in the way and at system scope no write of theirs lost, it answers the state in which every
replica of the issuing core holds no sector and no dirty byte; a merge leaves each merged byte at the page's master. PEQ
writes the placement entry of the address to s(D) and s(D+1), from the core's or its die's cached entry or from a walk, with
HIT, RPL and RFRAME; the window pattern for a window address; 0 where there is no valid leaf and for a leaf of MTYPE 2 or 7
or a malformed walk (the model's choice, log 58). PINS.ON waits at a MOVING page; else it takes a hold, or keeps it, and
writes 1 where it may, else 0; PINS.OFF drops it and writes 1 only when it was held; for a service thread both write 0 (the
model's choice, log 26). FENCE waits for such accesses, and a slice whose write was lost takes FABRIC at system scope, once.
VDIE writes the hop distance of the two dies as last computed, the least number of circuits of a path between them, 0xFF
where there is none. No other register, no other part of the crew and no byte of memory (but for FENCE's merges) changes;
PEQ and PINS use the banks that their walks read. -/
def Obligations.MemoryControl : Prop :=
  let pair (c c' : Crew) (iss : Issue) (d : Nat) (lo hi : DWord) : Prop :=
    c'.sreg d = lo ∧ c'.sreg (d + 1) = hi ∧ (∀ q, q ≠ d → q ≠ d + 1 → c'.sreg q = c.sreg q) ∧ c.Moved c' iss.slices iss.len
      ∧ { c' with sregs := c.sregs, pend := c.pend, slices := c.slices } = c
  let one (c c' : Crew) (iss : Issue) (d : Nat) (v : DWord) : Prop :=
    c'.sreg d = v ∧ (∀ q, q ≠ d → c'.sreg q = c.sreg q) ∧ c.Moved c' iss.slices iss.len
      ∧ { c' with sregs := c.sregs, pend := c.pend, slices := c.slices } = c
  let looks (s u : State) : Prop := { u with bankUse := s.bankUse, drowsy := s.drowsy } = s
  (∀ (f : FmtA) (s : State) (iss : Issue) (c : Crew), s.issue = some iss → aget s.crews iss.crew = some c → f.b.toNat < 2 →
    ∃ c', OnlyCrew (.fence f) s s.taken iss.crew c' ∧ c.Moved c' iss.slices iss.len ∧ { c' with slices := c.slices } = c)
    ∧ (∀ (f : FmtA) (s : State) (iss : Issue) (c : Crew), s.issue = some iss → aget s.crews iss.crew = some c →
      2 ≤ f.b.toNat → iss.slices ≠ [] → s.Performed iss.crew (c.live &&& slicesMask iss.slices) →
      (f.b.toNat = 5 → ∀ x ∈ c.lost, mbit (c.live &&& slicesMask iss.slices) x.1 = false) →
      s.dropMoving (s.site c) c.tenant .whole = none →
      ∃ (u : State) (c' : Crew), exec (.fence f) s = .next (u.setCrew iss.crew c') ∧ u = s.taken.dropRange (s.site c) c.tenant .whole
        ∧ (∀ d k, s.site c = .core d k → ∀ pfn x, (u.page pfn).replicaIn d k = some x → x.present = 0 ∧ x.dirty = [])
        ∧ ((∀ d k, s.site c ≠ .core d k) → u = s.taken)
        ∧ { u with mem := s.mem, pages := s.pages, bankUse := s.bankUse, drowsy := s.drowsy } = s.taken
        ∧ c.Moved c' iss.slices iss.len ∧ { c' with slices := c.slices } = c)
    ∧ (∀ (f : FmtA) (s : State) (iss : Issue) (c : Crew), s.issue = some iss → aget s.crews iss.crew = some c →
      let lanes := c.live &&& slicesMask iss.slices
      let run := exec (.fence f) s
      2 ≤ f.b.toNat →
      ((∃ r ∈ s.requests, r.crew = iss.crew ∧ r.op = none ∧ r.waits = true ∧ r.mask &&& lanes ≠ 0) →
        ∃ c', OnlyCrew (.fence f) s s.taken iss.crew c'
          ∧ (∀ j, c'.slice j =
              if j ∈ iss.slices ∧ j < c.slices.length then { c.slice j with wait := .accepted lanes } else c.slice j)
          ∧ { c' with slices := c.slices } = c)
      ∧ (s.Performed iss.crew lanes → f.b.toNat = 5 → ∀ i, iss.slices = [i] →
          ∀ x ∈ c.lost.find? (fun x => decide (x.1 / 4 = i) && mbit lanes x.1),
            run = .next ((s.taken.modCrew iss.crew fun c => { c with lost := c.lost.filter fun y => !(y.1 / 4 = i && y.2 == x.2) }).raise
              iss.crew i (iss.trap 0x15 x.2.toNat x.2.toNat))))
    ∧ (∀ (s : State) (pfn d k : Nat) (x : Replica) (test : Nat → Bool), (s.page pfn).replicaIn d k = some x →
      (∀ o ∈ x.dirty, o < 4096) →
      (∀ o o', o < 4096 → o' < 4096 → masterAddr pfn (s.page pfn).held o ≠ x.addr o') →
      ∀ o ∈ x.dirty, test o = true →
        ((s.mergeReplica pfn d k test).masterRead pfn o 1).2 = s.memRead (x.addr o) 1)
    ∧ (∀ (f : FmtA) (s : State) (iss : Issue) (c : Crew), s.issue = some iss → aget s.crews iss.crew = some c →
      let va := (c.sreg f.a.toNat).toNat
      ∃ (u : State) (c' : Crew), looks s.taken u ∧ exec (.peq f) s = .next (u.setCrew iss.crew c')
        ∧ pair c c' iss f.d.toNat (BitVec.ofNat 64 (peqPair s.taken c va).1) (BitVec.ofNat 64 (peqPair s.taken c va).2))
    ∧ (∀ (s : State) (c : Crew) (va : Nat) (l : Leaf) (p : Placement),
      canonical va = true → inPartyWindow va = false → inOutingWindow va = false →
      ((∃ path, s.find (s.site c) c.tenant va = .filled l p path)
        ∨ ∃ e, s.find (s.site c) c.tenant va = .hit e ∧ l = e.leaf ∧ p = s.leafPlace e.leaf) →
      let lo := (peqPair s c va).1
      let hi := (peqPair s c va).2
      let mine : Option Replica := if l.level = 0 ∧ l.mtype = .framed then (s.page l.pfn).replicaAt (s.site c) else none
      (l.mtype = .scratch ∨ l.mtype = .reserved → lo = 0 ∧ hi = 0)
      ∧ (l.mtype ≠ .scratch → l.mtype ≠ .reserved → l.pfn < 2 ^ 40 → p.mdie < 8 → p.munit < 64 → p.mframe < 1024 →
        (∀ x ∈ mine, x.frame < 1024) →
        natBit lo 0 = true ∧ natBit lo 1 = l.w ∧ natBit lo 2 = l.x ∧ natBit lo 3 = l.a ∧ natBit lo 4 = l.d ∧ natBit lo 5 = l.pin
        ∧ natBit lo 6 = l.g ∧ natBit lo 7 = false ∧ natBits lo 10 8 = l.mtype.code ∧ natBits lo 13 11 = p.res.code
        ∧ natBits lo 15 14 = 0 ∧ natBits lo 55 16 = l.pfn ∧ natBits lo 63 56 = 0
        ∧ natBits hi 2 0 = p.mdie ∧ natBits hi 8 3 = p.munit ∧ natBits hi 18 9 = p.mframe ∧ natBits hi 34 19 = p.sect.toNat
        ∧ natBit hi 35 = mine.isSome ∧ natBits hi 45 36 = (mine.map (·.frame)).getD 0
        ∧ natBit hi 46 = (s.cached (s.site c) c.tenant (vpnOf va)).isSome ∧ natBits hi 63 47 = 0))
    ∧ (∀ (s : State) (c : Crew) (va : Nat), inPartyWindow va = true ∨ inOutingWindow va = true →
      let lo := (peqPair s c va).1
      natBit lo 0 = true ∧ natBit lo 1 = true ∧ natBits lo 7 2 = 0 ∧ natBits lo 10 8 = 2 ∧ natBits lo 13 11 = 1
        ∧ natBits lo 63 14 = 0 ∧ (peqPair s c va).2 = 0)
    ∧ (∀ (s : State) (c : Crew) (va : Nat), inPartyWindow va = false → inOutingWindow va = false →
      (canonical va = false ∨ s.find (s.site c) c.tenant va = .absent ∨ s.find (s.site c) c.tenant va = .bad) → peqPair s c va = (0, 0))
    ∧ (∀ (f : FmtA) (s : State) (iss : Issue) (c : Crew) (p : Nat) (pa : Party) (pfn leafPa : Nat),
      s.issue = some iss → aget s.crews iss.crew = some c → c.partyId = some p → aget s.parties p = some pa →
      s.taken.eligible c.tenant (c.sreg f.a.toNat).toNat = some (pfn, leafPa) →
      ∃ u, looks s.taken u
      ∧ (f.b = 1 → ∃ c', exec (.pins f) s = .next ((u.modParty p fun q =>
            { q with holds := q.holds.filter fun x => x != pfn || !pa.holds.contains pfn }).setCrew iss.crew c')
          ∧ one c c' iss f.d.toNat (if pfn ∈ pa.holds then 1 else 0))
      ∧ (f.b ≠ 1 → (s.page pfn).moving = true → exec (.pins f) s = .next (u.waitMoving iss.crew iss.slices pfn))
      ∧ (f.b ≠ 1 → (s.page pfn).moving = false →
          (pfn ∈ pa.holds → ∃ c', exec (.pins f) s = .next (u.setCrew iss.crew c') ∧ one c c' iss f.d.toNat 1)
          ∧ (pfn ∉ pa.holds → s.mayHold pa pfn = true →
              ∃ c', exec (.pins f) s = .next ((u.modParty p fun q => { q with holds := q.holds ++ [pfn] }).setCrew iss.crew c')
                ∧ one c c' iss f.d.toNat 1)
          ∧ (pfn ∉ pa.holds → s.mayHold pa pfn = false → ∃ c', exec (.pins f) s = .next (u.setCrew iss.crew c')
            ∧ one c c' iss f.d.toNat 0)))
    ∧ (∀ (f : FmtA) (s : State) (iss : Issue) (c : Crew), s.issue = some iss → aget s.crews iss.crew = some c →
      c.partyId = none ∨ s.taken.eligible c.tenant (c.sreg f.a.toNat).toNat = none →
      ∃ (u : State) (c' : Crew), looks s.taken u ∧ exec (.pins f) s = .next (u.setCrew iss.crew c') ∧ one c c' iss f.d.toNat 0)
    ∧ (∀ (f : FmtA) (s s1 : State) (iss : Issue) (c : Crew) (kc : Option Konst),
      s.issue = some iss → s.ReadsConst iss f.k f.b s1 kc → aget s1.crews iss.crew = some c →
      let die (x : Nat) : Option Nat := if x < 4 then (s1.tenant c.tenant).vdt.getD x none else none
      let v : Nat := match die (c.sreg f.a.toNat).toNat, die ((srcOf false 2 f.b 1 kc).read c .ui64 0) with
        | some x, some y => (hopGo s1.measured y 5 0 [x]).getD 0xFF
        | _, _ => 0xFF
      ∃ c', OnlyCrew (.vdie f) s s1 iss.crew c' ∧ one c c' iss f.d.toNat (BitVec.ofNat 64 v))
    ∧ (∀ (routes : List DWord) (x y : Nat), x < 5 → y < 5 →
      let joined (a b : Nat) : Prop := a < 5 ∧ b < 5 ∧ ∃ w ∈ routes, natBit w.toNat 31 = true
        ∧ ((natBits w.toNat 14 12 = a ∧ natBits w.toNat 8 6 = b) ∨ (natBits w.toNat 14 12 = b ∧ natBits w.toNat 8 6 = a))
      let path (m : Nat) : Prop := ∃ p : Nat → Nat, p 0 = x ∧ p m = y ∧ ∀ i, i < m → joined (p i) (p (i + 1))
      (∀ n, hopGo routes y 5 0 [x] = some n ↔ n < 5 ∧ path n ∧ ∀ m, m < n → ¬path m)
        ∧ (hopGo routes y 5 0 [x] = none ↔ ∀ m, m < 5 → ¬path m))

/-- PLACE visits its pages in order and answers the state with their requests; in explicit mode the gang waits until its
remaps have started and then goes on, else it goes on at once. A page that is not eligible asks for nothing. An eligible
page that no other party holds asks: under NEAR, at HOME or FAR for a free frame of the party's quota, at SHARED without a
replica here for a replica in one, at NEAR elsewhere for a replica and a free far frame for the master; under FAR, at HOME
or NEAR for the lowest free frame of its directory slice; under HOME, at NEAR or FAR for its home, at SHARED for the drop of
this core's replica. Of the quota's free frames it is the lowest (the model's choice, log 12); with none free in explicit
mode the least recently placed page leaves first (R163); a quota of none asks for nothing. The request is last in the page's
queue; no other page, no byte and no crew changes. A service thread's PLACE.NEAR skips every page (the model's choice, log
26), and a page whose PIN bit is set is no victim. PINV at service level or above, with the core's earlier accesses
performed, drops every replica of its core, every entry and table pointer of its context for the pages and every hold on
them. Its HOME form asks for each page's remap home and waits for it; it waits for a die that does not acknowledge, and
tries again while an access to a page awaits a reply. At user level it traps PRIV. -/
def Obligations.PagePlacement : Prop :=
  let looks (s u : State) : Prop := { u with bankUse := s.bankUse, drowsy := s.drowsy } = s
  let skips (s : State) (c : Crew) (place va : Nat) : Prop := ∃ u, looks s u ∧ placePage s c place va = (u, none)
  let asks (s : State) (c : Crew) (place va pfn leafPa : Nat) (goal : RemapGoal) (far : Option (Nat × Nat)) : Prop :=
    ∃ u k, placePage s c place va = (u, some s.nextId)
      ∧ u.page pfn = { s.page pfn with
          queue := (s.page pfn).queue
            ++ [{ id := s.nextId, goal := goal, leafPa := some leafPa, far := far, asker := .place c.partyId k }] }
      ∧ (∀ p, c.partyId = some p → k = .core (s.party p).die (s.party p).core)
      ∧ (∀ q, q ≠ pfn → u.page q = s.page q) ∧ u.mem = s.mem ∧ u.crews = s.crews ∧ u.nextId = s.nextId + 1
  let lowest (s : State) (pa : Party) (fr : Nat) : Prop :=
    fr ∈ pa.nearFrames ∧ s.frameFree (sramAddr pa.die pa.core (fr * 4096)) = true
      ∧ ∀ x ∈ pa.nearFrames, s.frameFree (sramAddr pa.die pa.core (x * 4096)) = true → fr ≤ x
  let lowestFar (s : State) (pfn fr : Nat) : Prop :=
    fr < 1536 ∧ s.frameFree (farAddr (homeStack pfn) (pfn % 16) fr 0) = true
      ∧ ∀ x, x < fr → s.frameFree (farAddr (homeStack pfn) (pfn % 16) x 0) = false
  let pagesOf (c : Crew) (f : FmtA) : List Nat :=
    (List.range (f.b.toNat + 1)).map fun i => ((c.sreg f.a.toNat).toNat / 4096 + i) * 4096 % 2 ^ 64
  (∀ (f : FmtA) (s : State) (iss : Issue) (c : Crew), s.issue = some iss → aget s.crews iss.crew = some c →
    let steps : State × List Nat := (pagesOf c f).foldl
      (fun (x : State × List Nat) a => ((placePage x.1 c f.d.toNat a).1, x.2 ++ (placePage x.1 c f.d.toNat a).2.toList)) (s.taken, [])
    ((∀ ids, (c.slice (iss.slices.headD 0)).wait ≠ .place ids) →
      ∃ c', exec (.place f) s = .next (steps.1.setCrew iss.crew c') ∧ { c' with slices := c.slices } = c
        ∧ (if steps.2 = [] ∨ (s.tenant c.tenant).expl = false then c.Moved c' iss.slices iss.len
          else ∀ i, c'.slice i =
            if i ∈ iss.slices ∧ i < c.slices.length then { c.slice i with wait := .place steps.2 } else c.slice i))
    ∧ (∀ ids, (c.slice (iss.slices.headD 0)).wait = .place ids →
      ∃ c', OnlyCrew (.place f) s s.taken iss.crew c' ∧ c.Moved c' iss.slices iss.len ∧ { c' with slices := c.slices } = c))
    ∧ (∀ (s : State) (c : Crew) (place va : Nat),
      s.eligible c.tenant va = none ∨ (place = 0 ∧ c.partyId = none) → skips s c place va)
    ∧ (∀ (s : State) (c : Crew) (va pfn leafPa p fr ff : Nat) (pa : Party),
      s.eligible c.tenant va = some (pfn, leafPa) → c.partyId = some p → aget s.parties p = some pa → lowest s pa fr →
      let pr := s.project pfn
      let free : Prop := ∀ q ∈ s.parties, q.1 ≠ p → pfn ∉ q.2.holds
      let here (die core : Nat) : Prop := die = pa.die ∧ core = pa.core
      (pr.place.res = .home ∨ pr.place.res = .far → free → asks s c 0 va pfn leafPa (.near pa.die pa.core fr) none)
      ∧ (pr.place.res = .shared → (∀ r ∈ pr.reps, ¬here r.1 r.2.1) → asks s c 0 va pfn leafPa (.replica pa.die pa.core fr) none)
      ∧ (pr.place.res = .near → ¬here pr.place.mdie pr.place.munit → free → lowestFar s pfn ff →
          asks s c 0 va pfn leafPa (.replica pa.die pa.core fr) (some (pfn % 16, ff)))
      ∧ ((pr.place.res = .near ∧ here pr.place.mdie pr.place.munit) ∨ pr.place.res = .moving ∨ pr.place.res = .poison
          ∨ (pr.place.res = .shared ∧ ∃ r ∈ pr.reps, here r.1 r.2.1) → skips s c 0 va))
    ∧ (∀ (s : State) (c : Crew) (va pfn leafPa p : Nat) (pa : Party),
      s.eligible c.tenant va = some (pfn, leafPa) → c.partyId = some p → aget s.parties p = some pa →
      (s.tenant c.tenant).expl = true →
      (pa.nearFrames = [] → skips s c 0 va)
      ∧ (∀ q g f rest, (∀ x ∈ pa.nearFrames, s.frameFree (sramAddr pa.die pa.core (x * 4096)) = false) →
          ((s.project pfn).place.res = .home ∨ (s.project pfn).place.res = .far) →
          (∀ y ∈ s.parties, y.1 ≠ p → pfn ∉ y.2.holds) →
          pa.nearPlaced = (q, g) :: rest → (s.project q).place.res = .near → (s.project q).place.mdie = pa.die →
          (s.project q).place.munit = pa.core → (s.project q).place.mframe = f → f ∈ pa.nearFrames →
          (∀ y ∈ s.parties, q ∉ y.2.holds) → s.mirrorPinned q = false →
          ∃ u, placePage s c 0 va = (u, some (s.nextId + 1))
            ∧ (u.page q).queue = (s.page q).queue ++ [{ id := s.nextId, goal := .home, leafPa := (s.page q).mirror, far := none }]
            ∧ (u.page pfn).queue = (s.page pfn).queue
                ++ [{ id := s.nextId + 1, goal := .near pa.die pa.core f, leafPa := some leafPa, far := none
                      asker := .place (some p) (.core pa.die pa.core) }]))
    ∧ (∀ (s : State) (c : Crew) (va pfn leafPa fr : Nat),
      s.eligible c.tenant va = some (pfn, leafPa) →
      ((s.project pfn).place.res = .home ∨ (s.project pfn).place.res = .near) →
      (∀ q ∈ s.parties, some q.1 ≠ c.partyId → pfn ∉ q.2.holds) → lowestFar s pfn fr →
      asks s c 1 va pfn leafPa (.far (homeStack pfn) (pfn % 16) fr) none)
    ∧ (∀ (s : State) (c : Crew) (va pfn leafPa : Nat) (p : Option Nat),
      s.eligible c.tenant va = some (pfn, leafPa) → c.partyId = p →
      (∀ q ∈ s.parties, some q.1 ≠ p → pfn ∉ q.2.holds) →
      (((s.project pfn).place.res = .near ∨ (s.project pfn).place.res = .far) → (s.project pfn).reps = [] →
        asks s c 2 va pfn leafPa .home none)
      ∧ (∀ k r, p = some k → r ∈ (s.project pfn).reps → r.1 = (s.party k).die → r.2.1 = (s.party k).core →
        asks s c 2 va pfn leafPa (.dropReplica (s.party k).die (s.party k).core) none))
    ∧ (∀ (f : FmtA) (s : State) (iss : Issue) (c : Crew), s.issue = some iss → aget s.crews iss.crew = some c → c.level ≠ .user →
      s.Performed iss.crew (c.live &&& slicesMask iss.slices) → s.dropMoving (s.site c) c.tenant .whole = none →
      let u := s.taken.dropRange (s.site c) c.tenant .whole
      let pages := pagesOf c f
      let waits (w : Wait) : Prop :=
        ∃ (t : State) (c' : Crew), exec (.pinv f) s = .next (t.setCrew iss.crew c') ∧ t.mem = u.mem ∧ { c' with slices := c.slices } = c
          ∧ ∀ i, (c'.slice i).wait = (if i ∈ iss.slices ∧ i < c.slices.length then w else (c.slice i).wait)
              ∧ (c'.slice i).pc = (c.slice i).pc
      let settled : Prop := f.d = 1 → ∀ va ∈ pages, ∀ pfn l, u.frameOf c.tenant va = some (pfn, l) →
        (u.page pfn).run = none ∧ (u.page pfn).queue = [] ∧ (u.page pfn).place.res = .home
      (settled → u.pinvDie (s.site c) c.tenant pages = none → (∀ va ∈ pages, u.pageBusy c.tenant va = false) →
        ∃ (t : State) (c' : Crew), exec (.pinv f) s = .next (t.setCrew iss.crew c') ∧ t.mem = u.mem ∧ t.crews = s.crews
          ∧ (∀ va ∈ pages, ∀ x ∈ t.caches, ¬(x.2.tenant = c.tenant ∧ x.2.vpn = vpnOf va
              ∧ (x.2.leaf.g = true ∨ x.2.asid = (s.tenant c.tenant).asid)))
          ∧ (∀ x ∈ t.caches, x ∈ u.caches)
          ∧ (∀ x ∈ u.caches, (∀ va ∈ pages, ¬(x.2.tenant = c.tenant ∧ x.2.vpn = vpnOf va)) → x ∈ t.caches)
          ∧ (∀ va ∈ pages, ∀ e ∈ t.tables, ¬(e.tenant = c.tenant ∧ e.asid = (s.tenant c.tenant).asid
              ∧ e.vpn = vpnOf va / 2 ^ levelShift e.level))
          ∧ (∀ va ∈ pages, ∀ pfn l, u.frameOf c.tenant va = some (pfn, l) → ∀ q ∈ t.parties, pfn ∉ q.2.holds)
          ∧ c.Moved c' iss.slices iss.len ∧ { c' with slices := c.slices } = c)
      ∧ (settled → ∀ d, u.pinvDie (s.site c) c.tenant pages = some d → waits (.cut d s.time))
      ∧ (settled → u.pinvDie (s.site c) c.tenant pages = none → (∃ va ∈ pages, u.pageBusy c.tenant va = true) →
          waits .retry)
      ∧ (f.d = 1 → ∀ va pfn l, pages = [va] → u.frameOf c.tenant va = some (pfn, l) → (u.page pfn).run = none → (u.page pfn).queue = [] →
          ((u.page pfn).place.res = .near ∨ (u.page pfn).place.res = .far ∨ (u.page pfn).place.res = .shared) →
          waits (.moving pfn) ∧ ∃ t, exec (.pinv f) s = .next t
            ∧ (t.page pfn).queue = [{ id := s.nextId, goal := .home, leafPa := some l, far := none, asker := .service }]
            ∧ ∀ i ∈ iss.slices, Waiter.slice iss.crew i ∈ (t.page pfn).waiters ++ (t.page pfn).refused))
    ∧ (∀ (f : FmtA) (s : State) (iss : Issue) (c : Crew), s.issue = some iss → aget s.crews iss.crew = some c → c.level = .user →
      exec (.pinv f) s = .next (s.taken.raiseAll iss.crew iss.slices (iss.trap 0x02 iss.word.toNat 0)))

/-- Once every live slice of the crew stands at it, none of them in a handler, and the earlier accesses of the live slices
are performed, those of lanes that have exited too, BAR counts the crew's arrival and its slices wait for the phase;
BAR.ARRIVE writes the token (phase, level, number) to s(D) and goes on; a crew that has arrived in the phase already waits
for its end and arrives again. Before that they wait for those accesses. An arrival that is not the last marks the crew
alone; the last one raises the phase by 1, clears the arrivals, and every slice of the party that waits for a phase that has
completed goes on past its instruction, at once where its core's replicas are dropped, else with a wait for the MOVING page
that a drop meets. At an outing barrier a party arrives once its live crews all have, after a merge of its core; where no
member is live any arrival completes the phase, after that merge. BAR.WAIT goes on at once when its token's phase has
completed, after the same drop, else waits; a token that names no barrier traps ILLEGAL in the lowest live slice alone.
BARCFG, where the barrier has no arrival, no waiter and no arrival that still waits for earlier accesses, sets the members
and clears arrivals, else traps BARRIER. On a service thread each of BAR, BAR.ARRIVE, BAR.WAIT and BARCFG goes on at once:
the rules say nothing of barriers there, and this is the model's choice (log 26). That a slice in its handler, or a slice of
a frozen crew, has not arrived follows R71 and log 62. -/
def Obligations.PartyBarriers : Prop :=
  let here (c : Crew) (iss : Issue) : Prop :=
    c.handler = none ∧ c.frozen = none ∧ c.slices.length = 8 ∧ (∀ i ∈ iss.slices, i ∈ c.liveSlices) ∧ ∀ i ∈ c.liveSlices,
      (c.slice i).pc = iss.pc ∧ (c.slice i).pend = none ∧ (i ∈ iss.slices ∨ (c.slice i).wait = .cross)
  let waits (c c' : Crew) (w : Wait) : Prop :=
    (∀ j, c'.slice j = if j ∈ c.liveSlices then { c.slice j with wait := w } else c.slice j) ∧ { c' with slices := c.slices } = c
  let goesOn (c c' : Crew) (d : Option Nat) (v : DWord) : Prop :=
    (∀ j, c'.slice j = if j ∈ c.liveSlices then { c.slice j with pc := (c.slice j).pc + 4, wait := .none } else c.slice j)
      ∧ (∀ q, c'.sreg q = if d = some q then v else c.sreg q) ∧ { c' with sregs := c.sregs, slices := c.slices } = c
  let done (cur ph : BitVec 32) : Prop := cur ≠ ph ∧ (cur - ph).toNat ≤ 2 ^ 31
  let still (s : State) (p : Nat) : Prop :=
    ∀ x ∈ s.pages, x.2.dropsAt (s.party p).die (s.party p).core = false
  let departs (s u : State) (mine : Nat → Party → Prop) (level n : Nat) (cur : BitVec 32) : Prop :=
    ∀ k c, aget s.crews k = some c → ∃ c', aget u.crews k = some c' ∧ { c' with slices := c.slices } = c ∧ ∀ j, j < 8 →
      let goes (p : Nat) : Prop := c.partyId = some p ∧ ∃ q ph, aget s.parties p = some q ∧ mine p q
        ∧ (c.slice j).wait = .barrier level n ph ∧ done cur ph
      (∀ p, goes p →
        (still s p → c'.slice j = { c.slice j with pc := (c.slice j).pc + 4, wait := .none })
        ∧ (¬still s p → ∃ x ∈ s.pages, x.2.run.isSome = true
            ∧ c'.slice j = { c.slice j with pc := (c.slice j).pc + 4, wait := .moving x.1, addr := none }))
      ∧ ((∀ p, ¬goes p) → c'.slice j = c.slice j)
  let outing (s u : State) (pa : Party) (n : Nat) : Prop :=
    let b := s.outingBar pa n
    ∀ o, s.outingOf pa = some o → n < o.2.bars.length →
      u.outingBar pa n = { members := b.members, phase := b.phase + 1, arrived := 0 }
        ∧ (s.Ordered → departs s u (fun _ q => q.launch = pa.launch ∧ q.outing = pa.outing) 1 n (b.phase + 1))
  (∀ (f : FmtA) (s : State) (iss : Issue) (c : Crew) (p i slot : Nat), s.issue = some iss → aget s.crews iss.crew = some c →
    here c iss → c.place = .compute p i slot →
    let level := f.cl.toNat
    let n := f.b.toNat % 16
    let ph := s.phase c level n
    let how := if level = 0 then s.countParty p i n else s.countOuting p i n
    let lanes := slicesMask c.liveSlices
    (s.Performed iss.crew lanes → how ≠ .again →
      (∃ c', exec (.bar f) s = .next (((s.taken.setCrew iss.crew c').arriveBar p i level n how).settle iss.crew)
        ∧ waits c c' (.barrier level n ph))
      ∧ ∃ c', exec (.barArrive f) s = .next (((s.taken.setCrew iss.crew c').arriveBar p i level n how).settle iss.crew)
        ∧ goesOn c c' (some f.d.toNat) (BitVec.ofNat 64 (ph.toNat * 2 ^ 32 + level * 2 ^ 8 + n)))
    ∧ (∀ a ∈ [Instr.bar f, .barArrive f],
      (s.Performed iss.crew lanes → how = .again →
        ∃ c', exec a s = .next ((s.taken.setCrew iss.crew c').settle iss.crew) ∧ waits c c' (.again level n ph))
      ∧ (¬s.Performed iss.crew lanes →
        ∃ c', exec a s = .next ((s.taken.setCrew iss.crew c').settle iss.crew) ∧ waits c c' (.accepted lanes))))
    ∧ (∀ (s : State) (p i n : Nat) (pa : Party), aget s.parties p = some pa → n < pa.bars.length →
      let b := pa.bars.getD n {}
      let rest := b.members &&& s.liveCrews p &&& ~~~(mset b.arrived i true)
      (rest ≠ 0 → s.arriveBar p i 0 n .here =
        s.modParty p fun x => { x with bars := lmod x.bars n fun y => { y with arrived := mset y.arrived i true } })
      ∧ (rest = 0 → ∃ q, aget (s.arriveBar p i 0 n .here).parties p = some q
          ∧ q.bars.getD n {} = { members := b.members, phase := b.phase + 1, arrived := 0 }
          ∧ (∀ m, m ≠ n → q.bars.getD m {} = pa.bars.getD m {}) ∧ { q with bars := pa.bars } = pa
          ∧ (∀ k, k ≠ p → aget (s.arriveBar p i 0 n .here).parties k = aget s.parties k)
          ∧ (s.Ordered → departs s (s.arriveBar p i 0 n .here) (fun k _ => k = p) 0 n (b.phase + 1))
          ∧ ((∀ x ∈ s.pages, ∀ y ∈ x.2.replicas, y.dirty = []) → (s.arriveBar p i 0 n .here).mem = s.mem)))
    ∧ (∀ (s : State) (p i n : Nat) (pa : Party), aget s.parties p = some pa → n < 4 →
      let now := mset (pa.towardBar 1 n) i true
      let s' := s.modParty p fun x => x.setToward 1 n now
      (s.liveCrews p &&& ~~~now ≠ 0 → s.arriveBar p i 1 n .here = s')
      ∧ (s.liveCrews p ≠ 0 → s.liveCrews p &&& ~~~now = 0 →
          let b := s.outingBar pa n
          let t := (s'.drain p).modOutingBar pa n fun y => { y with arrived := mset y.arrived pa.member true }
          (b.members &&& s.liveMembers pa.launch pa.outing &&& ~~~(mset b.arrived pa.member true) ≠ 0 →
            s.arriveBar p i 1 n .here = t)
          ∧ (b.members &&& s.liveMembers pa.launch pa.outing &&& ~~~(mset b.arrived pa.member true) = 0 →
            outing s (s.arriveBar p i 1 n .here) pa n))
      ∧ outing s (s.arriveBar p i 1 n .completes) pa n)
    ∧ (∀ (s : State) (p : Nat),
      let pa := s.party p
      let u := s.dropParty p
      (u.2 = none ↔ still s p)
      ∧ (∀ pfn, u.2 = some pfn → ∃ x ∈ s.pages, x.1 = pfn ∧ x.2.run.isSome = true)
      ∧ (∀ pfn x, (u.1.page pfn).replicaIn pa.die pa.core = some x →
          (∀ y ∈ s.pages, y.1 = pfn → y.2.dropsAt pa.die pa.core = false) → x.present = 0 ∧ x.dirty = [])
      ∧ { u.1 with mem := s.mem, pages := s.pages, bankUse := s.bankUse, drowsy := s.drowsy } = s)
    ∧ (∀ (f : FmtA) (s : State) (iss : Issue) (c : Crew) (p : Nat), s.issue = some iss → aget s.crews iss.crew = some c →
      here c iss → c.partyId = some p →
      let t := c.sreg f.a.toNat
      let level := (t.extractLsb' 8 2).toNat
      let n := (t.extractLsb' 0 4).toNat
      let ph := t.extractLsb' 32 32
      (level = 0 ∨ (level = 1 ∧ n < 4)) →
      (done (s.phase c level n) ph →
        ∃ c', c.Moved c' c.liveSlices 4 ∧ { c' with slices := c.slices } = c
          ∧ ((s.dropParty p).2 = none →
              exec (.barWait f) s = .next (((s.taken.dropParty p).1.setCrew iss.crew c').settle iss.crew))
          ∧ ∀ pfn, (s.dropParty p).2 = some pfn → exec (.barWait f) s =
              .next ((((s.taken.dropParty p).1.setCrew iss.crew c').waitMoving iss.crew c.liveSlices pfn).settle iss.crew))
      ∧ (¬done (s.phase c level n) ph →
        ∃ c', exec (.barWait f) s = .next ((s.taken.setCrew iss.crew c').settle iss.crew) ∧ waits c c' (.barrier level n ph)))
    ∧ (∀ (f : FmtA) (s : State) (iss : Issue) (c : Crew) (i : Nat), s.issue = some iss → aget s.crews iss.crew = some c →
      here c iss → c.liveSlices.head? = some i →
      let t := c.sreg f.a.toNat
      (2#2 ≤ t.extractLsb' 8 2 ∨ (t.extractLsb' 8 2 = 1 ∧ 4#4 ≤ t.extractLsb' 0 4)) →
      ∃ c', waits c c' .cross
        ∧ exec (.barWait f) s = .next (((s.taken.setCrew iss.crew c').raise iss.crew i (iss.trap 0x01 iss.word.toNat 0)).settle
            iss.crew))
    ∧ (∀ (f : FmtA) (s : State) (iss : Issue) (c : Crew) (p : Nat) (pa : Party), s.issue = some iss →
      aget s.crews iss.crew = some c → c.partyId = some p → aget s.parties p = some pa →
      let n := f.b.toNat % 16
      let value (count : Nat) (m : BitVec 32) : Prop := ∀ i, i < 32 → mbit m i = (mbit (c.sreg f.a.toNat) i && decide (i < count))
      (f.cl = 0 → s.barBusy 0 n (pa.bars.getD n {}).arrived (fun q _ => q = p) = false →
        ∃ (m : BitVec 32) (c' : Crew), value pa.crews.length m
          ∧ exec (.barcfg f) s = .next ((s.taken.modParty p fun x =>
              { x with bars := lmod x.bars n fun b => { b with members := m, arrived := 0 } }).setCrew iss.crew c')
          ∧ c.Moved c' iss.slices iss.len ∧ { c' with slices := c.slices } = c)
      ∧ (f.cl = 1 → s.barBusy 1 n (s.outingBar pa n).arrived (fun _ q => q.launch = pa.launch && q.outing = pa.outing) = false →
        (s.launchRec pa.launch).outingCount pa.outing ≤ 8 →
        ∃ (m : BitVec 32) (c' : Crew), value ((s.launchRec pa.launch).outingCount pa.outing) m
          ∧ exec (.barcfg f) s =
            .next ((s.taken.modOutingBar pa n fun b => { b with members := m, arrived := 0 }).setCrew iss.crew c')
          ∧ c.Moved c' iss.slices iss.len ∧ { c' with slices := c.slices } = c)
      ∧ ((f.cl = 0 → s.barBusy 0 n (pa.bars.getD n {}).arrived (fun q _ => q = p) = true →
            exec (.barcfg f) s = .next (s.taken.raiseAll iss.crew iss.slices (iss.trap 0x0B n 0)))
          ∧ (f.cl = 1 → s.barBusy 1 n (s.outingBar pa n).arrived (fun _ q => q.launch = pa.launch && q.outing = pa.outing) = true →
            exec (.barcfg f) s = .next (s.taken.raiseAll iss.crew iss.slices (iss.trap 0x0B (n + 16) 0)))))
    ∧ (∀ (s : State) (level n : Nat) (arr : BitVec 32) (mine : Nat → Party → Bool),
      let waits (sl : Slice) : Prop := ∃ ph, sl.wait = .barrier level n ph ∨ sl.wait = .again level n ph
      let arrives (sl : Slice) : Prop := (∃ m, sl.wait = .accepted m)
        ∧ ∃ f : FmtA, (sl.fetched.instr = some (.bar f) ∨ sl.fetched.instr = some (.barArrive f))
          ∧ f.cl.toNat = level ∧ f.b.toNat % 16 = n
      s.barBusy level n arr mine = true ↔ arr ≠ 0
        ∨ (∃ x ∈ s.parties, mine x.1 x.2 = true
            ∧ ((level = 1 ∧ x.2.towardBar 1 n ≠ 0) ∨ ∃ c ∈ x.2.saved, ∃ sl ∈ c.slices, waits sl))
        ∨ ∃ x ∈ s.crews, ∃ p, x.2.partyId = some p ∧ mine p (s.party p) = true ∧ ∃ sl ∈ x.2.slices, waits sl ∨ arrives sl)
    ∧ (∀ (f : FmtA) (s : State) (iss : Issue) (c : Crew), s.issue = some iss → aget s.crews iss.crew = some c → c.partyId = none →
      (here c iss → ∀ a d, (a, d) ∈ [(Instr.bar f, (0 : Nat)), (.barArrive f, 1)] → f.b.toNat / 32 = d →
        ∃ c', exec a s = .next ((s.taken.setCrew iss.crew c').settle iss.crew) ∧ c.Moved c' c.liveSlices iss.len
          ∧ (∀ q, c'.sreg q = if d = 1 ∧ q = f.d.toNat then BitVec.ofNat 64 (f.cl.toNat * 2 ^ 8 + f.b.toNat % 16) else c.sreg q)
          ∧ { c' with sregs := c.sregs, slices := c.slices } = c)
      ∧ (here c iss → (c.sreg f.a.toNat).extractLsb' 8 2 < 2#2 → (c.sreg f.a.toNat).extractLsb' 0 4 < 4#4 →
        ∃ c', exec (.barWait f) s = .next ((s.taken.setCrew iss.crew c').settle iss.crew) ∧ c.Moved c' c.liveSlices iss.len
          ∧ { c' with slices := c.slices } = c)
      ∧ ∃ c', OnlyCrew (.barcfg f) s s.taken iss.crew c' ∧ c.Moved c' iss.slices iss.len ∧ { c' with slices := c.slices } = c)

/-- In a cooperative launch that is not abandoned, with the earlier accesses of the gang's slices performed, those of lanes
that have exited too: GBAR marks the arrival of its gang's slices and they wait for the phase; GBAR.ARRIVE writes the token
to s(D) and goes on; a slice that has arrived in the phase already waits for its end. Before that they wait for those
accesses. The crew arrives when its live slices all have, the party when its live crews have, after a merge of its core, and
the grid's phase rises by 1 when every party has arrived or retired: its arrivals are cleared and every slice of the launch
that waits for a completed phase goes on, at once where its core's replicas are dropped, else with a wait for the MOVING
page that a drop meets. GBAR.WAIT goes on at once when the phase of its token has completed, after the same drop, else
waits. In a launch that is not cooperative each form traps ILLEGAL, and so does GBAR.WAIT with a token of no grid barrier;
in an abandoned one each traps QUEUE with TRAPINFO 1 and a return behind the instruction. -/
def Obligations.GridBarriers : Prop :=
  let done (cur ph : BitVec 32) : Prop := cur ≠ ph ∧ (cur - ph).toNat ≤ 2 ^ 31
  let still (s : State) (p : Nat) : Prop :=
    ∀ x ∈ s.pages, x.2.dropsAt (s.party p).die (s.party p).core = false
  (∀ (f : FmtA) (s : State) (iss : Issue) (c : Crew) (p i slot : Nat) (la : Launch), s.issue = some iss →
    aget s.crews iss.crew = some c → c.place = .compute p i slot → aget s.launches (s.party p).launch = some la →
    la.coop = true → la.abandoned = false →
    let n := f.b.toNat % 4
    let ph := (la.gbars.getD n {}).phase
    let arr : BitVec 8 := (aget c.gridArr n).getD 0
    let fresh (j : Nat) : Prop := j ∈ iss.slices ∧ mbit arr j = false
    let stands (c' : Crew) (go : Slice → Slice) : Prop :=
      (∀ j, c'.slice j =
        if j ∈ iss.slices ∧ j < c.slices.length then
          (if mbit arr j then { c.slice j with wait := .again 2 n ph } else go (c.slice j)) else c.slice j)
      ∧ (∀ j, j < 8 → mbit ((aget c'.gridArr n).getD 0) j = (mbit arr j || decide (j ∈ iss.slices)))
      ∧ ∀ q, q ≠ n → aget c'.gridArr q = aget c.gridArr q
    let lanes := slicesMask iss.slices
    (s.Performed iss.crew lanes →
      (∃ c', exec (.gbar f) s = .next ((s.taken.setCrew iss.crew c').arriveGridCrew iss.crew n)
        ∧ stands c' (fun sl => { sl with wait := .barrier 2 n ph })
        ∧ { c' with slices := c.slices, gridArr := c.gridArr } = c)
      ∧ ∃ c', exec (.gbarArrive f) s = .next ((s.taken.setCrew iss.crew c').arriveGridCrew iss.crew n)
        ∧ stands c' (fun sl => { sl with pc := sl.pc + 4, wait := .none })
        ∧ ((∃ j, fresh j) → ∀ q, c'.sreg q = if q = f.d.toNat then BitVec.ofNat 64 (ph.toNat * 2 ^ 32 + 512 + n) else c.sreg q)
        ∧ ((∀ j, ¬fresh j) → c'.sregs = c.sregs)
        ∧ { c' with sregs := c.sregs, slices := c.slices, gridArr := c.gridArr } = c)
    ∧ (¬s.Performed iss.crew lanes → ∀ a ∈ [Instr.gbar f, .gbarArrive f],
      ∃ c', OnlyCrew a s s.taken iss.crew c'
        ∧ (∀ j, c'.slice j =
            if j ∈ iss.slices ∧ j < c.slices.length then { c.slice j with wait := .accepted lanes } else c.slice j)
        ∧ { c' with slices := c.slices } = c))
    ∧ (∀ (s : State) (k p i slot n : Nat) (c : Crew) (pa : Party) (la : Launch), aget s.crews k = some c →
      c.place = .compute p i slot → aget s.parties p = some pa → aget s.launches pa.launch = some la → n < la.gbars.length →
      let arr : BitVec 8 := (aget c.gridArr n).getD 0
      let now := mset (pa.towardBar 2 n) i true
      let s' := s.modParty p fun x => x.setToward 2 n now
      let u := s.arriveGridCrew k n
      ((∃ j ∈ c.liveSlices, mbit arr j = false) → u = s)
      ∧ (c.live ≠ 0 → arr ≠ 0 → (∀ j ∈ c.liveSlices, mbit arr j = true) → mbit (pa.towardBar 2 n) i = false →
        (s.liveCrews p &&& ~~~now ≠ 0 → u = s')
        ∧ (s.liveCrews p ≠ 0 → s.liveCrews p &&& ~~~now = 0 →
          let g := la.gbars.getD n {}
          let there (x : Nat) : Prop :=
            x = pa.index ∨ x ∈ g.arrived ∨ ∃ q ∈ s.parties, q.2.launch = pa.launch ∧ q.2.status = .retired ∧ q.2.index = x
          ((∃ x, x < la.total ∧ ¬there x) →
            u = (s'.drain p).modLaunch pa.launch fun l =>
              { l with gbars := lmod l.gbars n fun y =>
                { y with arrived := if y.arrived.contains pa.index then y.arrived else y.arrived ++ [pa.index] } })
          ∧ ((∀ x, x < la.total → there x) →
            (∃ l', aget u.launches pa.launch = some l' ∧ l'.gbars.getD n {} = { phase := g.phase + 1, arrived := [] }
              ∧ (∀ m, m ≠ n → l'.gbars.getD m {} = la.gbars.getD m {}) ∧ { l' with gbars := la.gbars } = la)
            ∧ (s.Ordered → ∀ k' d, aget s.crews k' = some d → ∃ d', aget u.crews k' = some d'
              ∧ { d' with slices := d.slices, gridArr := d.gridArr } = d ∧ ∀ j, j < 8 →
                let goes (q : Nat) : Prop := d.partyId = some q ∧ ∃ x ph, aget s.parties q = some x ∧ x.launch = pa.launch
                  ∧ (d.slice j).wait = .barrier 2 n ph ∧ done (g.phase + 1) ph
                (∀ q, goes q →
                  (still s q → d'.slice j = { d.slice j with pc := (d.slice j).pc + 4, wait := .none })
                  ∧ (¬still s q → ∃ x ∈ s.pages, x.2.run.isSome = true
                      ∧ d'.slice j = { d.slice j with pc := (d.slice j).pc + 4, wait := .moving x.1, addr := none }))
                ∧ ((∀ q, ¬goes q) → d'.slice j = d.slice j))))))
    ∧ (∀ (f : FmtA) (s : State) (iss : Issue) (c : Crew) (p : Nat) (la : Launch), s.issue = some iss →
      aget s.crews iss.crew = some c → c.partyId = some p → aget s.launches (s.party p).launch = some la →
      la.coop = true → la.abandoned = false →
      let t := c.sreg f.a.toNat
      let n := (t.extractLsb' 0 4).toNat
      let ph := t.extractLsb' 32 32
      t.extractLsb' 8 2 = 2 → n < 4 →
      (done (la.gbars.getD n {}).phase ph →
        ∃ c', c.Moved c' iss.slices 4 ∧ { c' with slices := c.slices } = c
          ∧ ((s.dropParty p).2 = none → exec (.gbarWait f) s = .next ((s.taken.dropParty p).1.setCrew iss.crew c'))
          ∧ ∀ pfn, (s.dropParty p).2 = some pfn → exec (.gbarWait f) s =
              .next (((s.taken.dropParty p).1.setCrew iss.crew c').waitMoving iss.crew iss.slices pfn))
      ∧ (¬done (la.gbars.getD n {}).phase ph →
        ∃ c', exec (.gbarWait f) s = .next (s.taken.setCrew iss.crew c')
          ∧ (∀ j, c'.slice j = if j ∈ iss.slices ∧ j < c.slices.length then { c.slice j with wait := .barrier 2 n ph } else c.slice j)
          ∧ { c' with slices := c.slices } = c))
    ∧ (∀ (f : FmtA) (s : State) (iss : Issue) (c : Crew) (a : Instr), s.issue = some iss →
      aget s.crews iss.crew = some c → a ∈ [.gbar f, .gbarArrive f, .gbarWait f] →
      let named := (c.sreg f.a.toNat).extractLsb' 8 2 = 2 ∧ (c.sreg f.a.toNat).extractLsb' 0 4 < 4#4
      ((c.partyId = none ∨ (∃ p, c.partyId = some p ∧ (s.launchRec (s.party p).launch).coop = false) ∨ (a = .gbarWait f ∧ ¬named)) →
        exec a s = .next (s.taken.raiseAll iss.crew iss.slices (iss.trap 0x01 iss.word.toNat 0)))
      ∧ (∀ p, c.partyId = some p → (s.launchRec (s.party p).launch).coop = true → (s.launchRec (s.party p).launch).abandoned = true →
        (a = .gbarWait f → named) →
        exec a s = .next (s.taken.raiseAll iss.crew iss.slices (iss.trap 0x16 1 0 true))))

/-- SIGPOST adds its operand to the party's slot, modulo 2^32, after the merge that its scope asks for, and widens the
slot's summary; at outing scope or wider it waits first until the earlier accesses of the gang's lanes are performed, and at
system scope a slice whose lane has lost a write takes FABRIC instead. SIGPOST.REMOTE, a release at device scope at least,
posts to its signal address: a live launch's party on a core gets the sum at once, one that is saved or not yet started
keeps the post with its guarded range, and gets both when it next issues, a post that does not match is dropped, and one to
another module leaves as a SIGNAL whose acceptance is awaited. SIGPOST.ADDR writes the slot's signal address. SIGWAIT goes
on when the slot holds its threshold or more (unsigned), after the drop over the summary, else waits; a slot beyond the
party's count traps ACCALLOC. WAITCNT waits while its counter exceeds n, else observes the class's destinations and goes on;
an operation that ended in error makes the gang's lowest slice trap ENGINE once, and the others go on. A drop that meets a
MOVING page waits for it, and the wait has ended then. On a service thread every slot lies beyond the count, so that
SIGPOST, SIGPOST.ADDR and SIGWAIT trap ACCALLOC: the model's choice (log 26). -/
def Obligations.SignalPostsAndWaits : Prop :=
  let moves (c c' : Crew) (iss : Issue) : Prop := c.Moved c' iss.slices iss.len ∧ { c' with slices := c.slices } = c
  let waits (c c' : Crew) (iss : Issue) (w : Wait) : Prop :=
    (∀ j, c'.slice j = if j ∈ iss.slices ∧ j < c.slices.length then { c.slice j with wait := w } else c.slice j)
      ∧ { c' with slices := c.slices } = c
  (∀ (f : FmtA) (s s1 : State) (iss : Issue) (c : Crew) (kc : Option Konst) (p : Nat),
    s.issue = some iss → s.ReadsConst iss f.k f.b s1 kc → aget s1.crews iss.crew = some c → c.partyId = some p →
    iss.slices ≠ [] → f.d.toNat < (s1.party p).sigCount → (2 ≤ f.p.scope.toNat → s1.Performed iss.crew (c.liveIn iss.slices)) →
    (f.p.scope = 5 → ∀ x ∈ c.lost, mbit (c.liveIn iss.slices) x.1 = false) →
    let v : Word := BitVec.ofNat 32 ((srcOf false 2 f.b 1 kc).read c .ui32 0)
    let r : GRange := if f.p.scope.toNat < 2 then .whole else guardOf c f.p
    let u := if f.p.scope.toNat < 2 then s1 else s1.mergeRange (s1.site c) c.tenant r
    ∃ c', exec (.sigpost f) s = .next (State.setCrew (u.modParty p fun x => { x with
          sigs := sset x.sigs f.d.toNat (sget x.sigs f.d.toNat + v)
          sigSummary := aset x.sigSummary f.d.toNat (((aget x.sigSummary f.d.toNat).getD .nothing).join r) }) iss.crew c')
      ∧ moves c c' iss)
    ∧ (∀ (f : FmtA) (s s1 : State) (iss : Issue) (c : Crew) (kc : Option Konst),
      s.issue = some iss → s.ReadsConst iss f.k f.b s1 kc → aget s1.crews iss.crew = some c → iss.slices ≠ [] →
      let a := (c.sreg f.a.toNat).toNat
      s1.Performed iss.crew (c.liveIn iss.slices) →
      ((f.p.scope = 5 ∨ natBits a 63 48 ≠ 0xFFFF) → ∀ x ∈ c.lost, mbit (c.liveIn iss.slices) x.1 = false) →
      let v : Word := BitVec.ofNat 32 ((srcOf false 2 f.b 1 kc).read c .ui32 0)
      ∃ c', exec (.sigpostRemote f) s = .next (((s1.mergeRange (s1.site c) c.tenant (guardOf c f.p)).post c.tenant a v
          (guardOf c f.p) iss.crew none).setCrew iss.crew c') ∧ moves c c' iss)
    ∧ (∀ (remote : Bool) (f : FmtA) (s s1 : State) (iss : Issue) (c : Crew) (kc : Option Konst),
      s.issue = some iss → s.ReadsConst iss f.k f.b s1 kc → aget s1.crews iss.crew = some c →
      let i := if remote then Instr.sigpostRemote f else .sigpost f
      let lanes := c.liveIn iss.slices
      (remote = false → (∃ p, c.partyId = some p ∧ f.d.toNat < (s1.party p).sigCount) ∧ 2 ≤ f.p.scope.toNat) →
      (¬s1.Performed iss.crew lanes → ∃ c', OnlyCrew i s s1 iss.crew c' ∧ waits c c' iss (.accepted lanes))
      ∧ (s1.Performed iss.crew lanes → f.p.scope = 5 → ∀ j, iss.slices = [j] →
          ∀ x ∈ c.lost.find? (fun x => decide (x.1 / 4 = j) && mbit lanes x.1),
            exec i s = .next ((s1.modCrew iss.crew fun c => { c with lost := c.lost.filter fun y => !(y.1 / 4 = j && y.2 == x.2) }).raise
              iss.crew j (iss.trap 0x15 x.2.toNat x.2.toNat))))
    ∧ (∀ (s : State) (t a : Nat) (v : Word) (r : GRange) (k : Nat) (op : Option Nat),
      let slot := natBits a 47 42
      let index := natBits a 31 0
      (natBits a 63 48 ≠ 0xFFFF →
        s.post t a v r k op = { s with
          nextId := s.nextId + 1
          requests := s.requests ++ [{ id := s.nextId, group := s.nextId, crew := k, addr := BitVec.ofNat 64 a, size := 4
                                       since := s.time, store := true, told := false, op := op }]
          outbox := s.outbox ++ [.signal (natBits a 63 48) (BitVec.ofNat 64 a) v s.nextId] })
      ∧ (natBits a 63 48 = 0xFFFF →
        (s.tagged a = none → s.post t a v r k op = s)
        ∧ ∀ l la, s.tagged a = some (l, la) →
          ((la.tenant ≠ t ∨ la.signals ≤ slot ∨ la.total ≤ index) → s.post t a v r k op = s)
          ∧ (la.tenant = t → slot < la.signals → index < la.total →
            let held := s.modLaunch l fun x => { x with heldPosts := x.heldPosts ++ [(index, slot, v, r)] }
            (s.findParty l index = none → s.post t a v r k op = held)
            ∧ ∀ p pa, s.findParty l index = some (p, pa) →
              ((∃ area, pa.status = .saved area) → s.post t a v r k op = held)
              ∧ ((pa.status = .discarded ∨ pa.status = .retired) → s.post t a v r k op = s)
              ∧ ((pa.status = .resident ∨ ∃ at_, pa.status = .stopping at_) → s.post t a v r k op = s.modParty p fun x =>
                  { x with sigs := sset x.sigs slot (sget x.sigs slot + v)
                           sigSummary := aset x.sigSummary slot (((aget x.sigSummary slot).getD .nothing).join r) }))))
    ∧ (∀ (s : State) (l p slot : Nat) (v : Word) (r : GRange) (pa : Party) (la : Launch), aget s.parties p = some pa →
      aget s.launches l = some la → la.heldPosts = [(pa.index, slot, v, r)] →
      s.addHeld l p = (s.modParty p fun x =>
        { x with sigs := sset x.sigs slot (sget x.sigs slot + v)
                 sigSummary := aset x.sigSummary slot (((aget x.sigSummary slot).getD .nothing).join r) }).modLaunch l
          fun x => { x with heldPosts := [] })
    ∧ (∀ (f : FmtA) (s : State) (iss : Issue) (c : Crew) (p : Nat), s.issue = some iss → aget s.crews iss.crew = some c →
      c.partyId = some p → f.b.toNat < (s.party p).sigCount → f.b < 64#7 →
      ∃ c', OnlyCrew (.sigpostAddr f) s s.taken iss.crew c'
        ∧ c'.sreg f.d.toNat = 0xFFFF#16 ++ f.b.setWidth 6 ++ (s.launchRec (s.party p).launch).tag.setWidth 10
            ++ BitVec.ofNat 32 (s.party p).index
        ∧ (∀ q, q ≠ f.d.toNat → c'.sreg q = c.sreg q) ∧ c.Moved c' iss.slices iss.len
        ∧ { c' with sregs := c.sregs, slices := c.slices } = c)
    ∧ (∀ (f : FmtA) (s s1 : State) (iss : Issue) (c : Crew) (kc : Option Konst) (p : Nat),
      s.issue = some iss → s.ReadsConst iss f.k f.b s1 kc → aget s1.crews iss.crew = some c → c.partyId = some p →
      f.d.toNat < (s1.party p).sigCount → (∀ n w, (c.slice (iss.slices.headD 0)).wait ≠ .signal n w ∧ (c.slice (iss.slices.headD 0)).wait ≠ .replay n) →
      let thr : Word := BitVec.ofNat 32 ((srcOf false 2 f.b 1 kc).read c .ui32 0)
      let r := (aget (s1.party p).sigSummary f.d.toNat).getD .nothing
      (thr ≤ sget (s1.party p).sigs f.d.toNat → s1.dropMoving (s1.site c) c.tenant r = none →
        ∃ c', exec (.sigwait f) s = .next ((s1.dropRange (s1.site c) c.tenant r).setCrew iss.crew c') ∧ moves c c' iss)
      ∧ (thr ≤ sget (s1.party p).sigs f.d.toNat → ∀ pfn, s1.dropMoving (s1.site c) c.tenant r = some pfn →
        exec (.sigwait f) s = .next (s1.waitMoving iss.crew iss.slices pfn))
      ∧ (sget (s1.party p).sigs f.d.toNat < thr →
        ∃ c', OnlyCrew (.sigwait f) s s1 iss.crew c' ∧ waits c c' iss (.signal f.d.toNat thr)))
    ∧ (∀ (f : FmtA) (s : State) (iss : Issue) (c : Crew) (p : Nat), s.issue = some iss → aget s.crews iss.crew = some c →
      c.partyId = some p → f.d.toNat < (s.party p).sigCount → (∃ n w, (c.slice (iss.slices.headD 0)).wait = .signal n w ∨ (c.slice (iss.slices.headD 0)).wait = .replay n) →
      let r := (aget (s.party p).sigSummary f.d.toNat).getD .nothing
      s.dropMoving (s.site c) c.tenant r = none →
      ∃ c', exec (.sigwait f) s = .next ((s.taken.dropRange (s.site c) c.tenant r).setCrew iss.crew c') ∧ moves c c' iss)
    ∧ (∀ (a : Instr) (slot : Nat) (f : FmtA) (s : State) (iss : Issue) (c : Crew),
      s.issue = some iss → aget s.crews iss.crew = some c → f.k = 0 →
      (a, slot) ∈ [(Instr.sigpost f, f.d.toNat), (.sigpostAddr f, f.b.toNat), (.sigwait f, f.d.toNat)] →
      (∀ p, c.partyId = some p → (s.party p).sigCount ≤ slot) →
      exec a s = .next (s.taken.raiseAll iss.crew iss.slices (iss.trap 0x0D 2 0)))
    ∧ (∀ (f : FmtA) (s : State) (iss : Issue) (c : Crew), s.issue = some iss → aget s.crews iss.crew = some c → f.d.toNat < 4 →
      let cls : EngClass := match f.d.toNat with | 0 => .copy | 1 => .gather | 2 => .matrix | _ => .coll
      let count := match f.d.toNat with | 0 => c.cnt.copy | 1 => c.cnt.gather | 2 => c.cnt.matrix | _ => c.cnt.coll
      let n := f.b.toNat
      let ended : Prop := count.toNat ≤ n ∨ ∃ m, (c.slice (iss.slices.headD 0)).wait = .replay m
      let mine := c.unobserved.filter fun x => x.1 == cls
      let u := mine.foldl (fun (x : State) r => x.dropRange (x.site c) c.tenant r.2) s.taken
      (¬ended → ∃ c', OnlyCrew (.waitcnt f) s s.taken iss.crew c' ∧ waits c c' iss (.count f.d.toNat n))
      ∧ (ended → (∀ x ∈ c.failed, x.1 ≠ cls) →
          (63 ≤ n → ∃ c', OnlyCrew (.waitcnt f) s s.taken iss.crew c' ∧ moves c c' iss)
          ∧ (n < 63 → (∀ x ∈ mine, s.dropMoving (s.site c) c.tenant x.2 = none) →
            ∃ c', exec (.waitcnt f) s = .next (u.setCrew iss.crew c') ∧ c.Moved c' iss.slices iss.len
              ∧ c'.unobserved = c.unobserved.filter (fun x => x.1 != cls)
              ∧ { c' with unobserved := c.unobserved, slices := c.slices } = c))
      ∧ (ended → n < 63 → ∀ pfn, mine.findSome? (fun x => s.dropMoving (s.site c) c.tenant x.2) = some pfn →
          exec (.waitcnt f) s = .next (s.taken.waitMoving iss.crew iss.slices pfn))
      ∧ (ended → (n < 63 → ∀ x ∈ mine, s.dropMoving (s.site c) c.tenant x.2 = none) →
          ∀ i rest x, iss.slices = i :: rest → c.failed.find? (fun y => y.1 == cls) = some x →
          ∃ c', exec (.waitcnt f) s = .next (((if 63 ≤ n then s.taken else u).setCrew iss.crew c').raise iss.crew i
              (iss.trap 0x0C (0x10 + f.d.toNat * 2 ^ 8 + x.2.toNat * 2 ^ 40) 0))
            ∧ c.Moved c' rest iss.len ∧ c'.failed = c.failed.eraseP (fun y => y.1 == cls)
            ∧ c'.unobserved = (if 63 ≤ n then c.unobserved else c.unobserved.filter (fun x => x.1 != cls))
            ∧ { c' with failed := c.failed, unobserved := c.unobserved, slices := c.slices } = c))

/-- With room in its counter, a descriptor (for MSTORE and PUTSIG: lanes) that passes its checks, each answers the state
after the issue merge over its sources and destination with one more operation in flight, which holds the descriptor or the
active lanes' writes read at issue; the counter of its class is 1 higher and the gang goes on; COLL takes the group's next
number, MSTORE and PUTSIG advance POST index registers. A descriptor that fails a check makes every slice of the gang trap
ENGINE with the first reason in the order 1, 2, 3, 7, 4, 6, 5 and starts nothing; with 63 in flight the gang waits. Where
the issue drop meets a page MOVING to or from a replica of the core, the gang goes on all the same and the operation alone
waits for that page (R347, R445; O54). MSTORE on a group that is not the tenant's traps FABRIC. RLOAD sends one REDREAD for
each active lane, whose values its flight lands once every response has come. No register, no other crew and no other
operation changes. (A reserved ROP counts with reason 2: log 27. That only bits [23:0] of a base in scratchpad or in slots
count is the model's choice: log 57.) -/
def Obligations.EngineStart : Prop :=
  let starts (i : Instr) (s : State) (merged : State × List Nat) (set : State → State) (iss : Issue) (c : Crew) (cls : EngClass)
      (kind : EngKind) (desc : List DWord) (writes : List LaneWrite) (group seq : Nat) (dst : GRange) (ops : List VOp) : Prop :=
    ∃ (o : EngineOp) (c' : Crew),
      (let s0 := set merged.1
       exec i s = .next (State.setCrew { s0 with nextId := s0.nextId + 1, ops := s0.ops ++ [o] } iss.crew c'))
      ∧ { o with die := 0, core := 0, lanes := 0 } =
        ({ id := s.nextId, crew := iss.crew, party := c.partyId, tenant := c.tenant, die := 0, core := 0, cls := cls, kind := kind
           desc := desc, writes := writes, group := group, seq := seq, dst := dst, after := merged.2, pc := iss.pc, word := iss.word
           slice := iss.slices.headD 0 } : EngineOp)
      ∧ (∀ d k, s.site c = .core d k → o.die = d ∧ o.core = k)
      ∧ o.lanes = (c.exec &&& sliceMask (iss.slices.headD 0)).toNat
      ∧ c'.cnt = (match cls with
        | .copy => { c.cnt with copy := c.cnt.copy + 1 }
        | .gather => { c.cnt with gather := c.cnt.gather + 1 }
        | .matrix => { c.cnt with matrix := c.cnt.matrix + 1 }
        | .coll => { c.cnt with coll := c.cnt.coll + 1 })
      ∧ c.OffsetsMoved c' (c.activeIn iss.slices) ops ∧ c.Moved c' iss.slices iss.len
      ∧ { c' with cnt := c.cnt, xofs := c.xofs, slices := c.slices } = c
  let desc (c : Crew) (f : FmtA) (n : Nat) : List DWord := (List.range n).map fun i => c.sreg (f.a.toNat + i)
  let fails (i : Instr) (s : State) (iss : Issue) (cls r : Nat) : Prop :=
    exec i s = .next (s.taken.raiseAll iss.crew iss.slices (iss.trap 0x0C (r + cls * 2 ^ 8) 0))
  let first (x : Option Nat) (bad : Nat → Prop) : Prop :=
    (x = none ↔ ∀ r ∈ [1, 2, 3, 7, 4, 6, 5], ¬bad r)
      ∧ ∀ r, x = some r ↔ ∃ before after, [1, 2, 3, 7, 4, 6, 5] = before ++ r :: after ∧ bad r ∧ ∀ q ∈ before, ¬bad q
  let full (i : Instr) (s : State) (iss : Issue) (c : Crew) (cls : Nat) : Prop :=
    ∃ c', OnlyCrew i s s.taken iss.crew c'
      ∧ (∀ j, c'.slice j = if j ∈ iss.slices ∧ j < c.slices.length then { c.slice j with wait := .count cls 62 } else c.slice j)
      ∧ { c' with slices := c.slices } = c
  (∀ (f : FmtA) (s : State) (iss : Issue) (c : Crew), s.issue = some iss → aget s.crews iss.crew = some c →
    let d := desc c f 16
    let w (i : Nat) : Nat := (d.getD i 0).toNat
    let some_ : Bool := extProd w 0 (natBits (w 5) 35 32) != 0
    let span (space base : Nat) (x : Int × Int) : GRange := if space = 0 && some_ then spanOf (base + x.1) (base + x.2) else .nothing
    let src := span (natBits (w 5) 45 44) (w 0) (copySpan w (copySstr w) (natBits (w 5) 35 32))
    let dst := span (natBits (w 5) 47 46) (w 1) (copySpan w (copyDstr w) (natBits (w 5) 35 32))
    (c.cnt.copy ≠ 63 → copyReason s c w = none →
      starts (.copy f) s (s.taken.issueMerge c [src] dst) id iss c .copy .copy d [] 0 0 dst [])
    ∧ (c.cnt.copy ≠ 63 → ∀ r, copyReason s c w = some r → fails (.copy f) s iss 0 r)
    ∧ (c.cnt.copy = 63 → full (.copy f) s iss c 0))
    ∧ (∀ (s : State) (c : Crew) (w : Nat → Nat),
      let ndim := natBits (w 5) 35 32
      let tdim := natBits (w 5) 43 40
      let esize := natBits (w 5) 38 36
      let ss := natBits (w 5) 45 44
      let ds := natBits (w 5) 47 46
      first (copyReason s c w) fun r =>
        match r with
        | 1 => ndim = 0 ∨ 10 < ndim ∨ tdim = 0 ∨ ndim < tdim
        | 2 => 4 < esize
        | 3 => ds = 3 ∨ ss = 3
        | 4 => (ss = 2 ∧ s.slotsOf c ≤ natBits (w 0) 22 16) ∨ (ds = 2 ∧ s.slotsOf c ≤ natBits (w 1) 22 16)
        | 6 => ¬(w 0 % 2 ^ esize = 0 ∧ w 1 % 2 ^ esize = 0)
        | 5 => extProd w 0 ndim ≠ 0 ∧ ¬(s.spaceHolds c ss (w 0) (copySpan w (copySstr w) (natBits (w 5) 35 32)).1 (copySpan w (copySstr w) (natBits (w 5) 35 32)).2 = true
            ∧ s.spaceHolds c ds (w 1) (copySpan w (copyDstr w) (natBits (w 5) 35 32)).1 (copySpan w (copyDstr w) (natBits (w 5) 35 32)).2 = true)
        | _ => False)
    ∧ (∀ (s : State) (c : Crew) (w : Nat → Nat) (scatter : Bool),
      let count := natBits (w 4) 63 32
      let rbytes := natBits (w 4) 31 0
      let xs := natBits (w 6) 51 50
      let ls := natBits (w 6) 49 48
      let stride := natBits (w 6) 31 0
      first (rowReason s c w scatter) fun r =>
        match r with
        | 1 => count = 0 ∨ 2 ^ 24 < count ∨ rbytes = 0 ∨ 65536 < rbytes ∨ rbytes % 4 ≠ 0
        | 3 => xs = 3 ∨ (scatter = true ∧ xs = 2) ∨ 2 ≤ ls
        | 4 => xs = 2 ∧ s.slotsOf c ≤ natBits (w 1) 22 16
        | 6 => ¬(w 0 % 4 = 0 ∧ w 1 % 4 = 0 ∧ w 3 % 4 = 0 ∧ w 5 % 4 = 0 ∧ stride % 4 = 0)
        | 5 => ¬(s.spaceHolds c xs (w 1) 0 (((count - 1) * stride + rbytes : Nat)) = true
            ∧ s.spaceHolds c ls (w 3) 0 ((4 * count : Nat)) = true)
        | _ => False)
    ∧ (∀ (s : State) (c : Crew) (w : Nat → Nat),
      let g := natBits (w 0) 23 16
      let kind := natBits (w 0) 2 0
      let ty := natBits (w 0) 7 5
      let size := if ty = 1 then 2 else 4
      first (collReason s c w) fun r =>
        match r with
        | 1 => natBits (w 0) 63 32 = 0 ∨ 4 ≤ kind
        | 2 => 3 ≤ ty ∨ ((kind = 1 ∨ kind = 2) ∧ natBits (w 0) 4 3 = 3)
        | 7 => natBit (s.groupWord g 0) 0 = false ∨ natBits (s.groupWord g 0) 7 4 ≠ (s.tenant c.tenant).number
            ∨ natBits (s.groupWord g 0) 28 16 ≤ natBits (w 3) 47 32
        | 6 => w 1 % size ≠ 0 ∨ w 2 % size ≠ 0
        | _ => False)
    ∧ (∀ (s : State) (c : Crew) (space base : Nat) (lo hi : Int), s.spaceHolds c space base lo hi = true ↔
      space = 0
        ∨ (space = 1 ∧ ∃ size, s.memberSize c (natBits base 23 21) = some size
            ∧ 0 ≤ (natBits base 20 0 : Nat) + lo ∧ (natBits base 20 0 : Nat) + hi ≤ (size : Int))
        ∨ (2 ≤ space ∧ 0 ≤ (natBits base 15 0 : Nat) + lo ∧ (natBits base 15 0 : Nat) + hi ≤ 49152))
    ∧ (∀ (scatter : Bool) (f : FmtA) (s : State) (iss : Issue) (c : Crew), s.issue = some iss → aget s.crews iss.crew = some c →
      let d := desc c f 8
      let w (i : Nat) : Nat := (d.getD i 0).toNat
      let i : Instr := if scatter then .scatter f else .gather f
      let src := if scatter then (rowRanges w).1 else (rowRanges w).2.2
      let dst := if scatter then (rowRanges w).2.2 else (rowRanges w).1
      (c.cnt.gather ≠ 63 → rowReason s c w scatter = none →
        starts i s (s.taken.issueMerge c [(rowRanges w).2.1, src] dst) id iss c .gather
          (if scatter then .scatter f.d.toNat else .gather) d [] 0 0 dst [])
      ∧ (c.cnt.gather ≠ 63 → ∀ r, rowReason s c w scatter = some r → fails i s iss 1 r)
      ∧ (c.cnt.gather = 63 → full i s iss c 1))
    ∧ (∀ (f : FmtA) (s : State) (iss : Issue) (c : Crew), s.issue = some iss → aget s.crews iss.crew = some c →
      let d := desc c f 6
      let w (i : Nat) : Nat := (d.getD i 0).toNat
      let g := natBits (w 0) 23 16
      let size := if natBits (w 0) 7 5 = 1 then 2 else 4
      let src := spanOf (w 1) ((w 1 + collSource (s.members g) (s.rank g) w * size : Nat))
      let dst := spanOf (w 2) ((w 2 + collElems (s.members g) w * size : Nat))
      let seq := sget s.groupSeq g
      (c.cnt.coll ≠ 63 → collReason s c w = none →
        starts (.coll f) s (s.taken.issueMerge c [src] dst) (fun u => { u with groupSeq := sset s.groupSeq g (seq + 1) }) iss c .coll
          .coll d [] g seq.toNat dst [])
      ∧ (c.cnt.coll ≠ 63 → ∀ r, collReason s c w = some r → fails (.coll f) s iss 3 r)
      ∧ (c.cnt.coll = 63 → full (.coll f) s iss c 3))
    ∧ (∀ (put : Bool) (f : FmtA) (s : State) (iss : Issue) (c : Crew), s.issue = some iss → aget s.crews iss.crew = some c →
      let n := 2 ^ f.cl.toNat
      let b : VOp := { pos := 2, field := f.b.toNat, n := 1 }
      let d : VOp := { pos := 0, field := f.d.toNat, n := n }
      let base := (c.sreg f.a.toNat).toNat
      let addr (l : Nat) : Nat := (base + c.vnat b l) % 2 ^ 64
      let g := natBits base 63 56
      let ws := (c.activeIn iss.slices).map fun l =>
        ({ slice := l / 4, addr := BitVec.ofNat 64 (if put then addr l else base % 2 ^ 48 + c.vnat b l)
           data := leBytes (c.vnat d l) (4 * n) } : LaneWrite)
      let dst := writesSpan (if put then 0 else s.groupWord g 1) ws
      let i : Instr := if put then .putsig f else .mstore f
      (c.NamesOk iss [d, b] → c.cnt.coll ≠ 63 → (∀ l ∈ c.activeIn iss.slices, addr l % (4 * n) = 0) →
        (put = false → s.groupOk g c.tenant = true) →
        (put = true → ∀ l ∈ c.activeIn iss.slices, ∃ t, s.access c (addr l) (4 * n) .write = .ok t ∧ ∀ pa, t ≠ .mmio pa) →
        starts i s (s.taken.issueMerge c [] dst) id iss c .coll (if put then .putsig else .mstore)
          (if put then [c.sreg f.a.toNat, c.sreg (f.a.toNat + 1)] else []) ws (if put then 0 else g) 0 dst [d, b])
      ∧ (c.cnt.coll = 63 → full i s iss c 3)
      ∧ (put = false → c.NamesOk iss [d, b] → c.cnt.coll ≠ 63 → (∀ l ∈ c.activeIn iss.slices, addr l % (4 * n) = 0) →
        s.groupOk g c.tenant = false → exec i s = .next (s.taken.raiseAll iss.crew iss.slices (iss.trap 0x15 base base)))
      ∧ (∀ j, iss.slices = [j] → c.cnt.coll ≠ 63 →
        (∀ code info, c.nameFault j [d, b] = some (code, info) → exec i s = .next (s.taken.raise iss.crew j (iss.trap code info 0)))
        ∧ (c.nameFault j [d, b] = none → ∀ m rest, (c.activeOf j).filter (fun l => addr l % (4 * n) ≠ 0) = m :: rest →
          exec i s = .next (s.taken.raise iss.crew j
            (iss.trap 0x05 ((m :: rest).foldl (fun x l => x + 2 ^ l) 0) (addr m))))))
    ∧ (∀ (f : FmtA) (s : State) (iss : Issue) (c : Crew) (i : Nat), s.issue = some iss → aget s.crews iss.crew = some c →
      iss.slices = [i] →
      let d : VOp := { pos := 0, field := f.d.toNat, n := 1 }
      let b : VOp := { pos := 2, field := f.b.toNat, n := 1 }
      let ty := if f.p.dt = 4 then 1 else if f.p.dt = 10 then 2 else 0
      let n := if ty = 1 then 2 else 4
      let base := (c.sreg f.a.toNat).toNat
      let g := natBits base 63 56
      let off (l : Nat) : Nat := base % 2 ^ 48 + c.vnat b l
      let lanes := c.activeOf i
      c.nameFault i [d, b] = none → (∀ l ∈ lanes, (base + c.vnat b l) % 2 ^ 64 % n = 0) →
      (s.groupOk g c.tenant = false → exec (.rload f) s = .next (s.taken.raise iss.crew i (iss.trap 0x15 base base)))
      ∧ (s.groupOk g c.tenant = true → lanes ≠ [] → s.hops (cacheDie (s.site c)) 4 = none →
        ∃ c', OnlyCrew (.rload f) s s.taken iss.crew c'
          ∧ (∀ j, c'.slice j = if j = i ∧ i < c.slices.length then
              { c.slice i with
                wait := .route 4 (BitVec.ofNat 64 base) (match (c.slice i).wait with | .route _ _ t => t | _ => s.time) }
            else c.slice j)
          ∧ { c' with slices := c.slices } = c)
      ∧ (s.groupOk g c.tenant = true → (lanes = [] ∨ (s.hops (cacheDie (s.site c)) 4).isSome = true) →
        ((∃ l ∈ lanes, s.groupWord g 2 < off l + n) →
          exec (.rload f) s = .next (s.taken.raise iss.crew i (iss.trap 0x15 base base)))
        ∧ (lanes = [] → ∃ c', OnlyCrew (.rload f) s s.taken iss.crew c' ∧ c.Moved c' [i] iss.len ∧ { c' with slices := c.slices } = c)
        ∧ (0 < s.nextId → lanes ≠ [] → (∀ l ∈ lanes, off l + n ≤ s.groupWord g 2) →
          ∃ (c' : Crew) (fl : Flight), exec (.rload f) s = .next (State.setCrew { s.taken with
              nextId := s.nextId + 1 + lanes.length
              requests := s.requests ++ lanes.zipIdx.map fun (l, j) =>
                ({ id := s.nextId + 1 + j, group := s.nextId, crew := iss.crew, lane := l, mask := maskOf 32 32 (· = l)
                   addr := BitVec.ofNat 64 base, size := n, since := s.time } : Request)
              outbox := s.outbox ++ lanes.zipIdx.map fun (l, j) => Msg.redread g (off l) n f.cl.toNat ty (s.nextId + 1 + j) }
                iss.crew c')
            ∧ c'.flights = c.flights ++ [fl] ∧ fl.group = s.nextId ∧ fl.sz = 2 ∧ fl.uni = [] ∧ fl.eret = false ∧ fl.drop = false
            ∧ fl.lanes = lanes.map (fun l => { lane := l, regs := [c.phys d l 0], code := none })
            ∧ (∀ m, m < 32 → mbit fl.off m = false)
            ∧ (∀ x m v, (x, m, v) ∈ fl.offs ↔ x < 8 ∧ m ∈ lanes ∧ [d, b].any (fun o => o.index == some x)
                ∧ xPost (c.xreg x) = true ∧ v = nextOfs (c.xreg x) (c.ofs x m))
            ∧ (∀ j, c'.slice j = if j = i ∧ i < c.slices.length then
                { c.slice i with pc := (c.slice i).pc + BitVec.ofNat 64 iss.len, wait := .reply s.nextId } else c.slice j)
            ∧ { c' with flights := c.flights, slices := c.slices } = c)))
    ∧ (∀ (s : State) (c : Crew) (srcs : List GRange) (dst : GRange) (d k : Nat), s.site c = .core d k →
      let late := (s.issueMerge c srcs dst).2
      (∀ pfn ∈ late, ∃ x ∈ s.pages, x.1 = pfn ∧ x.2.dropsAt d k = true)
        ∧ ((∀ x ∈ s.pages, x.2.dropsAt d k = false) → late = [] ∧ s.issueMerge c srcs dst =
            ((srcs.foldl (fun u r => u.mergeRange (u.site c) c.tenant r) s).dropRange (.core d k) c.tenant dst, [])))

/-- With room in the matrix counter and every check passed in each slice of the gang and each slice that waits at the pass
for one of them, MMA and MMAB answer the state in which every active lane's 192 cells of accumulator D hold what the cell
rule gives for the lane's row, the slot's column and the old cell; every other cell is as it was; the events join ASTAT
[4:0] and, where a lane is active, ROW0 stands in [21:16]; the counter is 1 higher, the pass holds its accumulator and the
registers that it reads until it retires, index registers with POST advance and those slices go on. An integer cell is the
old value plus the exact sum of the products, clamped under SAT and wrapped otherwise. A float cell with a NaN among its
inputs is the canonical NaN, with an invalid scale byte, a term 0 × ∞ or infinities of both signs the canonical NaN with
INV, with infinities of one sign that infinity, else the old value plus the exact sum of its terms rounded once to F32 by
RN. MMA sums over the depth, MMAB over the diagonal block of the column. A failed check traps the lowest slice that fails,
and the others wait for it. The checks are FMT with the least reason that R128's table gives, the names of vN and, where ASC
is set, of ASREG (R382), ACCALLOC with TRAPINFO 0 for an accumulator at or beyond k, and ACCALLOC with TRAPINFO 1 for a
slot, or the second one of a 16-bit pair, at or beyond the party's slot count. -/
def Obligations.MatrixPasses : Prop :=
  let fb (c : Crew) (f : FmtA) : FmtBlock := fmtBlock (c.sreg (if f.p.cp then f.p.c.toNat else 126)).toNat
  let all (c : Crew) (iss : Issue) : List Nat := slices8.filter fun i =>
    decide (i ∈ iss.slices ∨ (i ∈ c.liveSlices ∧ (c.slice i).pc = iss.pc ∧ (c.slice i).pend = none
      ∧ ∃ o ∈ iss.slices, (c.slice i).wait = .matrix o))
  (∀ (diagonal : Bool) (f : FmtA) (s : State) (iss : Issue) (c : Crew), s.issue = some iss → aget s.crews iss.crew = some c →
    c.cnt.matrix ≠ 63 → (∀ i ∈ all c iss, passFault s c (fb c f) f i = none) →
    let a := f.d.toNat
    let lanes := c.activeIn (all c iss)
    let cell (l n : Nat) : Nat × BitVec 5 :=
      passCell s (c.partyId.getD 0) (fb c f) diagonal f.b.toNat (passRow c (fb c f) f l) n (sget c.acc (accKey a l n)).toNat
    ∃ c', OnlyCrew (if diagonal then .mmab f else .mma f) s s.taken iss.crew c'
      ∧ (∀ l ∈ lanes, ∀ n, n < 192 → sget c'.acc (accKey a l n) = BitVec.ofNat 32 (cell l n).1)
      ∧ (∀ k, (∀ l ∈ lanes, ∀ n, n < 192 → k ≠ accKey a l n) → sget c'.acc k = sget c.acc k)
      ∧ (∀ j, j < 5 → (mbit (sget c'.astat a) j = true ↔
          mbit (sget c.astat a) j = true ∨ ∃ l ∈ lanes, ∃ n, n < 192 ∧ mbit (cell l n).2 j = true))
      ∧ (lanes ≠ [] → (fb c f).row0 < 64 → ((sget c'.astat a).extractLsb' 16 6).toNat = (fb c f).row0)
      ∧ (∀ j, 5 ≤ j → ¬(16 ≤ j ∧ j < 22) → mbit (sget c'.astat a) j = mbit (sget c.astat a) j)
      ∧ (∀ x, x ≠ a → sget c'.astat x = sget c.astat x)
      ∧ c'.cnt = { c.cnt with matrix := c.cnt.matrix + 1 }
      ∧ c.OffsetsMoved c' lanes (passOps (fb c f) f) ∧ c.Moved c' (all c iss) iss.len
      ∧ (∃ p : Pass, c'.passes = c.passes ++ [p] ∧ p.acc = a ∧ p.reads = (passOps (fb c f) f).map c.pendOf)
      ∧ { c' with acc := c.acc, astat := c.astat, xofs := c.xofs, cnt := c.cnt, passes := c.passes, slices := c.slices } = c)
    ∧ (∀ (s : State) (c : Crew) (b : FmtBlock) (f : FmtA) (i : Nat),
      let four (x : Nat) : Bool := x == 4 || x == 6
      let broken (r : Nat) : Prop :=
        (r = 1 ∧ 7 ≤ b.afmt) ∨ (r = 2 ∧ 7 ≤ b.bfmt) ∨ (r = 3 ∧ b.blk = 3) ∨ (r = 4 ∧ ¬(b.afmt < 5 ↔ b.bfmt < 5))
        ∨ (r = 5 ∧ ((b.asc = true ∧ b.afmt ∉ [2, 3, 4]) ∨ (b.bsc = true ∧ b.bfmt ∉ [2, 3, 4])))
        ∨ (r = 6 ∧ ((b.afmt = 4 ∧ b.asc = false) ∨ (b.bfmt = 4 ∧ b.bsc = false)))
        ∨ (r = 7 ∧ (b.afmt = 4 ∨ b.bfmt = 4) ∧ b.blk ≠ 0) ∨ (r = 8 ∧ b.bfmt < 2 ∧ f.b.toNat % 2 = 1)
      (∀ r, broken r → (∀ q, q < r → ¬broken q) → passFault s c b f i = some (0x0E, r))
      ∧ ((∀ r, ¬broken r) →
        let depth := if four b.afmt && four b.bfmt then 384 else 192
        let na := depth / (if four b.afmt then 8 else if b.afmt < 2 then 2 else 4)
        let ns := (depth + 32 * 2 ^ b.blk - 1) / (32 * 2 ^ b.blk)
        let ops : List VOp :=
          { pos := 1, field := f.a.toNat, n := na } :: (if b.asc then [{ pos := 3, field := b.asreg, n := ns }] else [])
        let slots := match c.partyId with | some p => (s.party p).slotCount | none => 0
        passOps b f = ops ∧ passFault s c b f i =
          match c.nameFault i ops with
          | some t => some t
          | none =>
            if c.k ≤ f.d.toNat then some (0x0D, 0)
            else if slots ≤ f.b.toNat + (if b.bfmt < 2 then 1 else 0) then some (0x0D, 1) else none))
    ∧ (∀ (s : State) (pa : Nat) (b : FmtBlock) (diagonal : Bool) (slot : Nat) (row : Nat × Nat) (n old : Nat),
      5 ≤ b.afmt → 5 ≤ b.bfmt → old < 2 ^ 32 →
      let x (k : Nat) : Int := natSext (rowItem row.1 (mxBits b.afmt) k) (mxBits b.afmt)
      let y (k : Nat) : Int := natSext (bElem s pa b.bfmt slot k n) (mxBits b.bfmt)
      let e : Int := natSext old 32 + ((b.terms diagonal n).map fun k => x k * y k).sum
      Ty.Pattern .si32 b.sat e (passCell s pa b diagonal slot row n old).1
        ∧ (passCell s pa b diagonal slot row n old).2 =
          (if -(2 ^ 31) ≤ e ∧ e < 2 ^ 31 then 0 else if b.sat then 2 else 4))
    ∧ (∀ (s : State) (pa : Nat) (b : FmtBlock) (diagonal : Bool) (slot : Nat) (row : Nat × Nat) (n old : Nat) (fa fbm : Fmt),
      mxFmt b.afmt = some fa → mxFmt b.bfmt = some fbm →
      (Fmt.f32.value old = .nan ∨ Fmt.bf16.value b.aband = .nan ∨ Fmt.bf16.value (bBand s pa slot n) = .nan ∨ ∃ k ∈ b.terms diagonal n,
        fa.value (rowItem row.1 (mxBits b.afmt) k) = .nan ∨ fbm.value (bElem s pa b.bfmt slot k n) = .nan) →
      passCell s pa b diagonal slot row n old = (Fmt.f32.canon, 8))
    ∧ (∀ (s : State) (pa : Nat) (b : FmtBlock) (diagonal : Bool) (slot : Nat) (row : Nat × Nat) (n old : Nat) (fa fbm : Fmt),
      mxFmt b.afmt = some fa → mxFmt b.bfmt = some fbm →
      let ks := b.terms diagonal n
      let one : FVal := .fin ⟨false, 1, 0⟩
      let factors (k : Nat) : List FVal :=
        [fa.value (rowItem row.1 (mxBits b.afmt) k), if b.asc then .fin (e3m5 (rowItem row.2 8 (k / b.len))) else one,
         fbm.value (bElem s pa b.bfmt slot k n), if b.bsc then .fin (e3m5 (bScale s pa slot n (k / b.len))) else one,
         Fmt.bf16.value b.aband, Fmt.bf16.value (bBand s pa slot n)]
      let minus (v : FVal) : Bool := match v with | .fin d => d.neg | .inf x => x | .nan => false
      let value (v : FVal) : ℝ := match v with | .fin d => d.real | .inf _ | .nan => 0
      let zero (k : Nat) : Prop := ∃ d : Dy, .fin d ∈ factors k ∧ d.m = 0
      let endless (k : Nat) : Prop := ∃ x, .inf x ∈ factors k
      let sign (k : Nat) : Bool := (factors k).foldl (fun x v => x != minus v) false
      let hasInf (x : Bool) : Prop := Fmt.f32.value old = .inf x ∨ ∃ k ∈ ks, endless k ∧ ¬zero k ∧ sign k = x
      let invalid : Prop := (∃ k ∈ ks, (b.asc = true ∧ rowItem row.2 8 (k / b.len) = 0xFF)
          ∨ (b.bsc = true ∧ bScale s pa slot n (k / b.len) = 0xFF))
        ∨ (∃ k ∈ ks, endless k ∧ zero k) ∨ (hasInf true ∧ hasInf false)
      let x : ℝ := value (Fmt.f32.value old) + (ks.map fun k => ((factors k).map value).prod).sum
      let cell := passCell s pa b diagonal slot row n old
      Fmt.f32.value old ≠ .nan → (∀ k ∈ ks, .nan ∉ factors k) → Fmt.bf16.value b.aband ≠ .nan →
      Fmt.bf16.value (bBand s pa slot n) ≠ .nan →
      (invalid → cell = (Fmt.f32.canon, 16))
      ∧ (∀ y, ¬invalid → hasInf y → cell = (infCode .f32 y, 0))
      ∧ (¬invalid → (∀ y, ¬hasInf y) → x = 0 → cell = (0, 0))
      ∧ (¬invalid → (∀ y, ¬hasInf y) → x ≠ 0 → ∃ r : FRes, Fmt.f32.Rounded .rn false x r ∧ cell = (r.code, r.fl &&& (flOF ||| flNX))))
    ∧ (∀ (b : FmtBlock) (n k : Nat), (k ∈ b.terms false n ↔ k < b.depth)
        ∧ (k ∈ b.terms true n ↔ k / (if b.depth = 384 then 24 else 12) = n / 12))
    ∧ (∀ (diagonal : Bool) (f : FmtA) (s : State) (iss : Issue) (c : Crew), s.issue = some iss → aget s.crews iss.crew = some c →
      (c.cnt.matrix = 63 → ∃ c', OnlyCrew (if diagonal then .mmab f else .mma f) s s.taken iss.crew c'
        ∧ (∀ j, c'.slice j = if j ∈ iss.slices ∧ j < c.slices.length then { c.slice j with wait := .count 2 62 } else c.slice j)
        ∧ { c' with slices := c.slices } = c)
      ∧ (∀ i code info, c.cnt.matrix ≠ 63 →
          (all c iss).findSome? (fun i => (passFault s c (fb c f) f i).map fun t => (i, t)) = some (i, code, info) →
          ∃ c', exec (if diagonal then .mmab f else .mma f) s = .next ((s.taken.setCrew iss.crew c').raise iss.crew i (iss.trap code info 0))
            ∧ (∀ j, c'.slice j =
                if j ∈ all c iss ∧ j ≠ i ∧ j < c.slices.length then { c.slice j with wait := .matrix i } else c.slice j)
            ∧ { c' with slices := c.slices } = c))

/-- For a gang whose names pass and an accumulator that the crew has: ACCZ zeroes the rows of the active lanes; ACCRD writes
32 converted cells of columns 32b to 32b + 31 to 32 registers; ACCWR writes 32 converted registers to those cells; both OR
the events of the conversions into ASTAT. ACCRD.STAT writes ASTAT to a register of each active lane; ACCWR.STAT ORs bits
[4:0] of a register of each active lane into ASTAT; ACCST writes ASTAT to s(D) once for the gang and with CLR zeroes it.
exec answers the next state; index registers with POST advance, the gang goes on, and no other cell, register or part of the
state changes. An accumulator beyond the crew's count traps ACCALLOC. -/
def Obligations.AccumulatorMovesAreExact : Prop :=
  let conv (f : FmtA) (x : Nat) : CvtRes := convertAs (Ty.ofCode .f32 f.p.dt) (Ty.ofCode .f32 f.p.st) (Rnd.ofField f.p.rnd) f.p.sat x
  let same (c c' : Crew) : Prop :=
    { c' with vregs := c.vregs, acc := c.acc, astat := c.astat, xofs := c.xofs, pend := c.pend, slices := c.slices } = c
  let only (c c' : Crew) (iss : Issue) (ops : List VOp) : Prop :=
    c.OffsetsMoved c' (c.activeIn iss.slices) ops ∧ c.Moved c' iss.slices iss.len ∧ same c c'
  let stat (c c' : Crew) (a : Nat) (ev : Nat → Prop) : Prop :=
    (∀ j, j < 32 → (mbit (sget c'.astat a) j = true ↔ mbit (sget c.astat a) j = true ∨ ev j))
      ∧ ∀ x, x ≠ a → sget c'.astat x = sget c.astat x
  (∀ (f : FmtA) (s : State) (iss : Issue) (c : Crew), s.issue = some iss → aget s.crews iss.crew = some c →
    let d32 : VOp := { pos := 0, field := f.d.toNat, n := 32 }
    let d1 : VOp := { pos := 0, field := f.d.toNat, n := 1 }
    let a32 : VOp := { pos := 1, field := f.a.toNat, n := 32 }
    let a1 : VOp := { pos := 1, field := f.a.toNat, n := 1 }
    let lanes := c.activeIn iss.slices
    let col (i : Nat) : Nat := 32 * f.b.toNat + i
    (f.d.toNat < c.k → ∃ c', OnlyCrew (.accz f) s s.taken iss.crew c'
      ∧ (∀ k, sget c'.acc k = if 6144 * f.d.toNat ≤ k ∧ k < 6144 * (f.d.toNat + 1) ∧ k % 6144 / 192 ∈ lanes then 0 else sget c.acc k)
      ∧ c'.astat = c.astat ∧ c'.vregs = c.vregs ∧ only c c' iss [])
    ∧ (f.a.toNat < c.k → c.NamesOk iss [d32] → ∃ c', OnlyCrew (.accrd f) s s.taken iss.crew c'
      ∧ c.VecWritten c' lanes d32 (fun l => (List.range 32).map fun i =>
          BitVec.ofNat 32 (conv f (sget c.acc (accKey f.a.toNat l (col i))).toNat).code)
      ∧ stat c c' f.a.toNat (fun j => ∃ l ∈ lanes, ∃ i, i < 32 ∧ mbit (conv f (sget c.acc (accKey f.a.toNat l (col i))).toNat).events j = true)
      ∧ c'.acc = c.acc ∧ only c c' iss [d32])
    ∧ (f.a.toNat < c.k → c.NamesOk iss [d1] → ∃ c', OnlyCrew (.accrdStat f) s s.taken iss.crew c'
      ∧ c.VecWritten c' lanes d1 (fun _ => [sget c.astat f.a.toNat]) ∧ c'.astat = c.astat ∧ c'.acc = c.acc ∧ only c c' iss [d1])
    ∧ (f.d.toNat < c.k → f.b < 6#7 → c.NamesOk iss [a32] → ∃ c', OnlyCrew (.accwr f) s s.taken iss.crew c'
      ∧ (∀ l ∈ lanes, ∀ i, i < 32 →
          sget c'.acc (accKey f.d.toNat l (col i)) = BitVec.ofNat 32 (conv f (c.vreg (c.phys a32 l i) l).toNat).code)
      ∧ (∀ k, (∀ l ∈ lanes, ∀ i, i < 32 → k ≠ accKey f.d.toNat l (col i)) → sget c'.acc k = sget c.acc k)
      ∧ stat c c' f.d.toNat (fun j => ∃ l ∈ lanes, ∃ i, i < 32 ∧ mbit (conv f (c.vreg (c.phys a32 l i) l).toNat).events j = true)
      ∧ c'.vregs = c.vregs ∧ only c c' iss [a32])
    ∧ (f.d.toNat < c.k → c.NamesOk iss [a1] → ∃ c', OnlyCrew (.accwrStat f) s s.taken iss.crew c'
      ∧ stat c c' f.d.toNat (fun j => j < 5 ∧ ∃ l ∈ lanes, mbit (c.vreg (c.phys a1 l 0) l) j = true)
      ∧ c'.vregs = c.vregs ∧ c'.acc = c.acc ∧ only c c' iss [a1])
    ∧ (f.a.toNat < c.k → ∃ c', OnlyCrew (.accst f) s s.taken iss.crew c'
      ∧ c'.sreg f.d.toNat = (sget c.astat f.a.toNat).setWidth 64 ∧ (∀ q, q ≠ f.d.toNat → c'.sreg q = c.sreg q)
      ∧ (∀ x, sget c'.astat x = if f.b = 1 ∧ x = f.a.toNat then 0 else sget c.astat x)
      ∧ c.Moved c' iss.slices iss.len ∧ { c' with sregs := c.sregs, astat := c.astat, slices := c.slices } = c))
    ∧ (∀ (f : FmtA) (s : State) (iss : Issue) (c : Crew) (i a : Nat) (x : Instr) (ops : List VOp),
      s.issue = some iss → aget s.crews iss.crew = some c → (x = .accst f ∨ iss.slices = [i]) →
      (x, a, ops) ∈ [(Instr.accz f, f.d.toNat, []), (.accrd f, f.a.toNat, [{ pos := 0, field := f.d.toNat, n := 32 }]),
        (.accrdStat f, f.a.toNat, [{ pos := 0, field := f.d.toNat, n := 1 }]),
        (.accwr f, f.d.toNat, [{ pos := 1, field := f.a.toNat, n := 32 }]),
        (.accwrStat f, f.d.toNat, [{ pos := 1, field := f.a.toNat, n := 1 }]), (.accst f, f.a.toNat, [])] →
      c.k ≤ a → c.nameFault i ops = none →
      exec x s = .next (s.taken.raiseAll iss.crew iss.slices (iss.trap 0x0D 0 0)))
    ∧ (∀ (f : FmtA) (x : Nat) (fd fs : Fmt), (Ty.ofCode .f32 f.p.dt).fmt = some fd → (Ty.ofCode .f32 f.p.st).fmt = some fs →
      let v := fs.value (x % 2 ^ (Ty.ofCode .f32 f.p.st).width)
      let y := convertTo fd (Rnd.ofField f.p.rnd) f.p.sat v
      (conv f x).code = y.code
        ∧ ∀ j, j < 5 → (mbit (conv f x).events j = true ↔
            (j ∈ [0, 2, 4] ∧ mbit y.fl j = true) ∨ (j = 3 ∧ v = .nan)))

/-- TWALK configures a slot that is not, from s(A) to s(A+2), and writes the walk's tile count to s(D); a configured slot
stays as it is. TNEXT on a configured slot writes a tile to s(D) and the crew holds it, which an idempotent region notes;
when none is left, or the slot is not configured, it writes all ones and the crew holds none. Handing out takes exactly one
tile from those that are left, and none only when none is left. REFILL gives the active lanes of the gang whose bit of A is
set, in lane order, the items 32 x tile + count of the held tile, while it lasts, then those of the next tile; predicate B
marks the lanes served. exec answers the next state; the gang goes on, and nothing else changes. (On a service thread, which
has no launch and no party, TWALK writes the count of the tiles that it names and configures nothing, and TNEXT writes all
ones: the rules say nothing of walks there, and this is the model's choice, log 26.) -/
def Obligations.TileWalksGiveEachTileOnce : Prop :=
  let out (c c' : Crew) (iss : Issue) (d : Nat) (v : DWord) (took : List (Nat × Nat)) : Prop :=
    c'.sreg d = v ∧ (∀ q, q ≠ d → c'.sreg q = c.sreg q) ∧ c.Moved c' iss.slices iss.len
      ∧ c'.idem = c.idem.map (fun x => { x with took := x.took ++ took })
      ∧ { c' with sregs := c.sregs, tile := c.tile, idem := c.idem, pend := c.pend, slices := c.slices } = c
  let left (w : Walk) : List Nat :=
    w.returned ++ w.reserved.flatMap (·.2) ++ List.range' w.counter (w.e0 * w.e1 * w.e2 - w.counter)
  let sound (w : Walk) : Prop := (left w).Nodup ∧ (w.reserved.map (·.1)).Nodup
  (∀ (f : FmtA) (s : State) (iss : Issue) (c : Crew), s.issue = some iss → aget s.crews iss.crew = some c →
    let reg (i : Nat) : DWord := c.sreg (f.a.toNat + i)
    let ext (n : Nat) : Nat := max 1 ((reg 0).extractLsb' (21 * n) 21).toNat
    let new : Walk :=
      { configured := true, e0 := ext 0, e1 := ext 1, e2 := ext 2, hbase := reg 1
        hstride := ((reg 2).extractLsb' 0 48).toInt, hpages := ((reg 2).extractLsb' 56 8).toNat }
    let tiles (w : Walk) : DWord := BitVec.ofNat 64 (w.e0 * w.e1 * w.e2)
    (s.crewLaunch c = none → ∃ c', OnlyCrew (.twalk f) s s.taken iss.crew c' ∧ c'.tile = c.tile ∧ out c c' iss f.d.toNat (tiles new) [])
    ∧ (∀ l la, s.crewLaunch c = some l → aget s.launches l = some la → f.b.toNat < la.walks.length →
      ((la.walks.getD f.b.toNat {}).configured = true → ∃ c', OnlyCrew (.twalk f) s s.taken iss.crew c' ∧ c'.tile = c.tile
        ∧ out c c' iss f.d.toNat (tiles (la.walks.getD f.b.toNat {})) [])
      ∧ ((la.walks.getD f.b.toNat {}).configured = false →
        ∃ c', exec (.twalk f) s = .next ((s.taken.modLaunch l fun x => { x with walks := lmod x.walks f.b.toNat fun _ => new }).setCrew
            iss.crew c') ∧ c'.tile = c.tile ∧ out c c' iss f.d.toNat (tiles new) [])))
    ∧ (∀ (f : FmtA) (s : State) (iss : Issue) (c : Crew), s.issue = some iss → aget s.crews iss.crew = some c →
      ((c.partyId = none ∨ ∃ p, c.partyId = some p ∧ (s.walkOf (s.party p).launch f.b.toNat).configured = false) →
        ∃ c', OnlyCrew (.tnext f) s s.taken iss.crew c' ∧ c'.tile = { c.tile with hold := false }
          ∧ out c c' iss f.d.toNat (BitVec.allOnes 64) [])
      ∧ ∀ p, c.partyId = some p → (s.walkOf (s.party p).launch f.b.toNat).configured = true →
        ∃ (w : Walk) (t : Option Nat) (c' : Crew),
          takeTile s (s.site c) c.tenant ((s.party p).die, (s.party p).core) (s.walkOf (s.party p).launch f.b.toNat) = (w, t)
          ∧ exec (.tnext f) s = .next ((s.taken.modLaunch (s.party p).launch fun x =>
              { x with walks := lmod x.walks f.b.toNat fun _ => w }).setCrew iss.crew c')
          ∧ (∀ x, t = some x → c'.tile = { hold := true, walk := f.b.toNat, tile := x, ic := 0 }
              ∧ out c c' iss f.d.toNat (BitVec.ofNat 64 x) [(f.b.toNat, x)])
          ∧ (t = none → c'.tile = { c.tile with hold := false } ∧ out c c' iss f.d.toNat (BitVec.allOnes 64) []))
    ∧ (∀ (s : State) (site : CacheId) (t : Nat) (key : Nat × Nat) (w w' : Walk), sound w →
      (∀ x, takeTile s site t key w = (w', some x) → (left w).Perm (x :: left w') ∧ sound w')
      ∧ (takeTile s site t key w = (w', none) → left w = [] ∧ left w' = [] ∧ sound w'))
    ∧ (∀ (f : FmtA) (s : State) (iss : Issue) (c : Crew), s.issue = some iss → aget s.crews iss.crew = some c →
      let d : VOp := { pos := 0, field := f.d.toNat, n := 2 }
      let lanes := (c.activeIn iss.slices).filter fun l => mbit (c.pred f.a.toNat) l
      let marks (c' : Crew) (served : List Nat) : Prop :=
        (∀ l, l < 32 → l / 4 ∈ iss.slices → mbit (c'.pred f.b.toNat) l =
          (decide (l ∈ served) && (f.b != 16 || (mbit c.live l && !mbit c.off l))))
        ∧ (∀ l, l < 32 → l / 4 ∉ iss.slices → (f.b = 16 → mbit c.live l = true ∧ mbit c.off l = false) →
          mbit (c'.pred f.b.toNat) l = mbit (c.pred f.b.toNat) l)
        ∧ (∀ q, q ≤ 16 → q ≠ f.b.toNat → c'.pred q = c.pred q)
        ∧ c.OffsetsMoved c' (c.activeIn iss.slices) [d] ∧ c.Moved c' iss.slices iss.len
        ∧ { c' with vregs := c.vregs, preds := c.preds, exec := c.exec, xofs := c.xofs, tile := c.tile, idem := c.idem
                    pend := c.pend, slices := c.slices } = c
      c.NamesOk iss [d] → f.b ≤ 16 →
      (c.tile.hold = true → c.tile.ic + lanes.length ≤ 32 →
        ∃ c', OnlyCrew (.refill f) s s.taken iss.crew c' ∧ marks c' lanes
          ∧ c.VecWritten c' lanes d (fun l => wordsOf (32 * c.tile.tile + c.tile.ic + lanes.idxOf l) 2)
          ∧ c'.tile = { c.tile with ic := c.tile.ic + lanes.length } ∧ c'.idem = c.idem)
      ∧ (c.tile.hold = false →
        ∃ c', OnlyCrew (.refill f) s s.taken iss.crew c' ∧ marks c' [] ∧ c'.vregs = c.vregs ∧ c'.tile = c.tile ∧ c'.idem = c.idem)
      ∧ ∃ (u : State) (served : List Nat) (c1 c' : Crew), serveLanes iss.crew c d s.taken lanes = (u, served)
          ∧ aget u.crews iss.crew = some c1 ∧ served <+: lanes
          ∧ exec (.refill f) s = .next (u.setCrew iss.crew c') ∧ marks c' served ∧ c'.vregs = c1.vregs ∧ c'.tile = c1.tile
          ∧ c'.idem = c1.idem)
    ∧ (∀ (s : State) (k l : Nat) (c : Crew) (d : VOp) (rest : List Nat) (u : State) (x : Nat), (s.crew k).tile.hold = true →
      32 ≤ (s.crew k).tile.ic → aget s.crews k = some (s.crew k) → s.nextTile c (s.crew k).tile.walk = (u, some x) → u.crews = s.crews →
      (serveLanes k c d s (l :: rest)).2.head? = some l
        ∧ ∃ r, serveLanes k c d s (l :: rest) =
          ((serveLanes k c d (u.setCrew k r) rest).1, l :: (serveLanes k c d (u.setCrew k r) rest).2)
        ∧ r.tile = { (s.crew k).tile with tile := x, ic := 1 }
        ∧ r.vregs = (c.vput (s.crew k) d l (wordsOf (32 * x) 2)).vregs
        ∧ r.idem = (s.crew k).idem.map fun y => { y with took := y.took ++ [((s.crew k).tile.walk, x)] })
    ∧ (∀ (s : State) (k l : Nat) (c : Crew) (d : VOp) (rest : List Nat) (u : State), (s.crew k).tile.hold = true →
      32 ≤ (s.crew k).tile.ic → aget s.crews k = some (s.crew k) → s.nextTile c (s.crew k).tile.walk = (u, none) → u.crews = s.crews →
      serveLanes k c d s (l :: rest) = (u.setCrew k { s.crew k with tile := { (s.crew k).tile with hold := false } }, []))

/-- SNAP latches a snapshot, or counts it as missed while one is held. CSRR reads and CSRW writes the service register of
its number after the effect of FENCE.DEV, at service level below 0x3000 and at firmware level; a plain register gives what
was written in its range, a read-only one ignores the write. SPAWN, on a service thread, with its lanes' earlier accesses
performed, enters a launch with the fields of its packet and writes 0, or writes 1 for a bad packet and 2 for one over the
limits; it waits while no launch tag is free. (At 0x3000 and above a CSRR gives a free value and a CSRW has no effect: R349
gives no contents there, and this is the model's choice, log 36.) JOINW reads its double-word at the master, on another
device by a request, and goes on, with an acquire, once it is at or below its threshold (signed); until then, and while its
drop meets a MOVING page, it waits. In each exec answers the next state and nothing else changes. At a level that may not
run it the first four trap PRIV with the word. -/
def Obligations.SystemInstructionsByLevel : Prop :=
  let one (c c' : Crew) (iss : Issue) (d : Nat) (v : DWord) : Prop :=
    c'.sreg d = v ∧ (∀ q, q ≠ d → c'.sreg q = c.sreg q) ∧ c.Moved c' iss.slices iss.len
      ∧ { c' with sregs := c.sregs, pend := c.pend, slices := c.slices } = c
  let may (l : Level) (n : Nat) : Prop := l = .firmware ∨ (l = .service ∧ n < 0x3000)
  (∀ (f : FmtA) (s : State) (iss : Issue) (c : Crew), s.issue = some iss → aget s.crews iss.crew = some c →
    (c.level ≠ .user ∨ (s.tenant c.tenant).snapu = true) →
    ∃ c', exec (.snap f) s = .next ((if sget s.csr 0x31 = 1 then { s.taken with csr := sset s.csr 0x32 (sget s.csr 0x32 + 1) }
        else { s.taken with snapLatch := some s.free, free := s.free + 8192, csr := sset s.csr 0x31 1 }).setCrew iss.crew c')
      ∧ c.Moved c' iss.slices iss.len ∧ { c' with slices := c.slices } = c)
    ∧ (∀ (f : FmtA) (s : State) (iss : Issue) (c : Crew), s.issue = some iss → aget s.crews iss.crew = some c →
      may c.level f.csrNumber → s.Performed iss.crew (c.liveIn iss.slices) → s.dropMoving (s.site c) c.tenant .whole = none →
      let u := s.taken.dropRange (s.site c) c.tenant .whole
      (∃ c', exec (.csrr f) s = .next ((u.csrRead f.csrNumber).1.setCrew iss.crew c')
        ∧ one c c' iss f.d.toNat (u.csrRead f.csrNumber).2)
      ∧ exec (.csrw f) s = .next ((u.csrWrite f.csrNumber (c.sreg f.d.toNat)).modCrew iss.crew fun x => x.advance iss.slices iss.len))
    ∧ (∀ (s : State) (v : DWord),
      (∀ n, n ∈ [0x00, 0x10, 0x11, 0x12, 0x20, 0x21, 0x31, 0x32] ∨ (0x100 ≤ n ∧ n < 0x1000) → s.csrRead n = (s, sget s.csr n))
      ∧ s.csrRead 0x01 = (s, (s.tenant ((sget s.csr 0).toNat % 16)).ccbaddr)
      ∧ s.csrRead 0x05 = (s, (s.tenant ((sget s.csr 0).toNat % 16)).apbase)
      ∧ s.csrRead 0x06 = (s, (s.tenant ((sget s.csr 0).toNat % 16)).aplen)
      ∧ (∀ n, 0x1000 ≤ n → n < 0x3000 → s.csrRead n = (s, s.snapRead (n - 0x1000)))
      ∧ (∀ n, 0x3000 ≤ n → s.csrRead n = ({ s with free := s.free + 1 }, Config.freeValue s.free))
      ∧ (∀ n, n ∈ [0x02, 0x03, 0x04, 0x13, 0x30] → s.csrRead n = (s, 0))
      ∧ (∀ n w, (n, w) ∈ [(0x00, v.toNat % 16), (0x10, v.toNat), (0x11, min 1000000 (max 1000 v.toNat)),
          (0x20, min 48 (max 24 v.toNat)), (0x21, v.toNat % 32)] →
        (s.csrWrite n v).csrRead n = (s.csrWrite n v, BitVec.ofNat 64 w)
          ∧ (∀ m, m ≠ n → sget (s.csrWrite n v).csr m = sget s.csr m) ∧ { s.csrWrite n v with csr := s.csr } = s)
      ∧ (∀ n, 0x1000 ≤ n ∨ n = 0x32 → s.csrWrite n v = s)
      ∧ ∀ n ∈ [0x01, 0x05, 0x06], ((s.csrWrite n v).csrRead n).2 = v &&& ~~~0xFFF#64)
    ∧ (∀ (f : FmtA) (s : State) (iss : Issue) (c : Crew), s.issue = some iss → aget s.crews iss.crew = some c → c.isService = true →
      s.Performed iss.crew (c.liveIn iss.slices) →
      let p := spawnPacket c f
      let w (i : Nat) : DWord := c.sreg (f.a.toNat + i)
      let ext (i : Nat) : Nat := ((w 2).extractLsb' (21 * i) 21).toNat + 1
      ((pktType p ≠ 1 ∨ packetBad p = true) → ∃ c', OnlyCrew (.spawn f) s s.taken iss.crew c' ∧ one c c' iss f.d.toNat 1)
      ∧ (pktType p = 1 → packetBad p = false → s.overLimit p = true →
        ∃ c', exec (.spawn f) s = .next ((s.taken.rejectLaunch p).setCrew iss.crew c') ∧ one c c' iss f.d.toNat 2)
      ∧ (∀ tag, pktType p = 1 → packetBad p = false → s.overLimit p = false → s.freeTag = some tag →
        (s.tenant c.tenant).halted = false →
        ∃ c', exec (.spawn f) s = .next (State.setCrew { s.taken with
              nextId := s.nextId + 2
              jobs := (s.jobs ++ [({ id := s.nextId, kind := .fenced, pkt := p } : Job)]).map fun j =>
                if j.id = s.nextId then { j with kind := .grid (s.nextId + 1) } else j
              launches := aset s.launches (s.nextId + 1)
                { tenant := c.tenant, queue := 0x7F, tag := BitVec.ofNat 32 tag, addr := 0, job := s.nextId, entry := w 1
                  e0 := ext 0, e1 := ext 1, e2 := ext 2, res := w 3
                  prio := min ((w 0).extractLsb' 22 2).toNat (s.tenant c.tenant).maxprio
                  coop := (w 0).getLsbD 21, sys := (w 0).getLsbD 20, args := (List.range 8).map fun i => c.sreg (f.b.toNat + i)
                  join := w 5, compl := w 6, walks := List.replicate 4 {}, gbars := List.replicate 4 {} } } iss.crew c')
          ∧ one c c' iss f.d.toNat 0)
      ∧ (pktType p = 1 → packetBad p = false → s.overLimit p = false → s.freeTag = none →
        ∃ c', OnlyCrew (.spawn f) s s.taken iss.crew c'
          ∧ (∀ j, c'.slice j = if j ∈ iss.slices ∧ j < c.slices.length then { c.slice j with wait := .retry } else c.slice j)
          ∧ { c' with slices := c.slices } = c))
    ∧ (∀ (f : FmtA) (s s1 : State) (iss : Issue) (c : Crew) (a : DWord) (thr : Int) (tgt : Tgt), s.issue = some iss →
      aget s1.crews iss.crew = some c →
      (((∃ at_, (c.slice (iss.slices.headD 0)).wait = .join a thr at_) ∧ s1 = s.taken)
        ∨ ((∀ x y z, (c.slice (iss.slices.headD 0)).wait ≠ .join x y z) ∧ (s.crew iss.crew) = c
            ∧ ∃ kc, s.ReadsConst iss f.k f.b s1 kc ∧ a = c.sreg f.a.toNat
              ∧ thr = (BitVec.ofNat 64 ((srcOf false 2 f.b 1 kc).read c .si64 0)).toInt)) →
      a.toNat % 8 = 0 → s1.access c a.toNat 8 .read = .ok tgt → s1.stuck (s1.site c) tgt true = false →
      let lanes := c.liveIn iss.slices
      let site := s1.site c
      let run := exec (.joinw f) s
      let waits (u : State) : Prop := ∃ c', run = .next (u.setCrew iss.crew c')
        ∧ (∀ j, c'.slice j =
            if j ∈ iss.slices ∧ j < c.slices.length then { c.slice j with wait := .join a thr (some s.time) } else c.slice j)
        ∧ { c' with slices := c.slices } = c
      let ends (u : State) : Prop :=
        (u.dropMoving site c.tenant .whole = none → (∀ g, tgt.granule = some g → u.awayRec g = none) →
          let x := u.touchFor c a.toNat false
          let y := if tgt.remote || (match tgt with | .mmio _ => true | _ => false) then x.acquire c tgt
            else (x.loadLane c tgt 8 { scope := 4, ord := 1 }).1
          ∃ c', run = .next ((y.dropRange site c.tenant .whole).setCrew iss.crew c')
            ∧ c.Moved c' iss.slices iss.len ∧ { c' with slices := c.slices } = c)
        ∧ (u.dropMoving site c.tenant .whole ≠ none → waits u)
      let ask (u : State) : State :=
        let x : LaneTgt := { lane := (lanes32.find? (mbit lanes)).getD 0, addr := a.toNat, tgt := tgt }
        { u with
          nextId := u.nextId + 1
          requests := u.requests ++ [{ x.request iss.crew 8 with id := u.nextId, group := u.nextId, since := u.time }]
          outbox := u.outbox ++ [readMsg 8 x u.nextId] }
      let value (bs : List Byte) : Int := (BitVec.ofNat 64 (leNat bs)).toInt
      (tgt.violates = true → ∃ c', OnlyCrew (.joinw f) s s1 iss.crew c' ∧ c.Moved c' iss.slices iss.len
        ∧ (∀ l, l < 32 → mbit c'.off l = (mbit c.off l || mbit lanes l)) ∧ (∀ l, l < 32 → mbit c'.exec l = (mbit c.exec l && !mbit lanes l))
        ∧ { c' with off := c.off, exec := c.exec, slices := c.slices } = c)
      ∧ (tgt.violates = false → tgt.remote = false →
        let r : State × List Byte := match tgt with
          | .paged pfn _ off _ =>
            let x := (s1.mergeSector site pfn off).readTgt site tgt 8 true
            (x.1.refillSector site pfn off, x.2)
          | _ => s1.readTgt site tgt 8 true
        (thr < value r.2 → waits (r.1.touchFor c a.toNat false)) ∧ (value r.2 ≤ thr → ends r.1))
      ∧ (tgt.remote = true →
        let mine := s1.requests.find? fun q => q.crew = iss.crew && q.addr = a && q.lane = (lanes32.find? (mbit lanes)).getD 0
          && !q.store && q.op.isNone
        (mine = none → 0 < s1.nextId → waits (ask s1))
        ∧ ∀ q, mine = some q →
          (q.data = none → waits s1)
          ∧ ∀ bs, q.data = some bs →
            let u := { s1 with requests := s1.requests.filter fun x => x.id ≠ q.id }
            (thr < value bs → 0 < s1.nextId → waits (ask u)) ∧ (value bs ≤ thr → ends u)))
    ∧ (∀ (f : FmtA) (s : State) (iss : Issue) (c : Crew) (x : Instr), s.issue = some iss → aget s.crews iss.crew = some c →
      (x = .snap f ∧ c.level = .user ∧ (s.tenant c.tenant).snapu = false)
        ∨ (x ∈ [.csrr f, .csrw f] ∧ ¬may c.level f.csrNumber) ∨ (x = .spawn f ∧ c.isService = false) →
      exec x s = .next (s.taken.raiseAll iss.crew iss.slices (iss.trap 0x02 iss.word.toNat 0)))

/-- A packet with an unknown type or a reserved bit leaves only an error record: which bits those are is said for each type
(the model tests the reserved fields of the packet's own type and the double-words that it does not use, log 44). Any other
enters the jobs of its queue; behind a packet that has not started, or with FENCE behind one that is not complete, it waits.
Where it may start, and then too when it has waited: NOP completes; LAUNCH enters a grid with the fields, extents, priority
and arguments of the packet under a free tag, or is rejected when it is over a limit; BARRIER-AND waits until every DEP word
reads zero and completes then; SIGNAL writes or adds its value at its address and completes; COPY moves its bytes and
completes when its channel says so. A packet whose accesses meet a MOVING page, a die without a route or a record that it
cannot drain has done nothing and waits for that. Completion writes the record, if there is one, and removes the job and,
without a record, an interrupt or a queue that drains, changes nothing else. A row of another type leaves the state
unchanged. (The field met is the model's own and empty between steps. An address that is not 8-byte aligned, and a length
that is not a multiple of 64, are used as they stand: the model's choice, logs 69 and 70.) -/
def Obligations.PacketsStartAndComplete : Prop :=
  let entered (s : State) (p : Packet) (k : JobKind) : State :=
    { s with nextId := s.nextId + 1, jobs := s.jobs ++ [{ id := s.nextId, kind := k, pkt := p }] }
  let alone (s : State) (p : Packet) : Prop := ∀ j ∈ s.jobs, j.id < s.nextId ∧ ¬(j.kind = .fenced ∧ j.pkt = p)
  let starts (s : State) (p : Packet) : Prop :=
    ∀ j ∈ s.jobs, j.pkt.tenant = p.tenant → j.pkt.queue = p.queue → j.kind ≠ .fenced ∧ natBit (pktWord p 0) 19 = false
  let rows (p : Packet) : List (Nat × Instr) :=
    [(0, .nopPacket p), (1, .launch p), (2, .barrierAnd p), (3, .signalPacket p), (4, .copyPacket p)]
  let settles (i : Instr) (s base t : State) : Prop :=
    (t.met = none → exec i s = .next t) ∧ (∀ pfn, t.met = some (.moving pfn) → exec i s = .next (base.joinQueue pfn (.agent i)))
      ∧ (∀ d, t.met = some (.noRoute d) → exec i s = .next { base with stalled := base.stalled ++ [(d, i)] })
      ∧ ∀ g, t.met = some (.away g) → exec i s = .next (base.markAway g)
  (∀ (s : State) (p : Packet), packetBad p = true →
      let t := s.queueError p.tenant 2 p.queue (pktTag p) p.addr
      s.takePacket p = t ∧ (s.met = none → ∀ n i, (n, i) ∈ rows p → pktType p = n → exec i s = .next t))
    ∧ (∀ p : Packet,
      let w := pktWord p
      packetBad p = true ↔ 4 < pktType p ∨ natBits (w 0) 31 24 ≠ 0 ∨ natBits (w 0) 17 8 ≠ 0
        ∨ (pktType p = 1 ∧ (natBit (w 2) 63 = true ∨ natBits (w 3) 63 55 ≠ 0 ∨ w 7 ≠ 0))
        ∨ (pktType p = 2 ∧ w 7 ≠ 0)
        ∨ (pktType p = 3 ∧ (2 ≤ w 3 ∨ w 4 ≠ 0 ∨ w 5 ≠ 0 ∨ w 7 ≠ 0))
        ∨ (pktType p = 4 ∧ (w 4 ≠ 0 ∨ w 5 ≠ 0 ∨ w 7 ≠ 0)))
    ∧ (∀ (s : State) (p : Packet) (n : Nat) (i : Instr), (n, i) ∈ rows p → pktType p = n → s.met = none →
      let job := s.nextId
      let s' := entered s p .fenced
      packetBad p = false → alone s p →
      ((∃ j ∈ s.jobs, j.pkt.tenant = p.tenant ∧ j.pkt.queue = p.queue ∧ (j.kind = .fenced ∨ natBit (pktWord p 0) 19 = true)) →
        s.takePacket p = s' ∧ exec i s = .next s')
      ∧ (starts s p → settles i s s' (s'.startPacket p job))
      ∧ (starts s p → pktType p = 2 → exec i s = .next (entered s p .barrier))
      ∧ (starts s p → pktType p = 0 → pktWord p 6 = 0 → natBit (pktWord p 0) 18 = false → (s.queue p.tenant p.queue).state ≠ 2 →
        exec i s = .next { s with nextId := s.nextId + 1 }))
    ∧ (∀ (s : State) (p : Packet) (n : Nat) (i : Instr) (j : Job), (n, i) ∈ rows p → pktType p = n → s.met = none →
      s.jobs.find? (fun j => decide (j.kind = .fenced ∧ j.pkt = p) && s.canStart j) = some j →
      settles i s s (s.startPacket p j.id))
    ∧ (∀ (s : State) (p : Packet) (job : Nat),
      (pktType p = 0 → s.startPacket p job = s.finishPacket p job)
      ∧ (pktType p = 1 → s.overLimit p = true → s.startPacket p job = (s.rejectLaunch p).endJob job)
      ∧ (pktType p = 1 → s.overLimit p = false → s.freeTag = none → s.startPacket p job = s)
      ∧ (pktType p = 2 → s.startPacket p job = s.setJob job .barrier)
      ∧ (pktType p = 3 → s.startPacket p job = (s.signalWord p).finishPacket p job)
      ∧ (4 ≤ pktType p → s.startPacket p job = (s.copyData p).setJob job .copy))
    ∧ (∀ (s : State) (p : Packet) (tag : Nat) (u : State) (args : List DWord), packetBad p = false → alone s p → starts s p → s.met = none →
      let job := s.nextId
      let s' := entered s p .fenced
      let w (i : Nat) : DWord := BitVec.ofNat 64 (pktWord p i)
      let ext (i : Nat) : Nat := ((w 2).extractLsb' (21 * i) 21).toNat + 1
      pktType p = 1 → s.overLimit p = false → s.freeTag = some tag →
      ((p.args = some args ∧ u = s') ∨ (p.args = none ∧ ∃ bs, s'.agentBytes p.tenant (pktWord p 4) 64 = some (u, bs)
        ∧ args = (List.range 8).map fun i => BitVec.ofNat 64 (leNat ((bs.drop (8 * i)).take 8)))) →
      u.met = none → (s.tenant p.tenant).halted = false →
      exec (.launch p) s = .next { u with
        nextId := s.nextId + 2
        jobs := s.jobs ++ [{ id := job, kind := .grid (s.nextId + 1), pkt := p }]
        launches := aset s.launches (s.nextId + 1)
          { tenant := p.tenant, queue := p.queue, tag := BitVec.ofNat 32 tag, addr := p.addr, job := job, entry := w 1
            e0 := ext 0, e1 := ext 1, e2 := ext 2, res := w 3
            prio := min ((w 0).extractLsb' 22 2).toNat (s.tenant p.tenant).maxprio, coop := (w 0).getLsbD 21
            sys := (w 0).getLsbD 20, args := args
            join := w 5, compl := w 6, walks := List.replicate 4 {}, gbars := List.replicate 4 {} } })
    ∧ (∀ (s u : State) (p : Packet) (bs : List Byte), s.agentBytes p.tenant (pktWord p 1) 8 = some (u, bs) →
      s.signalWord p = (u.agentStore 4 p.tenant (pktWord p 1) (leBytes
        (if natBit (pktWord p 3) 0 then (leNat bs + pktWord p 2) % 2 ^ 64 else pktWord p 2) 8)).getD (s.agentFail p.tenant (pktWord p 1)))
    ∧ (∀ (s u : State) (p : Packet) (bs : List Byte), pktWord p 1 % 256 + pktWord p 3 ≤ 256 → pktWord p 2 % 256 + pktWord p 3 ≤ 256 →
      pktWord p 3 ≠ 0 → s.agentBytes p.tenant (pktWord p 1) (pktWord p 3) = some (u, bs) →
      s.copyData p = (u.agentStore 4 p.tenant (pktWord p 2) bs).getD (u.agentFail p.tenant (pktWord p 2)))
    ∧ (∀ (s : State) (p : Packet), pktWord p 3 = 0 → s.copyData p = s)
    ∧ (∀ (s u : State) (j : Job) (z : Bool), s.jobs.find? (fun x => x.id = j.id && x.kind == .barrier) = some j →
      s.met = none → s.depsZero j.pkt = (u, z) → settles (.barrierAndComplete j.id) s s (if z then u.finishPacket j.pkt j.id else u))
    ∧ (∀ (s : State) (p : Packet), (∀ i, i < 6 → pktWord p i = 0) → s.depsZero p = (s, true))
    ∧ (∀ (s : State) (j : Job), s.jobs.find? (fun x => x.id = j.id && x.kind == .copy) = some j →
      s.met = none → settles (.copyPacketComplete j.id) s s (s.finishPacket j.pkt j.id))
    ∧ (∀ (s : State) (j : Job), s.jobs.find? (fun x => decide (x.id = j.id) && x.kind == .copy) = some j → s.met = none →
      pktWord j.pkt 6 = 0 → natBit (pktWord j.pkt 0) 18 = false → (s.queue j.pkt.tenant j.pkt.queue).state ≠ 2 →
      exec (.copyPacketComplete j.id) s = .next { s with jobs := s.jobs.filter fun x => x.id ≠ j.id })
    ∧ (∀ (s : State) (p : Packet) (job : Nat), pktWord p 6 ≠ 0 →
      let put (s : State) (off v : Nat) : State := s.complWord p.tenant p.queue (pktTag p) (pktWord p 6 + off) fun _ => v
      let x := put (put (put (put s 8 0) 0x10 0) 0 0) 0x18 1
      s.finishPacket p job =
        (if natBit (pktWord p 0) 18 = true ∧ p.queue < 64 then x.interrupt p.tenant (64 + p.queue) else x).endJob job)
    ∧ (∀ (s : State) (t queue tag va v : Nat),
      (∀ u bs u', s.agentBytes t va 8 = some (u, bs) → u.agentStore 4 t va (leBytes v 8) = some u' →
        s.complWord t queue tag va (fun _ => v) = u')
      ∧ (s.agentBytes t va 8 = none → s.complWord t queue tag va (fun _ => v) = (s.agentFail t va).queueError t 10 queue tag va))
    ∧ (∀ (s : State) (j : Job), s.jobs.find? (fun x => x.id = j.id) = some j → pktWord j.pkt 6 = 0 →
      natBit (pktWord j.pkt 0) 18 = false → (s.queue j.pkt.tenant j.pkt.queue).state ≠ 2 →
      s.finishPacket j.pkt j.id = { s with jobs := s.jobs.filter fun x => x.id ≠ j.id })
    ∧ (∀ (s : State) (p : Packet) (n : Nat) (i : Instr), (n, i) ∈ rows p → pktType p ≠ n → exec i s = .next s)

/-- CCBGO takes the configuration of the control block at CCBADDR as it stands in memory, lifts a halt and changes nothing
else but the FPE trap enables of the context's crews. QCTL activates a queue with the descriptor's base, size, write and
read index words and with the read index found in memory, or waits where that word lies on a MOVING page or beyond a missing
route; DRAIN makes an active queue draining, or idle when none of its packets is left; ABORT does the same and discards
every launch of the queue. A doorbell or a poll of a queue that is not active changes nothing; of an active queue it reads
the write index and then, one after the other, the packets below it, each of which moves the read index by 1 before the
packet is acted on; where one of these accesses meets a MOVING page, a die without a route or a record that it cannot drain,
the step has done nothing and waits for that. Every other queue of the tenant and every other tenant is left as it was. The
model's choices here: CCBGO lifts a halt (log 33), activation takes the read index from memory and a poll reads at most
RSIZE packets (log 35), and an RSIZE, RBASE, WIDX or RIDX that R263 does not allow is used as it stands, an RSIZE of 0 as 1
(log 68). -/
def Obligations.QueueControlAndReading : Prop :=
  let others (s u : State) (t q : Nat) : Prop :=
    (∀ x, x ≠ t → aget u.tenants x = aget s.tenants x) ∧ ∀ x, x ≠ q → aget (u.tenant t).queues x = aget (s.tenant t).queues x
  (∀ (s : State) (t : Nat),
    let b := (s.tenant t).ccbaddr.toNat
    let dw (o : Nat) : DWord := BitVec.ofNat 64 (s.physNat (b + o) 8)
    ∃ (x : Tenant) (u : State), exec (.ccbgo t) s = .next u ∧ u = { s with
        tenants := aset s.tenants t x, bankUse := u.bankUse, drowsy := u.drowsy
        crews := s.crews.map fun (k, c) => (k, if c.tenant = t then { c with ten := x.ten } else c) }
      ∧ x.root = ((dw 0).extractLsb' 16 40).toNat ∧ x.asid = ((dw 8).extractLsb' 0 16).toNat
      ∧ x.number = ((dw 8).extractLsb' 16 4).toNat ∧ x.expl = (dw 8).getLsbD 32 ∧ x.snapu = (dw 8).getLsbD 33
      ∧ x.octants = (dw 0x10).setWidth 16 ∧ x.maxprio = ((dw 0x18).extractLsb' 0 2).toNat ∧ x.ten = (dw 0x18).extractLsb' 8 5
      ∧ x.vecbase = (dw 0x28).toNat ∧ x.errBase = (dw 0x30).toNat ∧ x.errCount = ((dw 0x38).setWidth 32).toNat
      ∧ x.fqBase = dw 0x40 ∧ x.fqSize = ((dw 0x48).setWidth 32).toNat ∧ x.trapvec = dw 0x58 ∧ x.halted = false
      ∧ (∀ v, v < 4 → x.vdt.getD v none =
          if (s.physNat (b + 0x20 + v) 1) / 128 % 2 = 1 then some (s.physNat (b + 0x20 + v) 1 % 4) else none)
      ∧ x.queues = (s.tenant t).queues ∧ x.ccbaddr = (s.tenant t).ccbaddr ∧ x.apbase = (s.tenant t).apbase
      ∧ x.aplen = (s.tenant t).aplen ∧ x.waiting = (s.tenant t).waiting ∧ x.open_ = (s.tenant t).open_
      ∧ x.farPlaced = (s.tenant t).farPlaced ∧ x.fqWraps = (s.tenant t).fqWraps
      ∧ x.errWraps = (s.tenant t).errWraps)
    ∧ (∀ (s : State) (t q : Nat),
      let d := (s.tenant t).ccbaddr.toNat + 0x100 + 32 * q
      let ridx := s.physNat (d + 0x18) 8
      ∃ u, exec (.qctlActivate t q) s = .next u ∧ others s u t q ∧ u.crews = s.crews ∧ u.jobs = s.jobs
        ∧ ∀ v, s.met = none → (s.usePhys d).agentBytes t ridx 8 = some v →
          (∀ pfn, v.1.met = some (.moving pfn) → u = s.joinQueue pfn (.agent (.qctlActivate t q)))
          ∧ (∀ g, v.1.met = some (.noRoute g) → u = { s with stalled := s.stalled ++ [(g, .qctlActivate t q)] })
          ∧ (v.1.met = none → aget (u.tenant t).queues q = some
            { state := 1, rbase := BitVec.ofNat 64 (v.1.physNat d 8), rsize := v.1.physNat (d + 8) 4
              widx := BitVec.ofNat 64 (v.1.physNat (d + 0x10) 8), ridx := BitVec.ofNat 64 ridx, next := leNat v.2 }))
    ∧ (∀ (s : State) (t q : Nat),
      ((s.queue t q).state ≠ 1 → exec (.qctlDrain t q) s = .next s)
      ∧ ((s.queue t q).state = 1 → ∃ u, exec (.qctlDrain t q) s = .next u ∧ others s u t q ∧ u.jobs = s.jobs ∧ u.crews = s.crews
        ∧ ((∃ j ∈ s.jobs, j.pkt.tenant = t ∧ j.pkt.queue = q) → u.queue t q = { s.queue t q with state := 2 })
        ∧ ((∀ j ∈ s.jobs, j.pkt.tenant = t → j.pkt.queue ≠ q) → u.queue t q = { s.queue t q with state := 0 })))
    ∧ (∀ (s : State) (t q : Nat), ∃ u, exec (.qctlAbort t q) s = .next u
      ∧ ((∀ x ∈ s.launches, x.2.tenant = t → x.2.queue = q → (s.launchRec x.1).complete = true) → exec (.qctlDrain t q) s = .next u)
      ∧ u = (s.drainQueue t q).discardLaunches fun l => l.tenant = t && l.queue = q)
    ∧ (∀ (s : State) (l : Nat) (la : Launch), (∀ x ∈ s.parties, aget s.parties x.1 = some x.2) → aget s.launches l = some la →
      la.complete = false →
      ∃ la', aget (s.discardLaunch l).launches l = some la' ∧ la'.discarded = true ∧ la'.complete = true
        ∧ la'.nextOuting = la.outings)
    ∧ (∀ (s : State) (t q : Nat) (i : Instr), i ∈ [.queueDoorbell t q, .queuePoll t q] →
      ((s.queue t q).state ≠ 1 → s.met = none → exec i s = .next s)
      ∧ ∀ u bs, (s.queue t q).state = 1 → s.met = none →
        (s.agentAcquire t (s.queue t q).widx.toNat).agentBytes t (s.queue t q).widx.toNat 8 = some (u, bs) →
        let v := readPackets t q (leNat bs) (max 1 (s.queue t q).rsize) u
        (v.met = none → exec i s = .next v) ∧ (∀ pfn, v.met = some (.moving pfn) → exec i s = .next (s.joinQueue pfn (.agent i)))
          ∧ (∀ g, v.met = some (.noRoute g) → exec i s = .next { s with stalled := s.stalled ++ [(g, i)] })
          ∧ (∀ g, v.met = some (.away g) → exec i s = .next (s.markAway g))
          ∧ (leNat bs ≤ (u.queue t q).next → v = u))
    ∧ (∀ (s : State) (t q w n : Nat), (s.queue t q).state = 1 → (s.queue t q).next < w →
      readPackets t q w (n + 1) s = readPackets t q w n (s.readPacket t q (s.queue t q).next))
    ∧ (∀ (s u : State) (t q i : Nat) (bs : List Byte),
      let x := s.queue t q
      let va := (x.rbase.toNat + 64 * (i % max 1 x.rsize)) % 2 ^ 64
      s.agentBytes t va 64 = some (u, bs) →
      ∃ v, s.readPacket t q i = v.takePacket
          { tenant := t, queue := q, addr := va
            words := (List.range 8).map fun j => BitVec.ofNat 64 (leNat ((bs.drop (8 * j)).take 8)) }
        ∧ ((aget (u.tenant t).queues q).isSome = true → (v.queue t q).next = i + 1) ∧ others u v t q)

/-- FQREPLAY of an index closes its record. Of parked slices it ends the wait, and with TRAP each of them takes PROT with
the faulting address, from the lowest; of a frozen crew it delivers the trap again; of an engine operation that a fault
stopped it lets it run, or with TRAP ends it in error with PROT; of a PUTSIG that takes the post of the slice whose write it
was and the others go on (the model's reading of R250 beside R242: log 71). An index with no open record changes nothing. A
poll of FQTAIL writes the waiting records in their order while the ring has room, and drops those of a halted context or of
what is gone. A record that is written takes the slot SEQ mod FQSIZE, where SEQ is FQHEAD with the times that it has passed
2^32 above it, with its SEQ and PHASE and moves FQHEAD by 1; a ring that does not take it halts the context. (That a ring of
FQSIZE 0 takes no record and halts the context is the model's choice, log 53: R183 gives the range and no outcome.) A new
record goes behind those that wait. -/
def Obligations.FaultService : Prop :=
  let closed (s : State) (t idx : Nat) : State :=
    { s with tenants := aset s.tenants t { s.tenant t with open_ := adel (s.tenant t).open_ idx } }
  (∀ (s : State) (t idx : Nat), aget (s.tenant t).open_ idx = none →
      exec (.fqreplay t idx) s = .next s ∧ exec (.fqreplayTrap t idx) s = .next s)
    ∧ (∀ (s : State) (t idx k : Nat) (mask : BitVec 8) (addr : DWord) (c : Crew),
      aget (s.tenant t).open_ idx = some (.slices k mask addr) → aget s.crews k = some c →
      let is := slices8.filter fun i => mbit mask i && (c.slice i).wait == .parked
      ∃ c', (∀ i, c'.slice i = if i ∈ is then { c.slice i with wait := .none } else c.slice i)
        ∧ { c' with slices := c.slices } = c
        ∧ exec (.fqreplay t idx) s = .next ((closed s t idx).setCrew k c')
        ∧ exec (.fqreplayTrap t idx) s = .next (is.foldl (fun (u : State) i => u.raise k i
            { code := 0x07, info := BitVec.ofNat 64 (protInfo addr.toNat), addr := BitVec.ofNat 64 (protInfo addr.toNat)
              retpc := (c.slice i).pc, word := (c.slice i).word, pfx := (c.slice i).pfx })
            ((closed s t idx).setCrew k c')))
    ∧ (∀ (s : State) (t idx k i : Nat) (c : Crew) (x : TrapInfo), aget (s.tenant t).open_ idx = some (.frozen k) →
      aget s.crews k = some c → c.frozen = some (i, x) →
      let u := ((closed s t idx).setCrew k { c with frozen := none }).deliver k i x
      exec (.fqreplay t idx) s = .next u ∧ exec (.fqreplayTrap t idx) s = .next u)
    ∧ (∀ (s : State) (t idx id : Nat), aget (s.tenant t).open_ idx = some (.engine id) →
      let go (f : EngineOp → EngineOp) : State := { closed s t idx with
        ops := s.ops.map fun o => if o.id = id ∧ o.status = .stopped then f o else o }
      exec (.fqreplay t idx) s = .next (go fun o => { o with status := .running })
        ∧ exec (.fqreplayTrap t idx) s = .next (go fun o =>
          match o.kind, o.writes[o.elems]? with
          | .putsig, some x => { o with status := .running, stall := none, lost := o.lost ++ [(x.slice, 0x07)] }
          | _, _ => { o with status := .failed 0x07, stall := none }))
    ∧ (∀ (s : State) (t : Nat),
      ((s.tenant t).waiting = [] → exec (.fqtailPoll t) s = .next s)
      ∧ ∀ r rest, (s.tenant t).waiting = r :: rest →
        let u : State := { s with tenants := aset s.tenants t { s.tenant t with waiting := rest } }
        ((s.tenant t).halted = true ∨ s.concerns r.target = false →
            exec (.fqtailPoll t) s = .next (appendWaiting t rest.length u))
        ∧ ((s.tenant t).halted = false → s.concerns r.target = true → s.ringFull t = true → exec (.fqtailPoll t) s = .next s)
        ∧ ((s.tenant t).halted = false → s.concerns r.target = true → s.ringFull t = false →
            exec (.fqtailPoll t) s = .next (appendWaiting t rest.length (u.writeFault t r))))
    ∧ (∀ (s v : State) (t : Nat) (r : FaultRec),
      let x := s.tenant t
      let seq := x.fqWraps * 2 ^ 32 + s.fqHead t
      let va := x.fqBase.toNat + 64 * (seq % x.fqSize)
      (x.fqSize = 0 ∨ s.ringOk t va = false → s.writeFault t r = s.haltTenant t 0x18 7 0 va)
      ∧ (x.fqSize ≠ 0 → s.ringOk t va = true →
        (s.useRing t).agentWrite 4 t va ((r.words ++ [BitVec.ofNat 64 seq, BitVec.ofNat 64 (seq / x.fqSize % 2)]).flatMap fun w => leBytes w.toNat 8) = some v →
        s.writeFault t r = ((v.modTenant t fun y =>
            { y with open_ := (y.open_.filter fun o => o.1 ≠ seq % x.fqSize) ++ [(seq % x.fqSize, r.target)]
                     fqWraps := if s.fqHead t + 1 = 2 ^ 32 then y.fqWraps + 1 else y.fqWraps }).physWrite 4
          (x.ccbaddr.toNat + 0x4C) (leBytes (s.fqHead t + 1) 4)).interrupt t 1))
    ∧ ∀ (s : State) (t : Nat) (r : FaultRec), (s.tenant t).halted = false →
      ((s.tenant t).waiting ≠ [] ∨ ((s.tenant t).fqSize ≠ 0 ∧ s.ringFull t = true) →
        s.appendFault t r = { s.useRing t with tenants := aset s.tenants t { s.tenant t with waiting := (s.tenant t).waiting ++ [r] } })
      ∧ ((s.tenant t).waiting = [] → (s.tenant t).fqSize = 0 ∨ s.ringFull t = false → s.appendFault t r = (s.useRing t).writeFault t r)

/-- A trigger latches free values and sets SNAPHELD, or raises SNAPMISS while one is held; SNAPHELD written with bit 0
clears both. A connection entry written with V is rejected with ERR when it joins a die to itself, names no die or shares a
port, else it is taken with BUSY; without V its circuit drains; new traffic takes the circuits that stand. When BUSY falls
those are also the circuits from which the distances are computed, and call records that wait for a route are tried again. A
group entry takes its fields within their ranges, and the group's operations in flight end in error. The host's write of a
register by number does what the register's own row does; a read-only one, and one with no number in the table, is left
alone. Nothing else changes. (The model's choices: the circuits that stand are the entries with V set and BUSY clear, log
43; the operations that a write of a group's entry ends are those of the group's own kinds, COLL and MSTORE, log 42.) -/
def Obligations.ServiceEvents : Prop :=
  let csrOnly (s t : State) (n : Nat) : Prop := (∀ m, m ≠ n → sget t.csr m = sget s.csr m) ∧ { t with csr := s.csr } = s
  let conn (s : State) (e : Nat) : DWord := sget s.csr (0x100 + e)
  let ports (w : DWord) : List (BitVec 3 × BitVec 3) :=
    [(w.extractLsb' 12 3, w.extractLsb' 9 3), (w.extractLsb' 6 3, w.extractLsb' 3 3)]
  let bad (s : State) (e : Nat) (v : DWord) : Prop :=
    v.extractLsb' 12 3 = v.extractLsb' 6 3 ∨ 4 < v.extractLsb' 12 3 ∨ 4 < v.extractLsb' 6 3
      ∨ ∃ x, x < 32 ∧ x ≠ e ∧ (conn s x).getLsbD 31 = true ∧ ∃ p ∈ ports (conn s x), p ∈ ports v
  let stand (t : State) : Prop :=
    ∀ w, w ∈ t.routes ↔ ∃ x, x < 32 ∧ w = conn t x ∧ w.getLsbD 31 = true ∧ w.getLsbD 30 = false
  (∀ (s : State) (v : DWord) (i : Instr), i ∈ [.snaptrig v, .snapin] → ∃ t, exec i s = .next t
      ∧ (sget s.csr 0x31 = 1 → csrOnly s t 0x32 ∧ sget t.csr 0x32 = sget s.csr 0x32 + 1)
      ∧ (sget s.csr 0x31 ≠ 1 → sget t.csr 0x31 = 1 ∧ t.snapLatch = some s.free ∧ s.free < t.free
        ∧ csrOnly { s with snapLatch := t.snapLatch, free := t.free } t 0x31))
    ∧ (∀ (s : State) (v : DWord), ∃ t, exec (.snapheld v) s = .next t
      ∧ (v.getLsbD 0 = true → sget t.csr 0x31 = 0 ∧ sget t.csr 0x32 = 0
        ∧ (∀ m, m ≠ 0x31 → m ≠ 0x32 → sget t.csr m = sget s.csr m) ∧ { t with csr := s.csr } = s)
      ∧ (v.getLsbD 0 = false → t = s))
    ∧ (∀ (s : State) (e : Nat) (v : DWord), ∃ t, exec (.connWrite e v) s = .next t
      ∧ (32 ≤ e → t = s)
      ∧ (e < 32 → csrOnly { s with routes := t.routes } t (0x100 + e) ∧ stand t
        ∧ (v.getLsbD 31 = true → bad s e v →
            conn t e = (conn s e &&& 0xFFFFFFFF) ||| 0x20000000)
        ∧ (v.getLsbD 31 = true → ¬bad s e v → conn t e = (v &&& 0x7FF8) ||| 0xC0000000)
        ∧ (v.getLsbD 31 = false → conn t e =
            (v &&& 0x7FF8) ||| if (conn s e).getLsbD 31 || (conn s e).getLsbD 30 then 0x40000000 else 0)))
    ∧ (∀ (s : State) (e : Nat), ∃ t, exec (.circuitDrainEnd e) s = .next (if (conn s e).getLsbD 30 && decide (e < 32) then t.retryRecords else t)
      ∧ (e < 32 → (conn s e).getLsbD 30 = true → csrOnly { s with routes := t.routes, measured := t.measured } t (0x100 + e)
        ∧ conn t e = conn s e &&& ~~~0x40000000 ∧ stand t ∧ t.measured = t.routes)
      ∧ (32 ≤ e ∨ (conn s e).getLsbD 30 = false → t = s))
    ∧ (∀ s : State, (∀ x ∈ s.crews, ∀ sl ∈ x.2.slices, sl.pend = none ∨ ∀ d a since, sl.wait ≠ .route d a since) → s.retryRecords = s)
    ∧ (∀ (s : State) (n : Nat) (v : DWord), ∃ t, exec (.groupTableWrite n v) s = .next t
      ∧ (n < 0x400 ∨ 0x800 ≤ n → t = s)
      ∧ (0x400 ≤ n → n < 0x800 →
        csrOnly { s with ops := t.ops } t n
        ∧ (n % 4 = 0 → let w := sget t.csr n
            w.extractLsb' 48 16 = v.extractLsb' 48 16 ∧ w.extractLsb' 0 8 = v.extractLsb' 0 8
            ∧ w.extractLsb' 45 3 = 0 ∧ w.extractLsb' 29 3 = 0 ∧ w.extractLsb' 8 8 = 0
            ∧ (w.extractLsb' 16 13).toNat = max 2 (min 4096 (v.extractLsb' 16 13).toNat)
            ∧ (w.extractLsb' 32 13).toNat = min (v.extractLsb' 32 13).toNat ((w.extractLsb' 16 13).toNat - 1))
        ∧ (n % 4 = 1 → sget t.csr n = v &&& ~~~0xFFF)
        ∧ (n % 4 = 2 ∨ n % 4 = 3 → sget t.csr n = v)
        ∧ t.ops = s.ops.map fun o =>
            if o.group = (n - 0x400) / 4 ∧ (o.kind = .coll ∨ o.kind = .mstore) ∧ (∀ x, o.status ≠ .failed x) then
              { o with status := .failed 0x15 } else o))
    ∧ (∀ (s : State) (n : Nat) (v : DWord),
      let t := (sget s.csr 0).toNat % 16
      let x := s.tenant t
      let page : DWord := v &&& ~~~0xFFF
      let ten (y : Tenant) : State := { s with tenants := aset s.tenants t y }
      let put (m : Nat) : State := { s with csr := sset s.csr n (BitVec.ofNat 64 m) }
      let go := exec (.serviceRegisterWrite n v) s
      (n = 0x00 → go = .next (put (v.toNat % 16)))
      ∧ (n = 0x01 → go = .next (ten { x with ccbaddr := page }))
      ∧ (n = 0x02 → go = if v.getLsbD 0 then exec (.ccbgo t) s else .next s)
      ∧ (n = 0x03 → let q := (v.extractLsb' 0 6).toNat
          (v.extractLsb' 8 2 = 0 → go = .next s) ∧ (v.extractLsb' 8 2 = 1 → go = exec (.qctlActivate t q) s)
          ∧ (v.extractLsb' 8 2 = 2 → go = exec (.qctlDrain t q) s) ∧ (v.extractLsb' 8 2 = 3 → go = exec (.qctlAbort t q) s))
      ∧ (n = 0x04 → let q := (v.extractLsb' 0 16).toNat
          go = if v.getLsbD 16 then exec (.fqreplayTrap t q) s else exec (.fqreplay t q) s)
      ∧ (n = 0x05 → go = .next (ten { x with apbase := page }))
      ∧ (n = 0x06 → go = .next (ten { x with aplen := page }))
      ∧ (n = 0x10 → go = .next (put v.toNat))
      ∧ (n = 0x11 → go = .next (put (max 1000 (min 1000000 v.toNat))))
      ∧ (n = 0x12 → go = exec (.hbfence v) s)
      ∧ (n = 0x13 → go = exec (.hbreg v) s)
      ∧ (n = 0x20 → go = .next (put (max 24 (min 48 v.toNat))))
      ∧ (n = 0x21 → go = .next (put (v.toNat % 32)))
      ∧ (n = 0x30 → go = exec (.snaptrig v) s)
      ∧ (n = 0x31 → go = exec (.snapheld v) s)
      ∧ (0x100 ≤ n → n < 0x400 → go = exec (.connWrite (n - 0x100) v) s)
      ∧ (0x400 ≤ n → n < 0x800 → go = exec (.groupTableWrite n v) s)
      ∧ (n ∉ [0x00, 0x01, 0x02, 0x03, 0x04, 0x05, 0x06, 0x10, 0x11, 0x12, 0x13, 0x20, 0x21, 0x30, 0x31] → n < 0x100 ∨ 0x800 ≤ n →
          go = .next s))

/-- HOST_READ answers with the bytes at their masters and changes no byte, and through BAR0 with the bytes of the register
at the offset, zero for those it does not reach (BAR0 stands above the addresses of memory: log 60). HOST_WRITE puts its
bytes at the master of their page, where they are read back; beyond them and the absent sectors that it fills no byte of
memory changes, and no other page's record. HOST_ATOMICOP of a width that the module completes, aligned, answers with the
old value and leaves the sum, the operand, or the operand where the value compared equal; any other completes as an
unsupported request and changes nothing. An access that meets a MOVING page joins the page's queue for the end of the remap,
and one whose page lies on a die that the I/O die has no route to waits for that (the model's choice, log 65).
ATS_INVALIDATION drops the cached host translations that meet its range, and no others, and completes. (The field met is the
model's own and empty between steps.) -/
def Obligations.HostAccess : Prop :=
  let still (s : State) (pa n : Nat) : Prop := ∀ q ∈ [pa / 4096, (pa + n - 1) / 4096], (s.page q).moving = false
    ∧ s.noRoute .io (.paged q (s.page q).held 0 0) true = none
  (∀ (s : State) (pa size tag : Nat), s.met = none → still s pa size → pa < Config.bar0 → ∃ t, exec (.hostRead pa size tag) s = .next t
      ∧ t.outbox = s.outbox ++ [.hostData tag ((List.range size).map fun i =>
          let a := pa + i
          let p := (s.page (a / 4096)).held
          sget s.mem (if mbit p.sect (a % 4096 / 256) then masterAddr (a / 4096) p (a % 4096) else a))]
      ∧ { t with outbox := s.outbox, bankUse := s.bankUse, drowsy := s.drowsy } = s)
    ∧ (∀ (s : State) (off size tag : Nat), s.met = none →
      let r : State × DWord := if 0x3000 ≤ off / 8 then (s, 0) else s.csrRead (off / 8)
      ∃ t bs, exec (.hostRead (Config.bar0 + off) size tag) s = .next t ∧ t = { r.1 with outbox := s.outbox ++ [.hostData tag bs] }
        ∧ bs.length = size ∧ ∀ j, j < size → off % 8 + j < 8 → bs.getD j 0 = r.2.extractLsb' (8 * (off % 8 + j)) 8)
    ∧ (∀ (s : State) (pa n tag cmp x : Nat) (data : List Byte) (op : HostOp) (i : Instr) (q : Nat), s.met = none →
      (i = .hostRead pa n tag ∧ pa < Config.bar0) ∨ (i = .hostWrite pa data ∧ data.length = n)
        ∨ (i = .hostAtomicop op pa n tag cmp x ∧ (n = 4 ∨ n = 8 ∨ (n = 16 ∧ op = .cas)) ∧ pa % n = 0) →
      let pages := [pa / 4096, (pa + n - 1) / 4096]
      (pages.find? (fun q => (s.page q).moving) = some q → exec i s = .next (s.joinQueue q (.agent i)))
      ∧ (pages.find? (fun q => (s.page q).moving) = none →
          pages.findSome? (fun q => s.noRoute .io (.paged q (s.page q).held 0 0) true) = some q →
          exec i s = .next { s with stalled := s.stalled ++ [(q, i)] }))
    ∧ (∀ (s : State) (pa : Nat) (data : List Byte), s.met = none → still s pa data.length → pa % 4096 + data.length ≤ 4096 →
      let pfn := pa / 4096
      let p := (s.page pfn).held
      ∃ t, exec (.hostWrite pa data) s = .next t ∧ t.physRead pa data.length = data
        ∧ (∀ a, (∀ j, j < data.length → a ≠ masterAddr pfn p (pa % 4096 + j)
            ∧ ¬s.Fills .io (.paged pfn p (pa % 4096 + j) 0) a) → sget t.mem a = sget s.mem a)
        ∧ (∀ q, q ≠ pfn → aget t.pages q = aget s.pages q)
        ∧ { t with mem := s.mem, pages := s.pages, bankUse := s.bankUse, drowsy := s.drowsy } = s)
    ∧ (∀ (s : State) (op : HostOp) (pa size tag cmp x : Nat),
      let ok := (size = 4 ∨ size = 8 ∨ (size = 16 ∧ op = .cas)) ∧ pa % size = 0
      let old := s.physNat pa size
      (ok → s.met = none → still s pa size → ∃ t, exec (.hostAtomicop op pa size tag cmp x) s = .next t
        ∧ t.outbox = s.outbox ++ [.hostData tag (leBytes old size)]
        ∧ t.physNat pa size = (match op with
            | .fetchAdd => (old + x) % 2 ^ (8 * size)
            | .swap => x % 2 ^ (8 * size)
            | .cas => if old = cmp % 2 ^ (8 * size) then x % 2 ^ (8 * size) else old)
        ∧ (∀ q, q ≠ pa / 4096 → aget t.pages q = aget s.pages q)
        ∧ { t with mem := s.mem, pages := s.pages, bankUse := s.bankUse, drowsy := s.drowsy, outbox := s.outbox } = s)
      ∧ (¬ok → exec (.hostAtomicop op pa size tag cmp x) s = .next { s with outbox := s.outbox ++ [.refusedAccess 0 tag] }))
    ∧ ∀ (s : State) (lo hi tag : Nat), ∃ t, exec (.atsInvalidation lo hi tag) s = .next t
      ∧ (∀ c e, (c, e) ∈ t.caches ↔ (c, e) ∈ s.caches
          ∧ ¬((e.leaf.mtype = .hostSnoop ∨ e.leaf.mtype = .hostNS) ∧ e.leaf.pfn * 4096 < hi ∧ lo < (e.leaf.pfn + 1) * 4096))
      ∧ t.outbox = s.outbox ++ [.atsDone tag] ∧ { t with caches := s.caches, outbox := s.outbox } = s

/-- While fabric service is enabled, a READ, WRITE or ATOMIC whose page lies below APLEN acts at APBASE plus its page and
offset in the tenant of FABCFG, and its response or acceptance goes to its source; one that is refused, cannot be translated
or is misaligned changes nothing but the use of banks, asks for a host page's translation, and gets none. MWRITE writes this
module's window of its group where it lies in range, and is accepted in any case; REDREAD answers with the window's bytes in
range. One that meets a MOVING page joins the page's queue for the end of the remap, and one that meets a die without a
route waits for that (log 65). SIGNAL delivers its value to the slot that it names and is accepted. CDATA is accepted, and
its piece joins the member's contribution to a collective that is not past, unless the member is this module itself. (The
field met is the model's own and empty between steps. The model's choices: a refused READ or REDREAD gets no response and a
MWRITE outside the window is accepted, log 32; a CDATA piece of this module's own rank is accepted and ignored, log 27; a
SIGNAL brings the whole address space to the slot's summary, log 67.) -/
def Obligations.LinkRequests : Prop :=
  let cfg (s : State) : DWord := sget s.csr 0x21
  let ten (s : State) : Nat := (cfg s).toNat % 16
  let va (s : State) (page off : Nat) : Nat := ((s.tenant (ten s)).apbase.toNat + 4096 * page + off) % 2 ^ 64
  let served (s : State) (page : Nat) : Prop := (cfg s).getLsbD 4 = true ∧ 4096 * page < (s.tenant (ten s)).aplen.toNat
  let fails (i : Instr) (s : State) (t va : Nat) : Prop := exec i s = .next (s.agentFail t va)
    ∧ { s.agentFail t va with bankUse := s.bankUse, drowsy := s.drowsy, outbox := s.outbox } = s
  let sends (u : State) (m : Msg) : State := { u with outbox := u.outbox ++ [m] }
  let settles (i : Instr) (s t : State) : Prop :=
    (t.met = none → exec i s = .next t)
      ∧ (∀ pfn, t.met = some (.moving pfn) → exec i s = .next (s.joinQueue pfn (.agent i)))
      ∧ (∀ d, t.met = some (.noRoute d) → exec i s = .next { s with stalled := s.stalled ++ [(d, i)] })
      ∧ ∀ g, t.met = some (.away g) → exec i s = .next (s.markAway g)
  (∀ (s : State) (page off size src tag : Nat), s.met = none →
      (∀ u bs, served s page → s.agentBytes (ten s) (va s page off) size = some (u, bs) →
        settles (.read page off size src tag) s (sends u (.response src tag bs)))
      ∧ (served s page → s.agentBytes (ten s) (va s page off) size = none →
        fails (.read page off size src tag) s (ten s) (va s page off))
      ∧ (¬served s page → exec (.read page off size src tag) s = .next s))
    ∧ (∀ (s : State) (page off src tag : Nat) (data : List Byte), s.met = none →
      (∀ u, served s page → s.agentStore 4 (ten s) (va s page off) data = some u →
        settles (.write page off data src tag) s (sends u (.accepted src tag)))
      ∧ (served s page → s.agentStore 4 (ten s) (va s page off) data = none →
        fails (.write page off data src tag) s (ten s) (va s page off))
      ∧ (¬served s page → exec (.write page off data src tag) s = .next s))
    ∧ (∀ (s : State) (page off fn op ty src tag : Nat) (x : List Byte), s.met = none →
      let k := linkKind fn op ty
      let i := Instr.atomic page off fn op ty x src tag
      (∀ tgt u bs r, served s page → va s page off % k.size = 0 → s.agentXlate (ten s) (va s page off) .write = .ok tgt →
        tgt.plain = true → k.unsupported tgt = none → s.agentBytes (ten s) (va s page off) k.size = some (u, bs) →
        (k.apply (leNat bs) (leNat x) = (none, r) → settles i s (sends u (.response src tag (leBytes r k.size))))
        ∧ ∀ v w, k.apply (leNat bs) (leNat x) = (some v, r) →
          u.agentStore 4 (ten s) (va s page off) (leBytes v k.size) = some w →
          settles i s (sends w (.response src tag (leBytes r k.size))))
      ∧ (¬served s page ∨ va s page off % k.size ≠ 0 → exec i s = .next s)
      ∧ (served s page → va s page off % k.size = 0 → (∀ tgt, s.agentXlate (ten s) (va s page off) .write ≠ .ok tgt) →
        fails i s (ten s) (va s page off)))
    ∧ (∀ (s : State) (g off src tag : Nat) (data : List Byte) (k : Nat) (x : Tenant), s.met = none →
      let base := (sget s.csr (0x400 + 4 * g + 1)).toNat
      let len := (sget s.csr (0x400 + 4 * g + 2)).toNat
      let owner := s.tenants.find? fun y => y.2.number = ((sget s.csr (0x400 + 4 * g)).extractLsb' 4 4).toNat
      (len < off + data.length → exec (.mwrite g off data src tag) s = .next (sends s (.accepted src tag)))
      ∧ (off + data.length ≤ len → owner = some (k, x) → settles (.mwrite g off data src tag) s
          (sends ((s.agentStore 4 k ((base + off) % 2 ^ 64) data).getD (s.agentFail k ((base + off) % 2 ^ 64))) (.accepted src tag)))
      ∧ (owner = none → exec (.mwrite g off data src tag) s = .next (sends s (.accepted src tag)))
      ∧ ∀ size, (len < off + size → exec (.redread g off size src tag) s = .next s)
        ∧ ∀ u bs, off + size ≤ len → owner = some (k, x) → s.agentBytes k ((base + off) % 2 ^ 64) size = some (u, bs) →
          settles (.redread g off size src tag) s (sends u (.response src tag bs)))
    ∧ (∀ (s : State) (a : DWord) (v : Word) (t src tag : Nat),
      let slot := (a.extractLsb' 42 6).toNat
      let index := (a.extractLsb' 0 32).toNat
      let go := exec (.signal a v t src tag) s
      let hold (l : Nat) : State := { s with
        launches := amod s.launches l fun y => { y with heldPosts := y.heldPosts ++ [(index, slot, v, .whole)] } }
      (s.tagged a.toNat = none → go = .next (sends s (.accepted src tag)))
      ∧ ∀ l la, s.tagged a.toNat = some (l, la) →
        (la.tenant ≠ t ∨ la.signals ≤ slot ∨ la.total ≤ index → go = .next (sends s (.accepted src tag)))
        ∧ (la.tenant = t → slot < la.signals → index < la.total →
          (s.findParty l index = none → go = .next (sends (hold l) (.accepted src tag)))
          ∧ ∀ p pa, s.findParty l index = some (p, pa) →
            ((∃ area, pa.status = .saved area) → go = .next (sends (hold l) (.accepted src tag)))
            ∧ ((pa.status = .resident ∨ ∃ n, pa.status = .stopping n) →
                go = .next (sends (s.postSlot p slot v .whole) (.accepted src tag)))
            ∧ (pa.status = .retired ∨ pa.status = .discarded → go = .next (sends s (.accepted src tag)))))
    ∧ (∀ (s : State) (p slot : Nat) (v : Word) (r : GRange), ∃ f : Party → Party, s.postSlot p slot v r = s.modParty p f
      ∧ ∀ x, sget (f x).sigs slot = sget x.sigs slot + v ∧ (∀ n, n ≠ slot → sget (f x).sigs n = sget x.sigs n)
        ∧ { f x with sigs := x.sigs, sigSummary := x.sigSummary } = x)
    ∧ ∀ (s : State) (g seq rank off src tag : Nat) (desc : List DWord) (data : List Byte),
      let mine (p : CollPart) : Prop := p.group = g ∧ p.seq = seq ∧ p.rank = rank
      let past := seq < (sget s.groupRun g).toNat ∨ rank = ((sget s.csr (0x400 + 4 * g)).extractLsb' 32 13).toNat
      let go := exec (.cdata g seq rank desc ⟨off, data, src, tag⟩) s
      (past → go = .next (sends s (.accepted src tag)))
      ∧ (¬past → (∀ p ∈ s.parts, ¬mine p) → ∃ d, go = .next (sends { s with
          parts := s.parts ++ [{ group := g, seq := seq, rank := rank, desc := desc, data := d, got := data.length }] } (.accepted src tag))
          ∧ ∀ i, d.getD i 0 = if off ≤ i ∧ i < off + data.length then data.getD (i - off) 0 else 0)
      ∧ (¬past → (∃ p ∈ s.parts, mine p) → ∃ put : CollPart → CollPart,
          go = .next (sends { s with parts := s.parts.map fun p => if mine p then put p else p } (.accepted src tag))
          ∧ ∀ p, { put p with data := p.data, got := p.got } = p ∧ (put p).got = p.got + data.length
            ∧ ∀ i, (put p).data.getD i 0 = if off ≤ i ∧ i < off + data.length then data.getD (i - off) 0 else p.data.getD i 0)

/-- The response to a read is kept for its flight, and a store's acceptance ends its request. A request that is refused, or
has had no answer for 100 us, fails: an engine operation's write ends it in error with cause 0x15, or is lost to a PUTSIG's
slice; a store's lanes and address are noted as lost; a lane of a flight is marked as failed, or its reply discarded where
the lane, or for one uniform access every slice of it, has retired; a JOINW's slices trap. A flight all of whose lanes have
been sent and answered ends: where a lane has failed, each of its slices that waits traps by the lowest such lane, FABRIC or
LINKCUT, at its instruction and with nothing written; else the values go where the access resolved them at its issue, and
its slices go on. A slice that has waited 100 us for a route that is still absent traps LINKCUT, its pending call record is
DOUBLE, and a PINV's wait cuts the die. A JOINW on host memory reads again; pending writes go; the count of matrix passes
falls, and the earliest pass holds nothing any more; a gang ready for 4,096 cycles is promoted; an idle bank becomes drowsy
(that its interval goes on while an IDLE die's clock stands still is the model's choice, log 52); the power limit slows the
die (and nothing but a fundamental reset raises its clock again: log 52). What is not due changes nothing. -/
def Obligations.RepliesAndWhatFollowsIssue : Prop :=
  let awaits (s : State) (id : Nat) (r : Request) : Prop := s.requests.find? (fun x => x.id = id && x.waits) = some r
  let gone (s : State) (r : Request) : State := { s with requests := s.requests.filter fun x => x.id ≠ r.id }
  let kept (s : State) (r : Request) (data : List Byte) : State := { s with requests := s.requests.map fun x =>
    if x.id = r.id then { x with data := some ((data ++ List.replicate r.size 0).take r.size) } else x }
  let aboard (c : Crew) (fl : Flight) : List Nat :=
    slices8.filter fun i => mbit fl.mask i && c.sliceLive i && decide ((c.slice i).wait = .reply fl.group)
  let lapsed (c : Crew) (fl : Flight) (r : Request) : Prop :=
    if fl.uni = [] ∧ fl.eret = false then mbit c.live r.lane = false else aboard c fl = []
  let fails (s : State) (r : Request) (go : Host.Outcome State Fault Refusal) : Prop :=
    (∀ o, r.op = some o →
      (r.told = false → go = .next (gone s r))
      ∧ (r.told = true → (∃ x ∈ s.ops, x.id = o ∧ x.kind = .putsig) → go = .next { gone s r with
          ops := s.ops.map fun x => if x.id = o then { x with lost := x.lost ++ [(r.lane, 0x15)] } else x })
      ∧ (r.told = true → (∀ x ∈ s.ops, ¬(x.id = o ∧ x.kind = .putsig)) → go = .next { s with
          requests := s.requests.filter fun x => x.op ≠ some o
          ops := s.ops.map fun x => if x.id = o then { x with status := .failed 0x15 } else x }))
    ∧ ∀ c, r.op = none → aget s.crews r.crew = some c →
      (r.store = true → go = .next (State.setCrew (gone s r) r.crew { c with
          lost := c.lost ++ if r.told then (lanes32.filter fun l => mbit r.mask l).map fun l => (l, r.addr) else [] }))
      ∧ (r.store = false → c.flights.find? (fun fl => fl.group = r.group) = none →
          go = .next ((waitersOf c r).foldl (fun (u : State) i => u.trapWaiting r.crew i 0x15 r.addr) (gone s r)))
      ∧ ∀ fl, r.store = false → c.flights.find? (fun fl => fl.group = r.group) = some fl →
        (lapsed c fl r → go = .next (kept s r []))
        ∧ (¬lapsed c fl r → go = .next { s with
            requests := s.requests.map fun x => if x.id = r.id then { x with failed := some 0x15 } else x })
  (∀ (s : State) (id : Nat) (r : Request) (data : List Byte), awaits s id r →
      exec (.memoryReply id data true) s = .next (if r.store then gone s r else kept s r data)
      ∧ fails s r (exec (.memoryReply id data false) s)
      ∧ (r.since + 210000 ≤ s.time → fails s r (exec (.fabricTimeout id) s))
      ∧ (s.time < r.since + 210000 → exec (.fabricTimeout id) s = .next s))
    ∧ (∀ (s : State) (id : Nat) (data : List Byte) (ok : Bool), (∀ r, ¬awaits s id r) →
      exec (.memoryReply id data ok) s = .next s ∧ exec (.fabricTimeout id) s = .next s)
    ∧ (∀ (s : State) (k i code : Nat) (a : DWord) (c : Crew), aget s.crews k = some c → (c.slice i).group = none → ∃ c' x,
      s.trapWaiting k i code a = (s.setCrew k c').raise k i x
      ∧ (∀ j, c'.slice j = if j = i ∧ i < c.slices.length then { c.slice j with wait := .none } else c.slice j)
      ∧ { c' with slices := c.slices } = c ∧ x.code = BitVec.ofNat 8 code ∧ x.info = a ∧ x.addr = a ∧ x.retpc = (c.slice i).pc
      ∧ x.word = (c.slice i).word ∧ x.pfx = (c.slice i).pfx)
    ∧ (∀ (s : State) (k i : Nat),
      let c := s.crew k
      let go := exec (.routeTimeout k i) s
      let due (d since : Nat) : Prop := (c.slice i).group = none ∧ since + 210000 ≤ s.time ∧ s.hops (cacheDie (s.site c)) d = none
        ∧ (4 ≤ d ∨ (s.die d).inService = true)
      (∀ d a since, (c.slice i).wait = .route d a since →
        (due d since → (c.slice i).pend = none → go = .next (s.trapWaiting k i 0x14 a))
        ∧ (∀ x, due d since → (c.slice i).pend = some x → aget s.crews k = some c → ∃ c', go = .next ((s.setCrew k c').double k i x)
          ∧ (∀ j, c'.slice j = if j = i then { c.slice j with wait := .none, pend := none } else c.slice j)
          ∧ { c' with slices := c.slices } = c)
        ∧ (¬due d since → go = .next s))
      ∧ (∀ d since, (c.slice i).wait = .cut d since → (due d since → go = .next (s.fenceDie d)) ∧ (¬due d since → go = .next s))
      ∧ ((∀ d a since, (c.slice i).wait ≠ .route d a since) → (∀ d since, (c.slice i).wait ≠ .cut d since) → go = .next s))
    ∧ (∀ (s : State) (k i : Nat) (c : Crew), aget s.crews k = some c →
      (∀ a thr since, (c.slice i).wait = .join a thr since → exec (.joinwReread k i) s =
          .next (s.setCrew k { c with slices := lmod c.slices i fun x => { x with wait := .join a thr none } }))
      ∧ ((∀ a thr since, (c.slice i).wait ≠ .join a thr since) → exec (.joinwReread k i) s = .next s)
      ∧ (let ready (fl : Flight) : Prop := (∀ x ∈ s.requests, x.group = fl.group → x.waits = false)
            ∧ (∀ sl ∈ c.slices, sl.group ≠ some fl.group)
            ∧ (fl.drop = true → s.dropMoving (s.site c) c.tenant .whole = none);
          ((∀ fl ∈ c.flights, ¬ready fl) → exec (.pendingWriteComplete k) s = .next (s.setCrew k { c with pend := [] }))
          ∧ ∀ before fl after, c.flights = before ++ fl :: after → (∀ x ∈ before, ¬ready x) → ready fl →
            exec (.pendingWriteComplete k) s = .next ((s.landFlight k fl).modCrew k fun x => { x with pend := [] }))
      ∧ (c.cnt.matrix ≠ 0 → exec (.passRetire k) s = .next (s.setCrew k { c with
          cnt := { c.cnt with matrix := c.cnt.matrix - 1 }, passes := c.passes.drop 1 }))
      ∧ (c.cnt.matrix = 0 → exec (.passRetire k) s = .next (s.setCrew k c))
      ∧ (4096 ≤ (c.slice i).ready → exec (.promotion k i) s =
          .next (s.setCrew k { c with slices := lmod c.slices i fun x => { x with promoted := true } }))
      ∧ ((c.slice i).ready < 4096 → exec (.promotion k i) s = .next s))
    ∧ (∀ (s : State) (k code : Nat) (fl : Flight) (c : Crew) (r : Request), aget s.crews k = some c → r ∈ s.requests →
      r.group = fl.group → r.failed = some code → ¬lapsed c fl r →
      (∀ x ∈ s.requests, x.group = fl.group → x.failed ≠ none → ¬lapsed c fl x → x ≠ r → r.lane < x.lane) →
      ∃ c', s.landFlight k fl = State.raiseAll (State.setCrew
            { s with requests := s.requests.filter fun x => x.group ≠ fl.group } k c') k (aboard c fl)
          { code := BitVec.ofNat 8 code, info := r.addr, addr := r.addr, retpc := fl.pc, word := fl.word, pfx := fl.pfx }
        ∧ (∀ j, c'.slice j = if j ∈ aboard c fl then { c.slice j with pc := fl.pc, wait := .none } else c.slice j)
        ∧ c'.flights = c.flights.filter (fun x => x.group ≠ fl.group)
        ∧ { c' with flights := c.flights, slices := c.slices } = c)
    ∧ (∀ (s : State) (k : Nat) (fl : Flight) (c : Crew), aget s.crews k = some c →
      (∀ x ∈ s.requests, x.group = fl.group → x.failed ≠ none → lapsed c fl x) →
      let u := if fl.drop then s.dropRange (s.site c) c.tenant .whole else s
      let bytes (l : Nat) : List Byte :=
        ((s.requests.find? fun x => x.group = fl.group && (x.lane = l || l = 32)).bind (·.data)).getD []
      (fl.lanes.map (·.lane)).Nodup → (∀ x ∈ fl.lanes, x.lane < 32 ∧ x.regs.Nodup) → fl.uni.Nodup →
      (fl.offs.map fun x => (x.1, x.2.1)).Nodup → (∀ x ∈ fl.offs, x.2.1 < 32) →
      ∃ (v : State) (c' : Crew), v = State.setCrew { u with requests := s.requests.filter fun x => x.group ≠ fl.group } k c'
        ∧ (fl.eret = false → s.landFlight k fl = v)
        ∧ (∀ i rest, fl.eret = true → aboard c fl = i :: rest →
            s.landFlight k fl = (v.setCrew k (popRecord c' i (bytes 32))).deliverPending k)
        ∧ (∀ x ∈ fl.lanes, mbit c.live x.lane = true →
            (∀ j, j < x.regs.length → c'.vreg (x.regs.getD j 0) x.lane =
              (wordsOf (loadedValue fl.sz (bytes x.lane) 32) x.regs.length).getD j 0)
            ∧ ∀ n, x.code = some n → sget c'.atloc x.lane = BitVec.ofNat 4 n)
        ∧ (∀ n l, l < 32 → (∀ x ∈ fl.lanes, x.lane = l → mbit c.live l = true → n ∉ x.regs) → c'.vreg n l = c.vreg n l)
        ∧ (∀ l, (∀ x ∈ fl.lanes, x.lane = l → mbit c.live l = true → x.code = none) → sget c'.atloc l = sget c.atloc l)
        ∧ (∀ j, aboard c fl ≠ [] → j < fl.uni.length → c'.sreg (fl.uni.getD j 0) =
            BitVec.ofNat 64 (loadedValue fl.sz (bytes 32) 64 / 2 ^ (64 * j)))
        ∧ (∀ q, q ∉ fl.uni ∨ aboard c fl = [] → c'.sreg q = c.sreg q)
        ∧ (∀ x ∈ fl.offs, c'.ofs x.1 x.2.1 = x.2.2 % 512)
        ∧ (∀ n l, l < 32 → (∀ x ∈ fl.offs, (x.1, x.2.1) ≠ (n, l)) → c'.ofs n l = c.ofs n l)
        ∧ (∀ l, l < 32 → mbit c'.off l = (mbit c.off l || mbit fl.off l)) ∧ (∀ l, l < 32 → mbit c'.exec l = (mbit c.exec l && !mbit fl.off l))
        ∧ (∀ j, c'.slice j = if j ∈ aboard c fl then { c.slice j with wait := .none } else c.slice j)
        ∧ c'.flights = c.flights.filter (fun x => x.group ≠ fl.group)
        ∧ { c' with vregs := c.vregs, sregs := c.sregs, xofs := c.xofs, atloc := c.atloc, off := c.off, exec := c.exec
                    flights := c.flights, slices := c.slices } = c)
    ∧ (∀ (s : State) (d slice bank : Nat),
      let b := (d * 16 + slice) * 24 + bank
      let due := d < 4 ∧ slice < 16 ∧ bank < 24 ∧ (s.die d).inService = true ∧ b ∉ s.drowsy
        ∧ (sget s.bankUse b).toNat + 65536 ≤ s.clock
      (due → exec (.drowsy d slice bank) s = .next { s with drowsy := s.drowsy ++ [b] })
      ∧ (¬due → exec (.drowsy d slice bank) s = .next s))
    ∧ ∀ (s : State) (d : Nat), exec (.powerLimit d) s = .next { s with dies := lmod s.dies d fun x => { x with slowed := true } }

/-- REMAP_START takes the first request of the page that no hold and no PIN bit defers, with another free frame where its
own has been quarantined. It makes the page MOVING and records the run with its old placement and the sharers that it waits
for, once no other remap runs on the page, its frames are empty, not quarantined and not wanted by a remap that runs or was
asked for earlier, and the directory slice has a record for it or evicts one, whose sharers it invalidates first; a request
that the placement no longer allows, or that a hold of another party declines, only ends. Of its own the engine starts what
an eligible, unheld page, free frames that it may fill and no context in explicit mode allow. A sharer drops its entries at
the INVALIDATION, acknowledges with its die's incarnation, and its acknowledgement counts while that incarnation is current.
Once none is awaited, REMAP_COMPLETE moves the bytes as the goal says and settles the page: POISON where its master's die is
out of service, home where the goal's die is; the eviction of a record ends with the record free. CUT, after 100 us or of a
die out of service, stops waiting for the die's caches, quarantines the old frame, lapses the page's holds and fences the
die. A request at a MOVING page waits in its queue, or past 256 in the slice is refused. A settled page has its placement,
no run and no sharers; its waiters, slices and agents, go on in the order of their arrival. A refused request joins the
queue or goes on. What is not due changes nothing. (The model's choices: the engine leaves a page that no walk has reached,
log 12; which record is evicted, log 51; a page on its way to a die out of service goes home, log 38; the frame of a cut
page, home where none is free, log 49; a queued request that a hold stops is declined for a PLACE and deferred for an
eviction, log 72.) -/
def Obligations.RemapProtocol : Prop :=
  let put (s : State) (pfn : Nat) (r : PageRec) : State := { s with pages := aset s.pages pfn r }
  let moving (s : State) (r : PageRec) (g : RemapGoal) (far : Option (Nat × Nat)) (leafPa : Option Nat) : PageRec :=
    { r with
      place := { r.place with res := .moving }
      run := some { goal := g, old := r.place, far := far, wait := r.sharers, sent := r.sharers, since := s.time
                    leafPa := leafPa.orElse fun _ => r.mirror } }
  let replica (g : RemapGoal) : Prop := ∃ d c f, g = .replica d c f
  (∀ (s : State) (pfn : Nat),
      let r := s.page pfn
      let all : Nat → Bool := fun _ => true
      (s.nextReq pfn = none → exec (.remapStart pfn none) s = .next s)
      ∧ (∀ q, s.nextReq pfn = some q →
        let go := exec (.remapStart pfn none) s
        let q' := s.retarget pfn q
        let left : PageRec := { r with queue := r.queue.erase q }
        let starts : Prop := r.legal q'.goal = true ∧ s.declined pfn q' = false
        let free : Prop := ∀ a ∈ goalFrames pfn q'.goal q'.far, s.frameWaits q'.id a = false
        (r.run ≠ none → go = .next s)
        ∧ (r.run = none → ¬starts → go = .next (if left.queue = [] then (put s pfn left).replayWaiters pfn else put s pfn left))
        ∧ (r.run = none → starts → free → s.recordRoom pfn = true →
            go = .next (put (s.renote pfn q') pfn (moving s left q'.goal q'.far q'.leafPa)))
        ∧ (starts → ¬free → go = .next s)
        ∧ (r.run = none → starts → free → s.recordRoom pfn = false → go = .next (match s.recordVictim pfn with
            | some v => put s v { s.page v with run := some { goal := .home, old := (s.page v).place, wait := (s.page v).sharers
                                                              sent := (s.page v).sharers, since := s.time, frees := true } }
            | none => s)))
      ∧ (∀ q, (s.nextReq pfn = some q ↔ ∃ before after, r.queue = before ++ q :: after ∧ s.deferred pfn q = false
          ∧ ∀ x ∈ before, s.deferred pfn x = true)
        ∧ (s.deferred pfn q = true ↔ q.asker = .eviction ∧ r.legal q.goal = true
          ∧ (s.heldAgainst pfn q.goal all = true ∨ ∃ pa, r.mirror = some pa ∧ (BitVec.ofNat 64 (s.physNat pa 8)).getLsbD 5 = true))
        ∧ (s.declined pfn q = true ↔ ∃ p site, q.asker = .place p site ∧ s.heldAgainst pfn q.goal (fun x => some x != p) = true)
        ∧ (s.retarget pfn q).id = q.id
        ∧ ((∀ a ∈ goalFrames pfn q.goal q.far, s.barred a = false) → s.retarget pfn q = q)
        ∧ ∃ parties tenants, s.renote pfn q = { s with parties := parties, tenants := tenants })
      ∧ (∀ g far, r.run = none → r.queue = [] → r.legal g = true →
        (replica g ∧ r.place.res = .near → ∃ f, lowestFar pfn s.frameOpen = some f ∧ far = some (dirSlice pfn, f)) →
        (¬(replica g ∧ r.place.res = .near) → far = none) →
        s.movable pfn = true → s.heldAgainst pfn g all = false → s.engineFrame pfn g = true → s.recordRoom pfn = true →
        (∀ a ∈ goalFrames pfn g far, s.frameOpen a = true) →
        exec (.remapStart pfn (some g)) s = .next (put s pfn (moving s r g far none)))
      ∧ (∀ g, r.run ≠ none ∨ r.queue ≠ [] ∨ r.legal g = false ∨ s.movable pfn = false ∨ s.heldAgainst pfn g all = true
          ∨ s.engineFrame pfn g = false ∨ s.recordRoom pfn = false → exec (.remapStart pfn (some g)) s = .next s)
      ∧ (s.movable pfn = true ↔ (∃ pa, r.mirror = some pa ∧
          let lo : DWord := BitVec.ofNat 64 (s.physNat pa 8)
          lo.getLsbD 0 = true ∧ lo.extractLsb' 8 3 = 0 ∧ lo.getLsbD 5 = false ∧ (lo.extractLsb' 16 40).toNat = pfn)
            ∧ ∀ x ∈ s.tenants, x.2.expl = true → s.pageOf pfn x.1 = false)
      ∧ (∀ g other, (s.heldAgainst pfn g other = true ↔ ∃ x ∈ s.parties, pfn ∈ x.2.holds ∧ other x.1 = true
          ∧ (replica g → r.place.res = .near) ∧ ∀ d c, g = .dropReplica d c → x.2.die = d ∧ x.2.core = c))
      ∧ (∀ id a, s.frameWaits id a = false ↔ s.frameEmpty a = true ∧ s.barred a = false ∧ ∀ x ∈ s.pages,
          a ∉ cutMove x.1 x.2.run ∧ (∀ run, x.2.run = some run → a ∉ goalFrames x.1 run.goal run.far)
          ∧ ∀ q ∈ x.2.queue, q.id < id → a ∉ goalFrames x.1 q.goal q.far)
      ∧ ∀ w, s.joinQueue pfn w = put s pfn
          (if s.waitersIn pfn < 256 then { r with waiters := r.waiters ++ [w] } else { r with refused := r.refused ++ [w] }))
    ∧ (∀ (s : State) (pfn inc : Nat) (k : CacheId),
      let r := s.page pfn
      let now := s.die (cacheDie k)
      (r.run = none → exec (.invalidation pfn k) s = .next s ∧ exec (.acknowledge pfn k) s = .next s
        ∧ exec (.acknowledgeReceipt pfn k inc) s = .next s)
      ∧ ∀ run, r.run = some run →
        let set (s : State) (x : RemapRun) : State := put s pfn { r with run := some x }
        (k ∈ run.sent → ∃ t, exec (.invalidation pfn k) s = .next t
          ∧ (∀ c e, (c, e) ∈ t.caches ↔ (c, e) ∈ s.caches
              ∧ ¬(c = k ∧ e.leaf.pfn = pfn ∧ e.leaf.level = 0 ∧ e.leaf.mtype = .framed))
          ∧ t = set { s with caches := t.caches } { run with sent := run.sent.erase k, dropped := run.dropped ++ [k] })
        ∧ (k ∉ run.sent → exec (.invalidation pfn k) s = .next s)
        ∧ (k ∈ run.dropped → 4 ≤ cacheDie k ∨ now.inService = true → exec (.acknowledge pfn k) s =
            .next (set s { run with dropped := run.dropped.erase k, acks := run.acks ++ [(k, now.inc.toNat)] }))
        ∧ (k ∉ run.dropped ∨ (cacheDie k < 4 ∧ now.inService = false) → exec (.acknowledge pfn k) s = .next s)
        ∧ ((k, inc) ∈ run.acks → exec (.acknowledgeReceipt pfn k inc) s = .next (set s { run with
            acks := run.acks.erase (k, inc), wait := if now.inc.toNat = inc then run.wait.erase k else run.wait }))
        ∧ ((k, inc) ∉ run.acks → exec (.acknowledgeReceipt pfn k inc) s = .next s))
    ∧ (∀ (s : State) (pfn : Nat),
      let r := s.page pfn
      let go := exec (.remapComplete pfn) s
      (r.run = none → go = .next s)
      ∧ ∀ run, r.run = some run →
        let up (d : Nat) : Prop := (s.die d).inService = true
        let src := run.old.frameAddr 0
        let at_ (dst : Nat) : State × BitVec 16 := s.moveMaster pfn run.old dst
        let ready : Prop := run.wait = [] ∧ run.frees = false
        (run.wait ≠ [] → go = .next s)
        ∧ (run.wait = [] → run.frees = true →
            go = .next ((put s pfn { r with sharers := [], mirror := none, run := none }).replayWaiters pfn))
        ∧ (ready → src ≠ none → ¬up run.old.mdie →
            go = .next ((put s pfn { r with replicas := [] }).settlePage pfn { res := .poison }))
        ∧ (ready → (src ≠ none → up run.old.mdie) → (run.moved = none ∨ run.old.res = .near) →
          (∀ d c f, run.goal = .near d c f → up d →
            let m := at_ (sramAddr d c (f * 4096))
            go = .next (m.1.settlePage pfn (nearPlace d c f m.2)))
          ∧ (∀ d sl f, run.goal = .far d sl f → up d →
            let m := at_ (farAddr d sl f 0)
            go = .next (m.1.settlePage pfn (slicePlace .far d sl f m.2)))
          ∧ (∀ d c f sl ff, run.goal = .replica d c f → up d → run.old.res = .near → run.far = some (sl, ff) →
            let dst := farAddr (homeStack pfn) sl ff 0
            let m := at_ dst
            let u := if run.moved = none then m.1.addReplica pfn run.old.mdie run.old.munit run.old.mframe dst m.2 false else m.1
            go = .next ((u.addReplica pfn d c f dst m.2 true).settlePage pfn (slicePlace .shared (homeStack pfn) sl ff m.2)))
          ∧ (∀ d c f, run.goal = .replica d c f → up d → run.old.res ≠ .near →
            go = .next ((s.addReplica pfn d c f (masterAddr pfn run.old 0) (if src = none then 0xFFFF else run.old.sect) true).settlePage pfn { run.old with res := .shared }))
          ∧ (∀ d c, run.goal = .dropReplica d c →
            let u := s.removeReplicas pfn fun x => x.die = d && x.core = c
            go = .next (u.settlePage pfn
              (if (u.page pfn).replicas = [] then lastReplica (u.page pfn).held else (u.page pfn).held)))
          ∧ (run.goal = .home ∨ (∃ d x f, (run.goal = .near d x f ∨ run.goal = .far d x f ∨ run.goal = .replica d x f) ∧ ¬up d) →
            let u := s.removeReplicas pfn fun _ => true
            go = .next ((match (u.page pfn).held.frameAddr 0 with
              | some a => u.copySectors (homeAddr pfn 0) a (u.page pfn).written
              | none => u).settlePage pfn {})))
        ∧ (∀ sl f, ready → (src ≠ none → up run.old.mdie) → run.moved = some (sl, f) →
            (run.old.res = .far ∨ run.old.res = .shared) → up (homeStack pfn) →
            let m := at_ (farAddr (homeStack pfn) sl f 0)
            go = exec (.remapComplete pfn) (put m.1 pfn { m.1.page pfn with
              run := some { run with old := slicePlace run.old.res (homeStack pfn) sl f m.2, moved := none } })))
    ∧ (∀ (s : State) (pfn dst : Nat) (old : Placement),
      (∀ a, old.frameAddr 0 = some a → s.moveMaster pfn old dst = (s.copySectors dst a old.sect, old.sect))
      ∧ (old.frameAddr 0 = none → ∃ u, u = s.copySectors dst (homeAddr pfn 0) 0xFFFF
        ∧ s.moveMaster pfn old dst = (put u pfn { u.page pfn with written := 0 }, 0xFFFF)))
    ∧ (∀ (s : State) (pfn d c f src : Nat) (m : BitVec 16) (copy : Bool),
      ∃ u, u = (if copy then s.copySectors (sramAddr d c (f * 4096)) src m else s)
        ∧ s.addReplica pfn d c f src m copy = put u pfn { u.page pfn with
            replicas := (u.page pfn).replicas ++ [{ die := d, core := c, frame := f, present := m }] })
    ∧ (∀ (s : State) (dst src : Nat) (m : BitVec 16), dst + 4096 ≤ src ∨ src + 4096 ≤ dst → ∃ t, s.copySectors dst src m = t
      ∧ (∀ off, off < 4096 → sget t.mem (dst + off) = sget s.mem (if mbit m (off / 256) then src + off else dst + off))
      ∧ (∀ a, a < dst ∨ dst + 4096 ≤ a → sget t.mem a = sget s.mem a)
      ∧ { t with mem := s.mem, bankUse := s.bankUse, drowsy := s.drowsy } = s)
    ∧ (∀ (s : State) (pfn : Nat) (p : Placement),
      let leaf := match (s.page pfn).run with | some x => x.leafPa | none => (s.page pfn).mirror
      (∀ x ∈ s.crews, ∀ i, (x.2.slice i).pend = none) → (∀ x ∈ s.pages, x.2.drops = []) → (s.page pfn).waiters.Nodup →
      (∀ pa, leaf = some pa → pa / 4096 ≠ pfn ∧ (pa + 15) / 4096 ≠ pfn) →
      let t := s.settlePage pfn p
      t.page pfn = { s.page pfn with
          place := p, run := none, sharers := [], mirror := leaf, waiters := []
          written := if p.res = .home ∨ p.res = .poison then 0 else (s.page pfn).written }
        ∧ t.replays.map (·.2) = s.replays.map (·.2) ++ ((s.page pfn).waiters.filterMap fun w => match w with
            | .agent e => some e
            | .slice _ _ => none)
        ∧ ∃ order : Nat → Nat, (∀ a b, a ≤ b → order a ≤ order b) ∧ ∀ n,
          (∀ e, (s.page pfn).waiters[n]? = some (.agent e) → (order n, e) ∈ t.replays)
          ∧ ∀ k i, (s.page pfn).waiters[n]? = some (.slice k i) → ((s.crew k).slice i).wait = .moving pfn →
            ((t.crew k).slice i).wait = if ((s.crew k).slice i).held.isSome then .replay (order n) else .none)
    ∧ (∀ (s : State) (pa : Nat) (p : Placement), s.writeMirror none p = s ∧ ∃ lo : DWord,
      (lo.extractLsb' 11 3).toNat = p.res.code ∧ lo &&& ~~~0x3800 = BitVec.ofNat 64 (s.physNat pa 8) &&& ~~~0x3800
      ∧ s.writeMirror (some pa) p = s.physWrite 4 pa (leBytes lo.toNat 8 ++ leBytes p.high 8))
    ∧ (∀ (s : State) (pfn d : Nat),
      let r := s.page pfn
      (∀ run, r.run = some run → d < 4 → (∃ c ∈ run.wait, cacheDie c = d) →
        (s.die d).inService = false ∨ run.since + 210000 ≤ s.time →
        ∃ (g : RemapGoal) (u : State), exec (.cut pfn d) s = .next (u.fenceDie d)
          ∧ u = { put s pfn { r with run := some { run with
              wait := run.wait.filter fun c => cacheDie c ≠ d, sent := run.sent.filter fun c => cacheDie c ≠ d
              dropped := run.dropped.filter fun c => cacheDie c ≠ d, acks := run.acks.filter fun a => cacheDie a.1 ≠ d
              moved := s.cutFrame pfn run, goal := g } } with
              quarantine := s.quarantine ++ (match run.old.frameAddr 0 with | some a => [(d, a)] | none => [])
              parties := if run.old.frameAddr 0 = none then s.parties else s.parties.map fun (x : Nat × Party) =>
                (x.1, { x.2 with holds := x.2.holds.filter fun y => y != pfn }) }
          ∧ (g = run.goal ∨ (g = .home ∧ s.cutFrame pfn run = none)))
      ∧ ((∀ run, r.run = some run → 4 ≤ d ∨ (∀ c ∈ run.wait, cacheDie c ≠ d)
            ∨ ((s.die d).inService = true ∧ s.time < run.since + 210000)) → exec (.cut pfn d) s = .next s))
    ∧ (∀ (s : State) (d : Nat),
      let stays (w : Waiter) : Bool := match w with
        | .slice k _ => (match (s.crew k).partyId with | some p => (s.party p).die != d | none => true)
        | .agent _ => true
      (4 ≤ d ∨ (s.die d).inService = false → s.fenceDie d = s)
      ∧ (d < 4 → (s.die d).inService = true → (∀ x ∈ s.pages, homeStack x.1 = d → x.2.waiters = [] ∧ x.2.refused = []) →
        ∃ pages, s.fenceDie d = { s with
            dies := lmod s.dies d fun x => { x with inService := false, inc := x.inc + 1, fencedAt := some s.time, ckpt := false }
            ops := s.ops.filter fun o => o.die ≠ d
            requests := s.requests.filter fun x => ∀ p, (s.crew x.crew).partyId = some p → (s.party p).die ≠ d
            caches := s.caches.filter fun c => cacheDie c.1 ≠ d
            tables := s.tables.filter fun e => e.die ≠ d
            pages := pages } ∧ ∀ q, ({ s with pages := pages } : State).page q =
              { s.page q with waiters := (s.page q).waiters.filter stays, refused := (s.page q).refused.filter stays }))
    ∧ (∀ (s : State) (k i : Nat) (a : DWord),
      ((s.crew k).slice i).pend = none → ((s.crew k).slice i).addr = some a → s.cutWaiter k i = s.trapWaiting k i 0x14 a)
    ∧ ∀ (s : State) (pfn k i : Nat),
      let r := s.page pfn
      let w : Waiter := .slice k i
      let left : PageRec := { r with refused := r.refused.erase w }
      let go := exec (.requestResend pfn k i) s
      (w ∉ r.refused → go = .next s)
      ∧ (w ∈ r.refused → r.moving = false → go = .next ((put { s with nextId := s.nextId + 1 } pfn left).wake k i pfn s.nextId))
      ∧ (w ∈ r.refused → r.moving = true → s.waitersIn pfn < 256 → go = .next (put s pfn { left with waiters := r.waiters ++ [w] }))
      ∧ (w ∈ r.refused → r.moving = true → 256 ≤ s.waitersIn pfn → go = .next s)

/-- FUNDAMENTAL_RESET and HOST_LINK_LOSS each answer the state in which everything is as after reset but what lies outside
the module: host memory reads as before and every other byte reads as after reset, the stored firmware image, the fused
minimum and the LMS leaf counter are kept, and so are inputs that wait, messages sent and the model's counters (log 14 says
which are the model's choice). -/
def Obligations.ModuleReset : Prop :=
  ∀ s : State, ∃ t, exec .fundamentalReset s = .next t ∧ exec .hostLinkLoss s = .next t
    ∧ (∀ a, sget t.mem a = if hostBase ≤ a ∧ a < 2 ^ 53 then sget s.mem a else sget State.reset.mem a)
    ∧ t.boot = { State.reset.boot with stored := s.boot.stored, fusedMin := s.boot.fusedMin, lmsLeaf := s.boot.lmsLeaf }
    ∧ { t with mem := [], inputs := [], free := 0, nextId := 1, outbox := [], boot := State.reset.boot } = State.reset
    ∧ t.inputs = s.inputs ∧ t.outbox = s.outbox ∧ t.free = s.free ∧ t.nextId = s.nextId

/-- FIRMWARE_UPDATE with an image whose two signatures verify over its digest and whose security version is at least the
fused minimum answers the state whose only difference is that the one stored image is that image, so what runs is unchanged;
with any other image the state is unchanged. A fundamental reset keeps the stored image and stops what runs, so that the
next boot judges and measures the stored image. -/
def Obligations.FirmwareUpdate : Prop :=
  (∀ (s : State) (f : FwImage),
    let d := sha384 f.bytes
    let verifies : Prop :=
      Config.ecdsaVerifies d f.ecdsa = true ∧ Config.lmsVerifies d f.lms = true ∧ s.boot.fusedMin ≤ f.version
    (verifies → exec (.firmwareUpdate f) s = .next { s with boot := { s.boot with stored := f } })
      ∧ (¬verifies → exec (.firmwareUpdate f) s = .next s))
    ∧ (∀ s t : State, exec .fundamentalReset s = .next t → t.boot.stored = s.boot.stored ∧ t.boot.running = false)

/-- FIRMWARE_BOOT, when firmware does not run and the stored image verifies, answers a state in which it runs, measurement
register 0 holds SHA-384 of its old value and the image's digest, the ten circuits between the five dies stand, and every
thread that firmware starts has a crew; memory, parties, launches, tenants, pages and the crews there were are unchanged;
with an image that does not verify the state is unchanged. SPDM_MEASUREMENT below 2^20 signs with the leaf the counter holds
and advances it; at 2^20 it answers an error and signs nothing. (The model's choices: which threads start and at what level,
log 7; the byte order in which the old value and the digest are joined, log 10; the entries of the ten circuits, log 30;
SPDM is answered in any boot state, log 47.) -/
def Obligations.BootAndAttestation : Prop :=
  (∀ s : State, s.boot.running = false → s.verifies s.boot.stored = true →
    ∃ t, exec .firmwareBoot s = .next t
      ∧ t.boot.running = true ∧ t.boot.stored = s.boot.stored ∧ t.boot.lmsLeaf = s.boot.lmsLeaf
      ∧ (∀ m rest, s.boot.measure = m :: rest → t.boot.measure.head? =
          some (sha384 ((leBytes m.toNat 48).reverse ++ (leBytes (sha384 s.boot.stored.bytes).toNat 48).reverse)))
      ∧ t.routes.length = 10
      ∧ (∀ a b, a < 5 → b < 5 → a ≠ b → t.hops a b = some 1)
      ∧ (∀ n, n < 128 → n = 0 ∨ Config.threadRuns n = true → ∃ k c, aget t.crews k = some c
          ∧ c.place = .service (n / 8) (n % 8) ∧ c.live = 0xF ∧ c.exec = 0xF
          ∧ c.level = if n = 0 then .firmware else if Config.threadService n then .service else .user)
      ∧ (∀ k, k < s.nextId → aget t.crews k = aget s.crews k)
      ∧ t.mem = s.mem ∧ t.parties = s.parties ∧ t.launches = s.launches ∧ t.tenants = s.tenants ∧ t.pages = s.pages)
    ∧ (∀ s : State, s.boot.running = false → s.verifies s.boot.stored = false → exec .firmwareBoot s = .next s)
    ∧ (∀ (s : State) (req : List Byte), s.boot.lmsLeaf < 2 ^ 20 →
      ∃ t, exec (.spdmMeasurement req) s = .next t ∧ t.boot = { s.boot with lmsLeaf := s.boot.lmsLeaf + 1 }
        ∧ t.outbox = s.outbox ++ [.spdm (Config.spdmResponse req s.boot.measure s.boot.lmsLeaf)]
        ∧ { t with boot := s.boot, outbox := s.outbox } = s)
    ∧ (∀ (s : State) (req : List Byte), 2 ^ 20 ≤ s.boot.lmsLeaf →
      exec (.spdmMeasurement req) s = .next { s with outbox := s.outbox ++ [.spdmError] })

/-- HEARTBEAT_WRITE, when an interval of HBINT microseconds has passed on an unfenced host, writes the count plus 1 to the
eight bytes at HBADDR in host memory, counts an interval without HBREG, and changes no other byte. HBREG counts for the
current interval. HOST_FENCE sets HBFENCE once three intervals have passed without one. HBFENCE written 0 while the host is
fenced clears it and starts the intervals anew; written otherwise, or while the host is not fenced, it changes nothing. -/
def Obligations.HeartbeatsFenceTheHost : Prop :=
  (∀ s : State, s.boot.running = true → s.hostFenced = false →
    s.hbLast + (sget s.csr 0x11).toNat * 2100 ≤ s.time →
    let a := hostBase + (sget s.csr 0x10).toNat % 2 ^ 52
    ∃ t, exec .heartbeatWrite s = .next t ∧ t.hbCount = s.hbCount + 1 ∧ t.hbLast = s.time ∧ t.hbSeen = false
      ∧ t.hbMissed = (if s.hbSeen then 0 else s.hbMissed + 1)
      ∧ t.memRead a 8 = leBytes (s.hbCount + 1).toNat 8
      ∧ (∀ x, x < a ∨ a + 8 ≤ x → sget t.mem x = sget s.mem x)
      ∧ { t with hbCount := s.hbCount, hbLast := s.hbLast, hbSeen := s.hbSeen, hbMissed := s.hbMissed, mem := s.mem,
                 outbox := s.outbox } = s)
    ∧ (∀ (s : State) (v : DWord), exec (.hbreg v) s = .next { s with hbSeen := true })
    ∧ (∀ s : State, 3 ≤ s.hbMissed → ∃ t, exec .hostFence s = .next t ∧ t.hostFenced = true
        ∧ (∀ n, n ≠ 0x12 → sget t.csr n = sget s.csr n) ∧ { t with csr := s.csr } = s)
    ∧ (∀ s : State, s.hostFenced = true → ∃ t, exec (.hbfence 0) s = .next t ∧ t.hostFenced = false
        ∧ (∀ n, n ≠ 0x12 → sget t.csr n = sget s.csr n) ∧ t.hbMissed = 0 ∧ t.hbLast = s.time
        ∧ t.crews = s.crews ∧ t.parties = s.parties ∧ t.launches = s.launches)
    ∧ (∀ (s : State) (v : DWord), v ≠ 0 ∨ s.hostFenced = false → exec (.hbfence v) s = .next s)

/-- TILE_POST moves what is left of the operation's next tile, element after element; its signal is posted, over the tile's
own destination range, once no write of the operation is unaccepted, and each slice of a PUTSIG posts once its own writes
have been made and accepted, one by one. Where an element waits for another device its request is sent, without a route the
time is noted, and at a MOVING page the step joins the page's queue. ENGINE_FAULT stops the operation with a fault record on
PAGE, and else ends it in error with the fault's code, or of a PUTSIG takes the post of the slice whose write it was.
ENGINE_RETIRE removes it, lowers its counter, and leaves its destination to observe and its error to report; a collective's
group turns to the next. COLLECTIVE_RUN reads this module's contribution, keeps it and sends it to every other member that
the group's list names, in pieces of at most 256 bytes whose acceptance it awaits, or ends the operation with the fault's
code, and after 100 us without a route with 0x14; once it is sent, a disagreement ends it with cause 0x15. An element of a
COPY goes from and to the sum of index times stride, dimension 0 fastest; a row's index is read once, a GATHER row whose
index is out of range is zero, and a SCATTER row is then skipped; a collective's element is a member's, or the reduction in
rank order. (The model's choices: the order of a reduction, log 27; the slices of a PUTSIG that go on after one of them has
lost a write, log 71.) -/
def Obligations.EngineProgress : Prop :=
  let op (s : State) (id : Nat) : Option EngineOp := s.ops.find? fun o => o.id = id
  (∀ (s : State) (id : Nat) (i : Instr) (what : OpNext),
      (i, what) ∈ [(Instr.tilePost id, OpNext.tile), (.engineRetire id, .retire), (.engineFault id, .fault)] →
      (∀ o, op s id = some o → s.opNext o ≠ what) → exec i s = .next s)
    ∧ (∀ (s : State) (id : Nat) (o : EngineOp), op s id = some o → s.opNext o = .tile →
      let go := exec (.tilePost id) s
      (s.postDue o = true → go = .next (s.postTile o))
      ∧ ∀ u e x, s.postDue o = false → s.moveTile o = (u, e, x) →
        (x = none →
          let v := u.modOp id fun y => { y with elems := e, tiles := y.tiles + 1, stall := none }
          ∀ o', op v id = some o' → go = .next (v.postTile o'))
        ∧ (∀ d, x = some (.noRoute d) → go = .next (u.modOp id fun y => { y with elems := e, stall := some (d, u.time) }))
        ∧ (∀ pfn, x = some (.moving pfn) → go = .next ((u.modOp id fun y => { y with elems := e, stall := none }).joinQueue pfn
            (.agent (.tilePost id))))
        ∧ ∀ lane va ep page off n k, x = some (.await lane va (some (.stodorRead ep page off n k))) →
          go = .next ((u.modOp id fun y => { y with elems := e, stall := none }).engRequest o lane va n false (.stodorRead ep page off n)))
    ∧ (∀ (s : State) (o : EngineOp),
      let open_ (i : Nat) : Prop := ∃ r ∈ s.requests, r.op = some o.id ∧ r.told = true ∧ r.waits = true ∧ r.lane = i
      let due (i : Nat) : Prop := (∃ x ∈ o.writes, x.slice = i) ∧ (∀ x ∈ o.writes.drop o.elems, x.slice ≠ i) ∧ i ∉ o.posted
        ∧ (∀ y ∈ o.lost, y.1 ≠ i) ∧ ¬open_ i
      let post (u : State) (a : Nat) (r : GRange) : State := u.post o.tenant a 1 r o.crew (some o.id)
      (o.kind ≠ .putsig → (s.postDue o = true ↔ o.posts < o.tiles ∧ ∀ i, ¬open_ i))
      ∧ (o.kind = .putsig → (∀ i, i ∈ s.postSlices o ↔ i < 8 ∧ due i)
        ∧ (s.postDue o = true ↔ ∃ i, i < 8 ∧ due i))
      ∧ (s.postDue o = false → s.postTile o = s)
      ∧ (s.postDue o = true → o.kind ≠ .putsig →
        (o.signal = none → s.postTile o = s.modOp o.id fun y => { y with posts := y.tiles })
        ∧ ∀ a, o.signal = some a → s.postTile o = (post s a (s.tileRange o o.posts)).modOp o.id fun y => { y with posts := y.posts + 1 })
      ∧ (s.postDue o = true → o.kind = .putsig →
        s.postTile o = ((s.postSlices o).foldl (fun (u : State) i =>
            post u (o.word64 1) (writesSpan 0 (o.writes.filter fun x => x.slice = i))) s).modOp o.id fun y =>
          { y with posted := y.posted ++ s.postSlices o }))
    ∧ (∀ (s : State) (o : EngineOp) (n e : Nat),
      (s.moveTile o = moveElems s o (min (s.opShape o).1 ((o.tiles + 1) * (s.opShape o).2) - o.elems) o.elems)
      ∧ moveElems s o 0 e = (s, e, none)
      ∧ (∀ x, op s o.id = some x →
        (∀ w, s.opPrep x e = .error w → moveElems s o (n + 1) e = (s, e, some w))
        ∧ ∀ p x', s.opPrep x e = .ok p → op p o.id = some x' →
          (∀ u, p.opElem x' e = .ok u → moveElems s o (n + 1) e = moveElems u o n (e + 1))
          ∧ ∀ w, p.opElem x' e = .error w → moveElems s o (n + 1) e = (p, e, some w))
      ∧ ((o.kind = .copy ∨ o.kind = .coll ∨ o.kind = .mstore ∨ o.kind = .putsig) → s.opPrep o e = .ok s)
      ∧ (∀ u j, (o.kind = .gather ∨ ∃ k, o.kind = .scatter k) →
        s.rowIndex o (e / max 1 (natBits (o.word64 4) 31 0 / 4)) (2 * e) = .ok (u, j) → s.opPrep o e = .ok u))
    ∧ (∀ (s u v : State) (o : EngineOp) (e : Nat) (bs : List Byte), o.kind = .copy →
      let w := o.word64
      let n : Nat := 2 ^ natBits (w 5) 38 36
      let d := copyDist w (natBits (w 5) 35 32) e
      s.engRead o (engLoc (natBits (w 5) 45 44) (w 0) ((n : Int) * d.1)) n e = .ok (u, bs) →
      u.engWrite o (engLoc (natBits (w 5) 47 46) (w 1) ((n : Int) * d.2)) bs e = .ok v → s.opElem o e = .ok v)
    ∧ (∀ (w : Nat → Nat) (ix : List Nat), (∀ x ∈ ix.zipIdx, x.1 < copyExt w x.2) →
      copyDist w ix.length (ix.zipIdx.foldr (fun x acc => x.1 + copyExt w x.2 * acc) 0)
        = ((ix.zipIdx.map fun x => (x.1 : Int) * copySstr w x.2).sum, (ix.zipIdx.map fun x => (x.1 : Int) * copyDstr w x.2).sum))
    ∧ (∀ (s u : State) (o : EngineOp) (e idx : Nat),
      let w := o.word64
      let words := natBits (w 4) 31 0 / 4
      let j := e / max 1 words
      let off := 4 * (e % max 1 words)
      let row := engLoc (natBits (w 6) 51 50) (w 1) ((j * natBits (w 6) 31 0 + off : Nat))
      let table (n : Nat) : EngLoc := .mem ((w 0 + idx * w 5 + off + n) % 2 ^ 64)
      let here := idx < natBits (w 7) 31 0
      (o.row = some (j, idx) → s.rowIndex o j (2 * e) = .ok (s, idx))
      ∧ (∀ ix, (∀ x, o.row ≠ some (j, x)) → s.engRead o (engLoc (natBits (w 6) 49 48) (w 3) (4 * j : Nat)) 4 (2 * e) = .ok (u, ix) →
        s.rowIndex o j (2 * e) = .ok (u.modOp o.id fun y => { y with row := some (j, leNat ix) }, leNat ix))
      ∧ (s.rowIndex o j (2 * e) = .ok (u, idx) →
        (o.kind = .gather →
          (¬here → s.opElem o e = u.engWrite o row [0, 0, 0, 0] (2 * e))
          ∧ ∀ v bs, here → u.engRead o (table 0) 4 (2 * e + 1) = .ok (v, bs) → s.opElem o e = v.engWrite o row bs (2 * e))
        ∧ ∀ k, o.kind = .scatter k →
          (¬here → s.opElem o e = .ok u)
          ∧ ∀ v bs, here → u.engRead o row 4 (2 * e + 1) = .ok (v, bs) →
            (k = 0 → s.opElem o e = v.engWrite o (table 0) bs (2 * e))
            ∧ (k = 1 → s.opElem o e = v.engAdd o (table 0) .f32 bs (2 * e))
            ∧ ∀ z, 2 ≤ k → v.engAdd o (table 0) .bf16 (bs.take 2) (2 * e) = .ok z →
              s.opElem o e = z.engAdd o (table 2) .bf16 (bs.drop 2) (2 * e)))
    ∧ (∀ (s : State) (o : EngineOp) (x : LaneWrite) (e : Nat), o.writes[e]? = some x →
      (o.kind = .putsig →
        ((∀ y ∈ o.lost, y.1 ≠ x.slice) → s.opElem o e = s.engWrite o (.mem x.addr.toNat) x.data x.slice)
        ∧ ((∃ y ∈ o.lost, y.1 = x.slice) → s.opElem o e = .ok s))
      ∧ (o.kind = .mstore → s.hops o.die 4 = none → s.opElem o e = .error (.noRoute 4))
      ∧ (o.kind = .mstore → s.hops o.die 4 ≠ none →
        let u := { s with met := none }.windowWrite o.group x.addr.toNat o.die x.data
        (∀ pfn, u.met = some (.moving pfn) → s.opElem o e = .error (.moving pfn))
        ∧ (∀ d, u.met = some (.noRoute d) → s.opElem o e = .error (.noRoute d))
        ∧ (u.met = none → s.opElem o e = .ok (u.engRequest o x.slice x.addr.toNat x.data.length true (.mwrite o.group x.addr.toNat x.data)))))
    ∧ (∀ (s : State) (o : EngineOp) (l : EngLoc) (n lane : Nat) (bs : List Byte) (tgt : Tgt), tgt.remote = false →
      (s.engTgt o l n .read = .ok tgt → s.engRead o l n lane = .ok ((s.engTouch o l false).readTgt .io tgt n true))
      ∧ (s.engTgt o l bs.length .write = .ok tgt → s.engWrite o l bs lane = .ok (match tgt with
          | .paged pfn _ off _ => (s.engTouch o l true).masterWrite o.die pfn off bs
          | _ => (s.engTouch o l true).writeTgt .io tgt bs true)))
    ∧ (∀ (s : State) (id : Nat) (o : EngineOp) (c : Crew), op s id = some o → s.opNext o = .retire → aget s.crews o.crew = some c →
      ∃ t, exec (.engineRetire id) s = .next t
        ∧ t = State.setCrew { s with ops := t.ops, requests := t.requests, groupRun := t.groupRun, parts := t.parts } o.crew
          { c with
            cnt := c.cnt.lower o.cls
            unobserved := c.unobserved ++ [(o.cls, o.dst)]
            failed := match o.status with | .failed x => c.failed ++ [(o.cls, x)] | _ => (match o.lost with | x :: _ => c.failed ++ [(o.cls, x.2)] | [] => c.failed) }
        ∧ t.ops = (s.ops.filter fun x => x.id ≠ id) ∧ t.requests = (s.requests.filter fun r => r.op ≠ some id)
        ∧ (o.kind ≠ .coll → t.groupRun = s.groupRun ∧ t.parts = s.parts)
        ∧ (o.kind = .coll → t.parts = (s.parts.filter fun p => ¬(p.group = o.group ∧ p.seq = o.seq))
          ∧ sget t.groupRun o.group = BitVec.ofNat 32 (max (o.seq + 1) (sget s.groupRun o.group).toNat)
          ∧ ∀ g, g ≠ o.group → sget t.groupRun g = sget s.groupRun g))
    ∧ (∀ (s u : State) (id e : Nat) (o : EngineOp) (x : EngFail), op s id = some o → s.opNext o = .fault → s.moveTile o = (u, e, some x) →
      let stopped (va : Nat) : State := (u.agentFail o.tenant va).modOp id fun y => { y with elems := e, status := .stopped, stall := none }
      let ends (c : BitVec 8) : State := u.modOp id fun y =>
        match y.kind, y.writes[e]? with
        | .putsig, some z => { y with elems := e, status := .running, stall := none, lost := y.lost ++ [(z.slice, c)] }
        | _, _ => { y with elems := e, status := .failed c, stall := none }
      let go := exec (.engineFault id) s
      (∀ va write, x = .page va write → go = .next ((stopped va).appendFault o.tenant
          { target := .engine id, words := (stopped va).opFaultWords o va write }))
      ∧ (∀ c, x = .code c → go = .next (ends c)) ∧ (∀ d, x = .noRoute d → go = .next (ends 0x14)))
    ∧ (∀ (s : State) (g : Nat),
      ((∀ o ∈ s.ops, o.group = g → s.collDue o = false) → exec (.collectiveRun g) s = .next s)
      ∧ ∀ o, s.collTurn g = some o → s.collDue o = true →
        let fails (c : BitVec 8) : State := s.modOp o.id fun y => { y with status := .failed c }
        let gather := collGather s o (collSize (natBits (o.word64 0) 7 5)) (collSource (s.members g) (s.rank g) o.word64) 0
        let take := s.collTake o
        let go := exec (.collectiveRun g) s
        (s.collUnsent o = false → s.collDisagree o = true → go = .next (fails 0x15))
        ∧ (∀ w, gather = .error w → take = .error w)
        ∧ (∀ u data, gather = .ok (u, data) → take = if s.hops o.die 4 = none then .error (.noRoute 4) else .ok (u, data))
        ∧ (s.collUnsent o = true →
          (∀ u data, take = .ok (u, data) → go = .next (u.sendPart o data))
          ∧ (∀ c, take = .error (.code c) → go = .next (fails c))
          ∧ (∀ d, take = .error (.noRoute d) → (∀ y ∈ s.ops, y.id = o.id → y = o) →
            (s.stallOver o d = true → go = .next (fails 0x14))
            ∧ ((∀ t, o.stall ≠ some (d, t)) → go = .next (s.modOp o.id fun y => { y with stall := some (d, s.time) })))
          ∧ (∀ pfn, take = .error (.moving pfn) →
            go = .next ((s.modOp o.id fun y => { y with stall := none }).joinQueue pfn (.agent (.collectiveRun g))))
          ∧ ∀ va write, take = .error (.page va write) →
            let u : State := (s.agentFail o.tenant va).modOp o.id fun y => { y with elems := o.elems, status := .stopped, stall := none }
            go = .next (u.appendFault o.tenant { target := .engine o.id, words := u.opFaultWords o va write })))
    ∧ (∀ (s : State) (o : EngineOp) (d : Nat), (s.stallOver o d = true ↔ ∃ t, o.stall = some (d, t) ∧ t + 210000 ≤ s.time)
      ∧ (∀ x, x ∈ s.otherMembers o.group ↔ ∃ r, r < s.members o.group ∧ r ≠ s.rank o.group ∧ x = s.groupWord o.group 3 + 2 * r))
    ∧ (∀ (s : State) (o : EngineOp) (data : List Byte), s.sendPart o data =
      (s.otherMembers o.group).foldl (fun (u : State) at_ =>
          (cdataPieces data).foldl (fun (v : State) x =>
            v.engRequest o x.1 0 x.2.length true (.cdata (u.physNat at_ 2) o.group o.seq (s.rank o.group) x.1 o.desc x.2)) (u.usePhys at_))
        (({ s with parts := s.parts ++ [{ group := o.group, seq := o.seq, rank := s.rank o.group, desc := o.desc, data := data
                                          got := data.length }] } : State).modOp o.id fun y => { y with stall := none }))
    ∧ (∀ data : List Byte, ((cdataPieces data).map (·.2)).flatten = data
      ∧ (∀ x ∈ cdataPieces data, x.2.length ≤ 256 ∧ x.2 = (data.drop x.1).take 256) ∧ (data = [] → cdataPieces data = [(0, [])]))
    ∧ ∀ (s : State) (o : EngineOp) (ps : Nat → CollPart) (i : Nat),
      (∀ r, r < max (s.members o.group) (natBits (o.word64 3) 47 32 + 1) →
        (s.partsOf o.group o.seq).find? (fun p => p.rank = r) = some (ps r)) →
      let size := collSize (natBits (o.word64 0) 7 5)
      let count := natBits (o.word64 0) 63 32
      let kind := natBits (o.word64 0) 2 0
      let red (j : Nat) : Nat := ((List.range (s.members o.group)).tail.map fun r => (ps r).elem size j).foldl
        (atomNew (natBits (o.word64 0) 4 3) (collTy (natBits (o.word64 0) 7 5))) ((ps 0).elem size j)
      (kind = 0 → i < s.members o.group * count → s.collResult o i = (ps (i / count)).elem size (i % count))
      ∧ (kind = 1 → 0 < s.members o.group → s.collResult o i = red (s.rank o.group * count + i))
      ∧ (kind = 2 → 0 < s.members o.group → s.collResult o i = red i)
      ∧ (kind = 3 → s.collResult o i = (ps (natBits (o.word64 3) 47 32)).elem size i)

/-- PARTY_PLACE enters the next parties of a launch, once the frames they take are empty and no page of their cores'
replicas is MOVING, on cores that fit them: each crew has its registers zero but for the eight arguments, every lane live
and active, and its slices at the entry. PARTY_RETIRE, when every crew has ended and nothing is under way, releases the
core's dirty bytes, writes the completion and join words (or waits where one of them meets a MOVING page, a die without a
route, or a record that it cannot drain), frees what the party holds and completes its launch with the last party. PREEMPT
stops the parties of the outing, or of the cooperative grid; the launch unit itself chooses one of the lowest priority below
a waiting launch of the same tenant (log 59). PARTY_SAVE, once every party told to stop with it has drained, keeps its
restart where every crew is in an idempotent region, retired or not yet started, with the tiles taken in regions going back,
and else writes its area. PREEMPT_TIMEOUT halts the context with PREEMPT_TIMEOUT. PARTY_RESTORE puts the saved group back on
cores once all of it is saved, or refuses an area out of range; only parked slices issue their instruction again (and a
slice whose trap's record waited at a MOVING page or for a route takes its trap again); what an instruction under way has
read is kept (log 37). Where a row's condition does not hold, nothing changes. -/
def Obligations.PartyLife : Prop :=
  let freed (s : State) (p : Nat) (st : PartyStatus) (t : State) : Prop :=
    (∀ x, x ∈ t.crews ↔ x ∈ s.crews ∧ x.2.partyId ≠ some p)
    ∧ (∀ q, aget s.parties p = some q → aget t.parties p = some { q with
        status := st, crews := [], holds := [], nearFrames := [], nearPlaced := [] })
    ∧ (∀ k, k ≠ p → aget t.parties k = aget s.parties k)
    ∧ (∀ a, sget t.mem a = if scratchAddr p 0 ≤ a ∧ a < scratchAddr p 0 + 2 ^ 24 then 0 else sget s.mem a)
    ∧ { t with crews := s.crews, parties := s.parties, mem := s.mem, requests := s.requests, launches := s.launches } = s
  (∀ (s : State) (l o : Nat) (cores : List Nat),
      let la := s.launchRec l
      let first := la.nextOuting * la.perOuting
      let n := if la.coop then la.outings else 1
      let fits := s.placing la = true ∧ cores.length = la.nextCount ∧ (∀ x ∈ cores, s.coreMoving x = false)
        ∧ octantsOk (s.tenant la.tenant) (cores.zipIdx.map fun x => (x.2 / la.perOuting, x.1)) = true
      (o ≠ la.nextOuting ∨ ¬fits ∨ seatAll l cores first { s := s } = none → exec (.partyPlace l o cores) s = .next s)
      ∧ ∀ x, o = la.nextOuting → fits → seatAll l cores first { s := s } = some x →
        (s.stillFull x.empty ≠ [] → exec (.partyPlace l o cores) s =
          .next ((s.stillFull x.empty).foldl (fun (u : State) f => u.evictFrame f.1 f.2.1 f.2.2) s))
        ∧ (s.stillFull x.empty = [] →
          let t := (x.s.enterOutings l la.nextOuting n).modLaunch l fun y => { y with nextOuting := y.nextOuting + n }
          exec (.partyPlace l o cores) s = .next ((t.parties.filter fun q => q.2.launch = l && first ≤ q.2.index).foldl
            (fun (u : State) q => u.openParty q.1) t)))
    ∧ (∀ (l core index : Nat) (rest : List Nat) (x : Seating),
      let res := (x.s.launchRec l).res.toNat
      let plan := x.s.planCore (core / 32) (core % 32) res (resNear res)
      seatAll l [] index x = some x
      ∧ (plan = none → seatAll l (core :: rest) index x = none)
      ∧ ∀ y, plan = some y → ∃ e, seatAll l (core :: rest) index x = seatAll l rest (index + 1)
          { s := x.s.enterParty l index core y, empty := e, placed := x.placed ++ [core] })
    ∧ (∀ (s : State) (l index core : Nat) (plan : Plan),
      let la := s.launchRec l
      let n := natBits la.res.toNat 5 0
      let p := s.nextId
      let t := s.enterParty l index core plan
      (t.party p).launch = l ∧ (t.party p).index = index ∧ (t.party p).outing = index / la.perOuting
      ∧ (t.party p).member = index % la.perOuting ∧ (t.party p).die = core / 32 ∧ (t.party p).core = core % 32
      ∧ (t.party p).crews = (List.range n).map (p + 1 + ·) ∧ (t.party p).status = .resident ∧ (t.party p).sigs = []
      ∧ t.nextId = s.nextId + 1 + n ∧ t.mem = s.mem
      ∧ (∀ k, (k < p ∨ p + n < k) → aget t.crews k = aget s.crews k)
      ∧ ∀ i, i < n → ∃ slot c, aget t.crews (p + 1 + i) = some c ∧ i % 8 * 32 ≤ slot ∧ slot < i % 8 * 32 + 32
        ∧ (∀ r, c.sreg r = if r < 8 then la.args.getD r 0 else 0)
        ∧ c = { place := .compute p i slot, tenant := la.tenant, g := 8 * natBits la.res.toNat 16 10
                k := natBits la.res.toNat 20 17, prio := la.prio, pool := natBit la.res.toNat 54
                live := 0xFFFFFFFF, exec := 0xFFFFFFFF, ten := (s.tenant la.tenant).ten, sregs := c.sregs
                slices := List.replicate 8 { pc := la.entry &&& ~~~3 } })
    ∧ (∀ (s : State) (p : Nat),
      let q := s.party p
      let may := (q.status = .resident ∨ ∃ n, q.status = .stopping n) ∧ q.crews ≠ [] ∧ (s.die q.die).inService = true
        ∧ (∀ x ∈ s.crews, x.2.partyId = some p → x.2.live = 0) ∧ s.quiet p = true
      let u : State := (((State.drain { s with met := none } p).retireWords p).freeParty p .retired).modLaunch q.launch fun la =>
        { la with retired := la.retired + 1 }
      let t := (u.partyRetired p).finishLaunch q.launch
      (may → (t.met = none → exec (.partyRetire p) s = .next t)
        ∧ (∀ q, t.met = some (.moving q) → exec (.partyRetire p) s = .next (s.joinQueue q (.agent (.partyRetire p))))
        ∧ (∀ d, t.met = some (.noRoute d) → exec (.partyRetire p) s = .next { s with stalled := s.stalled ++ [(d, .partyRetire p)] })
        ∧ ∀ g, t.met = some (.away g) → exec (.partyRetire p) s = .next (s.markAway g))
      ∧ (¬may → exec (.partyRetire p) s = .next s))
    ∧ (∀ (s : State) (p : Nat) (st : PartyStatus), freed s p st (s.freeParty p st))
    ∧ (∀ (s : State) (p : Nat), ∃ t, exec (.preempt p) s = .next t ∧ { t with parties := s.parties } = s
      ∧ ((s.party p).status ≠ .resident → t = s)
      ∧ ((s.party p).status = .resident → t.parties = s.parties.map fun x =>
          (x.1, if x.1 ∈ s.group p then { x.2 with status := .stopping s.time } else x.2))
      ∧ ∀ k, k ∈ s.group p ↔ ∃ x, (k, x) ∈ s.parties ∧ x.launch = (s.party p).launch ∧ x.status = .resident
          ∧ ((s.launchRec (s.party p).launch).coop = true ∨ x.outing = (s.party p).outing))
    ∧ (∀ (s : State) (p : Nat),
      let q := s.party p
      let told (x : Nat × Party) : Prop := x ∈ s.parties ∧ x.2.launch = q.launch ∧ (∃ n, x.2.status = .stopping n)
        ∧ ((s.launchRec q.launch).coop = true ∨ x.2.outing = q.outing)
      let may := (∃ n, q.status = .stopping n)
        ∧ ∀ x, told x → (s.die x.2.die).inService = true ∧ s.quiet x.1 = true ∧ s.retirable x.1 = false
      let u := (s.drain p).dropFaults p
      let ids := (u.party p).crews
      let crews := ids.map u.crew
      let restart := (u.die (u.party p).die).ckpt = false
        ∧ ∀ x ∈ u.crews, x.2.partyId = some p → x.2.idem ≠ none ∨ x.2.live = 0 ∨ x.2.started = false
      (¬may → exec (.partySave p) s = .next s)
      ∧ (may → restart → ∃ v : State, exec (.partySave p) s = .next ((v.freeParty p (.saved 0)).modParty p fun x =>
          { x with crews := ids, restart := crews.map restartOf, saved := crews.map keptCrew, toward := [] })
        ∧ v = u.modLaunch (u.party p).launch fun la =>
          { la with walks := (crews.filter fun c => c.live ≠ 0).foldl (fun w c => giveBack c w) la.walks })
      ∧ (may → ¬restart → exec (.partySave p) s =
          .next (((State.writeArea { u with nextId := u.nextId + 1 } p u.nextId).freeParty p (.saved u.nextId)).modParty p fun x =>
            { x with crews := ids, restart := [], saved := crews })))
    ∧ (∀ (c : Crew) (walks : List Walk) (i : Nat), i < walks.length →
      (c.idem = none → giveBack c walks = walks)
      ∧ ∀ x w, c.idem = some x → walks[i]? = some w → (giveBack c walks)[i]? = some { w with
          returned := w.returned ++ (x.took.filter fun y => y.1 = i).map (·.2) })
    ∧ (∀ (s : State) (l : Nat) (la : Launch) (p : Nat), s.victim l la = some p → ∃ q, (p, q) ∈ s.parties ∧ q.status = .resident
      ∧ (s.launchRec q.launch).tenant = la.tenant ∧ (s.launchRec q.launch).prio < la.prio
      ∧ s.placing la = true ∧ s.coresFor l = none
      ∧ ∀ x ∈ s.parties, (s.launchRec x.2.launch).tenant = la.tenant → (s.launchRec x.2.launch).prio < la.prio →
          (∀ n, x.2.status ≠ .stopping n)
          ∧ (x.2.status = .resident → (s.launchRec q.launch).prio ≤ (s.launchRec x.2.launch).prio))
    ∧ (∀ (s : State) (b : Nat) (l : List AreaField), l.Pairwise (fun f g => f.1 + f.2.1 ≤ g.1 ∨ g.1 + g.2.1 ≤ f.1) →
      (∀ f ∈ l, (s.putFields b l).memRead (b + f.1) f.2.1 = leBytes f.2.2 f.2.1)
      ∧ (∀ a, (∀ f ∈ l, a < b + f.1 ∨ b + f.1 + f.2.1 ≤ a) → sget (s.putFields b l).mem a = sget s.mem a))
    ∧ (∀ (c : Crew) (i r : Nat),
      (i < 8 → (8 * i, 8, (c.slice i).pc.toNat) ∈ crewFixed c ∧ (0x040 + 8 * i, 8, (c.slice i).link.toNat) ∈ crewFixed c)
      ∧ (r < 128 → (0x540 + 8 * r, 8, (c.sreg r).toNat) ∈ crewFixed c)
      ∧ (i < 16 → (0x940 + 4 * i, 4, (c.pred i).toNat) ∈ crewFixed c)
      ∧ (0x980, 4, c.exec.toNat) ∈ crewFixed c ∧ (0x984, 4, c.live.toNat) ∈ crewFixed c ∧ (0x118, 8, c.hstk.toNat) ∈ crewFixed c
      ∧ (0x108, 8, c.flags.toNat + c.ten.toNat * 2 ^ 8) ∈ crewFixed c
      ∧ (r < c.g → i < 32 → (0x988 + 4 * (32 * r + i), 4, (c.vreg r i).toNat) ∈ crewFiles c))
    ∧ (∀ (s : State) (p : Nat),
      let q := s.party p
      (∀ n, q.status = .stopping n → n + 2100000 ≤ s.time → s.quiet p = false → (s.die q.die).inService = true →
        exec (.preemptTimeout p) s = .next (s.haltTenant (s.launchRec q.launch).tenant 0x16 4 0 0))
      ∧ ((∀ n, q.status = .stopping n → s.time < n + 2100000 ∨ s.quiet p = true ∨ (s.die q.die).inService = false) →
        exec (.preemptTimeout p) s = .next s))
    ∧ ∀ (s : State) (p : Nat) (cores : List Nat),
      let la := s.launchRec (s.party p).launch
      let group := s.savedGroup p
      let fits := (s.party p).isSaved = true ∧ cores.length = group.length ∧ (∀ x ∈ cores, s.coreMoving x = false)
        ∧ (∀ x ∈ s.parties, x.2.launch = (s.party p).launch → (la.coop = true ∨ x.2.outing = (s.party p).outing) →
            ∀ n, x.2.status ≠ .stopping n)
        ∧ octantsOk (s.tenant la.tenant) ((group.zip cores).map fun x => ((s.party x.1).outing, x.2)) = true
      let bad (q : Nat) : Bool := (s.party q).restart.isEmpty && !s.areaOk q (s.party q).area
      let go := exec (.partyRestore p cores) s
      (¬fits → go = .next s)
      ∧ (∀ q, fits → group.find? bad = some q → go = .next (s.refuseRestore q))
      ∧ (fits → group.find? bad = none →
        (reseatAll (group.zip cores) { s := s } = none → go = .next s)
        ∧ ∀ x, reseatAll (group.zip cores) { s := s } = some x →
          (s.stillFull x.empty ≠ [] →
            go = .next ((s.stillFull x.empty).foldl (fun (u : State) f => u.evictFrame f.1 f.2.1 f.2.2) s))
          ∧ (s.stillFull x.empty = [] →
            let bars := (group.foldl (fun (t : State) q => t.outingAgain q group) s).outings
            let t := group.foldl (fun (t : State) q => t.openParty q) { x.s with outings := bars }
            go = .next (group.foldl (fun (t : State) q => (t.departDone q).deliverAll (t.party q).crews) t)))
    ∧ (∀ (s : State) (i b : Nat) (old : Slice), ((sliceAgain s b i old).wait =
        match old.wait with | .parked | .moving _ | .route _ _ _ => .none | w => w)
      ∧ ((old.wait = .parked → (sliceAgain s b i old).held = none)
        ∧ (old.wait ≠ .parked → (∀ q, old.wait ≠ .moving q) → (∀ d a n, old.wait ≠ .route d a n) →
          (sliceAgain s b i old).held = old.held)))
    ∧ ∀ (c old : Crew) (x : IdemRec), restartCrew c old none = c
      ∧ restartCrew c old (some x) = { c with
          started := true, live := x.live, exec := x.live, sregs := x.sregs, tile := x.tile
          off := if x.live = 0 then old.off else 0, slices := List.replicate 8 { pc := x.pc } }

/-- A die in service reports; a fence takes it out of service and drops what is under way on it; a restart settles its pages
and parties and puts it back; a checkpoint stops its parties and, once they are saved, clears the die's WSC bits and records
them. What happens at a reset to parties without a record, and to one of the checkpoint that has been restored on another
die since, is the model's reading (log 39). -/
def Obligations.DieLife : Prop :=
  let runs (q : Party) : Prop := q.status = .resident ∨ ∃ n, q.status = .stopping n
  (∀ (s : State) (d : Nat),
      ((s.die d).inService = true → exec (.dieHeartbeat d) s = .next { s with dies := lmod s.dies d fun x => { x with lastBeat := s.time } })
      ∧ ((s.die d).inService = false → exec (.dieHeartbeat d) s = .next s))
    ∧ (∀ (s : State) (d : Nat) (i : Instr), i ∈ [.dieFence d, .dieHeartbeatMissing d] →
      (4 ≤ d ∨ (s.die d).inService = false → exec i s = .next s)
      ∧ (d < 4 → (s.die d).inService = true → (∀ x ∈ s.pages, homeStack x.1 = d → x.2.waiters = [] ∧ x.2.refused = []) →
        ∃ t, exec i s = .next t
        ∧ (∀ o, o ∈ t.ops ↔ o ∈ s.ops ∧ o.die ≠ d)
        ∧ (∀ r, r ∈ t.requests ↔ r ∈ s.requests ∧ ∀ p, (s.crew r.crew).partyId = some p → (s.party p).die ≠ d)
        ∧ (∀ x, x ∈ t.caches ↔ x ∈ s.caches ∧ cacheDie x.1 ≠ d)
        ∧ (∀ x, x ∈ t.tables ↔ x ∈ s.tables ∧ x.die ≠ d)
        ∧ (let stays (w : Waiter) : Bool := match w with
            | .slice k _ => (match (s.crew k).partyId with | some p => (s.party p).die != d | none => true)
            | .agent _ => true
          ∀ q, t.page q = { s.page q with
            waiters := (s.page q).waiters.filter stays, refused := (s.page q).refused.filter stays })
        ∧ t = { s with
          ops := t.ops, requests := t.requests, caches := t.caches, tables := t.tables, pages := t.pages
          dies := lmod s.dies d fun x => { x with inService := false, inc := x.inc + 1, fencedAt := some s.time, ckpt := false } }))
    ∧ (∀ (s : State) (d : Nat),
      let due := d < 4 ∧ (s.die d).inService = false ∧ ∀ t, (s.die d).fencedAt = some t → t + 210000 ≤ s.time
      (¬due → exec (.dieRestart d) s = .next s)
      ∧ (due → ∃ u v w, u = s.pages.foldl (fun (s : State) x => s.settleAtReset d x.1) s
        ∧ v = u.parties.foldl (fun (s : State) x => s.partyAtReset d x.1) u
        ∧ (∀ b, b ∈ w.drowsy ↔ b ∈ v.drowsy ∧ b / 384 ≠ d)
        ∧ w = { v with
          bankUse := w.bankUse, drowsy := w.drowsy
          syncs := v.syncs.map fun y => { y with recs := y.recs.filter fun r => r.die ≠ d }
          quarantine := v.quarantine.filter fun q => q.1 ≠ d
          dies := lmod v.dies d fun x =>
            { x with inService := true, fencedAt := none, clockBase := v.clock, lastBeat := v.time } }
        ∧ exec (.dieRestart d) s = .next ((s.tenantsOn d).foldl (fun (s : State) t => s.queueError t 8 0x7F 0 d) w)))
    ∧ (∀ (s : State) (d t : Nat), t ∈ s.tenantsOn d ↔ t ∈ s.tenants.map (·.1)
        ∧ ∃ x ∈ s.parties, x.2.die = d ∧ (s.launchRec x.2.launch).tenant = t ∧ runs x.2)
    ∧ (∀ (s : State) (d pfn : Nat),
      let r := s.page pfn
      let master := r.held.frameAddr 0 ≠ none ∧ r.held.mdie = d
      let holds := ∃ x ∈ r.replicas, x.die = d
      let put (s : State) (r : PageRec) : State := { s with pages := aset s.pages pfn r }
      let u := s.lapseHolds pfn
      let left := r.replicas.filter fun x => x.die ≠ d
      (¬master → ¬holds → s.settleAtReset d pfn = s)
      ∧ (master ∨ holds → mbit r.wsc d = true →
          s.settleAtReset d pfn = (put (u.dropAll pfn) { r with replicas := [] }).settlePage pfn { res := .poison })
      ∧ (master → mbit r.wsc d = false → s.settleAtReset d pfn = ((put (u.dropAll pfn) { r with
          place := {}, run := r.run.map fun x => { x with old := {} } }).removeReplicas pfn fun _ => true).settlePage pfn {})
      ∧ (¬master → holds → mbit r.wsc d = false →
        (r.run ≠ none → s.settleAtReset d pfn = put u { r with replicas := left })
        ∧ (r.run = none → s.settleAtReset d pfn = (State.dropAll (put u { r with replicas := left }) pfn).settlePage pfn
            (if left = [] then lastReplica r.place else r.place))))
    ∧ (∀ (s : State) (pfn : Nat), s.lapseHolds pfn = { s with parties := s.parties.map fun (x : Nat × Party) =>
        (x.1, { x.2 with holds := x.2.holds.filter fun y => y ≠ pfn }) })
    ∧ (∀ (s : State) (pfn : Nat), ∃ t, s.dropAll pfn = t ∧ { t with caches := s.caches } = s
      ∧ ∀ x, x ∈ t.caches ↔ x ∈ s.caches ∧ ¬(x.2.leaf.pfn = pfn ∧ x.2.leaf.level = 0 ∧ x.2.leaf.mtype = .framed))
    ∧ (∀ (s : State) (d p : Nat),
      let q := s.party p
      (q.die ≠ d ∨ q.status = .retired ∨ q.status = .discarded → s.partyAtReset d p = s)
      ∧ (q.die = d → runs q ∨ (∃ a, q.status = .saved a) →
        (∀ c, aget (s.die d).checkpoint p = some c →
          s.partyAtReset d p = ((s.dropFaults p).freeParty p c.status).modParty p fun _ => c)
        ∧ (aget (s.die d).checkpoint p = none → (∃ a, q.status = .saved a) → s.partyAtReset d p = s)
        ∧ (aget (s.die d).checkpoint p = none → runs q → s.partyAtReset d p = s.backToEntry p)))
    ∧ (∀ (s : State) (p : Nat) (q : Party), aget s.parties p = some q → ∃ x, aget (s.backToEntry p).parties p = some x
      ∧ x = { q with
        status := .saved 0, holds := [], nearFrames := [], nearPlaced := [], saved := [], toward := []
        restart := q.crews.map fun _ => none }
      ∧ ∀ y ∈ (s.backToEntry p).crews, y.2.partyId ≠ some p)
    ∧ ∀ (s : State) (d : Nat),
      let run := d < 4 ∧ (s.die d).inService = true
      let v : State := if (s.die d).ckpt then s else { s with dies := lmod s.dies d fun x => { x with ckpt := true } }
      (¬run → exec (.dieCheckpoint d) s = .next s)
      ∧ (run → (∃ x ∈ s.parties, x.2.die = d ∧ runs x.2) → exec (.dieCheckpoint d) s =
          .next ((s.parties.filter fun x => x.2.die = d).foldl (fun (u : State) x => u.preempt x.1) v))
      ∧ (run → (∀ x ∈ s.parties, x.2.die = d → ¬runs x.2) → ∃ t, exec (.dieCheckpoint d) s = .next t
        ∧ t.crews = s.crews ∧ (∀ q, mbit (t.page q).wsc d = false)
        ∧ (d < s.dies.length → (t.die d).ckpt = false
          ∧ (t.die d).checkpoint = t.parties.filter fun x => x.2.die = d && x.2.isSaved)
        ∧ ∃ gone : Nat → Bool, (∀ q, gone q = true ↔ ((s.page q).held.frameAddr 0 ≠ none ∧ (s.page q).held.mdie = d) ∨ ∃ x ∈ (s.page q).replicas, x.die = d)
          ∧ t.parties = s.parties.map fun (x : Nat × Party) => (x.1, { x.2 with holds := x.2.holds.filter fun q => !gone q }))

/-- What O10 to O15, O22, O26, O31 and O39 name as results. In each of the seven formats and four modes: a value written is
its zero with the sign, or rounded once (Rounded: nearest with ties to even, toward zero, up or down; subnormals kept;
overflow by mode and SAT with OF and NX; UF for a tiny inexact result; NX for an inexact one). A sum, a product and a fused
product and sum are the real one so rounded, an exact zero with the sign of R356; a NaN operand gives the canonical NaN with
no flag, opposite infinities and 0 x infinity with IV. FMIN and FMAX give the operand that is not a NaN, the canonical NaN
for two, else the operand that is not above, or not below, the other, −0 below +0 (R111; O13 states that they raise no
flag). Infinite and NaN sources are written by R108, floats into integers by R109, integers into floats rounded; CVT between
equal types copies. FRND gives the integral value with the sign and NX alone. FRCP, FRSQ, FSQRT, and FEXP2, FLOG2, FSINPI
and FCOSPI where the model's bounds decide (log 11), give the real function rounded once. -/
def Obligations.Rounding : Prop :=
  (∀ (f : Fmt) (mode : Rnd) (sat : Bool) (d : Dy), f ∈ allFmts →
    (d.m = 0 → roundDy f mode sat d = { code := f.signed d.neg 0, fl := 0 })
      ∧ (d.m ≠ 0 → f.Rounded mode sat d.real (roundDy f mode sat d)))
    ∧ (∀ (f : Fmt) (mode : Rnd) (sat neg : Bool), f ∈ allFmts →
      convertTo f mode sat .nan = (if f.hasNan then { code := f.canon, fl := 0 } else { code := 0, fl := 16 })
        ∧ f.value (convertTo f mode sat (.inf neg)).code =
            (if f.hasInf && !sat then .inf neg else if f.hasNan && !f.hasInf && !sat then .nan else f.value (f.signed neg f.maxCode))
        ∧ (convertTo f mode sat (.inf neg)).fl = if f.hasInf then 0 else 4)
    ∧ (∀ (f : Fmt) (mode : Rnd) (a b c : FVal), f ∈ allFmts →
      let nan (fl : BitVec 5) : FRes := { code := f.canon, fl := fl }
      let zero (neg : Bool) : FRes := { code := f.signed neg 0, fl := 0 }
      (a = .nan ∨ b = .nan → fadd f mode a b = nan 0 ∧ fmul f mode a b = nan 0 ∧ ffma f mode a b c = nan 0)
        ∧ (∀ x y, a = .inf x → b = .inf y →
            (x = y → fadd f mode a b = { code := infCode f x, fl := 0 }) ∧ (x ≠ y → fadd f mode a b = nan 16)
              ∧ fmul f mode a b = { code := infCode f (x != y), fl := 0 })
        ∧ (∀ x y, (a = .inf x ∧ b = .fin y) ∨ (a = .fin y ∧ b = .inf x) →
            fadd f mode a b = { code := infCode f x, fl := 0 }
              ∧ (y.m = 0 → fmul f mode a b = nan 16 ∧ ffma f mode a b c = nan 16)
              ∧ (y.m ≠ 0 → fmul f mode a b = { code := infCode f (x != y.neg), fl := 0 }))
        ∧ (∀ x y, a = .fin x → b = .fin y →
            (x.real + y.real = 0 → fadd f mode a b =
              zero (if x.m = 0 ∧ y.m = 0 ∧ x.neg = y.neg then x.neg else decide (mode = .rd)))
            ∧ (x.real + y.real ≠ 0 → f.Rounded mode false (x.real + y.real) (fadd f mode a b))
            ∧ (x.m = 0 ∨ y.m = 0 → fmul f mode a b = zero (x.neg != y.neg))
            ∧ (x.m ≠ 0 → y.m ≠ 0 → f.Rounded mode false (x.real * y.real) (fmul f mode a b))
            ∧ (c = .nan → ffma f mode a b c = nan 0)
            ∧ (∀ n, c = .inf n → ffma f mode a b c = { code := infCode f n, fl := 0 })
            ∧ ∀ z, c = .fin z →
              (x.real * y.real + z.real = 0 → ffma f mode a b c =
                zero (if (x.m = 0 ∨ y.m = 0) ∧ z.m = 0 ∧ (x.neg != y.neg) = z.neg then z.neg else decide (mode = .rd)))
              ∧ (x.real * y.real + z.real ≠ 0 → f.Rounded mode false (x.real * y.real + z.real) (ffma f mode a b c)))
        ∧ (∀ n, fprod a b = some (.inf n) →
            (c = .nan ∨ c = .inf (!n) → ffma f mode a b c = nan (if c = .nan then 0 else 16))
              ∧ (c ≠ .nan → c ≠ .inf (!n) → ffma f mode a b c = { code := infCode f n, fl := 0 })))
    ∧ (∀ (f : Fmt) (isMax : Bool) (a b : Nat), f ∈ allFmts →
      let below (x y : FVal) : Prop :=
        match x, y with
        | .inf m, .inf n => m = true ∧ n = false
        | .inf m, .fin _ => m = true
        | .fin _, .inf n => n = false
        | .fin u, .fin v => u.real < v.real ∨ (u.real = 0 ∧ v.real = 0 ∧ u.neg = true ∧ v.neg = false)
        | _, _ => False
      let r := fminmax f isMax a b
      (f.value a = .nan → f.value b = .nan → r = f.canon)
        ∧ (f.value a = .nan → f.value b ≠ .nan → r = b)
        ∧ (f.value a ≠ .nan → f.value b = .nan → r = a)
        ∧ (f.value a ≠ .nan → f.value b ≠ .nan → (r = a ∨ r = b)
            ∧ ∀ x, x = a ∨ x = b → if isMax then ¬below (f.value r) (f.value x) else ¬below (f.value x) (f.value r)))
    ∧ (∀ (dt st : Ty) (fd fs : Fmt) (mode : Rnd) (sat : Bool) (x : Nat), dt.fmt = some fd → st.fmt = some fs →
      let v := fs.value (x % 2 ^ st.width)
      ((convertAs dt st mode sat x).code = (convertTo fd mode sat v).code
        ∧ (convertAs dt st mode sat x).fl = (convertTo fd mode sat v).fl)
      ∧ (dt ≠ st → cvt dt st mode sat x = convertAs dt st mode sat x)
      ∧ (dt = st → (cvt dt st mode sat x).fl = 0
          ∧ (cvt dt st mode sat x).code = if v = .nan ∧ fd.hasNan = true then fd.canon else x % 2 ^ st.width))
    ∧ (∀ (dt st : Ty) (mode : Rnd) (sat : Bool) (x : Nat), dt.fmt = none → cvt dt st mode sat x = convertAs dt st mode sat x
      ∧ (st.fmt = none → dt.Pattern sat (st.intVal x) (convertAs dt st mode sat x).code ∧ (convertAs dt st mode sat x).fl = 0)
      ∧ ∀ fs, st.fmt = some fs →
        let r := convertAs dt st mode sat x
        match fs.value (x % 2 ^ st.width) with
        | .nan => r.code = 0 ∧ r.fl = 16
        | .inf n => dt.Pattern true (if n then dt.range.1 else dt.range.2) r.code ∧ r.fl = 16
        | .fin d => ∃ n : ℤ, mode.Multiple 0 d.real n ∧ dt.Pattern true n r.code
            ∧ (dt.range.1 ≤ n ∧ n ≤ dt.range.2 → (d.real = n → r.fl = 0) ∧ (d.real ≠ n → r.fl = 1))
            ∧ (n < dt.range.1 ∨ dt.range.2 < n → r.fl = 16))
    ∧ (∀ (dt st : Ty) (fd : Fmt) (mode : Rnd) (sat : Bool) (x : Nat), dt.fmt = some fd → st.fmt = none →
      let r := cvt dt st mode sat x
      (st.intVal x = 0 → r.code = 0 ∧ r.fl = 0)
        ∧ (st.intVal x ≠ 0 → fd.Rounded mode sat (st.intVal x : ℝ) { code := r.code, fl := r.fl }))
    ∧ (∀ (f : Fmt) (mode : Rnd) (code : Nat), f ∈ allFmts → code < 2 * f.signBit →
      match f.value code with
      | .nan => frnd f mode code = { code := f.canon, fl := 0 }
      | .inf _ => frnd f mode code = { code := code, fl := 0 }
      | .fin d => ∃ (n : ℤ) (y : Dy), mode.Multiple 0 d.real n ∧ f.value (frnd f mode code).code = .fin y ∧ y.real = n ∧ y.neg = d.neg
          ∧ (d.real = n → (frnd f mode code).fl = 0) ∧ (d.real ≠ n → (frnd f mode code).fl = 1))
    ∧ (∀ (mode : Rnd) (code : Nat) (d : Dy), Fmt.f32.value code = .fin d →
      let f32 : Fmt := .f32
      (d.m ≠ 0 → f32.Rounded mode false (1 / d.real) (frcp f32 mode (.fin d)))
        ∧ (d.m ≠ 0 → d.neg = false → f32.Rounded mode false (Real.sqrt d.real) (fsqrt f32 mode (.fin d))
            ∧ f32.Rounded mode false (1 / Real.sqrt d.real) (frsq f32 mode (.fin d)))
        ∧ (∀ r, exp2Fin f32 mode d = some r → f32.Rounded mode false ((2 : ℝ) ^ d.real) r)
        ∧ (∀ r, d.m ≠ 0 → d.neg = false → log2Fin f32 mode d = some r →
            (d.real = 1 → r = { code := 0, fl := 0 }) ∧ (d.real ≠ 1 → f32.Rounded mode false (Real.logb 2 d.real) r))
        ∧ (∀ r, sinpiFin f32 mode d = some r →
            (Real.sin (Real.pi * d.real) = 0 → r = { code := f32.signed d.neg 0, fl := 0 })
            ∧ (Real.sin (Real.pi * d.real) ≠ 0 → f32.Rounded mode false (Real.sin (Real.pi * d.real)) r))
        ∧ (∀ r, cospiFin f32 mode d = some r →
            (Real.cos (Real.pi * d.real) = 0 → r = { code := 0, fl := 0 })
            ∧ (Real.cos (Real.pi * d.real) ≠ 0 → f32.Rounded mode false (Real.cos (Real.pi * d.real)) r)))

/-- At reset the list of crews is in order, each number once; and from every state in which it is, whatever instruction,
input or event of the device the step runs, it is in the next state. (The numbers of crews are the model's own; the
statements on barrier phases rest on this.) -/
def Obligations.CrewsStayInOrder : Prop :=
  State.reset.Ordered ∧ ∀ s t : State, s.Ordered → step s = .next t → t.Ordered
end

