-- ==== Sys2Proof/Laws/Sparse.lean ====
section
/-! SUPPORT. The laws of sparse stores and keyed lists: a read after a write, and the canonical form that every write keeps. -/

namespace Sys2Proof.Machine

variable {w : Nat} {α : Type}

/-! ### Sparse stores -/

@[simp] theorem sget_nil (k : Nat) : sget ([] : List (Nat × BitVec w)) k = 0 := rfl

theorem sget_cons (k' : Nat) (v : BitVec w) (t : List (Nat × BitVec w)) (k : Nat) :
    sget ((k', v) :: t) k = if k = k' then v else sget t k := rfl

theorem sget_sput (m : List (Nat × BitVec w)) (k : Nat) (v : BitVec w) (j : Nat) :
    sget (sput m k v) j = if j = k then v else sget m j := by
  induction m with
  | nil => simp [sput, sget]
  | cons e t ih =>
    obtain ⟨k', v'⟩ := e
    unfold sput
    split
    · simp [sget]
    · split
      · subst_vars; by_cases hj : j = k' <;> simp [sget, hj]
      · by_cases hj : j = k'
        · subst hj; simp [sget]; omega
        · simp [sget, hj, ih]

theorem sget_filter_key (m : List (Nat × BitVec w)) (p : Nat → Bool) (j : Nat) :
    sget (m.filter fun kv => p kv.1) j = if p j then sget m j else 0 := by
  induction m with
  | nil => simp
  | cons e t ih =>
    obtain ⟨k', v'⟩ := e
    by_cases hp : p k'
    · by_cases hj : j = k'
      · subst hj; simp [hp, sget]
      · simp [hp, sget, hj, ih]
    · by_cases hj : j = k'
      · subst hj; simp [hp, ih]
      · simp [hp, sget, hj, ih]

/-- A read after a write: the value at the written key, and what was there before at every other. -/
theorem sget_sset (m : List (Nat × BitVec w)) (k : Nat) (v : BitVec w) (j : Nat) :
    sget (sset m k v) j = if j = k then v else sget m j := by
  unfold sset
  split
  · rename_i h
    rw [sget_filter_key m (fun x => x != k)]
    by_cases hj : j = k <;> simp [hj, h]
  · exact sget_sput m k v j

@[simp] theorem sget_sset_self (m : List (Nat × BitVec w)) (k : Nat) (v : BitVec w) : sget (sset m k v) k = v := by
  simp [sget_sset]

theorem sget_sset_of_ne (m : List (Nat × BitVec w)) {k j : Nat} (v : BitVec w) (h : j ≠ k) :
    sget (sset m k v) j = sget m j := by simp [sget_sset, h]

theorem sget_sclear (m : List (Nat × BitVec w)) (lo hi j : Nat) :
    sget (sclear m lo hi) j = if lo ≤ j ∧ j < hi then 0 else sget m j := by
  unfold sclear
  rw [sget_filter_key m (fun x => decide (x < lo) || decide (hi ≤ x))]
  by_cases h1 : lo ≤ j <;> by_cases h2 : j < hi
  · simp [h1, h2]
  · simp [h1, h2, Nat.le_of_not_lt h2]
  · simp [h1, h2, Nat.lt_of_not_le h1]
  · simp [h1, h2, Nat.lt_of_not_le h1]

/-! ### The canonical form -/

theorem swfFrom_mono {lo lo' : Nat} {m : List (Nat × BitVec w)} (h : lo' ≤ lo) (hm : swfFrom lo m = true) :
    swfFrom lo' m = true := by
  cases m with
  | nil => rfl
  | cons e t =>
    simp only [swfFrom, Bool.and_eq_true, decide_eq_true_eq] at hm ⊢
    exact ⟨⟨by omega, hm.1.2⟩, hm.2⟩

theorem swfFrom_filter (p : Nat × BitVec w → Bool) (m : List (Nat × BitVec w)) :
    ∀ lo, swfFrom lo m = true → swfFrom lo (m.filter p) = true := by
  induction m with
  | nil => intro lo h; exact h
  | cons e t ih =>
    intro lo h
    simp only [swfFrom, Bool.and_eq_true, decide_eq_true_eq] at h
    by_cases hp : p e
    · simp only [List.filter_cons, hp, if_true, swfFrom, Bool.and_eq_true, decide_eq_true_eq]
      exact ⟨h.1, ih _ h.2⟩
    · simp only [List.filter_cons, hp]
      exact swfFrom_mono (by omega) (ih _ h.2)

theorem swfFrom_sput (k : Nat) (v : BitVec w) (hv : (v != 0) = true) (m : List (Nat × BitVec w)) :
    ∀ lo, lo ≤ k → swfFrom lo m = true → swfFrom lo (sput m k v) = true := by
  induction m with
  | nil =>
    intro lo h _
    simp only [sput, swfFrom, Bool.and_eq_true, decide_eq_true_eq]
    exact ⟨⟨h, hv⟩, trivial⟩
  | cons e t ih =>
    obtain ⟨k', v'⟩ := e
    intro lo h hm
    simp only [swfFrom, Bool.and_eq_true, decide_eq_true_eq] at hm
    unfold sput
    split
    · simp only [swfFrom, Bool.and_eq_true, decide_eq_true_eq]
      exact ⟨⟨h, hv⟩, ⟨by omega, hm.1.2⟩, hm.2⟩
    · split
      · subst_vars
        simp only [swfFrom, Bool.and_eq_true, decide_eq_true_eq]
        exact ⟨⟨h, hv⟩, hm.2⟩
      · simp only [swfFrom, Bool.and_eq_true, decide_eq_true_eq]
        exact ⟨hm.1, ih _ (by omega) hm.2⟩

/-- A write keeps the canonical form. -/
theorem swfFrom_sset {m : List (Nat × BitVec w)} (h : swfFrom 0 m = true) (k : Nat) (v : BitVec w) :
    swfFrom 0 (sset m k v) = true := by
  unfold sset
  split
  · exact swfFrom_filter _ _ _ h
  · rename_i hv; exact swfFrom_sput k v (by simpa using hv) m 0 (Nat.zero_le _) h

theorem swfFrom_sclear {m : List (Nat × BitVec w)} (h : swfFrom 0 m = true) (lo hi : Nat) :
    swfFrom 0 (sclear m lo hi) = true := swfFrom_filter _ _ _ h

/-- Two stores in canonical form that read alike at every key are equal. -/
theorem swfFrom_ext : ∀ (m m' : List (Nat × BitVec w)) (lo : Nat), swfFrom lo m = true → swfFrom lo m' = true →
    (∀ k, sget m k = sget m' k) → m = m' := by
  have low : ∀ (m : List (Nat × BitVec w)) (lo k : Nat), swfFrom lo m = true → k < lo → sget m k = 0 := by
    intro m
    induction m with
    | nil => intros; rfl
    | cons e t ih =>
      intro lo k h hk
      simp only [swfFrom, Bool.and_eq_true, decide_eq_true_eq] at h
      simp only [sget]
      rw [if_neg (by omega)]
      exact ih _ _ h.2 (by omega)
  intro m
  induction m with
  | nil =>
    intro m' lo _ h' heq
    cases m' with
    | nil => rfl
    | cons e t =>
      simp only [swfFrom, Bool.and_eq_true, bne_iff_ne] at h'
      have := heq e.1
      simp [sget] at this
      exact absurd this.symm h'.1.2
  | cons e t ih =>
    intro m' lo h h' heq
    obtain ⟨k, v⟩ := e
    cases m' with
    | nil =>
      simp only [swfFrom, Bool.and_eq_true, bne_iff_ne] at h
      have := heq k
      simp [sget] at this
      exact absurd this h.1.2
    | cons e' t' =>
      obtain ⟨k', v'⟩ := e'
      simp only [swfFrom, Bool.and_eq_true, bne_iff_ne, decide_eq_true_eq] at h h'
      have key : k = k' := by
        rcases Nat.lt_trichotomy k k' with hlt | heq' | hgt
        · have := heq k
          simp only [sget, if_true] at this
          rw [if_neg (by omega), low t' _ k h'.2 (by omega)] at this
          exact absurd this h.1.2
        · exact heq'
        · have := heq k'
          simp only [sget, if_true] at this
          rw [if_neg (by omega), low t _ k' h.2 (by omega)] at this
          exact absurd this.symm h'.1.2
      subst key
      have hv : v = v' := by simpa [sget] using heq k
      subst hv
      congr 1
      refine ih t' (k + 1) h.2 h'.2 fun j => ?_
      by_cases hj : j = k
      · subst hj; rw [low t _ _ h.2 (by omega), low t' _ _ h'.2 (by omega)]
      · simpa [sget, hj] using heq j

/-! ### Keyed lists -/

theorem aget_amod (l : List (Nat × α)) (k : Nat) (f : α → α) (j : Nat) :
    aget (amod l k f) j = if j = k then (aget l k).map f else aget l j := by
  induction l with
  | nil => simp [amod, aget]
  | cons e t ih =>
    obtain ⟨k', v'⟩ := e
    unfold amod
    by_cases h : k' = k
    · subst h
      by_cases hj : j = k' <;> simp [aget, hj]
    · by_cases hj : j = k'
      · subst hj; simp [aget, h]
      · by_cases hjk : j = k
        · subst hjk; simpa [aget, h, hj] using ih
        · simp [aget, h, hj, ih, hjk]

theorem aget_aset (l : List (Nat × α)) (k : Nat) (v : α) (j : Nat) :
    aget (aset l k v) j = if j = k then some v else aget l j := by
  induction l with
  | nil => simp [aset, aget]
  | cons e t ih =>
    obtain ⟨k', v'⟩ := e
    unfold aset
    split
    · simp [aget]
    · split
      · subst_vars; by_cases hj : j = k' <;> simp [aget, hj]
      · by_cases hj : j = k'
        · subst hj; simp [aget]; omega
        · simp [aget, hj, ih]

theorem amod_amod (l : List (Nat × α)) (k : Nat) (f g : α → α) : amod (amod l k f) k g = amod l k fun x => g (f x) := by
  induction l with
  | nil => rfl
  | cons e t ih =>
    by_cases h : e.1 = k
    · simp [amod, h]
    · simp [amod, h, ih]

/-- Writing back what a key holds changes nothing. -/
theorem amod_const_of_aget {l : List (Nat × α)} {k : Nat} {v : α} (h : aget l k = some v) : (amod l k fun _ => v) = l := by
  induction l with
  | nil => rfl
  | cons e t ih =>
    by_cases hk : e.1 = k
    · obtain ⟨k', v'⟩ := e
      simp_all [amod, aget]
    · simp [amod, hk, ih (by simpa [aget, Ne.symm hk] using h)]

/-- Every record after a change was there before, or is the changed one. -/
theorem mem_amod {l : List (Nat × α)} {k : Nat} {f : α → α} {e : Nat × α} (h : e ∈ amod l k f) :
    e ∈ l ∨ ∃ v, aget l k = some v ∧ e = (k, f v) := by
  induction l with
  | nil => simp [amod] at h
  | cons x t ih =>
    unfold amod at h
    split at h
    · rename_i hk
      rcases List.mem_cons.1 h with rfl | h
      · exact .inr ⟨x.2, by simp [aget, hk], by simp [hk]⟩
      · exact .inl (List.mem_cons_of_mem _ h)
    · rename_i hk
      rcases List.mem_cons.1 h with rfl | h
      · exact .inl (by simp)
      · rcases ih h with h | ⟨v, hv, he⟩
        · exact .inl (List.mem_cons_of_mem _ h)
        · exact .inr ⟨v, by simpa [aget, Ne.symm hk] using hv, he⟩

@[simp] theorem lmod_length (l : List α) (i : Nat) (f : α → α) : (lmod l i f).length = l.length := by
  induction l generalizing i with
  | nil => rfl
  | cons a t ih => cases i <;> simp [lmod, ih]

theorem lmod_getElem? (l : List α) (i : Nat) (f : α → α) (j : Nat) :
    (lmod l i f)[j]? = if j = i then (l[j]?).map f else l[j]? := by
  induction l generalizing i j with
  | nil => simp [lmod]
  | cons a t ih =>
    cases i with
    | zero => cases j <;> simp [lmod]
    | succ i => cases j <;> simp [lmod, ih]

theorem lmod_getD (l : List α) (i : Nat) (f : α → α) (j : Nat) (d : α) :
    (lmod l i f).getD j d = if j = i ∧ j < l.length then f (l.getD j d) else l.getD j d := by
  simp only [List.getD_eq_getElem?_getD, lmod_getElem?]
  by_cases h : j = i
  · subst h
    by_cases hj : j < l.length
    · simp [hj]
    · simp [hj]
  · simp [h]

end Sys2Proof.Machine
end

