-- ==== Sys2Proof/Laws/State.lean ====
section
/-! SUPPORT. The small lemmas of the state's updates: one for each field that an update leaves alone, true by rfl; what an update
does to its own field; and what the lookups of crews, parties, launches, tenants, pages and dies give after it. -/

namespace Sys2Proof.Machine

/-! ### `State.setCrew` -/

@[simp] theorem State.setCrew_clock (s : State) (k : Nat) (c : Crew) : (s.setCrew k c).clock = s.clock := rfl
@[simp] theorem State.setCrew_time (s : State) (k : Nat) (c : Crew) : (s.setCrew k c).time = s.time := rfl
@[simp] theorem State.setCrew_inputs (s : State) (k : Nat) (c : Crew) : (s.setCrew k c).inputs = s.inputs := rfl
@[simp] theorem State.setCrew_turn (s : State) (k : Nat) (c : Crew) : (s.setCrew k c).turn = s.turn := rfl
@[simp] theorem State.setCrew_rota (s : State) (k : Nat) (c : Crew) : (s.setCrew k c).rota = s.rota := rfl
@[simp] theorem State.setCrew_met (s : State) (k : Nat) (c : Crew) : (s.setCrew k c).met = s.met := rfl
@[simp] theorem State.setCrew_free (s : State) (k : Nat) (c : Crew) : (s.setCrew k c).free = s.free := rfl
@[simp] theorem State.setCrew_nextId (s : State) (k : Nat) (c : Crew) : (s.setCrew k c).nextId = s.nextId := rfl
@[simp] theorem State.setCrew_issue (s : State) (k : Nat) (c : Crew) : (s.setCrew k c).issue = s.issue := rfl
@[simp] theorem State.setCrew_mem (s : State) (k : Nat) (c : Crew) : (s.setCrew k c).mem = s.mem := rfl
@[simp] theorem State.setCrew_parties (s : State) (k : Nat) (c : Crew) : (s.setCrew k c).parties = s.parties := rfl
@[simp] theorem State.setCrew_outings (s : State) (k : Nat) (c : Crew) : (s.setCrew k c).outings = s.outings := rfl
@[simp] theorem State.setCrew_launches (s : State) (k : Nat) (c : Crew) : (s.setCrew k c).launches = s.launches := rfl
@[simp] theorem State.setCrew_tenants (s : State) (k : Nat) (c : Crew) : (s.setCrew k c).tenants = s.tenants := rfl
@[simp] theorem State.setCrew_dies (s : State) (k : Nat) (c : Crew) : (s.setCrew k c).dies = s.dies := rfl
@[simp] theorem State.setCrew_pages (s : State) (k : Nat) (c : Crew) : (s.setCrew k c).pages = s.pages := rfl
@[simp] theorem State.setCrew_caches (s : State) (k : Nat) (c : Crew) : (s.setCrew k c).caches = s.caches := rfl
@[simp] theorem State.setCrew_tables (s : State) (k : Nat) (c : Crew) : (s.setCrew k c).tables = s.tables := rfl
@[simp] theorem State.setCrew_replays (s : State) (k : Nat) (c : Crew) : (s.setCrew k c).replays = s.replays := rfl
@[simp] theorem State.setCrew_stalled (s : State) (k : Nat) (c : Crew) : (s.setCrew k c).stalled = s.stalled := rfl
@[simp] theorem State.setCrew_quarantine (s : State) (k : Nat) (c : Crew) : (s.setCrew k c).quarantine = s.quarantine := rfl
@[simp] theorem State.setCrew_syncs (s : State) (k : Nat) (c : Crew) : (s.setCrew k c).syncs = s.syncs := rfl
@[simp] theorem State.setCrew_ops (s : State) (k : Nat) (c : Crew) : (s.setCrew k c).ops = s.ops := rfl
@[simp] theorem State.setCrew_parts (s : State) (k : Nat) (c : Crew) : (s.setCrew k c).parts = s.parts := rfl
@[simp] theorem State.setCrew_groupSeq (s : State) (k : Nat) (c : Crew) : (s.setCrew k c).groupSeq = s.groupSeq := rfl
@[simp] theorem State.setCrew_groupRun (s : State) (k : Nat) (c : Crew) : (s.setCrew k c).groupRun = s.groupRun := rfl
@[simp] theorem State.setCrew_requests (s : State) (k : Nat) (c : Crew) : (s.setCrew k c).requests = s.requests := rfl
@[simp] theorem State.setCrew_jobs (s : State) (k : Nat) (c : Crew) : (s.setCrew k c).jobs = s.jobs := rfl
@[simp] theorem State.setCrew_csr (s : State) (k : Nat) (c : Crew) : (s.setCrew k c).csr = s.csr := rfl
@[simp] theorem State.setCrew_routes (s : State) (k : Nat) (c : Crew) : (s.setCrew k c).routes = s.routes := rfl
@[simp] theorem State.setCrew_measured (s : State) (k : Nat) (c : Crew) : (s.setCrew k c).measured = s.measured := rfl
@[simp] theorem State.setCrew_bankUse (s : State) (k : Nat) (c : Crew) : (s.setCrew k c).bankUse = s.bankUse := rfl
@[simp] theorem State.setCrew_drowsy (s : State) (k : Nat) (c : Crew) : (s.setCrew k c).drowsy = s.drowsy := rfl
@[simp] theorem State.setCrew_lastIssued (s : State) (k : Nat) (c : Crew) : (s.setCrew k c).lastIssued = s.lastIssued := rfl
@[simp] theorem State.setCrew_portTurn (s : State) (k : Nat) (c : Crew) : (s.setCrew k c).portTurn = s.portTurn := rfl
@[simp] theorem State.setCrew_hbCount (s : State) (k : Nat) (c : Crew) : (s.setCrew k c).hbCount = s.hbCount := rfl
@[simp] theorem State.setCrew_hbMissed (s : State) (k : Nat) (c : Crew) : (s.setCrew k c).hbMissed = s.hbMissed := rfl
@[simp] theorem State.setCrew_hbSeen (s : State) (k : Nat) (c : Crew) : (s.setCrew k c).hbSeen = s.hbSeen := rfl
@[simp] theorem State.setCrew_hbLast (s : State) (k : Nat) (c : Crew) : (s.setCrew k c).hbLast = s.hbLast := rfl
@[simp] theorem State.setCrew_snapLatch (s : State) (k : Nat) (c : Crew) : (s.setCrew k c).snapLatch = s.snapLatch := rfl
@[simp] theorem State.setCrew_boot (s : State) (k : Nat) (c : Crew) : (s.setCrew k c).boot = s.boot := rfl
@[simp] theorem State.setCrew_outbox (s : State) (k : Nat) (c : Crew) : (s.setCrew k c).outbox = s.outbox := rfl

/-! ### `State.modCrew` -/

@[simp] theorem State.modCrew_clock (s : State) (k : Nat) (f : Crew → Crew) : (s.modCrew k f).clock = s.clock := rfl
@[simp] theorem State.modCrew_time (s : State) (k : Nat) (f : Crew → Crew) : (s.modCrew k f).time = s.time := rfl
@[simp] theorem State.modCrew_inputs (s : State) (k : Nat) (f : Crew → Crew) : (s.modCrew k f).inputs = s.inputs := rfl
@[simp] theorem State.modCrew_turn (s : State) (k : Nat) (f : Crew → Crew) : (s.modCrew k f).turn = s.turn := rfl
@[simp] theorem State.modCrew_rota (s : State) (k : Nat) (f : Crew → Crew) : (s.modCrew k f).rota = s.rota := rfl
@[simp] theorem State.modCrew_met (s : State) (k : Nat) (f : Crew → Crew) : (s.modCrew k f).met = s.met := rfl
@[simp] theorem State.modCrew_free (s : State) (k : Nat) (f : Crew → Crew) : (s.modCrew k f).free = s.free := rfl
@[simp] theorem State.modCrew_nextId (s : State) (k : Nat) (f : Crew → Crew) : (s.modCrew k f).nextId = s.nextId := rfl
@[simp] theorem State.modCrew_issue (s : State) (k : Nat) (f : Crew → Crew) : (s.modCrew k f).issue = s.issue := rfl
@[simp] theorem State.modCrew_mem (s : State) (k : Nat) (f : Crew → Crew) : (s.modCrew k f).mem = s.mem := rfl
@[simp] theorem State.modCrew_parties (s : State) (k : Nat) (f : Crew → Crew) : (s.modCrew k f).parties = s.parties := rfl
@[simp] theorem State.modCrew_outings (s : State) (k : Nat) (f : Crew → Crew) : (s.modCrew k f).outings = s.outings := rfl
@[simp] theorem State.modCrew_launches (s : State) (k : Nat) (f : Crew → Crew) : (s.modCrew k f).launches = s.launches := rfl
@[simp] theorem State.modCrew_tenants (s : State) (k : Nat) (f : Crew → Crew) : (s.modCrew k f).tenants = s.tenants := rfl
@[simp] theorem State.modCrew_dies (s : State) (k : Nat) (f : Crew → Crew) : (s.modCrew k f).dies = s.dies := rfl
@[simp] theorem State.modCrew_pages (s : State) (k : Nat) (f : Crew → Crew) : (s.modCrew k f).pages = s.pages := rfl
@[simp] theorem State.modCrew_caches (s : State) (k : Nat) (f : Crew → Crew) : (s.modCrew k f).caches = s.caches := rfl
@[simp] theorem State.modCrew_tables (s : State) (k : Nat) (f : Crew → Crew) : (s.modCrew k f).tables = s.tables := rfl
@[simp] theorem State.modCrew_replays (s : State) (k : Nat) (f : Crew → Crew) : (s.modCrew k f).replays = s.replays := rfl
@[simp] theorem State.modCrew_stalled (s : State) (k : Nat) (f : Crew → Crew) : (s.modCrew k f).stalled = s.stalled := rfl
@[simp] theorem State.modCrew_quarantine (s : State) (k : Nat) (f : Crew → Crew) : (s.modCrew k f).quarantine = s.quarantine := rfl
@[simp] theorem State.modCrew_syncs (s : State) (k : Nat) (f : Crew → Crew) : (s.modCrew k f).syncs = s.syncs := rfl
@[simp] theorem State.modCrew_ops (s : State) (k : Nat) (f : Crew → Crew) : (s.modCrew k f).ops = s.ops := rfl
@[simp] theorem State.modCrew_parts (s : State) (k : Nat) (f : Crew → Crew) : (s.modCrew k f).parts = s.parts := rfl
@[simp] theorem State.modCrew_groupSeq (s : State) (k : Nat) (f : Crew → Crew) : (s.modCrew k f).groupSeq = s.groupSeq := rfl
@[simp] theorem State.modCrew_groupRun (s : State) (k : Nat) (f : Crew → Crew) : (s.modCrew k f).groupRun = s.groupRun := rfl
@[simp] theorem State.modCrew_requests (s : State) (k : Nat) (f : Crew → Crew) : (s.modCrew k f).requests = s.requests := rfl
@[simp] theorem State.modCrew_jobs (s : State) (k : Nat) (f : Crew → Crew) : (s.modCrew k f).jobs = s.jobs := rfl
@[simp] theorem State.modCrew_csr (s : State) (k : Nat) (f : Crew → Crew) : (s.modCrew k f).csr = s.csr := rfl
@[simp] theorem State.modCrew_routes (s : State) (k : Nat) (f : Crew → Crew) : (s.modCrew k f).routes = s.routes := rfl
@[simp] theorem State.modCrew_measured (s : State) (k : Nat) (f : Crew → Crew) : (s.modCrew k f).measured = s.measured := rfl
@[simp] theorem State.modCrew_bankUse (s : State) (k : Nat) (f : Crew → Crew) : (s.modCrew k f).bankUse = s.bankUse := rfl
@[simp] theorem State.modCrew_drowsy (s : State) (k : Nat) (f : Crew → Crew) : (s.modCrew k f).drowsy = s.drowsy := rfl
@[simp] theorem State.modCrew_lastIssued (s : State) (k : Nat) (f : Crew → Crew) : (s.modCrew k f).lastIssued = s.lastIssued := rfl
@[simp] theorem State.modCrew_portTurn (s : State) (k : Nat) (f : Crew → Crew) : (s.modCrew k f).portTurn = s.portTurn := rfl
@[simp] theorem State.modCrew_hbCount (s : State) (k : Nat) (f : Crew → Crew) : (s.modCrew k f).hbCount = s.hbCount := rfl
@[simp] theorem State.modCrew_hbMissed (s : State) (k : Nat) (f : Crew → Crew) : (s.modCrew k f).hbMissed = s.hbMissed := rfl
@[simp] theorem State.modCrew_hbSeen (s : State) (k : Nat) (f : Crew → Crew) : (s.modCrew k f).hbSeen = s.hbSeen := rfl
@[simp] theorem State.modCrew_hbLast (s : State) (k : Nat) (f : Crew → Crew) : (s.modCrew k f).hbLast = s.hbLast := rfl
@[simp] theorem State.modCrew_snapLatch (s : State) (k : Nat) (f : Crew → Crew) : (s.modCrew k f).snapLatch = s.snapLatch := rfl
@[simp] theorem State.modCrew_boot (s : State) (k : Nat) (f : Crew → Crew) : (s.modCrew k f).boot = s.boot := rfl
@[simp] theorem State.modCrew_outbox (s : State) (k : Nat) (f : Crew → Crew) : (s.modCrew k f).outbox = s.outbox := rfl

/-! ### `State.modParty` -/

@[simp] theorem State.modParty_clock (s : State) (p : Nat) (f : Party → Party) : (s.modParty p f).clock = s.clock := rfl
@[simp] theorem State.modParty_time (s : State) (p : Nat) (f : Party → Party) : (s.modParty p f).time = s.time := rfl
@[simp] theorem State.modParty_inputs (s : State) (p : Nat) (f : Party → Party) : (s.modParty p f).inputs = s.inputs := rfl
@[simp] theorem State.modParty_turn (s : State) (p : Nat) (f : Party → Party) : (s.modParty p f).turn = s.turn := rfl
@[simp] theorem State.modParty_rota (s : State) (p : Nat) (f : Party → Party) : (s.modParty p f).rota = s.rota := rfl
@[simp] theorem State.modParty_met (s : State) (p : Nat) (f : Party → Party) : (s.modParty p f).met = s.met := rfl
@[simp] theorem State.modParty_free (s : State) (p : Nat) (f : Party → Party) : (s.modParty p f).free = s.free := rfl
@[simp] theorem State.modParty_nextId (s : State) (p : Nat) (f : Party → Party) : (s.modParty p f).nextId = s.nextId := rfl
@[simp] theorem State.modParty_issue (s : State) (p : Nat) (f : Party → Party) : (s.modParty p f).issue = s.issue := rfl
@[simp] theorem State.modParty_mem (s : State) (p : Nat) (f : Party → Party) : (s.modParty p f).mem = s.mem := rfl
@[simp] theorem State.modParty_crews (s : State) (p : Nat) (f : Party → Party) : (s.modParty p f).crews = s.crews := rfl
@[simp] theorem State.modParty_outings (s : State) (p : Nat) (f : Party → Party) : (s.modParty p f).outings = s.outings := rfl
@[simp] theorem State.modParty_launches (s : State) (p : Nat) (f : Party → Party) : (s.modParty p f).launches = s.launches := rfl
@[simp] theorem State.modParty_tenants (s : State) (p : Nat) (f : Party → Party) : (s.modParty p f).tenants = s.tenants := rfl
@[simp] theorem State.modParty_dies (s : State) (p : Nat) (f : Party → Party) : (s.modParty p f).dies = s.dies := rfl
@[simp] theorem State.modParty_pages (s : State) (p : Nat) (f : Party → Party) : (s.modParty p f).pages = s.pages := rfl
@[simp] theorem State.modParty_caches (s : State) (p : Nat) (f : Party → Party) : (s.modParty p f).caches = s.caches := rfl
@[simp] theorem State.modParty_tables (s : State) (p : Nat) (f : Party → Party) : (s.modParty p f).tables = s.tables := rfl
@[simp] theorem State.modParty_replays (s : State) (p : Nat) (f : Party → Party) : (s.modParty p f).replays = s.replays := rfl
@[simp] theorem State.modParty_stalled (s : State) (p : Nat) (f : Party → Party) : (s.modParty p f).stalled = s.stalled := rfl
@[simp] theorem State.modParty_quarantine (s : State) (p : Nat) (f : Party → Party) : (s.modParty p f).quarantine = s.quarantine := rfl
@[simp] theorem State.modParty_syncs (s : State) (p : Nat) (f : Party → Party) : (s.modParty p f).syncs = s.syncs := rfl
@[simp] theorem State.modParty_ops (s : State) (p : Nat) (f : Party → Party) : (s.modParty p f).ops = s.ops := rfl
@[simp] theorem State.modParty_parts (s : State) (p : Nat) (f : Party → Party) : (s.modParty p f).parts = s.parts := rfl
@[simp] theorem State.modParty_groupSeq (s : State) (p : Nat) (f : Party → Party) : (s.modParty p f).groupSeq = s.groupSeq := rfl
@[simp] theorem State.modParty_groupRun (s : State) (p : Nat) (f : Party → Party) : (s.modParty p f).groupRun = s.groupRun := rfl
@[simp] theorem State.modParty_requests (s : State) (p : Nat) (f : Party → Party) : (s.modParty p f).requests = s.requests := rfl
@[simp] theorem State.modParty_jobs (s : State) (p : Nat) (f : Party → Party) : (s.modParty p f).jobs = s.jobs := rfl
@[simp] theorem State.modParty_csr (s : State) (p : Nat) (f : Party → Party) : (s.modParty p f).csr = s.csr := rfl
@[simp] theorem State.modParty_routes (s : State) (p : Nat) (f : Party → Party) : (s.modParty p f).routes = s.routes := rfl
@[simp] theorem State.modParty_measured (s : State) (p : Nat) (f : Party → Party) : (s.modParty p f).measured = s.measured := rfl
@[simp] theorem State.modParty_bankUse (s : State) (p : Nat) (f : Party → Party) : (s.modParty p f).bankUse = s.bankUse := rfl
@[simp] theorem State.modParty_drowsy (s : State) (p : Nat) (f : Party → Party) : (s.modParty p f).drowsy = s.drowsy := rfl
@[simp] theorem State.modParty_lastIssued (s : State) (p : Nat) (f : Party → Party) : (s.modParty p f).lastIssued = s.lastIssued := rfl
@[simp] theorem State.modParty_portTurn (s : State) (p : Nat) (f : Party → Party) : (s.modParty p f).portTurn = s.portTurn := rfl
@[simp] theorem State.modParty_hbCount (s : State) (p : Nat) (f : Party → Party) : (s.modParty p f).hbCount = s.hbCount := rfl
@[simp] theorem State.modParty_hbMissed (s : State) (p : Nat) (f : Party → Party) : (s.modParty p f).hbMissed = s.hbMissed := rfl
@[simp] theorem State.modParty_hbSeen (s : State) (p : Nat) (f : Party → Party) : (s.modParty p f).hbSeen = s.hbSeen := rfl
@[simp] theorem State.modParty_hbLast (s : State) (p : Nat) (f : Party → Party) : (s.modParty p f).hbLast = s.hbLast := rfl
@[simp] theorem State.modParty_snapLatch (s : State) (p : Nat) (f : Party → Party) : (s.modParty p f).snapLatch = s.snapLatch := rfl
@[simp] theorem State.modParty_boot (s : State) (p : Nat) (f : Party → Party) : (s.modParty p f).boot = s.boot := rfl
@[simp] theorem State.modParty_outbox (s : State) (p : Nat) (f : Party → Party) : (s.modParty p f).outbox = s.outbox := rfl

/-! ### `State.modLaunch` -/

@[simp] theorem State.modLaunch_clock (s : State) (l : Nat) (f : Launch → Launch) : (s.modLaunch l f).clock = s.clock := rfl
@[simp] theorem State.modLaunch_time (s : State) (l : Nat) (f : Launch → Launch) : (s.modLaunch l f).time = s.time := rfl
@[simp] theorem State.modLaunch_inputs (s : State) (l : Nat) (f : Launch → Launch) : (s.modLaunch l f).inputs = s.inputs := rfl
@[simp] theorem State.modLaunch_turn (s : State) (l : Nat) (f : Launch → Launch) : (s.modLaunch l f).turn = s.turn := rfl
@[simp] theorem State.modLaunch_rota (s : State) (l : Nat) (f : Launch → Launch) : (s.modLaunch l f).rota = s.rota := rfl
@[simp] theorem State.modLaunch_met (s : State) (l : Nat) (f : Launch → Launch) : (s.modLaunch l f).met = s.met := rfl
@[simp] theorem State.modLaunch_free (s : State) (l : Nat) (f : Launch → Launch) : (s.modLaunch l f).free = s.free := rfl
@[simp] theorem State.modLaunch_nextId (s : State) (l : Nat) (f : Launch → Launch) : (s.modLaunch l f).nextId = s.nextId := rfl
@[simp] theorem State.modLaunch_issue (s : State) (l : Nat) (f : Launch → Launch) : (s.modLaunch l f).issue = s.issue := rfl
@[simp] theorem State.modLaunch_mem (s : State) (l : Nat) (f : Launch → Launch) : (s.modLaunch l f).mem = s.mem := rfl
@[simp] theorem State.modLaunch_crews (s : State) (l : Nat) (f : Launch → Launch) : (s.modLaunch l f).crews = s.crews := rfl
@[simp] theorem State.modLaunch_parties (s : State) (l : Nat) (f : Launch → Launch) : (s.modLaunch l f).parties = s.parties := rfl
@[simp] theorem State.modLaunch_outings (s : State) (l : Nat) (f : Launch → Launch) : (s.modLaunch l f).outings = s.outings := rfl
@[simp] theorem State.modLaunch_tenants (s : State) (l : Nat) (f : Launch → Launch) : (s.modLaunch l f).tenants = s.tenants := rfl
@[simp] theorem State.modLaunch_dies (s : State) (l : Nat) (f : Launch → Launch) : (s.modLaunch l f).dies = s.dies := rfl
@[simp] theorem State.modLaunch_pages (s : State) (l : Nat) (f : Launch → Launch) : (s.modLaunch l f).pages = s.pages := rfl
@[simp] theorem State.modLaunch_caches (s : State) (l : Nat) (f : Launch → Launch) : (s.modLaunch l f).caches = s.caches := rfl
@[simp] theorem State.modLaunch_tables (s : State) (l : Nat) (f : Launch → Launch) : (s.modLaunch l f).tables = s.tables := rfl
@[simp] theorem State.modLaunch_replays (s : State) (l : Nat) (f : Launch → Launch) : (s.modLaunch l f).replays = s.replays := rfl
@[simp] theorem State.modLaunch_stalled (s : State) (l : Nat) (f : Launch → Launch) : (s.modLaunch l f).stalled = s.stalled := rfl
@[simp] theorem State.modLaunch_quarantine (s : State) (l : Nat) (f : Launch → Launch) : (s.modLaunch l f).quarantine = s.quarantine := rfl
@[simp] theorem State.modLaunch_syncs (s : State) (l : Nat) (f : Launch → Launch) : (s.modLaunch l f).syncs = s.syncs := rfl
@[simp] theorem State.modLaunch_ops (s : State) (l : Nat) (f : Launch → Launch) : (s.modLaunch l f).ops = s.ops := rfl
@[simp] theorem State.modLaunch_parts (s : State) (l : Nat) (f : Launch → Launch) : (s.modLaunch l f).parts = s.parts := rfl
@[simp] theorem State.modLaunch_groupSeq (s : State) (l : Nat) (f : Launch → Launch) : (s.modLaunch l f).groupSeq = s.groupSeq := rfl
@[simp] theorem State.modLaunch_groupRun (s : State) (l : Nat) (f : Launch → Launch) : (s.modLaunch l f).groupRun = s.groupRun := rfl
@[simp] theorem State.modLaunch_requests (s : State) (l : Nat) (f : Launch → Launch) : (s.modLaunch l f).requests = s.requests := rfl
@[simp] theorem State.modLaunch_jobs (s : State) (l : Nat) (f : Launch → Launch) : (s.modLaunch l f).jobs = s.jobs := rfl
@[simp] theorem State.modLaunch_csr (s : State) (l : Nat) (f : Launch → Launch) : (s.modLaunch l f).csr = s.csr := rfl
@[simp] theorem State.modLaunch_routes (s : State) (l : Nat) (f : Launch → Launch) : (s.modLaunch l f).routes = s.routes := rfl
@[simp] theorem State.modLaunch_measured (s : State) (l : Nat) (f : Launch → Launch) : (s.modLaunch l f).measured = s.measured := rfl
@[simp] theorem State.modLaunch_bankUse (s : State) (l : Nat) (f : Launch → Launch) : (s.modLaunch l f).bankUse = s.bankUse := rfl
@[simp] theorem State.modLaunch_drowsy (s : State) (l : Nat) (f : Launch → Launch) : (s.modLaunch l f).drowsy = s.drowsy := rfl
@[simp] theorem State.modLaunch_lastIssued (s : State) (l : Nat) (f : Launch → Launch) : (s.modLaunch l f).lastIssued = s.lastIssued := rfl
@[simp] theorem State.modLaunch_portTurn (s : State) (l : Nat) (f : Launch → Launch) : (s.modLaunch l f).portTurn = s.portTurn := rfl
@[simp] theorem State.modLaunch_hbCount (s : State) (l : Nat) (f : Launch → Launch) : (s.modLaunch l f).hbCount = s.hbCount := rfl
@[simp] theorem State.modLaunch_hbMissed (s : State) (l : Nat) (f : Launch → Launch) : (s.modLaunch l f).hbMissed = s.hbMissed := rfl
@[simp] theorem State.modLaunch_hbSeen (s : State) (l : Nat) (f : Launch → Launch) : (s.modLaunch l f).hbSeen = s.hbSeen := rfl
@[simp] theorem State.modLaunch_hbLast (s : State) (l : Nat) (f : Launch → Launch) : (s.modLaunch l f).hbLast = s.hbLast := rfl
@[simp] theorem State.modLaunch_snapLatch (s : State) (l : Nat) (f : Launch → Launch) : (s.modLaunch l f).snapLatch = s.snapLatch := rfl
@[simp] theorem State.modLaunch_boot (s : State) (l : Nat) (f : Launch → Launch) : (s.modLaunch l f).boot = s.boot := rfl
@[simp] theorem State.modLaunch_outbox (s : State) (l : Nat) (f : Launch → Launch) : (s.modLaunch l f).outbox = s.outbox := rfl

/-! ### `State.modTenant` -/

@[simp] theorem State.modTenant_clock (s : State) (t : Nat) (f : Tenant → Tenant) : (s.modTenant t f).clock = s.clock := rfl
@[simp] theorem State.modTenant_time (s : State) (t : Nat) (f : Tenant → Tenant) : (s.modTenant t f).time = s.time := rfl
@[simp] theorem State.modTenant_inputs (s : State) (t : Nat) (f : Tenant → Tenant) : (s.modTenant t f).inputs = s.inputs := rfl
@[simp] theorem State.modTenant_turn (s : State) (t : Nat) (f : Tenant → Tenant) : (s.modTenant t f).turn = s.turn := rfl
@[simp] theorem State.modTenant_rota (s : State) (t : Nat) (f : Tenant → Tenant) : (s.modTenant t f).rota = s.rota := rfl
@[simp] theorem State.modTenant_met (s : State) (t : Nat) (f : Tenant → Tenant) : (s.modTenant t f).met = s.met := rfl
@[simp] theorem State.modTenant_free (s : State) (t : Nat) (f : Tenant → Tenant) : (s.modTenant t f).free = s.free := rfl
@[simp] theorem State.modTenant_nextId (s : State) (t : Nat) (f : Tenant → Tenant) : (s.modTenant t f).nextId = s.nextId := rfl
@[simp] theorem State.modTenant_issue (s : State) (t : Nat) (f : Tenant → Tenant) : (s.modTenant t f).issue = s.issue := rfl
@[simp] theorem State.modTenant_mem (s : State) (t : Nat) (f : Tenant → Tenant) : (s.modTenant t f).mem = s.mem := rfl
@[simp] theorem State.modTenant_crews (s : State) (t : Nat) (f : Tenant → Tenant) : (s.modTenant t f).crews = s.crews := rfl
@[simp] theorem State.modTenant_parties (s : State) (t : Nat) (f : Tenant → Tenant) : (s.modTenant t f).parties = s.parties := rfl
@[simp] theorem State.modTenant_outings (s : State) (t : Nat) (f : Tenant → Tenant) : (s.modTenant t f).outings = s.outings := rfl
@[simp] theorem State.modTenant_launches (s : State) (t : Nat) (f : Tenant → Tenant) : (s.modTenant t f).launches = s.launches := rfl
@[simp] theorem State.modTenant_dies (s : State) (t : Nat) (f : Tenant → Tenant) : (s.modTenant t f).dies = s.dies := rfl
@[simp] theorem State.modTenant_pages (s : State) (t : Nat) (f : Tenant → Tenant) : (s.modTenant t f).pages = s.pages := rfl
@[simp] theorem State.modTenant_caches (s : State) (t : Nat) (f : Tenant → Tenant) : (s.modTenant t f).caches = s.caches := rfl
@[simp] theorem State.modTenant_tables (s : State) (t : Nat) (f : Tenant → Tenant) : (s.modTenant t f).tables = s.tables := rfl
@[simp] theorem State.modTenant_replays (s : State) (t : Nat) (f : Tenant → Tenant) : (s.modTenant t f).replays = s.replays := rfl
@[simp] theorem State.modTenant_stalled (s : State) (t : Nat) (f : Tenant → Tenant) : (s.modTenant t f).stalled = s.stalled := rfl
@[simp] theorem State.modTenant_quarantine (s : State) (t : Nat) (f : Tenant → Tenant) : (s.modTenant t f).quarantine = s.quarantine := rfl
@[simp] theorem State.modTenant_syncs (s : State) (t : Nat) (f : Tenant → Tenant) : (s.modTenant t f).syncs = s.syncs := rfl
@[simp] theorem State.modTenant_ops (s : State) (t : Nat) (f : Tenant → Tenant) : (s.modTenant t f).ops = s.ops := rfl
@[simp] theorem State.modTenant_parts (s : State) (t : Nat) (f : Tenant → Tenant) : (s.modTenant t f).parts = s.parts := rfl
@[simp] theorem State.modTenant_groupSeq (s : State) (t : Nat) (f : Tenant → Tenant) : (s.modTenant t f).groupSeq = s.groupSeq := rfl
@[simp] theorem State.modTenant_groupRun (s : State) (t : Nat) (f : Tenant → Tenant) : (s.modTenant t f).groupRun = s.groupRun := rfl
@[simp] theorem State.modTenant_requests (s : State) (t : Nat) (f : Tenant → Tenant) : (s.modTenant t f).requests = s.requests := rfl
@[simp] theorem State.modTenant_jobs (s : State) (t : Nat) (f : Tenant → Tenant) : (s.modTenant t f).jobs = s.jobs := rfl
@[simp] theorem State.modTenant_csr (s : State) (t : Nat) (f : Tenant → Tenant) : (s.modTenant t f).csr = s.csr := rfl
@[simp] theorem State.modTenant_routes (s : State) (t : Nat) (f : Tenant → Tenant) : (s.modTenant t f).routes = s.routes := rfl
@[simp] theorem State.modTenant_measured (s : State) (t : Nat) (f : Tenant → Tenant) : (s.modTenant t f).measured = s.measured := rfl
@[simp] theorem State.modTenant_bankUse (s : State) (t : Nat) (f : Tenant → Tenant) : (s.modTenant t f).bankUse = s.bankUse := rfl
@[simp] theorem State.modTenant_drowsy (s : State) (t : Nat) (f : Tenant → Tenant) : (s.modTenant t f).drowsy = s.drowsy := rfl
@[simp] theorem State.modTenant_lastIssued (s : State) (t : Nat) (f : Tenant → Tenant) : (s.modTenant t f).lastIssued = s.lastIssued := rfl
@[simp] theorem State.modTenant_portTurn (s : State) (t : Nat) (f : Tenant → Tenant) : (s.modTenant t f).portTurn = s.portTurn := rfl
@[simp] theorem State.modTenant_hbCount (s : State) (t : Nat) (f : Tenant → Tenant) : (s.modTenant t f).hbCount = s.hbCount := rfl
@[simp] theorem State.modTenant_hbMissed (s : State) (t : Nat) (f : Tenant → Tenant) : (s.modTenant t f).hbMissed = s.hbMissed := rfl
@[simp] theorem State.modTenant_hbSeen (s : State) (t : Nat) (f : Tenant → Tenant) : (s.modTenant t f).hbSeen = s.hbSeen := rfl
@[simp] theorem State.modTenant_hbLast (s : State) (t : Nat) (f : Tenant → Tenant) : (s.modTenant t f).hbLast = s.hbLast := rfl
@[simp] theorem State.modTenant_snapLatch (s : State) (t : Nat) (f : Tenant → Tenant) : (s.modTenant t f).snapLatch = s.snapLatch := rfl
@[simp] theorem State.modTenant_boot (s : State) (t : Nat) (f : Tenant → Tenant) : (s.modTenant t f).boot = s.boot := rfl
@[simp] theorem State.modTenant_outbox (s : State) (t : Nat) (f : Tenant → Tenant) : (s.modTenant t f).outbox = s.outbox := rfl

/-! ### `State.modPage` -/

@[simp] theorem State.modPage_clock (s : State) (pfn : Nat) (f : PageRec → PageRec) : (s.modPage pfn f).clock = s.clock := rfl
@[simp] theorem State.modPage_time (s : State) (pfn : Nat) (f : PageRec → PageRec) : (s.modPage pfn f).time = s.time := rfl
@[simp] theorem State.modPage_inputs (s : State) (pfn : Nat) (f : PageRec → PageRec) : (s.modPage pfn f).inputs = s.inputs := rfl
@[simp] theorem State.modPage_turn (s : State) (pfn : Nat) (f : PageRec → PageRec) : (s.modPage pfn f).turn = s.turn := rfl
@[simp] theorem State.modPage_rota (s : State) (pfn : Nat) (f : PageRec → PageRec) : (s.modPage pfn f).rota = s.rota := rfl
@[simp] theorem State.modPage_met (s : State) (pfn : Nat) (f : PageRec → PageRec) : (s.modPage pfn f).met = s.met := rfl
@[simp] theorem State.modPage_free (s : State) (pfn : Nat) (f : PageRec → PageRec) : (s.modPage pfn f).free = s.free := rfl
@[simp] theorem State.modPage_nextId (s : State) (pfn : Nat) (f : PageRec → PageRec) : (s.modPage pfn f).nextId = s.nextId := rfl
@[simp] theorem State.modPage_issue (s : State) (pfn : Nat) (f : PageRec → PageRec) : (s.modPage pfn f).issue = s.issue := rfl
@[simp] theorem State.modPage_mem (s : State) (pfn : Nat) (f : PageRec → PageRec) : (s.modPage pfn f).mem = s.mem := rfl
@[simp] theorem State.modPage_crews (s : State) (pfn : Nat) (f : PageRec → PageRec) : (s.modPage pfn f).crews = s.crews := rfl
@[simp] theorem State.modPage_parties (s : State) (pfn : Nat) (f : PageRec → PageRec) : (s.modPage pfn f).parties = s.parties := rfl
@[simp] theorem State.modPage_outings (s : State) (pfn : Nat) (f : PageRec → PageRec) : (s.modPage pfn f).outings = s.outings := rfl
@[simp] theorem State.modPage_launches (s : State) (pfn : Nat) (f : PageRec → PageRec) : (s.modPage pfn f).launches = s.launches := rfl
@[simp] theorem State.modPage_tenants (s : State) (pfn : Nat) (f : PageRec → PageRec) : (s.modPage pfn f).tenants = s.tenants := rfl
@[simp] theorem State.modPage_dies (s : State) (pfn : Nat) (f : PageRec → PageRec) : (s.modPage pfn f).dies = s.dies := rfl
@[simp] theorem State.modPage_caches (s : State) (pfn : Nat) (f : PageRec → PageRec) : (s.modPage pfn f).caches = s.caches := rfl
@[simp] theorem State.modPage_tables (s : State) (pfn : Nat) (f : PageRec → PageRec) : (s.modPage pfn f).tables = s.tables := rfl
@[simp] theorem State.modPage_replays (s : State) (pfn : Nat) (f : PageRec → PageRec) : (s.modPage pfn f).replays = s.replays := rfl
@[simp] theorem State.modPage_stalled (s : State) (pfn : Nat) (f : PageRec → PageRec) : (s.modPage pfn f).stalled = s.stalled := rfl
@[simp] theorem State.modPage_quarantine (s : State) (pfn : Nat) (f : PageRec → PageRec) : (s.modPage pfn f).quarantine = s.quarantine := rfl
@[simp] theorem State.modPage_syncs (s : State) (pfn : Nat) (f : PageRec → PageRec) : (s.modPage pfn f).syncs = s.syncs := rfl
@[simp] theorem State.modPage_ops (s : State) (pfn : Nat) (f : PageRec → PageRec) : (s.modPage pfn f).ops = s.ops := rfl
@[simp] theorem State.modPage_parts (s : State) (pfn : Nat) (f : PageRec → PageRec) : (s.modPage pfn f).parts = s.parts := rfl
@[simp] theorem State.modPage_groupSeq (s : State) (pfn : Nat) (f : PageRec → PageRec) : (s.modPage pfn f).groupSeq = s.groupSeq := rfl
@[simp] theorem State.modPage_groupRun (s : State) (pfn : Nat) (f : PageRec → PageRec) : (s.modPage pfn f).groupRun = s.groupRun := rfl
@[simp] theorem State.modPage_requests (s : State) (pfn : Nat) (f : PageRec → PageRec) : (s.modPage pfn f).requests = s.requests := rfl
@[simp] theorem State.modPage_jobs (s : State) (pfn : Nat) (f : PageRec → PageRec) : (s.modPage pfn f).jobs = s.jobs := rfl
@[simp] theorem State.modPage_csr (s : State) (pfn : Nat) (f : PageRec → PageRec) : (s.modPage pfn f).csr = s.csr := rfl
@[simp] theorem State.modPage_routes (s : State) (pfn : Nat) (f : PageRec → PageRec) : (s.modPage pfn f).routes = s.routes := rfl
@[simp] theorem State.modPage_measured (s : State) (pfn : Nat) (f : PageRec → PageRec) : (s.modPage pfn f).measured = s.measured := rfl
@[simp] theorem State.modPage_bankUse (s : State) (pfn : Nat) (f : PageRec → PageRec) : (s.modPage pfn f).bankUse = s.bankUse := rfl
@[simp] theorem State.modPage_drowsy (s : State) (pfn : Nat) (f : PageRec → PageRec) : (s.modPage pfn f).drowsy = s.drowsy := rfl
@[simp] theorem State.modPage_lastIssued (s : State) (pfn : Nat) (f : PageRec → PageRec) : (s.modPage pfn f).lastIssued = s.lastIssued := rfl
@[simp] theorem State.modPage_portTurn (s : State) (pfn : Nat) (f : PageRec → PageRec) : (s.modPage pfn f).portTurn = s.portTurn := rfl
@[simp] theorem State.modPage_hbCount (s : State) (pfn : Nat) (f : PageRec → PageRec) : (s.modPage pfn f).hbCount = s.hbCount := rfl
@[simp] theorem State.modPage_hbMissed (s : State) (pfn : Nat) (f : PageRec → PageRec) : (s.modPage pfn f).hbMissed = s.hbMissed := rfl
@[simp] theorem State.modPage_hbSeen (s : State) (pfn : Nat) (f : PageRec → PageRec) : (s.modPage pfn f).hbSeen = s.hbSeen := rfl
@[simp] theorem State.modPage_hbLast (s : State) (pfn : Nat) (f : PageRec → PageRec) : (s.modPage pfn f).hbLast = s.hbLast := rfl
@[simp] theorem State.modPage_snapLatch (s : State) (pfn : Nat) (f : PageRec → PageRec) : (s.modPage pfn f).snapLatch = s.snapLatch := rfl
@[simp] theorem State.modPage_boot (s : State) (pfn : Nat) (f : PageRec → PageRec) : (s.modPage pfn f).boot = s.boot := rfl
@[simp] theorem State.modPage_outbox (s : State) (pfn : Nat) (f : PageRec → PageRec) : (s.modPage pfn f).outbox = s.outbox := rfl

/-! ### `State.modDie` -/

@[simp] theorem State.modDie_clock (s : State) (d : Nat) (f : Die → Die) : (s.modDie d f).clock = s.clock := rfl
@[simp] theorem State.modDie_time (s : State) (d : Nat) (f : Die → Die) : (s.modDie d f).time = s.time := rfl
@[simp] theorem State.modDie_inputs (s : State) (d : Nat) (f : Die → Die) : (s.modDie d f).inputs = s.inputs := rfl
@[simp] theorem State.modDie_turn (s : State) (d : Nat) (f : Die → Die) : (s.modDie d f).turn = s.turn := rfl
@[simp] theorem State.modDie_rota (s : State) (d : Nat) (f : Die → Die) : (s.modDie d f).rota = s.rota := rfl
@[simp] theorem State.modDie_met (s : State) (d : Nat) (f : Die → Die) : (s.modDie d f).met = s.met := rfl
@[simp] theorem State.modDie_free (s : State) (d : Nat) (f : Die → Die) : (s.modDie d f).free = s.free := rfl
@[simp] theorem State.modDie_nextId (s : State) (d : Nat) (f : Die → Die) : (s.modDie d f).nextId = s.nextId := rfl
@[simp] theorem State.modDie_issue (s : State) (d : Nat) (f : Die → Die) : (s.modDie d f).issue = s.issue := rfl
@[simp] theorem State.modDie_mem (s : State) (d : Nat) (f : Die → Die) : (s.modDie d f).mem = s.mem := rfl
@[simp] theorem State.modDie_crews (s : State) (d : Nat) (f : Die → Die) : (s.modDie d f).crews = s.crews := rfl
@[simp] theorem State.modDie_parties (s : State) (d : Nat) (f : Die → Die) : (s.modDie d f).parties = s.parties := rfl
@[simp] theorem State.modDie_outings (s : State) (d : Nat) (f : Die → Die) : (s.modDie d f).outings = s.outings := rfl
@[simp] theorem State.modDie_launches (s : State) (d : Nat) (f : Die → Die) : (s.modDie d f).launches = s.launches := rfl
@[simp] theorem State.modDie_tenants (s : State) (d : Nat) (f : Die → Die) : (s.modDie d f).tenants = s.tenants := rfl
@[simp] theorem State.modDie_pages (s : State) (d : Nat) (f : Die → Die) : (s.modDie d f).pages = s.pages := rfl
@[simp] theorem State.modDie_caches (s : State) (d : Nat) (f : Die → Die) : (s.modDie d f).caches = s.caches := rfl
@[simp] theorem State.modDie_tables (s : State) (d : Nat) (f : Die → Die) : (s.modDie d f).tables = s.tables := rfl
@[simp] theorem State.modDie_replays (s : State) (d : Nat) (f : Die → Die) : (s.modDie d f).replays = s.replays := rfl
@[simp] theorem State.modDie_stalled (s : State) (d : Nat) (f : Die → Die) : (s.modDie d f).stalled = s.stalled := rfl
@[simp] theorem State.modDie_quarantine (s : State) (d : Nat) (f : Die → Die) : (s.modDie d f).quarantine = s.quarantine := rfl
@[simp] theorem State.modDie_syncs (s : State) (d : Nat) (f : Die → Die) : (s.modDie d f).syncs = s.syncs := rfl
@[simp] theorem State.modDie_ops (s : State) (d : Nat) (f : Die → Die) : (s.modDie d f).ops = s.ops := rfl
@[simp] theorem State.modDie_parts (s : State) (d : Nat) (f : Die → Die) : (s.modDie d f).parts = s.parts := rfl
@[simp] theorem State.modDie_groupSeq (s : State) (d : Nat) (f : Die → Die) : (s.modDie d f).groupSeq = s.groupSeq := rfl
@[simp] theorem State.modDie_groupRun (s : State) (d : Nat) (f : Die → Die) : (s.modDie d f).groupRun = s.groupRun := rfl
@[simp] theorem State.modDie_requests (s : State) (d : Nat) (f : Die → Die) : (s.modDie d f).requests = s.requests := rfl
@[simp] theorem State.modDie_jobs (s : State) (d : Nat) (f : Die → Die) : (s.modDie d f).jobs = s.jobs := rfl
@[simp] theorem State.modDie_csr (s : State) (d : Nat) (f : Die → Die) : (s.modDie d f).csr = s.csr := rfl
@[simp] theorem State.modDie_routes (s : State) (d : Nat) (f : Die → Die) : (s.modDie d f).routes = s.routes := rfl
@[simp] theorem State.modDie_measured (s : State) (d : Nat) (f : Die → Die) : (s.modDie d f).measured = s.measured := rfl
@[simp] theorem State.modDie_bankUse (s : State) (d : Nat) (f : Die → Die) : (s.modDie d f).bankUse = s.bankUse := rfl
@[simp] theorem State.modDie_drowsy (s : State) (d : Nat) (f : Die → Die) : (s.modDie d f).drowsy = s.drowsy := rfl
@[simp] theorem State.modDie_lastIssued (s : State) (d : Nat) (f : Die → Die) : (s.modDie d f).lastIssued = s.lastIssued := rfl
@[simp] theorem State.modDie_portTurn (s : State) (d : Nat) (f : Die → Die) : (s.modDie d f).portTurn = s.portTurn := rfl
@[simp] theorem State.modDie_hbCount (s : State) (d : Nat) (f : Die → Die) : (s.modDie d f).hbCount = s.hbCount := rfl
@[simp] theorem State.modDie_hbMissed (s : State) (d : Nat) (f : Die → Die) : (s.modDie d f).hbMissed = s.hbMissed := rfl
@[simp] theorem State.modDie_hbSeen (s : State) (d : Nat) (f : Die → Die) : (s.modDie d f).hbSeen = s.hbSeen := rfl
@[simp] theorem State.modDie_hbLast (s : State) (d : Nat) (f : Die → Die) : (s.modDie d f).hbLast = s.hbLast := rfl
@[simp] theorem State.modDie_snapLatch (s : State) (d : Nat) (f : Die → Die) : (s.modDie d f).snapLatch = s.snapLatch := rfl
@[simp] theorem State.modDie_boot (s : State) (d : Nat) (f : Die → Die) : (s.modDie d f).boot = s.boot := rfl
@[simp] theorem State.modDie_outbox (s : State) (d : Nat) (f : Die → Die) : (s.modDie d f).outbox = s.outbox := rfl

/-! ### `State.modOp` -/

@[simp] theorem State.modOp_clock (s : State) (id : Nat) (f : EngineOp → EngineOp) : (s.modOp id f).clock = s.clock := rfl
@[simp] theorem State.modOp_time (s : State) (id : Nat) (f : EngineOp → EngineOp) : (s.modOp id f).time = s.time := rfl
@[simp] theorem State.modOp_inputs (s : State) (id : Nat) (f : EngineOp → EngineOp) : (s.modOp id f).inputs = s.inputs := rfl
@[simp] theorem State.modOp_turn (s : State) (id : Nat) (f : EngineOp → EngineOp) : (s.modOp id f).turn = s.turn := rfl
@[simp] theorem State.modOp_rota (s : State) (id : Nat) (f : EngineOp → EngineOp) : (s.modOp id f).rota = s.rota := rfl
@[simp] theorem State.modOp_met (s : State) (id : Nat) (f : EngineOp → EngineOp) : (s.modOp id f).met = s.met := rfl
@[simp] theorem State.modOp_free (s : State) (id : Nat) (f : EngineOp → EngineOp) : (s.modOp id f).free = s.free := rfl
@[simp] theorem State.modOp_nextId (s : State) (id : Nat) (f : EngineOp → EngineOp) : (s.modOp id f).nextId = s.nextId := rfl
@[simp] theorem State.modOp_issue (s : State) (id : Nat) (f : EngineOp → EngineOp) : (s.modOp id f).issue = s.issue := rfl
@[simp] theorem State.modOp_mem (s : State) (id : Nat) (f : EngineOp → EngineOp) : (s.modOp id f).mem = s.mem := rfl
@[simp] theorem State.modOp_crews (s : State) (id : Nat) (f : EngineOp → EngineOp) : (s.modOp id f).crews = s.crews := rfl
@[simp] theorem State.modOp_parties (s : State) (id : Nat) (f : EngineOp → EngineOp) : (s.modOp id f).parties = s.parties := rfl
@[simp] theorem State.modOp_outings (s : State) (id : Nat) (f : EngineOp → EngineOp) : (s.modOp id f).outings = s.outings := rfl
@[simp] theorem State.modOp_launches (s : State) (id : Nat) (f : EngineOp → EngineOp) : (s.modOp id f).launches = s.launches := rfl
@[simp] theorem State.modOp_tenants (s : State) (id : Nat) (f : EngineOp → EngineOp) : (s.modOp id f).tenants = s.tenants := rfl
@[simp] theorem State.modOp_dies (s : State) (id : Nat) (f : EngineOp → EngineOp) : (s.modOp id f).dies = s.dies := rfl
@[simp] theorem State.modOp_pages (s : State) (id : Nat) (f : EngineOp → EngineOp) : (s.modOp id f).pages = s.pages := rfl
@[simp] theorem State.modOp_caches (s : State) (id : Nat) (f : EngineOp → EngineOp) : (s.modOp id f).caches = s.caches := rfl
@[simp] theorem State.modOp_tables (s : State) (id : Nat) (f : EngineOp → EngineOp) : (s.modOp id f).tables = s.tables := rfl
@[simp] theorem State.modOp_replays (s : State) (id : Nat) (f : EngineOp → EngineOp) : (s.modOp id f).replays = s.replays := rfl
@[simp] theorem State.modOp_stalled (s : State) (id : Nat) (f : EngineOp → EngineOp) : (s.modOp id f).stalled = s.stalled := rfl
@[simp] theorem State.modOp_quarantine (s : State) (id : Nat) (f : EngineOp → EngineOp) : (s.modOp id f).quarantine = s.quarantine := rfl
@[simp] theorem State.modOp_syncs (s : State) (id : Nat) (f : EngineOp → EngineOp) : (s.modOp id f).syncs = s.syncs := rfl
@[simp] theorem State.modOp_parts (s : State) (id : Nat) (f : EngineOp → EngineOp) : (s.modOp id f).parts = s.parts := rfl
@[simp] theorem State.modOp_groupSeq (s : State) (id : Nat) (f : EngineOp → EngineOp) : (s.modOp id f).groupSeq = s.groupSeq := rfl
@[simp] theorem State.modOp_groupRun (s : State) (id : Nat) (f : EngineOp → EngineOp) : (s.modOp id f).groupRun = s.groupRun := rfl
@[simp] theorem State.modOp_requests (s : State) (id : Nat) (f : EngineOp → EngineOp) : (s.modOp id f).requests = s.requests := rfl
@[simp] theorem State.modOp_jobs (s : State) (id : Nat) (f : EngineOp → EngineOp) : (s.modOp id f).jobs = s.jobs := rfl
@[simp] theorem State.modOp_csr (s : State) (id : Nat) (f : EngineOp → EngineOp) : (s.modOp id f).csr = s.csr := rfl
@[simp] theorem State.modOp_routes (s : State) (id : Nat) (f : EngineOp → EngineOp) : (s.modOp id f).routes = s.routes := rfl
@[simp] theorem State.modOp_measured (s : State) (id : Nat) (f : EngineOp → EngineOp) : (s.modOp id f).measured = s.measured := rfl
@[simp] theorem State.modOp_bankUse (s : State) (id : Nat) (f : EngineOp → EngineOp) : (s.modOp id f).bankUse = s.bankUse := rfl
@[simp] theorem State.modOp_drowsy (s : State) (id : Nat) (f : EngineOp → EngineOp) : (s.modOp id f).drowsy = s.drowsy := rfl
@[simp] theorem State.modOp_lastIssued (s : State) (id : Nat) (f : EngineOp → EngineOp) : (s.modOp id f).lastIssued = s.lastIssued := rfl
@[simp] theorem State.modOp_portTurn (s : State) (id : Nat) (f : EngineOp → EngineOp) : (s.modOp id f).portTurn = s.portTurn := rfl
@[simp] theorem State.modOp_hbCount (s : State) (id : Nat) (f : EngineOp → EngineOp) : (s.modOp id f).hbCount = s.hbCount := rfl
@[simp] theorem State.modOp_hbMissed (s : State) (id : Nat) (f : EngineOp → EngineOp) : (s.modOp id f).hbMissed = s.hbMissed := rfl
@[simp] theorem State.modOp_hbSeen (s : State) (id : Nat) (f : EngineOp → EngineOp) : (s.modOp id f).hbSeen = s.hbSeen := rfl
@[simp] theorem State.modOp_hbLast (s : State) (id : Nat) (f : EngineOp → EngineOp) : (s.modOp id f).hbLast = s.hbLast := rfl
@[simp] theorem State.modOp_snapLatch (s : State) (id : Nat) (f : EngineOp → EngineOp) : (s.modOp id f).snapLatch = s.snapLatch := rfl
@[simp] theorem State.modOp_boot (s : State) (id : Nat) (f : EngineOp → EngineOp) : (s.modOp id f).boot = s.boot := rfl
@[simp] theorem State.modOp_outbox (s : State) (id : Nat) (f : EngineOp → EngineOp) : (s.modOp id f).outbox = s.outbox := rfl

/-! ### `State.setJob` -/

@[simp] theorem State.setJob_clock (s : State) (id : Nat) (k : JobKind) : (s.setJob id k).clock = s.clock := rfl
@[simp] theorem State.setJob_time (s : State) (id : Nat) (k : JobKind) : (s.setJob id k).time = s.time := rfl
@[simp] theorem State.setJob_inputs (s : State) (id : Nat) (k : JobKind) : (s.setJob id k).inputs = s.inputs := rfl
@[simp] theorem State.setJob_turn (s : State) (id : Nat) (k : JobKind) : (s.setJob id k).turn = s.turn := rfl
@[simp] theorem State.setJob_rota (s : State) (id : Nat) (k : JobKind) : (s.setJob id k).rota = s.rota := rfl
@[simp] theorem State.setJob_met (s : State) (id : Nat) (k : JobKind) : (s.setJob id k).met = s.met := rfl
@[simp] theorem State.setJob_free (s : State) (id : Nat) (k : JobKind) : (s.setJob id k).free = s.free := rfl
@[simp] theorem State.setJob_nextId (s : State) (id : Nat) (k : JobKind) : (s.setJob id k).nextId = s.nextId := rfl
@[simp] theorem State.setJob_issue (s : State) (id : Nat) (k : JobKind) : (s.setJob id k).issue = s.issue := rfl
@[simp] theorem State.setJob_mem (s : State) (id : Nat) (k : JobKind) : (s.setJob id k).mem = s.mem := rfl
@[simp] theorem State.setJob_crews (s : State) (id : Nat) (k : JobKind) : (s.setJob id k).crews = s.crews := rfl
@[simp] theorem State.setJob_parties (s : State) (id : Nat) (k : JobKind) : (s.setJob id k).parties = s.parties := rfl
@[simp] theorem State.setJob_outings (s : State) (id : Nat) (k : JobKind) : (s.setJob id k).outings = s.outings := rfl
@[simp] theorem State.setJob_launches (s : State) (id : Nat) (k : JobKind) : (s.setJob id k).launches = s.launches := rfl
@[simp] theorem State.setJob_tenants (s : State) (id : Nat) (k : JobKind) : (s.setJob id k).tenants = s.tenants := rfl
@[simp] theorem State.setJob_dies (s : State) (id : Nat) (k : JobKind) : (s.setJob id k).dies = s.dies := rfl
@[simp] theorem State.setJob_pages (s : State) (id : Nat) (k : JobKind) : (s.setJob id k).pages = s.pages := rfl
@[simp] theorem State.setJob_caches (s : State) (id : Nat) (k : JobKind) : (s.setJob id k).caches = s.caches := rfl
@[simp] theorem State.setJob_tables (s : State) (id : Nat) (k : JobKind) : (s.setJob id k).tables = s.tables := rfl
@[simp] theorem State.setJob_replays (s : State) (id : Nat) (k : JobKind) : (s.setJob id k).replays = s.replays := rfl
@[simp] theorem State.setJob_stalled (s : State) (id : Nat) (k : JobKind) : (s.setJob id k).stalled = s.stalled := rfl
@[simp] theorem State.setJob_quarantine (s : State) (id : Nat) (k : JobKind) : (s.setJob id k).quarantine = s.quarantine := rfl
@[simp] theorem State.setJob_syncs (s : State) (id : Nat) (k : JobKind) : (s.setJob id k).syncs = s.syncs := rfl
@[simp] theorem State.setJob_ops (s : State) (id : Nat) (k : JobKind) : (s.setJob id k).ops = s.ops := rfl
@[simp] theorem State.setJob_parts (s : State) (id : Nat) (k : JobKind) : (s.setJob id k).parts = s.parts := rfl
@[simp] theorem State.setJob_groupSeq (s : State) (id : Nat) (k : JobKind) : (s.setJob id k).groupSeq = s.groupSeq := rfl
@[simp] theorem State.setJob_groupRun (s : State) (id : Nat) (k : JobKind) : (s.setJob id k).groupRun = s.groupRun := rfl
@[simp] theorem State.setJob_requests (s : State) (id : Nat) (k : JobKind) : (s.setJob id k).requests = s.requests := rfl
@[simp] theorem State.setJob_csr (s : State) (id : Nat) (k : JobKind) : (s.setJob id k).csr = s.csr := rfl
@[simp] theorem State.setJob_routes (s : State) (id : Nat) (k : JobKind) : (s.setJob id k).routes = s.routes := rfl
@[simp] theorem State.setJob_measured (s : State) (id : Nat) (k : JobKind) : (s.setJob id k).measured = s.measured := rfl
@[simp] theorem State.setJob_bankUse (s : State) (id : Nat) (k : JobKind) : (s.setJob id k).bankUse = s.bankUse := rfl
@[simp] theorem State.setJob_drowsy (s : State) (id : Nat) (k : JobKind) : (s.setJob id k).drowsy = s.drowsy := rfl
@[simp] theorem State.setJob_lastIssued (s : State) (id : Nat) (k : JobKind) : (s.setJob id k).lastIssued = s.lastIssued := rfl
@[simp] theorem State.setJob_portTurn (s : State) (id : Nat) (k : JobKind) : (s.setJob id k).portTurn = s.portTurn := rfl
@[simp] theorem State.setJob_hbCount (s : State) (id : Nat) (k : JobKind) : (s.setJob id k).hbCount = s.hbCount := rfl
@[simp] theorem State.setJob_hbMissed (s : State) (id : Nat) (k : JobKind) : (s.setJob id k).hbMissed = s.hbMissed := rfl
@[simp] theorem State.setJob_hbSeen (s : State) (id : Nat) (k : JobKind) : (s.setJob id k).hbSeen = s.hbSeen := rfl
@[simp] theorem State.setJob_hbLast (s : State) (id : Nat) (k : JobKind) : (s.setJob id k).hbLast = s.hbLast := rfl
@[simp] theorem State.setJob_snapLatch (s : State) (id : Nat) (k : JobKind) : (s.setJob id k).snapLatch = s.snapLatch := rfl
@[simp] theorem State.setJob_boot (s : State) (id : Nat) (k : JobKind) : (s.setJob id k).boot = s.boot := rfl
@[simp] theorem State.setJob_outbox (s : State) (id : Nat) (k : JobKind) : (s.setJob id k).outbox = s.outbox := rfl

/-! ### `State.memWrite` -/

@[simp] theorem State.memWrite_clock (s : State) (a : Nat) (bs : List Byte) : (s.memWrite a bs).clock = s.clock := rfl
@[simp] theorem State.memWrite_time (s : State) (a : Nat) (bs : List Byte) : (s.memWrite a bs).time = s.time := rfl
@[simp] theorem State.memWrite_inputs (s : State) (a : Nat) (bs : List Byte) : (s.memWrite a bs).inputs = s.inputs := rfl
@[simp] theorem State.memWrite_turn (s : State) (a : Nat) (bs : List Byte) : (s.memWrite a bs).turn = s.turn := rfl
@[simp] theorem State.memWrite_rota (s : State) (a : Nat) (bs : List Byte) : (s.memWrite a bs).rota = s.rota := rfl
@[simp] theorem State.memWrite_met (s : State) (a : Nat) (bs : List Byte) : (s.memWrite a bs).met = s.met := rfl
@[simp] theorem State.memWrite_free (s : State) (a : Nat) (bs : List Byte) : (s.memWrite a bs).free = s.free := rfl
@[simp] theorem State.memWrite_nextId (s : State) (a : Nat) (bs : List Byte) : (s.memWrite a bs).nextId = s.nextId := rfl
@[simp] theorem State.memWrite_issue (s : State) (a : Nat) (bs : List Byte) : (s.memWrite a bs).issue = s.issue := rfl
@[simp] theorem State.memWrite_crews (s : State) (a : Nat) (bs : List Byte) : (s.memWrite a bs).crews = s.crews := rfl
@[simp] theorem State.memWrite_parties (s : State) (a : Nat) (bs : List Byte) : (s.memWrite a bs).parties = s.parties := rfl
@[simp] theorem State.memWrite_outings (s : State) (a : Nat) (bs : List Byte) : (s.memWrite a bs).outings = s.outings := rfl
@[simp] theorem State.memWrite_launches (s : State) (a : Nat) (bs : List Byte) : (s.memWrite a bs).launches = s.launches := rfl
@[simp] theorem State.memWrite_tenants (s : State) (a : Nat) (bs : List Byte) : (s.memWrite a bs).tenants = s.tenants := rfl
@[simp] theorem State.memWrite_dies (s : State) (a : Nat) (bs : List Byte) : (s.memWrite a bs).dies = s.dies := rfl
@[simp] theorem State.memWrite_pages (s : State) (a : Nat) (bs : List Byte) : (s.memWrite a bs).pages = s.pages := rfl
@[simp] theorem State.memWrite_caches (s : State) (a : Nat) (bs : List Byte) : (s.memWrite a bs).caches = s.caches := rfl
@[simp] theorem State.memWrite_tables (s : State) (a : Nat) (bs : List Byte) : (s.memWrite a bs).tables = s.tables := rfl
@[simp] theorem State.memWrite_replays (s : State) (a : Nat) (bs : List Byte) : (s.memWrite a bs).replays = s.replays := rfl
@[simp] theorem State.memWrite_stalled (s : State) (a : Nat) (bs : List Byte) : (s.memWrite a bs).stalled = s.stalled := rfl
@[simp] theorem State.memWrite_quarantine (s : State) (a : Nat) (bs : List Byte) : (s.memWrite a bs).quarantine = s.quarantine := rfl
@[simp] theorem State.memWrite_syncs (s : State) (a : Nat) (bs : List Byte) : (s.memWrite a bs).syncs = s.syncs := rfl
@[simp] theorem State.memWrite_ops (s : State) (a : Nat) (bs : List Byte) : (s.memWrite a bs).ops = s.ops := rfl
@[simp] theorem State.memWrite_parts (s : State) (a : Nat) (bs : List Byte) : (s.memWrite a bs).parts = s.parts := rfl
@[simp] theorem State.memWrite_groupSeq (s : State) (a : Nat) (bs : List Byte) : (s.memWrite a bs).groupSeq = s.groupSeq := rfl
@[simp] theorem State.memWrite_groupRun (s : State) (a : Nat) (bs : List Byte) : (s.memWrite a bs).groupRun = s.groupRun := rfl
@[simp] theorem State.memWrite_requests (s : State) (a : Nat) (bs : List Byte) : (s.memWrite a bs).requests = s.requests := rfl
@[simp] theorem State.memWrite_jobs (s : State) (a : Nat) (bs : List Byte) : (s.memWrite a bs).jobs = s.jobs := rfl
@[simp] theorem State.memWrite_csr (s : State) (a : Nat) (bs : List Byte) : (s.memWrite a bs).csr = s.csr := rfl
@[simp] theorem State.memWrite_routes (s : State) (a : Nat) (bs : List Byte) : (s.memWrite a bs).routes = s.routes := rfl
@[simp] theorem State.memWrite_measured (s : State) (a : Nat) (bs : List Byte) : (s.memWrite a bs).measured = s.measured := rfl
@[simp] theorem State.memWrite_bankUse (s : State) (a : Nat) (bs : List Byte) : (s.memWrite a bs).bankUse = s.bankUse := rfl
@[simp] theorem State.memWrite_drowsy (s : State) (a : Nat) (bs : List Byte) : (s.memWrite a bs).drowsy = s.drowsy := rfl
@[simp] theorem State.memWrite_lastIssued (s : State) (a : Nat) (bs : List Byte) : (s.memWrite a bs).lastIssued = s.lastIssued := rfl
@[simp] theorem State.memWrite_portTurn (s : State) (a : Nat) (bs : List Byte) : (s.memWrite a bs).portTurn = s.portTurn := rfl
@[simp] theorem State.memWrite_hbCount (s : State) (a : Nat) (bs : List Byte) : (s.memWrite a bs).hbCount = s.hbCount := rfl
@[simp] theorem State.memWrite_hbMissed (s : State) (a : Nat) (bs : List Byte) : (s.memWrite a bs).hbMissed = s.hbMissed := rfl
@[simp] theorem State.memWrite_hbSeen (s : State) (a : Nat) (bs : List Byte) : (s.memWrite a bs).hbSeen = s.hbSeen := rfl
@[simp] theorem State.memWrite_hbLast (s : State) (a : Nat) (bs : List Byte) : (s.memWrite a bs).hbLast = s.hbLast := rfl
@[simp] theorem State.memWrite_snapLatch (s : State) (a : Nat) (bs : List Byte) : (s.memWrite a bs).snapLatch = s.snapLatch := rfl
@[simp] theorem State.memWrite_boot (s : State) (a : Nat) (bs : List Byte) : (s.memWrite a bs).boot = s.boot := rfl
@[simp] theorem State.memWrite_outbox (s : State) (a : Nat) (bs : List Byte) : (s.memWrite a bs).outbox = s.outbox := rfl

/-! ### `State.memZero` -/

@[simp] theorem State.memZero_clock (s : State) (a n : Nat) : (s.memZero a n).clock = s.clock := rfl
@[simp] theorem State.memZero_time (s : State) (a n : Nat) : (s.memZero a n).time = s.time := rfl
@[simp] theorem State.memZero_inputs (s : State) (a n : Nat) : (s.memZero a n).inputs = s.inputs := rfl
@[simp] theorem State.memZero_turn (s : State) (a n : Nat) : (s.memZero a n).turn = s.turn := rfl
@[simp] theorem State.memZero_rota (s : State) (a n : Nat) : (s.memZero a n).rota = s.rota := rfl
@[simp] theorem State.memZero_met (s : State) (a n : Nat) : (s.memZero a n).met = s.met := rfl
@[simp] theorem State.memZero_free (s : State) (a n : Nat) : (s.memZero a n).free = s.free := rfl
@[simp] theorem State.memZero_nextId (s : State) (a n : Nat) : (s.memZero a n).nextId = s.nextId := rfl
@[simp] theorem State.memZero_issue (s : State) (a n : Nat) : (s.memZero a n).issue = s.issue := rfl
@[simp] theorem State.memZero_crews (s : State) (a n : Nat) : (s.memZero a n).crews = s.crews := rfl
@[simp] theorem State.memZero_parties (s : State) (a n : Nat) : (s.memZero a n).parties = s.parties := rfl
@[simp] theorem State.memZero_outings (s : State) (a n : Nat) : (s.memZero a n).outings = s.outings := rfl
@[simp] theorem State.memZero_launches (s : State) (a n : Nat) : (s.memZero a n).launches = s.launches := rfl
@[simp] theorem State.memZero_tenants (s : State) (a n : Nat) : (s.memZero a n).tenants = s.tenants := rfl
@[simp] theorem State.memZero_dies (s : State) (a n : Nat) : (s.memZero a n).dies = s.dies := rfl
@[simp] theorem State.memZero_pages (s : State) (a n : Nat) : (s.memZero a n).pages = s.pages := rfl
@[simp] theorem State.memZero_caches (s : State) (a n : Nat) : (s.memZero a n).caches = s.caches := rfl
@[simp] theorem State.memZero_tables (s : State) (a n : Nat) : (s.memZero a n).tables = s.tables := rfl
@[simp] theorem State.memZero_replays (s : State) (a n : Nat) : (s.memZero a n).replays = s.replays := rfl
@[simp] theorem State.memZero_stalled (s : State) (a n : Nat) : (s.memZero a n).stalled = s.stalled := rfl
@[simp] theorem State.memZero_quarantine (s : State) (a n : Nat) : (s.memZero a n).quarantine = s.quarantine := rfl
@[simp] theorem State.memZero_syncs (s : State) (a n : Nat) : (s.memZero a n).syncs = s.syncs := rfl
@[simp] theorem State.memZero_ops (s : State) (a n : Nat) : (s.memZero a n).ops = s.ops := rfl
@[simp] theorem State.memZero_parts (s : State) (a n : Nat) : (s.memZero a n).parts = s.parts := rfl
@[simp] theorem State.memZero_groupSeq (s : State) (a n : Nat) : (s.memZero a n).groupSeq = s.groupSeq := rfl
@[simp] theorem State.memZero_groupRun (s : State) (a n : Nat) : (s.memZero a n).groupRun = s.groupRun := rfl
@[simp] theorem State.memZero_requests (s : State) (a n : Nat) : (s.memZero a n).requests = s.requests := rfl
@[simp] theorem State.memZero_jobs (s : State) (a n : Nat) : (s.memZero a n).jobs = s.jobs := rfl
@[simp] theorem State.memZero_csr (s : State) (a n : Nat) : (s.memZero a n).csr = s.csr := rfl
@[simp] theorem State.memZero_routes (s : State) (a n : Nat) : (s.memZero a n).routes = s.routes := rfl
@[simp] theorem State.memZero_measured (s : State) (a n : Nat) : (s.memZero a n).measured = s.measured := rfl
@[simp] theorem State.memZero_bankUse (s : State) (a n : Nat) : (s.memZero a n).bankUse = s.bankUse := rfl
@[simp] theorem State.memZero_drowsy (s : State) (a n : Nat) : (s.memZero a n).drowsy = s.drowsy := rfl
@[simp] theorem State.memZero_lastIssued (s : State) (a n : Nat) : (s.memZero a n).lastIssued = s.lastIssued := rfl
@[simp] theorem State.memZero_portTurn (s : State) (a n : Nat) : (s.memZero a n).portTurn = s.portTurn := rfl
@[simp] theorem State.memZero_hbCount (s : State) (a n : Nat) : (s.memZero a n).hbCount = s.hbCount := rfl
@[simp] theorem State.memZero_hbMissed (s : State) (a n : Nat) : (s.memZero a n).hbMissed = s.hbMissed := rfl
@[simp] theorem State.memZero_hbSeen (s : State) (a n : Nat) : (s.memZero a n).hbSeen = s.hbSeen := rfl
@[simp] theorem State.memZero_hbLast (s : State) (a n : Nat) : (s.memZero a n).hbLast = s.hbLast := rfl
@[simp] theorem State.memZero_snapLatch (s : State) (a n : Nat) : (s.memZero a n).snapLatch = s.snapLatch := rfl
@[simp] theorem State.memZero_boot (s : State) (a n : Nat) : (s.memZero a n).boot = s.boot := rfl
@[simp] theorem State.memZero_outbox (s : State) (a n : Nat) : (s.memZero a n).outbox = s.outbox := rfl

/-! ### `State.send` -/

@[simp] theorem State.send_clock (s : State) (m : Msg) : (s.send m).clock = s.clock := rfl
@[simp] theorem State.send_time (s : State) (m : Msg) : (s.send m).time = s.time := rfl
@[simp] theorem State.send_inputs (s : State) (m : Msg) : (s.send m).inputs = s.inputs := rfl
@[simp] theorem State.send_turn (s : State) (m : Msg) : (s.send m).turn = s.turn := rfl
@[simp] theorem State.send_rota (s : State) (m : Msg) : (s.send m).rota = s.rota := rfl
@[simp] theorem State.send_met (s : State) (m : Msg) : (s.send m).met = s.met := rfl
@[simp] theorem State.send_free (s : State) (m : Msg) : (s.send m).free = s.free := rfl
@[simp] theorem State.send_nextId (s : State) (m : Msg) : (s.send m).nextId = s.nextId := rfl
@[simp] theorem State.send_issue (s : State) (m : Msg) : (s.send m).issue = s.issue := rfl
@[simp] theorem State.send_mem (s : State) (m : Msg) : (s.send m).mem = s.mem := rfl
@[simp] theorem State.send_crews (s : State) (m : Msg) : (s.send m).crews = s.crews := rfl
@[simp] theorem State.send_parties (s : State) (m : Msg) : (s.send m).parties = s.parties := rfl
@[simp] theorem State.send_outings (s : State) (m : Msg) : (s.send m).outings = s.outings := rfl
@[simp] theorem State.send_launches (s : State) (m : Msg) : (s.send m).launches = s.launches := rfl
@[simp] theorem State.send_tenants (s : State) (m : Msg) : (s.send m).tenants = s.tenants := rfl
@[simp] theorem State.send_dies (s : State) (m : Msg) : (s.send m).dies = s.dies := rfl
@[simp] theorem State.send_pages (s : State) (m : Msg) : (s.send m).pages = s.pages := rfl
@[simp] theorem State.send_caches (s : State) (m : Msg) : (s.send m).caches = s.caches := rfl
@[simp] theorem State.send_tables (s : State) (m : Msg) : (s.send m).tables = s.tables := rfl
@[simp] theorem State.send_replays (s : State) (m : Msg) : (s.send m).replays = s.replays := rfl
@[simp] theorem State.send_stalled (s : State) (m : Msg) : (s.send m).stalled = s.stalled := rfl
@[simp] theorem State.send_quarantine (s : State) (m : Msg) : (s.send m).quarantine = s.quarantine := rfl
@[simp] theorem State.send_syncs (s : State) (m : Msg) : (s.send m).syncs = s.syncs := rfl
@[simp] theorem State.send_ops (s : State) (m : Msg) : (s.send m).ops = s.ops := rfl
@[simp] theorem State.send_parts (s : State) (m : Msg) : (s.send m).parts = s.parts := rfl
@[simp] theorem State.send_groupSeq (s : State) (m : Msg) : (s.send m).groupSeq = s.groupSeq := rfl
@[simp] theorem State.send_groupRun (s : State) (m : Msg) : (s.send m).groupRun = s.groupRun := rfl
@[simp] theorem State.send_requests (s : State) (m : Msg) : (s.send m).requests = s.requests := rfl
@[simp] theorem State.send_jobs (s : State) (m : Msg) : (s.send m).jobs = s.jobs := rfl
@[simp] theorem State.send_csr (s : State) (m : Msg) : (s.send m).csr = s.csr := rfl
@[simp] theorem State.send_routes (s : State) (m : Msg) : (s.send m).routes = s.routes := rfl
@[simp] theorem State.send_measured (s : State) (m : Msg) : (s.send m).measured = s.measured := rfl
@[simp] theorem State.send_bankUse (s : State) (m : Msg) : (s.send m).bankUse = s.bankUse := rfl
@[simp] theorem State.send_drowsy (s : State) (m : Msg) : (s.send m).drowsy = s.drowsy := rfl
@[simp] theorem State.send_lastIssued (s : State) (m : Msg) : (s.send m).lastIssued = s.lastIssued := rfl
@[simp] theorem State.send_portTurn (s : State) (m : Msg) : (s.send m).portTurn = s.portTurn := rfl
@[simp] theorem State.send_hbCount (s : State) (m : Msg) : (s.send m).hbCount = s.hbCount := rfl
@[simp] theorem State.send_hbMissed (s : State) (m : Msg) : (s.send m).hbMissed = s.hbMissed := rfl
@[simp] theorem State.send_hbSeen (s : State) (m : Msg) : (s.send m).hbSeen = s.hbSeen := rfl
@[simp] theorem State.send_hbLast (s : State) (m : Msg) : (s.send m).hbLast = s.hbLast := rfl
@[simp] theorem State.send_snapLatch (s : State) (m : Msg) : (s.send m).snapLatch = s.snapLatch := rfl
@[simp] theorem State.send_boot (s : State) (m : Msg) : (s.send m).boot = s.boot := rfl

/-! ### Pairs -/

@[simp] theorem State.fresh_fst (s : State) : s.fresh.1 = { s with nextId := s.nextId + 1 } := rfl
@[simp] theorem State.fresh_snd (s : State) : s.fresh.2 = s.nextId := rfl
@[simp] theorem State.freeVal_fst (s : State) : s.freeVal.1 = { s with free := s.free + 1 } := rfl
@[simp] theorem State.freeVal_snd (s : State) : s.freeVal.2 = Config.freeValue s.free := rfl

/-! ### Lookups after an update -/

theorem State.aget_setCrew (s : State) (k : Nat) (c : Crew) (j : Nat) :
    aget (s.setCrew k c).crews j = if j = k then (aget s.crews k).map fun _ => c else aget s.crews j :=
  aget_amod s.crews k (fun _ => c) j

theorem State.crew_of_aget {s : State} {k : Nat} {c : Crew} (h : aget s.crews k = some c) : s.crew k = c := by
  simp [State.crew, h]

theorem State.aget_modCrew (s : State) (k : Nat) (f : Crew → Crew) (j : Nat) :
    aget (s.modCrew k f).crews j = if j = k then (aget s.crews k).map f else aget s.crews j := by
  rw [State.modCrew, State.aget_setCrew]
  cases h : aget s.crews k with
  | none => simp
  | some c => simp [State.crew_of_aget h]

theorem State.modCrew_of_aget {s : State} {k : Nat} {c : Crew} (h : aget s.crews k = some c) (f : Crew → Crew) :
    s.modCrew k f = s.setCrew k (f c) := by rw [State.modCrew, State.crew_of_aget h]

theorem State.setCrew_setCrew (s : State) (k : Nat) (c c' : Crew) : (s.setCrew k c).setCrew k c' = s.setCrew k c' := by
  simp only [State.setCrew, amod_amod]

theorem State.crew_setCrew {s : State} {k : Nat} {c : Crew} (h : aget s.crews k = some c) (c' : Crew) :
    (s.setCrew k c').crew k = c' := by simp [State.crew, State.aget_setCrew, h]

theorem State.crew_modCrew {s : State} {k : Nat} {c : Crew} (h : aget s.crews k = some c) (f : Crew → Crew) :
    (s.modCrew k f).crew k = f c := by simp [State.crew, State.aget_modCrew, h]

theorem State.crew_modCrew_of_ne (s : State) {k j : Nat} (f : Crew → Crew) (h : j ≠ k) :
    (s.modCrew k f).crew j = s.crew j := by simp [State.crew, State.aget_modCrew, h]

theorem State.crew_setCrew_of_ne (s : State) {k j : Nat} (c : Crew) (h : j ≠ k) :
    (s.setCrew k c).crew j = s.crew j := by simp [State.crew, State.aget_setCrew, h]

/-- Two changes of one crew that exists are one. -/
theorem State.modCrew_modCrew {s : State} {k : Nat} {c : Crew} (h : aget s.crews k = some c) (f g : Crew → Crew) :
    (s.modCrew k f).modCrew k g = s.modCrew k fun c => g (f c) := by
  rw [State.modCrew, State.crew_modCrew h, State.modCrew, State.setCrew_setCrew, State.modCrew, State.crew_of_aget h]

theorem State.tenant_modTenant (s : State) (t : Nat) (f : Tenant → Tenant) (u : Nat) :
    (s.modTenant t f).tenant u = if u = t then f (s.tenant t) else s.tenant u := by
  simp only [State.tenant, State.modTenant, aget_aset]
  by_cases h : u = t <;> simp [h]

theorem State.page_modPage (s : State) (pfn : Nat) (f : PageRec → PageRec) (q : Nat) :
    (s.modPage pfn f).page q = if q = pfn then f (s.page pfn) else s.page q := by
  simp only [State.page, State.modPage, aget_aset]
  by_cases h : q = pfn <;> simp [h]

theorem State.party_modParty {s : State} {p : Nat} {x : Party} (h : aget s.parties p = some x) (f : Party → Party) :
    (s.modParty p f).party p = f x := by simp [State.party, State.modParty, aget_amod, h]

theorem State.party_modParty_of_ne (s : State) {p q : Nat} (f : Party → Party) (h : q ≠ p) :
    (s.modParty p f).party q = s.party q := by simp [State.party, State.modParty, aget_amod, h]

theorem State.launchRec_modLaunch {s : State} {l : Nat} {x : Launch} (h : aget s.launches l = some x) (f : Launch → Launch) :
    (s.modLaunch l f).launchRec l = f x := by simp [State.launchRec, State.modLaunch, aget_amod, h]

theorem State.die_modDie (s : State) (d : Nat) (f : Die → Die) (e : Nat) :
    (s.modDie d f).die e = if e = d ∧ e < s.dies.length then f (s.die e) else s.die e := lmod_getD _ _ _ _ _

end Sys2Proof.Machine
end

