-- ==== Sys2Proof/Laws/Crew.lean ====
section
/-! SUPPORT. The small lemmas of a crew: its registers after a write, its slices after an advance, and the lanes of slices. -/

namespace Sys2Proof.Machine

/-! ### Slices and lanes -/

theorem Issue.slices_lt {iss : Issue} {i : Nat} (h : i ∈ iss.slices) : i < 8 := by
  simp [Issue.slices, slices8] at h; exact h.1

theorem Issue.slices_nodup (iss : Issue) : iss.slices.Nodup := List.Nodup.filter _ List.nodup_range

theorem mem_sliceLanes {i l : Nat} : l ∈ sliceLanes i ↔ l / 4 = i := by
  simp [sliceLanes]; omega

theorem mem_activeOf {c : Crew} {i l : Nat} : l ∈ c.activeOf i ↔ l / 4 = i ∧ c.active l = true := by
  simp [Crew.activeOf, mem_sliceLanes]

theorem mem_activeIn {c : Crew} {is : List Nat} {l : Nat} : l ∈ c.activeIn is ↔ l / 4 ∈ is ∧ c.active l = true := by
  simp [Crew.activeIn, mem_activeOf]

theorem active_lt {c : Crew} {l : Nat} (h : c.active l = true) : l < 32 := by
  by_contra hl
  simp [Crew.active, mbit, BitVec.getLsbD_of_ge c.exec l (by omega)] at h

theorem activeOf_nodup (c : Crew) (i : Nat) : (c.activeOf i).Nodup := by
  unfold Crew.activeOf
  refine List.Nodup.filter _ ?_
  simp [sliceLanes]

/-! ### Registers -/

@[simp] theorem Crew.sreg_setSreg_self (c : Crew) (r : Nat) (v : DWord) : (c.setSreg r v).sreg r = v := by
  simp [Crew.sreg, Crew.setSreg]

theorem Crew.sreg_setSreg_of_ne (c : Crew) {r q : Nat} (v : DWord) (h : q ≠ r) : (c.setSreg r v).sreg q = c.sreg q := by
  simp [Crew.sreg, Crew.setSreg, sget_sset_of_ne _ _ h]

theorem Crew.vreg_setVreg (c : Crew) (r l : Nat) (v : Word) (q m : Nat) (hl : l < 32) (hm : m < 32) :
    (c.setVreg r l v).vreg q m = if q = r ∧ m = l then v else c.vreg q m := by
  simp only [Crew.vreg, Crew.setVreg, sget_sset]
  by_cases h : q = r ∧ m = l
  · simp [h]
  · rw [if_neg (by omega), if_neg h]

@[simp] theorem Crew.vreg_setSreg (c : Crew) (r : Nat) (v : DWord) (q l : Nat) : (c.setSreg r v).vreg q l = c.vreg q l := rfl

theorem Crew.ofs_setOfs (c : Crew) (x l v y m : Nat) (hl : l < 32) (hm : m < 32) :
    (c.setOfs x l v).ofs y m = if y = x ∧ m = l then v % 512 else c.ofs y m := by
  simp only [Crew.ofs, Crew.setOfs, sget_sset]
  by_cases h : y = x ∧ m = l
  · simp [h]
  · rw [if_neg (by omega), if_neg h]

/-! ### Slices after a change -/

theorem Crew.slice_modSlice (c : Crew) (i : Nat) (f : Slice → Slice) (j : Nat) :
    (c.modSlice i f).slice j = if j = i ∧ j < c.slices.length then f (c.slice j) else c.slice j := lmod_getD _ _ _ _ _

@[simp] theorem Crew.slices_length_modSlice (c : Crew) (i : Nat) (f : Slice → Slice) :
    (c.modSlice i f).slices.length = c.slices.length := lmod_length _ _ _

theorem Crew.modSlices_cons (c : Crew) (i : Nat) (is : List Nat) (f : Slice → Slice) :
    c.modSlices (i :: is) f = (c.modSlice i f).modSlices is f := rfl

@[simp] theorem Crew.slices_length_modSlices (c : Crew) (is : List Nat) (f : Slice → Slice) :
    (c.modSlices is f).slices.length = c.slices.length := by
  induction is generalizing c with
  | nil => rfl
  | cons i is ih => rw [Crew.modSlices_cons, ih, Crew.slices_length_modSlice]

theorem Crew.slice_modSlices (c : Crew) (is : List Nat) (f : Slice → Slice) (hn : is.Nodup) (j : Nat) :
    (c.modSlices is f).slice j = if j ∈ is ∧ j < c.slices.length then f (c.slice j) else c.slice j := by
  induction is generalizing c with
  | nil => simp [Crew.modSlices]
  | cons i is ih =>
    rw [Crew.modSlices_cons, ih _ (List.nodup_cons.1 hn).2, Crew.slices_length_modSlice, Crew.slice_modSlice]
    have hi := (List.nodup_cons.1 hn).1
    by_cases hj : j = i
    · subst hj; simp [hi]
    · simp [hj]

/-- A change of slices leaves every other field of the crew alone. -/
theorem Crew.modSlices_eq (c : Crew) (is : List Nat) (f : Slice → Slice) :
    c.modSlices is f = { c with slices := (c.modSlices is f).slices } := by
  induction is generalizing c with
  | nil => rfl
  | cons i is ih => rw [Crew.modSlices_cons, ih]; rfl

theorem Crew.advance_eq (c : Crew) (is : List Nat) (len : Nat) :
    c.advance is len = { c with slices := (c.advance is len).slices } := Crew.modSlices_eq _ _ _

/-- An advance moves its slices past the instruction. -/
theorem Crew.moved_advance (c : Crew) {is : List Nat} (hn : is.Nodup) (len : Nat) : c.Moved (c.advance is len) is len :=
  fun i => Crew.slice_modSlices c is _ hn i

end Sys2Proof.Machine
end

