-- ==== Sys2Proof/Laws/Commit.lean ====
section
/-! SUPPORT. What a computing instruction does, said once: the reading of its constant, the commit of a vector instruction and of
a uniform one. -/

namespace Sys2Proof.Machine

/-! ### withIssue and withKonst -/

theorem withIssue_of {s : State} {iss : Issue} (h : s.issue = some iss) (f : State → Issue → State) :
    withIssue s f = .next (f s.taken iss) := by simp [withIssue, h, State.taken]

theorem withKonst_of {s s1 : State} {iss : Issue} {k : BitVec 1} {b : BitVec 7} {kc : Option Konst}
    (h : s.ReadsConst iss k b s1 kc) (go : State → Option Konst → State) : withKonst s.taken iss k b go = go s1 kc := by
  have hc : s.taken.crew iss.crew = s.crew iss.crew := rfl
  rcases h with ⟨hk, rfl, rfl⟩ | ⟨hk, hp, rfl, rfl⟩ | ⟨hk, hp, bs, hf, rfl⟩
  · simp [withKonst, hk]
  · have hk' : ¬ k = 0#1 := hk
    simp [withKonst, hk', hc, hp]
  · simp only [withKonst, hc, hp, Bool.not_true, Bool.false_eq_true, if_false, -Nat.reducePow]
    rw [hf]
    exact if_neg hk

/-! ### Writes of a vector destination -/

/-- `vput` on the register file alone. -/
def vputV (c : Crew) (o : VOp) (l : Nat) (ws : List Word) (v : Sparse 32) : Sparse 32 :=
  (ws.zipIdx).foldl (fun v e => sset v (c.phys o l e.2 * 32 + l) e.1) v

theorem vput_eq (c r : Crew) (o : VOp) (l : Nat) (ws : List Word) :
    c.vput r o l ws = { r with vregs := vputV c o l ws r.vregs } := by
  unfold Crew.vput vputV
  generalize ws.zipIdx = z
  induction z generalizing r with
  | nil => rfl
  | cons e z ih => simp only [List.foldl_cons]; rw [ih]; rfl

theorem sget_vputV (c : Crew) (o : VOp) (l : Nat) (ws : List Word) (v : Sparse 32) (hl : l < 32) :
    (∀ q m, m < 32 → (m = l → ∀ j, j < ws.length → c.phys o l j ≠ q) →
        sget (vputV c o l ws v) (q * 32 + m) = sget v (q * 32 + m))
      ∧ ∀ j, j < ws.length → (∀ n, j < n → n < ws.length → c.phys o l n ≠ c.phys o l j) →
          sget (vputV c o l ws v) (c.phys o l j * 32 + l) = ws.getD j 0 := by
  suffices h : ∀ (ws : List Word) (k : Nat) (v : Sparse 32),
      (∀ q m, m < 32 → (m = l → ∀ j, j < ws.length → c.phys o l (k + j) ≠ q) →
          sget ((ws.zipIdx k).foldl (fun v e => sset v (c.phys o l e.2 * 32 + l) e.1) v) (q * 32 + m) = sget v (q * 32 + m))
        ∧ ∀ j, j < ws.length → (∀ n, j < n → n < ws.length → c.phys o l (k + n) ≠ c.phys o l (k + j)) →
            sget ((ws.zipIdx k).foldl (fun v e => sset v (c.phys o l e.2 * 32 + l) e.1) v) (c.phys o l (k + j) * 32 + l)
              = ws.getD j 0 by
    simpa [vputV] using h ws 0 v
  intro ws
  induction ws with
  | nil => intro k v; simp
  | cons w ws ih =>
    intro k v
    simp only [List.zipIdx_cons, List.foldl_cons]
    obtain ⟨h1, h2⟩ := ih (k + 1) (sset v (c.phys o l k * 32 + l) w)
    refine ⟨fun q m hm hq => ?_, fun j hj hlast => ?_⟩
    · rw [h1 q m hm fun e j hj => by
        have := hq e (j + 1) (by simpa using hj)
        rwa [show k + (j + 1) = k + 1 + j by omega] at this]
      refine sget_sset_of_ne _ _ fun he => ?_
      have hml : m = l := by omega
      exact hq hml 0 (by simp) (by simp; omega)
    · cases j with
      | zero =>
        rw [show k + 0 = k from rfl, h1 (c.phys o l k) l hl fun _ j hj => by
          have := hlast (j + 1) (by omega) (by simpa using hj)
          rwa [show k + (j + 1) = k + 1 + j by omega] at this]
        simp
      | succ j =>
        have := h2 j (by simpa using hj) fun n hn hlen => by
          have := hlast (n + 1) (by omega) (by simpa using hlen)
          rwa [show k + (n + 1) = k + 1 + n by omega, show k + (j + 1) = k + 1 + j by omega] at this
        rw [show k + (j + 1) = k + 1 + j by omega, this]
        simp

/-- Writes in each of some lanes. -/
theorem sget_lanes (c : Crew) (o : VOp) (ws : Nat → List Word) (lanes : List Nat) (hn : lanes.Nodup) (v : Sparse 32)
    (h32 : ∀ l ∈ lanes, l < 32) :
    let v' := lanes.foldl (fun v l => vputV c o l (ws l) v) v
    (∀ q m, m < 32 → (m ∈ lanes → ∀ j, j < (ws m).length → c.phys o m j ≠ q) → sget v' (q * 32 + m) = sget v (q * 32 + m))
      ∧ ∀ l ∈ lanes, ∀ j, j < (ws l).length → (∀ n, j < n → n < (ws l).length → c.phys o l n ≠ c.phys o l j) →
          sget v' (c.phys o l j * 32 + l) = (ws l).getD j 0 := by
  induction lanes generalizing v with
  | nil => simp
  | cons l lanes ih =>
    obtain ⟨hl, hn⟩ := List.nodup_cons.1 hn
    obtain ⟨h1, h2⟩ := ih hn (vputV c o l (ws l) v) fun x hx => h32 x (List.mem_cons_of_mem _ hx)
    obtain ⟨g1, g2⟩ := sget_vputV c o l (ws l) v (h32 l (by simp))
    simp only [List.foldl_cons]
    refine ⟨fun q m hm hq => ?_, fun k hk j hj hlast => ?_⟩
    · rw [h1 q m hm fun hmem => hq (List.mem_cons_of_mem _ hmem)]
      exact g1 q m hm fun e => e ▸ hq (by simp [e])
    · rcases List.mem_cons.1 hk with rfl | hk
      · rw [h1 _ _ (h32 k (by simp)) fun hmem => absurd hmem hl]
        exact g2 j hj hlast
      · exact h2 k hk j hj hlast

/-! ### The advance of index registers -/

/-- `setOfs` on the offsets alone. -/
def advanceX (u : Sparse 64) (x l : Nat) (v : Sparse 9) : Sparse 9 :=
  sset v (x * 32 + l) (BitVec.ofNat 9 (nextOfs (sget u x) (sget v (x * 32 + l)).toNat))

/-- The index registers that an instruction advances. -/
def postRegs (u : Sparse 64) (ops : List VOp) : List Nat :=
  (List.range 8).filter fun x => ops.any (fun o => o.index == some x) && xPost (sget u x)

theorem postAdvance_eq (c : Crew) (lanes : List Nat) (ops : List VOp) :
    c.postAdvance lanes ops =
      { c with xofs := (postRegs c.xuni ops).foldl (fun v x => lanes.foldl (fun v l => advanceX c.xuni x l v) v) c.xofs } := by
  have inner (x : Nat) : ∀ (lanes : List Nat) (r : Crew), r.xuni = c.xuni →
      lanes.foldl (fun c l => c.setOfs x l (nextOfs (c.xreg x) (c.ofs x l))) r =
        { r with xofs := lanes.foldl (fun v l => advanceX c.xuni x l v) r.xofs } := by
    intro lanes
    induction lanes with
    | nil => intro r _; rfl
    | cons l lanes ih =>
      intro r hr
      simp only [List.foldl_cons]
      rw [ih _ (by simpa [Crew.setOfs] using hr)]
      simp only [Crew.setOfs, advanceX, Crew.xreg, Crew.ofs, hr]
  unfold Crew.postAdvance
  change (postRegs c.xuni ops).foldl _ c = _
  generalize postRegs c.xuni ops = xs
  suffices h : ∀ (r : Crew), r.xuni = c.xuni →
      xs.foldl (fun c x => lanes.foldl (fun c l => c.setOfs x l (nextOfs (c.xreg x) (c.ofs x l))) c) r =
        { r with xofs := xs.foldl (fun v x => lanes.foldl (fun v l => advanceX c.xuni x l v) v) r.xofs } from h c rfl
  induction xs with
  | nil => intro r _; rfl
  | cons x xs ih =>
    intro r hr
    simp only [List.foldl_cons]
    rw [inner x lanes r hr, ih _ (by simpa using hr)]

theorem sget_advanceX (u : Sparse 64) (x l : Nat) (v : Sparse 9) (y m : Nat) (hl : l < 32) (hm : m < 32) :
    (sget (advanceX u x l v) (y * 32 + m)).toNat =
      if y = x ∧ m = l then nextOfs (sget u x) (sget v (x * 32 + l)).toNat % 512 else (sget v (y * 32 + m)).toNat := by
  unfold advanceX
  rw [sget_sset]
  by_cases h : y = x ∧ m = l
  · obtain ⟨rfl, rfl⟩ := h; simp
  · rw [if_neg (by omega), if_neg h]

theorem sget_advanceLanes (u : Sparse 64) (x : Nat) (lanes : List Nat) (hn : lanes.Nodup) (v : Sparse 9)
    (h32 : ∀ l ∈ lanes, l < 32) (y m : Nat) (hm : m < 32) :
    (sget (lanes.foldl (fun v l => advanceX u x l v) v) (y * 32 + m)).toNat =
      if y = x ∧ m ∈ lanes then nextOfs (sget u x) (sget v (x * 32 + m)).toNat % 512 else (sget v (y * 32 + m)).toNat := by
  induction lanes generalizing v with
  | nil => simp
  | cons l lanes ih =>
    obtain ⟨hl, hn⟩ := List.nodup_cons.1 hn
    have hl32 := h32 l (by simp)
    rw [List.foldl_cons, ih hn _ fun k hk => h32 k (List.mem_cons_of_mem _ hk),
      sget_advanceX u x l v x m hl32 hm, sget_advanceX u x l v y m hl32 hm]
    by_cases hy : y = x
    · subst hy
      by_cases hml : m = l
      · subst hml; simp [hl]
      · simp [hml]
    · simp [hy]

theorem sget_advanceRegs (u : Sparse 64) (xs : List Nat) (hx : xs.Nodup) (lanes : List Nat) (hn : lanes.Nodup)
    (h32 : ∀ l ∈ lanes, l < 32) (v : Sparse 9) (y m : Nat) (hm : m < 32) :
    (sget (xs.foldl (fun v x => lanes.foldl (fun v l => advanceX u x l v) v) v) (y * 32 + m)).toNat =
      if y ∈ xs ∧ m ∈ lanes then nextOfs (sget u y) (sget v (y * 32 + m)).toNat % 512 else (sget v (y * 32 + m)).toNat := by
  induction xs generalizing v with
  | nil => simp
  | cons x xs ih =>
    obtain ⟨hx', hxs⟩ := List.nodup_cons.1 hx
    rw [List.foldl_cons, ih hxs, sget_advanceLanes u x lanes hn v h32 y m hm]
    by_cases hy : y = x
    · subst hy; simp [hx']
    · simp [hy]

theorem postRegs_nodup (u : Sparse 64) (ops : List VOp) : (postRegs u ops).Nodup := List.Nodup.filter _ List.nodup_range

theorem mem_postRegs {u : Sparse 64} {ops : List VOp} {x : Nat} :
    x ∈ postRegs u ops ↔ x < 8 ∧ ops.any (fun o => o.index == some x) = true ∧ xPost (sget u x) = true := by
  simp only [postRegs, List.mem_filter, List.mem_range, Bool.and_eq_true]

/-! ### The slices of a gang -/

/-- An advance on the slices alone. -/
def advSlices (sl : List Slice) (is : List Nat) (len : Nat) : List Slice :=
  is.foldl (fun sl i => lmod sl i fun x => { x with pc := x.pc + BitVec.ofNat 64 len, wait := .none }) sl

theorem advance_slices (c : Crew) (is : List Nat) (len : Nat) :
    c.advance is len = { c with slices := advSlices c.slices is len } := by
  unfold Crew.advance Crew.modSlices advSlices
  induction is generalizing c with
  | nil => rfl
  | cons i is ih => simp only [List.foldl_cons]; rw [ih]; rfl

theorem moved_advSlices (c : Crew) {is : List Nat} (hn : is.Nodup) (len : Nat) (c' : Crew)
    (h : c'.slices = advSlices c.slices is len) : c.Moved c' is len := by
  intro i
  have := c.moved_advance hn len i
  rw [advance_slices] at this
  rw [← this]
  simp [Crew.slice, h]

/-- The flags that lanes raise, from flags already there. -/
theorem foldl_or (lanes : List Nat) (fl : Nat → BitVec 5) (a : BitVec 5) :
    lanes.foldl (fun f l => f ||| fl l) a = a ||| raised lanes fl := by
  unfold raised
  induction lanes generalizing a with
  | nil => simp
  | cons l lanes ih => rw [List.foldl_cons, ih, List.foldl_cons, ih (0 ||| fl l)]; simp [BitVec.or_assoc]

theorem raised_append (a b : List Nat) (fl : Nat → BitVec 5) : raised (a ++ b) fl = raised a fl ||| raised b fl := by
  conv_lhs => unfold raised
  rw [List.foldl_append, foldl_or, foldl_or]
  simp

/-- No flag that a list of lanes raises is enabled. -/
theorem raised_quiet {lanes : List Nat} {fl : Nat → BitVec 5} {ten : BitVec 5} :
    raised lanes fl &&& ten = 0 ↔ ∀ l ∈ lanes, fl l &&& ten = 0 := by
  induction lanes with
  | nil => simp [raised]
  | cons l lanes ih =>
    have h : raised (l :: lanes) fl = fl l ||| raised lanes fl := by simpa [raised] using raised_append [l] lanes fl
    rw [h]
    have hd : (fl l ||| raised lanes fl) &&& ten = (fl l &&& ten) ||| (raised lanes fl &&& ten) := by
      ext i; simp [Bool.and_or_distrib_right]
    have hz : ∀ a b : BitVec 5, a ||| b = 0 ↔ a = 0 ∧ b = 0 := by decide
    rw [hd, hz, ih]
    simp

/-- The results of a slice's active lanes. -/
def laneOuts (c : Crew) (body : Nat → LaneOut) (i : Nat) : List (Nat × LaneOut) := (c.activeOf i).map fun l => (l, body l)

theorem sliceRun_ok {c : Crew} {ops : List VOp} {body : Nat → LaneOut} {i : Nat} (hn : c.nameFault i ops = none)
    (hq : ∀ l ∈ c.activeOf i, (body l).fl &&& c.ten = 0) : sliceRun c ops body i = .ok (laneOuts c body i) := by
  have h : ((c.activeOf i).map fun l => (l, body l)).foldl (fun f o => f ||| o.2.fl) 0 = raised (c.activeOf i) fun l => (body l).fl := by
    rw [List.foldl_map]; rfl
  unfold sliceRun
  rw [hn]
  simp only [h]
  rw [raised_quiet.2 hq]
  simp [laneOuts]

/-- The offsets after the slices of a gang have committed. -/
def advanceAll (c : Crew) (ops : List VOp) (is : List Nat) (v : Sparse 9) : Sparse 9 :=
  is.foldl (fun v i => (postRegs c.xuni ops).foldl (fun v x => (c.activeOf i).foldl (fun v l => advanceX c.xuni x l v) v) v) v

theorem offsets_advanceAll (c : Crew) (ops : List VOp) (is : List Nat) (hn : is.Nodup) (v : Sparse 9) (y m : Nat)
    (hm : m < 32) :
    (sget (advanceAll c ops is v) (y * 32 + m)).toNat =
      if y ∈ postRegs c.xuni ops ∧ m ∈ c.activeIn is then
        nextOfs (sget c.xuni y) (sget v (y * 32 + m)).toNat % 512
      else (sget v (y * 32 + m)).toNat := by
  unfold advanceAll
  induction is generalizing v with
  | nil => simp [Crew.activeIn]
  | cons i is ih =>
    obtain ⟨hi, hn⟩ := List.nodup_cons.1 hn
    rw [List.foldl_cons, ih hn, sget_advanceRegs c.xuni _ (postRegs_nodup _ _) _ (activeOf_nodup c i)
      (fun l hl => active_lt (mem_activeOf.1 hl).2) v y m hm]
    by_cases hy : y ∈ postRegs c.xuni ops
    · by_cases h1 : m ∈ c.activeIn is
      · have h2 : m ∉ c.activeOf i := fun h => hi ((mem_activeOf.1 h).1 ▸ (mem_activeIn.1 h1).1)
        have h3 : m ∈ c.activeIn (i :: is) := by
          rw [mem_activeIn] at h1 ⊢; exact ⟨List.mem_cons_of_mem _ h1.1, h1.2⟩
        simp [hy, h1, h2, h3]
      · by_cases h2 : m ∈ c.activeOf i
        · have h3 : m ∈ c.activeIn (i :: is) := by
            rw [mem_activeIn]; rw [mem_activeOf] at h2; exact ⟨by simp [h2.1], h2.2⟩
          simp [hy, h1, h2, h3]
        · have h3 : m ∉ c.activeIn (i :: is) := by
            intro h
            rw [mem_activeIn, List.mem_cons] at h
            rcases h.1 with h' | h'
            · exact h2 (mem_activeOf.2 ⟨h', h.2⟩)
            · exact h1 (mem_activeIn.2 ⟨h', h.2⟩)
          simp [h1, h2, h3]
    · simp [hy]

/-! ### vecInstr -/

/-- The crew after the slices of a list have committed to a vector destination. -/
theorem commit_vec (c : Crew) (o : VOp) (ops : List VOp) (body : Nat → LaneOut) (len : Nat) (is : List Nat) (r : Crew)
    (hr : r.xuni = c.xuni) :
    is.foldl (fun r i => (sliceCommit c (some o) none ops i (laneOuts c body i) r).advance [i] len) r =
      { r with
        vregs := (c.activeIn is).foldl (fun v l => vputV c o l (body l).regs v) r.vregs
        flags := r.flags ||| raised (c.activeIn is) fun l => (body l).fl
        xofs := advanceAll c ops is r.xofs
        slices := advSlices r.slices is len } := by
  induction is generalizing r with
  | nil => simp [Crew.activeIn, raised, advanceAll, advSlices]
  | cons i is ih =>
    have hputs : ∀ (lanes : List Nat) (r : Crew),
        (lanes.map fun l => (l, body l)).foldl (fun r lo => c.vput r o lo.1 lo.2.regs) r =
          { r with vregs := lanes.foldl (fun v l => vputV c o l (body l).regs v) r.vregs } := by
      intro lanes
      induction lanes with
      | nil => intro r; rfl
      | cons l lanes ihl => intro r; simp only [List.map_cons, List.foldl_cons]; rw [vput_eq, ihl]
    have hfl : (laneOuts c body i).foldl (fun f o => f ||| o.2.fl) 0 = raised (c.activeOf i) fun l => (body l).fl := by
      rw [laneOuts, List.foldl_map]; rfl
    have hlanes : (laneOuts c body i).map (·.1) = c.activeOf i := by
      simp [laneOuts, List.map_map, Function.comp_def]
    have hone : (sliceCommit c (some o) none ops i (laneOuts c body i) r).advance [i] len =
        { r with
          vregs := (c.activeOf i).foldl (fun v l => vputV c o l (body l).regs v) r.vregs
          flags := r.flags ||| raised (c.activeOf i) fun l => (body l).fl
          xofs := advanceAll c ops [i] r.xofs
          slices := advSlices r.slices [i] len } := by
      rw [advance_slices]
      simp only [sliceCommit, hfl, hlanes]
      rw [laneOuts, hputs, postAdvance_eq]
      simp only [hr, advanceAll, List.foldl_cons, List.foldl_nil]
    rw [List.foldl_cons, hone, ih _ (by simpa using hr)]
    have hin : c.activeIn (i :: is) = c.activeOf i ++ c.activeIn is := by simp [Crew.activeIn]
    rw [hin, List.foldl_append, raised_append]
    simp [advanceAll, advSlices, BitVec.or_assoc]

/-- A gang whose slices all pass their checks commits them all: the next state differs in the crew alone. -/
theorem vecInstr_ok {s : State} {iss : Issue} {c : Crew} (h : aget s.crews iss.crew = some c) (d : Option VOp) (p : Option Nat)
    (ops : List VOp) (body : Crew → Nat → LaneOut) (hn : c.NamesOk iss ops)
    (hq : ∀ l ∈ c.activeIn iss.slices, (body c l).fl &&& c.ten = 0) :
    vecInstr s iss d p ops body = s.setCrew iss.crew
      (iss.slices.foldl (fun r i => (sliceCommit c d p ops i (laneOuts c (body c) i) r).advance [i] iss.len) c) := by
  have hruns : (iss.slices.map fun i => (i, sliceRun c ops (body c) i)) =
      iss.slices.map fun i => (i, SliceOut.ok (laneOuts c (body c) i)) := by
    refine List.map_congr_left fun i hi => ?_
    rw [sliceRun_ok (hn i hi) fun l hl => hq l ?_]
    rw [mem_activeIn]; rw [mem_activeOf] at hl
    exact ⟨hl.1 ▸ hi, hl.2⟩
  unfold vecInstr
  simp only [State.crew_of_aget h, hruns, List.foldl_map]
  have hid : ∀ (l : List Nat) (x : State), l.foldl (fun s _ => s) x = x := by
    intro l; induction l <;> simp_all
  exact hid _ _

/-- What a vector instruction with a vector destination does, said once. -/
theorem vecInstr_written {s : State} {iss : Issue} {c : Crew} (h : aget s.crews iss.crew = some c) (o : VOp)
    (ops : List VOp) (body : Crew → Nat → LaneOut) (hn : c.NamesOk iss ops)
    (hq : ∀ l ∈ c.activeIn iss.slices, (body c l).fl &&& c.ten = 0) :
    ∃ c', vecInstr s iss (some o) none ops body = s.setCrew iss.crew c'
      ∧ c.VecWritten c' (c.activeIn iss.slices) o (fun l => (body c l).regs)
      ∧ c'.flags = c.flags ||| raised (c.activeIn iss.slices) (fun l => (body c l).fl)
      ∧ c.OffsetsMoved c' (c.activeIn iss.slices) ops ∧ c.Moved c' iss.slices iss.len ∧ c.SameButVec c' := by
  have hnd : (c.activeIn iss.slices).Nodup := by
    unfold Crew.activeIn
    refine List.nodup_flatMap.2 ⟨fun i _ => activeOf_nodup c i, ?_⟩
    refine (Issue.slices_nodup iss).imp ?_
    intro a b hab l ha hb
    exact hab ((mem_activeOf.1 ha).1.symm.trans (mem_activeOf.1 hb).1)
  have h32 : ∀ l ∈ c.activeIn iss.slices, l < 32 := fun l hl => active_lt (mem_activeIn.1 hl).2
  refine ⟨_, vecInstr_ok h _ _ _ _ hn hq, ?_⟩
  rw [commit_vec c o ops (body c) iss.len iss.slices c rfl]
  obtain ⟨h1, h2⟩ := sget_lanes c o (fun l => (body c l).regs) _ hnd c.vregs h32
  refine ⟨⟨fun l hl j hj hlast => h2 l hl j hj hlast, fun r l hl hr => h1 r l hl hr⟩, rfl, ?_, ?_, rfl⟩
  · intro x l hx hl
    have := offsets_advanceAll c ops iss.slices (Issue.slices_nodup iss) c.xofs x l hl
    simp only [Crew.ofs, Crew.xreg]
    rw [this]
    by_cases hc : l ∈ c.activeIn iss.slices <;>
      by_cases hp : x ∈ postRegs c.xuni ops
    · rw [mem_postRegs] at hp; simp [hc, mem_postRegs, hp]
    · rw [mem_postRegs] at hp; simp only [hc, mem_postRegs, hx, true_and, and_true]
    · simp [hc]
    · simp [hc]
  · exact moved_advSlices c (Issue.slices_nodup iss) iss.len _ rfl

/-! ### uniInstr -/

/-- A uniform instruction that raises no enabled flag. -/
theorem uniInstr_ok {s : State} {iss : Issue} {c : Crew} (h : aget s.crews iss.crew = some c) (body : Crew → Crew × BitVec 5)
    (hq : (body c).2 &&& c.ten = 0) :
    uniInstr s iss body = s.setCrew iss.crew
      ({ (body c).1 with flags := (body c).1.flags ||| (body c).2 }.advance iss.slices iss.len) := by
  unfold uniInstr
  simp only [State.crew_of_aget h]
  rw [hq]
  simp

theorem uniPlain_ok {s : State} {iss : Issue} {c : Crew} (h : aget s.crews iss.crew = some c) (body : Crew → Crew) :
    uniPlain s iss body = s.setCrew iss.crew ((body c).advance iss.slices iss.len) := by
  unfold uniPlain
  rw [uniInstr_ok h _ (by simp)]
  simp

/-- A uniform instruction that writes one uniform register. -/
theorem uniInstr_sreg {s : State} {iss : Issue} {c : Crew} (h : aget s.crews iss.crew = some c) (d : Nat) (v : Crew → DWord)
    (fl : Crew → BitVec 5) (hq : fl c &&& c.ten = 0) :
    ∃ c', (uniInstr s iss fun c => (c.setSreg d (v c), fl c)) = s.setCrew iss.crew c' ∧ c'.sreg d = v c
      ∧ (∀ q, q ≠ d → c'.sreg q = c.sreg q) ∧ c'.flags = c.flags ||| fl c ∧ c.Moved c' iss.slices iss.len
      ∧ c.SameButUni c' := by
  refine ⟨_, uniInstr_ok h _ hq, ?_⟩
  rw [advance_slices]
  refine ⟨by simp [Crew.sreg, Crew.setSreg], fun q hq' => by simp [Crew.sreg, Crew.setSreg, sget_sset_of_ne _ _ hq'], rfl,
    moved_advSlices c (Issue.slices_nodup iss) iss.len _ rfl, rfl⟩

/-! ### Instructions of format A that compute -/

theorem onlyCrew_of {i : Instr} {s s1 : State} {k : Nat} {c' : Crew} (h : exec i s = .next (s1.setCrew k c')) :
    OnlyCrew i s s1 k c' := ⟨_, h, rfl, fun _ => rfl⟩

/-- An instruction whose meaning is `aluInstr` computes what its function says. -/
theorem computes_of_alu {mk : FmtA → Instr} {td ts : FmtA → Ty} {useA useB : Bool}
    {third : FmtA → Option (BitVec 7 × Nat)} {rel : FmtA → Nat → Nat → Nat → FRes → Prop}
    (fn : FmtA → Nat → Nat → Nat → FRes)
    (h : ∀ f s, exec (mk f) s = withIssue s fun s iss => aluInstr s iss f (td f) (ts f) useA useB (third f) (fn f))
    (hr : ∀ f x y z, rel f x y z (fn f x y z)) : Computes mk td ts useA useB third rel := by
  intro f s s1 iss c kc hi hk hc
  have hx : ∀ t, aluInstr s.taken iss f (td f) (ts f) useA useB (third f) (fn f) = t → exec (mk f) s = .next t := by
    intro t ht; rw [h, withIssue_of hi, ht]
  unfold aluInstr at hx
  rw [withKonst_of hk] at hx
  refine ⟨fun hcl hn => ⟨_, fun l => hr f _ _ _, fun hq => ?_⟩, fun hcl => ⟨_, hr f _ _ _, fun hq => ?_⟩⟩
  · have hv : dVec f.cl = true := by simpa [dVec] using hcl
    obtain ⟨c', h1, h2, h3, h4, h5, h6⟩ := vecInstr_written hc (destOp f (td f))
      ([destOp f (td f)] ++ vopsOf [sourceA f useA (ts f), sourceB f useB (ts f) kc, sourceC f (third f) (ts f)])
      (fun c l => outNat (td f).regs (fn f ((sourceA f useA (ts f)).read c (ts f) l)
        ((sourceB f useB (ts f) kc).read c (ts f) l) ((sourceC f (third f) (ts f)).read c (ts f) l)))
      hn hq
    refine ⟨c', onlyCrew_of (hx _ ?_), h2, h3, h4, h5, h6⟩
    rw [if_pos hv]
    rw [← h1]
    simp only [sourceA, sourceB, sourceC, destOp]; try rfl
  · have hv : dVec f.cl = false := by simp [dVec, hcl]
    obtain ⟨c', h1, h2, h3, h4, h5, h6⟩ := uniInstr_sreg hc f.d.toNat
      (fun c => BitVec.ofNat 64 ((fn f ((sourceA f useA (ts f)).read c (ts f) 0) ((sourceB f useB (ts f) kc).read c (ts f) 0)
        ((sourceC f (third f) (ts f)).read c (ts f) 0)).code % 2 ^ (td f).width))
      (fun c => (fn f ((sourceA f useA (ts f)).read c (ts f) 0) ((sourceB f useB (ts f) kc).read c (ts f) 0)
        ((sourceC f (third f) (ts f)).read c (ts f) 0)).fl) hq
    refine ⟨c', onlyCrew_of (hx _ ?_), h2, h3, h4, h5, h6⟩
    rw [if_neg (by simp [hv]), ← h1]
    simp only [sourceA, sourceB, sourceC]; try rfl

/-! ### Destination predicates -/

theorem mbit_maskOf (w n : Nat) (g : Nat → Bool) (l : Nat) (hl : l < w) :
    mbit (maskOf w n g) l = (decide (l < n) && g l) := by
  unfold mbit maskOf
  suffices h : ∀ (is : List Nat) (m : BitVec w),
      (is.foldl (fun m i => if g i then m ||| BitVec.ofNat w (2 ^ i) else m) m).getLsbD l =
        (m.getLsbD l || (is.contains l && g l)) by
    rw [h]; simp [List.mem_range]
  intro is
  induction is with
  | nil => intro m; simp
  | cons i is ih =>
    intro m
    rw [List.foldl_cons, ih]
    by_cases hg : g i
    · simp only [hg, if_true, BitVec.getLsbD_or, BitVec.getLsbD_ofNat, Nat.testBit_two_pow, hl, decide_true, Bool.true_and]
      by_cases hil : i = l
      · subst hil; simp [hg]
      · have hli : ¬ l = i := fun h => hil h.symm
        simp [hil, hli]
    · by_cases hil : i = l
      · subst hil; simp [hg]
      · have hli : ¬ l = i := fun h => hil h.symm
        simp [hg, hli]

theorem mbit_sliceMask (i l : Nat) (hl : l < 32) : mbit (sliceMask i) l = decide (l / 4 = i) := by
  by_cases hi : i < 8
  · revert l; revert i; decide
  · have h : sliceMask i = 0 := by
      apply BitVec.eq_of_toNat_eq
      simp only [sliceMask, BitVec.toNat_ofNat]
      obtain ⟨j, rfl⟩ := Nat.exists_eq_add_of_le (Nat.le_of_not_lt hi)
      rw [show 4 * (8 + j) = 32 + 4 * j by omega, Nat.pow_add]
      rw [show 15 * (2 ^ 32 * 2 ^ (4 * j)) = 2 ^ 32 * (15 * 2 ^ (4 * j)) by ring]
      simp
    rw [h]
    have : ¬ l / 4 = i := by omega
    simp [mbit, this]

theorem mbit_slicesMask (is : List Nat) (l : Nat) (hl : l < 32) : mbit (slicesMask is) l = is.contains (l / 4) := by
  unfold slicesMask
  suffices h : ∀ m : BitVec 32, mbit (is.foldl (fun m i => m ||| sliceMask i) m) l = (mbit m l || is.contains (l / 4)) by
    rw [h]; simp [mbit]
  induction is with
  | nil => intro m; simp
  | cons i is ih =>
    intro m
    rw [List.foldl_cons, ih]
    have h1 : mbit (m ||| sliceMask i) l = (mbit m l || decide (l / 4 = i)) := by
      rw [← mbit_sliceMask i l hl]; simp [mbit]
    rw [h1, List.contains_cons, Bool.or_assoc]
    congr 1

/-- The bits of a predicate field after a write under a mask; the other fields keep theirs. -/
theorem Crew.mbit_setPred (c : Crew) (n : Nat) (mask v : BitVec 32) (l : Nat) :
    mbit ((c.setPred n mask v).pred n) l =
      ((if mbit mask l then mbit v l else mbit (c.pred n) l) && (n != 16 || (mbit c.live l && !mbit c.off l))) := by
  by_cases hl : l < 32
  · by_cases hn : n = 16
    · subst hn
      simp only [Crew.setPred, if_true, Crew.pred, Crew.writeExec, mbit, BitVec.getLsbD_and, BitVec.getLsbD_or,
        BitVec.getLsbD_not, hl, decide_true, Bool.true_and]
      cases mask.getLsbD l <;> cases v.getLsbD l <;> cases c.exec.getLsbD l <;> cases c.live.getLsbD l <;>
        cases c.off.getLsbD l <;> rfl
    · have h16 : (n != 16) = true := by simpa using hn
      simp only [Crew.setPred, hn, if_false, Crew.pred, sget_sset_self, mbit, BitVec.getLsbD_and, BitVec.getLsbD_or,
        BitVec.getLsbD_not, hl, decide_true, Bool.true_and, h16, Bool.true_or, Bool.and_true]
      cases mask.getLsbD l <;> cases v.getLsbD l <;> simp
  · have h0 : ∀ x : BitVec 32, mbit x l = false := fun x => BitVec.getLsbD_of_ge x l (Nat.le_of_not_lt hl)
    simp [h0]

theorem Crew.pred_setPred_of_ne (c : Crew) {n q : Nat} (mask v : BitVec 32) (h : q ≠ n) :
    (c.setPred n mask v).pred q = c.pred q := by
  unfold Crew.setPred
  by_cases hn : n = 16
  · subst hn; simp [Crew.pred, Crew.writeExec, h]
  · by_cases hq : q = 16
    · simp [hn, hq, Crew.pred]
    · simp [hn, hq, Crew.pred, sget_sset_of_ne _ _ h]

/-- A predicate write leaves the rest of the crew alone. -/
theorem Crew.setPred_eq (c : Crew) (n : Nat) (mask v : BitVec 32) :
    c.setPred n mask v = { c with preds := (c.setPred n mask v).preds, exec := (c.setPred n mask v).exec } := by
  unfold Crew.setPred Crew.writeExec
  by_cases hn : n = 16 <;> simp [hn]

/-- The predicate bits that a slice of a gang writes. -/
def predBits (c : Crew) (body : Nat → LaneOut) (i : Nat) : BitVec 32 :=
  maskOf 32 32 fun l => (laneOuts c body i).any fun o => o.1 = l && o.2.bit

theorem mbit_predBits (c : Crew) (body : Nat → LaneOut) (i l : Nat) (hl : l < 32) (hi : l / 4 = i) :
    mbit (predBits c body i) l = (c.active l && (body l).bit) := by
  unfold predBits
  rw [mbit_maskOf _ _ _ _ hl]
  simp only [hl, decide_true, Bool.true_and, laneOuts, List.any_map, Function.comp_def]
  by_cases ha : c.active l
  · have hm : l ∈ c.activeOf i := mem_activeOf.2 ⟨hi, ha⟩
    by_cases hb : (body l).bit
    · simp only [ha, hb, Bool.and_true]
      rw [List.any_eq_true]
      exact ⟨l, hm, by simp [hb]⟩
    · simp only [ha, hb, Bool.and_false, List.any_eq_false]
      intro x _
      by_cases hx : x = l
      · subst hx; simp [hb]
      · simp [hx]
  · simp only [ha, Bool.false_and, List.any_eq_false]
    intro x hx
    have : x ≠ l := fun h => ha (h ▸ (mem_activeOf.1 hx).2)
    simp [this]

/-- The predicate writes of a gang's slices. -/
def predsAll (c : Crew) (n : Nat) (body : Nat → LaneOut) (is : List Nat) (r : Crew) : Crew :=
  is.foldl (fun r i => r.setPred n (sliceMask i) (predBits c body i)) r

theorem predsAll_with (c : Crew) (n : Nat) (body : Nat → LaneOut) (is : List Nat) (r : Crew) (fl : BitVec 5) (x : Sparse 9)
    (sl : List Slice) :
    predsAll c n body is { r with flags := fl, xofs := x, slices := sl } =
      { predsAll c n body is r with flags := fl, xofs := x, slices := sl } := by
  unfold predsAll
  induction is generalizing r with
  | nil => rfl
  | cons i is ih =>
    simp only [List.foldl_cons]
    rw [← ih]
    congr 1
    unfold Crew.setPred
    by_cases hn : n = 16 <;> simp [hn, Crew.pred, Crew.writeExec]

theorem predsAll_live (c : Crew) (n : Nat) (body : Nat → LaneOut) (is : List Nat) (r : Crew) :
    predsAll c n body is r =
      { r with preds := (predsAll c n body is r).preds, exec := (predsAll c n body is r).exec } := by
  unfold predsAll
  induction is generalizing r with
  | nil => rfl
  | cons i is ih => rw [List.foldl_cons, ih, Crew.setPred_eq]

theorem mbit_predsAll (c : Crew) (n : Nat) (body : Nat → LaneOut) (is : List Nat) (r : Crew) (l : Nat) (hl : l < 32) :
    mbit ((predsAll c n body is r).pred n) l =
      (if l / 4 ∈ is then c.active l && (body l).bit && (n != 16 || (mbit r.live l && !mbit r.off l))
       else mbit (r.pred n) l && (is.isEmpty || n != 16 || (mbit r.live l && !mbit r.off l))) := by
  induction is generalizing r with
  | nil => simp [predsAll]
  | cons i is ih =>
    have hstep : predsAll c n body (i :: is) r =
        predsAll c n body is (r.setPred n (sliceMask i) (predBits c body i)) := rfl
    have hlive : (r.setPred n (sliceMask i) (predBits c body i)).live = r.live := by rw [Crew.setPred_eq]
    have hoff : (r.setPred n (sliceMask i) (predBits c body i)).off = r.off := by rw [Crew.setPred_eq]
    rw [hstep, ih, hlive, hoff, Crew.mbit_setPred, mbit_sliceMask i l hl]
    by_cases h1 : l / 4 ∈ is
    · simp [h1]
    · by_cases h2 : l / 4 = i
      · rw [mbit_predBits c body i l hl h2]
        simp only [h2, decide_true, if_true, List.mem_cons, true_or]
        subst h2
        simp only [h1, if_false]
        cases n != 16 <;> cases mbit r.live l <;> cases mbit r.off l <;> simp
      · simp only [h1, h2, decide_false, if_false, List.mem_cons, or_self, List.isEmpty_cons, Bool.false_or]
        cases n != 16 <;> cases mbit r.live l <;> cases mbit r.off l <;> simp

theorem pred_predsAll_of_ne (c : Crew) {n q : Nat} (body : Nat → LaneOut) (is : List Nat) (r : Crew) (h : q ≠ n) :
    (predsAll c n body is r).pred q = r.pred q := by
  unfold predsAll
  induction is generalizing r with
  | nil => rfl
  | cons i is ih => rw [List.foldl_cons, ih, Crew.pred_setPred_of_ne _ _ _ h]

/-- The crew after the slices of a list have committed to a predicate. -/
theorem commit_pred (c : Crew) (n : Nat) (ops : List VOp) (body : Nat → LaneOut) (len : Nat) (is : List Nat) (r : Crew)
    (hr : r.xuni = c.xuni) :
    is.foldl (fun r i => (sliceCommit c none (some n) ops i (laneOuts c body i) r).advance [i] len) r =
      { predsAll c n body is r with
        flags := r.flags ||| raised (c.activeIn is) fun l => (body l).fl
        xofs := advanceAll c ops is r.xofs
        slices := advSlices r.slices is len } := by
  induction is generalizing r with
  | nil => simp [Crew.activeIn, raised, advanceAll, advSlices, predsAll]
  | cons i is ih =>
    have hfl : (laneOuts c body i).foldl (fun f o => f ||| o.2.fl) 0 = raised (c.activeOf i) fun l => (body l).fl := by
      rw [laneOuts, List.foldl_map]; rfl
    have hlanes : (laneOuts c body i).map (·.1) = c.activeOf i := by
      simp [laneOuts, List.map_map, Function.comp_def]
    have hone : (sliceCommit c none (some n) ops i (laneOuts c body i) r).advance [i] len =
        { r.setPred n (sliceMask i) (predBits c body i) with
          flags := r.flags ||| raised (c.activeOf i) fun l => (body l).fl
          xofs := advanceAll c ops [i] r.xofs
          slices := advSlices r.slices [i] len } := by
      rw [advance_slices]
      simp only [sliceCommit, hfl, hlanes]
      have hb : (maskOf 32 32 fun l => (laneOuts c body i).any fun o => decide (o.1 = l) && o.2.bit) = predBits c body i := rfl
      rw [hb]
      have hset : ({ r with flags := r.flags ||| raised (c.activeOf i) fun l => (body l).fl } : Crew).setPred n (sliceMask i)
          (predBits c body i) =
          { r.setPred n (sliceMask i) (predBits c body i) with
            flags := r.flags ||| raised (c.activeOf i) fun l => (body l).fl } := by
        unfold Crew.setPred
        by_cases hn : n = 16 <;> simp [hn, Crew.pred, Crew.writeExec]
      rw [hset, postAdvance_eq]
      have hx : (r.setPred n (sliceMask i) (predBits c body i)).xuni = c.xuni := by rw [Crew.setPred_eq]; exact hr
      have ho : (r.setPred n (sliceMask i) (predBits c body i)).xofs = r.xofs := by rw [Crew.setPred_eq]
      have hs : (r.setPred n (sliceMask i) (predBits c body i)).slices = r.slices := by rw [Crew.setPred_eq]
      simp only [hx, ho, hs, advanceAll, List.foldl_cons, List.foldl_nil]
    rw [List.foldl_cons, hone, ih _ (by show (r.setPred n _ _).xuni = _; rw [Crew.setPred_eq]; exact hr), predsAll_with]
    have hin : c.activeIn (i :: is) = c.activeOf i ++ c.activeIn is := by simp [Crew.activeIn]
    rw [hin, raised_append]
    simp [advanceAll, advSlices, BitVec.or_assoc, predsAll]

/-- What a vector instruction with a destination predicate does, said once. -/
theorem vecInstr_pred {s : State} {iss : Issue} {c : Crew} (h : aget s.crews iss.crew = some c) (n : Nat)
    (ops : List VOp) (body : Crew → Nat → LaneOut) (hn : c.NamesOk iss ops)
    (hq : ∀ l ∈ c.activeIn iss.slices, (body c l).fl &&& c.ten = 0) :
    ∃ c', vecInstr s iss none (some n) ops body = s.setCrew iss.crew c'
      ∧ (∀ l, l < 32 → l / 4 ∈ iss.slices → mbit (c'.pred n) l =
          (c.active l && (body c l).bit && (n != 16 || (mbit c.live l && !mbit c.off l))))
      ∧ (∀ l, l < 32 → l / 4 ∉ iss.slices → (n = 16 → mbit c.live l = true ∧ mbit c.off l = false) →
          mbit (c'.pred n) l = mbit (c.pred n) l)
      ∧ (∀ q, q ≤ 16 → q ≠ n → c'.pred q = c.pred q)
      ∧ c'.flags = c.flags ||| raised (c.activeIn iss.slices) (fun l => (body c l).fl)
      ∧ c.OffsetsMoved c' (c.activeIn iss.slices) ops ∧ c.Moved c' iss.slices iss.len ∧ c.SameButPred c' := by
  refine ⟨_, vecInstr_ok h _ _ _ _ hn hq, ?_⟩
  rw [commit_pred c n ops (body c) iss.len iss.slices c rfl]
  refine ⟨fun l hl hin => ?_, fun l hl hin hg => ?_, fun q _ hq' => ?_, rfl, ?_, ?_, ?_⟩
  · have := mbit_predsAll c n (body c) iss.slices c l hl
    rw [if_pos hin] at this
    exact this
  · have := mbit_predsAll c n (body c) iss.slices c l hl
    rw [if_neg hin] at this
    refine this.trans ?_
    by_cases h16 : n = 16
    · obtain ⟨h1, h2⟩ := hg h16; simp [h1, h2]
    · simp [h16]
  · exact pred_predsAll_of_ne c (body c) iss.slices c hq'
  · intro x l hx hl
    have := offsets_advanceAll c ops iss.slices (Issue.slices_nodup iss) c.xofs x l hl
    simp only [Crew.ofs, Crew.xreg]
    rw [this]
    by_cases hc : l ∈ c.activeIn iss.slices <;> simp [hc, mem_postRegs, hx]
  · exact moved_advSlices c (Issue.slices_nodup iss) iss.len _ rfl
  · unfold Crew.SameButPred
    rw [predsAll_live]

/-- A comparison of the vector forms and of the uniform form. -/
theorem compares_of_cmp {mk : FmtA → Instr} {t : FmtA → Ty} {truth : FmtA → Nat → Nat → Bool × BitVec 5}
    (h : ∀ f s, exec (mk f) s = withIssue s fun s iss => cmpInstr s iss f (t f) (truth f)) : Compares mk t truth := by
  intro f s s1 iss c kc hi hk hc _
  have hx : ∀ u, cmpInstr s.taken iss f (t f) (truth f) = u → exec (mk f) s = .next u := by
    intro u hu; rw [h, withIssue_of hi, hu]
  unfold cmpInstr at hx
  rw [withKonst_of hk] at hx
  refine ⟨fun hcl hn hq => ?_, fun hcl hq => ?_⟩
  · obtain ⟨c', h1, h2, h3, h4, h5, h6, h7, h8⟩ := vecInstr_pred hc f.d.toNat
      (vopsOf [sourceA f true (t f), sourceB f true (t f) kc])
      (fun c l =>
        let (r, fl) := truth f ((sourceA f true (t f)).read c (t f) l) ((sourceB f true (t f) kc).read c (t f) l)
        { bit := r, fl := fl }) hn hq
    refine ⟨c', onlyCrew_of (hx _ ?_), h2, h3, h4, h5, h6, h7, h8⟩
    rw [if_neg hcl, ← h1]
    rfl
  · have h1 := uniInstr_ok hc (fun c =>
      let (r, fl) := truth f ((sourceA f true (t f)).read c (t f) 0) ((sourceB f true (t f) kc).read c (t f) 0)
      let m := slicesMask iss.slices
      (c.setPred f.d.toNat m (if r then c.exec &&& m else 0), fl)) hq
    refine ⟨_, onlyCrew_of (hx _ (by rw [if_pos hcl]; exact h1)), ?_, ?_, ?_, ?_, ?_, ?_, ?_⟩ <;> rw [advance_slices]
    · intro l hl hin
      have := Crew.mbit_setPred c f.d.toNat (slicesMask iss.slices)
        (if (truth f ((sourceA f true (t f)).read c (t f) 0) ((sourceB f true (t f) kc).read c (t f) 0)).1 then
          c.exec &&& slicesMask iss.slices else 0) l
      refine this.trans ?_
      have hm : mbit (slicesMask iss.slices) l = true := by rw [mbit_slicesMask _ _ hl]; simpa using hin
      rw [if_pos hm]
      congr 1
      by_cases hr : (truth f ((sourceA f true (t f)).read c (t f) 0) ((sourceB f true (t f) kc).read c (t f) 0)).1
      · have hm' : (slicesMask iss.slices).getLsbD l = true := hm
        simp [hr, Crew.active, mbit, hm']
      · simp [hr, mbit]
    · intro l hl hin hg
      have := Crew.mbit_setPred c f.d.toNat (slicesMask iss.slices)
        (if (truth f ((sourceA f true (t f)).read c (t f) 0) ((sourceB f true (t f) kc).read c (t f) 0)).1 then
          c.exec &&& slicesMask iss.slices else 0) l
      refine this.trans ?_
      have hm : mbit (slicesMask iss.slices) l = false := by rw [mbit_slicesMask _ _ hl]; simpa using hin
      rw [hm]
      by_cases h16 : f.d.toNat = 16
      · obtain ⟨g1, g2⟩ := hg h16; simp [g1, g2]
      · simp [h16]
    · intro q _ hq'
      exact Crew.pred_setPred_of_ne c _ _ hq'
    · show (c.setPred _ _ _).flags ||| _ = _
      rw [Crew.setPred_eq]
    · intro x l _ _
      show (sget (c.setPred _ _ _).xofs _).toNat = _
      rw [Crew.setPred_eq]
      simp [Crew.ofs]
    · refine moved_advSlices c (Issue.slices_nodup iss) iss.len _ ?_
      show advSlices (c.setPred _ _ _).slices _ _ = _
      rw [Crew.setPred_eq]
    · unfold Crew.SameButPred
      simp only
      rw [Crew.setPred_eq]

end Sys2Proof.Machine
end

