-- ==== Sys2Proof/Laws/Memory.lean ====
section
/-! SUPPORT. The laws of memory: a read after a write, and what the operations over pages, replicas, translations and targets may
change: memory, whose canonical form they keep, the records of pages, caches and banks, what is sent, and the free values. -/

namespace Sys2Proof.Machine

/-! ### Bytes -/

theorem sget_memWriteGo (bs : List Byte) (m : Memory) (a x : Nat) :
    sget (memWriteGo m a bs) x = if a ≤ x ∧ x < a + bs.length then bs.getD (x - a) 0 else sget m x := by
  induction bs generalizing m a with
  | nil =>
    rw [if_neg (by simp)]
    rfl
  | cons b t ih =>
    rw [memWriteGo, ih, sget_sset]
    by_cases h : x = a
    · subst h
      rw [if_neg (by omega), if_pos rfl, if_pos (by simp)]
      simp
    · by_cases h2 : a + 1 ≤ x ∧ x < a + 1 + t.length
      · rw [if_pos h2, if_pos (by simp; omega)]
        have : x - a = x - (a + 1) + 1 := by omega
        rw [this]; rfl
      · rw [if_neg h2, if_neg h, if_neg (by simp; omega)]

theorem wf_memWriteGo (bs : List Byte) (m : Memory) (a : Nat) (h : Memory.wf m = true) : Memory.wf (memWriteGo m a bs) = true := by
  induction bs generalizing m a with
  | nil => exact h
  | cons b t ih => exact ih _ _ (swfFrom_sset h a b)

/-- A read after a write: the bytes written in their span, and what was there before outside it. -/
theorem State.sget_memWrite (s : State) (a : Nat) (bs : List Byte) (x : Nat) :
    sget (s.memWrite a bs).mem x = if a ≤ x ∧ x < a + bs.length then bs.getD (x - a) 0 else sget s.mem x :=
  sget_memWriteGo bs s.mem a x

@[simp] theorem State.memRead_length (s : State) (a n : Nat) : (s.memRead a n).length = n := by simp [State.memRead]

theorem State.memRead_getD (s : State) (a n i : Nat) (h : i < n) : (s.memRead a n).getD i 0 = sget s.mem (a + i) := by
  simp [State.memRead, h]

/-- Bytes that have been written are read back. -/
theorem State.memRead_memWrite (s : State) (a : Nat) (bs : List Byte) : (s.memWrite a bs).memRead a bs.length = bs := by
  apply List.ext_getElem
  · simp
  · intro i h1 h2
    simp only [State.memRead, List.getElem_map, List.getElem_range, State.sget_memWrite]
    rw [if_pos (by omega)]
    simp [h2]

theorem State.sget_memZero (s : State) (a n x : Nat) :
    sget (s.memZero a n).mem x = if a ≤ x ∧ x < a + n then 0 else sget s.mem x := by
  simp only [State.memZero, sget_sclear]

/-- A copy between places that do not overlap. -/
theorem State.sget_memCopy (s : State) (dst src n x : Nat) :
    sget (s.memCopy dst src n).mem x = if dst ≤ x ∧ x < dst + n then sget s.mem (src + (x - dst)) else sget s.mem x := by
  simp only [State.memCopy, State.sget_memWrite, State.memRead_length]
  split
  · rw [State.memRead_getD _ _ _ _ (by omega)]
  · rfl

/-! ### What an operation over memory may change -/

/-- `t` differs from `s` in memory, page records, caches, banks, messages sent, the count of free values and the note of what an
agent has met alone, and keeps the canonical form of memory. -/
structure State.MemoryOnly (s t : State) : Prop where
  frame : { t with
    mem := s.mem, pages := s.pages, caches := s.caches, tables := s.tables, bankUse := s.bankUse, drowsy := s.drowsy
    outbox := s.outbox, free := s.free, met := s.met } = s
  wf : Memory.wf s.mem = true → Memory.wf t.mem = true

namespace State.MemoryOnly

theorem refl (s : State) : s.MemoryOnly s := ⟨rfl, id⟩

theorem trans {s t u : State} (h : s.MemoryOnly t) (h' : t.MemoryOnly u) : s.MemoryOnly u := by
  refine ⟨?_, fun w => h'.wf (h.wf w)⟩
  have h1 := h.frame; have h2 := h'.frame
  rw [← h1, ← h2]

theorem fold {α : Type} {f : State → α → State} (h : ∀ (s : State) x, s.MemoryOnly (f s x)) (l : List α) (s : State) :
    s.MemoryOnly (l.foldl f s) := by
  induction l generalizing s with
  | nil => exact refl s
  | cons x t ih => exact (h s x).trans (ih _)

theorem crews {s t : State} (h : s.MemoryOnly t) : t.crews = s.crews := by rw [← h.frame]
theorem parties {s t : State} (h : s.MemoryOnly t) : t.parties = s.parties := by rw [← h.frame]
theorem launches {s t : State} (h : s.MemoryOnly t) : t.launches = s.launches := by rw [← h.frame]
theorem tenants {s t : State} (h : s.MemoryOnly t) : t.tenants = s.tenants := by rw [← h.frame]
theorem dies {s t : State} (h : s.MemoryOnly t) : t.dies = s.dies := by rw [← h.frame]
theorem jobs {s t : State} (h : s.MemoryOnly t) : t.jobs = s.jobs := by rw [← h.frame]
theorem ops {s t : State} (h : s.MemoryOnly t) : t.ops = s.ops := by rw [← h.frame]
theorem nextId {s t : State} (h : s.MemoryOnly t) : t.nextId = s.nextId := by rw [← h.frame]
theorem clock {s t : State} (h : s.MemoryOnly t) : t.clock = s.clock := by rw [← h.frame]
theorem csr {s t : State} (h : s.MemoryOnly t) : t.csr = s.csr := by rw [← h.frame]
theorem syncs {s t : State} (h : s.MemoryOnly t) : t.syncs = s.syncs := by rw [← h.frame]

end State.MemoryOnly

open State (MemoryOnly)

/-! ### The operations over memory -/

theorem State.memWrite_only (s : State) (a : Nat) (bs : List Byte) : s.MemoryOnly (s.memWrite a bs) :=
  ⟨rfl, wf_memWriteGo bs s.mem a⟩

theorem State.memZero_only (s : State) (a n : Nat) : s.MemoryOnly (s.memZero a n) := ⟨rfl, fun h => swfFrom_sclear h _ _⟩

theorem State.memCopy_only (s : State) (dst src n : Nat) : s.MemoryOnly (s.memCopy dst src n) := s.memWrite_only _ _

theorem State.modPage_only (s : State) (pfn : Nat) (f : PageRec → PageRec) : s.MemoryOnly (s.modPage pfn f) := ⟨rfl, id⟩

theorem State.send_only (s : State) (m : Msg) : s.MemoryOnly (s.send m) := ⟨rfl, id⟩

theorem State.freeVal_only (s : State) : s.MemoryOnly s.freeVal.1 := ⟨rfl, id⟩

theorem State.useBank_only (s : State) (a : Nat) : s.MemoryOnly (s.useBank a) := by
  unfold State.useBank; split
  · exact .refl s
  · exact ⟨rfl, id⟩

theorem State.fillMaster_only (s : State) (pfn off : Nat) : s.MemoryOnly (s.fillMaster pfn off) := by
  unfold State.fillMaster
  dsimp only
  split
  · exact .refl s
  · split
    · exact .refl s
    · exact (s.memCopy_only _ _ _).trans (State.modPage_only _ _ _)

theorem State.masterRead_only (s : State) (pfn off n : Nat) : s.MemoryOnly (s.masterRead pfn off n).1 :=
  (s.fillMaster_only pfn off).trans (State.useBank_only _ _)

theorem State.masterWrite_only (s : State) (die pfn off : Nat) (bs : List Byte) : s.MemoryOnly (s.masterWrite die pfn off bs) :=
  (s.fillMaster_only pfn off).trans ((State.useBank_only _ _).trans ((State.memWrite_only _ _ _).trans (State.modPage_only _ _ _)))

theorem State.physWrite_only (s : State) (die pa : Nat) (bs : List Byte) : s.MemoryOnly (s.physWrite die pa bs) := by
  unfold State.physWrite
  suffices h : ∀ (l : List Byte) (p : State × Nat), p.1.MemoryOnly (l.foldl (fun (p : State × Nat) b =>
      (p.1.masterWrite die (p.2 / 4096) (p.2 % 4096) [b], p.2 + 1)) p).1 from h bs (s, pa)
  intro l
  induction l with
  | nil => exact fun p => .refl p.1
  | cons b t ih => exact fun p => (p.1.masterWrite_only die (p.2 / 4096) (p.2 % 4096) [b]).trans (ih (_, p.2 + 1))

theorem State.mergeReplica_only (s : State) (pfn die core : Nat) (test : Nat → Bool) :
    s.MemoryOnly (s.mergeReplica pfn die core test) := by
  unfold State.mergeReplica
  split
  · exact .refl s
  · exact (MemoryOnly.fold (fun s x => s.masterWrite_only _ _ _ _) _ s).trans (State.modPage_only _ _ _)

theorem State.fillReplica_only (s : State) (pfn : Nat) (x : Replica) (off : Nat) : s.MemoryOnly (s.fillReplica pfn x off) := by
  unfold State.fillReplica
  dsimp only
  split
  · exact .refl s
  · exact (s.masterRead_only _ _ _).trans ((State.memWrite_only _ _ _).trans (State.modPage_only _ _ _))

theorem State.dropReplicas_only (s : State) (die core : Nat) (hit : Nat → Nat → Bool) :
    s.MemoryOnly (s.dropReplicas die core hit) := by
  refine MemoryOnly.fold (fun s x => ?_) _ s
  dsimp only
  split
  · exact .refl s
  · exact (s.mergeReplica_only _ _ _ _).trans (State.modPage_only _ _ _)

theorem State.mergeDirty_only (s : State) (die core : Nat) (hit : Nat → Nat → Bool) : s.MemoryOnly (s.mergeDirty die core hit) := by
  refine MemoryOnly.fold (fun s x => ?_) _ s
  dsimp only
  split
  · exact .refl s
  · exact s.mergeReplica_only _ _ _ _

theorem State.mergeSector_only (s : State) (site : CacheId) (pfn off : Nat) : s.MemoryOnly (s.mergeSector site pfn off) := by
  unfold State.mergeSector
  split
  · exact s.mergeReplica_only _ _ _ _
  · exact .refl s

theorem State.refillSector_only (s : State) (site : CacheId) (pfn off : Nat) : s.MemoryOnly (s.refillSector site pfn off) := by
  unfold State.refillSector
  split
  · exact .refl s
  · exact (s.modPage_only _ _).trans (State.fillReplica_only _ _ _ _)

theorem State.pagedRead_only (s : State) (site : CacheId) (pfn off n : Nat) : s.MemoryOnly (s.pagedRead site pfn off n).1 := by
  unfold State.pagedRead
  split
  · exact s.masterRead_only _ _ _
  · exact s.fillReplica_only _ _ _

theorem State.pagedWrite_only (s : State) (site : CacheId) (pfn off : Nat) (bs : List Byte) :
    s.MemoryOnly (s.pagedWrite site pfn off bs) := by
  unfold State.pagedWrite
  split
  · exact s.masterWrite_only _ _ _ _
  · exact (s.fillReplica_only _ _ _).trans ((State.memWrite_only _ _ _).trans (State.modPage_only _ _ _))

/-- A read of any target. -/
theorem State.readTgt_only (s : State) (site : CacheId) (t : Tgt) (n : Nat) (m : Bool) : s.MemoryOnly (s.readTgt site t n m).1 := by
  unfold State.readTgt
  split
  · exact .refl s
  · exact .refl s
  · split
    · exact s.masterRead_only _ _ _
    · exact s.pagedRead_only _ _ _ _
  · exact .refl s
  · exact .refl s
  · exact .refl s
  · exact (s.send_only _).trans ((State.freeVal_only _).trans (State.freeVal_only _))

/-- A write of any target. -/
theorem State.writeTgt_only (s : State) (site : CacheId) (t : Tgt) (bs : List Byte) (m : Bool) :
    s.MemoryOnly (s.writeTgt site t bs m) := by
  unfold State.writeTgt
  split
  · exact s.memWrite_only _ _
  · exact .refl s
  · split
    · exact s.masterWrite_only _ _ _ _
    · exact s.pagedWrite_only _ _ _ _
  · exact s.memWrite_only _ _
  · exact s.memWrite_only _ _
  · exact s.send_only _
  · exact s.send_only _

/-! ### Translation -/

theorem State.usePhys_only (s : State) (pa : Nat) : s.MemoryOnly (s.usePhys pa) := s.useBank_only _

theorem State.setAD_only (s : State) (path : List Nat) (leafPa : Nat) (write : Bool) : s.MemoryOnly (s.setAD path leafPa write) := by
  unfold State.setAD
  have h := MemoryOnly.fold (f := fun (s : State) pa =>
    if mbit ((s.physRead pa 1).headD 0) 3 then s.usePhys pa else s.physWrite 4 pa [(s.physRead pa 1).headD 0 ||| 8]) (fun s x => by
      split
      · exact s.usePhys_only _
      · exact s.physWrite_only _ _ _) path s
  dsimp only
  split
  · split
    · exact h
    · exact h.trans (State.physWrite_only _ _ _ _)
  · exact h

theorem State.keepTables_only (s : State) (site : CacheId) (t va level : Nat) (path : List Nat) :
    s.MemoryOnly (s.keepTables site t va level path) := by
  unfold State.keepTables
  dsimp only
  split
  · exact .refl s
  · exact ⟨rfl, id⟩

theorem State.dropAll_only (s : State) (pfn : Nat) : s.MemoryOnly (s.dropAll pfn) := ⟨rfl, id⟩

theorem State.evictRecord_only (s : State) (pfn : Nat) : s.MemoryOnly (s.evictRecord pfn) := by
  unfold State.evictRecord
  split
  · exact s.modPage_only _ _
  · exact .refl s

theorem State.addSharer_only (s : State) (pfn leafPa : Nat) (c : CacheId) : s.MemoryOnly (s.addSharer pfn leafPa c) :=
  s.modPage_only _ _

theorem State.fillCache_only (s : State) (c : CacheId) (e : CacheEntry) : s.MemoryOnly (s.fillCache c e) := by
  unfold State.fillCache
  have h : ∀ l, s.MemoryOnly { s with caches := l } := fun l => ⟨rfl, id⟩
  dsimp only
  split
  · exact h _
  · split
    · exact (h _).trans (State.addSharer_only _ _ _ _)
    · exact s.evictRecord_only _

theorem State.useWalk_only (s : State) (t va : Nat) : s.MemoryOnly (s.useWalk t va) := MemoryOnly.fold State.usePhys_only _ s

theorem State.useFind_only (s : State) (site : CacheId) (t va : Nat) : s.MemoryOnly (s.useFind site t va) := by
  unfold State.useFind
  dsimp only
  split
  · exact .refl s
  · split
    · exact MemoryOnly.fold State.usePhys_only _ s
    · exact s.useWalk_only _ _

theorem State.askAts_only (s : State) (l : Leaf) : s.MemoryOnly (s.askAts l) := by
  unfold State.askAts
  dsimp only
  split
  · split
    · exact (s.send_only _).trans (State.send_only _ _)
    · exact s.send_only _
  · exact .refl s

theorem State.touch_only (s : State) (site : CacheId) (t va : Nat) (write : Bool) : s.MemoryOnly (s.touch site t va write) := by
  unfold State.touch
  dsimp only
  split
  · exact s.useFind_only _ _ _
  · exact s.useFind_only _ _ _
  · refine MemoryOnly.trans ?_ (State.fillCache_only _ _ _)
    split
    · exact s.setAD_only _ _ _
    · exact .refl s
  · rename_i l p path _
    have h := ((s.askAts_only l).trans (State.keepTables_only _ site t va l.level path)).trans (State.setAD_only _ path l.leafPa write)
    split
    · exact h.trans (State.fillCache_only _ _ _)
    · exact (h.trans (State.fillCache_only _ _ _)).trans (State.fillCache_only _ _ _)

theorem State.touchFor_only (s : State) (c : Crew) (va : Nat) (write : Bool) : s.MemoryOnly (s.touchFor c va write) := by
  unfold State.touchFor
  split
  · exact .refl s
  · exact s.touch_only _ _ _ _

theorem State.touchLane_only (s : State) (c : Crew) (x : LaneTgt) (write : Bool) : s.MemoryOnly (s.touchLane c x write) := by
  unfold State.touchLane
  split
  · exact .refl s
  · exact s.touchFor_only _ _ _

/-! ### The device's own agents -/

theorem State.agentTouch_only (s : State) (t va : Nat) (write : Bool) : s.MemoryOnly (s.agentTouch t va write) := by
  unfold State.agentTouch
  split
  · dsimp only
    split
    · exact ((s.askAts_only _).trans (State.setAD_only _ _ _ _)).trans ⟨rfl, id⟩
    · exact (s.askAts_only _).trans (State.setAD_only _ _ _ _)
  · exact .refl s

theorem State.meetRoute_only (s : State) (d : Nat) (t : Tgt) : s.MemoryOnly (s.meetRoute d t) := by
  unfold State.meetRoute
  split
  · exact ⟨rfl, id⟩
  · exact .refl s

theorem State.agentFail_only (s : State) (t va : Nat) : s.MemoryOnly (s.agentFail t va) := by
  unfold State.agentFail
  split
  · exact .refl s
  · split
    · exact (s.useWalk_only _ _).trans (State.askAts_only _ _)
    · exact s.useWalk_only _ _

theorem agentGet_only (t fuel : Nat) (s u : State) (va n : Nat) (bs : List Byte) (h : agentGet t fuel s va n = some (u, bs)) :
    s.MemoryOnly u := by
  induction fuel generalizing s va n bs with
  | zero =>
    simp only [agentGet] at h
    split at h
    · cases h; exact .refl _
    · cases h
  | succ fuel ih =>
    simp only [agentGet] at h
    split at h
    · cases h; exact .refl _
    · split at h
      · split at h
        · cases h
        · split at h
          · rename_i hr
            cases h
            exact (((s.agentTouch_only _ _ _).trans (State.meetRoute_only _ _ _)).trans (State.readTgt_only _ _ _ _ _)).trans
              (ih _ _ _ _ hr)
          · cases h
      · cases h

/-- An agent's read. -/
theorem State.agentBytes_only {s u : State} {t va n : Nat} {bs : List Byte} (h : s.agentBytes t va n = some (u, bs)) :
    s.MemoryOnly u := agentGet_only _ _ _ _ _ _ _ h

theorem State.agentWrite_only {s u : State} {die t va : Nat} {bs : List Byte} (h : s.agentWrite die t va bs = some u) :
    s.MemoryOnly u := by
  unfold State.agentWrite at h
  split at h
  · rw [← Option.some.inj h]; exact ((s.agentTouch_only _ _ _).trans (State.meetRoute_only _ _ _)).trans (State.masterWrite_only _ _ _ _ _)
  · rw [← Option.some.inj h]; exact ((s.agentTouch_only _ _ _).trans (State.meetRoute_only _ _ _)).trans (State.writeTgt_only _ _ _ _ _)
  · cases h

theorem agentPut_only (die t fuel : Nat) (s u : State) (va : Nat) (bs : List Byte) (h : agentPut die t fuel s va bs = some u) :
    s.MemoryOnly u := by
  induction fuel generalizing s va bs with
  | zero =>
    simp only [agentPut] at h
    split at h
    · cases h; exact .refl _
    · cases h
  | succ fuel ih =>
    simp only [agentPut] at h
    split at h
    · cases h; exact .refl _
    · split at h
      · split at h
        · cases h
        · split at h
          · rename_i hw
            exact (State.agentWrite_only hw).trans (ih _ _ _ h)
          · cases h
      · cases h

/-- An agent's write. -/
theorem State.agentStore_only {s u : State} {die t va : Nat} {bs : List Byte} (h : s.agentStore die t va bs = some u) :
    s.MemoryOnly u := agentPut_only _ _ _ _ _ _ _ h

/-- A change of a double-word by the launch unit. -/
theorem State.modWord_only {s u : State} {t va : Nat} {f : Nat → Nat} (h : s.modWord t va f = some u) : s.MemoryOnly u := by
  unfold State.modWord at h
  split at h
  · rename_i hb; exact (State.agentBytes_only hb).trans (State.agentStore_only h)
  · cases h

theorem State.interrupt_only (s : State) (t n : Nat) : s.MemoryOnly (s.interrupt t n) := by
  unfold State.interrupt
  split
  · exact .refl s
  · exact s.send_only _

/-- The same as `MemoryOnly`, with what the tenants hold: the error records of a context are counted there. -/
structure State.RecordOnly (s t : State) : Prop where
  frame : { t with
    mem := s.mem, pages := s.pages, caches := s.caches, tables := s.tables, bankUse := s.bankUse, drowsy := s.drowsy
    outbox := s.outbox, free := s.free, met := s.met, tenants := s.tenants } = s
  wf : Memory.wf s.mem = true → Memory.wf t.mem = true

theorem State.RecordOnly.trans {s t u : State} (h : s.RecordOnly t) (h' : t.RecordOnly u) : s.RecordOnly u := by
  refine ⟨?_, fun w => h'.wf (h.wf w)⟩
  have h1 := h.frame; have h2 := h'.frame
  rw [← h1, ← h2]

theorem State.MemoryOnly.record {s t : State} (h : s.MemoryOnly t) : s.RecordOnly t := by
  refine ⟨?_, h.wf⟩
  have h1 := h.frame
  rw [← h1]

theorem State.modTenant_record (s : State) (t : Nat) (f : Tenant → Tenant) : s.RecordOnly (s.modTenant t f) := ⟨rfl, id⟩

/-- An error record: memory, messages and the context's count of records alone. -/
theorem State.errorRecord_only (s : State) (t code detail queue tag addr : Nat) :
    s.RecordOnly (s.errorRecord t code detail queue tag addr) := by
  unfold State.errorRecord
  dsimp only
  split
  · exact (MemoryOnly.refl s).record
  · have h (a b x y : Nat) (bs cs : List Byte) : s.RecordOnly ((((s.usePhys a).usePhys b).physWrite 4 x bs).physWrite 4 y cs) :=
      ((((s.usePhys_only _).trans (State.usePhys_only _ _)).trans (State.physWrite_only _ 4 _ _)).trans
        (State.physWrite_only _ 4 _ _)).record
    split
    · exact ((h _ _ _ _ _ _).trans (State.modTenant_record _ _ _)).trans (State.interrupt_only _ _ _).record
    · exact (h _ _ _ _ _ _).trans (State.interrupt_only _ _ _).record

/-- A word of a completion record. -/
theorem State.complWord_only (s : State) (t queue tag va : Nat) (f : Nat → Nat) : s.RecordOnly (s.complWord t queue tag va f) := by
  unfold State.complWord
  split
  · rename_i h; exact (State.modWord_only h).record
  · exact (s.agentFail_only _ _).record.trans (State.errorRecord_only _ _ _ _ _ _ _)

/-- STATUS, DONE and the vector of a packet. -/
theorem State.writeDone_only (s : State) (p : Packet) (compl status : Nat) : s.RecordOnly (s.writeDone p compl status) := by
  unfold State.writeDone
  dsimp only
  have h : s.RecordOnly (if compl = 0 then s else
      (s.complWord p.tenant p.queue (pktTag p) compl fun _ => status).complWord p.tenant p.queue (pktTag p) (compl + 0x18) fun _ => 1) := by
    split
    · exact (MemoryOnly.refl s).record
    · exact (s.complWord_only _ _ _ _ _).trans (State.complWord_only _ _ _ _ _ _)
  split
  · exact h.trans (State.interrupt_only _ _ _).record
  · exact h

/-- The end of a party, and an arrival at a barrier: the core merges. -/
theorem State.drain_only (s : State) (p : Nat) : s.MemoryOnly (s.drain p) := by
  unfold State.drain
  exact s.mergeDirty_only _ _ _

/-- A drop of a core's replicas, made now or left for the end of a remap. -/
theorem State.dropOrLeave_only (s : State) (die core : Nat) (hit : Nat → Nat → Bool) : s.MemoryOnly (s.dropOrLeave die core hit).1 :=
  (s.dropReplicas_only die core _).trans ⟨rfl, id⟩

/-- The start of a party, and a departure from a barrier: the core drops its replicas. -/
theorem State.dropParty_only (s : State) (p : Nat) : s.MemoryOnly (s.dropParty p).1 := s.dropOrLeave_only _ _ _

theorem State.mergeRange_only (s : State) (site : CacheId) (t : Nat) (r : GRange) : s.MemoryOnly (s.mergeRange site t r) := by
  unfold State.mergeRange
  split
  · split
    · exact .refl s
    · exact s.mergeDirty_only _ _ _
  · exact .refl s

theorem State.dropRange_only (s : State) (site : CacheId) (t : Nat) (r : GRange) : s.MemoryOnly (s.dropRange site t r) := by
  unfold State.dropRange
  split
  · split
    · exact .refl s
    · exact s.dropReplicas_only _ _ _
  · exact .refl s

end Sys2Proof.Machine
end

