-- ==== Sys2Proof/Laws/Numbers.lean ====
section
/-! SUPPORT. Integers as bit patterns: wrapping, sign extension and clamping, and the patterns of exact results. -/

namespace Sys2Proof

theorem intMod_lt (x : Int) (n : Nat) : intMod x n < 2 ^ n := by
  have h : (0 : Int) < ((2 ^ n : Nat) : Int) := by exact_mod_cast Nat.two_pow_pos n
  have h1 := Int.emod_nonneg x (ne_of_gt h)
  have h2 := Int.emod_lt_of_pos x h
  unfold intMod
  omega

theorem intMod_cast (x : Int) (n : Nat) : (intMod x n : Int) = x % ((2 ^ n : Nat) : Int) := by
  have h : (0 : Int) < ((2 ^ n : Nat) : Int) := by exact_mod_cast Nat.two_pow_pos n
  exact Int.toNat_of_nonneg (Int.emod_nonneg x (ne_of_gt h))

/-- The pattern of an integer differs from it by a multiple of the modulus. -/
theorem intMod_congr (x : Int) (n : Nat) : ∃ q : Int, (intMod x n : Int) = x + q * (2 ^ n : Nat) :=
  ⟨-(x / ((2 ^ n : Nat) : Int)), by rw [intMod_cast, Int.emod_def]; ring⟩

/-- Sign extension undoes wrapping on the integers of the signed range. -/
theorem natSext_intMod {x : Int} {n : Nat} (hn : 0 < n) (hlo : -(2 ^ (n - 1) : Nat) ≤ x) (hhi : x < (2 ^ (n - 1) : Nat)) :
    natSext (intMod x n) n = x := by
  have hlt := intMod_lt x n
  have hc := intMod_cast x n
  have hp : 2 ^ n = 2 * 2 ^ (n - 1) := by
    obtain ⟨m, rfl⟩ := Nat.exists_eq_succ_of_ne_zero hn.ne'
    simp [Nat.pow_succ, Nat.mul_comm]
  unfold natSext
  generalize 2 ^ n = N at *
  generalize 2 ^ (n - 1) = H at *
  rw [Nat.mod_eq_of_lt hlt]
  simp only
  by_cases hx : 0 ≤ x
  · rw [Int.emod_eq_of_lt hx (by omega)] at hc
    rw [if_pos (by omega), hc]
  · have h2 : x % (N : Int) = x + N := by
      rw [← Int.add_emod_right, Int.emod_eq_of_lt] <;> omega
    rw [h2] at hc
    rw [if_neg (by omega), hc]
    ring

namespace Machine

theorem Ty.width_pos (t : Ty) : 0 < t.width := by cases t <;> decide

theorem Ty.range_le (t : Ty) : t.range.1 ≤ t.range.2 := by cases t <;> decide

theorem Ty.clamp_fst (t : Ty) (x : Int) : (t.clamp x).1 = max t.range.1 (min t.range.2 x) := by
  have := t.range_le
  unfold Ty.clamp
  simp only
  split
  · simp only; omega
  · split
    · simp only; omega
    · simp only; omega

/-- A type reads back the integers of its range. -/
theorem Ty.intVal_intMod {t : Ty} {x : Int} (hlo : t.range.1 ≤ x) (hhi : x ≤ t.range.2) : t.intVal (intMod x t.width) = x := by
  unfold Ty.intVal Ty.range at *
  by_cases hs : t.signed
  · simp only [hs, if_true] at *
    exact natSext_intMod t.width_pos hlo (by omega)
  · simp only [hs] at *
    simp only [Bool.false_eq_true, if_false] at *
    rw [Nat.mod_eq_of_lt (intMod_lt x t.width), intMod_cast, Int.emod_eq_of_lt hlo (by omega)]

/-- What `intOut` writes for an exact integer. -/
theorem pattern_intOut (t : Ty) (sat : Bool) (e : Int) : t.Pattern sat e (intOut t sat e).code := by
  refine ⟨intMod_lt _ _, ?_⟩
  cases sat with
  | false => exact intMod_congr e t.width
  | true =>
    have h := t.range_le
    simp only [intOut, if_true, Ty.clamp_fst]
    exact Ty.intVal_intMod (by omega) (by omega)

end Machine

end Sys2Proof
end

