-- ==== Sys2Proof/Laws/PerInstr.lean ====
section
/-! SUPPORT. The family Encoding, instruction by instruction: a well-formed instruction that has words is what the decoder reads
from them, whatever words follow (14 R286 to R302). -/

namespace Sys2Proof

set_option Elab.async false

/-! ### Fields of an encoded word -/

section FormatA

variable (m : BitVec 5) (cl : BitVec 2) (k : BitVec 1) (fn : BitVec 3) (d a b : BitVec 7)

theorem fldA_maj : fld (m ++ cl ++ k ++ fn ++ d ++ a ++ b) 27 5 = m := by
  apply BitVec.eq_of_getLsbD_eq
  intro i hi
  simp only [fld, BitVec.getLsbD_extractLsb', BitVec.getLsbD_append]
  simp [hi]
  try grind

theorem fldA_cl : fld (m ++ cl ++ k ++ fn ++ d ++ a ++ b) 25 2 = cl := by
  apply BitVec.eq_of_getLsbD_eq
  intro i hi
  simp only [fld, BitVec.getLsbD_extractLsb', BitVec.getLsbD_append]
  simp [hi]
  try grind

theorem fldA_k : fld (m ++ cl ++ k ++ fn ++ d ++ a ++ b) 24 1 = k := by
  apply BitVec.eq_of_getLsbD_eq
  intro i hi
  simp only [fld, BitVec.getLsbD_extractLsb', BitVec.getLsbD_append]
  simp [hi]
  try grind

theorem fldA_fn : fld (m ++ cl ++ k ++ fn ++ d ++ a ++ b) 21 3 = fn := by
  apply BitVec.eq_of_getLsbD_eq
  intro i hi
  simp only [fld, BitVec.getLsbD_extractLsb', BitVec.getLsbD_append]
  simp [hi]
  try grind

theorem fldA_d : fld (m ++ cl ++ k ++ fn ++ d ++ a ++ b) 14 7 = d := by
  apply BitVec.eq_of_getLsbD_eq
  intro i hi
  simp only [fld, BitVec.getLsbD_extractLsb', BitVec.getLsbD_append]
  simp [hi]
  try grind

theorem fldA_a : fld (m ++ cl ++ k ++ fn ++ d ++ a ++ b) 7 7 = a := by
  apply BitVec.eq_of_getLsbD_eq
  intro i hi
  simp only [fld, BitVec.getLsbD_extractLsb', BitVec.getLsbD_append]
  simp [hi]
  try grind

theorem fldA_b : fld (m ++ cl ++ k ++ fn ++ d ++ a ++ b) 0 7 = b := by
  apply BitVec.eq_of_getLsbD_eq
  intro i hi
  simp only [fld, BitVec.getLsbD_extractLsb', BitVec.getLsbD_append]
  simp [hi]
  try grind

theorem fmtAOf_word (px : Option Prefix) :
    fmtAOf px (m ++ cl ++ k ++ fn ++ d ++ a ++ b) = { px := px, cl := cl, k := k, d := d, a := a, b := b } := by
  simp only [fmtAOf, fldA_cl, fldA_k, fldA_d, fldA_a, fldA_b]

end FormatA

section FormatC

variable (m : BitVec 5) (fn : BitVec 4) (p : BitVec 4) (off : BitVec 19)

theorem fldC_maj : fld (m ++ fn ++ p ++ off) 27 5 = m := by
  apply BitVec.eq_of_getLsbD_eq
  intro i hi
  simp only [fld, BitVec.getLsbD_extractLsb', BitVec.getLsbD_append]
  simp [hi]
  try grind

theorem fldC_fn : fld (m ++ fn ++ p ++ off) 23 4 = fn := by
  apply BitVec.eq_of_getLsbD_eq
  intro i hi
  simp only [fld, BitVec.getLsbD_extractLsb', BitVec.getLsbD_append]
  simp [hi]
  try grind

theorem fldC_p : fld (m ++ fn ++ p ++ off) 19 4 = p := by
  apply BitVec.eq_of_getLsbD_eq
  intro i hi
  simp only [fld, BitVec.getLsbD_extractLsb', BitVec.getLsbD_append]
  simp [hi]
  try grind

theorem fldC_off : fld (m ++ fn ++ p ++ off) 0 19 = off := by
  apply BitVec.eq_of_getLsbD_eq
  intro i hi
  simp only [fld, BitVec.getLsbD_extractLsb', BitVec.getLsbD_append]
  simp [hi]
  try grind

theorem fmtCOf_word : fmtCOf (m ++ fn ++ p ++ off) = { p := p, off := off } := by simp only [fmtCOf, fldC_p, fldC_off]

end FormatC

section FormatL

variable (m : BitVec 5) (d : BitVec 7) (w : BitVec 1) (off : BitVec 19)

theorem fldL_maj : fld (m ++ d ++ w ++ off) 27 5 = m := by
  apply BitVec.eq_of_getLsbD_eq
  intro i hi
  simp only [fld, BitVec.getLsbD_extractLsb', BitVec.getLsbD_append]
  simp [hi]
  try grind

theorem fldL_d : fld (m ++ d ++ w ++ off) 20 7 = d := by
  apply BitVec.eq_of_getLsbD_eq
  intro i hi
  simp only [fld, BitVec.getLsbD_extractLsb', BitVec.getLsbD_append]
  simp [hi]
  try grind

theorem fldL_w : fld (m ++ d ++ w ++ off) 19 1 = w := by
  apply BitVec.eq_of_getLsbD_eq
  intro i hi
  simp only [fld, BitVec.getLsbD_extractLsb', BitVec.getLsbD_append]
  simp [hi]
  try grind

theorem fldL_off : fld (m ++ d ++ w ++ off) 0 19 = off := by
  apply BitVec.eq_of_getLsbD_eq
  intro i hi
  simp only [fld, BitVec.getLsbD_extractLsb', BitVec.getLsbD_append]
  simp [hi]
  try grind

end FormatL

section FormatM

variable (m : BitVec 5) (am : BitVec 2) (sz : BitVec 3) (nt : BitVec 1) (d a b : BitVec 7)

theorem fldM_maj : fld (m ++ am ++ sz ++ nt ++ d ++ a ++ b) 27 5 = m := by
  apply BitVec.eq_of_getLsbD_eq
  intro i hi
  simp only [fld, BitVec.getLsbD_extractLsb', BitVec.getLsbD_append]
  simp [hi]
  try grind

theorem fldM_am : fld (m ++ am ++ sz ++ nt ++ d ++ a ++ b) 25 2 = am := by
  apply BitVec.eq_of_getLsbD_eq
  intro i hi
  simp only [fld, BitVec.getLsbD_extractLsb', BitVec.getLsbD_append]
  simp [hi]
  try grind

theorem fldM_sz : fld (m ++ am ++ sz ++ nt ++ d ++ a ++ b) 22 3 = sz := by
  apply BitVec.eq_of_getLsbD_eq
  intro i hi
  simp only [fld, BitVec.getLsbD_extractLsb', BitVec.getLsbD_append]
  simp [hi]
  try grind

theorem fldM_nt : fld (m ++ am ++ sz ++ nt ++ d ++ a ++ b) 21 1 = nt := by
  apply BitVec.eq_of_getLsbD_eq
  intro i hi
  simp only [fld, BitVec.getLsbD_extractLsb', BitVec.getLsbD_append]
  simp [hi]
  try grind

theorem fldM_d : fld (m ++ am ++ sz ++ nt ++ d ++ a ++ b) 14 7 = d := by
  apply BitVec.eq_of_getLsbD_eq
  intro i hi
  simp only [fld, BitVec.getLsbD_extractLsb', BitVec.getLsbD_append]
  simp [hi]
  try grind

theorem fldM_a : fld (m ++ am ++ sz ++ nt ++ d ++ a ++ b) 7 7 = a := by
  apply BitVec.eq_of_getLsbD_eq
  intro i hi
  simp only [fld, BitVec.getLsbD_extractLsb', BitVec.getLsbD_append]
  simp [hi]
  try grind

theorem fldM_b : fld (m ++ am ++ sz ++ nt ++ d ++ a ++ b) 0 7 = b := by
  apply BitVec.eq_of_getLsbD_eq
  intro i hi
  simp only [fld, BitVec.getLsbD_extractLsb', BitVec.getLsbD_append]
  simp [hi]
  try grind

theorem fmtMOf_word (px : Option Prefix) :
    fmtMOf px (m ++ am ++ sz ++ nt ++ d ++ a ++ b) = { px := px, am := am, sz := sz, nt := nt, d := d, a := a, b := b } := by
  simp only [fmtMOf, fldM_am, fldM_sz, fldM_nt, fldM_d, fldM_a, fldM_b]

end FormatM

section Immediate

variable (m : BitVec 5) (z fn : BitVec 3) (imm : BitVec 21)

theorem fldI_maj : fld (m ++ z ++ fn ++ imm) 27 5 = m := by
  apply BitVec.eq_of_getLsbD_eq
  intro i hi
  simp only [fld, BitVec.getLsbD_extractLsb', BitVec.getLsbD_append]
  simp [hi]
  try grind

theorem fldI_zero : fld (m ++ z ++ fn ++ imm) 24 3 = z := by
  apply BitVec.eq_of_getLsbD_eq
  intro i hi
  simp only [fld, BitVec.getLsbD_extractLsb', BitVec.getLsbD_append]
  simp [hi]
  try grind

theorem fldI_fn : fld (m ++ z ++ fn ++ imm) 21 3 = fn := by
  apply BitVec.eq_of_getLsbD_eq
  intro i hi
  simp only [fld, BitVec.getLsbD_extractLsb', BitVec.getLsbD_append]
  simp [hi]
  try grind

theorem fldI_imm : fld (m ++ z ++ fn ++ imm) 0 21 = imm := by
  apply BitVec.eq_of_getLsbD_eq
  intro i hi
  simp only [fld, BitVec.getLsbD_extractLsb', BitVec.getLsbD_append]
  simp [hi]
  try grind

end Immediate

/-! ### Prefix words -/

theorem isPrefix_encPrefix (p : Prefix) : isPrefix (encPrefix p) = true := by
  have h : fld (encPrefix p) 27 5 = 0x1F := by
    apply BitVec.eq_of_getLsbD_eq
    intro i hi
    simp only [encPrefix, fld, BitVec.getLsbD_extractLsb', BitVec.getLsbD_append]
    simp [hi]
    try grind
  simp [isPrefix, h]

/-- A prefix word holds its payload. -/
theorem prefixOf_encPrefix (p : Prefix) : prefixOf (encPrefix p) = some p := by
  have e0 : fld (encPrefix p) 23 4 = p.dt := by
    apply BitVec.eq_of_getLsbD_eq
    intro i hi
    simp only [encPrefix, fld, BitVec.getLsbD_extractLsb', BitVec.getLsbD_append]
    simp [hi]
    try grind
  have e1 : fld (encPrefix p) 19 4 = p.st := by
    apply BitVec.eq_of_getLsbD_eq
    intro i hi
    simp only [encPrefix, fld, BitVec.getLsbD_extractLsb', BitVec.getLsbD_append]
    simp [hi]
    try grind
  have e2 : fld (encPrefix p) 17 2 = p.rnd := by
    apply BitVec.eq_of_getLsbD_eq
    intro i hi
    simp only [encPrefix, fld, BitVec.getLsbD_extractLsb', BitVec.getLsbD_append]
    simp [hi]
    try grind
  have e3 : fld (encPrefix p) 13 3 = p.scope := by
    apply BitVec.eq_of_getLsbD_eq
    intro i hi
    simp only [encPrefix, fld, BitVec.getLsbD_extractLsb', BitVec.getLsbD_append]
    simp [hi]
    try grind
  have e4 : fld (encPrefix p) 11 2 = p.ord := by
    apply BitVec.eq_of_getLsbD_eq
    intro i hi
    simp only [encPrefix, fld, BitVec.getLsbD_extractLsb', BitVec.getLsbD_append]
    simp [hi]
    try grind
  have e5 : fld (encPrefix p) 0 7 = p.c := by
    apply BitVec.eq_of_getLsbD_eq
    intro i hi
    simp only [encPrefix, fld, BitVec.getLsbD_extractLsb', BitVec.getLsbD_append]
    simp [hi]
    try grind
  have b0 : fldBit (encPrefix p) 7 = false := by
    simp only [encPrefix, fldBit, bit1, BitVec.getLsbD_append, BitVec.getLsbD_ofBool]
    simp
  have b1 : fldBit (encPrefix p) 16 = p.sat := by
    simp only [encPrefix, fldBit, bit1, BitVec.getLsbD_append, BitVec.getLsbD_ofBool]
    simp
  have b2 : fldBit (encPrefix p) 10 = p.na := by
    simp only [encPrefix, fldBit, bit1, BitVec.getLsbD_append, BitVec.getLsbD_ofBool]
    simp
  have b3 : fldBit (encPrefix p) 9 = p.nb := by
    simp only [encPrefix, fldBit, bit1, BitVec.getLsbD_append, BitVec.getLsbD_ofBool]
    simp
  have b4 : fldBit (encPrefix p) 8 = p.cp := by
    simp only [encPrefix, fldBit, bit1, BitVec.getLsbD_append, BitVec.getLsbD_ofBool]
    simp
  simp [prefixOf, e0, e1, e2, e3, e4, e5, b0, b1, b2, b3, b4]

/-! ### From a word to its instruction -/

/-- A word whose candidate is a well-formed instruction decodes to it, with the prefix before it. -/
theorem decodeWords_of_candidate {px : Option Prefix} {w : Word} {i : Instr} (rest : List Word)
    (hc : candidate px w = some i) (hp : isPrefix w = false) (hl : i.legal = true) :
    decodeWords (encPx px ++ [w] ++ rest) = .ok (i, rest) := by
  have hw : decodeWord px w = .ok i := by simp [decodeWord, hp, hc, hl]
  cases px with
  | none => simp only [encPx, List.nil_append, List.cons_append, decodeWords, hp, hw]; rfl
  | some p =>
    simp only [encPx, List.cons_append, List.nil_append, decodeWords, isPrefix_encPrefix, prefixOf_encPrefix, hw]
    rfl

theorem decode_encA {maj : BitVec 5} {fn : BitVec 3} {f : FmtA} {i : Instr} (rest : List Word)
    (hc : candidate f.px (maj ++ f.cl ++ f.k ++ fn ++ f.d ++ f.a ++ f.b) = some i) (hm : maj ≠ 0x1F) (hl : i.legal = true) :
    decodeWords (encA maj fn f ++ rest) = .ok (i, rest) :=
  decodeWords_of_candidate rest hc (by simpa [isPrefix, fldA_maj] using hm) hl

theorem decode_encM {maj : BitVec 5} {f : FmtM} {i : Instr} (rest : List Word)
    (hc : candidate f.px (maj ++ f.am ++ f.sz ++ f.nt ++ f.d ++ f.a ++ f.b) = some i) (hm : maj ≠ 0x1F)
    (hl : i.legal = true) : decodeWords (encM maj f ++ rest) = .ok (i, rest) :=
  decodeWords_of_candidate rest hc (by simpa [isPrefix, fldM_maj] using hm) hl

theorem decode_encC {maj : BitVec 5} {fn : BitVec 4} {f : FmtC} {i : Instr} (rest : List Word)
    (hc : ∀ (m : BitVec 5) (n : BitVec 4), m = maj → n = fn → candidate none (m ++ n ++ f.p ++ f.off) = some i) (hm : maj ≠ 0x1F) (hl : i.legal = true) :
    decodeWords (encC maj fn f ++ rest) = .ok (i, rest) :=
  decodeWords_of_candidate (px := none) rest (hc maj fn rfl rfl)
    (by unfold isPrefix; rw [fldC_maj]; simpa using hm) hl

theorem decode_encImm {maj : BitVec 5} {fn : BitVec 3} {imm : BitVec 21} {i : Instr} (rest : List Word)
    (hc : ∀ (m : BitVec 5) (z n : BitVec 3), m = maj → z = 0 → n = fn → candidate none (m ++ z ++ n ++ imm) = some i) (hm : maj ≠ 0x1F) (hl : i.legal = true) :
    decodeWords (encImm maj fn imm ++ rest) = .ok (i, rest) :=
  decodeWords_of_candidate (px := none) rest (hc maj 0 fn rfl rfl rfl)
    (by unfold isPrefix; rw [fldI_maj]; simpa using hm) hl

/-- The form bits [6:5] of a barrier number below 32, and of the numbers of the ARRIVE and WAIT forms (10 R231). -/
theorem formBits (b : BitVec 7) : fld (b.zeroExtend 32) 5 2 = BitVec.ofNat 2 (b.toNat / 32) := by
  apply BitVec.eq_of_toNat_eq
  simp only [fld, BitVec.extractLsb'_toNat, BitVec.toNat_setWidth, BitVec.toNat_ofNat, Nat.shiftRight_eq_div_pow]
  have := b.isLt
  omega

/-- The statement of the family. -/
def Laws.Encoding.Statement (i : Instr) : Prop :=
  i.legal = true → i.encoded = true → ∀ rest, decodeWords (encode i ++ rest) = .ok (i, rest)

namespace Laws.Encoding

theorem nop (f : FmtA) : Statement (.nop f) := by
  intro hl _ rest
  exact decode_encA rest (by simp [candidate, fldA_maj, fldA_fn, fmtAOf_word, decodeCtrl]) (by decide) hl

theorem exit (f : FmtA) : Statement (.exit f) := by
  intro hl _ rest
  exact decode_encA rest (by simp [candidate, fldA_maj, fldA_fn, fmtAOf_word, decodeCtrl]) (by decide) hl

theorem regang (f : FmtA) : Statement (.regang f) := by
  intro hl _ rest
  exact decode_encA rest (by simp [candidate, fldA_maj, fldA_fn, fmtAOf_word, decodeCtrl]) (by decide) hl

theorem ret (f : FmtA) : Statement (.ret f) := by
  intro hl _ rest
  exact decode_encA rest (by simp [candidate, fldA_maj, fldA_fn, fmtAOf_word, decodeCtrl]) (by decide) hl

theorem trap (imm : BitVec 21) : Statement (.trap imm) := by
  intro hl _ rest
  exact decode_encImm rest (by intro m z n hm hz hn; simp only [candidate, fldI_maj, fldI_fn, fldI_zero, fldI_imm, immOf, decodeCtrl]; simp [hm, hz, hn]) (by decide) hl

theorem brk (imm : BitVec 21) : Statement (.brk imm) := by
  intro hl _ rest
  exact decode_encImm rest (by intro m z n hm hz hn; simp only [candidate, fldI_maj, fldI_fn, fldI_zero, fldI_imm, immOf, decodeCtrl]; simp [hm, hz, hn]) (by decide) hl

theorem idem (f : FmtA) : Statement (.idem f) := by
  intro hl _ rest
  exact decode_encA rest (by simp [candidate, fldA_maj, fldA_fn, fmtAOf_word, decodeCtrl]) (by decide) hl

theorem idemend (f : FmtA) : Statement (.idemend f) := by
  intro hl _ rest
  exact decode_encA rest (by simp [candidate, fldA_maj, fldA_fn, fmtAOf_word, decodeCtrl]) (by decide) hl

theorem syscall (imm : BitVec 21) : Statement (.syscall imm) := by
  intro hl _ rest
  exact decode_encImm rest (by intro m z n hm hz hn; simp only [candidate, fldI_maj, fldI_fn, fldI_zero, fldI_imm, immOf, decodeCtrl]; simp [hm, hz, hn]) (by decide) hl

theorem eret (f : FmtA) : Statement (.eret f) := by
  intro hl _ rest
  exact decode_encA rest (by simp [candidate, fldA_maj, fldA_fn, fmtAOf_word, decodeSystem]) (by decide) hl

theorem snap (f : FmtA) : Statement (.snap f) := by
  intro hl _ rest
  exact decode_encA rest (by simp [candidate, fldA_maj, fldA_fn, fmtAOf_word, decodeSystem]) (by decide) hl

theorem csrr (f : FmtA) : Statement (.csrr f) := by
  intro hl _ rest
  exact decode_encA rest (by simp [candidate, fldA_maj, fldA_fn, fmtAOf_word, decodeSystem]) (by decide) hl

theorem csrw (f : FmtA) : Statement (.csrw f) := by
  intro hl _ rest
  exact decode_encA rest (by simp [candidate, fldA_maj, fldA_fn, fmtAOf_word, decodeSystem]) (by decide) hl

theorem spawn (f : FmtA) : Statement (.spawn f) := by
  intro hl _ rest
  exact decode_encA rest (by simp [candidate, fldA_maj, fldA_fn, fmtAOf_word, decodeSystem]) (by decide) hl

theorem joinw (f : FmtA) : Statement (.joinw f) := by
  intro hl _ rest
  exact decode_encA rest (by simp [candidate, fldA_maj, fldA_fn, fmtAOf_word, decodeSystem]) (by decide) hl

theorem iadd (f : FmtA) : Statement (.iadd f) := by
  intro hl _ rest
  exact decode_encA rest (by simp [candidate, fldA_maj, fldA_fn, fmtAOf_word, decodeInt1]) (by decide) hl

theorem isub (f : FmtA) : Statement (.isub f) := by
  intro hl _ rest
  exact decode_encA rest (by simp [candidate, fldA_maj, fldA_fn, fmtAOf_word, decodeInt1]) (by decide) hl

theorem imul (f : FmtA) : Statement (.imul f) := by
  intro hl _ rest
  exact decode_encA rest (by simp [candidate, fldA_maj, fldA_fn, fmtAOf_word, decodeInt1]) (by decide) hl

theorem imulh (f : FmtA) : Statement (.imulh f) := by
  intro hl _ rest
  exact decode_encA rest (by simp [candidate, fldA_maj, fldA_fn, fmtAOf_word, decodeInt1]) (by decide) hl

theorem imin (f : FmtA) : Statement (.imin f) := by
  intro hl _ rest
  exact decode_encA rest (by simp [candidate, fldA_maj, fldA_fn, fmtAOf_word, decodeInt1]) (by decide) hl

theorem imax (f : FmtA) : Statement (.imax f) := by
  intro hl _ rest
  exact decode_encA rest (by simp [candidate, fldA_maj, fldA_fn, fmtAOf_word, decodeInt1]) (by decide) hl

theorem iabs (f : FmtA) : Statement (.iabs f) := by
  intro hl _ rest
  exact decode_encA rest (by simp [candidate, fldA_maj, fldA_fn, fmtAOf_word, decodeInt1]) (by decide) hl

theorem imad (f : FmtA) : Statement (.imad f) := by
  intro hl _ rest
  exact decode_encA rest (by simp [candidate, fldA_maj, fldA_fn, fmtAOf_word, decodeInt1]) (by decide) hl

theorem lea (f : FmtA) : Statement (.lea f) := by
  intro hl _ rest
  exact decode_encA rest (by simp [candidate, fldA_maj, fldA_fn, fmtAOf_word, decodeInt2]) (by decide) hl

theorem mov (f : FmtA) : Statement (.mov f) := by
  intro hl _ rest
  exact decode_encA rest (by simp [candidate, fldA_maj, fldA_fn, fmtAOf_word, decodeInt2]) (by decide) hl

theorem sel (f : FmtA) : Statement (.sel f) := by
  intro hl _ rest
  exact decode_encA rest (by simp [candidate, fldA_maj, fldA_fn, fmtAOf_word, decodeInt2]) (by decide) hl

theorem movk (f : FmtA) : Statement (.movk f) := by
  intro hl _ rest
  exact decode_encA rest (by simp [candidate, fldA_maj, fldA_fn, fmtAOf_word, decodeInt2]) (by decide) hl

theorem sread (f : FmtA) : Statement (.sread f) := by
  intro hl _ rest
  exact decode_encA rest (by simp [candidate, fldA_maj, fldA_fn, fmtAOf_word, decodeInt2]) (by decide) hl

theorem swrite (f : FmtA) : Statement (.swrite f) := by
  intro hl _ rest
  exact decode_encA rest (by simp [candidate, fldA_maj, fldA_fn, fmtAOf_word, decodeInt2]) (by decide) hl

theorem popc (f : FmtA) : Statement (.popc f) := by
  intro hl _ rest
  exact decode_encA rest (by simp [candidate, fldA_maj, fldA_fn, fmtAOf_word, decodeInt2]) (by decide) hl

theorem clz (f : FmtA) : Statement (.clz f) := by
  intro hl _ rest
  exact decode_encA rest (by simp [candidate, fldA_maj, fldA_fn, fmtAOf_word, decodeInt2]) (by decide) hl

theorem band (f : FmtA) : Statement (.band f) := by
  intro hl _ rest
  exact decode_encA rest (by simp [candidate, fldA_maj, fldA_fn, fmtAOf_word, decodeBit]) (by decide) hl

theorem bor (f : FmtA) : Statement (.bor f) := by
  intro hl _ rest
  exact decode_encA rest (by simp [candidate, fldA_maj, fldA_fn, fmtAOf_word, decodeBit]) (by decide) hl

theorem bxor (f : FmtA) : Statement (.bxor f) := by
  intro hl _ rest
  exact decode_encA rest (by simp [candidate, fldA_maj, fldA_fn, fmtAOf_word, decodeBit]) (by decide) hl

theorem bandn (f : FmtA) : Statement (.bandn f) := by
  intro hl _ rest
  exact decode_encA rest (by simp [candidate, fldA_maj, fldA_fn, fmtAOf_word, decodeBit]) (by decide) hl

theorem shl (f : FmtA) : Statement (.shl f) := by
  intro hl _ rest
  exact decode_encA rest (by simp [candidate, fldA_maj, fldA_fn, fmtAOf_word, decodeBit]) (by decide) hl

theorem shr (f : FmtA) : Statement (.shr f) := by
  intro hl _ rest
  exact decode_encA rest (by simp [candidate, fldA_maj, fldA_fn, fmtAOf_word, decodeBit]) (by decide) hl

theorem sar (f : FmtA) : Statement (.sar f) := by
  intro hl _ rest
  exact decode_encA rest (by simp [candidate, fldA_maj, fldA_fn, fmtAOf_word, decodeBit]) (by decide) hl

theorem brev (f : FmtA) : Statement (.brev f) := by
  intro hl _ rest
  exact decode_encA rest (by simp [candidate, fldA_maj, fldA_fn, fmtAOf_word, decodeBit]) (by decide) hl

theorem bfx (f : FmtA) : Statement (.bfx f) := by
  intro hl _ rest
  exact decode_encA rest (by simp [candidate, fldA_maj, fldA_fn, fmtAOf_word, decodeBitf]) (by decide) hl

theorem bfi (f : FmtA) : Statement (.bfi f) := by
  intro hl _ rest
  exact decode_encA rest (by simp [candidate, fldA_maj, fldA_fn, fmtAOf_word, decodeBitf]) (by decide) hl

theorem icmp (cond : BitVec 3) (f : FmtA) : Statement (.icmp cond f) := by
  intro hl _ rest
  exact decode_encA rest (by simp [candidate, fldA_maj, fldA_fn, fmtAOf_word]) (by decide) hl

theorem fcmp (cond : BitVec 3) (f : FmtA) : Statement (.fcmp cond f) := by
  intro hl _ rest
  exact decode_encA rest (by simp [candidate, fldA_maj, fldA_fn, fmtAOf_word]) (by decide) hl

theorem fadd (f : FmtA) : Statement (.fadd f) := by
  intro hl _ rest
  exact decode_encA rest (by simp [candidate, fldA_maj, fldA_fn, fmtAOf_word, decodeFlt]) (by decide) hl

theorem fmul (f : FmtA) : Statement (.fmul f) := by
  intro hl _ rest
  exact decode_encA rest (by simp [candidate, fldA_maj, fldA_fn, fmtAOf_word, decodeFlt]) (by decide) hl

theorem ffma (f : FmtA) : Statement (.ffma f) := by
  intro hl _ rest
  exact decode_encA rest (by simp [candidate, fldA_maj, fldA_fn, fmtAOf_word, decodeFlt]) (by decide) hl

theorem fmin (f : FmtA) : Statement (.fmin f) := by
  intro hl _ rest
  exact decode_encA rest (by simp [candidate, fldA_maj, fldA_fn, fmtAOf_word, decodeFlt]) (by decide) hl

theorem fmax (f : FmtA) : Statement (.fmax f) := by
  intro hl _ rest
  exact decode_encA rest (by simp [candidate, fldA_maj, fldA_fn, fmtAOf_word, decodeFlt]) (by decide) hl

theorem frnd (f : FmtA) : Statement (.frnd f) := by
  intro hl _ rest
  exact decode_encA rest (by simp [candidate, fldA_maj, fldA_fn, fmtAOf_word, decodeFlt]) (by decide) hl

theorem cvt (f : FmtA) : Statement (.cvt f) := by
  intro hl _ rest
  exact decode_encA rest (by simp [candidate, fldA_maj, fldA_fn, fmtAOf_word, decodeFlt]) (by decide) hl

theorem frcp (f : FmtA) : Statement (.frcp f) := by
  intro hl _ rest
  exact decode_encA rest (by simp [candidate, fldA_maj, fldA_fn, fmtAOf_word, decodeFsp]) (by decide) hl

theorem frsq (f : FmtA) : Statement (.frsq f) := by
  intro hl _ rest
  exact decode_encA rest (by simp [candidate, fldA_maj, fldA_fn, fmtAOf_word, decodeFsp]) (by decide) hl

theorem fsqrt (f : FmtA) : Statement (.fsqrt f) := by
  intro hl _ rest
  exact decode_encA rest (by simp [candidate, fldA_maj, fldA_fn, fmtAOf_word, decodeFsp]) (by decide) hl

theorem fexp2 (f : FmtA) : Statement (.fexp2 f) := by
  intro hl _ rest
  exact decode_encA rest (by simp [candidate, fldA_maj, fldA_fn, fmtAOf_word, decodeFsp]) (by decide) hl

theorem flog2 (f : FmtA) : Statement (.flog2 f) := by
  intro hl _ rest
  exact decode_encA rest (by simp [candidate, fldA_maj, fldA_fn, fmtAOf_word, decodeFsp]) (by decide) hl

theorem fsinpi (f : FmtA) : Statement (.fsinpi f) := by
  intro hl _ rest
  exact decode_encA rest (by simp [candidate, fldA_maj, fldA_fn, fmtAOf_word, decodeFsp]) (by decide) hl

theorem fcospi (f : FmtA) : Statement (.fcospi f) := by
  intro hl _ rest
  exact decode_encA rest (by simp [candidate, fldA_maj, fldA_fn, fmtAOf_word, decodeFsp]) (by decide) hl

theorem qpack (f : FmtA) : Statement (.qpack f) := by
  intro hl _ rest
  exact decode_encA rest (by simp [candidate, fldA_maj, fldA_fn, fmtAOf_word, decodeQl]) (by decide) hl

theorem qunpk (f : FmtA) : Statement (.qunpk f) := by
  intro hl _ rest
  exact decode_encA rest (by simp [candidate, fldA_maj, fldA_fn, fmtAOf_word, decodeQl]) (by decide) hl

theorem shfl (f : FmtA) : Statement (.shfl f) := by
  intro hl _ rest
  exact decode_encA rest (by simp [candidate, fldA_maj, fldA_fn, fmtAOf_word, decodeQl]) (by decide) hl

theorem vote (f : FmtA) : Statement (.vote f) := by
  intro hl _ rest
  exact decode_encA rest (by simp [candidate, fldA_maj, fldA_fn, fmtAOf_word, decodeQl]) (by decide) hl

theorem matchEq (f : FmtA) : Statement (.matchEq f) := by
  intro hl _ rest
  exact decode_encA rest (by simp [candidate, fldA_maj, fldA_fn, fmtAOf_word, decodeQl]) (by decide) hl

theorem redux (f : FmtA) : Statement (.redux f) := by
  intro hl _ rest
  exact decode_encA rest (by simp [candidate, fldA_maj, fldA_fn, fmtAOf_word, decodeQl]) (by decide) hl

theorem scan (f : FmtA) : Statement (.scan f) := by
  intro hl _ rest
  exact decode_encA rest (by simp [candidate, fldA_maj, fldA_fn, fmtAOf_word, decodeQl]) (by decide) hl

theorem pand (f : FmtA) : Statement (.pand f) := by
  intro hl _ rest
  exact decode_encA rest (by simp [candidate, fldA_maj, fldA_fn, fmtAOf_word, decodePred]) (by decide) hl

theorem por (f : FmtA) : Statement (.por f) := by
  intro hl _ rest
  exact decode_encA rest (by simp [candidate, fldA_maj, fldA_fn, fmtAOf_word, decodePred]) (by decide) hl

theorem pxor (f : FmtA) : Statement (.pxor f) := by
  intro hl _ rest
  exact decode_encA rest (by simp [candidate, fldA_maj, fldA_fn, fmtAOf_word, decodePred]) (by decide) hl

theorem pandn (f : FmtA) : Statement (.pandn f) := by
  intro hl _ rest
  exact decode_encA rest (by simp [candidate, fldA_maj, fldA_fn, fmtAOf_word, decodePred]) (by decide) hl

theorem pmov (f : FmtA) : Statement (.pmov f) := by
  intro hl _ rest
  exact decode_encA rest (by simp [candidate, fldA_maj, fldA_fn, fmtAOf_word, decodePred]) (by decide) hl

theorem pcnt (f : FmtA) : Statement (.pcnt f) := by
  intro hl _ rest
  exact decode_encA rest (by simp [candidate, fldA_maj, fldA_fn, fmtAOf_word, decodePred]) (by decide) hl

theorem win (f : FmtA) : Statement (.win f) := by
  intro hl _ rest
  exact decode_encA rest (by simp [candidate, fldA_maj, fldA_fn, fmtAOf_word, decodeRegs]) (by decide) hl

theorem xset (f : FmtA) : Statement (.xset f) := by
  intro hl _ rest
  exact decode_encA rest (by simp [candidate, fldA_maj, fldA_fn, fmtAOf_word, decodeRegs]) (by decide) hl

theorem xld (f : FmtA) : Statement (.xld f) := by
  intro hl _ rest
  exact decode_encA rest (by simp [candidate, fldA_maj, fldA_fn, fmtAOf_word, decodeRegs]) (by decide) hl

theorem xget (f : FmtA) : Statement (.xget f) := by
  intro hl _ rest
  exact decode_encA rest (by simp [candidate, fldA_maj, fldA_fn, fmtAOf_word, decodeRegs]) (by decide) hl

theorem br (cond : BitVec 4) (f : FmtC) : Statement (.br cond f) := by
  intro hl _ rest
  exact decode_encC rest (by intro m n hm hn; simp only [candidate, fldC_maj, fldC_fn, fmtCOf_word]; simp [hm, hn]) (by decide) hl

theorem call (f : FmtC) : Statement (.call f) := by
  intro hl _ rest
  exact decode_encC rest (by intro m n hm hn; simp only [candidate, fldC_maj, fldC_fn, fmtCOf_word]; simp [hm, hn]) (by decide) hl

theorem split (f : FmtC) : Statement (.split f) := by
  intro hl _ rest
  exact decode_encC rest (by intro m n hm hn; simp only [candidate, fldC_maj, fldC_fn, fmtCOf_word]; simp [hm, hn]) (by decide) hl

theorem lpool (f : FmtC) : Statement (.lpool f) := by
  intro hl _ rest
  exact decode_encC rest (by intro m n hm hn; simp only [candidate, fldC_maj, fldC_fn, fmtCOf_word]; simp [hm, hn]) (by decide) hl

theorem leave (depth : BitVec 4) (f : FmtC) : Statement (.leave depth f) := by
  intro hl _ rest
  exact decode_encC rest (by intro m n hm hn; simp only [candidate, fldC_maj, fldC_fn, fmtCOf_word]; simp [hm, hn]) (by decide) hl

theorem ldl (f : FmtL) : Statement (.ldl f) := by
  intro hl _ rest
  refine decodeWords_of_candidate (px := none) rest ?_ ?_ hl
  · simp [candidate, fldL_maj, fldL_d, fldL_w, fldL_off]
  · simp [isPrefix, fldL_maj]

theorem ld (f : FmtM) : Statement (.ld f) := by
  intro hl _ rest
  exact decode_encM rest (by simp [candidate, fldM_maj, fmtMOf_word]) (by decide) hl

theorem st (f : FmtM) : Statement (.st f) := by
  intro hl _ rest
  exact decode_encM rest (by simp [candidate, fldM_maj, fmtMOf_word]) (by decide) hl

theorem lds (f : FmtM) : Statement (.lds f) := by
  intro hl _ rest
  exact decode_encM rest (by simp [candidate, fldM_maj, fmtMOf_word]) (by decide) hl

theorem sts (f : FmtM) : Statement (.sts f) := by
  intro hl _ rest
  exact decode_encM rest (by simp [candidate, fldM_maj, fmtMOf_word]) (by decide) hl

theorem ldu (f : FmtM) : Statement (.ldu f) := by
  intro hl _ rest
  exact decode_encM rest (by simp [candidate, fldM_maj, fmtMOf_word]) (by decide) hl

theorem stu (f : FmtM) : Statement (.stu f) := by
  intro hl _ rest
  exact decode_encM rest (by simp [candidate, fldM_maj, fmtMOf_word]) (by decide) hl

theorem atom (f : FmtA) : Statement (.atom f) := by
  intro hl _ rest
  exact decode_encA rest (by simp [candidate, fldA_maj, fldA_fn, fmtAOf_word, decodeAtomic]) (by decide) hl

theorem red (f : FmtA) : Statement (.red f) := by
  intro hl _ rest
  exact decode_encA rest (by simp [candidate, fldA_maj, fldA_fn, fmtAOf_word, decodeAtomic]) (by decide) hl

theorem acas (f : FmtA) : Statement (.acas f) := by
  intro hl _ rest
  exact decode_encA rest (by simp [candidate, fldA_maj, fldA_fn, fmtAOf_word, decodeAtomic]) (by decide) hl

theorem atoms (f : FmtA) : Statement (.atoms f) := by
  intro hl _ rest
  exact decode_encA rest (by simp [candidate, fldA_maj, fldA_fn, fmtAOf_word, decodeAtomic]) (by decide) hl

theorem rwl (f : FmtA) : Statement (.rwl f) := by
  intro hl _ rest
  exact decode_encA rest (by simp [candidate, fldA_maj, fldA_fn, fmtAOf_word, decodeAtomic]) (by decide) hl

theorem fence (f : FmtA) : Statement (.fence f) := by
  intro hl _ rest
  exact decode_encA rest (by simp [candidate, fldA_maj, fldA_fn, fmtAOf_word, decodeMemctl]) (by decide) hl

theorem place (f : FmtA) : Statement (.place f) := by
  intro hl _ rest
  exact decode_encA rest (by simp [candidate, fldA_maj, fldA_fn, fmtAOf_word, decodeMemctl]) (by decide) hl

theorem peq (f : FmtA) : Statement (.peq f) := by
  intro hl _ rest
  exact decode_encA rest (by simp [candidate, fldA_maj, fldA_fn, fmtAOf_word, decodeMemctl]) (by decide) hl

theorem pins (f : FmtA) : Statement (.pins f) := by
  intro hl _ rest
  exact decode_encA rest (by simp [candidate, fldA_maj, fldA_fn, fmtAOf_word, decodeMemctl]) (by decide) hl

theorem pinv (f : FmtA) : Statement (.pinv f) := by
  intro hl _ rest
  exact decode_encA rest (by simp [candidate, fldA_maj, fldA_fn, fmtAOf_word, decodeMemctl]) (by decide) hl

theorem vdie (f : FmtA) : Statement (.vdie f) := by
  intro hl _ rest
  exact decode_encA rest (by simp [candidate, fldA_maj, fldA_fn, fmtAOf_word, decodeMemctl]) (by decide) hl

theorem bar (f : FmtA) : Statement (.bar f) := by
  intro hl _ rest
  have hb : f.b.toNat / 32 = 0 := by
    have h := hl
    simp [Instr.legal, barNumberOk] at h
    omega
  exact decode_encA rest (by simp [candidate, fldA_maj, fldA_fn, fmtAOf_word, decodeSync, formBits, hb]) (by decide) hl

theorem barArrive (f : FmtA) : Statement (.barArrive f) := by
  intro hl _ rest
  have hb : f.b.toNat / 32 = 1 := by
    have h := hl
    simp [Instr.legal, barNumberOk, BitVec.le_def] at h
    omega
  exact decode_encA rest (by simp [candidate, fldA_maj, fldA_fn, fmtAOf_word, decodeSync, formBits, hb]) (by decide) hl

theorem barWait (f : FmtA) : Statement (.barWait f) := by
  intro hl _ rest
  have hb : f.b.toNat / 32 = 2 := by
    have h := hl
    simp [Instr.legal] at h
    have := congrArg BitVec.toNat h.1.2; simp at this; omega
  exact decode_encA rest (by simp [candidate, fldA_maj, fldA_fn, fmtAOf_word, decodeSync, formBits, hb]) (by decide) hl

theorem barcfg (f : FmtA) : Statement (.barcfg f) := by
  intro hl _ rest
  exact decode_encA rest (by simp [candidate, fldA_maj, fldA_fn, fmtAOf_word, decodeSync]) (by decide) hl

theorem gbar (f : FmtA) : Statement (.gbar f) := by
  intro hl _ rest
  have hb : f.b.toNat / 32 = 0 := by
    have h := hl
    simp [Instr.legal, BitVec.lt_def] at h
    omega
  exact decode_encA rest (by simp [candidate, fldA_maj, fldA_fn, fmtAOf_word, decodeSync, formBits, hb]) (by decide) hl

theorem gbarArrive (f : FmtA) : Statement (.gbarArrive f) := by
  intro hl _ rest
  have hb : f.b.toNat / 32 = 1 := by
    have h := hl
    simp [Instr.legal, BitVec.le_def, BitVec.lt_def] at h
    omega
  exact decode_encA rest (by simp [candidate, fldA_maj, fldA_fn, fmtAOf_word, decodeSync, formBits, hb]) (by decide) hl

theorem gbarWait (f : FmtA) : Statement (.gbarWait f) := by
  intro hl _ rest
  have hb : f.b.toNat / 32 = 2 := by
    have h := hl
    simp [Instr.legal] at h
    have := congrArg BitVec.toNat h.1.2; simp at this; omega
  exact decode_encA rest (by simp [candidate, fldA_maj, fldA_fn, fmtAOf_word, decodeSync, formBits, hb]) (by decide) hl

theorem sigpost (f : FmtA) : Statement (.sigpost f) := by
  intro hl _ rest
  have hc : f.cl = 0 := by have h := hl; simp [Instr.legal] at h; simp [h]
  exact decode_encA rest (by simp only [candidate, fldA_maj, fldA_fn, fmtAOf_word]; simp [decodeSync, hc]; cases f; simp_all) (by decide) hl

theorem sigpostRemote (f : FmtA) : Statement (.sigpostRemote f) := by
  intro hl _ rest
  have hc : f.cl = 1 := by have h := hl; simp [Instr.legal] at h; simp [h]
  exact decode_encA rest (by simp only [candidate, fldA_maj, fldA_fn, fmtAOf_word]; simp [decodeSync, hc]; cases f; simp_all) (by decide) hl

theorem sigpostAddr (f : FmtA) : Statement (.sigpostAddr f) := by
  intro hl _ rest
  have hc : f.cl = 2 := by have h := hl; simp [Instr.legal] at h; simp [h]
  exact decode_encA rest (by simp only [candidate, fldA_maj, fldA_fn, fmtAOf_word]; simp [decodeSync, hc]; cases f; simp_all) (by decide) hl

theorem sigwait (f : FmtA) : Statement (.sigwait f) := by
  intro hl _ rest
  exact decode_encA rest (by simp [candidate, fldA_maj, fldA_fn, fmtAOf_word, decodeSync]) (by decide) hl

theorem waitcnt (f : FmtA) : Statement (.waitcnt f) := by
  intro hl _ rest
  exact decode_encA rest (by simp [candidate, fldA_maj, fldA_fn, fmtAOf_word, decodeSync]) (by decide) hl

theorem copy (f : FmtA) : Statement (.copy f) := by
  intro hl _ rest
  exact decode_encA rest (by simp [candidate, fldA_maj, fldA_fn, fmtAOf_word, decodeEngine]) (by decide) hl

theorem gather (f : FmtA) : Statement (.gather f) := by
  intro hl _ rest
  exact decode_encA rest (by simp [candidate, fldA_maj, fldA_fn, fmtAOf_word, decodeEngine]) (by decide) hl

theorem scatter (f : FmtA) : Statement (.scatter f) := by
  intro hl _ rest
  exact decode_encA rest (by simp [candidate, fldA_maj, fldA_fn, fmtAOf_word, decodeEngine]) (by decide) hl

theorem coll (f : FmtA) : Statement (.coll f) := by
  intro hl _ rest
  exact decode_encA rest (by simp [candidate, fldA_maj, fldA_fn, fmtAOf_word, decodeEngine]) (by decide) hl

theorem mstore (f : FmtA) : Statement (.mstore f) := by
  intro hl _ rest
  exact decode_encA rest (by simp [candidate, fldA_maj, fldA_fn, fmtAOf_word, decodeEngine]) (by decide) hl

theorem rload (f : FmtA) : Statement (.rload f) := by
  intro hl _ rest
  exact decode_encA rest (by simp [candidate, fldA_maj, fldA_fn, fmtAOf_word, decodeEngine]) (by decide) hl

theorem putsig (f : FmtA) : Statement (.putsig f) := by
  intro hl _ rest
  exact decode_encA rest (by simp [candidate, fldA_maj, fldA_fn, fmtAOf_word, decodeEngine]) (by decide) hl

theorem mma (f : FmtA) : Statement (.mma f) := by
  intro hl _ rest
  exact decode_encA rest (by simp [candidate, fldA_maj, fldA_fn, fmtAOf_word, decodeMatrix]) (by decide) hl

theorem mmab (f : FmtA) : Statement (.mmab f) := by
  intro hl _ rest
  exact decode_encA rest (by simp [candidate, fldA_maj, fldA_fn, fmtAOf_word, decodeMatrix]) (by decide) hl

theorem accz (f : FmtA) : Statement (.accz f) := by
  intro hl _ rest
  exact decode_encA rest (by simp [candidate, fldA_maj, fldA_fn, fmtAOf_word, decodeMatrix]) (by decide) hl

theorem accrd (f : FmtA) : Statement (.accrd f) := by
  intro hl _ rest
  have hc : f.cl = 0 := by have h := hl; simp [Instr.legal] at h; simp [h]
  exact decode_encA rest (by simp only [candidate, fldA_maj, fldA_fn, fmtAOf_word]; simp [decodeMatrix, hc]; cases f; simp_all) (by decide) hl

theorem accrdStat (f : FmtA) : Statement (.accrdStat f) := by
  intro hl _ rest
  have hc : f.cl = 1 := by have h := hl; simp [Instr.legal] at h; simp [h]
  exact decode_encA rest (by simp only [candidate, fldA_maj, fldA_fn, fmtAOf_word]; simp [decodeMatrix, hc]; cases f; simp_all) (by decide) hl

theorem accwr (f : FmtA) : Statement (.accwr f) := by
  intro hl _ rest
  have hc : f.cl = 0 := by have h := hl; simp [Instr.legal] at h; simp [h]
  exact decode_encA rest (by simp only [candidate, fldA_maj, fldA_fn, fmtAOf_word]; simp [decodeMatrix, hc]; cases f; simp_all) (by decide) hl

theorem accwrStat (f : FmtA) : Statement (.accwrStat f) := by
  intro hl _ rest
  have hc : f.cl = 1 := by have h := hl; simp [Instr.legal] at h; simp [h]
  exact decode_encA rest (by simp only [candidate, fldA_maj, fldA_fn, fmtAOf_word]; simp [decodeMatrix, hc]; cases f; simp_all) (by decide) hl

theorem accst (f : FmtA) : Statement (.accst f) := by
  intro hl _ rest
  exact decode_encA rest (by simp [candidate, fldA_maj, fldA_fn, fmtAOf_word, decodeMatrix]) (by decide) hl

theorem twalk (f : FmtA) : Statement (.twalk f) := by
  intro hl _ rest
  exact decode_encA rest (by simp [candidate, fldA_maj, fldA_fn, fmtAOf_word, decodeWork]) (by decide) hl

theorem tnext (f : FmtA) : Statement (.tnext f) := by
  intro hl _ rest
  exact decode_encA rest (by simp [candidate, fldA_maj, fldA_fn, fmtAOf_word, decodeWork]) (by decide) hl

theorem refill (f : FmtA) : Statement (.refill f) := by
  intro hl _ rest
  exact decode_encA rest (by simp [candidate, fldA_maj, fldA_fn, fmtAOf_word, decodeWork]) (by decide) hl

theorem launch (p : Packet) : Statement (.launch p) := by
  intro _ h; simp [Instr.encoded, encode] at h

theorem nopPacket (p : Packet) : Statement (.nopPacket p) := by
  intro _ h; simp [Instr.encoded, encode] at h

theorem barrierAnd (p : Packet) : Statement (.barrierAnd p) := by
  intro _ h; simp [Instr.encoded, encode] at h

theorem barrierAndComplete (job : Nat) : Statement (.barrierAndComplete job) := by
  intro _ h; simp [Instr.encoded, encode] at h

theorem signalPacket (p : Packet) : Statement (.signalPacket p) := by
  intro _ h; simp [Instr.encoded, encode] at h

theorem copyPacket (p : Packet) : Statement (.copyPacket p) := by
  intro _ h; simp [Instr.encoded, encode] at h

theorem queueDoorbell (tenant queue : Nat) : Statement (.queueDoorbell tenant queue) := by
  intro _ h; simp [Instr.encoded, encode] at h

theorem queuePoll (tenant queue : Nat) : Statement (.queuePoll tenant queue) := by
  intro _ h; simp [Instr.encoded, encode] at h

theorem ccbgo (tenant : Nat) : Statement (.ccbgo tenant) := by
  intro _ h; simp [Instr.encoded, encode] at h

theorem qctlActivate (tenant queue : Nat) : Statement (.qctlActivate tenant queue) := by
  intro _ h; simp [Instr.encoded, encode] at h

theorem qctlDrain (tenant queue : Nat) : Statement (.qctlDrain tenant queue) := by
  intro _ h; simp [Instr.encoded, encode] at h

theorem qctlAbort (tenant queue : Nat) : Statement (.qctlAbort tenant queue) := by
  intro _ h; simp [Instr.encoded, encode] at h

theorem fqreplay (tenant index : Nat) : Statement (.fqreplay tenant index) := by
  intro _ h; simp [Instr.encoded, encode] at h

theorem fqreplayTrap (tenant index : Nat) : Statement (.fqreplayTrap tenant index) := by
  intro _ h; simp [Instr.encoded, encode] at h

theorem fqtailPoll (tenant : Nat) : Statement (.fqtailPoll tenant) := by
  intro _ h; simp [Instr.encoded, encode] at h

theorem hbreg (value : DWord) : Statement (.hbreg value) := by
  intro _ h; simp [Instr.encoded, encode] at h

theorem hbfence (value : DWord) : Statement (.hbfence value) := by
  intro _ h; simp [Instr.encoded, encode] at h

theorem heartbeatWrite : Statement .heartbeatWrite := by
  intro _ h; simp [Instr.encoded, encode] at h

theorem hostFence : Statement .hostFence := by
  intro _ h; simp [Instr.encoded, encode] at h

theorem snaptrig (value : DWord) : Statement (.snaptrig value) := by
  intro _ h; simp [Instr.encoded, encode] at h

theorem snapin : Statement .snapin := by
  intro _ h; simp [Instr.encoded, encode] at h

theorem snapheld (value : DWord) : Statement (.snapheld value) := by
  intro _ h; simp [Instr.encoded, encode] at h

theorem connWrite (entry : Nat) (value : DWord) : Statement (.connWrite entry value) := by
  intro _ h; simp [Instr.encoded, encode] at h

theorem circuitDrainEnd (entry : Nat) : Statement (.circuitDrainEnd entry) := by
  intro _ h; simp [Instr.encoded, encode] at h

theorem serviceRegisterWrite (number : Nat) (value : DWord) : Statement (.serviceRegisterWrite number value) := by
  intro _ h; simp [Instr.encoded, encode] at h

theorem hostRead (pa size tag : Nat) : Statement (.hostRead pa size tag) := by
  intro _ h; simp [Instr.encoded, encode] at h

theorem hostWrite (pa : Nat) (data : List Byte) : Statement (.hostWrite pa data) := by
  intro _ h; simp [Instr.encoded, encode] at h

theorem hostAtomicop (op : HostOp) (pa size tag : Nat) (cmp operand : Nat) : Statement (.hostAtomicop op pa size tag cmp operand) := by
  intro _ h; simp [Instr.encoded, encode] at h

theorem atsInvalidation (lo hi tag : Nat) : Statement (.atsInvalidation lo hi tag) := by
  intro _ h; simp [Instr.encoded, encode] at h

theorem read (page offset size src tag : Nat) : Statement (.read page offset size src tag) := by
  intro _ h; simp [Instr.encoded, encode] at h

theorem write (page offset : Nat) (data : List Byte) (src tag : Nat) : Statement (.write page offset data src tag) := by
  intro _ h; simp [Instr.encoded, encode] at h

theorem atomic (page offset : Nat) (fn op : Nat) (ty : Nat) (operands : List Byte) (src tag : Nat) : Statement (.atomic page offset fn op ty operands src tag) := by
  intro _ h; simp [Instr.encoded, encode] at h

theorem mwrite (group offset : Nat) (data : List Byte) (src tag : Nat) : Statement (.mwrite group offset data src tag) := by
  intro _ h; simp [Instr.encoded, encode] at h

theorem redread (group offset size src tag : Nat) : Statement (.redread group offset size src tag) := by
  intro _ h; simp [Instr.encoded, encode] at h

theorem signal (address : DWord) (value : Word) (tenant src tag : Nat) : Statement (.signal address value tenant src tag) := by
  intro _ h; simp [Instr.encoded, encode] at h

theorem cdata (group seq rank : Nat) (desc : List DWord) (piece : Piece) : Statement (.cdata group seq rank desc piece) := by
  intro _ h; simp [Instr.encoded, encode] at h

theorem fabricTimeout (request : Nat) : Statement (.fabricTimeout request) := by
  intro _ h; simp [Instr.encoded, encode] at h

theorem routeTimeout (crew slice : Nat) : Statement (.routeTimeout crew slice) := by
  intro _ h; simp [Instr.encoded, encode] at h

theorem remapStart (pfn : Nat) (goal : Option RemapGoal) : Statement (.remapStart pfn goal) := by
  intro _ h; simp [Instr.encoded, encode] at h

theorem invalidation (pfn : Nat) (cache : CacheId) : Statement (.invalidation pfn cache) := by
  intro _ h; simp [Instr.encoded, encode] at h

theorem acknowledge (pfn : Nat) (cache : CacheId) : Statement (.acknowledge pfn cache) := by
  intro _ h; simp [Instr.encoded, encode] at h

theorem acknowledgeReceipt (pfn : Nat) (cache : CacheId) (inc : Nat) : Statement (.acknowledgeReceipt pfn cache inc) := by
  intro _ h; simp [Instr.encoded, encode] at h

theorem remapComplete (pfn : Nat) : Statement (.remapComplete pfn) := by
  intro _ h; simp [Instr.encoded, encode] at h

theorem cut (pfn die : Nat) : Statement (.cut pfn die) := by
  intro _ h; simp [Instr.encoded, encode] at h

theorem requestResend (pfn crew slice : Nat) : Statement (.requestResend pfn crew slice) := by
  intro _ h; simp [Instr.encoded, encode] at h

theorem drowsy (die slice bank : Nat) : Statement (.drowsy die slice bank) := by
  intro _ h; simp [Instr.encoded, encode] at h

theorem promotion (crew gang : Nat) : Statement (.promotion crew gang) := by
  intro _ h; simp [Instr.encoded, encode] at h

theorem memoryReply (request : Nat) (data : List Byte) (ok : Bool) : Statement (.memoryReply request data ok) := by
  intro _ h; simp [Instr.encoded, encode] at h

theorem pendingWriteComplete (crew : Nat) : Statement (.pendingWriteComplete crew) := by
  intro _ h; simp [Instr.encoded, encode] at h

theorem tilePost (op : Nat) : Statement (.tilePost op) := by
  intro _ h; simp [Instr.encoded, encode] at h

theorem engineRetire (op : Nat) : Statement (.engineRetire op) := by
  intro _ h; simp [Instr.encoded, encode] at h

theorem engineFault (op : Nat) : Statement (.engineFault op) := by
  intro _ h; simp [Instr.encoded, encode] at h

theorem passRetire (crew : Nat) : Statement (.passRetire crew) := by
  intro _ h; simp [Instr.encoded, encode] at h

theorem collectiveRun (group : Nat) : Statement (.collectiveRun group) := by
  intro _ h; simp [Instr.encoded, encode] at h

theorem partyPlace (launch outing : Nat) (cores : List Nat) : Statement (.partyPlace launch outing cores) := by
  intro _ h; simp [Instr.encoded, encode] at h

theorem partyRetire (party : Nat) : Statement (.partyRetire party) := by
  intro _ h; simp [Instr.encoded, encode] at h

theorem preempt (party : Nat) : Statement (.preempt party) := by
  intro _ h; simp [Instr.encoded, encode] at h

theorem partySave (party : Nat) : Statement (.partySave party) := by
  intro _ h; simp [Instr.encoded, encode] at h

theorem preemptTimeout (party : Nat) : Statement (.preemptTimeout party) := by
  intro _ h; simp [Instr.encoded, encode] at h

theorem partyRestore (party : Nat) (cores : List Nat) : Statement (.partyRestore party cores) := by
  intro _ h; simp [Instr.encoded, encode] at h

theorem dieHeartbeat (die : Nat) : Statement (.dieHeartbeat die) := by
  intro _ h; simp [Instr.encoded, encode] at h

theorem dieHeartbeatMissing (die : Nat) : Statement (.dieHeartbeatMissing die) := by
  intro _ h; simp [Instr.encoded, encode] at h

theorem dieFence (die : Nat) : Statement (.dieFence die) := by
  intro _ h; simp [Instr.encoded, encode] at h

theorem dieRestart (die : Nat) : Statement (.dieRestart die) := by
  intro _ h; simp [Instr.encoded, encode] at h

theorem dieCheckpoint (die : Nat) : Statement (.dieCheckpoint die) := by
  intro _ h; simp [Instr.encoded, encode] at h

theorem fundamentalReset : Statement .fundamentalReset := by
  intro _ h; simp [Instr.encoded, encode] at h

theorem hostLinkLoss : Statement .hostLinkLoss := by
  intro _ h; simp [Instr.encoded, encode] at h

theorem firmwareBoot : Statement .firmwareBoot := by
  intro _ h; simp [Instr.encoded, encode] at h

theorem firmwareUpdate (image : FwImage) : Statement (.firmwareUpdate image) := by
  intro _ h; simp [Instr.encoded, encode] at h

theorem spdmMeasurement (request : List Byte) : Statement (.spdmMeasurement request) := by
  intro _ h; simp [Instr.encoded, encode] at h

theorem powerLimit (die : Nat) : Statement (.powerLimit die) := by
  intro _ h; simp [Instr.encoded, encode] at h

theorem joinwReread (crew slice : Nat) : Statement (.joinwReread crew slice) := by
  intro _ h; simp [Instr.encoded, encode] at h

theorem groupTableWrite (number : Nat) (value : DWord) : Statement (.groupTableWrite number value) := by
  intro _ h; simp [Instr.encoded, encode] at h

theorem copyPacketComplete (job : Nat) : Statement (.copyPacketComplete job) := by
  intro _ h; simp [Instr.encoded, encode] at h

end Laws.Encoding

end Sys2Proof
end

