-- ==== Sys2Proof/Tests/Slice0.lean ====
section
/-! SUPPORT. The model's own tests: words written from the encoding tables, ill-formed terms that the checks refuse, a state that
meets the hypotheses of each statement, and single steps whose results were calculated by hand from the rules named. -/

open Sys2Proof Sys2Proof.Machine

namespace Sys2Proof.Tests

set_option Elab.async false

/-! ### A small machine: one gang of one crew, slice 0 live and active -/

/-- The gang that issues: slice 0 of crew 0. -/
def gang : Issue := { crew := 0, mask := 1, pc := 0x1000, len := 4, word := 0, pfx := none }

/-- The crew: uniform registers 1 to 5 hold the party window and addresses of four pages. -/
def crew0 : Crew :=
  { place := .compute 1 0 0, tenant := 5, g := 16, k := 2, live := 0xF, exec := 0xF
    slices := List.replicate 8 { pc := 0x1000 }
    sregs := [(1, 0xFFFFFF0000000000#64), (2, 0x10000#64), (3, 0x20000#64), (4, 0x30000#64), (5, 0x40000#64)] }

/-- The same crew as a service thread, where it runs at service level. -/
def thread0 : Crew := { crew0 with place := .service 0 0, level := .service }

/-- Its party: 4 KiB of scratchpad, four signal slots, two operand slots, one near frame. -/
def party1 : Party :=
  { launch := 2, index := 0, crews := [0], scratchSize := 4096, slotCount := 2, sigCount := 4
    bars := List.replicate 16 { members := 1 }, nearQuota := 1, nearFrames := [7] }

/-- Its launch, of one party of one crew of 16 registers with four signal slots. -/
def launch2 : Launch :=
  { tenant := 5, queue := 3, tag := 9, res := 0x80000841#64, walks := List.replicate 4 {}, gbars := List.replicate 4 {} }

/-- Its outing. -/
def outing6 : Outing := { launch := 2, index := 0, members := [1], bars := List.replicate 4 { members := 1 } }

/-- Its tenant. -/
def tenant5 : Tenant := { number := 5, octants := 0xF, trapvec := 0x2000, apbase := 0x10000, aplen := 0x1000 }

/-- A cached translation of a page, in the core's cache. -/
def maps (vpn pfn : Nat) (t : MType) (p : Placement := {}) (site : CacheId := .core 0 0) : CacheId × CacheEntry :=
  (site, { tenant := 5, asid := 0, vpn := vpn, leaf := { w := true, x := true, mtype := t, pfn := pfn }, place := p })

/-- A cached host page, with the translation that the host has given. -/
def hostPage : CacheId × CacheEntry :=
  (.core 0 0, { tenant := 5, asid := 0, vpn := 0x40, leaf := { w := true, mtype := .hostSnoop, pfn := 0x40, ats := some 0x40 }, place := {} })

/-- The state around a crew: pages 1 (code) and 0x10 FRAMED at home, 0x20 FABRIC, 0x30 MMIO, 0x40 HOST_SNOOP, and a circuit from
die 0 to the I/O die. -/
def world (c : Crew) (i : Issue := gang) : State :=
  { State.reset with
    issue := some i, nextId := 10, crews := [(0, c)], parties := [(1, party1)], launches := [(2, launch2)]
    outings := [(6, outing6)], tenants := [(5, tenant5)]
    routes := [0x80000100#64]
    caches := [maps 1 1 .framed, maps 0x10 0x10 .framed, maps 0x20 0x7000009 .fabric, maps 0x30 0x30 .mmio, hostPage] }

/-- The crew issues in the state. -/
abbrev issues (s : State) (i : Issue) (c : Crew) : Prop := s.issue = some i ∧ aget s.crews i.crew = some c

/-- Slice 0 of the crew waits. -/
def waiting (c : Crew) (w : Wait) : Crew := c.modSlice 0 fun x => { x with wait := w }

/-- The next state of an outcome. -/
def after (o : Host.Outcome State Fault Refusal) : State :=
  match o with
  | .next t => t
  | _ => State.reset

/-- Crew 0 after an instruction of slice 0. -/
def runs (i : Instr) (c : Crew) : Crew := (after (exec i (world c))).crew 0

/-- A word of register r in lane 0. -/
def vec (c : Crew) (l : List (Nat × Word)) : Crew := { c with vregs := l.foldl (fun m x => sset m (x.1 * 32) x.2) c.vregs }

/-- What the decoder makes of words, none where it refuses them. -/
def reads (ws : List Word) : Option (Instr × List Word) := (decodeWords ws).toOption

/-! ### Words written out from the encoding tables (14 R286 to R300; 21 to 26) -/

/-- Each word reads as its instruction and is the word of it. -/
def wordsMean (l : List (Word × Instr)) : Bool :=
  l.all fun x => (match decodeWords [x.1] with | .ok (i, []) => decide (i = x.2) | _ => false) && decide (encode x.2 = [x.1])

theorem test_decode_system : wordsMean [
   (0x00000000#32, .nop {}), (0x00200000#32, .exit {}), (0x00400000#32, .regang {}), (0x00600100#32, .ret { a := 2 }),
    (0x00812345#32, .trap 0x12345), (0x00A54321#32, .brk 0x54321), (0x00C00000#32, .idem {}),
    (0x00E00000#32, .idemend {}), (0x08000007#32, .syscall 0x7), (0x08200000#32, .eret {}), (0x08400000#32, .snap {}),
    (0x0E60C010#32, .csrr { cl := 3, d := 3, b := 16 }), (0x0E80C010#32, .csrw { cl := 3, d := 3, b := 16 }),
    (0x0EA0C101#32, .spawn { cl := 3, d := 3, a := 2, b := 1 }), (0x0EC00101#32, .joinw { cl := 3, a := 2, b := 1 })] = true := by decide +kernel

theorem test_decode_integer : wordsMean [
   (0x1700C101#32, .iadd { cl := 3, k := 1, d := 3, a := 2, b := 1 }),
    (0x1220C101#32, .isub { cl := 1, d := 3, a := 2, b := 1 }),
    (0x1440C101#32, .imul { cl := 2, d := 3, a := 2, b := 1 }), (0x1060C101#32, .imulh { d := 3, a := 2, b := 1 }),
    (0x1080C101#32, .imin { d := 3, a := 2, b := 1 }), (0x10A0C101#32, .imax { d := 3, a := 2, b := 1 }),
    (0x10C0C100#32, .iabs { d := 3, a := 2 }), (0x10E0C101#32, .imad { d := 3, a := 2, b := 1 }),
    (0x1800C101#32, .lea { d := 3, a := 2, b := 1 }), (0x1C20C001#32, .mov { cl := 2, d := 3, b := 1 }),
    (0x1840C101#32, .sel { d := 3, a := 2, b := 1 }),
    (0x1F60D234#32, .movk { cl := 3, k := 1, d := 3, a := 36, b := 52 }), (0x1880C009#32, .sread { d := 3, b := 9 }),
    (0x18A24001#32, .swrite { d := 9, b := 1 })] = true := by decide +kernel

theorem test_decode_bits : wordsMean [
   (0x18C0C100#32, .popc { d := 3, a := 2 }), (0x18E0C100#32, .clz { d := 3, a := 2 }),
    (0x2000C101#32, .band { d := 3, a := 2, b := 1 }), (0x2020C101#32, .bor { d := 3, a := 2, b := 1 }),
    (0x2040C101#32, .bxor { d := 3, a := 2, b := 1 }), (0x2060C101#32, .bandn { d := 3, a := 2, b := 1 }),
    (0x2080C101#32, .shl { d := 3, a := 2, b := 1 }), (0x20A0C101#32, .shr { d := 3, a := 2, b := 1 }),
    (0x20C0C101#32, .sar { d := 3, a := 2, b := 1 }), (0x20E0C100#32, .brev { d := 3, a := 2 }),
    (0x2800C101#32, .bfx { d := 3, a := 2, b := 1 }), (0x2820C101#32, .bfi { d := 3, a := 2, b := 1 })] = true := by decide +kernel

theorem test_decode_compares_and_float : wordsMean [
   (0x30A0C101#32, .icmp 5 { d := 3, a := 2, b := 1 }), (0x3840C101#32, .fcmp 2 { d := 3, a := 2, b := 1 }),
    (0x4000C101#32, .fadd { d := 3, a := 2, b := 1 }), (0x4020C101#32, .fmul { d := 3, a := 2, b := 1 }),
    (0x4040C101#32, .ffma { d := 3, a := 2, b := 1 }), (0x4060C101#32, .fmin { d := 3, a := 2, b := 1 }),
    (0x4080C101#32, .fmax { d := 3, a := 2, b := 1 }), (0x40A0C100#32, .frnd { d := 3, a := 2 }),
    (0x40C0C100#32, .cvt { d := 3, a := 2 }), (0x4800C100#32, .frcp { d := 3, a := 2 }),
    (0x4820C100#32, .frsq { d := 3, a := 2 }), (0x4840C100#32, .fsqrt { d := 3, a := 2 }),
    (0x4860C100#32, .fexp2 { d := 3, a := 2 }), (0x4880C100#32, .flog2 { d := 3, a := 2 }),
    (0x48A0C100#32, .fsinpi { d := 3, a := 2 }), (0x48C0C100#32, .fcospi { d := 3, a := 2 })] = true := by decide +kernel

theorem test_decode_cross_slice : wordsMean [
   (0x5000C100#32, .qpack { d := 3, a := 2 }), (0x5020C100#32, .qunpk { d := 3, a := 2 }),
    (0x5040C101#32, .shfl { d := 3, a := 2, b := 1 }), (0x5460C100#32, .vote { cl := 2, d := 3, a := 2 }),
    (0x5080C100#32, .matchEq { d := 3, a := 2 }), (0x50A0C100#32, .redux { d := 3, a := 2 }),
    (0x50C0C108#32, .scan { d := 3, a := 2, b := 8 })] = true := by decide +kernel

theorem test_decode_predicates_and_index : wordsMean [
   (0x58040101#32, .pand { d := 16, a := 2, b := 1 }), (0x5820C101#32, .por { d := 3, a := 2, b := 1 }),
    (0x5840C101#32, .pxor { d := 3, a := 2, b := 1 }), (0x5860C101#32, .pandn { d := 3, a := 2, b := 1 }),
    (0x5880C100#32, .pmov { d := 3, a := 2 }), (0x5EA0C100#32, .pcnt { cl := 3, d := 3, a := 2 }),
    (0x67000001#32, .win { cl := 3, k := 1, b := 1 }), (0x66208001#32, .xset { cl := 3, d := 2, b := 1 }),
    (0x60404100#32, .xld { d := 1, a := 2 }), (0x6060C100#32, .xget { d := 3, a := 2 })] = true := by decide +kernel

theorem test_decode_control : wordsMean [
   (0x68A7FFFF#32, .br 1 { p := 4, off := 524287 }), (0x70000010#32, .call { off := 16 }),
    (0x70980020#32, .split { p := 3, off := 32 }), (0x71000008#32, .lpool { off := 8 }),
    (0x79000004#32, .leave 2 { off := 4 }), (0x80580003#32, .ldl { d := 5, w := 1, off := 3 })] = true := by decide +kernel

theorem test_decode_memory : wordsMean [
   (0x8AA0C100#32, .ld { am := 1, sz := 2, nt := 1, d := 3, a := 2 }),
    (0x94E0C101#32, .st { am := 2, sz := 3, nt := 1, d := 3, a := 2, b := 1 }),
    (0x9800C101#32, .lds { d := 3, a := 2, b := 1 }), (0xA240C100#32, .sts { am := 1, sz := 1, d := 3, a := 2 }),
    (0xACC10101#32, .ldu { am := 2, sz := 3, d := 4, a := 2, b := 1 }),
    (0xB4A0C101#32, .stu { am := 2, sz := 2, nt := 1, d := 3, a := 2, b := 1 }),
    (0xB800C109#32, .atom { d := 3, a := 2, b := 9 }), (0xB820C109#32, .red { d := 3, a := 2, b := 9 }),
    (0xB840C109#32, .acas { d := 3, a := 2, b := 9 }), (0xB860C109#32, .atoms { d := 3, a := 2, b := 9 }),
    (0xB880C109#32, .rwl { d := 3, a := 2, b := 9 })] = true := by decide +kernel

theorem test_decode_memory_control : wordsMean [
   (0xC6000003#32, .fence { cl := 3, b := 3 }), (0xC6200104#32, .place { cl := 3, a := 2, b := 4 }),
    (0xC640C100#32, .peq { cl := 3, d := 3, a := 2 }), (0xC660C101#32, .pins { cl := 3, d := 3, a := 2, b := 1 }),
    (0xC6804105#32, .pinv { cl := 3, d := 1, a := 2, b := 5 }),
    (0xC7A0C128#32, .vdie { cl := 3, k := 1, d := 3, a := 2, b := 40 })] = true := by decide +kernel

theorem test_decode_barriers_and_signals : wordsMean [
   (0xCA000002#32, .bar { cl := 1, b := 2 }), (0xCA00C023#32, .barArrive { cl := 1, d := 3, b := 35 }),
    (0xC8000140#32, .barWait { a := 2, b := 64 }), (0xC820010F#32, .barcfg { a := 2, b := 15 }),
    (0xC8400003#32, .gbar { b := 3 }), (0xC840C022#32, .gbarArrive { d := 3, b := 34 }),
    (0xC8400140#32, .gbarWait { a := 2, b := 64 }), (0xC961C001#32, .sigpost { k := 1, d := 7, b := 1 }),
    (0xCA600101#32, .sigpostRemote { cl := 1, a := 2, b := 1 }),
    (0xCC60C005#32, .sigpostAddr { cl := 2, d := 3, b := 5 }), (0xC88FC001#32, .sigwait { d := 63, b := 1 }),
    (0xC8A08000#32, .waitcnt { d := 2 })] = true := by decide +kernel

theorem test_decode_engines : wordsMean [
   (0xD6000100#32, .copy { cl := 3, a := 2 }), (0xD6200100#32, .gather { cl := 3, a := 2 }),
    (0xD6404100#32, .scatter { cl := 3, d := 1, a := 2 }), (0xD6600100#32, .coll { cl := 3, a := 2 }),
    (0xD280C101#32, .mstore { cl := 1, d := 3, a := 2, b := 1 }),
    (0xD2A0C101#32, .rload { cl := 1, d := 3, a := 2, b := 1 }), (0xD0C0C101#32, .putsig { d := 3, a := 2, b := 1 })] = true := by decide +kernel

theorem test_decode_matrix : wordsMean [
   (0xD8008101#32, .mma { d := 2, a := 2, b := 1 }), (0xD8208101#32, .mmab { d := 2, a := 2, b := 1 }),
    (0xD840C000#32, .accz { d := 3 }), (0xD860C103#32, .accrd { d := 3, a := 2, b := 3 }),
    (0xDA60C100#32, .accrdStat { cl := 1, d := 3, a := 2 }), (0xD880C103#32, .accwr { d := 3, a := 2, b := 3 }),
    (0xDA80C100#32, .accwrStat { cl := 1, d := 3, a := 2 }), (0xD8A0C101#32, .accst { d := 3, a := 2, b := 1 })] = true := by decide +kernel

theorem test_decode_work : wordsMean [
   (0xE600C101#32, .twalk { cl := 3, d := 3, a := 2, b := 1 }), (0xE620C002#32, .tnext { cl := 3, d := 3, b := 2 }),
    (0xE040C101#32, .refill { d := 3, a := 2, b := 1 })] = true := by decide +kernel

/-- Prefixed instructions of the spec's worked examples: ACAS.B128.ACQREL.SYS, ACCRD.E4M3, BFX.SI32, CVT.E2M1.F32, FFMA with v6 as C,
IABS.SAT, SEL with p5 as C, SIGPOST.REL.DEV and RWL.WRLOCK.ACQ.DEV (chapters 21 to 25). -/
theorem test_decode_prefixed :
    ([([0xFF80B800, 0xB8420C00], .acas { px := some { dt := 15, scope := 5, ord := 3 }, d := 8, a := 24 }),
      ([0xFB000000, 0xD8650082], .accrd { px := some { dt := 6 }, d := 20, a := 1, b := 2 }),
      ([0xFD000000, 0x2A010286], .bfx { px := some { dt := 10 }, cl := 1, d := 4, a := 5, b := 6 }),
      ([0xFB900000, 0x40C14200], .cvt { px := some { dt := 7, st := 2 }, d := 5, a := 4 }),
      ([0xF8000106, 0x4040C205], .ffma { px := some { cp := true, c := 6 }, d := 3, a := 4, b := 5 }),
      ([0xF8010000, 0x10C0C200], .iabs { px := some { sat := true }, d := 3, a := 4 }),
      ([0xF8000105, 0x1940C200], .sel { px := some { cp := true, c := 5 }, k := 1, d := 3, a := 4 }),
      ([0xF8009114, 0xC8608009], .sigpost { px := some { scope := 4, ord := 2, cp := true, c := 20 }, d := 2, b := 9 }),
      ([0xF8008800, 0xB9824200], .rwl { px := some { scope := 4, ord := 1 }, k := 1, d := 9, a := 4 })]
      : List (List Word × Instr)).all (fun x => decide (reads x.1 = some (x.2, [])) && decide (encode x.2 = x.1)) = true := by
  decide +kernel

/-! ### Ill-formed instructions are refused, one for each check -/

/-- The checks refuse each instruction, and the decoder refuses its words. -/
def refused (l : List Instr) : Bool := l.all fun i => !i.legal && (reads (encode i)).isNone

theorem test_refuses_system : refused [
    .nop { b := 1 }, .exit { d := 1 }, .regang { a := 1 }, .idem { cl := 1 }, .idemend { k := 1 }, .eret { px := some {} }, .snap { b := 1 },
    .ret { d := 1 }, .ret { cl := 1 }, .ret { b := 1 }, .csrr { cl := 3, b := 7 }, .csrr { cl := 2 }, .csrw { cl := 3, b := 0x32 },
    .csrw { cl := 3, a := 0x20, b := 0 }, .spawn { cl := 3, a := 121 }, .spawn { cl := 3, b := 121 }, .joinw { cl := 3, d := 1 }] = true := by
  decide +kernel

theorem test_refuses_integer : refused [
    .iadd { px := some { dt := 1 } }, .isub { px := some { cp := true } }, .imul { px := some { st := 1 } }, .imad { px := some { rnd := 1 } },
    .imulh { px := some { na := true } }, .imin { px := some { dt := 14 } }, .imax { k := 1, b := 64 }, .iabs { cl := 1 }, .iabs { b := 1 },
    .iabs { k := 1 }, .lea { cl := 1 }, .lea { px := some { dt := 7 } }, .mov { a := 1 }, .mov { px := some {} }, .sel { px := some { dt := 0, cp := true, c := 17 } },
    .movk { cl := 1 }, .sread { b := 0x12 }, .sread { cl := 3, b := 0x0A }, .sread { a := 1 }, .swrite { d := 0x0C }, .popc { b := 1 }, .clz { cl := 2 }]
    = true := by
  decide +kernel

theorem test_refuses_bits_and_float : refused [
    .band { px := some { dt := 2 } }, .shl { px := some { sat := true } }, .bfi { px := some { cp := true } }, .brev { cl := 1 },
    .icmp 6 {}, .icmp 0 { d := 17 }, .icmp 0 { px := some { dt := 2 } }, .fcmp 0 { d := 17 }, .fcmp 0 { px := some { dt := 10 } }, .fadd { px := some { dt := 10 } },
    .fmul { px := some { sat := true } }, .ffma { px := some { st := 1 } }, .fmin { px := some { rnd := 1 } }, .fmax { px := some { scope := 1 } },
    .frnd { b := 1 }, .frnd { cl := 1 }, .cvt { px := some { dt := 14 } }, .cvt { px := some { st := 15 } }, .cvt { cl := 2 }, .frcp { cl := 3 }, .frsq { b := 1 },
    .fsqrt { px := some { dt := 1 } }, .fexp2 { k := 1 }, .flog2 { px := some { nb := true } }, .fsinpi { px := some { sat := true } }, .fcospi { cl := 1 }]
    = true := by
  decide +kernel

theorem test_refuses_cross_slice_and_registers : refused [
    .qpack { cl := 3 }, .qpack { px := some { dt := 2 } }, .qunpk { b := 1 }, .shfl { cl := 2 }, .shfl { px := some { dt := 2 } }, .vote { cl := 3 },
    .vote { a := 17 }, .vote { b := 1 }, .matchEq { cl := 1 }, .matchEq { b := 1 }, .redux { b := 8 }, .redux { b := 6 }, .redux { b := 3, px := some { dt := 2 } },
    .scan { b := 16 }, .scan { px := some { rnd := 1 } }, .pand { d := 17 }, .por { a := 17 }, .pxor { b := 17 }, .pandn { cl := 1 }, .pmov { b := 1 },
    .pcnt { cl := 0 }, .pcnt { cl := 3, a := 17 }, .win { cl := 3, d := 1 }, .win {}, .xset { cl := 3, d := 8 }, .xset { cl := 3, a := 1 }, .xld { d := 8 },
    .xld { b := 1 }, .xget { a := 8 }, .xget { cl := 1 }] = true := by
  decide +kernel

theorem test_refuses_control_and_memory : refused [
    .br 7 {}, .br 0 { p := 1 }, .br 5 { p := 1 }, .call { p := 1 }, .lpool { p := 1 }, .leave 0 { p := 1 },
    .ld { sz := 7 }, .ld { am := 1, b := 1 }, .ld { px := some { scope := 6, ord := 1 } }, .ld { px := some { ord := 2 } }, .st { sz := 5 }, .st { am := 1, b := 1 },
    .st { px := some { ord := 1 } }, .st { px := some { cp := true, c := 1 } }, .st { px := some { ord := 2, cp := true, c := 127 } }, .lds { am := 2 }, .lds { nt := 1 },
    .sts { sz := 6 }, .sts { am := 2 }, .ldu { am := 0 }, .ldu { am := 2, sz := 4, d := 127 }, .stu { am := 2, sz := 5 }, .stu { am := 1 },
    .atom { px := some { dt := 9 } }, .red { px := some { scope := 7 } }, .acas { cl := 1 }, .atoms { px := some { dt := 2 }, cl := 3, k := 1 }, .rwl { px := some { dt := 1 } }]
    = true := by
  decide +kernel

theorem test_refuses_control_of_memory_and_barriers : refused [
    .fence { cl := 3, b := 6 }, .fence { b := 1 }, .fence { cl := 3, a := 1 }, .place { cl := 3, d := 3 }, .place {}, .peq { cl := 3, d := 127 }, .peq { cl := 3, b := 1 },
    .pins { cl := 3, b := 2 }, .pinv { cl := 3, d := 2 }, .vdie { cl := 0 }, .bar { b := 16 }, .bar { cl := 1, b := 4 }, .bar { cl := 2 }, .bar { d := 1 },
    .barArrive { b := 48 }, .barArrive { cl := 1, b := 36 }, .barArrive { b := 32, a := 1 }, .barWait { b := 0x41 }, .barWait { cl := 1, b := 0x40 }, .barWait { b := 0x40, d := 1 },
    .barcfg { b := 16 }, .barcfg { d := 1 }, .gbar { b := 4 }, .gbar { d := 1 }, .gbarArrive { b := 36 }, .gbarArrive { b := 32, a := 1 }, .gbarWait { b := 0x41 },
    .sigpost { a := 1 }, .sigpost { px := some { ord := 1 } }, .sigpostRemote { cl := 1, d := 1 }, .sigpostAddr { cl := 2, a := 1 }, .sigwait { a := 1 },
    .sigwait { px := some { ord := 2 } }, .waitcnt { d := 4 }, .waitcnt { b := 64 }, .waitcnt { a := 1 }] = true := by
  decide +kernel

theorem test_refuses_engines_matrix_and_work : refused [
    .copy { cl := 3, a := 113 }, .copy { cl := 3, d := 1 }, .copy {}, .gather { cl := 3, a := 121 }, .gather { cl := 3, b := 1 }, .scatter { cl := 3, d := 3 },
    .scatter { cl := 3, a := 121 }, .coll { cl := 3, a := 123 }, .coll { cl := 3, b := 1 }, .mstore { cl := 3 }, .mstore { px := some {} }, .rload { cl := 3 },
    .rload { px := some { dt := 1 } }, .putsig { a := 127 }, .putsig { cl := 3 }, .mma { d := 8 }, .mma { cl := 1 }, .mma { px := some { cp := true, c := 127 } },
    .mmab { px := some { dt := 1 } }, .accz { d := 8 }, .accz { a := 1 }, .accrd { a := 8 }, .accrd { b := 6 }, .accrd { px := some { dt := 1 } },
    .accrdStat { cl := 1, b := 1 }, .accwr { d := 8 }, .accwr { b := 6 }, .accwr { px := some { dt := 9 } }, .accwrStat { cl := 1, d := 8 }, .accst { b := 2 },
    .accst { a := 8 }, .twalk { cl := 3, a := 126 }, .twalk { cl := 3, b := 4 }, .tnext { cl := 3, a := 1 }, .tnext { cl := 3, b := 4 }, .refill { a := 17 },
    .refill { cl := 1 }] = true := by
  decide +kernel

/-! ### What the statements assume can be met: for each statement that has hypotheses, states and operands that meet them -/

/-- A word, or a prefix and a word, stand at the PC of the crew, and nothing has been fetched. -/
def fetchWorld (p w : Word) : State :=
  State.memWrite { world crew0 with issue := none } 0x1000 (leBytes p.toNat 4 ++ leBytes w.toNat 4)

/-- The gang that is chosen there. -/
def cand (s : State) : Cand := s.chooseGang.getD { key := 0, crew := 0, lead := 0, pos := 0, prio := 0, promoted := false, first := none }

/-- The words that a gang fetches at an address, as a number. -/
def fetched (s : State) (a : Nat) : Option Nat := ((s.fetchRead (s.crew 0) a 4).toOption).map fun x => leNat x.2

theorem test_meets_StepRunsTheDecodedInstruction :
    let s := fetchWorld 0 0
    let t := fetchWorld 0xFE000000 0x1000C101
    s.inputs = [] ∧ s.turn = false ∧ s.chooseGang = some (cand s)
      ∧ fetched (s.begin (cand s)) 0x1000 = some 0 ∧ isPrefix 0 = false ∧ reads [0#32] = some (.nop {}, [])
      ∧ t.chooseGang = some (cand t) ∧ fetched (t.begin (cand t)) 0x1000 = some 0xFE000000 ∧ isPrefix 0xFE000000 = true
      ∧ fetched (t.begin (cand t)) 0x1004 = some 0x1000C101
      ∧ reads [0xFE000000#32, 0x1000C101#32] = some (.iadd { px := some { dt := 12 }, d := 3, a := 2, b := 1 }, []) := by
  dsimp only; decide +kernel

/-- A heartbeat to the host is due. -/
def beating : State := { State.reset with boot := { running := true }, time := 2 ^ 40 }

theorem test_meets_EveryStateSteps :
    let s := fetchWorld 0xFFFFFFFF 0
    ({ State.reset with inputs := [.snapin] } : State).inputs = Instr.snapin :: [] ∧ Instr.snapin.encoded = false
      ∧ State.reset.inputs = [] ∧ State.reset.chooseGang = none ∧ State.reset.internalEvent = none
      ∧ beating.internalEvent ≠ none ∧ eventSources.length = 20 ∧ (eventSources[5]?.map fun f => f { beating with rota := 5 } 0) = some (some .heartbeatWrite)
      ∧ s.inputs = [] ∧ s.turn = false ∧ s.chooseGang = some (cand s)
      ∧ reads [0xE8000000#32] = none := by
  dsimp only; decide +kernel

theorem test_meets_EncodedInstructionsDecode :
    ([.nop {}, .trap 0x1FFFFF, .iadd { px := some { dt := 13, sat := true, na := true, nb := true }, cl := 2, k := 1, d := 127, b := 40 },
      .leave 15 { off := 0x7FFFF }, .ldl { d := 127, w := 1, off := 0x40000 }, .st { px := some { scope := 5, ord := 2 }, am := 3, sz := 4 },
      .accrd { px := some { dt := 9, st := 10, rnd := 3 }, d := 127, a := 7, b := 5 }] : List Instr).all
      (fun i => i.encoded && i.legal) = true := by
  decide +kernel

theorem test_meets_DecodedWordsEncode :
    reads [0x00000000#32] = some (.nop {}, []) ∧ (reads [0xFE000000#32, 0x1000C101#32, 0xFFFFFFFF#32]).map (·.2) = some [0xFFFFFFFF#32] := by
  decide +kernel

theorem test_meets_ResetState : (0 : Nat) < 4 ∧ (3 : Nat) < 4 := by decide

theorem test_meets_MemoryOperations :
    (0x1000 + 4 ≤ 0x1004) ∧ (0x1004 + 4 ≤ 0x1008) ∧ Memory.wf (world crew0).mem = true ∧ Memory.wf [(0, 1)] = true
      ∧ Memory.wf [(5, 0xFF), (2 ^ 53, 7)] = true := by
  decide +kernel

/-- The outcome is a next state. -/
def isNext (o : Host.Outcome State Fault Refusal) : Bool := match o with | .next _ => true | _ => false

theorem test_meets_MemoryStaysCanonical :
    Memory.wf State.reset.mem = true ∧ isNext (step State.reset) = true
      ∧ Memory.wf (fetchWorld 0x00200000 0).mem = true
      ∧ isNext (step (fetchWorld 0x00200000 0)) = true := by
  decide +kernel

theorem test_meets_ExecStaysWithinLiveLanes :
    (∀ kc ∈ (fetchWorld 0x00200000 0).crews, kc.2.exec &&& ~~~(kc.2.live &&& ~~~kc.2.off) = 0)
      ∧ isNext (step (fetchWorld 0x00200000 0)) = true ∧ (0 : Nat) < 32 ∧ (31 : Nat) < 32 := by
  decide +kernel

/-- The state after the constant of an instruction has been read, none where its fetch fails (`State.ReadsConst`). -/
def constRead (s : State) (k : BitVec 1) (b : BitVec 7) : Option (State × Option Konst) :=
  if k = 0 then some (s.taken, none)
  else if !(s.crew 0).pool then some (s.taken, some (.table (b.toNat % 64)))
  else match s.taken.fetchRead (s.crew 0) (((s.crew 0).lpb.toNat + 4 * (b.toNat % 64)) % 2 ^ 64) 4 with
    | .ok (t, bs) => some (t, some (.pool (leNat bs)))
    | _ => none

/-- The crew issues, its constant is read, and every vector name of the operands that it gives passes. -/
def ready (c : Crew) (k : BitVec 1) (b : BitVec 7) (ops : Option Konst → List VOp) : Bool :=
  decide ((world c).issue = some gang) && match constRead (world c) k b with
    | some (t, kc) => decide (aget t.crews 0 = some c) && gang.slices.all fun i => (c.nameFault i (ops kc)).isNone
    | none => false

/-- The operands of a form that computes. -/
def computeOps (f : FmtA) (td ts : Ty) (useA useB : Bool) (third : Option (BitVec 7 × Nat)) (kc : Option Konst) : List VOp :=
  if f.cl = 3 then []
  else [destOp f td] ++ vopsOf [sourceA f useA ts, sourceB f useB ts kc, sourceC f third ts]

/-- A crew with a constant pool, and index register 0 over its last two registers. -/
def pooled : Crew := { crew0 with pool := true, lpb := 0x1000, xuni := [(0, 0x2000E#64)] }

/-- Register 15 is the last of the window of 16, and 120 names index register 0; in every class, with K = 0 and 1. -/
def formsOfA (dt : BitVec 4) : List FmtA :=
  [{ d := 14, a := 120, b := 14, px := some { dt := dt } }, { cl := 1, d := 120, a := 14, b := 127, px := some { dt := dt } },
    { cl := 2, k := 1, d := 14, a := 127, b := 63, px := some { dt := dt } }, { cl := 3, k := 1, d := 127, a := 127, px := some { dt := dt } }]

theorem test_meets_IntegerArithmetic :
    (([10, 13] : List (BitVec 4)).flatMap formsOfA).all (fun f => [crew0, pooled].all fun c => (f.a == 120 || f.d == 120) && !c.pool ||
      ready c f.k f.b fun kc => computeOps f (intTy f.cl f.p.dt) (intTy f.cl f.p.dt) true true (some (f.d, 0)) kc) = true := by
  decide +kernel

theorem test_meets_BitOperations :
    (([10, 14] : List (BitVec 4)).flatMap formsOfA).all (fun f =>
      ready pooled f.k f.b fun kc => computeOps f (bitTy f.cl f.p.dt) (bitTy f.cl f.p.dt) true true (some (f.d, 0)) kc) = true := by
  decide +kernel

theorem test_meets_ComparisonsWritePredicate :
    (formsOfA 0).all (fun f =>
      ready pooled f.k f.b (fun kc => if f.cl = 3 then [] else vopsOf [sourceA f true (intTy f.cl f.p.dt), sourceB f true (intTy f.cl f.p.dt) kc])
        && ready pooled f.k f.b (fun kc => if f.cl = 3 then [] else vopsOf [sourceA f true (fltTy f), sourceB f true (fltTy f) kc]))
      = true ∧ pooled.ten = 0 ∧ (16#7 ≤ 16) ∧ (0#7 ≤ 16) := by
  decide +kernel

theorem test_meets_FloatArithmetic :
    (([0, 2, 1] : List (BitVec 4)).flatMap formsOfA).all (fun f =>
      ready pooled f.k f.b (fun kc => computeOps f (fltTy f) (fltTy f) true true (some (f.d, 0)) kc)
        && ready pooled 0 0 (fun _ => computeOps f (.ofCode .f32 f.p.dt) (.ofCode .f32 f.p.st) true false none none)) = true
      ∧ pooled.ten = 0 := by
  decide +kernel

theorem test_meets_SpecialFunctions :
    ready crew0 0 0 (fun _ => [{ pos := 0, field := 15, n := 1 }, { pos := 1, field := 0, n := 1 }]) = true
      ∧ ready pooled 0 0 (fun _ => [{ pos := 0, field := 120, n := 1 }, { pos := 1, field := 15, n := 1 }]) = true ∧ crew0.ten = 0 := by
  decide +kernel

theorem test_meets_Quantisation :
    ready crew0 0 0 (fun _ => [{ pos := 0, field := 14, n := 2 }, { pos := 1, field := 8, n := 8 }]) = true
      ∧ ready crew0 0 0 (fun _ => [{ pos := 0, field := 8, n := 8 }, { pos := 1, field := 14, n := 2 }]) = true ∧ crew0.ten = 0
      ∧ ([[0x7FC00000], [0x80000000], [0x3F800000], [0x7F800000]] : List (List Nat)).all (fun x => (x ++ List.replicate 7 0).length = 8 && x.all (· < 2 ^ 32)) = true
      ∧ Fmt.f32.value 0x7FC00000 = .nan ∧ 0x80000000 % 2 ^ 31 = 0 ∧ Fmt.f32.value 0x7F800000 = .inf false
      ∧ (∀ i, i < 8 → Fmt.f32.value (([0x3F800000] ++ List.replicate 7 0).getD i 0) ≠ .nan) ∧ 0x3F800000 % 2 ^ 31 ≠ 0
      ∧ 0x1FF % 256 = 255 ∧ 0x1FE % 256 ≠ 255 ∧ 0xFE ≤ 0xFE := by
  decide +kernel

theorem test_meets_MovesWriteSelectedValue :
    (formsOfA 0).all (fun f =>
      ready pooled f.k f.b (fun kc => computeOps f (intTy f.cl 0) (intTy f.cl 0) false true none kc)
        && ready pooled f.k f.b (fun kc => if f.cl = 3 || f.cl = 1 then [] else [{ pos := 0, field := f.d.toNat, n := 2 }]
            ++ vopsOf [srcOf (f.cl == 0) 1 f.a 2, srcOf (f.cl != 3) 2 f.b 1 kc])
        && ready pooled 0 0 (fun _ => if f.cl = 3 then [] else [{ pos := 0, field := f.d.toNat, n := 1 }])) = true := by
  decide +kernel

theorem test_meets_PredicateLogic : issues (world crew0) gang crew0 ∧ (16#7 ≤ 16) ∧ (0#7 ≤ 16) := by decide +kernel

/-- A crew whose uniform register 6 holds a value. -/
def with6 (v : DWord) (c : Crew := crew0) : Crew := c.setSreg 6 v

theorem test_meets_WindowAndIndexRegisters :
    ([0, 8, 16, 3] : List Nat).all (fun v => ready (with6 (BitVec.ofNat 64 v)) 0 6 fun _ => []) = true
      ∧ (0 % 8 = 0 ∧ 0 < crew0.g) ∧ (8 % 8 = 0 ∧ 8 < crew0.g) ∧ ¬(16 % 8 = 0 ∧ 16 < crew0.g) ∧ ¬(3 % 8 = 0 ∧ 3 < crew0.g)
      ∧ (srcOf false 2 6 1 none).read (with6 8) .ui64 0 = 8
      ∧ xBase 0xF#64 + xBound 0x10000#64 ≤ crew0.g ∧ crew0.g < xBase 0x10#64 + xBound 0x10010#64
      ∧ ready pooled 0 0 (fun _ => [{ pos := 1, field := 120, n := 1 }]) = true ∧ (7#7).toNat < 8 := by
  decide +kernel

theorem test_meets_SpecialRegisters :
    issues (world crew0) gang crew0 ∧ issues (world thread0) gang thread0 ∧ (0x11#7 ≤ 0x11) ∧ (0#7 ≤ 0x11) ∧ (0x0A#7).toNat = 0x0A
      ∧ ready crew0 0 0 (fun _ => [{ pos := 0, field := 14, n := 2 }]) = true
      ∧ ready thread0 0 0 (fun _ => [{ pos := 0, field := 15, n := 1 }]) = true
      ∧ ready crew0 0 0 (fun _ => [{ pos := 2, field := 14, n := 2 }]) = true
      ∧ ([0x09, 0x0A, 0x0B, 0x10] : List Nat).all (fun n => decide (((BitVec.ofNat 7 n).toNat) ∈ [0x09, 0x0A, 0x0B, 0x10])) = true := by
  decide +kernel

/-- A crew with a stack in the party window, and the same with a handler in slice 0 that has a record there. -/
def stacked : Crew := { crew0 with hstk := 0xFFFFFF0000000040 }

theorem test_meets_TrapEntry :
    issues (world stacked) gang stacked ∧ gang.slices = 0 :: [] ∧ gang.slices.Nodup ∧ stacked.frozen = none ∧ stacked.handler = none
      ∧ stacked.hstk ≠ 0 ∧ stacked.hstk.toNat % 64 = 0 ∧ (world stacked).tenant 5 = tenant5 ∧ tenant5.trapvec ≠ 0
      ∧ (world stacked).taken.access stacked (stacked.hstk - 64).toNat 64 .write = .ok (.scratch (scratchAddr 1 0) false)
      ∧ (world stacked).taken.stuck ((world stacked).taken.site stacked) (.scratch (scratchAddr 1 0) false) false = false
      ∧ stacked.isService = false ∧ thread0.isService = true ∧ (7 : Nat) < 8 := by
  decide +kernel

/-- The crew's handler runs in slice 0. -/
def handling : Crew := { stacked with handler := some { slice := 0, base := 0xFFFFFF0000000080 } }

/-- The same with its record on another device. -/
def handlingAfar : Crew := { handling with hstk := 0x20040 }

theorem test_meets_TrapReturnAndDouble :
    (List.replicate 64 (0 : Byte)).length = 64
      ∧ issues (world handling) gang handling ∧ gang.slices = [0] ∧ handling.handler = some { slice := 0, base := 0xFFFFFF0000000080 }
      ∧ handling.hstk.toNat % 64 = 0 ∧ (handling.slice 0).wait = .none
      ∧ (world handling).taken.access handling handling.hstk.toNat 64 .read = .ok (.scratch (scratchAddr 1 0x40) false)
      ∧ (world handling).taken.stuck ((world handling).taken.site handling) (.scratch (scratchAddr 1 0x40) false) false = false
      ∧ (world handlingAfar).taken.access handlingAfar 0x20040 64 .read = .ok (.fabric 7 9 0x40) ∧ 0 < (world handlingAfar).nextId
      ∧ (world handlingAfar).taken.stuck ((world handlingAfar).taken.site handlingAfar) (.fabric 7 9 0x40) false = false
      ∧ (Tgt.scratch (scratchAddr 1 0x40) false).remote = false ∧ (Tgt.scratch (scratchAddr 1 0x40) false).violates = false
      ∧ crew0.handler = none
      ∧ aget (world crew0).crews 0 = some crew0 ∧ crew0.frozen = none ∧ crew0.hstk = 0
      ∧ (let c := { crew0 with hstk := 0x40020#64 }; c.hstk.toNat % 64 ≠ 0) := by
  dsimp only; decide +kernel

/-- Every flag traps; register 2 holds infinity and register 1 its negative in lane 0. -/
def strict : Crew := { vec crew0 [(2, 0x7F800000#32), (1, 0xFF800000#32)] with ten := 0x1F, sregs := [(1, 0xFF800000#64), (2, 0x7F800000#64)] }

theorem test_meets_FlagTrap :
    ready strict 0 1 (fun kc => computeOps { d := 3, a := 2, b := 1 } .f32 .f32 true true none kc) = true
      ∧ 0 ∈ strict.activeOf 0 ∧ (fadd .f32 .rn (Fmt.f32.value (strict.vreg 2 0).toNat) (Fmt.f32.value (strict.vreg 1 0).toNat)).fl &&& strict.ten ≠ 0
      ∧ (fadd .f32 .rn (Fmt.f32.value (strict.sreg 2).toNat) (Fmt.f32.value (strict.sreg 1).toNat)).fl &&& strict.ten ≠ 0
      ∧ ready strict 0 0 (fun _ => [{ pos := 0, field := 4, n := 2 }, { pos := 1, field := 8, n := 8 }]) = true
      ∧ ready strict 0 0 (fun _ => [{ pos := 0, field := 8, n := 8 }, { pos := 1, field := 4, n := 2 }]) = true
      ∧ (fcmpHolds 2 .nan (.inf false)).2 &&& strict.ten ≠ 0 ∧ (qpack (0x7FC00000 :: List.replicate 7 0)).2.2 &&& strict.ten ≠ 0 ∧ (16#7 ≤ 16) := by
  decide +kernel

theorem test_meets_NopOnlyAdvances :
    issues (world crew0) gang crew0
      ∧ (0x1#32).extractLsb' 27 5 = 0 ∧ (0x1#32).extractLsb' 21 3 = 0 ∧ 0x1#32 ≠ 0
      ∧ (0x07000000#32).extractLsb' 27 5 = 0 ∧ (0x07000000#32).extractLsb' 21 3 = 0
      ∧ isPrefix 0xF8000000 = true ∧ isPrefix 0xFFFFFFFF = true ∧ (0#32).extractLsb' 27 5 = 0 ∧ (0#32).extractLsb' 21 3 = 0 := by
  decide +kernel

theorem test_meets_BranchesSetPcAndLink :
    issues (world crew0) gang crew0 ∧ (0#4 ≤ 6) ∧ (6#4 ≤ 6) ∧ gang.slices = [0]
      ∧ ((crew0.slice 0).link).toNat % 4 = 0 ∧ (crew0.sreg 2).toNat % 4 = 0 ∧ ((with6 0x1002).sreg 6).toNat % 4 ≠ 0
      ∧ (targetOf gang 0).toNat % 256 = 0 ∧ (targetOf gang 1).toNat % 256 ≠ 0
      ∧ (gang.pc + (0x7FFFF : BitVec 19).signExtend 64 * 4).toNat % 4 = 0 ∧ (gang.pc + (2 : BitVec 19).signExtend 64 * 4).toNat % 8 = 0
      ∧ (gang.pc + (1 : BitVec 19).signExtend 64 * 4).toNat % 8 ≠ 0
      ∧ ((world crew0).taken.fetchRead crew0 0x1008 8).toOption.isSome = true
      ∧ ((world crew0).taken.fetchRead crew0 0x1004 4).toOption.isSome = true := by
  decide +kernel

/-- Crews with fifteen and sixteen records. -/
def deep (n : Nat) : Crew := { crew0 with rdv := (List.range n).map fun i => { id := i, smask := 3 } }

theorem test_meets_RendezvousOfSlices :
    issues (world (deep 15)) gang (deep 15) ∧ (deep 15).rdv.length < 16 ∧ issues (world (deep 16)) gang (deep 16)
      ∧ 16 ≤ (deep 16).rdv.length ∧ (deep 16).gridArr = [] ∧ (∀ i ∈ slices8, ((deep 16).slice i).pend = none)
      ∧ handling.handler = some { slice := 0, base := 0xFFFFFF0000000080 } ∧ (deep 1).rdv[0]? = some { id := 0, smask := 3 } := by
  decide +kernel

/-- Two live slices of which one stands elsewhere, and the same where it waits for the other at the instruction. -/
def split2 (w : Wait) (pc : DWord) : Crew :=
  let c : Crew := { crew0 with live := 0xFF, exec := 0xFF }
  c.modSlice 1 fun x => { x with wait := w, pc := pc }

theorem test_meets_CrossSliceRunsOnceForTheCrew :
    ([crew0, split2 .cross 0x1000, thread0] : List Crew).all (fun c =>
      decide (c.slices.length = 8) && c.handler.isNone && gang.slices.all (fun i => c.liveSlices.contains i)
        && c.liveSlices.all (fun i => (c.slice i).pc == gang.pc && (c.slice i).pend.isNone && (gang.slices.contains i || (c.slice i).wait == .cross))
        && ready c 0 1 (fun _ => [{ pos := 0, field := 3, n := 2 }, { pos := 1, field := 14, n := 2 }] ++ vopsOf [srcOf true 2 15 1]))
      = true
      ∧ handling.handler ≠ none ∧ handling.slices.length = 8 ∧ (1 ∈ (split2 .none 0x2000).liveSlices ∧ 1 ∉ gang.slices ∧ ((split2 .none 0x2000).slice 1).wait ≠ .cross)
      ∧ (16#7 ≤ 16) ∧ (31 : Nat) < 32 := by
  decide +kernel

/-! ### Memory instructions -/

/-- The checks of a memory access of slice 0 pass, and its lanes' places: `none` where one does not (`Crew.Reaches`). -/
def places (c : Crew) (s : State) (ops : List VOp) (n : Nat) (addr : Nat → Nat) (xl : Nat → Xlat) (wide : Bool := false) : Option (List Tgt) :=
  if (c.nameFault 0 ops).isSome then none
  else (c.activeOf 0).mapM fun l =>
    match xl (addr l) with
    | .ok t => if addr l % n = 0 && !s.stuck (s.site c) t wide then some t else none
    | _ => none

/-- A read or a write of the address in a uniform register, as LD and ST with AM 2 make it. -/
def uniM (a : BitVec 7) (sz : BitVec 3 := 2) (d : BitVec 7 := 14) : FmtM := { am := 2, sz := sz, d := d, a := a }

/-- The places of an LD or ST of the crew. -/
def ldPlaces (c : Crew) (f : FmtM) (need : Need) : Option (List Tgt) :=
  let s := (world c).taken
  places c s ([memData f] ++ memOps f false) (szBytes f.sz) (memAddr f false c) fun a => s.access c a (szBytes f.sz) need

/-- The places of an LDS or STS of the crew. -/
def ldsPlaces (c : Crew) (f : FmtM) : Option (List Tgt) :=
  let s := (world c).taken
  places c s ([memData f] ++ memOps f true) (szBytes f.sz) (memAddr f true c) fun a => .ok (s.scratchTgt c a (szBytes f.sz))

/-- A request of crew 0 that waits for its answer. -/
def asked (store : Bool) (op : Option Nat := none) : Request :=
  { id := 20, group := 20, crew := 0, lane := 0, mask := 1, addr := 0x20000, size := 4, since := 5, store := store, op := op }

/-- An acquire at a place waits for nothing (`State.MayAcquire`). -/
def acquires (c : Crew) (t : Tgt) : Bool :=
  let s := (world c).taken
  (s.dropMoving (s.site c) c.tenant (s.acquired t)).isNone && match t.granule with | some g => (s.awayRec g).isNone | none => true

/-- A release by some lanes waits for nothing (`State.MayRelease`). -/
def releases (c : Crew) (lanes : BitVec 32) : Bool :=
  ((world c).requests.all fun r => r.crew ≠ 0 || r.op.isSome || r.data.isSome || r.mask &&& lanes == 0) && c.lost.all fun x => !mbit lanes x.1

theorem test_meets_LoadsWriteLoadedValues :
    issues (world crew0) gang crew0 ∧ gang.slices = [0]
      ∧ ldPlaces crew0 (uniM 2) .read = some (List.replicate 4 (.paged 0x10 {} 0 0))
      ∧ ldPlaces (with6 0x10FFC) (uniM 6) .read = some (List.replicate 4 (.paged 0x10 {} 0xFFC 0))
      ∧ ldPlaces (with6 0xFFFFFF0000000FFC) (uniM 6) .read = some (List.replicate 4 (.scratch (scratchAddr 1 0xFFC) false))
      ∧ ldPlaces (with6 0xFFFFFF0000001000) (uniM 6) .read = some (List.replicate 4 .violation)
      ∧ acquires crew0 (.paged 0x10 {} 0 0) = true ∧ releases crew0 0xF = true ∧ 0 < (world crew0).nextId
      ∧ ldPlaces crew0 (uniM 3) .read = some (List.replicate 4 (.fabric 7 9 0)) ∧ (Tgt.fabric 7 9 0).remote = true
      ∧ (isWide {} && isAcquire {}) = false ∧ (isWide {} && isRelease {}) = false
      ∧ (isWide { scope := 5, ord := 1 } && isAcquire { scope := 5, ord := 1 }) = true
      ∧ ldsPlaces crew0 { sz := 2, d := 15, a := 0, b := 0 } = some (List.replicate 4 (.scratch (scratchAddr 1 0) false))
      ∧ ldsPlaces (with6 0xFFF) { sz := 0, d := 15, a := 6, b := 0 } = some (List.replicate 4 (.scratch (scratchAddr 1 0xFFF) false))
      ∧ ldsPlaces (with6 0x1000) { sz := 0, d := 15, a := 6, b := 0 } = some (List.replicate 4 .violation)
      ∧ (with6 2).nameFault 0 ([memData (uniM 6)] ++ memOps (uniM 6) false) = none
      ∧ ((with6 2).activeOf 0).filter (fun l => memAddr (uniM 6) false (with6 2) l % szBytes 2 ≠ 0) = 0 :: [1, 2, 3] := by
  decide +kernel

theorem test_meets_StoresWriteComputedAddresses :
    issues (world crew0) gang crew0 ∧ gang.slices = [0] ∧ (crew0.slice 0).wait = .none
      ∧ (isWide {} && isRelease {}) = false ∧ (isWide { scope := 5, ord := 2 } && isRelease { scope := 5, ord := 2 }) = true
      ∧ sysRelease { scope := 5, ord := 2 } = true ∧ releases crew0 0xF = true
      ∧ ldPlaces crew0 (uniM 3) .write = some (List.replicate 4 (.fabric 7 9 0))
      ∧ ldPlaces crew0 (uniM 2) .write = some (List.replicate 4 (.paged 0x10 {} 0 0))
      ∧ ldPlaces crew0 (uniM 5) .write = some (List.replicate 4 (.host (hostBase + 0x40000) true))
      ∧ ldPlaces (with6 0xFFFFFF0000001000) (uniM 6) .write = some (List.replicate 4 .violation)
      ∧ (isWide {} && isRelease {}) = false
      ∧ ldsPlaces crew0 { sz := 4, d := 12, a := 0, b := 0 } = some (List.replicate 4 (.scratch (scratchAddr 1 0) false))
      ∧ ((with6 2).activeOf 0).filter (fun l => memAddr (uniM 6) false (with6 2) l % szBytes 2 ≠ 0) = 0 :: [1, 2, 3]
      ∧ (asked true).crew = gang.crew ∧ (asked true).op = none ∧ (asked true).data = none ∧ (asked true).mask &&& 0xF ≠ 0
      ∧ ([(0, 0x20000#64)] : List (Nat × DWord)).find? (fun x => decide (x.1 / 4 = 0) && mbit (0xF : BitVec 32) x.1) = some (0, 0x20000) := by
  decide +kernel

theorem test_meets_UniformAccess :
    issues (world crew0) gang crew0 ∧ gang.slices ≠ [] ∧ (crew0.slice (gang.slices.headD 0)).wait = .none
      ∧ memAddr (uniM 2 4) false crew0 0 % 16 = 0 ∧ memAddr (uniM 2 3) false crew0 0 % 8 = 0
      ∧ (world crew0).taken.access crew0 0x10000 16 .read = .ok (.paged 0x10 {} 0 0)
      ∧ (world crew0).taken.access crew0 0x10000 8 .write = .ok (.paged 0x10 {} 0 0)
      ∧ (world crew0).taken.stuck ((world crew0).taken.site crew0) (.paged 0x10 {} 0 0) true = false
      ∧ (Tgt.paged 0x10 {} 0 0).violates = false ∧ (Tgt.paged 0x10 {} 0 0).remote = false
      ∧ acquires crew0 (.paged 0x10 {} 0 0) = true ∧ releases crew0 0xF = true
      ∧ (world crew0).taken.access crew0 0x20000 8 .read = .ok (.fabric 7 9 0) ∧ 0 < ((world crew0).taken.touchLane crew0 { lane := 0, addr := 0x20000, tgt := .fabric 7 9 0 } false).nextId
      ∧ (world crew0).taken.access crew0 0xFFFFFF0000000FF8 8 .read = .ok (.scratch (scratchAddr 1 0xFF8) false)
      ∧ (world crew0).taken.access crew0 0xFFFFFF0000000FFC 8 .read = .ok .violation
      ∧ (world crew0).taken.access crew0 0xFFFFFF0000001000 8 .write = .ok .violation
      ∧ memAddr (uniM 6 3) false (with6 0x10004) 0 % 8 ≠ 0
      ∧ (asked true).mask &&& (crew0.live &&& slicesMask gang.slices) ≠ 0
      ∧ (isWide { scope := 4, ord := 2 } && isRelease { scope := 4, ord := 2 }) = true := by
  decide +kernel

/-- Page 0x10 SHARED with its master in far frame 3 of slice 2 of die 1 and a replica in frame 7 of core 0. -/
def sharedPage : PageRec :=
  { place := { res := .shared, mdie := 1, munit := 34, mframe := 3, sect := 0x0001 }
    replicas := [{ die := 0, core := 0, frame := 7, present := 0x8001, dirty := [0, 4095] }] }

/-- The state with a record for page 0x10. -/
def withPage (r : PageRec) (c : Crew := crew0) : State := { world c with pages := [(0x10, r)] }

theorem test_meets_AccessesAtTheirPlace :
    (world crew0).cellOf (.core 0 0) (.paged 0x10 {} 4095 0) = some 0x10FFF ∧ 4095 < 4096 ∧ 4095 % 256 + 1 ≤ 256
      ∧ (withPage sharedPage).cellOf (.core 0 0) (.paged 0x10 sharedPage.place 0 0) = some (sramAddr 0 0 0x7000)
      ∧ (withPage sharedPage).cellOf .io (.paged 0x10 sharedPage.place 0 0) = some (farAddr 1 2 3 0) ∧ 0 % 256 + 256 ≤ 256
      ∧ (world crew0).cellOf (.core 0 0) (.dram 0x5000) = some 0x5000
      ∧ (world crew0).cellOf (.core 0 0) (.scratch (scratchAddr 1 0) false) = some (scratchAddr 1 0)
      ∧ (world crew0).cellOf (.core 0 0) (.host hostBase true) = some hostBase
      ∧ ((withPage sharedPage).page 0x10).replicaIn 0 0 = some { die := 0, core := 0, frame := 7, present := 0x8001, dirty := [0, 4095] } := by
  decide +kernel

/-- A crew whose registers 12 and 13 hold an address in every lane of slice 0. -/
def pointing (a : Nat) : Crew :=
  { crew0 with vregs := [0, 1, 2, 3].foldl (fun m l => sset (sset m (12 * 32 + l) (BitVec.ofNat 32 a)) (13 * 32 + l) (BitVec.ofNat 32 (a / 2 ^ 32))) [] }

/-- The places of an atomic form at an address. -/
def atomPlaces (a : Nat) (fm : AtomForm) : Option (List Tgt) :=
  let c := pointing a
  let s := (world c).taken
  let n := fm.kind.size
  places c s [{ pos := 0, field := 14, n := fm.kind.regs.1 }, atomOp { a := 12 } fm.addrRegs] n (atomAddr { a := 12 } fm.addrRegs n c)
    fun x => if fm.scratch then .ok (s.scratchTgt c x n) else s.access c x n .write

/-- One form of each of the five. -/
def atomForms : List AtomForm :=
  [{ kind := .rmw 0 .ui32, addrRegs := 2, returns := true, scratch := false }, { kind := .rmw 4 .b32, addrRegs := 2, returns := false, scratch := false },
    { kind := .cas .b32, addrRegs := 2, returns := true, scratch := false }, { kind := .rmw 6 .ui64, addrRegs := 1, returns := true, scratch := true },
    { kind := .lock 1, addrRegs := 2, returns := true, scratch := false }]

/-- A master in far frame 3 of slice 2 of die 1. -/
def farAt : Placement := { res := .far, mdie := 1, munit := 34, mframe := 3, sect := 0xFFFF }

/-- Page 0x10 has it, and die 1 is out of service. -/
def cutWorld (c : Crew) : State :=
  { world c with pages := [(0x10, { place := farAt })], caches := [maps 0x10 0x10 .framed farAt], dies := [{}, { inService := false }, {}, {}] }

theorem test_meets_AtomicsUpdateAtTheirPlace :
    (atomForms.all fun fm =>
      let t : Tgt := if fm.scratch then .scratch (scratchAddr 1 0x10) false else .paged 0x10 {} 0x10 0
      let a := if fm.scratch then 0x10 else 0x10010
      decide (atomPlaces a fm = some (List.replicate 4 t)) && (fm.kind.unsupported t).isNone && !t.remote
        && acquires (pointing a) t && (hostRefuses fm.kind [{ lane := 0, addr := a, tgt := t }]).isNone)
      = true
      ∧ issues (world (pointing 0x10010)) gang (pointing 0x10010) ∧ isWide {} = false ∧ sysRelease {} = false
      ∧ (world crew0).cellOf ((world crew0).site crew0) (.dram 8) = some 8 ∧ (4092 : Nat) < 4096 ∧ 4092 % 256 + 4 ≤ 256
      ∧ (0xFFFFFFFF : Nat) < 2 ^ Ty.ui32.width
      ∧ atomPlaces 0x20000 { kind := .rmw 0 .ui32, addrRegs := 2, returns := true, scratch := false } = some (List.replicate 4 (.fabric 7 9 0))
      ∧ hostRefuses (.rmw 0 .ui32) [{ lane := 0, addr := 0x20000, tgt := .fabric 7 9 0 }] = none ∧ releases crew0 0xF = true
      ∧ (world (pointing 0x30000)).taken.access (pointing 0x30000) 0x30000 4 .write = .ok (.mmio 0x30000)
      ∧ (world (pointing 0x40000)).taken.access (pointing 0x40000) 0x40000 4 .write = .ok (.host (hostBase + 0x40000) true)
      ∧ (AtomKind.lock 0).carried = none ∧ (AtomKind.rmw 0 .ui32).carried ≠ none ∧ (pointing 0x30000).activeOf 0 = 0 :: [1, 2, 3]
      ∧ (let c := { pointing 0x10010 with exec := 1 }; let s := cutWorld c; let g : Tgt := .paged 0x10 farAt 0x10 0
         s.taken.access c 0x10010 4 .write = .ok g ∧ (c.laneTgts 0 (fun _ => 0x10010) fun _ => g).filter (fun y => (s.taken.probeHost (c.laneTgts 0 (fun _ => 0x10010) fun _ => g)).cutOff y.tgt)
            = { lane := 0, addr := 0x10010, tgt := g } :: [] ∧ g.remote = false ∧ (AtomKind.rmw 0 .ui32).unsupported g = none) := by
  dsimp only; decide +kernel

/-- Page tables of the tenant that map address 0x10000 to frame 0x10 as a FRAMED page, writable; nothing is cached. -/
def tabled (c : Crew) (leaf : Nat := 0x100003) : State :=
  let s : State := { world c with caches := [], tenants := [(5, { tenant5 with root := 0x200 })] }
  let s := (List.range 4).foldl (fun (s : State) i => s.memWrite (0x200000 + i * 4096) (leBytes (0x2010001 + i * 0x10000) 8)) s
  s.memWrite (0x204000 + 16 * 0x10) (leBytes leaf 16)

theorem test_meets_MemoryControl :
    issues (world crew0) gang crew0 ∧ (1#7).toNat < 2 ∧ 2 ≤ (2#7).toNat ∧ gang.slices ≠ [] ∧ (world crew0).requests = [] ∧ crew0.lost = []
      ∧ (world crew0).dropMoving ((world crew0).site crew0) crew0.tenant .whole = none
      ∧ ((withPage sharedPage).page 0x10).replicaIn 0 0 = some { die := 0, core := 0, frame := 7, present := 0x8001, dirty := [0, 4095] }
      ∧ (∀ o ∈ [0, 4095], o < 4096) ∧ masterAddr 0x10 sharedPage.held 0 = farAddr 1 2 3 0 ∧ sramAddr 0 0 0x7FFF < farAddr 1 2 3 0
      ∧ canonical 0x10000 = true ∧ inPartyWindow 0x10000 = false ∧ inOutingWindow 0x10000 = false
      ∧ (match (tabled crew0).find ((tabled crew0).site crew0) 5 0x10000 with
          | .filled l p _ => l.pfn == 0x10 && l.w && decide (p.mdie < 8 ∧ p.munit < 64 ∧ p.mframe < 1024)
          | _ => false) = true
      ∧ canonical (2 ^ 55) = false ∧ (tabled crew0).find ((tabled crew0).site crew0) 5 0x11000 = .absent
      ∧ (asked false).crew = gang.crew ∧ (asked false).op = none ∧ (asked false).data = none ∧ (asked false).mask &&& (crew0.live &&& slicesMask gang.slices) ≠ 0
      ∧ gang.slices = [0] ∧ (5#7).toNat = 5 ∧ releases crew0 0xF = true
      ∧ crew0.partyId = some 1 ∧ aget (tabled crew0).parties 1 = some party1
      ∧ (tabled crew0).taken.eligible 5 0x10000 = some (0x10, 0x204100) ∧ ((tabled crew0).page 0x10).run = none
      ∧ (0x10 : Nat) ∉ party1.holds ∧ (tabled crew0).mayHold party1 0x10 = false
      ∧ ({ tabled crew0 with pages := [(0x10, { place := { res := .far } })] } : State).mayHold party1 0x10 = true
      ∧ thread0.partyId = none ∧ (tabled crew0).taken.eligible 5 0x11000 = none := by
  decide +kernel

theorem test_meets_PagePlacement :
    let s := tabled crew0
    let near : State := { s with pages := [(0x10, { place := { res := .near, mdie := 0, munit := 0, mframe := 7 } })] }
    let shared : State := { s with pages := [(0x10, sharedPage)] }
    issues s gang crew0 ∧ (crew0.slice (gang.slices.headD 0)).wait = .none
      ∧ (waiting crew0 (.place [3])).slice 0 = { crew0.slice 0 with wait := .place [3] }
      ∧ s.eligible 5 0x11000 = none ∧ s.eligible 5 0x10000 = some (0x10, 0x204100) ∧ crew0.partyId = some 1 ∧ aget s.parties 1 = some party1
      ∧ (s.project 0x10).place.res = .home ∧ (∀ q ∈ s.parties, q.1 ≠ 1 → (0x10 : Nat) ∉ q.2.holds)
      ∧ 7 ∈ party1.nearFrames ∧ s.frameFree (sramAddr 0 0 (7 * 4096)) = true ∧ (∀ x ∈ party1.nearFrames, s.frameFree (sramAddr 0 0 (x * 4096)) = true → 7 ≤ x)
      ∧ homeStack 0x10 = 0 ∧ s.frameFree (farAddr 0 0 0 0) = true
      ∧ (let t : State := { near with quarantine := [(0, farAddr 0 0 0 0)] }
         (t.project 0x10).place.res = .near ∧ t.frameFree (farAddr 0 0 0 0) = false ∧ t.frameFree (farAddr 0 0 1 0) = true)
      ∧ (near.project 0x10).reps = [] ∧ (0, 0, 7) ∈ (shared.project 0x10).reps ∧ (shared.party 1).die = 0 ∧ (shared.party 1).core = 0
      ∧ thread0.level ≠ .user ∧ (tabled thread0).dropMoving ((tabled thread0).site thread0) 5 .whole = none
      ∧ (tabled thread0).frameOf 5 0x10000 = some (0x10, 0x204100) ∧ ((tabled thread0).page 0x10).run = none
      ∧ ((tabled thread0).page 0x10).queue = [] ∧ ((tabled thread0).page 0x10).place.res = .home ∧ crew0.level = .user := by
  dsimp only; decide +kernel

theorem test_meets_PagePlacement_more :
    let s := tabled crew0
    let at_ (r : PageRec) : State := { s with pages := [(0x10, r)] }
    let shared := at_ { sharedPage with replicas := [{ die := 0, core := 1, frame := 7 }] }
    let near := at_ { place := { res := .near, mdie := 1, munit := 3, mframe := 5 } }
    let explicit (q : Party) (l : List (Nat × PageRec)) : State :=
      { s with tenants := [(5, { s.tenant 5 with expl := true })], parties := [(1, q)], pages := l }
    let full := explicit { party1 with nearPlaced := [(0x11, 7)] } [(0x11, { place := { res := .near, mframe := 7 } })]
    let v := tabled thread0
    let tables : State := { v with tables := [{ die := 3, tenant := 5, asid := 0, level := 1, vpn := 0, table := 0x2010000, leafPa := 0 }] }
    let busy : State := { v with requests := [{ asked false with addr := 0x10000 }] }
    let away : State := { v with pages := [(0x10, { place := { res := .near, mframe := 7 } })] }
    ((withPage sharedPage).page 0x10).kept = true ∧ (s.page 0x10).kept = false
      ∧ (s.pages.filter fun x => decide (dirSlice x.1 = dirSlice 0x10) && decide (homeStack x.1 = homeStack 0x10) && x.2.kept).length < 65536
      ∧ (shared.project 0x10).place.res = .shared ∧ (∀ r ∈ (shared.project 0x10).reps, ¬(r.1 = 0 ∧ r.2.1 = 0))
      ∧ shared.eligible 5 0x10000 = some (0x10, 0x204100) ∧ shared.frameFree (sramAddr 0 0 (7 * 4096)) = true
      ∧ (near.project 0x10).place.res = .near ∧ (near.project 0x10).place.mdie = 1 ∧ near.frameFree (farAddr 0 0 0 0) = true
      ∧ near.eligible 5 0x10000 = some (0x10, 0x204100) ∧ near.frameFree (sramAddr 0 0 (7 * 4096)) = true
      ∧ ((explicit { party1 with nearFrames := [] } []).tenant 5).expl = true
      ∧ (explicit { party1 with nearFrames := [] } []).eligible 5 0x10000 = some (0x10, 0x204100)
      ∧ (full.tenant 5).expl = true ∧ full.eligible 5 0x10000 = some (0x10, 0x204100) ∧ (full.project 0x10).place.res = .home
      ∧ (∀ x ∈ party1.nearFrames, full.frameFree (sramAddr 0 0 (x * 4096)) = false) ∧ (full.project 0x11).place.res = .near
      ∧ (full.project 0x11).place.mframe = 7 ∧ (∀ y ∈ full.parties, (0x11 : Nat) ∉ y.2.holds)
      ∧ v.pinvDie (v.site thread0) 5 [0x10000] = none ∧ v.pageBusy 5 0x10000 = false
      ∧ ((tables.taken.dropRange (v.site thread0) 5 .whole).pinvDie (v.site thread0) 5 [0x10000]).isSome = true
      ∧ busy.pageBusy 5 0x10000 = true ∧ ((asked false).mask &&& (thread0.live &&& slicesMask gang.slices)) ≠ 0
      ∧ away.frameOf 5 0x10000 = some (0x10, 0x204100) ∧ (away.page 0x10).run = none ∧ (away.page 0x10).queue = []
      ∧ (away.page 0x10).place.res = .near ∧ away.requests = [] := by
  dsimp only; decide +kernel

/-! ### Barriers, signals, engines, matrix, work and system instructions -/

/-- Crew 0 and crew 11 of one party, whose barriers have both as members. -/
def pair (c : Crew) (p : Party := { party1 with crews := [0, 11], bars := List.replicate 16 { members := 3 } }) : State :=
  { world c with crews := [(0, c), (11, { crew0 with place := .compute 1 1 1 })], parties := [(1, p)] }

/-- The party with an arrival of crew 0 and phase 1 at its barrier 15. -/
def arrivedParty : Party := { party1 with bars := List.replicate 16 { members := 3, arrived := 1, phase := 1 }, crews := [0, 11] }

/-- Page 0x10 is MOVING home while core 0 of die 0 has a replica of it. -/
def replicaMoving : PageRec :=
  { sharedPage with
    place := { sharedPage.place with res := .moving }
    run := some { goal := .home, old := sharedPage.place, wait := [], sent := [], since := 0 } }

/-- Lane 0 of crew 0 has lost a write to 0x20000. -/
def losing (c : Crew) : Crew := { c with lost := [(0, 0x20000#64)] }

/-- An access of crew 0 by some lanes awaits its response (the negation of `State.Performed`). -/
def owes (s : State) (lanes : BitVec 32) : Bool :=
  s.requests.any fun r => r.crew == 0 && r.op.isNone && r.data.isNone && r.mask &&& lanes != 0

theorem test_meets_PartyBarriers :
    let s := world crew0
    let outing2 : State := { pair crew0 with
      outings := [(6, { outing6 with members := [1, 12], bars := List.replicate 4 { members := 3 } })]
      parties := [(1, party1), (12, { party1 with index := 1, member := 1 })] }
    issues s gang crew0 ∧ crew0.slices.length = 8 ∧ (∀ i ∈ gang.slices, i ∈ crew0.liveSlices)
      ∧ (∀ i ∈ crew0.liveSlices, (crew0.slice i).pc = gang.pc ∧ (crew0.slice i).pend = none ∧ (i ∈ gang.slices ∨ (crew0.slice i).wait = .cross))
      ∧ crew0.place = .compute 1 0 0 ∧ s.countParty 1 0 15 ≠ .again ∧ s.countOuting 1 0 3 ≠ .again
      ∧ (pair crew0 arrivedParty).countParty 1 0 15 = .again
      ∧ aget (pair crew0).parties 1 = some { party1 with crews := [0, 11], bars := List.replicate 16 { members := 3 } } ∧ 15 < party1.bars.length
      ∧ 3 &&& (pair crew0).liveCrews 1 &&& ~~~(mset (0 : BitVec 32) 0 true) ≠ 0
      ∧ 1 &&& s.liveCrews 1 &&& ~~~(mset (0 : BitVec 32) 0 true) = 0 ∧ (∀ x ∈ s.pages, ∀ y ∈ x.2.replicas, y.dirty = [])
      ∧ (3 : Nat) < 4 ∧ (pair crew0).liveCrews 1 &&& ~~~(mset (((pair crew0).party 1).towardBar 1 3) 0 true) ≠ 0
      ∧ s.liveCrews 1 ≠ 0 ∧ s.liveCrews 1 &&& ~~~(mset (party1.towardBar 1 3) 0 true) = 0
      ∧ (outing2.outingBar party1 3).members &&& outing2.liveMembers 2 0 &&& ~~~(mset (0 : BitVec 32) 0 true) ≠ 0
      ∧ (s.outingBar party1 3).members &&& s.liveMembers 2 0 &&& ~~~(mset (0 : BitVec 32) 0 true) = 0
      ∧ s.outingOf party1 = some (6, outing6) ∧ 3 < outing6.bars.length
      ∧ crew0.partyId = some 1 ∧ ((0x103#64).extractLsb' 8 2).toNat = 1
      ∧ s.phase crew0 0 15 = 0 ∧ (pair crew0 arrivedParty).phase crew0 0 15 = 1 ∧ (1 : BitVec 32) ≠ 0 ∧ ((1 : BitVec 32) - 0).toNat ≤ 2 ^ 31
      ∧ s.barBusy 0 15 0 (fun q _ => q = 1) = false ∧ s.barBusy 1 3 0 (fun _ q => q.launch = 2 && q.outing = 0) = false
      ∧ (s.launchRec 2).outingCount 0 ≤ 8 ∧ s.barBusy 0 15 1 (fun q _ => q = 1) = true
      ∧ s.barBusy 1 3 1 (fun _ q => q.launch = 2 && q.outing = 0) = true
      ∧ thread0.partyId = none ∧ issues (world thread0) gang thread0
      ∧ (Instr.bar {}, (0 : Nat)) ∈ [(Instr.bar {}, (0 : Nat)), (.barArrive {}, 1)] ∧ (0#7).toNat / 32 = 0 ∧ (35#7).toNat / 32 = 1
      ∧ (0x103#64).extractLsb' 8 2 < 2#2 ∧ (0x103#64).extractLsb' 0 4 < 4#4 := by
  dsimp only; decide +kernel

theorem test_meets_PartyBarriers_more :
    let s := world crew0
    let m := withPage replicaMoving
    let late : State := { s with requests := [asked true] }
    crew0.handler = none ∧ releases crew0 (crew0.liveIn crew0.liveSlices) = true ∧ owes late (crew0.liveIn crew0.liveSlices) = true
      ∧ ((pair crew0).crews.map (·.1)).Pairwise (· < ·) ∧ ((waiting crew0 (.barrier 1 3 0)).slice 0).wait = .barrier 1 3 0
      ∧ ((1 : BitVec 32) ≠ 0 ∧ ((1 : BitVec 32) - 0).toNat ≤ 2 ^ 31) ∧ ((0x80000000 : BitVec 32) - 0).toNat ≤ 2 ^ 31
      ∧ (s.dropParty 1).2 = none ∧ (m.dropParty 1).2 = some 0x10 ∧ (m.page 0x10).run.isSome = true
      ∧ (m.page 0x10).replicaIn (m.party 1).die (m.party 1).core ≠ none ∧ ((withPage sharedPage).page 0x10).run = none
      ∧ crew0.liveSlices.head? = some 0 ∧ 2#2 ≤ (0x200#64).extractLsb' 8 2 ∧ 4#4 ≤ (0x104#64).extractLsb' 0 4
      ∧ (0x10F#64).extractLsb' 8 2 = 1 ∧ s.outingBar party1 3 = { members := 1 } ∧ (1 : Nat) < 4 := by
  dsimp only; decide +kernel

/-- The state with a cooperative launch, abandoned or not. -/
def cooperative (c : Crew) (abandoned : Bool := false) (total : Nat := 1) : State :=
  { world c with launches := [(2, { launch2 with coop := true, abandoned := abandoned, e0 := total })] }

theorem test_meets_GridBarriers :
    let s := cooperative crew0
    let c1 : Crew := { crew0 with gridArr := [(3, 1)] }
    let la : Launch := { launch2 with coop := true }
    issues s gang crew0 ∧ crew0.place = .compute 1 0 0 ∧ aget s.launches (s.party 1).launch = some la ∧ la.coop = true ∧ la.abandoned = false
      ∧ gang.slices ≠ [] ∧ (∀ j ∈ gang.slices, mbit ((aget crew0.gridArr 3).getD 0) j = false)
      ∧ (∀ j ∈ gang.slices, mbit ((aget c1.gridArr 3).getD 0) j = true)
      ∧ aget (cooperative c1).crews 0 = some c1 ∧ aget (cooperative c1).parties 1 = some party1 ∧ 3 < la.gbars.length
      ∧ (∃ j ∈ (split2 .none 0).liveSlices, mbit (1 : BitVec 8) j = false)
      ∧ c1.live ≠ 0 ∧ (aget c1.gridArr 3).getD 0 ≠ 0 ∧ (∀ j ∈ c1.liveSlices, mbit ((aget c1.gridArr 3).getD 0) j = true)
      ∧ mbit (party1.towardBar 2 3) 0 = false ∧ (cooperative c1).liveCrews 1 ≠ 0
      ∧ (cooperative c1).liveCrews 1 &&& ~~~(mset (party1.towardBar 2 3) 0 true) = 0
      ∧ (pair c1).liveCrews 1 &&& ~~~(mset (party1.towardBar 2 3) 0 true) ≠ 0
      ∧ la.total = 1 ∧ ((cooperative crew0 false 2).launchRec 2).total = 2
      ∧ (0x203#64).extractLsb' 8 2 = 2 ∧ ((0x203#64).extractLsb' 0 4).toNat < 4
      ∧ thread0.partyId = none ∧ ((world crew0).launchRec 2).coop = false
      ∧ ((cooperative crew0 true).launchRec 2).abandoned = true ∧ ((cooperative crew0 true).launchRec 2).coop = true := by
  dsimp only; decide +kernel

theorem test_meets_GridBarriers_more :
    let la : Launch := { launch2 with coop := true, gbars := List.replicate 4 { phase := 1 } }
    let m : State := { withPage replicaMoving with launches := [(2, la)] }
    releases crew0 (crew0.liveIn gang.slices) = true ∧ owes { world crew0 with requests := [asked false] } (crew0.liveIn gang.slices) = true
      ∧ (m.crews.map (·.1)).Pairwise (· < ·) ∧ ((waiting crew0 (.barrier 2 3 0)).slice 0).wait = .barrier 2 3 0
      ∧ (la.gbars.getD 3 {}).phase = 1 ∧ ((1 : BitVec 32) - 0).toNat ≤ 2 ^ 31 ∧ la.coop = true ∧ la.abandoned = false
      ∧ (m.dropParty 1).2 = some 0x10 ∧ ((cooperative crew0).dropParty 1).2 = none ∧ ((launch2.gbars.getD 3 {}).phase : BitVec 32) = 0
      ∧ ¬((0x204#64).extractLsb' 0 4 < 4#4) ∧ (0x303#64).extractLsb' 8 2 ≠ 2 := by
  dsimp only; decide +kernel

theorem test_meets_SignalPostsAndWaits :
    let s := world crew0
    let a : Nat := 0xFFFF000000000000 + 0 * 2 ^ 42 + 9 * 2 ^ 32
    let l : Launch := launch2
    ready crew0 0 6 (fun _ => []) = true ∧ ready pooled 1 127 (fun _ => []) = true ∧ crew0.partyId = some 1 ∧ gang.slices ≠ []
      ∧ (3#7).toNat < (s.party 1).sigCount ∧ (0#3) ≠ 5 ∧ s.requests = [] ∧ crew0.lost = []
      ∧ natBits 0x0001000000000000 63 48 ≠ 0xFFFF ∧ natBits a 63 48 = 0xFFFF
      ∧ s.tagged a = some (2, l) ∧ s.tagged 0xFFFF000000000000 = none ∧ l.tenant ≠ 4 ∧ l.total ≤ 1 ∧ natBits (a + 1) 31 0 = 1
      ∧ l.tenant = 5 ∧ natBits a 47 42 < l.signals ∧ natBits a 31 0 < l.total ∧ s.findParty 2 0 = some (1, party1)
      ∧ ({ s with parties := [] } : State).findParty 2 0 = none
      ∧ (31#7).toNat < 64 ∧ (2#7).toNat < (s.party 1).sigCount ∧ (2#7) < 64#7
      ∧ (crew0.slice (gang.slices.headD 0)).wait = .none ∧ (0 : Word) ≤ sget (s.party 1).sigs 3 ∧ sget (s.party 1).sigs 3 < (1 : Word)
      ∧ s.dropMoving (s.site crew0) crew0.tenant .nothing = none
      ∧ (waiting crew0 (.signal 3 1)).slice 0 = { crew0.slice 0 with wait := .signal 3 1 }
      ∧ gang.slices = [0] ∧ (s.party 1).sigCount ≤ (4#7).toNat
      ∧ (3#7).toNat < 4 ∧ crew0.cnt.coll.toNat ≤ 0 ∧ (∀ x ∈ crew0.failed, x.1 ≠ EngClass.coll) ∧ (crew0.unobserved.filter fun x => x.1 == EngClass.coll) = []
      ∧ (let c : Crew := { crew0 with cnt := { copy := 63 } }; 62 < c.cnt.copy.toNat)
      ∧ (let c : Crew := { crew0 with failed := [(EngClass.copy, 0x15)] }; c.failed = (EngClass.copy, 0x15#8) :: []) := by
  dsimp only; decide +kernel

theorem test_meets_SignalPostsAndWaits_more :
    let m := withPage replicaMoving
    let late : State := { world crew0 with requests := [asked true] }
    let c : Crew := { losing crew0 with unobserved := [(.copy, .whole), (.coll, .nothing)] }
    let slot : State := { m with parties := [(1, { party1 with sigs := [(3, 1)], sigSummary := [(3, .whole)] })] }
    releases crew0 (crew0.liveIn gang.slices) = true ∧ (2 : Nat) ≤ (2#3).toNat ∧ owes late (crew0.liveIn gang.slices) = true
      ∧ c.lost.find? (fun x => decide (x.1 / 4 = 0) && mbit (c.liveIn gang.slices) x.1) = some (0, 0x20000#64) ∧ gang.slices = [0]
      ∧ (slot.party 1).sigCount = 4 ∧ (1 : Word) ≤ sget (slot.party 1).sigs 3
      ∧ slot.dropMoving (slot.site crew0) 5 ((aget (slot.party 1).sigSummary 3).getD .nothing) = some 0x10
      ∧ (world crew0).dropMoving (m.site crew0) 5 ((aget (slot.party 1).sigSummary 3).getD .nothing) = none
      ∧ (c.unobserved.filter fun x => x.1 == EngClass.copy).findSome? (fun x => m.dropMoving (m.site c) 5 x.2) = some 0x10
      ∧ (c.unobserved.filter fun x => x.1 == EngClass.coll).findSome? (fun x => m.dropMoving (m.site c) 5 x.2) = none
      ∧ (63 : Nat) ≤ (63#7).toNat ∧ (62#7).toNat < 63
      ∧ (world crew0).findParty 2 0 = some (1, party1) ∧ party1.status = .resident
      ∧ ({ party1 with status := .saved 0x1000 } : Party).status = .saved 0x1000 := by
  dsimp only; decide +kernel

/-- The descriptor registers of a COPY, a GATHER, a COLL and a remote store: s16 onward. -/
def described (l : List (Nat × DWord)) : Crew := { crew0 with sregs := l.foldl (fun m x => sset m (16 + x.1) x.2) crew0.sregs }

/-- One dimension of 16 elements of 4 bytes, from the page at 0x10000 to scratchpad address 0; tiles of one dimension. -/
def copying : Crew := described [(0, 0x10000), (1, 0), (3, 16), (5, 0x412100000000), (6, 0x100000001)]

/-- The word of a descriptor. -/
def word16 (c : Crew) (i : Nat) : Nat := (c.sreg (16 + i)).toNat

theorem test_meets_EngineStart :
    issues (world copying) gang copying ∧ copying.cnt.copy ≠ 63 ∧ copyReason (world copying) copying (word16 copying) = none
      ∧ extProd (word16 copying) 0 1 = 16
      ∧ copyReason (world crew0) crew0 (word16 crew0) ≠ none
      ∧ (let c : Crew := { copying with cnt := { copy := 63, gather := 63, coll := 63 } }; c.cnt.copy = 63 ∧ c.cnt.gather = 63 ∧ c.cnt.coll = 63)
      ∧ (let c := described [(0, 0x10000), (1, 0x10000), (3, 0x10000), (4, 0x100000004), (5, 4), (7, 1)]
         rowReason (world c) c (word16 c) false = none ∧ rowReason (world c) c (word16 c) true = none ∧ c.cnt.gather ≠ 63)
      ∧ rowReason (world crew0) crew0 (word16 copying) false ≠ none
      ∧ (let c := described [(0, 0x0000000100000000), (1, 0x10000), (2, 0x10100)]
         let s : State := { world c with csr := [(0x400, 0x00020051#64), (0x401, 0x10000#64), (0x402, 0x1000#64)] }
         s.groupOk 0 5 = true ∧ collReason s c (word16 c) = none)
      ∧ collReason (world crew0) crew0 (word16 crew0) ≠ none
      ∧ (let s : State := { world crew0 with csr := [(0x400, 0x00020051#64), (0x401, 0x10000#64), (0x402, 0x1000#64)] }
         s.groupOk 0 5 = true ∧ gang.slices = [0] ∧ (crew0.slice 0).wait = .none ∧ crew0.activeOf 0 ≠ []
          ∧ (∀ l ∈ crew0.activeOf 0, (0 + crew0.vnat { pos := 2, field := 15, n := 1 } l) % 2 ^ 64 % 4 = 0 ∧ 0 + 4 ≤ s.groupWord 0 2))
      ∧ ready crew0 0 0 (fun _ => [{ pos := 0, field := 12, n := 4 }, { pos := 2, field := 15, n := 1 }]) = true
      ∧ (∀ l ∈ crew0.activeIn gang.slices, (0x10000 + crew0.vnat { pos := 2, field := 15, n := 1 } l) % 2 ^ 64 % 16 = 0)
      ∧ (world crew0).access crew0 0x10000 4 .write = .ok (.paged 0x10 {} 0 0) ∧ (world crew0).stuck ((world crew0).site crew0) (.paged 0x10 {} 0 0) false = false := by
  dsimp only; decide +kernel

theorem test_meets_EngineStart_more :
    let m : State := { tabled copying with pages := [(0x10, replicaMoving)] }
    let g : State := { world crew0 with csr := [(0x400, 0x00020051#64), (0x401, 0x10000#64), (0x402, 0x1000#64)] }
    let w (l : List (Nat × DWord)) : Nat → Nat := word16 (described l)
    let copy (v : DWord) : Nat → Nat := w [(0, 0x10000), (3, 16), (5, v), (6, 0x100000001)]
    let s := world crew0
    m.dropMoving (m.site copying) 5 (spanOf 0x10000 0x10040) = some 0x10
      ∧ (world copying).dropMoving (m.site copying) 5 (spanOf 0x10000 0x10040) = none
      ∧ copyReason s crew0 (copy 0x412000000000) = some 1 ∧ copyReason s crew0 (copy 0x415100000000) = some 2
      ∧ copyReason s crew0 (copy 0xC12100000000) = some 3 ∧ copyReason s crew0 (copy 0x712100000000) = some 3
      ∧ rowReason s crew0 (w []) false = some 1 ∧ rowReason s crew0 (w [(4, 0x100000006)]) true = some 1
      ∧ rowReason s crew0 (w [(4, 0x100000004), (6, 0x8000000000000)]) true = some 3
      ∧ rowReason s crew0 (w [(0, 2), (4, 0x100000004)]) false = some 6
      ∧ collReason g crew0 (w [(0, 0)]) = some 1 ∧ collReason g crew0 (w [(0, 0x100000060)]) = some 2
      ∧ collReason g crew0 (w [(0, 0x100010000)]) = some 7 ∧ collReason g crew0 (w [(0, 0x100000000), (1, 2)]) = some 6
      ∧ s.memberSize crew0 0 = some 4096 ∧ s.spaceHolds crew0 1 0 0 4096 = true ∧ s.spaceHolds crew0 1 0 0 4097 = false
      ∧ g.groupOk 0 5 = true ∧ g.groupOk 1 5 = false ∧ g.groupOk 0 4 = false
      ∧ ({ g with routes := [] } : State).hops 0 4 = none ∧ (g.hops 0 4).isSome = true ∧ 0 < g.nextId
      ∧ ({ crew0 with exec := 0 } : Crew).activeOf 0 = [] ∧ g.groupWord 0 2 = 0x1000 ∧ g.groupWord 0 2 < 0xFFD + 4
      ∧ (0x20000 + crew0.vnat { pos := 2, field := 15, n := 1 } 0) % 4 = 0
      ∧ ((pointing 2).activeOf 0).filter (fun l => (0 + (pointing 2).vnat { pos := 2, field := 12, n := 1 } l) % 4 ≠ 0) = 0 :: [1, 2, 3] := by
  dsimp only; decide +kernel

/-- A crew with registers for a row of A, and the format block INT8 by INT8 in s126. -/
def matrixCrew : Crew := { crew0 with g := 128, sregs := [(126, 0x55#64)] }

theorem test_meets_MatrixPasses :
    issues (world matrixCrew) gang matrixCrew ∧ matrixCrew.cnt.matrix ≠ 63
      ∧ (∀ i ∈ matrixCrew.liveSlices, (matrixCrew.slice i).wait = .none)
      ∧ (∀ i ∈ gang.slices, passFault (world matrixCrew) matrixCrew (fmtBlock (matrixCrew.sreg 126).toNat) { d := 1, a := 0, b := 0 } i = none)
      ∧ (∀ i ∈ gang.slices, passFault (world matrixCrew) matrixCrew (fmtBlock 0x77) { d := 1, a := 0, b := 0 } i = some (0x0E, 1))
      ∧ passFault (world matrixCrew) matrixCrew (fmtBlock 0x55) { d := 2, a := 0, b := 0 } 0 = some (0x0D, 0)
      ∧ passFault (world matrixCrew) matrixCrew (fmtBlock 0x55) { d := 1, a := 0, b := 2 } 0 = some (0x0D, 1)
      ∧ 5 ≤ (fmtBlock 0x55).afmt ∧ 5 ≤ (fmtBlock 0x55).bfmt ∧ (0xFFFFFFFF : Nat) < 2 ^ 32 ∧ gang.slices = 0 :: []
      ∧ mxFmt (fmtBlock 0x11).afmt = some .bf16 ∧ mxFmt (fmtBlock 0x11).bfmt = some .bf16 ∧ Fmt.f32.value 0x7FC00000 = .nan
      ∧ (let c : Crew := { matrixCrew with cnt := { matrix := 63 } }; c.cnt.matrix = 63) ∧ (fmtBlock 0x55).row0 < 64 := by
  dsimp only; decide +kernel

theorem test_meets_MatrixPasses_more :
    let s := world matrixCrew
    let b := fmtBlock 0x11
    let factors (k : Nat) : List FVal :=
      [Fmt.bf16.value (rowItem 0 (mxBits b.afmt) k), Fmt.bf16.value (bElem s 1 b.bfmt 0 k 0), Fmt.bf16.value b.aband, Fmt.bf16.value (bBand s 1 0 0)]
    b.asc = false ∧ b.bsc = false ∧ b.terms false 0 ≠ [] ∧ (∀ k ∈ b.terms false 0, FVal.nan ∉ factors k)
      ∧ Fmt.f32.value 0x3F800000 ≠ .nan ∧ Fmt.f32.value 0x7F800000 = .inf false ∧ Fmt.f32.value 0xFF800000 = .inf true
      ∧ Fmt.bf16.value b.aband ≠ .nan ∧ Fmt.bf16.value (bBand s 1 0 0) ≠ .nan
      ∧ Fmt.bf16.value 0x7F80 = .inf false ∧ (match Fmt.bf16.value 0 with | .fin d => d.m == 0 | _ => false) = true
      ∧ (fmtBlock 0x122).asc = true
      ∧ gang.slices.findSome? (fun i => (passFault s matrixCrew (fmtBlock 0x77) { d := 1, a := 0, b := 0 } i).map fun t => (i, t)) = some (0, 0x0E, 1) := by
  dsimp only; decide +kernel

theorem test_meets_AccumulatorMovesAreExact :
    let c : Crew := { crew0 with g := 32 }
    issues (world c) gang c ∧ (1#7).toNat < c.k ∧ c.k ≤ (2#7).toNat ∧ c.k ≤ (7#7).toNat ∧ (5#7) < 6#7 ∧ gang.slices = [0]
      ∧ ready c 0 0 (fun _ => [{ pos := 0, field := 0, n := 32 }]) = true ∧ ready c 0 0 (fun _ => [{ pos := 1, field := 0, n := 32 }]) = true
      ∧ ready c 0 0 (fun _ => [{ pos := 0, field := 31, n := 1 }]) = true ∧ ready c 0 0 (fun _ => [{ pos := 1, field := 31, n := 1 }]) = true := by
  dsimp only; decide +kernel

theorem test_meets_AccumulatorMovesAreExact_more :
    (Ty.ofCode .f32 0).fmt = some .f32 ∧ (Ty.ofCode .f32 6).fmt = some .e4m3
      ∧ crew0.nameFault 0 [{ pos := 0, field := 15, n := 1 }] = none ∧ crew0.k ≤ (2#7).toNat := by
  decide +kernel

/-- A walk of two tiles, the first handed out. -/
def walk2 : Walk := { configured := true, e0 := 2, e1 := 1, e2 := 1, counter := 1, returned := [0] }

theorem test_meets_TileWalksGiveEachTileOnce :
    let s := world crew0
    let w : State := { s with launches := [(2, { launch2 with walks := [walk2, {}, {}, walk2] })] }
    let held (ic : Nat) : Crew := { crew0 with tile := { hold := true, walk := 3, tile := 1, ic := ic } }
    let u : State := { w with crews := [(0, held 32)] }
    issues s gang crew0 ∧ (world thread0).crewLaunch thread0 = none ∧ s.crewLaunch crew0 = some 2 ∧ aget s.launches 2 = some launch2
      ∧ 3 < launch2.walks.length ∧ (launch2.walks.getD 3 {}).configured = false ∧ (w.walkOf 2 3).configured = true
      ∧ (w.walkOf (w.party 1).launch 3).configured = true ∧ (s.walkOf (s.party 1).launch 3).configured = false
      ∧ (walk2.returned ++ walk2.reserved.flatMap (·.2) ++ List.range' walk2.counter (walk2.e0 * walk2.e1 * walk2.e2 - walk2.counter)).Nodup
      ∧ (walk2.reserved.map (·.1)).Nodup ∧ (takeTile s (.core 0 0) 5 (0, 0) walk2).2 = some 0
      ∧ (takeTile s (.core 0 0) 5 (0, 0) { walk2 with returned := [], counter := 2 }).2 = none
      ∧ ready crew0 0 0 (fun _ => [{ pos := 0, field := 14, n := 2 }]) = true ∧ (16#7 ≤ 16) ∧ (held 28).tile.hold = true
      ∧ (held 28).tile.ic + ((held 28).activeIn gang.slices).length ≤ 32 ∧ crew0.tile.hold = false
      ∧ (u.crew 0).tile.hold = true ∧ 32 ≤ (u.crew 0).tile.ic ∧ (u.nextTile (held 32) 3).2 = some 0 ∧ (u.nextTile (held 32) 3).1.crews = u.crews := by
  dsimp only; decide +kernel

/-- A SPAWN's packet registers at s16 and its arguments at s24: one party of one crew of 16 registers. -/
def spawning : Crew := { described [(0, 1), (1, 0x1000), (3, 0x841)] with place := .service 0 0, level := .service }

theorem test_meets_SystemInstructionsByLevel :
    let s := world thread0
    issues s gang thread0 ∧ thread0.level ≠ .user ∧ ({ tenant5 with snapu := true } : Tenant).snapu = true
      ∧ (thread0.level = .service ∧ ({ a := 0x5F, b := 0x7F : FmtA } : FmtA).csrNumber = 0x2FFF)
      ∧ (let c : Crew := { thread0 with level := .firmware }; c.level = .firmware)
      ∧ s.dropMoving (s.site thread0) thread0.tenant .whole = none
      ∧ spawning.isService = true ∧ pktType (spawnPacket spawning { a := 16, b := 24 }) = 1
      ∧ packetBad (spawnPacket spawning { a := 16, b := 24 }) = false ∧ (world spawning).overLimit (spawnPacket spawning { a := 16, b := 24 }) = false
      ∧ (world spawning).freeTag = some 0 ∧ ((world spawning).tenant spawning.tenant).halted = false
      ∧ pktType (spawnPacket spawning { a := 17, b := 24 }) ≠ 1
      ∧ (let c : Crew := { described [(0, 1), (1, 0x1000)] with place := .service 0 0 }
         packetBad (spawnPacket c { a := 16, b := 24 }) = false ∧ (world c).overLimit (spawnPacket c { a := 16, b := 24 }) = true)
      ∧ (0x10000#64).toNat % 8 = 0 ∧ (world crew0).taken.access crew0 0x10000 8 .read = .ok (.paged 0x10 {} 0 0)
      ∧ (world crew0).taken.stuck ((world crew0).taken.site crew0) (.paged 0x10 {} 0 0) true = false
      ∧ (Tgt.paged 0x10 {} 0 0).violates = false ∧ (Tgt.paged 0x10 {} 0 0).remote = false
      ∧ ((world crew0).taken.readTgt ((world crew0).taken.site crew0) (.paged 0x10 {} 0 0) 8 true).2 = List.replicate 8 0
      ∧ (-1 : Int) < 0 ∧ (crew0.slice (gang.slices.headD 0)).wait = .none
      ∧ (waiting crew0 (.join 0x10000 0 (some 7))).slice 0 = { crew0.slice 0 with wait := .join 0x10000 0 (some 7) }
      ∧ ready crew0 0 6 (fun _ => []) = true
      ∧ gang.slices = [0] ∧ crew0.level = .user ∧ ((world crew0).tenant crew0.tenant).snapu = false ∧ crew0.isService = false := by
  dsimp only; decide +kernel

theorem test_meets_SystemInstructionsByLevel_more :
    let s := world crew0
    let u := s.taken
    let answered : Request := { asked false with data := some [9, 0, 0, 0, 0, 0, 0, 0x80] }
    let mine (l : List Request) : Option Request :=
      ({ s with requests := l } : State).requests.find? fun q => q.crew = 0 && q.addr = 0x20000 && q.lane = 0 && !q.store && q.op.isNone
    let m := withPage replicaMoving
    releases thread0 (thread0.liveIn gang.slices) = true ∧ releases spawning (spawning.liveIn gang.slices) = true
      ∧ u.access crew0 0x20000 8 .read = .ok (.fabric 7 9 0) ∧ (Tgt.fabric 7 9 0).remote = true
      ∧ u.stuck (u.site crew0) (.fabric 7 9 0) true = false ∧ mine [] = none ∧ 0 < s.nextId
      ∧ mine [asked false] = some (asked false) ∧ (asked false).data = none
      ∧ mine [answered] = some answered ∧ (BitVec.ofNat 64 (leNat [9, 0, 0, 0, 0, 0, 0, 0x80])).toInt ≤ 0
      ∧ (0 : Int) < (BitVec.ofNat 64 (leNat [9, 0, 0, 0, 0, 0, 0, 0])).toInt
      ∧ u.access crew0 0xFFFFFF0000001000 8 .read = .ok .violation ∧ (Tgt.violation).violates = true
      ∧ (0xFFFFFF0000001000 : Nat) % 8 = 0 ∧ (lanes32.find? (mbit (crew0.liveIn gang.slices))).getD 0 = 0
      ∧ m.dropMoving (m.site crew0) 5 .whole = some 0x10 ∧ acquires crew0 (.paged 0x10 {} 0 0) = true := by
  dsimp only; decide +kernel

/-! ### Packets, queues, faults, the outside, remaps, engines, parties and dies -/

/-- The state with the page tables of `tabled`. -/
def paged (s : State) (leaf : Nat := 0x100003) : State :=
  { s with mem := (tabled crew0 leaf).mem, tenants := s.tenants.map fun x => (x.1, { x.2 with root := 0x200 }) }

/-- A packet of queue 3 of tenant 5 with the double-words given. -/
def packet (l : List DWord) : Packet := { tenant := 5, queue := 3, addr := 0x10000, words := l ++ List.replicate (8 - l.length) 0 }

/-- The launch packet of one party; its arguments are at 0x10000. -/
def launchPkt : Packet := packet [1, 0x1000, 0, 0x841, 0x10000]

/-- A job of the queue, for a packet. -/
def job (k : JobKind) (p : Packet) (id : Nat := 8) : Job := { id := id, kind := k, pkt := p }

theorem test_meets_PacketsStartAndComplete :
    let s := world crew0
    let mapped := paged s
    packetBad (packet [0x100]) = true ∧ pktType (packet [0x100]) ≤ 4 ∧ packetBad (packet [5]) = true ∧ packetBad launchPkt = false
      ∧ (∀ j ∈ s.jobs, j.id < s.nextId) ∧ (job .fenced launchPkt).id < s.nextId ∧ (job .fenced launchPkt).pkt ≠ packet [0]
      ∧ (job .copy launchPkt).pkt.queue = (packet [0x80000]).queue ∧ natBit (pktWord (packet [0x80000]) 0) 19 = true
      ∧ ([packet [0], launchPkt, packet [2], packet [3, 0x10000], packet [4, 0x10000, 0x10100, 8]].map pktType) = [0, 1, 2, 3, 4]
      ∧ ([packet [0], launchPkt, packet [2], packet [3, 0x10000], packet [4, 0x10000, 0x10100, 8]].all fun p => !packetBad p) = true
      ∧ s.overLimit (packet [1, 0x1000, 0, 0]) = true ∧ s.overLimit launchPkt = false ∧ s.freeTag = some 0 ∧ launchPkt.args = none
      ∧ (mapped.agentBytes 5 0x10000 64).isSome = true ∧ (s.tenant 5).halted = false ∧ (mapped.agentBytes 5 0x10000 8).isSome = true
      ∧ 0x10000 % 256 + 256 ≤ 256 ∧ 0x100FF % 256 + 1 ≤ 256 ∧ (mapped.agentBytes 5 0x100FF 1).isSome = true
      ∧ [job .barrier (packet [2])].find? (fun x => x.id = 8 && x.kind == .barrier) = some (job .barrier (packet [2]))
      ∧ (s.depsZero (packet [2])).2 = true ∧ (∀ i ∈ List.range 6, pktWord (packet []) i = 0)
      ∧ [job .copy (packet [4])].find? (fun x => x.id = 8 && x.kind == .copy) = some (job .copy (packet [4]))
      ∧ pktWord (packet [4]) 6 = 0 ∧ natBit (pktWord (packet [4]) 0) 18 = false ∧ (s.queue 5 3).state ≠ 2
      ∧ pktType launchPkt ≠ 0 ∧ pktType (packet [0]) ≠ 4 := by
  dsimp only; decide +kernel

theorem test_meets_PacketsStartAndComplete_more :
    let s := paged (world crew0)
    let late : State := { s with jobs := [job .fenced (packet [0])] }
    let p := packet [3, 0x10000]
    s.met = none ∧ 4 < pktType (packet [5]) ∧ packetBad (packet [5]) = true ∧ pktType (packet [4]) = 4
      ∧ (∀ j ∈ s.jobs, j.pkt.tenant = p.tenant → j.pkt.queue ≠ p.queue)
      ∧ (∀ j ∈ late.jobs, j.id < late.nextId ∧ ¬(j.kind = .fenced ∧ j.pkt = p)) ∧ (∃ j ∈ late.jobs, j.pkt.queue = p.queue ∧ j.kind = .fenced)
      ∧ late.jobs.find? (fun j => decide (j.kind = .fenced ∧ j.pkt = packet [0]) && late.canStart j) = some (job .fenced (packet [0]))
      ∧ ((s.startPacket p 10).met = none) ∧ ((s.agentBytes 5 0x10000 64).map fun x => x.1.met) = some none
      ∧ ((({ s with pages := [(0x10, replicaMoving)] } : State).startPacket p 10).met = some (.moving 0x10)) ∧ pktWord (packet [0, 0, 0, 0, 0, 0, 0x10040]) 6 ≠ 0
      ∧ (s.depsZero (packet [2])).1.met = none ∧ (s.agentBytes 5 0x20000 8).isNone = true := by
  dsimp only; decide +kernel

/-- The tenant's queue 3, active, with its index words at 0x10000 and its ring at 0x10100. -/
def queued (state : BitVec 2) (c : Crew := crew0) : State :=
  paged { world c with
    tenants := [(5, { tenant5 with queues := [(3, { state := state, rbase := 0x10100, rsize := 2, widx := 0x10000, ridx := 0x10008 })] })] }

theorem test_meets_QueueControlAndReading :
    ((queued 1).queue 5 3).state = 1 ∧ ((queued 0).queue 5 3).state ≠ 1 ∧ ((queued 2).queue 5 3).state ≠ 1
      ∧ ((world crew0).agentBytes 5 0 8).isSome = false ∧ ((queued 1).agentBytes 5 0x10008 8).isSome = true
      ∧ (∃ j ∈ [job .copy (packet [4])], j.pkt.tenant = 5 ∧ j.pkt.queue = 3) ∧ (∀ j ∈ (queued 1).jobs, j.pkt.tenant = 5 → j.pkt.queue ≠ 3)
      ∧ (∀ x ∈ (queued 1).launches, x.2.tenant = 5 → x.2.queue = 4 → ((queued 1).launchRec x.1).complete = true)
      ∧ (∀ x ∈ (queued 1).parties, aget (queued 1).parties x.1 = some x.2) ∧ aget (queued 1).launches 2 = some launch2 ∧ launch2.complete = false
      ∧ (((queued 1).agentAcquire 5 0x10000).agentBytes 5 0x10000 8).isSome = true ∧ 0 ≤ ((queued 1).queue 5 3).next
      ∧ ((queued 1).queue 5 3).next < 1 ∧ ((queued 1).agentBytes 5 (0x10100 + 64 * (1 % max 1 2)) 64).isSome = true
      ∧ (aget ((queued 1).tenant 5).queues 3).isSome = true := by
  decide +kernel

/-- The tenant with a ring of four fault records at 0x10000 and an open record. -/
def faulted (t : FaultTarget) (c : Crew := crew0) (halted : Bool := false) : State :=
  paged (leaf := 0x100023) { world c with
    tenants := [(5, { tenant5 with ccbaddr := 0x300000, fqBase := 0x10000, fqSize := 4, open_ := [(3, t)], halted := halted
                                   waiting := [{ target := t, words := List.replicate 6 0 }] })] }

theorem test_meets_FaultService :
    let t : FaultTarget := .slices 0 1 0x5000
    let frozen : Crew := { crew0 with frozen := some (0, { code := 0x10 }) }
    aget ((world crew0).tenant 5).open_ 3 = none
      ∧ aget ((faulted t).tenant 5).open_ 3 = some t ∧ aget (faulted t (waiting crew0 .parked)).crews 0 = some (waiting crew0 .parked)
      ∧ aget ((faulted (.frozen 0) frozen).tenant 5).open_ 3 = some (.frozen 0) ∧ frozen.frozen = some (0, { code := 0x10 })
      ∧ aget ((faulted (.engine 9)).tenant 5).open_ 3 = some (.engine 9)
      ∧ ((world crew0).tenant 5).waiting = [] ∧ ((faulted t).tenant 5).waiting = { target := t, words := List.replicate 6 0 } :: []
      ∧ ((faulted t crew0 true).tenant 5).halted = true ∧ (faulted (.engine 9)).concerns (.engine 9) = false
      ∧ ((faulted t).tenant 5).halted = false ∧ (faulted t (waiting crew0 .parked)).concerns t = true
      ∧ (faulted t).ringFull 5 = false ∧ ((faulted t).memWrite 0x30004C [4]).ringFull 5 = true
      ∧ tenant5.fqSize = 0 ∧ (faulted t).ringOk 5 0x10000 = true ∧ (faulted t).ringOk 5 0x20000 = false
      ∧ ((faulted t).agentWrite 4 5 0x100C0 (List.replicate 64 0)).isSome = true := by
  dsimp only; decide +kernel

theorem test_meets_FaultService_more :
    let t : FaultTarget := .slices 0 1 0x5000
    let s := (faulted t).memWrite 0x30004C (leBytes 0xFFFFFFFF 4)
    s.fqHead 5 = 0xFFFFFFFF ∧ s.fqHead 5 + 1 = 2 ^ 32 ∧ (faulted t).fqHead 5 = 0 ∧ (s.tenant 5).fqSize ≠ 0 := by
  dsimp only; decide +kernel

theorem test_meets_ServiceEvents :
    let s : State := { world crew0 with csr := [(0x31, 1#64), (0x11F, 0xC0000000#64)] }
    sget s.csr 0x31 = 1 ∧ sget State.reset.csr 0x31 ≠ 1 ∧ (1#64).getLsbD 0 = true ∧ (2#64).getLsbD 0 = false
      ∧ (32 : Nat) ≤ 32 ∧ (31 : Nat) < 32 ∧ (0x80000100#64).getLsbD 31 = true
      ∧ (0x80000000#64).extractLsb' 12 3 = (0x80000000#64).extractLsb' 6 3 ∧ 4 < (0x80005000#64).extractLsb' 12 3
      ∧ (0x80000100#64).extractLsb' 12 3 ≠ (0x80000100#64).extractLsb' 6 3 ∧ ¬(4 < (0x80000100#64).extractLsb' 6 3)
      ∧ (∀ x ∈ List.range 32, (sget State.reset.csr (0x100 + x)).getLsbD 31 = false)
      ∧ (0x100#64).getLsbD 31 = false ∧ (sget s.csr 0x11F).getLsbD 30 = true ∧ (sget s.csr 0x100).getLsbD 30 = false
      ∧ (0x3FF < 0x400) ∧ (0x800 : Nat) ≤ 0x800 ∧ (0x400 : Nat) ≤ 0x7FF ∧ (0x7FF : Nat) < 0x800 ∧ 0x400 % 4 = 0 ∧ 0x7FD % 4 = 1 ∧ 0x7FF % 4 = 3
      ∧ (0x300#64).extractLsb' 8 2 = 3 ∧ (0x10000#64).getLsbD 16 = true ∧ 0x22 ∉ [0x00, 0x01, 0x02, 0x03, 0x04, 0x05, 0x06, 0x10, 0x11, 0x12, 0x13, 0x20, 0x21, 0x30, 0x31] := by
  dsimp only; decide +kernel

theorem test_meets_ServiceEvents_more :
    (∀ x ∈ (world crew0).crews, ∀ sl ∈ x.2.slices, sl.pend = none)
      ∧ (∃ sl ∈ (crew0.modSlice 0 fun x => { x with wait := .route 1 0 5, pend := some { code := 7 } }).slices, sl.pend ≠ none) := by
  decide +kernel

theorem test_meets_HostAccess :
    0x10FFF % 4096 + 1 ≤ 4096 ∧ 0x10000 % 4096 + 4096 ≤ 4096
      ∧ ((4 = 4 ∨ 4 = 8 ∨ (4 = 16 ∧ HostOp.swap = .cas)) ∧ 0x10004 % 4 = 0) ∧ ((16 = 16 ∧ HostOp.cas = .cas) ∧ 0x10010 % 16 = 0)
      ∧ ¬((16 = 4 ∨ 16 = 8 ∨ (16 = 16 ∧ HostOp.swap = .cas)) ∧ 0x10010 % 16 = 0) ∧ ¬((8 = 4 ∨ 8 = 8) ∧ 0x10004 % 8 = 0)
      ∧ (0x11, 0x12) ≠ (0x10, 0x11) := by
  decide +kernel

theorem test_meets_HostAccess_more :
    let s := world crew0
    let m := withPage replicaMoving
    s.met = none ∧ (∀ q ∈ [0x10000 / 4096, (0x10000 + 8 - 1) / 4096], (s.page q).run = none) ∧ 0x10000 < Config.bar0
      ∧ [0x10FF8 / 4096, (0x10FF8 + 16 - 1) / 4096].find? (fun q => (m.page q).run.isSome) = some 0x10
      ∧ [0xFFFC / 4096, (0xFFFC + 8 - 1) / 4096].find? (fun q => (m.page q).run.isSome) = some 0x10
      ∧ ((16 = 16 ∧ HostOp.cas = .cas) ∧ 0x10010 % 16 = 0) ∧ (0x2FFF < 0x3000) ∧ 0x7FFF / 8 < 0x3000 ∧ 0x3000 ≤ 0x18000 / 8 := by
  dsimp only; decide +kernel

/-- Fabric service enabled for tenant 5: APBASE 0x10000, one page. -/
def serving : State :=
  paged { world crew0 with csr := [(0x21, 0x15#64), (0x400, 0x00020051#64), (0x401, 0x10000#64), (0x402, 0x1000#64)] }

theorem test_meets_LinkRequests :
    (sget serving.csr 0x21).getLsbD 4 = true ∧ (sget serving.csr 0x21).toNat % 16 = 5 ∧ 4096 * 0 < (serving.tenant 5).aplen.toNat
      ∧ ¬(4096 * 1 < (serving.tenant 5).aplen.toNat) ∧ (sget State.reset.csr 0x21).getLsbD 4 = false
      ∧ (serving.agentBytes 5 0x10FFC 4).isSome = true ∧ (serving.agentStore 4 5 0x10FFF [1]).isSome = true ∧ (serving.agentBytes 5 0x20000 4).isSome = false
      ∧ (linkKind 0 0 0).size = 4 ∧ 0x10FFC % 4 = 0 ∧ 0x10FFE % 4 ≠ 0 ∧ serving.agentXlate 5 0x10FFC .write = .ok (.paged 0x10 {} 0xFFC 0x204100)
      ∧ (Tgt.paged 0x10 {} 0xFFC 0).plain = true ∧ ((linkKind 0 0 0).unsupported (.paged 0x10 {} 0xFFC 0)).isNone = true
      ∧ serving.agentXlate 5 0x20000 .write = .page
      ∧ serving.tenants.find? (fun y => y.2.number = ((sget serving.csr 0x400).extractLsb' 4 4).toNat) = some (5, serving.tenant 5)
      ∧ State.reset.tenants.find? (fun y => y.2.number = 0) = none ∧ 0xFFC + 4 ≤ (sget serving.csr 0x402).toNat ∧ (sget serving.csr 0x402).toNat < 0xFFD + 4
      ∧ serving.tagged 0xFFFF000900000000 = some (2, launch2) ∧ serving.tagged 0 = none ∧ launch2.tenant = 5 ∧ launch2.tenant ≠ 4
      ∧ (0 : Nat) < launch2.signals ∧ launch2.signals ≤ 4 ∧ 0 < launch2.total ∧ launch2.total ≤ 1 ∧ serving.findParty 2 0 = some (1, party1)
      ∧ (∃ p ∈ [({ group := 0, seq := 7, rank := 1, desc := [], data := [] } : CollPart)], p.group = 0 ∧ p.seq = 7 ∧ p.rank = 1)
      ∧ (sget serving.groupRun 0).toNat ≤ 0 := by
  decide +kernel

theorem test_meets_LinkRequests_more :
    let m : State := { serving with pages := [(0x10, replicaMoving)] }
    serving.met = none ∧ (serving.agentBytes 5 0x10000 4).map (·.1.met) = some none
      ∧ (m.agentBytes 5 0x10000 4).map (·.1.met) = some (some (.moving 0x10))
      ∧ ((linkKind 2 0 0).apply 1 2).1 = none ∧ ((linkKind 0 0 0).apply 1 2).1 = some 3
      ∧ (serving.agentXlate 5 0x20000 .write) = .page ∧ (serving.agentXlate 5 0x10000 .write) = .ok (.paged 0x10 {} 0 0x204100)
      ∧ party1.status = .resident ∧ ((sget serving.csr 0x400).extractLsb' 32 13).toNat = 0 ∧ ¬(0 < (sget serving.groupRun 0).toNat)
      ∧ serving.parts = [] := by
  dsimp only; decide +kernel

/-- The flight of a load by lane 0 whose request is `asked false`. -/
def flight : Flight := { group := 20, mask := 1, pc := 0x1000, lanes := [{ lane := 0, regs := [3] }], sz := 2, offs := [(0, 0, 4)] }

/-- The crew whose slice 0 waits for it. -/
def aloft : Crew := { waiting crew0 (.reply 20) with flights := [flight] }

theorem test_meets_RepliesAndWhatFollowsIssue :
    let s : State := { world crew0 with requests := [asked false], clock := 210005, time := 210005 }
    s.requests.find? (fun x => x.id = 20 && x.data.isNone) = some (asked false) ∧ (asked false).store = false ∧ (asked true).store = true
      ∧ (asked false).since + 210000 ≤ s.time ∧ 210004 < (asked false).since + 210000 ∧ (asked false (some 3)).op = some 3 ∧ (asked true).op = none
      ∧ aget s.crews 0 = some crew0 ∧ s.requests.find? (fun x => x.id = 21 && x.data.isNone) = none
      ∧ (waiting crew0 (.route 3 0x20000 5)).slice 0 = { crew0.slice 0 with wait := .route 3 0x20000 5 } ∧ 5 + 210000 ≤ s.time
      ∧ s.hops (cacheDie (s.site crew0)) 3 = none ∧ s.hops (cacheDie (s.site crew0)) 4 = some 1 ∧ (crew0.slice 0).wait = .none
      ∧ (waiting crew0 (.join 0x40000 0 (some 5))).slice 0 = { crew0.slice 0 with wait := .join 0x40000 0 (some 5) }
      ∧ crew0.cnt.matrix = 0 ∧ (let c : Crew := { crew0 with cnt := { matrix := 63 } }; c.cnt.matrix ≠ 0)
      ∧ (let c := crew0.modSlice 0 fun x => { x with ready := 4096 }; 4096 ≤ (c.slice 0).ready) ∧ (crew0.slice 0).ready < 4096
      ∧ (3 < 4 ∧ 15 < 16 ∧ 23 < 24 ∧ (s.die 3).inService = true ∧ (3 * 16 + 15) * 24 + 23 ∉ s.drowsy
          ∧ (sget s.bankUse ((3 * 16 + 15) * 24 + 23)).toNat + 65536 ≤ s.clock) ∧ ¬(4 < 4) := by
  dsimp only; decide +kernel

theorem test_meets_RepliesAndWhatFollowsIssue_more :
    let s : State := { world aloft with requests := [asked false], time := 210005 }
    let put : EngineOp := { id := 3, crew := 0, tenant := 5, die := 0, core := 0, cls := .coll, kind := .putsig }
    let pending : Crew := aloft.modSlice 0 fun x => { x with wait := .route 3 0x20000 5, pend := some { code := 7 } }
    aget s.crews 0 = some aloft ∧ aloft.flights.find? (fun fl => fl.group = 20) = some flight ∧ crew0.flights = []
      ∧ (flight.uni = [] ∧ flight.eret = false) ∧ mbit aloft.live 0 = true ∧ mbit ({ aloft with live := 0xE } : Crew).live 0 = false
      ∧ mbit flight.mask 0 = true ∧ (aloft.slice 0).wait = .reply 20
      ∧ (asked true (some 3)).op = some 3 ∧ (asked true).told = true ∧ put.kind = .putsig
      ∧ (pending.slice 0).pend = some { code := 7 } ∧ ((pending.slice 0).wait = .route 3 0x20000 5) ∧ (s.die 3).inService = true
      ∧ ((waiting crew0 (.cut 3 5)).slice 0).wait = .cut 3 5 ∧ 5 + 210000 ≤ s.time ∧ s.hops (cacheDie (s.site aloft)) 3 = none
      ∧ (∃ x ∈ s.requests, x.group = flight.group ∧ x.data = none) ∧ flight.drop = false
      ∧ aloft.flights = [] ++ flight :: [] ∧ (flight.lanes.map (·.lane)).Nodup
      ∧ (∀ x ∈ flight.lanes, x.lane < 32 ∧ x.regs.Nodup) ∧ flight.uni.Nodup ∧ (flight.offs.map fun x => (x.1, x.2.1)).Nodup
      ∧ (∀ x ∈ flight.offs, x.2.1 < 32) ∧ ({ flight with eret := true } : Flight).eret = true := by
  dsimp only; decide +kernel

/-- Page 0x10 with a remap under way from home to near, whose sharer has been told. -/
def run1 : RemapRun := { goal := .near 0 0 7, old := {}, wait := [.core 0 0], sent := [.core 0 0], since := 0 }

/-- Its record. -/
def moving : PageRec := { place := { res := .moving }, sharers := [.core 0 0], run := some run1 }

theorem test_meets_RemapProtocol :
    let s := world crew0
    let queue : PageRec := { queue := [{ id := 3, goal := .near 0 0 7 }] }
    let m := withPage moving
    let dropped := withPage { moving with run := some { run1 with sent := [], dropped := [.core 0 0], acks := [(.die 0, 0)] } }
    let complete := withPage { moving with run := some { run1 with wait := [], sent := [] } }
    (s.page 0x10).queue = [] ∧ ((withPage queue).page 0x10).queue = { id := 3, goal := .near 0 0 7 } :: [] ∧ (m.page 0x10).run ≠ none
      ∧ queue.run = none ∧ queue.legal (.near 0 0 7) = true ∧ queue.legal (.dropReplica 0 0) = false
      ∧ (∀ a ∈ goalFrames 0x10 (.near 0 0 7) none, (withPage queue).frameEmpty a = true)
      ∧ (let t : State := { withPage queue with pages := [(0x10, queue), (0x11, { place := { res := .near, munit := 0, mframe := 7 } })] }
         ∃ a ∈ goalFrames 0x10 (.near 0 0 7) none, t.frameEmpty a = false)
      ∧ (s.page 0x10).run = none ∧ (s.page 0x10).legal (.near 0 0 7) = true ∧ (s.page 0x10).place.res ≠ .near
      ∧ s.heldBy 0x10 (fun _ _ => true) = false ∧ s.mirrorPinned 0x10 = false ∧ (∀ a ∈ goalFrames 0x10 (.near 0 0 7) none, s.frameFree a = true ∧ s.frameEmpty a = true)
      ∧ (m.page 0x10).run = some run1 ∧ .core 0 0 ∈ run1.sent ∧ CacheId.core 0 1 ∉ run1.sent ∧ (s.die 0).inService = true
      ∧ (dropped.page 0x10).run.any (fun r => r.dropped.contains (.core 0 0) && r.acks.contains (.die 0, 0)) = true ∧ (s.die 0).inc.toNat = 0
      ∧ run1.wait ≠ [] ∧ (complete.page 0x10).run.any (fun r => r.wait.isEmpty && r.moved.isNone) = true ∧ run1.old.frameAddr 0 = none
      ∧ ({ res := .near, mdie := 3, munit := 31, mframe := 1023 } : Placement).frameAddr 0 = some (sramAddr 3 31 (1023 * 4096))
      ∧ (({ dies := List.replicate 4 { inService := false } } : State).die 3).inService = false
      ∧ (0x2000 + 4096 ≤ 0x3000) ∧ (4095 : Nat) < 4096 ∧ (0x12345 : Nat) < 0x20000
      ∧ (∀ x ∈ s.crews, ∀ i ∈ slices8, (x.2.slice i).pend = none) ∧ (0x204100 : Nat) / 4096 ≠ 0x10 ∧ (0x204100 + 15) / 4096 ≠ 0x10
      ∧ (waiting crew0 (.moving 0x10)).slice 0 = { crew0.slice 0 with wait := .moving 0x10 }
      ∧ (3 : Nat) < 4 ∧ (∃ c ∈ run1.wait, cacheDie c = 0) ∧ run1.since + 210000 ≤ 210000 ∧ ¬(run1.since + 210000 ≤ 209999)
      ∧ Waiter.slice 0 0 ∈ ({ moving with refused := [.slice 0 0] } : PageRec).refused ∧ Waiter.slice 0 0 ∉ moving.refused ∧ m.waitersIn 0x10 < 256 := by
  dsimp only; decide +kernel

theorem test_meets_RemapProtocol_more :
    let known : PageRec := { mirror := some 0x204100 }
    let k : State := { tabled crew0 with pages := [(0x10, known)] }
    let near : State := { k with pages := [(0x10, { known with place := { res := .near, mdie := 1, munit := 3, mframe := 5 } })] }
    let held : State := { k with parties := [(1, { party1 with holds := [0x10] })] }
    let asking : State := { k with pages := [(0x10, { queue := [{ id := 3, goal := .near 0 0 7 }] }), (0x11, { queue := [{ id := 2, goal := .near 0 0 7 }] })] }
    let crowd : State := { k with pages := [(0x10, { moving with waiters := (List.range 256).map fun i => .slice i 0 })] }
    let c := crew0.modSlice 0 fun x => { x with wait := .moving 0x10, addr := some 0x10000 }
    k.movable 0x10 = true ∧ known.legal (.near 0 0 100) = true ∧ k.heldAgainst 0x10 (.near 0 0 100) (fun _ => true) = false
      ∧ k.engineFrame 0x10 (.near 0 0 100) = true ∧ (∀ a ∈ goalFrames 0x10 (.near 0 0 100) none, k.frameFree a = true ∧ k.frameEmpty a = true)
      ∧ k.engineFrame 0x10 (.near 0 0 7) = false ∧ k.engineFrame 0x10 (.near 0 0 15) = false ∧ held.heldAgainst 0x10 (.near 0 0 100) (fun _ => true) = true
      ∧ (world crew0).movable 0x10 = false ∧ (near.page 0x10).place.res = .near ∧ (near.page 0x10).legal (.replica 0 0 100) = true
      ∧ (near.takeFar 0 0x10 false).map (·.2) = some (0, 0) ∧ (near.takeFar 0 0x10 false).isSome = true
      ∧ (∀ a ∈ goalFrames 0x10 (.near 0 0 7) none, asking.frameWaits 3 a = true)
      ∧ (∀ a ∈ goalFrames 0x11 (.near 0 0 7) none, asking.frameWaits 2 a = false)
      ∧ crowd.waitersIn 0x10 = 256 ∧ (crowd.page 0x10).waiters.Nodup ∧ (∀ x ∈ k.pages, x.2.drops = [] ∧ x.2.waiters = [] ∧ x.2.refused = [])
      ∧ (c.slice 0).pend = none ∧ (c.slice 0).addr = some 0x10000 ∧ (c.slice 0).wait = .moving 0x10 := by
  dsimp only; decide +kernel

theorem test_meets_FirmwareUpdate : isNext (exec .fundamentalReset (world crew0)) = true := by decide +kernel

theorem test_meets_BootAndAttestation :
    State.reset.boot.running = false ∧ (0 : Nat) < 5 ∧ (4 : Nat) < 5 ∧ (0 : Nat) ≠ 4 ∧ (127 : Nat) < 128 ∧ (0 : Nat) < (world crew0).nextId
      ∧ State.reset.boot.lmsLeaf < 2 ^ 20 ∧ 2 ^ 20 - 1 < 2 ^ 20 ∧ 2 ^ 20 ≤ ({ lmsLeaf := 2 ^ 20 } : Boot).lmsLeaf := by
  decide +kernel

theorem test_meets_HeartbeatsFenceTheHost :
    let s : State := { State.reset with boot := { running := true }, time := 210000000 }
    let fenced : State := { State.reset with csr := [(0x12, 1#64)] }
    s.boot.running = true ∧ s.hostFenced = false ∧ s.hbLast + (sget s.csr 0x11).toNat * 2100 ≤ s.time
      ∧ ¬(s.hbLast + (sget s.csr 0x11).toNat * 2100 ≤ 209999999)
      ∧ 3 ≤ ({ hbMissed := 3 } : State).hbMissed ∧ fenced.hostFenced = true ∧ (1 : DWord) ≠ 0 := by
  dsimp only; decide +kernel

/-- An operation in flight for tenant 5: the COPY of `copying`. -/
def copyOp : EngineOp :=
  { id := 9, crew := 0, party := some 1, tenant := 5, die := 0, core := 0, cls := .copy, kind := .copy
    desc := (List.range 16).map fun i => copying.sreg (16 + i) }

/-- The state in which it is in flight. -/
def inFlight (o : EngineOp) : State := paged { world copying with ops := [o] }

theorem test_meets_EngineProgress :
    let s := inFlight copyOp
    let done : EngineOp := { copyOp with elems := 16, tiles := 1, posts := 1 }
    let owing : EngineOp := { copyOp with elems := 16, tiles := 1 }
    let lost : EngineOp := { copyOp with desc := [0x50000#64] ++ copyOp.desc.tail }
    (Instr.tilePost 9, OpNext.tile) ∈ [(Instr.tilePost 9, OpNext.tile), (.engineRetire 9, .retire), (.engineFault 9, .fault)]
      ∧ s.ops.find? (fun o => o.id = 9) = some copyOp ∧ s.opNext copyOp = .tile ∧ (inFlight owing).opNext owing = .tile ∧ owing.posts < owing.tiles
      ∧ (s.moveTile copyOp).2 = (16, none) ∧ s.opAwaits copyOp = false ∧ copyOp.kind ≠ .putsig ∧ copyOp.signal = none
      ∧ (inFlight done).opNext done = .retire ∧ aget s.crews 0 = some copying
      ∧ (inFlight lost).opNext lost = .fault ∧ ((inFlight lost).moveTile lost).2.2.isSome = true
      ∧ (s.opElem copyOp 15).toOption.isSome = true ∧ (s.opElem lost 0).toOption.isSome = false
      ∧ (s.engRead copyOp (engLoc 0 0x10000 0) 4 0).toOption.isSome = true ∧ (s.engWrite copyOp (engLoc 1 0 0) [1, 2, 3, 4] 0).toOption.isSome = true
      ∧ (∀ x ∈ ([15] : List Nat).zipIdx, x.1 < copyExt copyOp.word64 x.2) ∧ (s.engTgt copyOp (engLoc 0 0x10000 0) 4 .read |>.toOption) = some (.paged 0x10 {} 0 0x204100)
      ∧ (Tgt.paged 0x10 {} 0 0).remote = false ∧ (∀ o ∈ s.ops, o.group = 0 → s.collDue o = false) := by
  dsimp only; decide +kernel

/-- A collective of one element of tenant 5 in group 0, of two members of which this module is rank 0. -/
def collOp : EngineOp :=
  { id := 9, crew := 0, party := some 1, tenant := 5, die := 0, core := 0, cls := .coll, kind := .coll
    desc := [0x0000000100000000, 0x10000, 0x10100, 0, 0, 0] }

/-- The state in which it runs, with the contributions given. -/
def collecting (parts : List CollPart) : State :=
  { paged (world crew0) with csr := [(0x400, 0x00020051#64), (0x401, 0x10000#64), (0x402, 0x1000#64)], ops := [collOp], parts := parts }

/-- A contribution of a rank. -/
def part (rank : Nat) (desc : List DWord := collOp.desc) : CollPart := { group := 0, seq := 0, rank := rank, desc := desc, data := [1, 2, 3, 4] }

theorem test_meets_EngineProgress_rest :
    let s := collecting []
    let gather : EngineOp := { copyOp with kind := .gather, cls := .gather, desc := [0x10000, 0x10000, 0, 0x10080, 0x100000004, 4, 0, 1] }
    let putsig : EngineOp := { copyOp with kind := .putsig }
    let far : EngineOp := { copyOp with desc := [0x20000#64] ++ copyOp.desc.tail }
    s.collTurn 0 = some collOp ∧ s.collDue collOp = true ∧ s.collDisagree collOp = false ∧ s.collUnsent collOp = true
      ∧ (collGather s collOp 4 (collSource 2 0 collOp.word64) 0).toOption.isSome = true
      ∧ (collecting [part 1 [2]]).collDue collOp = true ∧ (collecting [part 1 [2]]).collDisagree collOp = true
      ∧ (∀ r ∈ List.range (max ((collecting [part 0, part 1]).members 0) 1),
          ((collecting [part 0, part 1]).partsOf 0 0).find? (fun p => p.rank = r) = some (part r))
      ∧ 1 < s.members 0 * natBits (collOp.word64 0) 63 32 ∧ 0 < s.members 0
      ∧ ((inFlight gather).engRead gather (engLoc 0 0x10080 0) 4 0).toOption.isSome = true
      ∧ natBits (gather.word64 7) 31 0 ≤ 1 ∧ 0 < natBits (gather.word64 7) 31 0
      ∧ (inFlight putsig).opAwaits putsig = false ∧ putsig.kind = .putsig
      ∧ (match (((inFlight far).memWrite 0x204200 (leBytes 0x70000090503 16)).moveTile far).2.2 with | some (.await _ _ _) => true | some (.noRoute _) => true | _ => false) = true := by
  dsimp only; decide +kernel

theorem test_meets_EngineProgress_more :
    let owing : EngineOp := { copyOp with elems := 16, tiles := 1 }
    let put : EngineOp := { copyOp with kind := .putsig, cls := .coll, tiles := 1, elems := 1, writes := [{ slice := 0, addr := 0x10000, data := [1, 2, 3, 4] }] }
    let wait (lane : Nat) : Request := { asked true (some 9) with lane := lane }
    let s := inFlight owing
    let p := inFlight put
    let store : EngineOp := { put with kind := .mstore }
    let cut : State := { inFlight store with routes := [] }
    let row : EngineOp := { copyOp with kind := .gather, cls := .gather, desc := [0x10000, 0x10000, 0, 0x10080, 0x100000004, 4, 0, 1], row := some (0, 5) }
    let far : EngineOp := { copyOp with desc := [0x20000#64] ++ copyOp.desc.tail }
    let f (o : EngineOp) (t : State) := (t.moveTile o).2.2
    let fabric (o : EngineOp) := (inFlight o).memWrite 0x204200 (leBytes 0x70000090503 16)
    let stuck : EngineOp := { far with stall := some (4, 0) }
    let m : State := { inFlight copyOp with pages := [(0x10, replicaMoving)] }
    s.postDue owing = true ∧ ({ s with requests := [wait 0] } : State).postDue owing = false
      ∧ p.postDue put = true ∧ p.postSlices put = [0] ∧ ({ p with requests := [wait 0] } : State).postDue put = false
      ∧ p.postDue { put with lost := [(0, 0x14)] } = false ∧ p.postDue { put with posted := [0] } = false
      ∧ cut.hops store.die 4 = none ∧ (p.hops store.die 4).isSome = true
      ∧ (({ p with met := none } : State).windowWrite 0 0 0 [1]).met = none
      ∧ (inFlight row).rowIndex row 0 0 = .ok (inFlight row, 5) ∧ row.row = some (0, 5) ∧ ¬(5 < natBits (row.word64 7) 31 0)
      ∧ (match f far { fabric far with routes := [] } with | some (.noRoute _) => true | _ => false) = true
      ∧ (match f far (fabric far) with | some (.await _ _ (some (.stodorRead _ _ _ _ _))) => true | _ => false) = true
      ∧ (match f copyOp m with | some (.moving _) => true | _ => false) = true
      ∧ (match f far (inFlight far) with | some (.page _ _) => true | _ => false) = true
      ∧ ({ fabric stuck with routes := [], time := 210000 } : State).opNext stuck = .fault
      ∧ (collecting [part 0]).collUnsent collOp = false ∧ collOp.stall = none
      ∧ (collecting [part 0, part 1 [2]]).collDisagree collOp = true ∧ (cdataPieces (List.replicate 300 0)).length = 2 := by
  dsimp only; decide +kernel

/-- The state before the launch's party has been placed. -/
def unplaced : State := { world crew0 with crews := [], parties := [], outings := [] }

/-- A crew inside an idempotent region. -/
def restartable : Crew := { crew0 with idem := some { pc := 0, sregs := [], live := 15, tile := {} } }

theorem test_meets_PartyLife :
    let ended : State := { world crew0 with crews := [(0, { crew0 with live := 0, exec := 0 })] }
    let told (at_ : Nat) (c : Crew) : State := { world c with parties := [(1, { party1 with status := .stopping at_ })] }
    let saved : State := { world crew0 with crews := [], parties := [(1, { party1 with status := .saved 0, restart := [none] })] }
    (0 = (unplaced.launchRec 2).nextOuting) ∧ unplaced.placing (unplaced.launchRec 2) = true ∧ ([0] : List Nat).length = (unplaced.launchRec 2).nextCount
      ∧ octantsOk (unplaced.tenant 5) [(0, 0)] = true ∧ (seatAll 2 [0] 0 { s := unplaced }).isSome = true
      ∧ ((seatAll 2 [0] 0 { s := unplaced }).map fun x => unplaced.stillFull x.empty) = some []
      ∧ (unplaced.planCore 0 0 (unplaced.launchRec 2).res.toNat (resNear (unplaced.launchRec 2).res.toNat)).isSome = true
      ∧ (unplaced.planCore 4 0 0x841 0).isSome = false
      ∧ (0 : Nat) < natBits launch2.res.toNat 5 0
      ∧ party1.status = .resident ∧ party1.crews ≠ [] ∧ (ended.die 0).inService = true ∧ (∀ x ∈ ended.crews, x.2.partyId = some 1 → x.2.live = 0)
      ∧ ended.quiet 1 = true ∧ ((told 0 crew0).party 1).status = .stopping 0 ∧ (told 0 crew0).quiet 1 = true
      ∧ ((told 0 restartable).die 0).ckpt = false
      ∧ ((told 0 restartable).crews.all fun x => x.2.partyId != some 1 || x.2.idem.isSome || x.2.live == 0) = true
      ∧ ((told 0 crew0).crews.any fun x => x.2.partyId == some 1 && x.2.idem.isNone && x.2.live != 0) = true
      ∧ ([(0, 8, 1), (8, 4, 2)] : List AreaField).Pairwise (fun f g => f.1 + f.2.1 ≤ g.1 ∨ g.1 + g.2.1 ≤ f.1)
      ∧ (7 : Nat) < 8 ∧ (127 : Nat) < 128 ∧ (15 : Nat) < crew0.g
      ∧ (told 0 (waiting crew0 (.reply 20))).quiet 1 = false ∧ 0 + 2100000 ≤ 2100000 ∧ ¬(0 + 2100000 ≤ 2099999)
      ∧ (saved.party 1).isSaved = true ∧ ([0] : List Nat).length = (saved.savedGroup 1).length
      ∧ octantsOk (saved.tenant 5) (((saved.savedGroup 1).zip [0]).map fun x => ((saved.party x.1).outing, x.2)) = true
      ∧ ((saved.savedGroup 1).find? fun q => (saved.party q).restart.isEmpty && !saved.areaOk q (saved.party q).area) = none
      ∧ (reseatAll ((saved.savedGroup 1).zip [0]) { s := saved }).isSome = true := by
  dsimp only; decide +kernel

theorem test_meets_PartyLife_more :
    let l3 : Launch := { launch2 with prio := 2 }
    let low : State := { world crew0 with launches := [(2, launch2), (3, l3)] }
    let busy : State := { low with dies := List.replicate 4 { inService := false } }
    let fresh : Crew := { crew0 with started := false }
    let inside : Crew := { crew0 with started := true, idem := some { pc := 0, sregs := [], live := 15, tile := {}, took := [(1, 7)] } }
    let m := withPage replicaMoving
    crew0.started = false ∧ fresh.started = false ∧ inside.started = true ∧ inside.idem ≠ none
      ∧ (∀ x ∈ [0], (world crew0).coreMoving x = false) ∧ m.coreMoving 0 = true
      ∧ (launch2.walks[1]?).isSome = true ∧ (1, 7) ∈ (inside.idem.map (·.took)).getD []
      ∧ busy.placing l3 = true ∧ (low.launchRec 2).prio < l3.prio ∧ (low.launchRec 2).tenant = l3.tenant
      ∧ (world crew0).retirable 1 = false ∧ (world crew0).met = none
      ∧ (∀ x ∈ (world crew0).parties, x.2.status = .resident) ∧ busy.victim 3 l3 = some 1 := by
  dsimp only; decide +kernel

theorem test_meets_DieLife :
    let s := world crew0
    let out : State := { s with dies := [{ inService := false, fencedAt := some 0 }, {}, {}, {}], time := 210000 }
    (s.die 3).inService = true ∧ (out.die 0).inService = false ∧ (3 : Nat) < 4 ∧ 4 ≤ 4
      ∧ (∀ t ∈ (out.die 0).fencedAt, t + 210000 ≤ out.time) ∧ ¬(0 + 210000 ≤ 209999)
      ∧ (5 ∈ s.tenants.map (·.1)) ∧ (∃ x ∈ s.parties, x.2.die = 0 ∧ (s.launchRec x.2.launch).tenant = 5 ∧ x.2.status = .resident)
      ∧ (sharedPage.held.frameAddr 0 ≠ none ∧ sharedPage.held.mdie = 1) ∧ (∃ x ∈ sharedPage.replicas, x.die = 0) ∧ sharedPage.held.mdie ≠ 0
      ∧ (¬∃ x ∈ sharedPage.replicas, x.die = 2) ∧ mbit sharedPage.wsc 1 = false ∧ mbit ({ sharedPage with wsc := 8 } : PageRec).wsc 3 = true
      ∧ sharedPage.run = none ∧ moving.run ≠ none
      ∧ party1.die = 0 ∧ party1.die ≠ 1 ∧ aget (s.die 0).checkpoint 1 = none
      ∧ aget (({ s with dies := [{ checkpoint := [(1, party1)] }] } : State).die 0).checkpoint 1 = some party1
      ∧ aget s.parties 1 = some party1 ∧ (∀ x ∈ s.parties, x.2.die = 3 → ¬(x.2.status = .resident)) ∧ 3 < s.dies.length := by
  dsimp only; decide +kernel

theorem test_meets_DieLife_more :
    let m := withPage sharedPage
    (∀ x ∈ m.pages, homeStack x.1 = 0 → x.2.waiters = [] ∧ x.2.refused = [])
      ∧ mbit ({ sharedPage with wsc := 2 } : PageRec).wsc 1 = true ∧ m.tenantsOn 0 = [5] ∧ m.tenantsOn 1 = []
      ∧ (∃ a, ({ party1 with status := .saved 0x1000 } : Party).status = .saved a) ∧ 3 < m.dies.length := by
  dsimp only; exact ⟨by decide +kernel, by decide +kernel, by decide +kernel, by decide +kernel, ⟨_, rfl⟩, by decide +kernel⟩

theorem test_meets_CrewsStayInOrder :
    (State.reset.crews.map (·.1)).Pairwise (· < ·) ∧ isNext (step State.reset) = true
      ∧ ((fetchWorld 0x00200000 0).crews.map (·.1)).Pairwise (· < ·) ∧ isNext (step (fetchWorld 0x00200000 0)) = true := by
  decide +kernel

theorem test_meets_Rounding :
    let half : Dy := ⟨false, 1, -1⟩
    allFmts.length = 7 ∧ Fmt.f64 ∈ allFmts ∧ Fmt.e2m1 ∈ allFmts ∧ Fmt.f32.value 0x3F000000 ≠ .nan
      ∧ (match Fmt.f32.value 0x3F000000 with | .fin d => d.m != 0 && !d.neg | _ => false) = true
      ∧ Fmt.f32.value 0xFF800000 = .inf true ∧ Fmt.f32.value 0x7FC00000 = .nan ∧ (0xFFFFFFFF : Nat) < 2 * Fmt.f32.signBit
      ∧ (Ty.ofCode .f32 6).fmt = some .e4m3 ∧ (Ty.ofCode .f32 10).fmt = none ∧ fprod (.inf false) (.fin half) = some (.inf false)
      ∧ (exp2Fin .f32 .rn half).isSome = true ∧ (log2Fin .f32 .rn half).isSome = true ∧ (sinpiFin .f32 .rn half).isSome = true
      ∧ (cospiFin .f32 .rn half).isSome = true := by
  dsimp only; decide +kernel

/-! ### More of what the statements assume: waits inside an instruction, gangs of several slices, missing routes, records on other dies -/

/-- What a crew's instruction has read at its issue, before WIN and a write of s2. -/
def heldOf (c : Crew) : Held := { win := 8, xuni := c.xuni, sregs := sset c.sregs 2 0x10000#64, lpb := 0, pend := [] }

/-- Slice 0 waits inside its instruction, which is the NOP at its PC. -/
def within (w : Wait) : Crew := crew0.modSlice 0 fun x => { x with wait := w, held := some (heldOf crew0) }

/-- The state whose gang waits so, with nothing fetched. -/
def goingOn (w : Wait) : State := { world (within w) with issue := none }

/-- A gang goes on with the NOP that it waits inside; dies 1 and 3 are IDLE. -/
theorem test_meets_StepRunsTheDecodedInstruction_also :
    let s := goingOn (.replay 7)
    let g := cand s
    let sl := ((s.begin g).crew g.crew).slice g.lead
    s.inputs = [] ∧ s.turn = false ∧ s.chooseGang = some g ∧ g.first = some 7 ∧ sl.inside = some (heldOf crew0) ∧ sl.pfx = 0
      ∧ reads [sl.word] = some (.nop {}, []) ∧ s.power 1 = some .idle ∧ s.power 0 = some .active ∧ 1 < s.dies.length
      ∧ ((fetchWorld 0 0).begin (cand (fetchWorld 0 0))).power 3 = some .idle ∧ (cand (fetchWorld 0 0)).first = none
      ∧ aget (world (within (.moving 0x10))).crews 0 = some (within (.moving 0x10)) ∧ ((within (.moving 0x10)).slice 0).within = true
      ∧ ((within (.moving 0x10)).slice 0).pc = gang.pc ∧ 0 ∈ gang.slices ∧ (s.poolFails (s.crew 0) (.nop {})) = false
      ∧ ((fetchWorld 0 0).crew 0).sreg 2 = 0x10000 := by
  dsimp only; decide +kernel

theorem test_meets_EveryStateSteps_also :
    let e : Instr := .hostRead 0x10000 8 3
    let s : State := { goingOn (.replay 7) with replays := [(3, e)] }
    let far : State := { State.reset with replays := [(3, e)], rota := 0 }
    e.encoded = false ∧ (∀ c ∈ s.candidates, ∀ m, c.first = some m → m = 0 ∨ 3 ≤ m) ∧ s.candidates ≠ []
      ∧ far.candidates = [] ∧ beating.replayEvent = none ∧ Instr.heartbeatWrite.encoded = false ∧ s.internalEvent = some e
      ∧ (∀ x ∈ (goingOn (.replay 2)).candidates, x.first = some 2) ∧ (goingOn (.replay 2)).candidates ≠ [] := by
  dsimp only; decide +kernel

/-- A gang of two slices. -/
def gang2 : Issue := { gang with mask := 3 }

/-- A crew with two live slices, all of whose lanes are active. -/
def wide2 : Crew := { crew0 with live := 0xFF, exec := 0xFF }

theorem test_meets_gangs_of_several_slices :
    issues (world wide2 gang2) gang2 wide2 ∧ gang2.slices = [0, 1] ∧ wide2.liveSlices = [0, 1] ∧ (wide2.slice 1).group = none
      ∧ (∀ i ∈ gang2.slices, wide2.activeOf i ≠ []) := by
  decide +kernel

/-- The state of `tabled` without any circuit: nothing but the die itself is reached. -/
def routeless (s : State) : State := { s with routes := [], measured := [] }

theorem test_meets_StoresWriteComputedAddresses_also :
    let far : Tgt := .fabric 7 9 0
    let s := routeless (world crew0)
    let cut : State := { cutWorld crew0 with issue := some gang }
    let g : Tgt := .paged 0x10 farAt 0 0
    issues s gang crew0 ∧ (crew0.slice 0).group = none
      ∧ (∀ l ∈ crew0.activeOf 0, memAddr (uniM 3) false crew0 l % 4 = 0 ∧ s.taken.access crew0 (memAddr (uniM 3) false crew0 l) 4 .write = .ok far)
      ∧ ((crew0.laneTgts 0 (memAddr (uniM 3) false crew0) fun _ => far).find? (fun y => s.taken.stuck (s.site crew0) y.tgt false)).isSome = true
      ∧ s.taken.cutFrom (s.site crew0) far false = false ∧ s.taken.noRoute (s.site crew0) far false = some 4
      ∧ (∀ l ∈ crew0.activeOf 0, cut.taken.access crew0 (memAddr (uniM 2) false crew0 l) 4 .write = .ok g)
      ∧ ((crew0.laneTgts 0 (memAddr (uniM 2) false crew0) fun _ => g).find? (fun y => cut.taken.stuck (cut.site crew0) y.tgt false)).isSome = true
      ∧ cut.taken.cutFrom (cut.site crew0) g false = true := by
  dsimp only; decide +kernel

theorem test_meets_AtomicsUpdateAtTheirPlace_also :
    let c := { pointing 0x10010 with exec := 3 }
    let s := cutWorld c
    let g : Tgt := .paged 0x10 farAt 0x10 0
    let l := c.laneTgts 0 (fun _ => 0x10010) fun _ => g
    let whole : Prefix := { scope := 5, ord := 3 }
    issues s gang c ∧ (l.filter fun x => s.taken.cutOff x.tgt) ≠ [] ∧ (l.filter fun x => !s.taken.cutOff x.tgt) = []
      ∧ s.taken.cutOff g = true ∧ g.remote = false ∧ hostRefuses (.rmw 0 .ui32) [] = none ∧ (c.slice 0).group = none
      ∧ (∀ m ∈ c.activeOf 0, s.taken.access c (atomAddr { a := 12 } 2 4 c m) 4 .write = .ok g)
      ∧ (∀ f ∈ ([.f32, .bf16] : List Ty), f.fmt.isSome = true) ∧ Ty.ui32.fmt = none
      ∧ releases c 0xF = true ∧ (isWide whole && isRelease whole) = true := by
  dsimp only; decide +kernel

theorem test_meets_MemoryControl_also :
    let s := tabled crew0
    let hit := world crew0
    let odd (m : Nat) : State := tabled crew0 (0x100003 + m * 256)
    (match hit.find (hit.site crew0) 5 0x10000 with | .hit e => e.leaf.pfn == 0x10 && e.leaf.mtype == .framed | _ => false) = true
      ∧ inPartyWindow 0xFFFFFF0000000000 = true ∧ inOutingWindow 0xFFFFFF0001000000 = true
      ∧ (match (odd 2).find (s.site crew0) 5 0x10000 with | .filled l _ _ => l.mtype == .scratch | _ => false) = true
      ∧ (match (odd 7).find (s.site crew0) 5 0x10000 with | .filled l _ _ => l.mtype == .reserved | _ => false) = true
      ∧ (0 : Nat) < 5 ∧ (4 : Nat) < 5 ∧ hopGo hit.routes 4 5 0 [0] = some 1 ∧ hopGo hit.routes 2 5 0 [0] = none
      ∧ ((withPage moving).page 0x10).moving = true ∧ (s.page 0x10).moving = false := by
  dsimp only; decide +kernel

/-- A release record of tenant 5 at the granule of home address 0x10000 by a core of die 1. -/
def syncing (s : State) (since : Option Nat := none) : State :=
  { s with syncs := [{ granule := 0x10000, recs := [{ tenant := 5, die := 1, core := 0, inc := 0, range := .whole, since := since }] }] }

/-- What a step has met that may not be made now. -/
def metBy (x : Option (State × List Byte)) : Option Met := x.bind (·.1.met)

theorem test_meets_SignalPostsAndWaits_also :
    let l : Launch := { launch2 with heldPosts := [(party1.index, 3, 7, .nothing)] }
    let s : State := { world crew0 with launches := [(2, l)] }
    aget s.parties 1 = some party1 ∧ aget s.launches 2 = some l ∧ ((within (.replay 0)).slice 0).wait = .replay 0
      ∧ (s.party 1).sigCount = 4 ∧ s.dropMoving (s.site crew0) 5 ((aget (s.party 1).sigSummary 3).getD .nothing) = none
      ∧ (∀ n w, (crew0.slice 0).wait ≠ .signal n w ∧ (crew0.slice 0).wait ≠ .replay n) ∧ (2 : Nat) ≤ (4#3).toNat := by
  dsimp only
  have h : (crew0.slice 0).wait = .none := by decide +kernel
  exact ⟨by decide +kernel, by decide +kernel, by decide +kernel, by decide +kernel, by decide +kernel, by simp [h], by decide +kernel⟩

theorem test_meets_EngineStart_also :
    let g : State := { world crew0 with csr := [(0x400, 0x00020051#64), (0x401, 0x10000#64), (0x402, 0x1000#64)] }
    let m : State := { world copying with pages := [(0x10, { replicaMoving with replicas := [{ die := 0, core := 0, frame := 7 }] })] }
    (routeless g).hops (cacheDie (g.site crew0)) 4 = none ∧ (routeless g).groupOk 0 5 = true ∧ crew0.activeOf 0 ≠ []
      ∧ (world copying).site copying = .core 0 0 ∧ (∀ x ∈ (world copying).pages, x.2.dropsAt 0 0 = false)
      ∧ (m.page 0x10).dropsAt 0 0 = true ∧ (m.issueMerge copying [] .whole).2 = [0x10]
      ∧ copyReason (world crew0) crew0 (word16 (described [(0, 0x10000), (1, 0), (3, 16), (5, 0x412100000001), (6, 0x100000001)])) = none
      ∧ copyReason (world crew0) crew0 (word16 (described [(0, 0x10000), (1, 0xFFF), (3, 16), (5, 0x412100000000), (6, 0x100000001)])) = some 6 := by
  dsimp only; decide +kernel

/-- The crew whose slice 1 waits at the pass of slice 0. -/
def passing : Crew := { matrixCrew with live := 0xFF, exec := 0xFF }

theorem test_meets_MatrixPasses_also :
    let c : Crew := passing.modSlice 1 fun x => { x with wait := .matrix 0 }
    let s := world c
    let b (w : Nat) := fmtBlock w
    let at_ (slot : BitVec 7) (acc : BitVec 7 := 1) : FmtA := { d := acc, a := 0, b := slot }
    (1 ∈ c.liveSlices ∧ (c.slice 1).pc = gang.pc ∧ (c.slice 1).pend = none ∧ 0 ∈ gang.slices ∧ (c.slice 1).wait = .matrix 0)
      ∧ (∀ i ∈ [0, 1], passFault s c (fmtBlock 0x55) (at_ 0) i = none)
      ∧ 7 ≤ (b 0x57).afmt ∧ passFault s c (b 0x57) (at_ 0) 0 = some (0x0E, 1) ∧ 7 ≤ (b 0x75).bfmt ∧ passFault s c (b 0x75) (at_ 0) 0 = some (0x0E, 2)
      ∧ (b 0xC55).blk = 3 ∧ passFault s c (b 0xC55) (at_ 0) 0 = some (0x0E, 3)
      ∧ ((b 0x51).afmt < 5 ∧ ¬(b 0x51).bfmt < 5) ∧ passFault s c (b 0x51) (at_ 0) 0 = some (0x0E, 4)
      ∧ ((b 0x111).asc = true ∧ (b 0x111).afmt ∉ [2, 3, 4]) ∧ passFault s c (b 0x111) (at_ 0) 0 = some (0x0E, 5)
      ∧ ((b 0x244).afmt = 4 ∧ (b 0x244).asc = false) ∧ passFault s c (b 0x244) (at_ 0) 0 = some (0x0E, 6)
      ∧ ((b 0x744).afmt = 4 ∧ (b 0x744).blk ≠ 0) ∧ passFault s c (b 0x744) (at_ 0) 0 = some (0x0E, 7)
      ∧ ((b 0x12).bfmt < 2 ∧ (1#7).toNat % 2 = 1) ∧ passFault s c (b 0x12) (at_ 1) 0 = some (0x0E, 8)
      ∧ passFault s c (b 0x55) (at_ 0 2) 0 = some (0x0D, 0) ∧ passFault s c (b 0x55) (at_ 2) 0 = some (0x0D, 1) := by
  dsimp only; decide +kernel

theorem test_meets_SystemInstructionsByLevel_also :
    (world crew0).awayRec 0x10000 = none ∧ (syncing (world crew0)).awayRec 0x10000 ≠ none := by
  decide +kernel

/-- All 1,024 tags are taken. -/
theorem test_meets_no_free_tag (s : State) (h : s.launches = (List.range 1024).map fun i => (i, { launch2 with tag := BitVec.ofNat 32 i })) :
    s.freeTag = none := by
  simp only [State.freeTag, List.find?_eq_none, List.mem_range, Bool.not_eq_true, Bool.not_eq_false', h, List.any_eq_true, Bool.and_eq_true,
    decide_eq_true_eq, List.mem_map]
  exact fun t ht => ⟨_, ⟨t, ht, rfl⟩, rfl, by simp; omega⟩

theorem test_meets_PacketsStartAndComplete_also :
    let s := paged (world crew0)
    let p := packet [3, 0x10000]
    let copy := packet [4, 0x10000, 0x10100, 8]
    s.met = none ∧ ((routeless s).startPacket p 10).met = some (.noRoute 0) ∧ ((routeless s).startPacket copy 10).met = some (.noRoute 0)
      ∧ (metBy ((routeless s).agentBytes 5 0x10000 64)) = some (.noRoute 0)
      ∧ ((s.depsZero (packet [2])).1.met = none) ∧ ((routeless s).depsZero (packet [2, 0x10000])).1.met = some (.noRoute 0)
      ∧ ((s.signalWord p).met = none) ∧ pktWord copy 3 ≠ 0 := by
  dsimp only; decide +kernel

theorem test_meets_QueueControlAndReading_also :
    let q := queued 1
    let away := syncing q
    (((routeless q).agentAcquire 5 0x10000).agentBytes 5 0x10000 8).bind (·.1.met) = some (.noRoute 0)
      ∧ ((away.agentAcquire 5 0x10000).met = some (.away 0x10000)) ∧ (away.queue 5 3).state = 1 ∧ away.met = none
      ∧ (readPackets 5 3 1 2 ((routeless q).agentAcquire 5 0x10000)).met = some (.noRoute 0)
      ∧ (readPackets 5 3 0 2 q).met = none := by
  dsimp only; decide +kernel

theorem test_meets_HostAccess_also :
    let s := world crew0
    s.met = none ∧ (∀ q ∈ [0x10000 / 4096, (0x10000 + 8 - 1) / 4096], (s.page q).moving = false ∧ s.noRoute .io (.paged q (s.page q).held 0 0) true = none)
      ∧ [0x10, 0x10].findSome? (fun q => (routeless s).noRoute .io (.paged q (s.page q).held 0 0) true) = some 0
      ∧ [0x10, 0x10].find? (fun q => ((routeless s).page q).moving) = none ∧ ((withPage replicaMoving).page 0x10).moving = true := by
  dsimp only; decide +kernel

theorem test_meets_LinkRequests_also :
    let far := routeless serving
    metBy (far.agentBytes 5 0x10000 4) = some (.noRoute 0) ∧ (far.agentStore 4 5 0x10000 [1]).bind (·.met) = some (.noRoute 0)
      ∧ (syncing serving).agentXlate 5 0x10000 .write = .ok (.paged 0x10 {} 0 0x204100) ∧ far.met = none
      ∧ ((sget serving.csr 0x400).extractLsb' 32 13).toNat ≠ 1 := by
  dsimp only; decide +kernel

theorem test_meets_RepliesAndWhatFollowsIssue_also :
    let failing : Request := { asked false with failed := some 0x15 }
    let s : State := { world aloft with requests := [failing], time := 210005 }
    let lost : Flight := { flight with lanes := [], uni := [3] }
    let gone : Crew := { aloft with flights := [lost], slices := crew0.slices }
    failing ∈ s.requests ∧ failing.group = flight.group ∧ failing.failed = some 0x15 ∧ mbit aloft.live failing.lane = true
      ∧ (∀ x ∈ s.requests, x.group = flight.group → x.failed ≠ none → x ≠ failing → failing.lane < x.lane) ∧ failing.waits = false
      ∧ (∀ x ∈ s.requests, x.group = flight.group → x.waits = false) ∧ (∀ sl ∈ aloft.slices, sl.group ≠ some flight.group)
      ∧ (lost.uni ≠ [] ∧ (slices8.filter fun i => mbit lost.mask i && gone.sliceLive i && decide ((gone.slice i).wait = .reply lost.group)) = [])
      ∧ (asked true (some 3)).told = true ∧ ({ asked true (some 3) with told := false } : Request).told = false
      ∧ (aloft.slice 0).group = none ∧ ((waiting crew0 (.route 4 0x20000 5)).slice 0).wait = .route 4 0x20000 5
      ∧ (routeless s).hops (cacheDie (s.site aloft)) 4 = none ∧ ({ crew0 with cnt := { matrix := 1 } } : Crew).cnt.matrix ≠ 0 := by
  dsimp only; decide +kernel

theorem test_meets_RemapProtocol_also :
    let known : PageRec := { mirror := some 0x204100 }
    let at_ (r : PageRec) : State := { tabled crew0 with pages := [(0x10, r)] }
    let near (a : Asker) : RemapReq := { id := 3, goal := .near 0 0 7, asker := a }
    let mine : RemapReq := near (.place (some 1) (.core 0 0))
    let held (p : Nat) (r : PageRec) : State := { at_ r with parties := [(1, party1), (p, { party1 with holds := [0x10] })] }
    let evicts : PageRec := { known with queue := [near .eviction, mine] }
    let places : PageRec := { known with queue := [mine] }
    let other : State := held 4 places
    let barred : State := { at_ places with quarantine := [(0, sramAddr 0 0 0x7000)] }
    let waits : PageRec := { moving with waiters := [.slice 0 0, .agent (.hostRead 0x10000 8 3)] }
    let frees : RemapRun := { goal := .home, old := {}, frees := true }
    let moved : RemapRun := { run1 with old := farAt, wait := [], goal := .home, moved := some (2, 5) }
    (at_ places).nextReq 0x10 = some mine ∧ (at_ {}).nextReq 0x10 = none ∧ (at_ places).declined 0x10 mine = false
      ∧ other.nextReq 0x10 = some mine ∧ other.declined 0x10 mine = true ∧ other.retarget 0x10 mine = mine
      ∧ places.queue.erase mine = [] ∧ (held 4 evicts).deferred 0x10 (near .eviction) = true ∧ (held 4 evicts).nextReq 0x10 = some mine
      ∧ (∀ a ∈ goalFrames 0x10 mine.goal mine.far, (at_ places).barred a = false ∧ (at_ places).frameWaits mine.id a = false)
      ∧ (barred.retarget 0x10 mine).id = 3 ∧ (barred.retarget 0x10 mine).goal ≠ mine.goal ∧ (at_ places).recordRoom 0x10 = true
      ∧ (∀ a ∈ goalFrames 0x10 (.near 0 0 100) none, (at_ known).frameOpen a = true)
      ∧ waits.waiters.Nodup ∧ waits.waiters[1]? = some (.agent (.hostRead 0x10000 8 3)) ∧ waits.waiters[0]? = some (.slice 0 0)
      ∧ ((within (.moving 0x10)).slice 0).wait = .moving 0x10 ∧ ((within (.moving 0x10)).slice 0).held.isSome = true
      ∧ (frees.wait = [] ∧ frees.frees = true) ∧ (moved.wait = [] ∧ moved.frees = false ∧ moved.moved = some (2, 5))
      ∧ moved.old.res = .far ∧ ((at_ places).die (homeStack 0x10)).inService = true ∧ ((at_ places).die moved.old.mdie).inService = true
      ∧ Waiter.slice 0 0 ∈ ({ known with refused := [.slice 0 0] } : PageRec).refused ∧ known.moving = false ∧ moving.moving = true := by
  dsimp only; decide +kernel

/-- A directory slice with pages of its own alone, all with a sharer. -/
def crowded (n : Nat) : State := { State.reset with pages := (List.range n).map fun i => (16 * i, { sharers := [.core 0 0] }) }

theorem aget_absent {α : Type} (k : Nat) : ∀ l : List (Nat × α), (∀ x ∈ l, k ≠ x.1) → aget l k = none
  | [], _ => rfl
  | x :: l, h => by
    rw [aget, if_neg (h x (by simp)), aget_absent k l fun y hy => h y (by simp [hy])]

/-- With 65,536 of them, a page without a record finds no room, and the first is evicted for it. -/
theorem test_meets_RemapProtocol_without_room (n : Nat) (h : n + 1 = 65536) :
    (crowded (n + 1)).recordRoom (16 * (n + 1)) = false ∧ (crowded (n + 1)).recordVictim (16 * (n + 1)) = some 0 := by
  have hx : ∀ x ∈ (crowded (n + 1)).pages, ∃ i, i ≤ n ∧ x = (16 * i, { sharers := [.core 0 0] }) := by
    intro x hx
    obtain ⟨i, hi, rfl⟩ := List.mem_map.mp hx
    exact ⟨i, by have := List.mem_range.mp hi; omega, rfl⟩
  have hm : (crowded (n + 1)).sliceRecords (16 * (n + 1)) = (crowded (n + 1)).pages := by
    rw [State.sliceRecords, List.filter_eq_self]
    intro x hm
    obtain ⟨i, hi, rfl⟩ := hx x hm
    have hd : dirSlice (16 * i) = dirSlice (16 * (n + 1)) := by simp only [dirSlice]; omega
    have hh : homeStack (16 * i) = homeStack (16 * (n + 1)) := by simp only [homeStack, Config.stackBytes]; omega
    simp [hd, hh, PageRec.kept]
  have hp : (crowded (n + 1)).page (16 * (n + 1)) = {} := by
    rw [State.page, aget_absent]
    · rfl
    · intro x hm
      obtain ⟨i, hi, rfl⟩ := hx x hm
      show 16 * (n + 1) ≠ 16 * i
      omega
  have hl : (crowded (n + 1)).pages.length = n + 1 := by simp [crowded]
  have h0 : ∃ l, (crowded (n + 1)).pages = (0, { sharers := [.core 0 0] }) :: l :=
    ⟨((List.range n).map Nat.succ).map fun i => (16 * i, { sharers := [.core 0 0] }), by
      simp only [crowded, List.range_succ_eq_map, List.map_cons, Nat.mul_zero]⟩
  obtain ⟨l, h0⟩ := h0
  constructor
  · rw [State.recordRoom, hm, hp, hl, h]; decide
  · rw [State.recordVictim, hm, if_neg]
    · rw [h0, List.find?_cons_of_pos]
      · rfl
      · decide
    · rw [List.any_eq_true]
      rintro ⟨x, hm, hr⟩
      obtain ⟨i, -, rfl⟩ := hx x hm
      simp at hr

theorem test_meets_EngineProgress_also :
    let far : EngineOp := { copyOp with desc := [0x20000#64] ++ copyOp.desc.tail }
    let fabric (o : EngineOp) : State := (inFlight o).memWrite 0x204200 (leBytes 0x70000090503 16)
    let late : EngineOp := { far with stall := some (4, 0) }
    let beyond : State := { routeless (fabric late) with time := 210000 }
    let put : EngineOp := { copyOp with kind := .putsig, cls := .coll, writes := [{ slice := 0, addr := 0x10000, data := [1, 2, 3, 4] }] }
    let lost : EngineOp := { put with lost := [(0, 0x14)] }
    let m : State := { inFlight copyOp with pages := [(0x10, replicaMoving)] }
    let c (o : EngineOp) : State := { routeless (collecting []) with ops := [o] }
    let moving : State := { collecting [] with pages := [(0x10, replicaMoving)] }
    let fail (x : Except EngFail (State × List Byte)) : Option EngFail := match x with | .error w => some w | .ok _ => none
    ((routeless (fabric far)).opNext far = .tile ∧ ((routeless (fabric far)).moveTile far).2.2 = some (.noRoute 4))
      ∧ (m.opNext copyOp = .tile ∧ (m.moveTile copyOp).2.2 = some (.moving 0x10))
      ∧ (beyond.opNext late = .fault ∧ (beyond.moveTile late).2.2 = some (.noRoute 4) ∧ beyond.stallOver late 4 = true)
      ∧ (fabric late).stallOver late 4 = false ∧ (fabric late).stallOver late 3 = false
      ∧ (lost.writes[0]?.map (·.slice)) = some 0 ∧ (∃ y ∈ lost.lost, y.1 = 0) ∧ (∀ y ∈ put.lost, y.1 ≠ 0)
      ∧ (fail ((collecting []).collTake collOp)).isNone = true ∧ fail ((c collOp).collTake collOp) = some (.noRoute 4)
      ∧ fail (moving.collTake collOp) = some (.moving 0x10) ∧ (c collOp).collTurn 0 = some collOp ∧ (c collOp).collDue collOp = true
      ∧ (∀ y ∈ (c collOp).ops, y.id = collOp.id → y = collOp) ∧ ∀ t, collOp.stall ≠ some (4, t) := by
  dsimp only
  refine ⟨by decide +kernel, by decide +kernel, by decide +kernel, by decide +kernel, by decide +kernel, by decide +kernel, by decide +kernel,
    by decide +kernel, by decide +kernel, by decide +kernel, by decide +kernel, by decide +kernel, by decide +kernel, by decide +kernel, ?_⟩
  simp [collOp]

theorem test_meets_EngineProgress_collective_waits :
    let stalled : EngineOp := { collOp with stall := some (4, 0) }
    let c : State := { routeless (collecting []) with ops := [stalled], time := 210000 }
    let unread : EngineOp := { collOp with desc := [0x0000000100000000, 0x50000, 0x10100, 0, 0, 0] }
    let u : State := { collecting [] with ops := [unread] }
    c.collDue stalled = true ∧ c.collTurn 0 = some stalled ∧ c.stallOver stalled 4 = true ∧ (c.hops 0 4) = none
      ∧ u.collTurn 0 = some unread ∧ u.collDue unread = true
      ∧ (match u.collTake unread with | .error (.page _ false) => true | _ => false) = true
      ∧ (∀ r ∈ List.range (max ((collecting [part 0, part 1]).members 0) (natBits (collOp.word64 3) 47 32 + 1)),
          ((collecting [part 0, part 1]).partsOf 0 0).find? (fun p => p.rank = r) = some (part r))
      ∧ (collecting []).otherMembers 0 = [2] := by
  dsimp only; decide +kernel

theorem test_meets_PartyLife_also :
    let ended (l : Launch) : State := { world { crew0 with live := 0, exec := 0 } with launches := [(2, l)] }
    let leaves (s : State) : Option Met :=
      let u := (((State.drain { s with met := none } 1).retireWords 1).freeParty 1 .retired).modLaunch 2 fun la => { la with retired := la.retired + 1 }
      ((u.partyRetired 1).finishLaunch 2).met
    let writes : Launch := { launch2 with compl := 0x10000 }
    let joins : Launch := { launch2 with join := 0x10000 }
    leaves (ended launch2) = none ∧ leaves (routeless (paged (ended writes))) = some (.noRoute 0)
      ∧ leaves (paged { ended writes with pages := [(0x10, moving)] }) = some (.moving 0x10)
      ∧ leaves (routeless (paged (ended joins))) = some (.noRoute 0) ∧ (ended launch2).retirable 1 = true
      ∧ ((within .parked).slice 0).wait = .parked ∧ ((within .parked).slice 0).held.isSome = true
      ∧ ((within (.place [3])).slice 0).wait = .place [3]
      ∧ ((goingOn (.moving 0x10)).coreMoving 0) = false ∧ (withPage replicaMoving).coreMoving 0 = true := by
  dsimp only; decide +kernel

/-! ### One step each, with results calculated by hand from the rules named -/

/-- Register 3 of lane 0 after an instruction whose sources v2 and v1 hold two values. -/
def d3 (i : Instr) (a b : Word) : Word := (runs i (vec crew0 [(2, a), (1, b)])).vreg 3 0

/-- The destination v3, with the sources v2 and v1. -/
def f321 : FmtA := { d := 3, a := 2, b := 1 }

/-- The same with a prefix. -/
def g321 (p : Prefix) : FmtA := { d := 3, a := 2, b := 1, px := some p }

/-- 23 R367: sums wrap, and clamp under SAT; the high half of a signed product; the smallest of two signed values. -/
theorem test_integers :
    d3 (.iadd f321) 0x7FFFFFFF 1 = 0x80000000 ∧ d3 (.iadd (g321 { sat := true })) 0x7FFFFFFF 1 = 0x7FFFFFFF
      ∧ d3 (.isub f321) 3 5 = 0xFFFFFFFE ∧ d3 (.imul f321) 0x10001 0x10000 = 0x10000 ∧ d3 (.imulh f321) 0xFFFFFFFF 2 = 0xFFFFFFFF
      ∧ d3 (.imin f321) 0xFFFFFFFF 1 = 0xFFFFFFFF ∧ d3 (.imax f321) 0xFFFFFFFF 1 = 1 ∧ d3 (.iabs { d := 3, a := 2 }) 0x80000000 0 = 0x80000000
      ∧ d3 (.imad f321) 3 5 = 15 := by
  decide +kernel

/-- A register that is source and destination is read before it is written (21 R326); the PC moves by 4. -/
theorem test_source_is_destination :
    (runs (.iadd { d := 2, a := 2, b := 2 }) (vec crew0 [(2, 7)])).vreg 2 0 = 14 ∧ ((runs (.iadd f321) crew0).slice 0).pc = 0x1004
      ∧ (runs (.iadd { cl := 3, d := 7, a := 3, b := 4 }) crew0).sreg 7 = 0x50000 := by
  decide +kernel

/-- 21 R332, R344: shifts by the width or more, bit reversal and fields. -/
theorem test_bits :
    d3 (.band f321) 12 10 = 8 ∧ d3 (.bor f321) 12 10 = 14 ∧ d3 (.bxor f321) 12 10 = 6 ∧ d3 (.bandn f321) 12 10 = 4
      ∧ d3 (.shl f321) 1 32 = 0 ∧ d3 (.shl f321) 1 31 = 0x80000000 ∧ d3 (.shr f321) 0x80000000 31 = 1 ∧ d3 (.sar f321) 0x80000000 200 = 0xFFFFFFFF
      ∧ d3 (.brev { d := 3, a := 2 }) 1 0 = 0x80000000 ∧ d3 (.bfx f321) 0xABCD 0x0404 = 0xC ∧ d3 (.bfx (g321 { dt := 10 })) 0xABCD 0x0404 = 0xFFFFFFFC ∧ d3 (.bfi f321) 0xF 0x0408 = 0xF00
      ∧ d3 (.popc { d := 3, a := 2 }) 0xF0F0 0 = 8 ∧ d3 (.clz { d := 3, a := 2 }) 1 0 = 31 := by
  decide +kernel

/-- 25 R411, 24 R386, 25 R412 and 22 R337: moves, selection, immediates and addresses. -/
theorem test_moves :
    d3 (.mov { d := 3, b := 1 }) 0 9 = 9 ∧ d3 (.movk { d := 3, k := 1, a := 127, b := 127 }) 0 0 = 0xFFFFFFFF
      ∧ (runs (.sel f321) { vec crew0 [(2, 5), (1, 6)] with preds := [(0, 1#32)] }).vreg 3 0 = 5 ∧ d3 (.sel f321) 5 6 = 6
      ∧ (runs (.lea { cl := 3, d := 7, a := 3, b := 4 }) crew0).sreg 7 = 0x50000 := by
  decide +kernel

/-- 22 R343, R357: a comparison writes the active lanes' bits; a NaN is unordered and raises IV in LT. -/
theorem test_comparisons :
    (runs (.icmp 2 f321) (vec crew0 [(2, 0xFFFFFFFF#32)])).pred 3 = 1 ∧ (runs (.icmp 0 f321) crew0).pred 3 = 0xF
      ∧ (runs (.fcmp 6 f321) (vec crew0 [(2, 0x7FC00000#32)])).pred 3 = 1 ∧ (runs (.fcmp 2 f321) (vec crew0 [(2, 0x7FC00000#32)])).flags = 16 := by
  decide +kernel

/-- 05 R98 to R113: 1 + 1, 1.5 x 2, 1 / 0 and the rounding of 2.5 to an integer, to nearest even; 1.0 to SI32; an inexact sum. -/
theorem test_floats :
    d3 (.fadd f321) 0x3F800000 0x3F800000 = 0x40000000 ∧ d3 (.fmul f321) 0x3FC00000 0x40000000 = 0x40400000
      ∧ d3 (.ffma f321) 0x3F800000 0x3F800000 = 0x3F800000 ∧ d3 (.fmin f321) 0x80000000 0 = 0x80000000 ∧ d3 (.fmax f321) 0x80000000 0 = 0
      ∧ d3 (.frcp { d := 3, a := 2 }) 0 0 = 0x7F800000 ∧ d3 (.frnd { d := 3, a := 2 }) 0x40200000 0 = 0x40000000
      ∧ d3 (.cvt { d := 3, a := 2, px := some { dt := 10 } }) 0x3F800000 0 = 1
      ∧ (runs (.fadd f321) (vec crew0 [(2, 0x3F800000#32), (1, 0x30000000#32)])).flags = 1 := by
  decide +kernel

/-- 22 R358 to R362, 24 R383: exact results of the special functions. -/
theorem test_special_functions :
    d3 (.fsqrt { d := 3, a := 2 }) 0x40800000 0 = 0x40000000 ∧ d3 (.frsq { d := 3, a := 2 }) 0x40800000 0 = 0x3F000000
      ∧ d3 (.fexp2 { d := 3, a := 2 }) 0x40400000 0 = 0x41000000 ∧ d3 (.flog2 { d := 3, a := 2 }) 0x41000000 0 = 0x40400000
      ∧ d3 (.fsinpi { d := 3, a := 2 }) 0x3F000000 0 = 0x3F800000 ∧ d3 (.fcospi { d := 3, a := 2 }) 0 0 = 0x3F800000
      ∧ d3 (.fsqrt { d := 3, a := 2 }) 0xBF800000 0 = 0x7FC00000 := by
  decide +kernel

/-- The worked example of 05 R117: the codes, the scale, and the first and third elements that come back. -/
theorem test_quantisation :
    let c := vec crew0 [(0, 0x3E99999A#32), (1, 0xBF99999A#32), (2, 0x40000000#32), (3, 0x3D4CCCCD#32), (4, 0xBF19999A#32), (5, 0x3FF33333#32), (7, 0x3F666666#32)]
    let q := runs (.qpack { d := 8, a := 0 }) c
    q.vreg 8 0 = 0x507C07E2 ∧ q.vreg 9 0 = 0x4B ∧ (runs (.qunpk { d := 0, a := 8 }) q).vreg 0 0 = 0x3EAC0000
      ∧ (runs (.qunpk { d := 0, a := 8 }) q).vreg 2 0 = 0x40010000 := by
  dsimp only; decide +kernel

/-- 25 R416, 26 R436, 24 R380, 25 R404, R405: cross-slice operations over four active lanes. -/
theorem test_cross_slice :
    let c := { crew0 with vregs := [(64, 10#32), (65, 20#32), (66, 30#32), (67, 10#32)] }
    (runs (.shfl { d := 3, a := 2, b := 1 }) { c with vregs := [(32, 3#32)] ++ c.vregs }).vreg 3 0 = 10
      ∧ (runs (.matchEq { d := 3, a := 2 }) c).vreg 3 0 = 9 ∧ (runs (.redux { d := 3, a := 2 }) c).vreg 3 3 = 70
      ∧ (runs (.scan { d := 3, a := 2 }) c).vreg 3 2 = 60 ∧ (runs (.scan { d := 3, a := 2, b := 8 }) c).vreg 3 2 = 30
      ∧ (runs (.vote { cl := 2, d := 3, a := 1 }) { c with preds := [(1, 5#32)] }).sreg 3 = 5
      ∧ (runs (.vote { cl := 0, d := 3, a := 1 }) { c with preds := [(1, 5#32)] }).pred 3 = 0 := by
  dsimp only; decide +kernel

/-- 24 R390 to R393; 04 R79 to R84; 26 R439 to R443. -/
theorem test_predicates_and_index_registers :
    (runs (.pandn { d := 3, a := 1, b := 2 }) { crew0 with preds := [(1, 0xFF#32), (2, 3#32)] }).pred 3 = 0xC
      ∧ (runs (.pmov { d := 16, a := 1 }) { crew0 with preds := [(1, 0xFF5#32)] }).exec = 5
      ∧ (runs (.pcnt { cl := 3, d := 3, a := 1 }) { crew0 with preds := [(1, 0xFF5#32)] }).sreg 3 = 10
      ∧ (runs (.win { cl := 3, b := 6 }) (with6 8)).win = 8 ∧ ((runs (.win { cl := 3, b := 6 }) (with6 4 stacked)).slice 0).cause = 4 ∧ ((runs (.win { cl := 3, b := 6 }) (with6 4 stacked)).slice 0).info = 0x800
      ∧ (runs (.xset { cl := 3, d := 0, b := 6 }) (with6 0x2000E)).xreg 0 = 0x2000E
      ∧ (runs (.xld { d := 0, a := 2 }) (vec crew0 [(2, 0x201#32)])).ofs 0 0 = 1
      ∧ (runs (.mov { d := 120, b := 1 }) { vec crew0 [(1, 7#32)] with xuni := [(0, 0x2000E#64)], xofs := [(0, 1#9)] }).vreg 15 0 = 7 := by
  decide +kernel

/-- 21 R339, R340, 25 R402, 26 R437, 23 R371, 03 R62 to R67: branches, calls and the rendezvous. -/
theorem test_control :
    ((runs (.br 0 { off := 0x7FFFF }) crew0).slice 0).pc = 0xFFC ∧ ((runs (.br 1 { p := 1, off := 4 }) crew0).slice 0).pc = 0x1004
      ∧ ((runs (.call { off := 4 }) crew0).slice 0).link = 0x1004 ∧ ((runs (.call { off := 4 }) crew0).slice 0).pc = 0x1010
      ∧ ((runs (.ret { a := 2 }) crew0).slice 0).pc = 0x10000 ∧ (runs (.lpool { off := 64 }) crew0).lpb = 0x1100
      ∧ (runs (.split { p := 0, off := 4 }) crew0).rdv.length = 1 ∧ ((runs (.split { p := 0, off := 4 }) { deep 16 with hstk := 0xFFFFFF0000000040#64 }).slice 0).cause = 0x0A
      ∧ (runs (.regang {}) { crew0 with rdv := [{ id := 4, smask := 1 }] }).rdv = [] ∧ ((runs (.regang {}) crew0).slice 0).pc = 0x1004
      ∧ ((runs (.leave 0 { off := 4 }) { crew0 with rdv := [{ id := 4, smask := 3 }] }).slice 0).pc = 0x1010
      ∧ (after (exec (.exit {}) (world (split2 .none 0x2000)))).crews.map (fun x => (x.2.live, x.2.exec)) = [(0xF0#32, 0xF0#32)] := by
  decide +kernel

/-- 12 R270 and 03 R68 to R71: a trap with a handler writes the call record, lowers HSTK by 64 and enters TRAPVEC; ERET comes back. -/
theorem test_trap_and_return :
    let t := after (exec (.trap 0x12345) (world stacked))
    let c := t.crew 0
    (c.slice 0).pc = 0x2000 ∧ (c.slice 0).cause = 0x10 ∧ (c.slice 0).info = 0x12345 ∧ c.hstk = 0xFFFFFF0000000000
      ∧ leNat (t.memRead (scratchAddr 1 8) 8) = 0x1004
      ∧ ((after (exec (.eret {}) { t with issue := some gang })).crew 0).hstk = 0xFFFFFF0000000040
      ∧ (((after (exec (.eret {}) { t with issue := some gang })).crew 0).slice 0).pc = 0x1004
      ∧ ((after (exec (.trap 0) (world crew0))).tenant 5).halted = true ∧ ((runs (.syscall 0) stacked).slice 0).cause = 2 := by
  dsimp only; decide +kernel

/-- 04 R92, R95: LANE, SLICE and LINK as special registers; FLAGS keeps TEN. -/
theorem test_special_registers :
    (runs (.sread { d := 3, b := 0 }) crew0).vreg 3 2 = 2 ∧ (runs (.sread { cl := 3, d := 3, b := 6 }) thread0).sreg 3 = 0x20
      ∧ ((runs (.swrite { cl := 3, d := 0x0A, b := 6 }) (with6 0x2003)).slice 0).link = 0x2000
      ∧ (runs (.swrite { cl := 3, d := 9, b := 6 }) (with6 0xFFFF)).flags = 0x1F := by
  decide +kernel

/-- 07 R149 and 14 R294, R295: STS and LDS little-endian at scratchpad address 4, sign extension, and a violation's lanes switched off. -/
theorem test_scratchpad :
    let t := after (exec (.sts { am := 1, sz := 2, d := 3, a := 2 }) (world { vec crew0 [(2, 4#32), (3, 0x80FF0102#32)] with exec := 1 }))
    t.memRead (scratchAddr 1 4) 4 = [0x02, 0x01, 0xFF, 0x80] ∧ t.memRead (scratchAddr 1 3) 1 = [0] ∧ t.memRead (scratchAddr 1 8) 1 = [0]
      ∧ ((after (exec (.lds { am := 1, sz := 5, d := 4, a := 2 }) { t.modCrew 0 (fun c => vec c [(2, 6#32)]) with issue := some gang })).crew 0).vreg 4 0 = 0xFFFFFFFF
      ∧ (runs (.lds { am := 1, sz := 2, d := 4, a := 2 }) (vec crew0 [(2, 0x1000#32)])).off = 1
      ∧ ((runs (.lds { am := 1, sz := 2, d := 4, a := 2 }) (vec stacked [(2, 2#32)])).slice 0).cause = 5 := by
  dsimp only; decide +kernel

/-- 23 R372, 25 R425, 22 R345: uniform loads and stores at 0x10000. -/
theorem test_uniform_memory :
    let t := after (exec (.stu { am := 2, sz := 3, d := 6, a := 2 }) (world (with6 0x8877665544332211)))
    t.memRead 0x10000 8 = [0x11, 0x22, 0x33, 0x44, 0x55, 0x66, 0x77, 0x88]
      ∧ ((after (exec (.ldu { am := 2, sz := 6, d := 7, a := 2, b := 3 }) { t with issue := some gang })).crew 0).sreg 7 = 0xFFFFFFFFFFFF8877
      ∧ (runs (.ldl { d := 7, w := 0, off := 0 }) crew0).sreg 7 = 0 := by
  dsimp only; decide +kernel

/-- 10 R213 to R220: the old value is returned, the location holds the new one. -/
theorem test_atomics :
    let s := (world (vec (pointing 0x10010) [(14, 5#32)])).memWrite 0x10010 [7]
    let one : Crew := { s.crew 0 with exec := 1 }
    let t := after (exec (.atom { cl := 0, d := 14, a := 12 }) (s.setCrew 0 one))
    leNat (t.memRead 0x10010 4) = 12 ∧ (t.crew 0).vreg 14 0 = 7 ∧ sget (t.crew 0).atloc 0 = 5
      ∧ leNat ((after (exec (.red { cl := 0, d := 14, a := 12 }) (s.setCrew 0 one))).memRead 0x10010 4) = 12
      ∧ leNat ((after (exec (.rwl { cl := 0, d := 14, a := 12 }) (s.setCrew 0 one))).memRead 0x10010 4) = 8 := by
  dsimp only; decide +kernel

/-- 10 R225 to R234: the last arrival opens the barrier; a post adds; a wait for more than there is stays. -/
theorem test_barriers_and_signals :
    ((after (exec (.bar { b := 2 }) (world crew0))).party 1).bars.getD 2 {} = { members := 1, phase := 1 }
      ∧ ((runs (.bar { b := 2 }) crew0).slice 0).pc = 0x1004
      ∧ (runs (.barArrive { d := 3, b := 35 }) crew0).sreg 3 = 3
      ∧ sget ((after (exec (.sigpost { d := 2, k := 1, b := 5 }) (world crew0))).party 1).sigs 2 = 5
      ∧ ((runs (.sigwait { d := 2, k := 1, b := 5 }) crew0).slice 0).wait = .signal 2 5
      ∧ (runs (.sigpostAddr { cl := 2, d := 3, b := 1 }) crew0).sreg 3 = 0xFFFF040900000000
      ∧ ((runs (.gbar { b := 0 }) stacked).slice 0).cause = 1 ∧ ((runs (.waitcnt { d := 0 }) crew0).slice 0).pc = 0x1004 := by
  decide +kernel

/-- 11 R239 to R241: a COPY starts one operation; its tile moves the bytes to the scratchpad. -/
theorem test_copy :
    let s := (paged (world copying)).memWrite 0x1003C [9]
    let t := after (exec (.copy { cl := 3, a := 16 }) s)
    (t.crew 0).cnt.copy = 1 ∧ t.ops.length = 1 ∧ (after (exec (.tilePost 10) t)).memRead (scratchAddr 1 0x3C) 1 = [9]
      ∧ ((runs (.copy { cl := 3, a := 16 }) { stacked with cnt := { copy := 63 } }).slice 0).wait = .count 0 62 := by
  dsimp only; decide +kernel

/-- 06 R139 to R146: accumulators zero, write, read and give ASTAT. -/
theorem test_accumulators :
    let c : Crew := { crew0 with g := 64, vregs := [(64, 0x3F800000#32)], exec := 1 }
    let w := runs (.accwr { d := 1, a := 2, b := 0 }) c
    sget w.acc (accKey 1 0 0) = 0x3F800000 ∧ (runs (.accrd { d := 32, a := 1, b := 0 }) w).vreg 32 0 = 0x3F800000
      ∧ sget (runs (.accz { d := 1 }) w).acc (accKey 1 0 0) = 0 ∧ (runs (.accst { d := 3, a := 1, b := 1 }) { w with astat := [(1, 5#32)] }).sreg 3 = 5
      ∧ ((runs (.accz { d := 2 }) { stacked with g := 64 }).slice 0).cause = 0x0D := by
  dsimp only; decide +kernel

/-- 02 R40 to R44; 26 R428 to R433: a walk of 2 by 3 tiles; the first tile; the items of a tile. -/
theorem test_work :
    (runs (.twalk { cl := 3, d := 3, a := 6, b := 1 }) (with6 (2 + 3 * 2 ^ 21))).sreg 3 = 6 ∧ (runs (.tnext { cl := 3, d := 3 }) crew0).sreg 3 = BitVec.allOnes 64
      ∧ (runs (.refill { d := 2, a := 1, b := 3 }) { crew0 with preds := [(1, 0xA#32)], tile := { hold := true, walk := 0, tile := 2, ic := 3 } }).vreg 2 3 = 68 := by
  decide +kernel

/-- 12 R263 to R272, R281: packets, a heartbeat, a snapshot and the host's bytes. -/
theorem test_events :
    let s := paged (world crew0)
    (after (exec (.launch launchPkt) s)).launches.length = 2 ∧ (after (exec (.nopPacket (packet [0])) s)).jobs = []
      ∧ (after (exec (.signalPacket (packet [3, 0x10000, 7])) s)).memRead 0x10000 2 = [7, 0]
      ∧ (after (exec (.hbreg 1) s)).hbSeen = true ∧ sget (after (exec .snapin s)).csr 0x31 = 1
      ∧ (after (exec (.hostWrite 0x500 [1, 2]) s)).memRead 0x500 2 = [1, 2]
      ∧ (after (exec (.serviceRegisterWrite 0x11 5) s)).csrRead 0x11 = ((after (exec (.serviceRegisterWrite 0x11 5) s)), 1000)
      ∧ sget (after (exec (.connWrite 0 0x80000100) s)).csr 0x100 = 0xC0000100 := by
  dsimp only; decide +kernel

/-- 12 R277: SHA-384 of "abc", a vector of FIPS 180-4, and of 112 letters a (two blocks; from another implementation). -/
theorem test_sha384 :
    sha384 [0x61, 0x62, 0x63] =
        0xcb00753f45a35e8bb5a03d699ac65007272c32ab0eded1631a8b605a43ff5bed8086072ba1e7cc2358baeca134c825a7#384
      ∧ sha384 (List.replicate 112 0x61) =
        0x187d4e07cb306103c69967bf544d0dfbe9042577599c73c330abc0cb64c61236d5ed565ee19119d8c31779a38f791fcd#384 := by
  decide +kernel

/-- The table's word 0x00200000 (EXIT) runs as the first instruction after reset. -/
theorem test_first_instruction : isNext (step (State.reset.withFetchWord 32 0x00200000)) = true ∧ decodeTableWord 32 0x00200000 = some (.exit {}) := by
  decide +kernel

end Sys2Proof.Tests
end

section
/-! SUPPORT. The family Scope: memory after a write, a zeroing and a copy (01 R3; 07 R148). -/

namespace Sys2Proof.Machine

/-- Little-endian bytes, read as a number, give it modulo 2^(8n) (R3). -/
theorem leNat_leBytes (x n : Nat) : leNat (leBytes x n) = x % 2 ^ (8 * n) := by
  induction n generalizing x with
  | zero => simp [leBytes, leNat, Nat.mod_one]
  | succ n ih =>
    have hsplit := Nat.mod_mul (a := 256) (b := 2 ^ (8 * n)) (x := x)
    rw [leBytes, leNat, ih, BitVec.toNat_ofNat, show 2 ^ (8 * (n + 1)) = 256 * 2 ^ (8 * n) by ring, hsplit]

/-- A copy gives the destination the bytes that the source held. -/
theorem State.memRead_memCopy (s : State) (a b n : Nat) : (s.memCopy a b n).memRead a n = s.memRead b n := by
  have h := s.memRead_memWrite a (s.memRead b n)
  rwa [s.memRead_length] at h

/-- Settles O7: a read after each operation is the law of a sparse store, and each keeps the canonical form. -/
theorem memoryOperations : Obligations.MemoryOperations :=
  ⟨State.sget_memWrite, State.sget_memZero, fun s a b n _ => s.memRead_memCopy a b n, State.memRead_memWrite, leNat_leBytes,
    fun s a b n bs h => ⟨(s.memWrite_only a bs).wf h, (s.memZero_only a n).wf h, (s.memCopy_only a b n).wf h⟩,
    fun m m' => swfFrom_ext m m' 0⟩

end Sys2Proof.Machine
end

section
/-! SUPPORT. The family Scope: every operation of the machine, every instruction and every step keeps memory in its canonical form.
Each operation writes memory through `memWrite`, `memZero` and `memCopy` alone, but the reset, which filters it; so each has one
lemma, named after it, whose proof follows its branches: `h.f.g` says that `g` after `f` keeps the form where `h` says it of the
state before. An operation that may answer no state has its answer as a hypothesis `e`. -/

namespace Sys2Proof.Machine

/-- The memory of a state is in its canonical form. -/
def State.Canon (s : State) : Prop := Memory.wf s.mem = true

/-- Where a meaning answers a next state, memory is in its canonical form there. -/
def NextCanon (o : Host.Outcome State Fault Refusal) : Prop := ∀ t, o = .next t → t.Canon

section

variable {s t : State}

theorem State.Canon.of_mem (h : s.Canon) (e : t.mem = s.mem) : t.Canon := by
  unfold State.Canon at *
  rwa [e]

theorem State.Canon.of_fst {β : Type} {p : State × β} {b : β} (h : p.1.Canon) (e : p = (t, b)) : t.Canon := by
  rwa [e] at h

theorem State.Canon.of_map {α : Type} {f : α → State} {o : Option α} (e : o.map f = some t) (hf : ∀ x, o = some x → (f x).Canon) :
    t.Canon := by
  obtain ⟨x, hx, rfl⟩ := Option.map_eq_some_iff.mp e
  exact hf x hx

theorem State.Canon.of_map_fst {α β : Type} {f : α → State × β} {o : Option α} {p : State × β} (e : o.map f = some p)
    (hf : ∀ x, o = some x → (f x).1.Canon) : p.1.Canon := by
  obtain ⟨x, hx, rfl⟩ := Option.map_eq_some_iff.mp e
  exact hf x hx

theorem State.Canon.of_findSome_fst {α β : Type} {f : α → Option (State × β)} {l : List α} {p : State × β}
    (e : l.findSome? f = some p) (hf : ∀ x q, f x = some q → q.1.Canon) : p.1.Canon := by
  obtain ⟨x, -, hx⟩ := List.exists_of_findSome?_eq_some e
  exact hf x p hx

theorem State.MemoryOnly.canon (m : s.MemoryOnly t) (h : s.Canon) : t.Canon := m.wf h

theorem State.RecordOnly.canon (m : s.RecordOnly t) (h : s.Canon) : t.Canon := m.wf h

theorem State.Canon.ite {c : Prop} [Decidable c] (h : s.Canon) (h' : t.Canon) : (if c then s else t).Canon := by
  split
  · exact h
  · exact h'

theorem State.Canon.foldl {α : Type} {f : State → α → State} {l : List α} (h : s.Canon) (hf : ∀ s x, s.Canon → (f s x).Canon) :
    (l.foldl f s).Canon := by
  induction l generalizing s with
  | nil => exact h
  | cons x l ih => exact ih (hf s x h)

/-- The fold carries more than a state. -/
theorem State.Canon.foldl_fst {α β : Type} {f : State × β → α → State × β} {l : List α} {p : State × β} (h : p.1.Canon)
    (hf : ∀ p x, p.1.Canon → (f p x).1.Canon) : (l.foldl f p).1.Canon := by
  induction l generalizing p with
  | nil => exact h
  | cons x l ih => exact ih (hf p x h)

theorem State.Canon.ite_fst {β : Type} {c : Prop} [Decidable c] {p q : State × β} (h : p.1.Canon) (h' : q.1.Canon) :
    (if c then p else q).1.Canon := by
  split
  · exact h
  · exact h'

theorem State.Canon.getD {o : Option State} (h : s.Canon) (ho : ∀ u, o = some u → u.Canon) : (o.getD s).Canon := by
  cases o with
  | none => exact h
  | some u => exact ho u rfl

theorem NextCanon.next (h : s.Canon) : NextCanon (.next s) := by
  rintro t ⟨⟩
  exact h

theorem NextCanon.fault {r : Fault} : NextCanon (.fault r) := by
  rintro t ⟨⟩

theorem NextCanon.refused {r : Refusal} : NextCanon (.refused r) := by
  rintro t ⟨⟩

theorem NextCanon.ite {c : Prop} [Decidable c] {o o' : Host.Outcome State Fault Refusal} (h : NextCanon o) (h' : NextCanon o') :
    NextCanon (if c then o else o') := by
  split
  · exact h
  · exact h'

/-! ### Machine/Memory.lean -/

theorem State.Canon.memWrite {a bs} (h : s.Canon) : (s.memWrite a bs).Canon := (State.memWrite_only ..).canon h

theorem State.Canon.memZero {a n} (h : s.Canon) : (s.memZero a n).Canon := (State.memZero_only ..).canon h

theorem State.Canon.memCopy {dst src n} (h : s.Canon) : (s.memCopy dst src n).Canon := (State.memCopy_only ..).canon h

theorem State.Canon.modPage {pfn f} (h : s.Canon) : (s.modPage pfn f).Canon := (State.modPage_only ..).canon h

theorem State.Canon.freeVal (h : s.Canon) : s.freeVal.1.Canon := (State.freeVal_only ..).canon h

theorem State.Canon.send {m} (h : s.Canon) : (s.send m).Canon := (State.send_only ..).canon h

theorem State.Canon.useBank {a} (h : s.Canon) : (s.useBank a).Canon := (State.useBank_only ..).canon h

theorem State.Canon.masterWrite {die pfn off bs} (h : s.Canon) : (s.masterWrite die pfn off bs).Canon :=
  (State.masterWrite_only ..).canon h

theorem State.Canon.physWrite {die pa bs} (h : s.Canon) : (s.physWrite die pa bs).Canon := (State.physWrite_only ..).canon h

theorem State.Canon.usePhys {pa} (h : s.Canon) : (s.usePhys pa).Canon := (State.usePhys_only ..).canon h

theorem State.Canon.mergeReplica {pfn die core test} (h : s.Canon) : (s.mergeReplica pfn die core test).Canon :=
  (State.mergeReplica_only ..).canon h

theorem State.Canon.dropReplicas {die core hit} (h : s.Canon) : (s.dropReplicas die core hit).Canon :=
  (State.dropReplicas_only ..).canon h

theorem State.Canon.mergeDirty {die core hit} (h : s.Canon) : (s.mergeDirty die core hit).Canon :=
  (State.mergeDirty_only ..).canon h

theorem State.Canon.useWalk {t va} (h : s.Canon) : (s.useWalk t va).Canon := (State.useWalk_only ..).canon h

theorem State.Canon.useFind {site t va} (h : s.Canon) : (s.useFind site t va).Canon := (State.useFind_only ..).canon h

theorem State.Canon.askAts {l} (h : s.Canon) : (s.askAts l).Canon := (State.askAts_only ..).canon h

theorem State.Canon.dropAll {pfn} (h : s.Canon) : (s.dropAll pfn).Canon := (State.dropAll_only ..).canon h

theorem State.Canon.evictRecord {pfn} (h : s.Canon) : (s.evictRecord pfn).Canon := (State.evictRecord_only ..).canon h

theorem State.Canon.touch {site t va write} (h : s.Canon) : (s.touch site t va write).Canon := (State.touch_only ..).canon h

theorem State.Canon.readTgt {site t n m} (h : s.Canon) : (s.readTgt site t n m).1.Canon := (State.readTgt_only ..).canon h

theorem State.Canon.writeTgt {site t bs m} (h : s.Canon) : (s.writeTgt site t bs m).Canon := (State.writeTgt_only ..).canon h

theorem State.Canon.mergeSector {site pfn off} (h : s.Canon) : (s.mergeSector site pfn off).Canon :=
  (State.mergeSector_only ..).canon h

theorem State.Canon.refillSector {site pfn off} (h : s.Canon) : (s.refillSector site pfn off).Canon :=
  (State.refillSector_only ..).canon h

theorem State.Canon.agentTouch {t va write} (h : s.Canon) : (s.agentTouch t va write).Canon := (State.agentTouch_only ..).canon h

theorem State.Canon.meetRoute {d t} (h : s.Canon) : (s.meetRoute d t).Canon := (State.meetRoute_only ..).canon h

theorem State.Canon.touchFor {c va write} (h : s.Canon) : (s.touchFor c va write).Canon := (State.touchFor_only ..).canon h

theorem State.Canon.interrupt {t n} (h : s.Canon) : (s.interrupt t n).Canon := (State.interrupt_only ..).canon h

theorem State.Canon.errorRecord {t code detail queue tag addr} (h : s.Canon) :
    (s.errorRecord t code detail queue tag addr).Canon :=
  (State.errorRecord_only ..).canon h

theorem State.Canon.agentFail {t va} (h : s.Canon) : (s.agentFail t va).Canon := (State.agentFail_only ..).canon h

theorem State.Canon.complWord {t queue tag va f} (h : s.Canon) : (s.complWord t queue tag va f).Canon :=
  (State.complWord_only ..).canon h

theorem State.Canon.writeDone {p compl status} (h : s.Canon) : (s.writeDone p compl status).Canon :=
  (State.writeDone_only ..).canon h

theorem State.Canon.drain {p} (h : s.Canon) : (s.drain p).Canon := (State.drain_only ..).canon h

theorem State.Canon.dropOrLeave {die core hit} (h : s.Canon) : (s.dropOrLeave die core hit).1.Canon :=
  (State.dropOrLeave_only ..).canon h

theorem State.Canon.dropParty {p} (h : s.Canon) : (s.dropParty p).1.Canon := (State.dropParty_only ..).canon h

theorem State.Canon.mergeRange {site t r} (h : s.Canon) : (s.mergeRange site t r).Canon := (State.mergeRange_only ..).canon h

theorem State.Canon.dropRange {site t r} (h : s.Canon) : (s.dropRange site t r).Canon := (State.dropRange_only ..).canon h

theorem State.Canon.touchLane {c x write} (h : s.Canon) : (s.touchLane c x write).Canon := (State.touchLane_only ..).canon h

theorem State.Canon.agentBytes {t va n u bs} (h : s.Canon) (e : s.agentBytes t va n = some (u, bs)) : u.Canon :=
  (State.agentBytes_only e).canon h

theorem State.Canon.agentWrite {die t va bs u} (h : s.Canon) (e : s.agentWrite die t va bs = some u) : u.Canon :=
  (State.agentWrite_only e).canon h

theorem State.Canon.agentStore {die t va bs u} (h : s.Canon) (e : s.agentStore die t va bs = some u) : u.Canon :=
  (State.agentStore_only e).canon h

theorem State.Canon.modWord {t va f u} (h : s.Canon) (e : s.modWord t va f = some u) : u.Canon :=
  (State.modWord_only e).canon h

theorem State.Canon.modTenant {t f} (h : s.Canon) : (s.modTenant t f).Canon :=
  h.of_mem rfl

theorem State.Canon.modDie {d f} (h : s.Canon) : (s.modDie d f).Canon :=
  h.of_mem rfl

theorem State.Canon.fresh (h : s.Canon) : s.fresh.1.Canon :=
  h.of_mem rfl

theorem State.Canon.askHost {site t va} (h : s.Canon) : (s.askHost site t va).Canon := by
  unfold State.askHost
  split
  · exact h.askAts
  · exact h.askAts
  · exact h
  · exact h

/-! ### Machine/Ops.lean -/

theorem State.Canon.setCrew {k c} (h : s.Canon) : (s.setCrew k c).Canon :=
  h.of_mem rfl

theorem State.Canon.modCrew {k f} (h : s.Canon) : (s.modCrew k f).Canon :=
  h.setCrew

theorem State.Canon.modParty {p f} (h : s.Canon) : (s.modParty p f).Canon :=
  h.of_mem rfl

theorem State.Canon.modLaunch {l f} (h : s.Canon) : (s.modLaunch l f).Canon :=
  h.of_mem rfl

theorem State.Canon.queueError {t detail queue tag addr} (h : s.Canon) : (s.queueError t detail queue tag addr).Canon :=
  h.errorRecord

theorem State.Canon.markAway {granule} (h : s.Canon) : (s.markAway granule).Canon :=
  h.of_mem rfl

theorem State.Canon.joinQueue {pfn w} (h : s.Canon) : (s.joinQueue pfn w).Canon :=
  h.modPage

theorem State.Canon.waitMoving {k is pfn a} (h : s.Canon) : (s.waitMoving k is pfn a).Canon :=
  h.modCrew.foldl fun _ _ h => h.joinQueue

theorem State.Canon.unlessMoving {e f} (h : s.Canon) (hf : ∀ s : State, s.Canon → (f s).Canon) : (s.unlessMoving e f).Canon := by
  have hmet : (f { s with met := none }).Canon := hf _ (h.of_mem rfl)
  unfold State.unlessMoving
  dsimp only
  split
  · exact hmet
  · exact h.joinQueue
  · exact h.of_mem rfl
  · exact h.markAway

theorem State.Canon.takeUp {x} (h : s.Canon) : (s.takeUp x).Canon :=
  .ite (h.of_mem rfl) (.ite (h.of_mem rfl) (h.of_mem rfl))

theorem State.Canon.setQueue {t q x} (h : s.Canon) : (s.setQueue t q x).Canon :=
  h.modTenant.physWrite

theorem State.Canon.drainQueue {t q} (h : s.Canon) : (s.drainQueue t q).Canon :=
  h.setQueue.ite h

theorem State.Canon.endJob {job} (h : s.Canon) : (s.endJob job).Canon := by
  unfold State.endJob
  dsimp only
  split
  · exact h
  · exact .ite (h.of_mem rfl) (.ite (.setQueue (h.of_mem rfl)) (h.of_mem rfl))

theorem State.Canon.finishLaunch {l} (h : s.Canon) : (s.finishLaunch l).Canon := by
  unfold State.finishLaunch
  refine h.ite ?_
  dsimp only
  split
  · exact h.modLaunch.writeDone.endJob
  · exact h.modLaunch.writeDone

theorem State.Canon.freeParty {p st} (h : s.Canon) : (s.freeParty p st).Canon :=
  .ite (.modParty (h.memZero.of_mem rfl)) (.modLaunch (.modParty (h.memZero.of_mem rfl)))

theorem State.Canon.abandon {l} (h : s.Canon) : (s.abandon l).Canon :=
  .ite (h.of_mem rfl) h

theorem State.Canon.discardParty {p} (h : s.Canon) : (s.discardParty p).Canon :=
  h.ite (.finishLaunch (.abandon (.modLaunch (.freeParty (h.of_mem rfl)))))

theorem State.Canon.discardLaunch {l} (h : s.Canon) : (s.discardLaunch l).Canon :=
  h.ite (.finishLaunch (h.modLaunch.foldl (fun _ _ h => h.discardParty)))

theorem State.Canon.discardLaunches {test} (h : s.Canon) : (s.discardLaunches test).Canon :=
  h.foldl fun _ _ h => h.discardLaunch.ite h

theorem State.Canon.haltTenant {t code detail tag addr} (h : s.Canon) : (s.haltTenant t code detail tag addr).Canon :=
  .errorRecord (.discardLaunches (h.modTenant.foldl (fun _ _ h => h.drainQueue)))

theorem State.Canon.useRing {t} (h : s.Canon) : (s.useRing t).Canon :=
  h.usePhys.usePhys

theorem State.Canon.writeFault {t r} (h : s.Canon) : (s.writeFault t r).Canon := by
  unfold State.writeFault
  extract_lets ten head seq idx va lost u bytes
  have hlost : lost.Canon := h.haltTenant
  have hu : u.Canon := h.useRing
  clear_value lost u head
  refine hlost.ite ?_
  split
  · exact hlost
  · rename_i e
    exact .interrupt (.physWrite (.modTenant (hu.agentWrite e)))

theorem State.Canon.appendFault {t r} (h : s.Canon) : (s.appendFault t r).Canon :=
  h.useRing.ite (h.useRing.modTenant.ite h.useRing.writeFault)

theorem State.Canon.park {k is acc va lanes pc word} (h : s.Canon) : (s.park k is acc va lanes pc word).Canon :=
  h.modCrew.appendFault

theorem State.Canon.double {k i t} (h : s.Canon) : (s.double k i t).Canon :=
  h.modCrew.appendFault

theorem State.Canon.deliver {k i t} (h : s.Canon) : (s.deliver k i t).Canon := by
  unfold State.deliver
  refine h.double.ite ?_
  dsimp only
  split
  · exact h.modCrew.waitMoving
  · exact h.double
  · refine h.double.ite ?_
    split
    · exact h.modCrew
    · exact h.touchFor.writeTgt.modCrew
  · exact h.double

theorem State.Canon.raise {k i t} (h : s.Canon) : (s.raise k i t).Canon :=
  h.modCrew.ite h.deliver

theorem State.Canon.raiseAll {k is t} (h : s.Canon) : (s.raiseAll k is t).Canon :=
  h.foldl fun _ _ h => h.raise

theorem State.Canon.deliverPending {k} (h : s.Canon) : (s.deliverPending k).Canon := by
  unfold State.deliverPending
  refine h.ite ?_
  split
  · exact h
  · split
    · exact h
    · exact h.deliver
    · exact h

theorem NextCanon.withIssue {f} (h : s.Canon) (hf : ∀ (s : State) x, s.Canon → (f s x).Canon) : NextCanon (withIssue s f) := by
  unfold Machine.withIssue
  split
  · exact .fault
  · exact .next (hf _ _ (h.of_mem rfl))

theorem State.Canon.advance {iss is} (h : s.Canon) : (s.advance iss is).Canon :=
  h.modCrew

theorem State.Canon.trapGang {iss is code info addr} (h : s.Canon) : (s.trapGang iss is code info addr).Canon :=
  h.raiseAll

theorem State.Canon.privileged {go : State} {ok iss} (h : s.Canon) (h' : go.Canon) : (privileged ok iss s go).Canon :=
  h'.ite h.trapGang

/-! ### Machine/Operands.lean -/

theorem State.Canon.linkFault {iss is a tgt atMaster} (h : s.Canon) : (s.linkFault iss is a tgt atMaster).Canon := by
  unfold State.linkFault
  dsimp only
  split
  · exact h.modCrew
  · exact h.trapGang

theorem State.Canon.xlatFault {iss is acc va lanes x} (h : s.Canon) : (s.xlatFault iss is acc va lanes x).Canon := by
  unfold State.xlatFault
  dsimp only
  split
  · exact h.ite h.useFind
  · exact .park (.askHost (h.ite h.useFind))
  · exact .trapGang (h.ite h.useFind)
  · exact .trapGang (h.ite h.useFind)
  · exact .trapGang (h.ite h.useFind)
  · exact .waitMoving (h.ite h.useFind)
  · exact .linkFault (h.ite h.useFind)

theorem State.Canon.fetchRead {c va n x} (h : s.Canon) (e : s.fetchRead c va n = .ok x) : x.1.Canon := by
  unfold State.fetchRead at e
  dsimp only at e
  split at e
  · split at e
    · cases e
    · split at e
      · cases e
        exact h.touch.freeVal
      · cases e
        exact h.touch.freeVal
      · cases e
        exact h.touch.readTgt
  · cases e

theorem State.Canon.withKonst {iss k b go} (h : s.Canon) (hgo : ∀ (s : State) x, s.Canon → (go s x).Canon) :
    (withKonst s iss k b go).Canon := by
  unfold Machine.withKonst
  refine .ite (hgo _ _ h) (.ite (hgo _ _ h) ?_)
  dsimp only
  split
  · rename_i e
    exact hgo _ _ (h.fetchRead e)
  · exact h.xlatFault

/-! ### Machine/Flags.lean -/

theorem State.Canon.vecInstr {iss d p ops body} (h : s.Canon) : (vecInstr s iss d p ops body).Canon := by
  unfold Machine.vecInstr
  refine h.setCrew.foldl fun _ _ h => ?_
  dsimp only
  split
  · exact h
  · exact h.raise

theorem State.Canon.uniInstr {iss body} (h : s.Canon) : (uniInstr s iss body).Canon :=
  h.trapGang.ite h.setCrew

theorem State.Canon.uniPlain {iss body} (h : s.Canon) : (uniPlain s iss body).Canon :=
  h.uniInstr

theorem State.Canon.aluInstr {iss f td ts useA useB third fn} (h : s.Canon) :
    (aluInstr s iss f td ts useA useB third fn).Canon :=
  h.withKonst fun _ _ h => h.vecInstr.ite h.uniInstr

theorem State.Canon.cmpInstr {iss f t fn} (h : s.Canon) : (cmpInstr s iss f t fn).Canon :=
  h.withKonst fun _ _ h => h.uniInstr.ite h.vecInstr

/-! ### Machine/Integer.lean -/

theorem NextCanon.int1 {f x} (h : s.Canon) : NextCanon (int1 f s x) :=
  .withIssue h fun _ _ h => h.aluInstr

theorem NextCanon.execSread {f} (h : s.Canon) : NextCanon (execSread f s) := by
  unfold Machine.execSread
  refine .withIssue h fun _ _ h => h.uniPlain.ite (.ite (h.vecInstr.foldl (fun _ _ h => ?_)) h.vecInstr)
  split
  · exact h
  · exact h.modCrew

theorem NextCanon.bitop {f x} (h : s.Canon) : NextCanon (bitop f s x) :=
  .withIssue h fun _ _ h => h.aluInstr

/-! ### Machine/Schedule.lean -/

theorem State.Canon.fetch {c pc} (h : s.Canon) : (s.fetch c pc).1.Canon := by
  unfold State.fetch
  dsimp only
  split
  · exact h
  · rename_i e'
    refine .ite_fst ?_ (h.fetchRead e')
    split
    · exact h
    · rename_i e
      exact .fetchRead (h.fetchRead e') e

theorem State.Canon.countReady {chosen} (h : s.Canon) : (s.countReady chosen).Canon :=
  h.of_mem rfl

theorem State.Canon.pass (h : s.Canon) : s.pass.Canon :=
  h.of_mem rfl

theorem State.Canon.idleCycle (h : s.Canon) : s.idleCycle.Canon :=
  h.countReady.pass

theorem State.Canon.begin {g} (h : s.Canon) : (s.begin g).Canon :=
  .ite (h.of_mem rfl) (h.of_mem rfl)

theorem State.Canon.issueNow {iss} (h : s.Canon) : (s.issueNow iss).Canon :=
  h.of_mem rfl

theorem State.Canon.fetchFault {g va x} (h : s.Canon) : (s.fetchFault g va x).Canon :=
  .xlatFault (.modCrew (h.of_mem rfl))

theorem State.Canon.illegal {iss} (h : s.Canon) : (s.illegal iss).Canon :=
  h.trapGang

theorem State.Canon.holdOn {iss x entries} (h : s.Canon) : (s.holdOn iss x entries).Canon :=
  h.modCrew

theorem State.Canon.afterIssue {before after : State} {iss i} (h : after.Canon) : (before.afterIssue after iss i).Canon :=
  h.modCrew.ite h.holdOn

theorem State.Canon.goOn {iss x} (h : s.Canon) : (s.goOn iss x).Canon :=
  h.of_mem rfl

theorem State.Canon.afterGoOn {before after : State} {iss x} (h : after.Canon) : (before.afterGoOn after iss x).Canon :=
  h.modCrew.holdOn

theorem NextCanon.mapNext {f : State → State} {o} (h : NextCanon o) (hf : ∀ s, s.Canon → (f s).Canon) :
    NextCanon (mapNext f o) := by
  cases o with
  | next s => exact .next (hf s (h s rfl))
  | fault r => exact .fault
  | refused r => exact .refused

/-! ### Machine/Gangs.lean -/

theorem State.Canon.settle {k} (h : s.Canon) : (s.settle k).Canon :=
  h.modCrew.modCrew.ite (.ite (h.modCrew.foldl (fun _ _ h => h.raise)) h.modCrew)

theorem State.Canon.crossArrive {iss go} (h : s.Canon) (hgo : ∀ (s : State) x, s.Canon → (go s x).Canon) :
    (crossArrive s iss go).Canon :=
  .ite (.settle (hgo _ _ h.modCrew)) h.modCrew.settle

theorem State.Canon.crossChecked {iss is bad go} (h : s.Canon) (hgo : ∀ (s : State), s.Canon → (go s).Canon) :
    (crossChecked s iss is bad go).Canon := by
  unfold Machine.crossChecked
  split
  · exact h.raise
  · exact hgo _ h

theorem State.Canon.modOutingBar {pa n f} (h : s.Canon) : (s.modOutingBar pa n f).Canon :=
  h.of_mem rfl

theorem State.Canon.leaveBar {k is moving} (h : s.Canon) : (s.leaveBar k is moving).Canon := by
  unfold State.leaveBar
  dsimp only
  split
  · exact h.modCrew.waitMoving
  · exact h.modCrew

theorem State.Canon.depart {who level n cur} (h : s.Canon) : (s.depart who level n cur).Canon :=
  h.foldl fun _ _ h => h.ite (h.dropParty.foldl (fun _ _ h => h.leaveBar))

theorem State.Canon.endPartyPhase {p n} (h : s.Canon) : (s.endPartyPhase p n).Canon :=
  h.modParty.depart

theorem State.Canon.endOutingPhase {pa n} (h : s.Canon) : (s.endOutingPhase pa n).Canon :=
  .depart (h.of_mem rfl)

theorem State.Canon.endGridPhase {l n} (h : s.Canon) : (s.endGridPhase l n).Canon :=
  .depart (h.of_mem rfl)

theorem State.Canon.checkPartyBar {p n} (h : s.Canon) : (s.checkPartyBar p n).Canon :=
  h.endPartyPhase.ite h

theorem State.Canon.checkOutingBar {pa n} (h : s.Canon) : (s.checkOutingBar pa n).Canon :=
  h.endOutingPhase.ite h

theorem State.Canon.checkGridBar {l n} (h : s.Canon) : (s.checkGridBar l n).Canon :=
  h.endGridPhase.ite h

theorem State.Canon.arriveOuting {p n} (h : s.Canon) : (s.arriveOuting p n).Canon :=
  h.ite h.drain.modOutingBar.checkOutingBar

theorem State.Canon.arriveGrid {p n} (h : s.Canon) : (s.arriveGrid p n).Canon :=
  h.ite h.drain.modLaunch.checkGridBar

theorem State.Canon.arriveGridCrew {k n} (h : s.Canon) : (s.arriveGridCrew k n).Canon := by
  unfold State.arriveGridCrew
  dsimp only
  split
  · exact h
  · exact h.ite h.modParty.arriveGrid

theorem State.Canon.sliceRetired {k} (h : s.Canon) : (s.sliceRetired k).Canon :=
  h.foldl fun _ _ h => h.arriveGridCrew

theorem State.Canon.crewRetired {k} (h : s.Canon) : (s.crewRetired k).Canon := by
  unfold State.crewRetired
  dsimp only
  split
  · exact h
  · exact .foldl (h.foldl fun _ _ h => h.checkPartyBar.ite h) fun _ _ h =>
      .ite (h.arriveOuting.ite h).arriveGrid (h.arriveOuting.ite h)

theorem State.Canon.partyRetired {p} (h : s.Canon) : (s.partyRetired p).Canon :=
  have houting := h.foldl fun _ _ h => h.checkOutingBar.ite h
  .ite (houting.foldl fun _ _ h => h.checkGridBar) houting

/-! ### Machine/Access.lean -/

theorem State.Canon.syncRoom {g u} (h : s.Canon) (e : s.syncRoom g = some u) : u.Canon := by
  unfold State.syncRoom at e
  dsimp only at e
  split at e
  · cases e
    exact h
  · split at e
    · cases e
      exact h
    · exact .of_map e fun _ _ => h.of_mem rfl

theorem State.Canon.modSync {g f} (h : s.Canon) : (s.modSync g f).Canon :=
  .ite (h.of_mem rfl) (h.of_mem rfl)

theorem State.Canon.leaveRecord {c g range record} (h : s.Canon) : (s.leaveRecord c g range record).Canon := by
  have hroom {u} (e : (if (s.sync g).isSome then some s else s.syncRoom g) = some u) : u.Canon := by
    split at e
    · cases e
      exact h
    · exact h.syncRoom e
  unfold State.leaveRecord
  dsimp only
  split
  · exact h
  · rename_i e _
    exact (hroom e).modSync
  · rename_i e _
    exact (hroom e).modSync

theorem State.Canon.acquire {c tgt} (h : s.Canon) : (s.acquire c tgt).Canon := by
  unfold State.acquire
  dsimp only
  split
  · exact h.dropRange
  · exact .dropRange (.ite (.modSync (h.foldl (fun _ _ h => h.mergeDirty))) (h.foldl (fun _ _ h => h.mergeDirty)))

theorem State.Canon.atHome {α : Type} {f : State → State × α} {site tgt} (h : s.Canon)
    (hf : ∀ s, s.Canon → (f s).1.Canon) :
    (atHome site tgt s f).1.Canon := by
  unfold Machine.atHome
  dsimp only
  split
  · exact .refillSector (hf _ h.mergeSector)
  · exact hf _ h

theorem State.Canon.loadLane {c tgt n p} (h : s.Canon) : (s.loadLane c tgt n p).1.Canon :=
  .ite_fst (.acquire (h.atHome (fun _ h => h.readTgt))) h.readTgt

theorem State.Canon.storeLane {c tgt bs p} (h : s.Canon) : (s.storeLane c tgt bs p).Canon := by
  unfold State.storeLane
  refine .ite ?_ h.writeTgt
  dsimp only
  split
  · exact .leaveRecord (.atHome (h.mergeRange.ite h) (fun _ h => h.writeTgt))
  · exact .atHome (h.mergeRange.ite h) fun _ h => h.writeTgt

theorem State.Canon.request {r msg} (h : s.Canon) : (s.request r msg).Canon :=
  .send (h.of_mem rfl)

theorem State.Canon.awaitEarlier {iss is lanes} (h : s.Canon) : (s.awaitEarlier iss is lanes).Canon :=
  h.modCrew

theorem State.Canon.tellLost {iss i a} (h : s.Canon) : (s.tellLost iss i a).Canon :=
  h.modCrew.raise

theorem State.Canon.releaseGate {iss c i p go} (h : s.Canon) (hgo : ∀ (s : State), s.Canon → (go s).Canon) :
    (releaseGate s iss c i p go).Canon := by
  unfold Machine.releaseGate
  refine .ite (hgo _ h) (h.awaitEarlier.ite ?_)
  split
  · exact h.tellLost
  · exact hgo _ h

theorem State.Canon.withPerformed {iss is wide sys go} (h : s.Canon) (hgo : ∀ (s : State) x, s.Canon → (go s x).Canon) :
    (withPerformed s iss is wide sys go).Canon := by
  unfold Machine.withPerformed
  refine .ite (hgo _ _ h) (h.awaitEarlier.ite (.ite (hgo _ _ h) (.foldl (hgo _ _ h) (fun _ _ h => ?_))))
  split
  · exact h.tellLost
  · exact h

theorem State.Canon.acquireGate {iss is c p tgts go} (h : s.Canon) (hgo : ∀ (s : State), s.Canon → (go s).Canon) :
    (acquireGate s iss is c p tgts go).Canon := by
  unfold Machine.acquireGate
  dsimp only
  split
  · exact h.waitMoving
  · split
    · exact h.markAway.modCrew
    · exact hgo _ h

theorem State.Canon.dropGroup {k i} (h : s.Canon) : (s.dropGroup k i).Canon := by
  unfold State.dropGroup
  dsimp only
  split
  · exact h
  · exact .modCrew (h.of_mem rfl)

theorem State.Canon.checkFails {iss c i acc x} (h : s.Canon) : (s.checkFails iss c i acc x).Canon := by
  unfold State.checkFails
  split
  · exact h.dropGroup.raise
  · exact h.xlatFault
  · exact h.dropGroup.xlatFault
  · exact h

theorem State.Canon.memSlices {iss ops addr align acc p xl perform} (h : s.Canon)
    (hperform : ∀ (s : State) x y z, s.Canon → (perform s x y z).Canon) :
    (memSlices s iss ops addr align acc p xl perform).Canon := by
  unfold Machine.memSlices
  refine h.foldl fun _ _ h => ?_
  dsimp only
  split
  · exact h.raise
  · split
    · exact h.releaseGate fun _ h' => hperform _ _ _ _ h'
    · exact h.checkFails

theorem State.Canon.unlessStuck {iss c i l atMaster go} (h : s.Canon) (hgo : ∀ (s : State), s.Canon → (go s).Canon) :
    (unlessStuck s iss c i l atMaster go).Canon := by
  unfold Machine.unlessStuck
  split
  · exact h.linkFault
  · exact hgo _ h

theorem State.Canon.commitMem {iss c i ops bad} (h : s.Canon) : (s.commitMem iss c i ops bad).Canon :=
  h.modCrew

theorem State.Canon.takeOff {iss is fl served far size msg} (h : s.Canon) : (s.takeOff iss is fl served far size msg).Canon :=
  .modCrew (.of_mem (h.fresh.foldl (fun _ _ h => h.request)) rfl)

theorem State.Canon.failFlight {k fl code a} (h : s.Canon) : (s.failFlight k fl code a).Canon :=
  .raiseAll (.modCrew (h.of_mem rfl))

theorem State.Canon.landFlight {k fl} (h : s.Canon) : (s.landFlight k fl).Canon := by
  unfold State.landFlight
  dsimp only
  split
  · exact h.failFlight
  · refine .ite ?_ (.modCrew (.of_mem (h.dropRange.ite h) rfl))
    split
    · exact .deliverPending (.modCrew (.modCrew (.of_mem (h.dropRange.ite h) rfl)))
    · exact .modCrew (.of_mem (h.dropRange.ite h) rfl)

theorem State.Canon.serve {a : LaneAccess} {l} (h : s.Canon) (hhere : ∀ (s : State) x, s.Canon → (a.here s x).1.Canon) :
    (a.serve s l).1.Canon := by
  induction l generalizing s with
  | nil => exact h
  | cons x l ih =>
    unfold LaneAccess.serve
    split
    · exact ih h
    · exact ih (hhere _ _ h)

theorem State.Canon.laneDepart {a : LaneAccess} {iss c i l atMaster} (h : s.Canon)
    (hhere : ∀ (s : State) x, s.Canon → (a.here s x).1.Canon) (haway : ∀ (s : State) x, s.Canon → (a.away s x).Canon) :
    (a.depart s iss c i l atMaster).Canon := by
  unfold LaneAccess.depart
  have hsent {l l' : List LaneTgt} : (l'.foldl a.away (a.serve s l).1).Canon := (h.serve hhere).foldl haway
  dsimp only
  split
  · refine .modCrew (.linkFault (.modCrew (.of_mem (.foldl ?_ fun _ _ h => h.request) rfl)))
    split
    · exact hsent
    · exact hsent.fresh
  · refine .modCrew (.modCrew (.of_mem (.foldl ?_ fun _ _ h => h.request) rfl))
    split
    · exact hsent
    · exact hsent.fresh

theorem State.Canon.loadHere {c n p x} (h : s.Canon) : (s.loadHere c n p x).1.Canon :=
  h.touchLane.loadLane

theorem State.Canon.storeAll {k c p l data lanes} (h : s.Canon) : (s.storeAll k c p l data lanes).Canon := by
  unfold State.storeAll
  refine h.foldl fun _ _ h => h.ite ?_
  dsimp only
  split
  · exact .request (h.touchLane.mergeRange.ite h.touchLane)
  · exact h.touchLane.storeLane

theorem State.Canon.trapLive {iss is code addr} (h : s.Canon) : (s.trapLive iss is code addr).Canon :=
  h.foldl fun _ _ h => h.raise

/-! ### Machine/Float.lean -/

theorem NextCanon.flt2 {f x} (h : s.Canon) : NextCanon (flt2 f s x) :=
  .withIssue h fun _ _ h => h.aluInstr

theorem NextCanon.fsp {f x} (h : s.Canon) : NextCanon (fsp f s x) :=
  .withIssue h fun _ _ h => .vecInstr (h.of_mem rfl)

/-! ### Machine/Regs.lean -/

theorem NextCanon.predop {f x} (h : s.Canon) : NextCanon (predop f s x) :=
  .withIssue h fun _ _ h => h.uniPlain

/-! ### Machine/LoadStore.lean -/

theorem State.Canon.loadSlice {f iss ops c i l} (h : s.Canon) : (loadSlice f iss ops s c i l).Canon :=
  .ite (h.acquireGate fun _ h => h.laneDepart (fun _ _ h => h.loadHere) fun _ _ h => h.touchLane)
    (h.unlessStuck fun _ h => h.acquireGate fun _ h => .commitMem (.modCrew (h.serve fun _ _ h => h.loadHere)))

theorem State.Canon.storeSlice {f iss ops c i l} (h : s.Canon) : (storeSlice f iss ops s c i l).Canon :=
  h.unlessStuck fun _ h => h.storeAll.commitMem

theorem State.Canon.uniAccess {iss f acc need go} (h : s.Canon) (hgo : ∀ (s : State) x y z, s.Canon → (go s x y z).Canon) :
    (uniAccess s iss f acc need go).Canon := by
  unfold Machine.uniAccess
  refine h.trapLive.ite ?_
  split
  · exact h.withPerformed fun _ _ h' => h'.ite (h'.linkFault.ite (h'.modCrew.ite (hgo _ _ _ _ h')))
  · exact h.xlatFault

/-! ### Machine/Atomic.lean -/

theorem State.Canon.atomLane {c tgt k x p} (h : s.Canon) : (s.atomLane c tgt k x p).1.Canon := by
  unfold State.atomLane
  extract_lets site rel range eager u
  have hu : u.Canon := h.mergeRange.ite h
  split
  rename_i v r e
  have hv : v.Canon := by
    refine .of_fst (hu.atHome fun _ h => ?_) e
    dsimp only
    split
    · exact h.readTgt.writeTgt
    · exact h.readTgt
  extract_lets w
  have hw : w.Canon := by
    dsimp only [w]
    split
    · exact hv.leaveRecord.ite hv
    · exact hv
  exact hw.acquire.ite hw

theorem State.Canon.toHost {k tgt x} (h : s.Canon) : (s.toHost k tgt x).Canon := by
  unfold State.toHost
  split
  · exact h.send
  · exact h

theorem State.Canon.atomHere {fm f c x} (h : s.Canon) : (s.atomHere fm f c x).1.Canon :=
  h.touchLane.toHost.atomLane

theorem State.Canon.atomAway {f c x} (h : s.Canon) : (s.atomAway f c x).Canon :=
  h.touchLane.mergeRange.ite h.touchLane

theorem State.Canon.commitAtom {fm f iss ops c i bad out} (h : s.Canon) : (commitAtom fm f iss ops s c i bad out).Canon :=
  h.modCrew.commitMem

theorem State.Canon.probeHost {l} (h : s.Canon) : (s.probeHost l).Canon := by
  unfold State.probeHost
  refine h.foldl fun _ _ h => ?_
  split
  · exact h.send
  · exact h

theorem State.Canon.atomServe {fm f iss ops u c i bad l} (h : s.Canon) :
    ((atomAccess fm f iss ops u c i bad).serve s l).1.Canon :=
  h.serve fun _ _ h => h.atomHere

theorem State.Canon.atomHalt {fm f iss ops c i l x} (h : s.Canon) : (atomHalt fm f iss ops s c i l x).Canon :=
  h.atomServe.toHost.haltTenant

theorem State.Canon.atomSend {fm f iss c far} (h : s.Canon) : (atomSend fm f iss s c far).Canon :=
  h.foldl fun _ _ h => h.atomAway.request

theorem State.Canon.atomPerform {fm f iss ops c i l} (h : s.Canon) : (atomPerform fm f iss ops s c i l).Canon :=
  .ite (h.laneDepart (fun _ _ h => h.atomHere) fun _ _ h => h.atomAway) h.atomServe.atomSend.commitAtom

theorem State.Canon.atomSlice {fm f iss ops c i l} (h : s.Canon) : (atomSlice fm f iss ops s c i l).Canon := by
  unfold Machine.atomSlice
  dsimp only
  split
  · exact h.dropGroup.probeHost.raise
  · refine h.releaseGate fun _ h => h.acquireGate fun _ h => .ite ?_ (h.unlessStuck fun _ h => ?_)
    all_goals
      split
      · exact h.probeHost.atomHalt
      · exact h.probeHost.atomPerform

theorem NextCanon.atomic {fm f} (h : s.Canon) : NextCanon (atomic fm f s) := by
  unfold Machine.atomic
  refine .withIssue h fun _ _ h => h.foldl fun _ _ h => ?_
  dsimp only
  split
  · exact h.raise
  · split
    · exact h.atomSlice
    · exact h.checkFails

/-! ### Machine/Control.lean -/

theorem NextCanon.execLdl {f} (h : s.Canon) : NextCanon (execLdl f s) := by
  unfold Machine.execLdl
  refine .withIssue h fun _ _ h => h.trapLive.ite ?_
  dsimp only
  split
  · exact h.xlatFault
  · rename_i e
    exact .modCrew (h.fetchRead e)

theorem State.Canon.eretSlice {iss i} (h : s.Canon) : (eretSlice s iss i).Canon := by
  unfold Machine.eretSlice
  refine h.trapLive.ite ?_
  dsimp only
  split
  · exact h.linkFault.ite (h.modCrew.ite (h.touchLane.takeOff.ite h.loadHere.modCrew.deliverPending))
  · exact h.xlatFault

theorem NextCanon.execEret {x} (h : s.Canon) : NextCanon (execEret x s) := by
  unfold Machine.execEret
  refine .withIssue h fun _ _ h => .settle (h.foldl (fun _ _ h => ?_))
  split
  · exact h.eretSlice.ite h.raise
  · exact h.raise

/-! ### Machine/Cross.lean -/

theorem State.Canon.crossLanes {iss d ops body} (h : s.Canon) : (crossLanes s iss d ops body).Canon :=
  h.crossArrive fun _ _ h => h.crossChecked fun _ h => h.modCrew

theorem NextCanon.reduction {f admits} (h : s.Canon) : NextCanon (reduction f s admits) :=
  .withIssue h fun _ _ h => h.crossLanes

/-! ### Machine/Signals.lean -/

theorem State.Canon.postSlot {p slot v range} (h : s.Canon) : (s.postSlot p slot v range).Canon :=
  h.modParty

theorem State.Canon.deliverPost {t a v range} (h : s.Canon) : (s.deliverPost t a v range).Canon := by
  unfold State.deliverPost
  dsimp only
  split
  · exact h
  · refine h.ite ?_
    split
    · exact h.modLaunch
    · split
      · exact h.postSlot
      · exact h.postSlot
      · exact h.modLaunch
      · exact h
      · exact h

theorem State.Canon.post {t a v range crew op} (h : s.Canon) : (s.post t a v range crew op).Canon :=
  h.deliverPost.ite h.request

theorem State.Canon.addHeld {l p} (h : s.Canon) : (s.addHeld l p).Canon :=
  .modLaunch (h.foldl (fun _ _ h => h.postSlot))

/-! ### Machine/Hamper.lean -/

theorem State.Canon.modOp {id f} (h : s.Canon) : (s.modOp id f).Canon :=
  h.of_mem rfl

theorem State.Canon.engTouch {o l write} (h : s.Canon) : (s.engTouch o l write).Canon := by
  unfold State.engTouch
  split
  · exact h.ite h.agentTouch
  · exact h

theorem State.Canon.engRead {o l n lane x} (h : s.Canon) (e : s.engRead o l n lane = .ok x) : x.1.Canon := by
  unfold State.engRead at e
  dsimp only at e
  split at e
  · cases e
  · split at e
    · cases e
      exact h.of_mem rfl
    · cases e
  · cases e
    exact h.engTouch.readTgt

theorem State.Canon.engRequest {o lane va size store msg} (h : s.Canon) : (s.engRequest o lane va size store msg).Canon :=
  h.request

theorem State.Canon.engWrite {o l bs lane u} (h : s.Canon) (e : s.engWrite o l bs lane = .ok u) : u.Canon := by
  unfold State.engWrite at e
  dsimp only at e
  split at e
  · cases e
  · cases e
    exact h.engTouch.engRequest
  · cases e
    exact h.engTouch.masterWrite
  · cases e
    exact h.engTouch.writeTgt

theorem State.Canon.engAdd {o l t bs lane u} (h : s.Canon) (e : s.engAdd o l t bs lane = .ok u) : u.Canon := by
  unfold State.engAdd at e
  dsimp only at e
  split at e
  · cases e
  · cases e
    exact h.engTouch.engRequest
  · split at e
    · cases e
    · split at e
      · cases e
        exact h.engTouch.readTgt.masterWrite
      · cases e
        exact h.engTouch.readTgt.writeTgt

theorem State.Canon.copyElem {o n u} (h : s.Canon) (e : s.copyElem o n = .ok u) : u.Canon := by
  unfold State.copyElem at e
  dsimp only at e
  split at e
  · cases e
  · rename_i e'
    exact .engWrite (h.engRead e') e

theorem State.Canon.rowIndex {o j lane x} (h : s.Canon) (e : s.rowIndex o j lane = .ok x) : x.1.Canon := by
  unfold State.rowIndex at e
  dsimp only at e
  split at e
  · cases e
    exact h
  · split at e
    · cases e
    · rename_i er
      cases e
      exact (h.engRead er).modOp

theorem State.Canon.rowElem {o n u} (h : s.Canon) (e : s.rowElem o n = .ok u) : u.Canon := by
  unfold State.rowElem at e
  dsimp only at e
  split at e
  · cases e
  · rename_i ei
    have hidx := h.rowIndex ei
    split at e
    · split at e
      · cases e
        exact hidx
      · split at e
        · cases e
        · rename_i er
          have hrow := hidx.engRead er
          split at e
          · exact hrow.engWrite e
          · exact hrow.engAdd e
          · split at e
            · cases e
            · rename_i ea
              exact (hrow.engAdd ea).engAdd e
    · split at e
      · exact hidx.engWrite e
      · split at e
        · cases e
        · rename_i er
          exact (hidx.engRead er).engWrite e

theorem State.Canon.collElem {o n u} (h : s.Canon) (e : s.collElem o n = .ok u) : u.Canon := by
  unfold State.collElem at e
  exact h.engWrite e

theorem State.Canon.windowWrite {g off die bs} (h : s.Canon) : (s.windowWrite g off die bs).Canon := by
  unfold State.windowWrite
  split
  · exact h
  · exact h.agentFail.getD fun _ e => h.agentStore e

theorem State.Canon.laneElem {o n u} (h : s.Canon) (e : s.laneElem o n = .ok u) : u.Canon := by
  unfold State.laneElem at e
  dsimp only at e
  split at e
  · cases e
    exact h
  · split at e
    · split at e
      · cases e
      · split at e
        · cases e
        · cases e
        · cases e
          exact .engRequest (.windowWrite (h.of_mem rfl))
        · cases e
          exact .engRequest (.windowWrite (h.of_mem rfl))
    · split at e
      · cases e
        exact h
      · exact h.engWrite e

theorem State.Canon.opElem {o n u} (h : s.Canon) (e : s.opElem o n = .ok u) : u.Canon := by
  unfold State.opElem at e
  split at e
  · exact h.copyElem e
  · exact h.rowElem e
  · exact h.rowElem e
  · exact h.collElem e
  · exact h.laneElem e
  · exact h.laneElem e

theorem State.Canon.opPrep {o n u} (h : s.Canon) (e : s.opPrep o n = .ok u) : u.Canon := by
  unfold State.opPrep at e
  split at e
  case h_1 | h_2 =>
    split at e
    · rename_i ei
      cases e
      exact h.rowIndex ei
    · cases e
  all_goals
    cases e
    exact h

theorem State.Canon.moveElems {o n e} (h : s.Canon) : (moveElems s o n e).1.Canon := by
  induction n generalizing s e with
  | zero => exact h
  | succ n ih =>
    unfold Machine.moveElems
    split
    · exact h
    · rename_i ep
      split
      · rename_i ee
        exact ih ((h.opPrep ep).opElem ee)
      · exact h.opPrep ep

theorem State.Canon.moveTile {o} (h : s.Canon) : (s.moveTile o).1.Canon :=
  h.moveElems

theorem State.Canon.postTile {o} (h : s.Canon) : (s.postTile o).Canon := by
  unfold State.postTile
  refine h.ite ?_
  dsimp only
  split
  · exact .modOp (h.foldl (fun _ _ h => h.post))
  · exact h.post.modOp
  · exact h.modOp

theorem State.Canon.runTile {o} (h : s.Canon) : (s.runTile o).Canon := by
  have hmove {u x} (e : s.moveTile o = (u, x)) : u.Canon := h.moveTile.of_fst e
  unfold State.runTile
  refine h.postTile.ite ?_
  split
  · rename_i e
    dsimp only
    split
    · exact (hmove e).modOp.postTile
    · exact (hmove e).modOp
  · rename_i e
    exact (hmove e).modOp
  · rename_i e
    exact (hmove e).modOp.joinQueue
  · rename_i e
    dsimp only
    split
    · exact (hmove e).modOp.engRequest
    · exact (hmove e).modOp
  · rename_i e
    exact (hmove e).modOp

theorem State.Canon.stopOp {o n va write} (h : s.Canon) : (s.stopOp o n va write).Canon :=
  h.agentFail.modOp.appendFault

theorem State.Canon.opFault {o} (h : s.Canon) : (s.opFault o).Canon := by
  unfold State.opFault
  split
  · rename_i e
    exact .stopOp (h.moveTile.of_fst e)
  · rename_i e
    exact .modOp (h.moveTile.of_fst e)
  · rename_i e
    exact .modOp (h.moveTile.of_fst e)
  · exact h

theorem State.Canon.retireOp {o} (h : s.Canon) : (s.retireOp o).Canon := by
  unfold State.retireOp
  refine .modCrew ?_
  dsimp only
  split
  · exact h.of_mem rfl
  · exact h.of_mem rfl

theorem State.Canon.collGather {o size n i x} (h : s.Canon) (e : collGather s o size n i = .ok x) : x.1.Canon := by
  induction n generalizing s i x with
  | zero =>
    cases e
    exact h
  | succ n ih =>
    unfold Machine.collGather at e
    split at e
    · cases e
    · rename_i u _ er
      have hu : u.Canon := h.engRead er
      split at e
      · cases e
      · rename_i eg
        cases e
        exact (ih hu eg :)

theorem State.Canon.sendPart {o data} (h : s.Canon) : (s.sendPart o data).Canon :=
  .foldl (.modOp (h.of_mem rfl)) fun _ _ h => h.usePhys.foldl fun _ _ h => h.engRequest

theorem State.Canon.collTake {o x} (h : s.Canon) (e : s.collTake o = .ok x) : x.1.Canon := by
  unfold State.collTake at e
  dsimp only at e
  split at e
  · rename_i eg
    split at e
    · cases e
    · cases e
      exact h.collGather eg
  · cases e

theorem State.Canon.runCollective {g} (h : s.Canon) : (s.runCollective g).Canon := by
  unfold State.runCollective
  split
  · exact h
  · refine .ite ?_ (h.modOp.ite h)
    split
    · rename_i e
      exact .sendPart (h.collTake e)
    · exact h.stopOp
    · exact h.modOp
    · exact h.modOp.joinQueue
    · exact h.modOp
    · refine h.ite ?_
      split
      · exact h.modOp.engRequest
      · exact h

/-! ### Machine/Remap.lean -/

theorem State.Canon.askRemap {pfn goal leafPa asker far} (h : s.Canon) : (s.askRemap pfn goal leafPa asker far).1.Canon :=
  h.fresh.modPage

theorem State.Canon.askEviction {pfn goal} (h : s.Canon) : (s.askEviction pfn goal).Canon :=
  h.askRemap

theorem State.Canon.lapseHolds {pfn} (h : s.Canon) : (s.lapseHolds pfn).Canon :=
  h.of_mem rfl

theorem State.Canon.takeNear {p expl x} (h : s.Canon) (e : s.takeNear p expl = some x) : x.1.Canon := by
  unfold State.takeNear at e
  dsimp only at e
  split at e
  · cases e
    exact h
  · split at e
    · exact .of_map_fst e fun _ _ => h
    · refine .of_findSome_fst e fun q y e' => ?_
      split at e'
      · cases e'
      · split at e'
        · cases e'
        · cases e'
          exact h.askEviction.modParty

theorem State.Canon.takeFar {t pfn expl x} (h : s.Canon) (e : s.takeFar t pfn expl = some x) : x.1.Canon := by
  unfold State.takeFar at e
  dsimp only at e
  split at e
  · cases e
    exact h
  · split at e
    · cases e
    · refine .of_findSome_fst e fun q y e' => ?_
      split at e'
      · cases e'
        exact h.askEviction.modTenant
      · cases e'

theorem State.Canon.noteNear {p pfn f} (h : s.Canon) : (s.noteNear p pfn f).Canon :=
  h.modParty

theorem State.Canon.noteFar {t pfn sl f} (h : s.Canon) : (s.noteFar t pfn sl f).Canon :=
  h.modTenant

theorem State.Canon.placeNear {t p pfn leafPa expl x} (h : s.Canon) (e : s.placeNear t p pfn leafPa expl = some x) :
    x.1.Canon := by
  unfold State.placeNear at e
  dsimp only at e
  split at e
  case h_3 =>
    split at e
    · cases e
    · split at e
      · cases e
      · rename_i en
        split at e
        · cases e
        · rename_i ef
          cases e
          exact .askRemap (.noteFar (.noteNear ((h.takeNear en).takeFar ef)))
  case h_5 | h_6 => cases e
  all_goals
    split at e
    · cases e
    · split at e
      · cases e
      · rename_i en
        cases e
        exact .askRemap (h.takeNear en).noteNear

theorem State.Canon.placeFar {t p pfn leafPa expl x} (h : s.Canon) (e : s.placeFar t p pfn leafPa expl = some x) : x.1.Canon := by
  unfold State.placeFar at e
  dsimp only at e
  split at e
  · cases e
  · split at e
    · cases e
    · rename_i e'
      cases e
      exact .askRemap (.noteFar (h.takeFar e'))

theorem State.Canon.placeHome {p pfn leafPa x} (h : s.Canon) (e : s.placeHome p pfn leafPa = some x) : x.1.Canon := by
  unfold State.placeHome at e
  dsimp only at e
  split at e
  all_goals
    split at e
    · cases e
    · cases e
      refine .askRemap ?_
      split
      · exact h.modParty
      · exact h

theorem State.Canon.renote {pfn q} (h : s.Canon) : (s.renote pfn q).Canon := by
  unfold State.renote
  extract_lets near far u
  have hu : u.Canon := by
    dsimp only [u]
    split <;> exact h.of_mem rfl
  split
  · exact hu.of_mem rfl
  · exact hu

theorem State.Canon.startRemap {pfn q} (h : s.Canon) : (s.startRemap pfn q).Canon :=
  h.modPage

theorem State.Canon.dropEntries {pfn k} (h : s.Canon) : (s.dropEntries pfn k).Canon :=
  h.of_mem rfl

theorem State.Canon.copySectors {dst src mask} (h : s.Canon) : (s.copySectors dst src mask).Canon :=
  h.foldl fun _ _ h => h.useBank.useBank.memCopy

theorem State.Canon.removeReplicas {pfn test} (h : s.Canon) : (s.removeReplicas pfn test).Canon :=
  .modPage (h.foldl (fun _ _ h => h.mergeReplica.ite h))

theorem State.Canon.moveMaster {pfn old dst} (h : s.Canon) : (s.moveMaster pfn old dst).1.Canon := by
  unfold State.moveMaster
  split
  · exact h.copySectors
  · dsimp only
    exact h.copySectors.modPage

theorem State.Canon.writeMirror {leaf p} (h : s.Canon) : (s.writeMirror leaf p).Canon := by
  unfold State.writeMirror
  dsimp only
  split
  · exact h
  · exact h.physWrite

theorem State.Canon.wake {k i pfn order} (h : s.Canon) : (s.wake k i pfn order).Canon := by
  unfold State.wake
  refine .ite ?_ h
  split
  · exact h.modCrew.raise
  · exact h.waitMoving
  · exact h.modCrew

theorem State.Canon.replayList {pfn l last} (h : s.Canon) : (replayList pfn l last s).Canon := by
  induction l generalizing s last with
  | nil => exact h
  | cons w l ih =>
    cases w with
    | agent e => exact ih (h.fresh.of_mem rfl)
    | slice k i =>
      unfold Machine.replayList
      split
      · dsimp only
        split
        · exact ih h.wake
        · exact ih h.fresh.wake
      · exact ih h.fresh.wake

theorem State.Canon.replayWaiters {pfn} (h : s.Canon) : (s.replayWaiters pfn).Canon :=
  .replayList (.modPage (h.foldl (fun _ _ h => h.dropReplicas)))

theorem State.Canon.settlePage {pfn p} (h : s.Canon) : (s.settlePage pfn p).Canon :=
  h.modPage.writeMirror.replayWaiters

theorem State.Canon.addReplica {pfn d c f src sect copy} (h : s.Canon) : (s.addReplica pfn d c f src sect copy).Canon :=
  .modPage (h.copySectors.ite h)

theorem State.Canon.evict {pfn old} (h : s.Canon) : (s.evict pfn old).Canon := by
  unfold State.evict
  split
  · exact h.copySectors
  · exact h

theorem State.Canon.moveCut {pfn run} (h : s.Canon) : (s.moveCut pfn run).1.Canon := by
  unfold State.moveCut
  dsimp only
  split
  · exact h.moveMaster.modPage
  · exact h.moveMaster.modPage
  · exact h

theorem State.Canon.endRemap {pfn} (h : s.Canon) : (s.endRemap pfn).Canon := by
  unfold State.endRemap
  dsimp only
  split
  · exact h
  · refine h.modPage.replayWaiters.ite (h.modPage.settlePage.ite ?_)
    split
    · exact h.moveCut.moveMaster.settlePage
    · exact h.moveCut.moveMaster.settlePage
    · split
      · exact .settlePage (.addReplica (h.moveCut.moveMaster.ite h.moveCut.moveMaster.addReplica))
      · exact h.moveCut.addReplica.settlePage
    · exact h.moveCut.removeReplicas.settlePage
    · exact h.moveCut.removeReplicas.evict.settlePage
    · exact h.moveCut.modPage.settlePage

/-! ### Machine/Protocol.lean -/

theorem State.Canon.trapWaiting {k i code a} (h : s.Canon) : (s.trapWaiting k i code a).Canon :=
  h.dropGroup.modCrew.raise

theorem State.Canon.cutWaiter {k i} (h : s.Canon) : (s.cutWaiter k i).Canon := by
  unfold State.cutWaiter
  dsimp only
  split
  · exact h.modCrew.double
  · exact h.trapWaiting
  · exact h

theorem State.Canon.cutPage {d pfn} (h : s.Canon) : (s.cutPage d pfn).Canon := by
  unfold State.cutPage
  refine h.ite (h.modPage.foldl (fun _ _ h => ?_))
  split
  · exact h.cutWaiter
  · exact h

theorem State.Canon.fenceDie {d} (h : s.Canon) : (s.fenceDie d).Canon :=
  h.ite (.foldl (.modDie (h.of_mem rfl)) (fun _ _ h => h.cutPage))

theorem State.Canon.modRun {pfn f} (h : s.Canon) : (s.modRun pfn f).Canon :=
  h.modPage

theorem State.Canon.engineRemap {pfn g} (h : s.Canon) : (s.engineRemap pfn g).Canon :=
  h.ite h.startRemap

theorem State.Canon.startReq {pfn q} (h : s.Canon) : (s.startReq pfn q).Canon :=
  h.ite (h.evictRecord.ite (h.modPage.renote.startRemap.ite (h.modPage.replayWaiters.ite h.modPage)))

theorem NextCanon.execRemapStart {pfn goal} (h : s.Canon) : NextCanon (execRemapStart pfn goal s) := by
  unfold Machine.execRemapStart
  refine .next ?_
  split
  · exact h.engineRemap
  · split
    · exact h
    · exact h.startReq

theorem NextCanon.execInvalidation {pfn cache} (h : s.Canon) : NextCanon (execInvalidation pfn cache s) := by
  unfold Machine.execInvalidation
  refine .next ?_
  split
  · exact h.dropEntries.modRun.ite h
  · exact h

theorem NextCanon.execAcknowledge {pfn cache} (h : s.Canon) : NextCanon (execAcknowledge pfn cache s) := by
  unfold Machine.execAcknowledge
  refine .next ?_
  split
  · exact h.modRun.ite h
  · exact h

theorem NextCanon.execAcknowledgeReceipt {pfn cache inc} (h : s.Canon) : NextCanon (execAcknowledgeReceipt pfn cache inc s) := by
  unfold Machine.execAcknowledgeReceipt
  refine .next ?_
  split
  · exact h.modRun.ite h
  · exact h

theorem NextCanon.execRemapComplete {pfn} (h : s.Canon) : NextCanon (execRemapComplete pfn s) := by
  unfold Machine.execRemapComplete
  refine .next ?_
  split
  · exact h.endRemap.ite h
  · exact h

theorem State.Canon.cutDie {pfn d} (h : s.Canon) : (s.cutDie pfn d).Canon := by
  unfold State.cutDie
  dsimp only
  split
  · exact h
  · refine .fenceDie ?_
    split
    · exact h.of_mem rfl
    · exact h.modRun

/-! ### Machine/Fabric.lean -/

theorem State.Canon.meetHost {pa n} (h : s.Canon) : (s.meetHost pa n).Canon := by
  unfold State.meetHost
  dsimp only
  split
  · exact h.of_mem rfl
  · exact h.foldl fun _ _ h => h.meetRoute

theorem State.Canon.hostBytes {pa n} (h : s.Canon) : (s.hostBytes pa n).1.Canon :=
  h.meetHost.usePhys.usePhys

theorem NextCanon.execRead {page offset size src tag} (h : s.Canon) : NextCanon (execRead page offset size src tag s) := by
  unfold Machine.execRead
  refine .next (h.unlessMoving (fun _ h => ?_))
  split
  · exact h
  · split
    · rename_i e
      exact .send (h.agentBytes e)
    · exact h.agentFail

theorem NextCanon.execWrite {page offset data src tag} (h : s.Canon) : NextCanon (execWrite page offset data src tag s) := by
  unfold Machine.execWrite
  refine .next (h.unlessMoving (fun _ h => ?_))
  split
  · exact h
  · split
    · rename_i e
      exact .send (h.agentStore e)
    · exact h.agentFail

theorem State.Canon.serveAtomic {t va k v x} (h : s.Canon) (e : s.serveAtomic t va k v = some x) : x.1.Canon := by
  unfold State.serveAtomic at e
  split at e
  · cases e
  · split at e
    · split at e
      · cases e
      · split at e
        · cases e
        · rename_i er
          split at e
          · cases e
            exact h.agentBytes er
          · exact .of_map_fst e fun _ ew => (h.agentBytes er).agentStore ew
    · cases e

theorem NextCanon.execAtomic {page offset fn op ty operands src tag} (h : s.Canon) :
    NextCanon (execAtomic page offset fn op ty operands src tag s) := by
  unfold Machine.execAtomic
  refine .next (h.unlessMoving (fun _ h => ?_))
  dsimp only
  split
  · exact h
  · split
    · rename_i e
      exact .send (h.serveAtomic e)
    · exact h.ite h.agentFail

theorem NextCanon.execRedread {group offset size src tag} (h : s.Canon) :
    NextCanon (execRedread group offset size src tag s) := by
  unfold Machine.execRedread
  refine .next (h.unlessMoving (fun _ h => ?_))
  split
  · exact h
  · split
    · rename_i e
      exact .send (h.agentBytes e)
    · exact h.agentFail

theorem State.Canon.addPiece {group seq rank off desc bs} (h : s.Canon) : (s.addPiece group seq rank off desc bs).Canon :=
  h.ite (.ite (h.of_mem rfl) (h.of_mem rfl))

theorem State.Canon.dropRequest {r} (h : s.Canon) : (s.dropRequest r).Canon :=
  h.of_mem rfl

theorem State.Canon.failOp {r id} (h : s.Canon) : (s.failOp r id).Canon :=
  h.dropRequest.ite (h.dropRequest.modOp.ite (.modOp (h.of_mem rfl)))

theorem State.Canon.answer {r data} (h : s.Canon) : (s.answer r data).Canon :=
  .ite (h.of_mem rfl) (h.of_mem rfl)

theorem State.Canon.failRequest {r} (h : s.Canon) : (s.failRequest r).Canon := by
  unfold State.failRequest
  dsimp only
  split
  · exact h.failOp
  · refine h.dropRequest.modCrew.ite ?_
    split
    · exact h.answer.ite (h.of_mem rfl)
    · exact h.dropRequest.foldl fun _ _ h => h.trapWaiting

theorem NextCanon.execMemoryReply {request data ok} (h : s.Canon) : NextCanon (execMemoryReply request data ok s) := by
  unfold Machine.execMemoryReply
  refine .next ?_
  split
  · exact h
  · exact h.answer.ite h.failRequest

theorem NextCanon.execFabricTimeout {request} (h : s.Canon) : NextCanon (execFabricTimeout request s) := by
  unfold Machine.execFabricTimeout
  refine .next ?_
  split
  · exact h
  · exact h.failRequest.ite h

theorem NextCanon.execRouteTimeout {crew slice} (h : s.Canon) : NextCanon (execRouteTimeout crew slice s) := by
  unfold Machine.execRouteTimeout
  refine .next (h.ite ?_)
  split
  · exact h.modCrew.double
  · exact h.trapWaiting
  · exact h.fenceDie
  · exact h

theorem NextCanon.execPendingWriteComplete {crew} (h : s.Canon) : NextCanon (execPendingWriteComplete crew s) := by
  unfold Machine.execPendingWriteComplete
  refine .next (.modCrew ?_)
  split
  · exact h.landFlight
  · exact h

theorem State.Canon.onOp {id what f} (h : s.Canon) (hf : ∀ (s : State) x, s.Canon → (f s x).Canon) :
    (s.onOp id what f).Canon := by
  unfold State.onOp
  split
  · exact .ite (hf _ _ h) h
  · exact h

/-! ### Machine/Faultq.lean -/

theorem State.Canon.closeFault {t idx} (h : s.Canon) : (s.closeFault t idx).Canon :=
  h.modTenant

theorem State.Canon.replaySlices {k is addr trap} (h : s.Canon) : (s.replaySlices k is addr trap).Canon :=
  h.modCrew.ite (h.modCrew.foldl (fun _ _ h => h.raise))

theorem State.Canon.unfreeze {k} (h : s.Canon) : (s.unfreeze k).Canon := by
  unfold State.unfreeze
  split
  · exact h
  · exact h.modCrew.deliver

theorem State.Canon.resumeOp {id trap} (h : s.Canon) : (s.resumeOp id trap).Canon :=
  h.modOp

theorem State.Canon.replay {t idx trap} (h : s.Canon) : (s.replay t idx trap).Canon := by
  unfold State.replay
  dsimp only
  split
  · exact h
  · split
    · exact h.closeFault.replaySlices
    · exact h.closeFault.unfreeze
    · exact h.closeFault.resumeOp

theorem State.Canon.appendWaiting {t n} (h : s.Canon) : (appendWaiting t n s).Canon := by
  induction n generalizing s with
  | zero => exact h
  | succ n ih =>
    unfold Machine.appendWaiting
    dsimp only
    split
    · exact h
    · split
      · exact ih h.modTenant
      · exact .ite h (ih h.modTenant.writeFault)

theorem State.Canon.pollTail {t} (h : s.Canon) : (s.pollTail t).Canon :=
  h.appendWaiting

/-! ### Machine/Launching.lean -/

theorem State.Canon.setJob {id k} (h : s.Canon) : (s.setJob id k).Canon :=
  h.of_mem rfl

theorem State.Canon.enlist {p go} (h : s.Canon) (hgo : ∀ (s : State) x, s.Canon → (go s x).Canon) : (s.enlist p go).Canon :=
  .ite (hgo _ _ (h.of_mem rfl)) (h.of_mem rfl)

theorem State.Canon.finishPacket {p job} (h : s.Canon) : (s.finishPacket p job).Canon :=
  .endJob (.writeDone (h.ite h.complWord.complWord))

theorem State.Canon.newLaunch {p job tag args} (h : s.Canon) : (s.newLaunch p job tag args).Canon :=
  .ite (.discardLaunch (.setJob (h.of_mem rfl))) (.setJob (h.of_mem rfl))

theorem State.Canon.rejectLaunch {p} (h : s.Canon) : (s.rejectLaunch p).Canon :=
  h.queueError.writeDone

theorem State.Canon.agentAcquire {t va} (h : s.Canon) : (s.agentAcquire t va).Canon := by
  unfold State.agentAcquire
  split
  · split
    · exact h.of_mem rfl
    · exact h.acquire
  · exact h

theorem State.Canon.unmapped {t queue va} (h : s.Canon) : (s.unmapped t queue va).Canon :=
  h.agentFail.queueError

theorem State.Canon.launchPacket {p job} (h : s.Canon) : (s.launchPacket p job).Canon := by
  unfold State.launchPacket
  refine h.rejectLaunch.endJob.ite ?_
  split
  · exact h
  · split
    · exact h.newLaunch
    · split
      · rename_i e
        exact .newLaunch (h.agentBytes e)
      · exact h.unmapped.endJob

theorem State.Canon.depZero {t va} (h : s.Canon) : (depZero t s va).1.Canon := by
  unfold Machine.depZero
  refine h.ite_fst ?_
  split
  · rename_i e
    exact h.agentAcquire.agentBytes e
  · exact h

theorem State.Canon.depsZero {p} (h : s.Canon) : (s.depsZero p).1.Canon :=
  h.foldl_fst fun _ _ h => h.depZero

theorem State.Canon.signalWord {p} (h : s.Canon) : (s.signalWord p).Canon :=
  h.agentFail.getD fun _ e => h.modWord e

theorem State.Canon.copyBytes {t fuel src dst n} (h : s.Canon) : (copyBytes t fuel s src dst n).Canon := by
  induction fuel generalizing s src dst n with
  | zero => exact h
  | succ fuel ih =>
    unfold Machine.copyBytes
    refine h.ite ?_
    dsimp only
    split
    · exact h.agentFail
    · rename_i er
      split
      · exact .agentFail (h.agentBytes er)
      · rename_i ew
        exact ih (.agentStore (h.agentBytes er) ew)

theorem State.Canon.copyData {p} (h : s.Canon) : (s.copyData p).Canon :=
  h.copyBytes

theorem State.Canon.startPacket {p job} (h : s.Canon) : (s.startPacket p job).Canon := by
  unfold State.startPacket
  split
  · exact h.finishPacket
  · exact h.launchPacket
  · exact h.setJob
  · exact h.signalWord.finishPacket
  · exact h.copyData.setJob

theorem State.Canon.beginPacket {p job} (h : s.Canon) : (s.beginPacket p job).Canon :=
  h.ite (h.unlessMoving (fun _ h => h.startPacket))

theorem State.Canon.takePacket {p} (h : s.Canon) : (s.takePacket p).Canon :=
  h.queueError.ite (h.enlist (fun _ _ h => h.beginPacket))

/-! ### Machine/Queues.lean -/

theorem State.Canon.takeCcb {t} (h : s.Canon) : (s.takeCcb t).Canon :=
  .modTenant (h.usePhys.of_mem rfl)

theorem State.Canon.activate {t q} (h : s.Canon) : (s.activate t q).Canon := by
  unfold State.activate
  extract_lets d u ridx
  have hu : u.Canon := h.usePhys
  clear_value u ridx d
  split
  rename_i v next e
  refine .setQueue ?_
  split at e
  · rename_i eb
    cases e
    exact hu.agentBytes eb
  · cases e
    exact hu.agentFail

theorem State.Canon.activateQueue {t q} (h : s.Canon) : (s.activateQueue t q).Canon :=
  h.unlessMoving fun _ h => h.activate

theorem State.Canon.abortQueue {t q} (h : s.Canon) : (s.abortQueue t q).Canon :=
  h.drainQueue.discardLaunches

theorem State.Canon.queueControl {t v} (h : s.Canon) : (s.queueControl t v).Canon := by
  unfold State.queueControl
  dsimp only
  split
  · exact h.activateQueue
  · exact h.drainQueue
  · exact h.abortQueue
  · exact h

theorem State.Canon.readPacket {t q i} (h : s.Canon) : (s.readPacket t q i).Canon := by
  unfold State.readPacket
  extract_lets x va r u v
  have hr : r.1.Canon := by
    dsimp only [r]
    split
    · rename_i e
      exact h.agentBytes e
    · exact h
  have hu : u.Canon := hr.modTenant
  have hv : v.Canon := hu.agentFail.getD fun _ e => hu.agentStore e
  split
  · exact hv.takePacket
  · exact hv.unmapped

theorem State.Canon.readPackets {t q widx n} (h : s.Canon) : (readPackets t q widx n s).Canon := by
  induction n generalizing s with
  | zero => exact h
  | succ n ih => exact .ite (ih h.readPacket) h

theorem State.Canon.serveQueue {t q} (h : s.Canon) : (s.serveQueue t q).Canon := by
  unfold State.serveQueue
  refine h.ite ?_
  split
  · rename_i e
    exact .readPackets (h.agentAcquire.agentBytes e)
  · exact h.agentFail

theorem NextCanon.packetOf {ty p} (h : s.Canon) : NextCanon (packetOf ty p s) := by
  unfold Machine.packetOf
  refine .next (h.ite ?_)
  dsimp only
  split
  · exact .beginPacket (h.of_mem rfl)
  · exact .takePacket (h.of_mem rfl)

theorem NextCanon.execBarrierAndComplete {job} (h : s.Canon) : NextCanon (execBarrierAndComplete job s) := by
  unfold Machine.execBarrierAndComplete
  refine .next ?_
  dsimp only
  split
  · exact h.unlessMoving fun _ h => h.depsZero.finishPacket.ite h.depsZero
  · exact h

theorem NextCanon.execCopyPacketComplete {job} (h : s.Canon) : NextCanon (execCopyPacketComplete job s) := by
  unfold Machine.execCopyPacketComplete
  refine .next ?_
  split
  · exact h.unlessMoving fun _ h => h.finishPacket
  · exact h

/-! ### Machine/Csr.lean -/

theorem State.Canon.snapshot (h : s.Canon) : s.snapshot.Canon :=
  .ite (h.of_mem rfl) (h.of_mem rfl)

theorem State.Canon.releaseSnap {v} (h : s.Canon) : (s.releaseSnap v).Canon :=
  .ite (h.of_mem rfl) h

theorem State.Canon.unfence {v} (h : s.Canon) : (s.unfence v).Canon :=
  .ite (.foldl (h.of_mem rfl) (fun _ _ h => h.queueError)) h

theorem State.Canon.writeConn {n v} (h : s.Canon) : (s.writeConn n v).Canon :=
  h.ite (.ite (.ite (h.of_mem rfl) (h.of_mem rfl)) (h.of_mem rfl))

theorem State.Canon.retryRecords (h : s.Canon) : s.retryRecords.Canon :=
  h.foldl fun _ _ h => h.deliverPending

theorem State.Canon.endDrain {n} (h : s.Canon) : (s.endDrain n).Canon :=
  .ite (.retryRecords (h.of_mem rfl)) h

theorem State.Canon.writeGroup {n v} (h : s.Canon) : (s.writeGroup n v).Canon :=
  h.of_mem rfl

theorem State.Canon.securityRead (h : s.Canon) : s.securityRead.1.Canon :=
  h.freeVal

theorem State.Canon.csrRead {n} (h : s.Canon) : (s.csrRead n).1.Canon := by
  unfold State.csrRead
  refine h.securityRead.ite_fst (h.ite_fst ?_)
  split <;> exact h

theorem State.Canon.csrPut {n v} (h : s.Canon) : (s.csrPut n v).Canon :=
  h.of_mem rfl

theorem State.Canon.csrWrite {n v} (h : s.Canon) : (s.csrWrite n v).Canon := by
  unfold State.csrWrite
  refine h.ite (.ite (h.writeGroup.ite h) (h.writeConn.ite ?_))
  split
  · exact h.csrPut
  · exact h.modTenant
  · exact h.takeCcb.ite h
  · exact h.queueControl
  · exact h.replay
  · exact h.modTenant
  · exact h.modTenant
  · exact h.csrPut
  · exact h.csrPut
  · exact h.unfence
  · exact h.of_mem rfl
  · exact h.csrPut
  · exact h.csrPut
  · exact h.snapshot
  · exact h.releaseSnap
  · exact h

theorem State.Canon.barBytes {off n} (h : s.Canon) : (s.barBytes off n).1.Canon :=
  h.ite_fst h.csrRead

/-! ### Machine/Sync.lean -/

theorem State.Canon.arriveBar {p i level n how} (h : s.Canon) : (s.arriveBar p i level n how).Canon := by
  unfold State.arriveBar
  split
  · exact h.modParty.checkPartyBar
  · exact h.modParty.arriveOuting
  · exact h.endPartyPhase
  · exact h.drain.endOutingPhase
  · exact h
  · exact h

theorem NextCanon.barForm {f stay} (h : s.Canon) : NextCanon (barForm f s stay) := by
  unfold Machine.barForm
  refine .withIssue h fun _ _ h => h.crossArrive fun _ _ h => ?_
  dsimp only
  split
  · exact h.modCrew
  · exact h.awaitEarlier.ite (h.modCrew.ite h.modCrew.arriveBar)

theorem State.Canon.waitPhase {iss is level n ph} (h : s.Canon) : (waitPhase s iss is level n ph).Canon := by
  unfold Machine.waitPhase
  dsimp only
  split
  · exact h.advance
  · exact h.dropParty.leaveBar.ite h.modCrew

theorem NextCanon.execBarcfg {f} (h : s.Canon) : NextCanon (execBarcfg f s) := by
  unfold Machine.execBarcfg
  refine .withIssue h fun _ _ h => ?_
  dsimp only
  split
  · exact h.advance
  · exact .ite (h.trapGang.ite h.modParty.advance) (h.trapGang.ite h.modOutingBar.advance)

theorem State.Canon.gridChecked {iss illegal go} (h : s.Canon) (hgo : ∀ x y, (go x y).Canon) :
    (gridChecked s iss illegal go).Canon := by
  unfold Machine.gridChecked
  dsimp only
  split
  · exact h.trapGang
  · exact h.trapGang.ite (h.raiseAll.ite (hgo _ _))

theorem NextCanon.gridForm {f stay} (h : s.Canon) : NextCanon (gridForm f s stay) :=
  .withIssue h fun _ _ h => h.gridChecked fun _ _ => h.awaitEarlier.ite h.modCrew.arriveGridCrew

theorem State.Canon.withSlot {iss slot go} (h : s.Canon) (hgo : ∀ x, (go x).Canon) : (withSlot s iss slot go).Canon := by
  unfold Machine.withSlot
  split
  · exact .ite (hgo _) h.trapGang
  · exact h.trapGang

theorem State.Canon.drainPost {c p scope} (h : s.Canon) : (drainPost s c p scope).Canon :=
  h.ite h.mergeRange

theorem State.Canon.endSigwait {iss p slot} (h : s.Canon) : (endSigwait s iss p slot).Canon := by
  unfold Machine.endSigwait
  dsimp only
  split
  · exact h.waitMoving
  · exact h.dropRange.advance

theorem NextCanon.execSigwait {f} (h : s.Canon) : NextCanon (execSigwait f s) := by
  unfold Machine.execSigwait
  refine .withIssue h fun _ _ h => ?_
  dsimp only
  split
  · exact h.withSlot fun _ => h.endSigwait
  · exact h.withSlot fun _ => h.endSigwait
  · exact h.withKonst fun _ _ h => h.withSlot fun _ => h.endSigwait.ite h.modCrew

theorem State.Canon.observe {k cls} (h : s.Canon) : (observe s k cls).Canon :=
  .modCrew (h.foldl (fun _ _ h => h.dropRange))

theorem State.Canon.reportFailed {iss cls} (h : s.Canon) : (reportFailed s iss cls).Canon := by
  unfold Machine.reportFailed
  dsimp only
  split
  · exact h.advance
  · exact h.modCrew.advance.trapGang

theorem NextCanon.execWaitcnt {f} (h : s.Canon) : NextCanon (execWaitcnt f s) := by
  unfold Machine.execWaitcnt
  refine .withIssue h fun _ _ h => h.modCrew.ite (h.reportFailed.ite ?_)
  split
  · exact h.waitMoving
  · exact h.observe.reportFailed

/-! ### Machine/Saves.lean -/

theorem State.Canon.putFields {base l} (h : s.Canon) : (s.putFields base l).Canon :=
  h.foldl fun _ _ h => h.memWrite

theorem State.Canon.writeArea {p area} (h : s.Canon) : (s.writeArea p area).Canon := by
  unfold State.writeArea
  refine .memCopy (.memCopy (.putFields (h.memZero.putFields.foldl (fun _ _ h => ?_))))
  split
  · exact h.putFields.putFields
  · exact h

theorem State.Canon.partyAgain {p area} (h : s.Canon) : (s.partyAgain p area).Canon :=
  h.memCopy.memCopy.modParty

/-! ### Machine/Parties.lean -/

theorem State.Canon.moveQuotas {moves} (h : s.Canon) : (s.moveQuotas moves).Canon :=
  h.foldl fun _ _ h => h.modParty

theorem State.Canon.evictFrame {d c f} (h : s.Canon) : (s.evictFrame d c f).Canon :=
  h.foldl fun _ _ h => h.askEviction

theorem State.Canon.seat {p k i c} (h : s.Canon) : (s.seat p k i c).Canon :=
  h.of_mem rfl

theorem State.Canon.enterParty {l index core plan} (h : s.Canon) : (s.enterParty l index core plan).Canon :=
  .foldl (.of_mem (h.fresh.moveQuotas.of_mem rfl) rfl) fun _ _ h => h.seat

theorem State.Canon.openParty {p} (h : s.Canon) : (s.openParty p).Canon :=
  h.drain.dropParty.addHeld

theorem State.Canon.enterOutings {l from_ n} (h : s.Canon) : (s.enterOutings l from_ n).Canon :=
  h.foldl fun _ _ h => h.of_mem rfl

theorem State.Canon.seatAll {l cores index x y} (h : x.s.Canon) (e : seatAll l cores index x = some y) : y.s.Canon := by
  induction cores generalizing index x with
  | nil =>
    cases e
    exact h
  | cons core cores ih =>
    unfold Machine.seatAll at e
    dsimp only at e
    split at e
    · cases e
    · exact ih h.enterParty e

theorem State.Canon.placeOn {l cores} (h : s.Canon) : (s.placeOn l cores).Canon := by
  unfold State.placeOn
  refine h.ite ?_
  dsimp only
  split
  · exact h
  · rename_i e
    have hx := h.seatAll e
    exact .ite (h.foldl fun _ _ h => h.evictFrame) (.foldl hx.enterOutings.modLaunch fun _ _ h => h.openParty)

theorem State.Canon.retireWords {p} (h : s.Canon) : (s.retireWords p).Canon :=
  .ite (h.ite h.complWord.complWord) (.complWord (h.ite h.complWord.complWord))

theorem State.Canon.retireParty {p} (h : s.Canon) : (s.retireParty p).Canon :=
  h.drain.retireWords.freeParty.modLaunch.partyRetired.finishLaunch

theorem State.Canon.preempt {p} (h : s.Canon) : (s.preempt p).Canon :=
  .ite (h.of_mem rfl) h

theorem State.Canon.dropFaults {p} (h : s.Canon) : (s.dropFaults p).Canon :=
  h.of_mem rfl

theorem State.Canon.saveParty {p} (h : s.Canon) : (s.saveParty p).Canon :=
  h.drain.dropFaults.modLaunch.freeParty.modParty.ite h.drain.dropFaults.fresh.writeArea.freeParty.modParty

theorem State.Canon.deliverAll {ks} (h : s.Canon) : (s.deliverAll ks).Canon :=
  h.foldl fun _ _ h => h.deliverPending

theorem State.Canon.refuseRestore {p} (h : s.Canon) : (s.refuseRestore p).Canon :=
  h.discardParty.queueError.deliverAll

theorem State.Canon.reenter {p core area plan} (h : s.Canon) : (s.reenter p core area plan).Canon :=
  .foldl (.modParty (.moveQuotas (h.partyAgain.ite h.modParty))) fun _ _ h => h.seat

theorem State.Canon.departDone {p} (h : s.Canon) : (s.departDone p).Canon :=
  .foldl (h.foldl (fun _ _ h => h.depart)) fun _ _ h => h.depart.depart

theorem State.Canon.reseatAll {l x y} (h : x.s.Canon) (e : reseatAll l x = some y) : y.s.Canon := by
  induction l generalizing x with
  | nil =>
    cases e
    exact h
  | cons p l ih =>
    unfold Machine.reseatAll at e
    dsimp only at e
    split at e
    · cases e
    · exact ih h.reenter e

theorem State.Canon.restoreOn {p cores} (h : s.Canon) : (s.restoreOn p cores).Canon := by
  unfold State.restoreOn
  refine h.ite ?_
  dsimp only
  split
  · exact h.refuseRestore
  · split
    · exact h
    · rename_i e
      have hx := h.reseatAll e
      exact .ite (h.foldl fun _ _ h => h.evictFrame)
        (.foldl (.foldl (hx.of_mem rfl) fun _ _ h => h.openParty) fun _ _ h => h.departDone.deliverAll)

/-! ### Machine/Dies.lean -/

theorem State.Canon.settleAtReset {d pfn} (h : s.Canon) : (s.settleAtReset d pfn).Canon :=
  have hdrop := h.lapseHolds.dropAll
  h.ite (hdrop.modPage.settlePage.ite (hdrop.modPage.removeReplicas.settlePage.ite
    (h.lapseHolds.modPage.ite h.lapseHolds.modPage.dropAll.settlePage)))

theorem State.Canon.backToCheckpoint {p q} (h : s.Canon) : (s.backToCheckpoint p q).Canon :=
  h.dropFaults.freeParty.modParty

theorem State.Canon.backToEntry {p} (h : s.Canon) : (s.backToEntry p).Canon :=
  h.dropFaults.freeParty.modLaunch.modParty

theorem State.Canon.partyAtReset {d p} (h : s.Canon) : (s.partyAtReset d p).Canon := by
  unfold State.partyAtReset
  refine h.ite ?_
  split
  case h_1 | h_2 => exact h
  case h_3 =>
    split
    · exact h.backToCheckpoint
    · exact h
  all_goals
    split
    · exact h.backToCheckpoint
    · exact h.backToEntry

theorem State.Canon.resetDie {d} (h : s.Canon) : (s.resetDie d).Canon := by
  unfold State.resetDie
  extract_lets told u v
  have hu : u.Canon := h.foldl fun _ _ h => h.settleAtReset
  have hv : v.Canon := hu.foldl fun _ _ h => h.partyAtReset
  clear_value v
  exact .foldl (hv.of_mem rfl) fun _ _ h => h.queueError

theorem State.Canon.cleanMaster {d pfn} (h : s.Canon) : (s.cleanMaster d pfn).Canon := by
  unfold State.cleanMaster
  refine .ite ?_ (h.lapseHolds.ite h)
  split
  · exact .modPage (.copySectors (h.lapseHolds.ite h))
  · exact h.lapseHolds.ite h

theorem State.Canon.endCheckpoint {d} (h : s.Canon) : (s.endCheckpoint d).Canon := by
  unfold State.endCheckpoint
  extract_lets u v
  have hu : u.Canon := h.foldl fun _ _ h => h.mergeDirty
  have hv : v.Canon := hu.foldl fun _ _ h => h.cleanMaster
  clear_value u v
  exact hv.of_mem rfl

/-! ### Machine/Engine.lean -/

theorem State.Canon.issueMerge {c srcs dst} (h : s.Canon) : (s.issueMerge c srcs dst).1.Canon := by
  unfold State.issueMerge
  dsimp only
  split
  · exact .ite_fst (h.foldl (fun _ _ h => h.mergeRange)) (.dropOrLeave (h.foldl (fun _ _ h => h.mergeRange)))
  · exact h.foldl fun _ _ h => h.mergeRange

theorem State.Canon.withMerge {c srcs dst go} (h : s.Canon) (hgo : ∀ (s : State) x, s.Canon → (go s x).Canon) :
    (withMerge s c srcs dst go).Canon :=
  hgo _ _ h.issueMerge

theorem State.Canon.startOp {iss is cls kind desc writes group seq dst after} (h : s.Canon) :
    (s.startOp iss is cls kind desc writes group seq dst after).Canon :=
  .modCrew (h.of_mem rfl)

theorem State.Canon.withRoom {go : State} {iss cls} (h : s.Canon) (h' : go.Canon) : (withRoom s iss cls go).Canon :=
  h.modCrew.ite h'

theorem State.Canon.descTrap {iss cls reason} (h : s.Canon) : (descTrap s iss cls reason).Canon :=
  h.trapGang

theorem NextCanon.execCopy {f} (h : s.Canon) : NextCanon (execCopy f s) := by
  unfold Machine.execCopy
  refine .withIssue h fun _ _ h => h.withRoom ?_
  dsimp only
  split
  · exact h.descTrap
  · exact h.withMerge fun _ _ h => h.startOp

theorem NextCanon.rowInstr {f kind scatter} (h : s.Canon) : NextCanon (rowInstr f s kind scatter) := by
  unfold Machine.rowInstr
  refine .withIssue h fun _ _ h => h.withRoom ?_
  dsimp only
  split
  · exact h.descTrap
  · exact h.withMerge fun _ _ h => h.startOp

theorem NextCanon.execColl {f} (h : s.Canon) : NextCanon (execColl f s) := by
  unfold Machine.execColl
  refine .withIssue h fun _ _ h => h.withRoom ?_
  dsimp only
  split
  · exact h.descTrap
  · exact h.withMerge fun _ _ h => .startOp (h.of_mem rfl)

theorem State.Canon.laneChecks {iss f xl bad go} (h : s.Canon) (hgo : ∀ (s : State), s.Canon → (go s).Canon) :
    (laneChecks s iss f xl bad go).Canon := by
  unfold Machine.laneChecks
  refine .ite (hgo _ h) (h.foldl (fun _ _ h => ?_))
  dsimp only
  split
  · exact h.raise
  · exact h.xlatFault
  · exact h

theorem State.Canon.laneAdvance {iss ops} (h : s.Canon) : (s.laneAdvance iss ops).Canon :=
  h.modCrew

theorem State.Canon.rloadSlice {f iss c i} (h : s.Canon) : (rloadSlice f iss s c i).Canon := by
  unfold Machine.rloadSlice
  dsimp only
  split
  · exact h.raise
  · split
    · exact h.raise
    · exact h
    · refine h.raise.ite ?_
      split
      · exact h.linkFault
      · exact h.raise.ite (h.commitMem.ite h.takeOff)

/-! ### Machine/Life.lean -/

theorem State.Canon.resetAll (h : s.Canon) : s.resetAll.Canon := swfFrom_filter _ _ _ h

theorem State.Canon.loadCircuits (h : s.Canon) : s.loadCircuits.Canon :=
  h.of_mem rfl

theorem State.Canon.startThreads (h : s.Canon) : s.startThreads.Canon :=
  h.foldl fun _ _ h => .ite (h.of_mem rfl) h

/-! ### Machine/Matrix.lean -/

theorem NextCanon.matrixPass {diagonal f} (h : s.Canon) : NextCanon (matrixPass diagonal f s) := by
  unfold Machine.matrixPass
  refine .withIssue h fun _ _ h => h.modCrew.ite ?_
  dsimp only
  split
  · exact h.modCrew.raise
  · exact h.setCrew

theorem State.Canon.accInstr {iss a ops effect} (h : s.Canon) : (accInstr s iss a ops effect).Canon := by
  unfold Machine.accInstr
  refine h.foldl fun _ _ h => ?_
  split
  · exact h.raise
  · exact h.raise.ite h.modCrew

/-! ### Machine/Memctl.lean -/

theorem State.Canon.fenceDrop {iss is go} (h : s.Canon) (hgo : ∀ (s : State), s.Canon → (go s).Canon) :
    (fenceDrop s iss is go).Canon := by
  unfold Machine.fenceDrop
  dsimp only
  split
  · exact h.waitMoving
  · exact hgo _ h.dropRange

theorem State.Canon.fenceWide {iss go} (h : s.Canon) (hgo : ∀ (s : State), s.Canon → (go s).Canon) :
    (fenceWide s iss go).Canon :=
  h.withPerformed fun _ _ h' => h'.fenceDrop fun _ h' => hgo _ h'

theorem State.Canon.lookAt {t va} (h : s.Canon) : (s.lookAt t va).Canon :=
  h.ite h.useWalk

theorem State.Canon.placePage {c place va} (h : s.Canon) : (placePage s c place va).1.Canon := by
  unfold Machine.placePage
  dsimp only
  split
  · exact h.lookAt
  · split
    · rename_i e
      split at e
      · exact h.lookAt.placeNear e
      · cases e
      · exact h.lookAt.placeFar e
      · exact h.lookAt.placeHome e
    · exact h.lookAt

theorem NextCanon.execPlace {f} (h : s.Canon) : NextCanon (execPlace f s) := by
  unfold Machine.execPlace
  refine .withIssue h fun _ _ h => ?_
  dsimp only
  split
  · exact h.advance
  · exact .ite (.advance (h.foldl_fst (fun _ _ h => h.placePage))) (.modCrew (h.foldl_fst (fun _ _ h => h.placePage)))

theorem NextCanon.execPins {f} (h : s.Canon) : NextCanon (execPins f s) := by
  unfold Machine.execPins
  refine .withIssue h fun _ _ h => ?_
  dsimp only
  split
  · exact .ite (h.lookAt.modParty.modCrew.ite h.lookAt.modCrew) (h.lookAt.waitMoving.ite
      (h.lookAt.modCrew.ite (h.lookAt.modParty.modCrew.ite h.lookAt.modCrew)))
  · exact h.lookAt.modCrew

theorem State.Canon.invalidatePage {t va} (h : s.Canon) : (invalidatePage s t va).Canon := by
  unfold Machine.invalidatePage
  dsimp only
  split
  · exact h.of_mem rfl
  · exact .modPage (.lapseHolds (h.of_mem rfl))

theorem State.Canon.homePage {t va} (h : s.Canon) : (homePage s t va).1.Canon := by
  unfold Machine.homePage
  dsimp only
  split
  · exact h
  · refine .ite_fst (h.ite h.askRemap) ?_
    split
    · exact h
    · exact h
    · exact h.modPage
    · exact h.askRemap
    · exact h.askRemap
    · exact h.askRemap

theorem State.Canon.homePages {t pages} (h : s.Canon) : (homePages s t pages).1.Canon :=
  h.foldl_fst fun _ _ h => h.lookAt.homePage

theorem NextCanon.execPinv {f} (h : s.Canon) : NextCanon (execPinv f s) := by
  unfold Machine.execPinv
  refine .withIssue h fun _ _ h => h.privileged (h.fenceWide (fun _ h => ?_))
  dsimp only
  split
  · exact .waitMoving (h.homePages.ite_fst h)
  · exact .modCrew (h.homePages.ite_fst h)
  · exact .ite (.modCrew (h.homePages.ite_fst h)) (.advance (.foldl (h.homePages.ite_fst h) (fun _ _ h => h.invalidatePage)))

/-! ### Machine/System.lean -/

theorem State.Canon.spawn {p x} (h : s.Canon) (e : s.spawn p = some x) : x.1.Canon := by
  unfold State.spawn at e
  split at e
  · cases e
    exact h
  · split at e
    · cases e
      exact h.rejectLaunch
    · exact .of_map_fst e fun _ _ => .newLaunch (h.fresh.of_mem rfl)

theorem NextCanon.execSpawn {f} (h : s.Canon) : NextCanon (execSpawn f s) := by
  unfold Machine.execSpawn
  refine .withIssue h fun _ _ h => h.privileged (h.withPerformed (fun _ _ h => ?_))
  split
  · rename_i e
    exact .modCrew (h.mergeRange.spawn e)
  · exact h.modCrew

theorem State.Canon.joinEnds {iss a tgt again} (h : s.Canon) (hagain : ∀ (s : State), s.Canon → (again s).Canon) :
    (joinEnds s iss a tgt again).Canon := by
  unfold Machine.joinEnds
  dsimp only
  split
  · exact hagain _ h
  · exact hagain _ h.markAway
  · refine .advance (.dropRange ?_)
    split
    · exact h.touchFor.acquire
    · exact h.touchFor.acquire
    · exact h.touchFor.loadLane

theorem State.Canon.joinRead {iss a thr} (h : s.Canon) : (joinRead s iss a thr).Canon := by
  unfold Machine.joinRead
  refine h.trapLive.ite ?_
  dsimp only
  split
  · refine h.linkFault.ite (h.modCrew.ite (.ite ?_ (.ite
      (.joinEnds (h.atHome fun _ h => h.readTgt) fun _ h => h.modCrew)
      (.modCrew (.touchFor (h.atHome fun _ h => h.readTgt))))))
    split
    · exact h.request.modCrew
    · split
      · exact h.modCrew
      · exact .ite (.joinEnds (h.of_mem rfl) (fun _ h => h.modCrew)) (.modCrew (.request (h.of_mem rfl)))
  · exact h.modCrew
  · exact h.xlatFault

theorem NextCanon.execJoinw {f} (h : s.Canon) : NextCanon (execJoinw f s) := by
  unfold Machine.execJoinw
  refine .withIssue h fun _ _ h => ?_
  dsimp only
  split
  · exact h.joinRead
  · exact h.withKonst fun _ _ h => h.joinRead

theorem NextCanon.execJoinwReread {crew slice} (h : s.Canon) : NextCanon (execJoinwReread crew slice s) := by
  unfold Machine.execJoinwReread
  refine .next ?_
  dsimp only
  split
  · exact h.modCrew
  · exact h

/-! ### Machine/Work.lean -/

theorem State.Canon.modWalk {l w f} (h : s.Canon) : (s.modWalk l w f).Canon :=
  h.modLaunch

theorem NextCanon.execTwalk {f} (h : s.Canon) : NextCanon (execTwalk f s) := by
  unfold Machine.execTwalk
  refine .withIssue h fun _ _ h => .modCrew ?_
  dsimp only
  split
  · exact h
  · exact h.ite h.modWalk

theorem State.Canon.nextTile {c w} (h : s.Canon) : (s.nextTile c w).1.Canon := by
  unfold State.nextTile
  dsimp only
  split
  · exact h
  · exact h.ite_fst h.modWalk

theorem State.Canon.serveLanes {k c d l} (h : s.Canon) : (serveLanes k c d s l).1.Canon := by
  induction l generalizing s with
  | nil => exact h
  | cons x l ih =>
    unfold Machine.serveLanes
    refine .ite_fst h ?_
    extract_lets u tile v
    have hu : u.Canon := by
      refine .ite h ?_
      split
      · rename_i e
        exact .modCrew (h.nextTile.of_fst e)
      · rename_i e
        exact .modCrew (h.nextTile.of_fst e)
    exact .ite_fst hu (ih hu.modCrew)

theorem NextCanon.execRefill {f} (h : s.Canon) : NextCanon (execRefill f s) := by
  unfold Machine.execRefill
  refine .withIssue h fun _ _ h => h.serveLanes.modCrew.foldl fun _ _ h => ?_
  split
  · exact h.raise
  · exact h

/-! ### Machine/Dispatch.lean -/

/-- Every instruction and every step of the device keeps memory in its canonical form. -/
theorem NextCanon.exec {i : Instr} (h : s.Canon) : NextCanon (exec i s) := by
  cases i <;> dsimp only [Machine.exec]
  case nop => exact .withIssue h fun _ _ h => h.advance
  case exit =>
    exact .withIssue h fun _ _ h => .settle (.deliverPending (h.modCrew.sliceRetired.crewRetired.ite h.modCrew.sliceRetired))
  case regang | leave => exact .withIssue h fun _ _ h => h.modCrew.settle
  case ret => exact .withIssue h fun _ _ h => h.foldl fun _ _ h => h.trapLive.ite h.modCrew
  case trap | brk => exact .withIssue h fun _ _ h => h.raiseAll
  case idem | vote => exact .withIssue h fun _ _ h => h.crossArrive fun _ _ h => h.modCrew
  case idemend | br | call => exact .withIssue h fun _ _ h => h.modCrew
  case syscall => exact .withIssue h fun _ _ h => h.privileged h.raiseAll
  case eret => exact .execEret h
  case snap => exact .withIssue h fun _ _ h => h.privileged h.snapshot.advance
  case csrr => exact .withIssue h fun _ _ h => h.privileged (h.fenceWide (fun _ h => h.csrRead.modCrew))
  case csrw => exact .withIssue h fun _ _ h => h.privileged (h.fenceWide (fun _ h => h.csrWrite.advance))
  case spawn => exact .execSpawn h
  case joinw => exact .execJoinw h
  case iadd | isub | imul | imin | imax => exact .int1 h
  case imulh | iabs | imad | mov | popc | clz | brev | bfi | ffma | frnd | cvt => exact .withIssue h fun _ _ h => h.aluInstr
  case lea | sel => exact .withIssue h fun _ _ h => h.withKonst fun _ _ h => h.uniPlain.ite h.vecInstr
  case movk | xget => exact .withIssue h fun _ _ h => h.uniPlain.ite h.vecInstr
  case sread => exact .execSread h
  case swrite => exact .withIssue h fun _ _ h => h.uniPlain.ite h.modCrew.vecInstr
  case band | bor | bxor | bandn | shl | shr | sar | bfx => exact .bitop h
  case icmp | fcmp => exact .withIssue h fun _ _ h => h.cmpInstr
  case fadd | fmul | fmin | fmax => exact .flt2 h
  case frcp | frsq | fsqrt | fexp2 | flog2 | fsinpi | fcospi => exact .fsp h
  case qpack | qunpk => exact .withIssue h fun _ _ h => h.vecInstr
  case shfl => exact .withIssue h fun _ _ h => h.withKonst fun _ _ h => h.crossLanes
  case matchEq => exact .withIssue h fun _ _ h => h.crossLanes
  case redux | scan => exact .reduction h
  case pand | por | pxor | pandn | pmov => exact .predop h
  case pcnt => exact .withIssue h fun _ _ h => h.uniPlain
  case win | xset => exact .withIssue h fun _ _ h => h.withKonst fun _ _ h => h.trapGang.ite h.uniPlain
  case xld => exact .withIssue h fun _ _ h => h.vecInstr.modCrew
  case split => exact .withIssue h fun _ _ h => h.trapGang.ite h.fresh.modCrew
  case lpool => exact .withIssue h fun _ _ h => h.trapLive.ite h.modCrew
  case ldl => exact .execLdl h
  case ld | lds => exact .withIssue h fun _ _ h => h.memSlices fun _ _ _ _ h => h.loadSlice
  case st | sts => exact .withIssue h fun _ _ h => h.memSlices fun _ _ _ _ h => h.storeSlice
  case ldu =>
    exact .withIssue h fun _ _ h => h.uniAccess fun _ _ _ _ h => h.acquireGate fun _ h =>
      h.touchLane.takeOff.ite h.loadHere.modCrew
  case stu => exact .withIssue h fun _ _ h => h.uniAccess fun _ _ _ _ h => h.storeAll.advance
  case atom | red | acas | atoms | rwl => exact .atomic h
  case fence => exact .withIssue h fun _ _ h => h.withPerformed fun _ _ h => h.advance.ite (h.fenceDrop (fun _ h => h.advance))
  case place => exact .execPlace h
  case peq => exact .withIssue h fun _ _ h => .modCrew (h.ite h.useFind)
  case pins => exact .execPins h
  case pinv => exact .execPinv h
  case vdie => exact .withIssue h fun _ _ h => h.withKonst fun _ _ h => h.modCrew
  case bar | barArrive => exact .barForm h
  case barWait => exact .withIssue h fun _ _ h => h.crossArrive fun _ _ h => h.crossChecked fun _ h => h.waitPhase
  case barcfg => exact .execBarcfg h
  case gbar | gbarArrive => exact .gridForm h
  case gbarWait => exact .withIssue h fun _ _ h => h.gridChecked fun _ _ => h.waitPhase
  case sigpost =>
    exact .withIssue h fun _ _ h => h.withKonst fun _ _ h => h.withSlot fun _ => h.withPerformed fun _ _ h =>
      h.ite h.drainPost.postSlot.advance
  case sigpostRemote =>
    exact .withIssue h fun _ _ h => h.withKonst fun _ _ h => h.withPerformed fun _ _ h => h.ite h.drainPost.post.advance
  case sigpostAddr => exact .withIssue h fun _ _ h => h.withSlot fun _ => h.modCrew
  case sigwait => exact .execSigwait h
  case waitcnt => exact .execWaitcnt h
  case copy => exact .execCopy h
  case gather | scatter => exact .rowInstr h
  case coll => exact .execColl h
  case mstore =>
    exact .withIssue h fun _ _ h => h.withRoom (h.laneChecks fun _ h =>
      h.trapGang.ite (h.withMerge fun _ _ h => h.startOp.laneAdvance))
  case rload => exact .withIssue h fun _ _ h => h.foldl fun _ _ h => h.rloadSlice
  case putsig =>
    exact .withIssue h fun _ _ h => h.withRoom (h.laneChecks (fun _ h => h.withMerge (fun _ _ h => h.startOp.laneAdvance)))
  case mma | mmab => exact .matrixPass h
  case accz | accrd | accrdStat | accwr | accwrStat => exact .withIssue h fun _ _ h => h.accInstr
  case accst => exact .withIssue h fun _ _ h => h.trapGang.ite h.modCrew
  case twalk => exact .execTwalk h
  case tnext => exact .withIssue h fun _ _ h => h.nextTile.modCrew
  case refill => exact .execRefill h
  case launch | nopPacket | barrierAnd | signalPacket | copyPacket => exact .packetOf h
  case barrierAndComplete => exact .execBarrierAndComplete h
  case queueDoorbell | queuePoll => exact .next (h.unlessMoving (fun _ h => h.serveQueue))
  case ccbgo => exact .next h.takeCcb
  case qctlActivate => exact .next h.activateQueue
  case qctlDrain => exact .next h.drainQueue
  case qctlAbort => exact .next h.abortQueue
  case fqreplay | fqreplayTrap => exact .next h.replay
  case fqtailPoll => exact .next h.pollTail
  case hbreg => exact .next (h.of_mem rfl)
  case hbfence => exact .next h.unfence
  case heartbeatWrite => exact .next (.ite (.send (.memWrite (h.of_mem rfl))) h)
  case hostFence | drowsy | firmwareUpdate => exact .next (.ite (h.of_mem rfl) h)
  case snaptrig | snapin => exact .next h.snapshot
  case snapheld => exact .next h.releaseSnap
  case connWrite => exact .next h.writeConn
  case circuitDrainEnd => exact .next h.endDrain
  case serviceRegisterWrite => exact .next h.csrWrite
  case hostRead => exact .next (h.unlessMoving (fun _ h => .send (h.barBytes.ite_fst h.hostBytes)))
  case hostWrite => exact .next (h.unlessMoving (fun _ h => h.meetHost.physWrite))
  case hostAtomicop => exact .next (h.send.ite (h.unlessMoving (fun _ h => h.hostBytes.physWrite.send)))
  case atsInvalidation => exact .next (.send (h.of_mem rfl))
  case read => exact .execRead h
  case write => exact .execWrite h
  case atomic => exact .execAtomic h
  case mwrite => exact .next (h.unlessMoving (fun _ h => h.windowWrite.send))
  case redread => exact .execRedread h
  case signal => exact .next h.deliverPost.send
  case cdata => exact .next h.addPiece.send
  case fabricTimeout => exact .execFabricTimeout h
  case routeTimeout => exact .execRouteTimeout h
  case remapStart => exact .execRemapStart h
  case invalidation => exact .execInvalidation h
  case acknowledge => exact .execAcknowledge h
  case acknowledgeReceipt => exact .execAcknowledgeReceipt h
  case remapComplete => exact .execRemapComplete h
  case cut => exact .next (h.cutDie.ite h)
  case requestResend => exact .next (.ite (h.fresh.modPage.wake.ite (h.modPage.ite h)) h)
  case promotion => exact .next (h.modCrew.ite h)
  case memoryReply => exact .execMemoryReply h
  case pendingWriteComplete => exact .execPendingWriteComplete h
  case tilePost => exact .next (h.onOp (fun _ _ h => h.runTile))
  case engineRetire => exact .next (h.onOp (fun _ _ h => h.retireOp))
  case engineFault => exact .next (h.onOp (fun _ _ h => h.opFault))
  case passRetire => exact .next h.modCrew
  case collectiveRun => exact .next (h.runCollective.ite h)
  case partyPlace => exact .next (h.placeOn.ite h)
  case partyRetire => exact .next (.ite (h.unlessMoving (fun _ h => h.retireParty)) h)
  case preempt => exact .next h.preempt
  case partySave => exact .next (h.saveParty.ite h)
  case preemptTimeout => exact .next (h.haltTenant.ite h)
  case partyRestore => exact .next h.restoreOn
  case dieHeartbeat => exact .next (h.modDie.ite h)
  case dieHeartbeatMissing | dieFence => exact .next h.fenceDie
  case dieRestart => exact .next (h.resetDie.ite h)
  case dieCheckpoint =>
    exact .next (h.ite (.ite (.endCheckpoint (h.ite h.modDie)) (.foldl (h.ite h.modDie) (fun _ _ h => h.preempt))))
  case fundamentalReset | hostLinkLoss => exact .next h.resetAll
  case firmwareBoot => exact .next (h.ite (.startThreads (.loadCircuits (h.of_mem rfl))))
  case spdmMeasurement => exact .next (h.send.ite (.send (h.of_mem rfl)))
  case powerLimit => exact .next h.modDie
  case joinwReread => exact .execJoinwReread h
  case groupTableWrite => exact .next (h.writeGroup.ite h)
  case copyPacketComplete => exact .execCopyPacketComplete h

/-! ### Machine/Step.lean -/

theorem NextCanon.stepGang {g} (h : s.Canon) : NextCanon (stepGang s g) := by
  unfold Machine.stepGang
  dsimp only
  split
  · split
    · exact .next h.begin.illegal
    · exact .mapNext (.exec h.begin.goOn) fun _ h => h.afterGoOn
  · split
    · rename_i e
      exact .next (.fetchFault (h.begin.fetch.of_fst e))
    · rename_i e
      split
      · exact .next (.illegal (h.begin.fetch.of_fst e))
      · exact .mapNext (.exec (.issueNow (h.begin.fetch.of_fst e))) fun _ h => h.afterIssue

theorem NextCanon.stepIdle (h : s.Canon) : NextCanon (stepIdle s) :=
  .next (h.of_mem rfl)

theorem NextCanon.stepEvent {other} (h : s.Canon) (ho : NextCanon other) : NextCanon (stepEvent s other) := by
  unfold Machine.stepEvent
  split
  · exact .exec (h.idleCycle.takeUp.of_mem rfl)
  · exact ho

theorem NextCanon.step (h : s.Canon) : NextCanon (step s) := by
  unfold Machine.step
  dsimp only
  split
  · exact .exec (h.of_mem rfl)
  · refine .ite (.stepEvent h ?_) ?_
    · split
      · exact .stepGang h
      · exact .stepIdle h
    · split
      · exact .stepGang h
      · exact .stepEvent h (.stepIdle h)

end

/-- Settles O8: the step is an instruction, an input or an event of the device, and each of them keeps the form. -/
theorem memoryStaysCanonical : Obligations.MemoryStaysCanonical :=
  fun _ t h e => NextCanon.step h t e

end Sys2Proof.Machine
end

section
/-! SUPPORT. The family Device: the fence, the restart and the checkpoint of a compute die (01 R14; 08 R178, R179; 12 R273 to R276). -/

namespace Sys2Proof.Machine

/-! ### Records of keyed lists -/

theorem aget_map_snd {α β : Type} (f : α → β) (k : Nat) (l : List (Nat × α)) :
    aget (l.map fun x => (x.1, f x.2)) k = (aget l k).map f := by
  induction l with
  | nil => rfl
  | cons x l ih =>
    simp only [List.map_cons, aget, ih]
    split
    · rfl
    · rfl

theorem mem_of_aget {α : Type} {l : List (Nat × α)} {k : Nat} {v : α} (h : aget l k = some v) : (k, v) ∈ l := by
  induction l with
  | nil => cases h
  | cons x l ih =>
    unfold aget at h
    split at h
    · rename_i hk
      cases h
      rw [hk]
      exact List.mem_cons_self
    · exact List.mem_cons_of_mem _ (ih h)

/-- A change of every page's record, where it leaves the record of an untouched page as it stands. -/
theorem State.page_of_map {s t : State} {f : PageRec → PageRec} (h : t.pages = s.pages.map fun x => (x.1, f x.2)) (h0 : f {} = {})
    (q : Nat) : t.page q = f (s.page q) := by
  rw [State.page, h, aget_map_snd, State.page]
  cases aget s.pages q with
  | none => exact h0.symm
  | some r => rfl

theorem State.lapseHolds_eq (s : State) (pfn : Nat) : s.lapseHolds pfn = { s with parties := s.parties.map fun x =>
    (x.1, { x.2 with holds := x.2.holds.filter fun y => y ≠ pfn }) } := by
  have h : (fun x : Nat => x != pfn) = fun y => decide (y ≠ pfn) := funext fun x => by by_cases hx : x = pfn <;> simp [hx]
  rw [State.lapseHolds, h]

theorem State.mem_caches_dropAll {s : State} {pfn : Nat} {x : CacheId × CacheEntry} : x ∈ (s.dropAll pfn).caches ↔
    x ∈ s.caches ∧ ¬(x.2.leaf.pfn = pfn ∧ x.2.leaf.level = 0 ∧ x.2.leaf.mtype = .framed) := by
  rw [State.dropAll, List.mem_filter]
  simp only [Bool.not_eq_true', ← Bool.not_eq_true, Bool.and_eq_true, decide_eq_true_eq, beq_iff_eq, and_assoc]

theorem State.lapseHolds_page (s : State) (pfn q : Nat) : (s.lapseHolds pfn).page q = s.page q := rfl

/-! ### The pages of a state, compared -/

/-- `t` finds the same record as `s` for every page, and is `s` in everything else. -/
structure State.SamePages (s t : State) : Prop where
  page : ∀ q, t.page q = s.page q
  frame : t = { s with pages := t.pages }

theorem State.SamePages.refl (s : State) : s.SamePages s := ⟨fun _ => rfl, rfl⟩

theorem State.SamePages.trans {s t u : State} (h : s.SamePages t) (h' : t.SamePages u) : s.SamePages u :=
  ⟨fun q => (h'.page q).trans (h.page q), by rw [h'.frame, h.frame]⟩

/-- A change that leaves the record of its page as it stands. -/
theorem State.SamePages.modPage {s : State} {pfn : Nat} {f : PageRec → PageRec} (h : f (s.page pfn) = s.page pfn) :
    s.SamePages (s.modPage pfn f) :=
  ⟨fun q => by
    rw [State.page_modPage]
    split
    · rename_i hq
      rw [h, hq]
    · rfl, rfl⟩

/-! ### Fencing (08 R179; 12 R273) -/

/-- The crew belongs to a party of a die. -/
def State.onDie (s : State) (d k : Nat) : Bool := match (s.crew k).partyId with | some p => (s.party p).die = d | none => false

/-- A request that waits at a directory is not that of a crew of a die. -/
def State.offDie (s : State) (d : Nat) (w : Waiter) : Bool := match w with | .slice k _ => !s.onDie d k | .agent _ => true

/-- What a fence makes of a state before the directories of the die lose the requests of other dies. -/
def State.stopDie (s : State) (d : Nat) : State :=
  { s with
    ops := s.ops.filter fun o => o.die ≠ d
    requests := s.requests.filter fun r => !s.onDie d r.crew
    caches := s.caches.filter fun ce => cacheDie ce.1 ≠ d
    tables := s.tables.filter fun e => e.die ≠ d
    pages := s.pages.map fun x =>
      (x.1, { x.2 with waiters := x.2.waiters.filter (s.offDie d), refused := x.2.refused.filter (s.offDie d) })
    dies := lmod s.dies d fun x => { x with inService := false, inc := x.inc + 1, fencedAt := some s.time, ckpt := false } }

theorem State.fenceDie_of_out {s : State} {d : Nat} (h : 4 ≤ d ∨ (s.die d).inService = false) : s.fenceDie d = s :=
  if_pos (by simpa using h)

theorem State.fenceDie_eq {s : State} {d : Nat} (hd : d < 4) (hs : (s.die d).inService = true) :
    s.fenceDie d = (s.stopDie d).pages.foldl (fun s x => s.cutPage d x.1) (s.stopDie d) :=
  if_neg (by simp [hd, hs])

theorem State.onDie_eq_false {s : State} {d k : Nat} :
    s.onDie d k = false ↔ ∀ p, (s.crew k).partyId = some p → (s.party p).die ≠ d := by
  unfold State.onDie
  cases (s.crew k).partyId with
  | none => simp
  | some p => simp

theorem State.not_onDie (s : State) (d k : Nat) :
    (!s.onDie d k) = match (s.crew k).partyId with | some p => (s.party p).die != d | none => true := by
  unfold State.onDie
  cases (s.crew k).partyId with
  | none => rfl
  | some p => by_cases h : (s.party p).die = d <;> simp [h]

theorem State.page_stopDie (s : State) (d q : Nat) : (s.stopDie d).page q =
    { s.page q with waiters := (s.page q).waiters.filter (s.offDie d), refused := (s.page q).refused.filter (s.offDie d) } :=
  State.page_of_map (s := s) (t := s.stopDie d) (f := fun r =>
    { r with waiters := r.waiters.filter (s.offDie d), refused := r.refused.filter (s.offDie d) }) rfl rfl q

theorem PageRec.filter_no_waiters {r : PageRec} (test : Waiter → Bool) (hw : r.waiters = []) (hr : r.refused = []) :
    { r with waiters := r.waiters.filter test, refused := r.refused.filter test } = r := by
  cases r
  cases hw
  cases hr
  rfl

/-- A page at which nothing waits loses nothing by the cut of its directory's die. -/
theorem State.cutPage_same {s : State} {d pfn : Nat}
    (h : homeStack pfn = d → (s.page pfn).waiters = [] ∧ (s.page pfn).refused = []) : s.SamePages (s.cutPage d pfn) := by
  unfold State.cutPage
  split
  · exact .refl s
  · rename_i hd
    obtain ⟨hw, hr⟩ := h (by simpa using hd)
    simp only [hw, hr, List.append_nil, List.filter_nil, List.foldl_nil]
    exact .modPage (PageRec.filter_no_waiters _ hw hr)

theorem State.cutPages_same {d : Nat} {l : List (Nat × PageRec)} {s : State}
    (h : ∀ x ∈ l, homeStack x.1 = d → (s.page x.1).waiters = [] ∧ (s.page x.1).refused = []) :
    s.SamePages (l.foldl (fun s x => s.cutPage d x.1) s) := by
  induction l generalizing s with
  | nil => exact .refl s
  | cons x l ih =>
    have hx := State.cutPage_same (h x List.mem_cons_self)
    refine hx.trans (ih fun y hy => ?_)
    rw [hx.page]
    exact h y (List.mem_cons_of_mem _ hy)

/-- A fence of a die at whose directories nothing waits stops the die and does nothing more. -/
theorem State.fenceDie_same {s : State} {d : Nat} (hd : d < 4) (hs : (s.die d).inService = true)
    (h : ∀ x ∈ s.pages, homeStack x.1 = d → x.2.waiters = [] ∧ x.2.refused = []) : (s.stopDie d).SamePages (s.fenceDie d) := by
  rw [State.fenceDie_eq hd hs]
  refine State.cutPages_same fun x _ hx => ?_
  rw [State.page_stopDie, State.page]
  cases hq : aget s.pages x.1 with
  | none => exact ⟨rfl, rfl⟩
  | some r =>
    obtain ⟨hw, hr⟩ := h _ (mem_of_aget hq) hx
    dsimp only at hw hr
    simp [hw, hr]

/-! ### The reset of a die (08 R168, R178; 12 R274, R276) -/

theorem State.restartDue_iff {s : State} {d : Nat} : s.restartDue d = true ↔
    d < 4 ∧ (s.die d).inService = false ∧ ∀ t, (s.die d).fencedAt = some t → t + 210000 ≤ s.time := by
  unfold State.restartDue
  cases (s.die d).fencedAt with
  | none => simp
  | some t => simp [and_assoc, show 100 * Config.usec = 210000 from rfl]

/-- The die is in service again, with its banks awake and without the records and the quarantined frames of before. -/
def State.leaveReset (s : State) (d : Nat) : State :=
  let s : State := { s.wakeBanks d with
    syncs := s.syncs.map fun w => { w with recs := w.recs.filter fun r => r.die ≠ d }
    quarantine := s.quarantine.filter fun q => q.1 ≠ d }
  s.modDie d fun x => { x with inService := true, fencedAt := none, clockBase := s.clock, lastBeat := s.time }

theorem State.leaveReset_frame (s : State) (d : Nat) : s.leaveReset d = { s with
    bankUse := (s.leaveReset d).bankUse, drowsy := (s.leaveReset d).drowsy
    syncs := s.syncs.map fun w => { w with recs := w.recs.filter fun r => r.die ≠ d }
    quarantine := s.quarantine.filter fun q => q.1 ≠ d
    dies := lmod s.dies d fun x => { x with inService := true, fencedAt := none, clockBase := s.clock, lastBeat := s.time } } := by
  unfold State.leaveReset State.wakeBanks
  generalize List.foldl _ s.bankUse _ = m
  rfl

theorem State.resetDie_eq (s : State) (d : Nat) :
    let u := s.pages.foldl (fun s x => s.settleAtReset d x.1) s
    let v := u.parties.foldl (fun s x => s.partyAtReset d x.1) u
    s.resetDie d = (s.tenantsOn d).foldl (fun s t => s.queueError t 8 0x7F 0 d) (v.leaveReset d) := by
  unfold State.resetDie
  extract_lets u v told
  clear_value v
  rfl

theorem State.mem_drowsy_leaveReset {s : State} {d b : Nat} : b ∈ (s.leaveReset d).drowsy ↔ b ∈ s.drowsy ∧ b / 384 ≠ d := by
  simp [State.leaveReset, State.wakeBanks]

theorem State.mem_tenantsOn {s : State} {d t : Nat} : t ∈ s.tenantsOn d ↔ t ∈ s.tenants.map (·.1)
    ∧ ∃ x ∈ s.parties, x.2.die = d ∧ (s.launchRec x.2.launch).tenant = t
      ∧ (x.2.status = .resident ∨ ∃ n, x.2.status = .stopping n) := by
  rw [State.tenantsOn, List.mem_filter, List.any_eq_true]
  refine and_congr_right fun _ => exists_congr fun x => and_congr_right fun _ => ?_
  cases hs : x.2.status
  all_goals simp [hs]

theorem PageRec.masterOn_iff {r : PageRec} {d : Nat} : r.masterOn d = true ↔ r.held.frameAddr 0 ≠ none ∧ r.held.mdie = d := by
  simp [PageRec.masterOn, Option.isSome_iff_ne_none]

theorem PageRec.replicaOn_iff {r : PageRec} {d : Nat} : r.replicaOn d = true ↔ ∃ x ∈ r.replicas, x.die = d := by
  simp [PageRec.replicaOn]

theorem State.settleAtReset_of_elsewhere {s : State} {d pfn : Nat} (hm : (s.page pfn).masterOn d = false)
    (hr : (s.page pfn).replicaOn d = false) : s.settleAtReset d pfn = s :=
  if_pos (by simp [hm, hr])

/-- The die has written the page since its checkpoint: POISON. -/
theorem State.settleAtReset_of_written {s : State} {d pfn : Nat}
    (hp : ((s.page pfn).masterOn d || (s.page pfn).replicaOn d) = true) (hw : mbit (s.page pfn).wsc d = true) :
    s.settleAtReset d pfn
      = (((s.lapseHolds pfn).dropAll pfn).modPage pfn fun r => { r with replicas := [] }).settlePage pfn { res := .poison } :=
  (if_neg (by simp [hp])).trans (if_pos hw)

/-- The die held the master: the page goes home. -/
theorem State.settleAtReset_of_master {s : State} {d pfn : Nat} (hm : (s.page pfn).masterOn d = true)
    (hw : mbit (s.page pfn).wsc d = false) : s.settleAtReset d pfn
      = ((((s.lapseHolds pfn).dropAll pfn).modPage pfn loseMaster).removeReplicas pfn fun _ => true).settlePage pfn {} :=
  (if_neg (by simp [hm])).trans ((if_neg (by simp [hw])).trans (if_pos hm))

/-- The die held replicas alone: they are gone, and where no remap runs the page is settled without them. -/
theorem State.settleAtReset_of_replica {s : State} {d pfn : Nat} (hm : (s.page pfn).masterOn d = false)
    (hr : (s.page pfn).replicaOn d = true) (hw : mbit (s.page pfn).wsc d = false) :
    let left := (s.page pfn).replicas.filter fun x => x.die ≠ d
    let u := (s.lapseHolds pfn).modPage pfn fun r => { r with replicas := left }
    s.settleAtReset d pfn = if (s.page pfn).run.isSome then u
      else (u.dropAll pfn).settlePage pfn (if left = [] then lastReplica (s.page pfn).place else (s.page pfn).place) := by
  intro left u
  have hu : u.page pfn = { s.page pfn with replicas := left } := by
    rw [State.page_modPage, if_pos rfl, State.lapseHolds_page]
  have e : s.settleAtReset d pfn = if (u.page pfn).run.isSome then u
      else (u.dropAll pfn).settlePage pfn
        (if (u.page pfn).replicas.isEmpty then lastReplica (u.page pfn).place else (u.page pfn).place) :=
    (if_neg (by simp [hr])).trans ((if_neg (by simp [hw])).trans (if_neg (by simp [hm])))
  simpa only [hu, List.isEmpty_iff] using e

theorem State.partyAtReset_of_ended {s : State} {d p : Nat}
    (h : (s.party p).die ≠ d ∨ (s.party p).status = .retired ∨ (s.party p).status = .discarded) : s.partyAtReset d p = s := by
  unfold State.partyAtReset
  rcases h with h | h | h
  · exact if_pos h
  all_goals simp [h]

/-- A party of the die's checkpoint that has not ended goes back to it. -/
theorem State.partyAtReset_of_checkpoint {s : State} {d p : Nat} {c : Party} (hd : (s.party p).die = d)
    (hs : ((s.party p).status = .resident ∨ ∃ n, (s.party p).status = .stopping n) ∨ ∃ a, (s.party p).status = .saved a)
    (hc : aget (s.die d).checkpoint p = some c) : s.partyAtReset d p = s.backToCheckpoint p c := by
  unfold State.partyAtReset
  rcases hs with (h | ⟨n, h⟩) | ⟨a, h⟩
  all_goals simp [h, hd, hc]

theorem State.partyAtReset_of_saved {s : State} {d p a : Nat} (hs : (s.party p).status = .saved a)
    (hc : aget (s.die d).checkpoint p = none) : s.partyAtReset d p = s := by
  unfold State.partyAtReset
  simp [hs, hc]

theorem State.partyAtReset_of_new {s : State} {d p : Nat} (hd : (s.party p).die = d)
    (hs : (s.party p).status = .resident ∨ ∃ n, (s.party p).status = .stopping n) (hc : aget (s.die d).checkpoint p = none) :
    s.partyAtReset d p = s.backToEntry p := by
  unfold State.partyAtReset
  rcases hs with h | ⟨n, h⟩
  all_goals simp [h, hd, hc]

theorem State.parties_freeParty (s : State) (p : Nat) (st : PartyStatus) : (s.freeParty p st).parties =
    amod s.parties p fun x => { x with status := st, crews := [], holds := [], nearFrames := [], nearPlaced := [] } := by
  unfold State.freeParty
  dsimp only
  split
  · rfl
  · rfl

theorem State.crews_freeParty (s : State) (p : Nat) (st : PartyStatus) :
    (s.freeParty p st).crews = s.crews.filter fun x => x.2.partyId != some p := by
  unfold State.freeParty
  dsimp only
  split
  · rfl
  · rfl

/-- A party that goes back to its entry has its crews again, none of them started. -/
theorem State.aget_backToEntry {s : State} {p : Nat} {q : Party} (h : aget s.parties p = some q) :
    aget (s.backToEntry p).parties p = some { q with
      status := .saved 0, holds := [], nearFrames := [], nearPlaced := [], saved := [], toward := []
      restart := q.crews.map fun _ => none } := by
  have hq : s.party p = q := by simp [State.party, h]
  simp [State.backToEntry, State.modParty, State.parties_freeParty, State.dropFaults, aget_amod, h, hq]

theorem State.mem_crews_backToEntry {s : State} {p : Nat} {y : Nat × Crew} (h : y ∈ (s.backToEntry p).crews) :
    y.2.partyId ≠ some p := by
  have e : (s.backToEntry p).crews = ((s.dropFaults p).freeParty p (.saved 0)).crews := rfl
  rw [e, State.crews_freeParty] at h
  simpa using (List.mem_filter.mp h).2

/-! ### Where pages are placed, through merges and copies -/

/-- The dies that hold the master of each page, and those that hold replicas of it, are the same in two states. -/
def State.SameHolders (s t : State) : Prop :=
  ∀ q d, (t.page q).masterOn d = (s.page q).masterOn d ∧ (t.page q).replicaOn d = (s.page q).replicaOn d

namespace State.SameHolders

theorem of_pages {s t : State} (h : t.pages = s.pages) : s.SameHolders t := fun q d => by
  rw [State.page, State.page, h]
  exact ⟨rfl, rfl⟩

theorem trans {s t u : State} (h : s.SameHolders t) (h' : t.SameHolders u) : s.SameHolders u :=
  fun q d => ⟨(h' q d).1.trans (h q d).1, (h' q d).2.trans (h q d).2⟩

theorem foldl {α : Type} {f : State → α → State} (h : ∀ (s : State) x, s.SameHolders (f s x)) (l : List α) (s : State) :
    s.SameHolders (l.foldl f s) := by
  induction l generalizing s with
  | nil => exact .of_pages rfl
  | cons x l ih => exact (h s x).trans (ih _)

theorem modPage {s : State} {pfn : Nat} {f : PageRec → PageRec} (hm : ∀ r d, (f r).masterOn d = r.masterOn d)
    (hr : ∀ r d, (f r).replicaOn d = r.replicaOn d) : s.SameHolders (s.modPage pfn f) := fun q d => by
  rw [State.page_modPage]
  split
  · rename_i hq
    rw [hq]
    exact ⟨hm _ d, hr _ d⟩
  · exact ⟨rfl, rfl⟩

end State.SameHolders

theorem State.useBank_holders (s : State) (a : Nat) : s.SameHolders (s.useBank a) := by
  unfold State.useBank
  split
  · exact .of_pages rfl
  · exact .of_pages rfl

theorem State.memCopy_holders (s : State) (dst src n : Nat) : s.SameHolders (s.memCopy dst src n) := .of_pages rfl

/-- A fill of a sector names no other frame: the residency, the die and the unit of the master stay. -/
theorem State.fillMaster_holders (s : State) (pfn off : Nat) : s.SameHolders (s.fillMaster pfn off) := by
  unfold State.fillMaster
  dsimp only
  split
  · exact .of_pages rfl
  · split
    · exact .of_pages rfl
    · refine (s.memCopy_holders _ _ _).trans (.modPage (fun r d => ?_) fun r d => ?_)
      all_goals
        obtain ⟨place, _, _, _, _, _, run⟩ := r
        cases run
        · rfl
        · rfl

theorem State.masterWrite_holders (s : State) (die pfn off : Nat) (bs : List Byte) :
    s.SameHolders (s.masterWrite die pfn off bs) :=
  (s.fillMaster_holders pfn off).trans ((State.useBank_holders _ _).trans
    (.trans (.of_pages (t := State.memWrite _ _ _) rfl) (.modPage (fun _ _ => rfl) fun _ _ => rfl)))

theorem PageRec.replicaOn_modReplica (r : PageRec) (die core : Nat) {f : Replica → Replica} (h : ∀ x, (f x).die = x.die) (d : Nat) :
    (r.modReplica die core f).replicaOn d = r.replicaOn d := by
  simp only [PageRec.replicaOn, PageRec.modReplica, List.any_map]
  refine congrArg (List.any r.replicas) (funext fun x => ?_)
  simp only [Function.comp]
  split
  · rw [h]
  · rfl

theorem State.mergeReplica_holders (s : State) (pfn die core : Nat) (test : Nat → Bool) :
    s.SameHolders (s.mergeReplica pfn die core test) := by
  unfold State.mergeReplica
  split
  · exact .of_pages rfl
  · exact (State.SameHolders.foldl (fun s x => s.masterWrite_holders _ _ _ _) _ s).trans
      (.modPage (fun _ _ => rfl) fun r => r.replicaOn_modReplica die core fun _ => rfl)

theorem State.mergeDirty_holders (s : State) (die core : Nat) (hit : Nat → Nat → Bool) :
    s.SameHolders (s.mergeDirty die core hit) := by
  refine .foldl (fun s x => ?_) _ s
  dsimp only
  split
  · exact .of_pages rfl
  · exact s.mergeReplica_holders _ _ _ _

theorem State.copySectors_only (s : State) (dst src : Nat) (m : BitVec 16) : s.MemoryOnly (s.copySectors dst src m) :=
  .fold (fun s _ => (s.useBank_only _).trans ((State.useBank_only _ _).trans (State.memCopy_only _ _ _ _))) _ s

theorem State.copySectors_holders (s : State) (dst src : Nat) (m : BitVec 16) : s.SameHolders (s.copySectors dst src m) :=
  .foldl (fun s _ => (s.useBank_holders _).trans ((State.useBank_holders _ _).trans (State.memCopy_holders _ _ _ _))) _ s

/-! ### Checkpoint (07 R168; 12 R275) -/

/-- The holds of parties on the pages that a test names lapse. -/
def lapse (gone : Nat → Bool) (l : List (Nat × Party)) : List (Nat × Party) :=
  l.map fun x => (x.1, { x.2 with holds := x.2.holds.filter fun q => !gone q })

theorem lapse_none (l : List (Nat × Party)) : lapse (fun _ => false) l = l := by simp [lapse]

theorem lapse_lapse (f g : Nat → Bool) (l : List (Nat × Party)) : lapse g (lapse f l) = lapse (fun q => f q || g q) l := by
  simp only [lapse, List.map_map]
  refine List.map_congr_left fun x _ => ?_
  simp [List.filter_filter, Bool.and_comm]

theorem State.allSaved_iff {s : State} {d : Nat} : s.allSaved d = true ↔
    ∀ x ∈ s.parties, x.2.die = d → ¬(x.2.status = .resident ∨ ∃ n, x.2.status = .stopping n) := by
  rw [State.allSaved, Bool.not_eq_true', List.any_eq_false]
  refine forall_congr' fun x => forall_congr' fun _ => ?_
  cases hs : x.2.status
  all_goals simp [hs]

/-- The die holds the master of a page, or a replica of it. -/
def State.placedOn (s : State) (d q : Nat) : Bool := (s.page q).masterOn d || (s.page q).replicaOn d

theorem State.SameHolders.placedOn {s t : State} (h : s.SameHolders t) (d q : Nat) : t.placedOn d q = s.placedOn d q := by
  rw [State.placedOn, (h q d).1, (h q d).2, State.placedOn]

/-- A page of which a die holds something has a record. -/
theorem State.key_of_placedOn {s : State} {d q : Nat} (h : s.placedOn d q = true) : ∃ x ∈ s.pages, x.1 = q := by
  cases hq : aget s.pages q with
  | none =>
    rw [State.placedOn, State.page, hq] at h
    cases h
  | some r => exact ⟨_, mem_of_aget hq, rfl⟩

/-- The holds on a page lapse where it is placed on the die. -/
def State.lapseOn (s : State) (d pfn : Nat) : State := if s.placedOn d pfn then s.lapseHolds pfn else s

theorem State.lapseOn_frame (s : State) (d pfn : Nat) :
    s.lapseOn d pfn = { s with parties := lapse (fun q => q == pfn && s.placedOn d pfn) s.parties } := by
  unfold State.lapseOn
  split
  · rename_i h
    simp only [h, Bool.and_true]
    rfl
  · rename_i h
    simp [h, lapse_none]

theorem State.cleanMaster_eq (s : State) (d pfn : Nat) : s.cleanMaster d pfn =
    match (if (s.page pfn).masterOn d then (s.page pfn).held.frameAddr 0 else none) with
    | some a => ((s.lapseOn d pfn).copySectors (homeAddr pfn 0) a (s.page pfn).written).modPage pfn fun r => { r with written := 0 }
    | none => s.lapseOn d pfn := by
  unfold State.cleanMaster
  dsimp only
  by_cases h : (s.page pfn).masterOn d = true
  · rw [if_pos h, if_pos h]
    rfl
  · rw [if_neg h, if_neg h]
    rfl

/-- A master's dirty sectors go home; of the rest of the state the holds on a page of the die alone change. -/
theorem State.cleanMaster_only (s : State) (d pfn : Nat) :
    (s.lapseOn d pfn).MemoryOnly (s.cleanMaster d pfn) := by
  rw [State.cleanMaster_eq]
  split
  · exact (State.copySectors_only _ _ _ _).trans (State.modPage_only _ _ _)
  · exact .refl _

theorem State.cleanMaster_holders (s : State) (d pfn : Nat) : s.SameHolders (s.cleanMaster d pfn) := by
  have h : s.SameHolders (s.lapseOn d pfn) := .of_pages (by rw [s.lapseOn_frame])
  rw [State.cleanMaster_eq]
  split
  · exact h.trans ((State.copySectors_holders _ _ _ _).trans (.modPage (fun _ _ => rfl) fun _ _ => rfl))
  · exact h

theorem State.cleanMaster_crews (s : State) (d pfn : Nat) : (s.cleanMaster d pfn).crews = s.crews := by
  rw [(s.cleanMaster_only d pfn).crews, s.lapseOn_frame]

theorem State.cleanMaster_dies (s : State) (d pfn : Nat) : (s.cleanMaster d pfn).dies = s.dies := by
  rw [(s.cleanMaster_only d pfn).dies, s.lapseOn_frame]

theorem State.cleanMaster_parties (s : State) (d pfn : Nat) :
    (s.cleanMaster d pfn).parties = lapse (fun q => q == pfn && s.placedOn d pfn) s.parties := by
  rw [(s.cleanMaster_only d pfn).parties, s.lapseOn_frame]

/-- The walk over the pages of a die that a checkpoint makes. -/
def State.cleanMasters (s : State) (d : Nat) (l : List (Nat × PageRec)) : State := l.foldl (fun s x => s.cleanMaster d x.1) s

theorem State.cleanMasters_crews (s : State) (d : Nat) (l : List (Nat × PageRec)) : (s.cleanMasters d l).crews = s.crews := by
  induction l generalizing s with
  | nil => rfl
  | cons x l ih => exact (ih _).trans (s.cleanMaster_crews d x.1)

theorem State.cleanMasters_dies (s : State) (d : Nat) (l : List (Nat × PageRec)) : (s.cleanMasters d l).dies = s.dies := by
  induction l generalizing s with
  | nil => rfl
  | cons x l ih => exact (ih _).trans (s.cleanMaster_dies d x.1)

theorem State.cleanMasters_parties (s : State) (d : Nat) (l : List (Nat × PageRec)) :
    (s.cleanMasters d l).parties = lapse (fun q => l.any (fun x => x.1 == q) && s.placedOn d q) s.parties := by
  induction l generalizing s with
  | nil => exact (lapse_none _).symm
  | cons x l ih =>
    refine (ih _).trans ?_
    rw [s.cleanMaster_parties, lapse_lapse]
    refine congrArg (lapse · s.parties) (funext fun q => ?_)
    rw [(s.cleanMaster_holders d x.1).placedOn, List.any_cons]
    by_cases hq : q = x.1
    · rw [hq]
      cases s.placedOn d x.1 with
      | false => simp
      | true => simp
    · have hx : (x.1 == q) = false := by simpa using Ne.symm hq
      simp [hq, hx]

/-- Every core of a die has merged its dirty bytes. -/
def State.mergeDie (s : State) (d : Nat) : State := (List.range 32).foldl (fun s c => s.mergeDirty d c fun _ _ => true) s

theorem State.mergeDie_only (s : State) (d : Nat) : s.MemoryOnly (s.mergeDie d) := .fold (fun s c => s.mergeDirty_only d c _) _ s

theorem State.mergeDie_holders (s : State) (d : Nat) : s.SameHolders (s.mergeDie d) :=
  .foldl (fun s c => s.mergeDirty_holders d c _) _ s

/-- A checkpoint's end up to the clearing of the die's WSC bits: everything dirty on the die is home. -/
def State.cleanDie (s : State) (d : Nat) : State := (s.mergeDie d).cleanMasters d (s.mergeDie d).pages

theorem State.cleanDie_crews (s : State) (d : Nat) : (s.cleanDie d).crews = s.crews :=
  (State.cleanMasters_crews _ _ _).trans (s.mergeDie_only d).crews

theorem State.cleanDie_dies (s : State) (d : Nat) : (s.cleanDie d).dies = s.dies :=
  (State.cleanMasters_dies _ _ _).trans (s.mergeDie_only d).dies

/-- The holds on every page that is placed on the die lapse (07 R168). -/
theorem State.cleanDie_parties (s : State) (d : Nat) : (s.cleanDie d).parties = lapse (s.placedOn d) s.parties := by
  rw [State.cleanDie, State.cleanMasters_parties, (s.mergeDie_only d).parties]
  refine congrArg (lapse · s.parties) (funext fun q => ?_)
  cases h : (s.mergeDie d).placedOn d q with
  | false => rw [Bool.and_false, ← (s.mergeDie_holders d).placedOn, h]
  | true =>
    obtain ⟨x, hx, hq⟩ := State.key_of_placedOn h
    rw [← (s.mergeDie_holders d).placedOn, h, Bool.and_true, List.any_eq_true]
    exact ⟨x, hx, by simpa using hq⟩

/-- The WSC bits of a die clear, and its saved parties are recorded. -/
def State.closeCheckpoint (s : State) (d : Nat) : State :=
  State.modDie { s with pages := s.pages.map fun x => (x.1, { x.2 with wsc := mset x.2.wsc d false }) } d fun x =>
    { x with ckpt := false, checkpoint := s.parties.filter fun x => x.2.die = d && x.2.isSaved }

theorem State.endCheckpoint_eq (s : State) (d : Nat) : s.endCheckpoint d = (s.cleanDie d).closeCheckpoint d := by
  unfold State.endCheckpoint
  extract_lets u v
  have hu : s.mergeDie d = u := rfl
  clear_value u
  have hv : s.cleanDie d = v := by
    rw [State.cleanDie, hu]
    rfl
  clear_value v
  rw [hv]
  rfl

theorem mset_zero_false {w : Nat} (i : Nat) : mset (0 : BitVec w) i false = 0 := BitVec.zero_and

theorem mbit_mset_false {w : Nat} (m : BitVec w) {i : Nat} (h : i < w) : mbit (mset m i false) i = false := by
  unfold mset mbit
  rw [if_neg Bool.false_ne_true, BitVec.getLsbD_and, BitVec.getLsbD_not, BitVec.getLsbD_ofNat, Nat.testBit_two_pow_self]
  simp [h]

theorem State.closeCheckpoint_wsc (s : State) {d : Nat} (hd : d < 4) (q : Nat) :
    mbit ((s.closeCheckpoint d).page q).wsc d = false := by
  have h0 : { ({} : PageRec) with wsc := mset ({} : PageRec).wsc d false } = {} := by
    rw [show mset ({} : PageRec).wsc d false = 0 from mset_zero_false d]
  rw [State.page_of_map (s := s) (f := fun r => { r with wsc := mset r.wsc d false }) rfl h0 q]
  exact mbit_mset_false _ hd

theorem State.closeCheckpoint_die (s : State) {d : Nat} (hd : d < s.dies.length) : ((s.closeCheckpoint d).die d).ckpt = false
    ∧ ((s.closeCheckpoint d).die d).checkpoint = (s.closeCheckpoint d).parties.filter fun x => x.2.die = d && x.2.isSaved := by
  rw [State.closeCheckpoint, State.die_modDie, if_pos ⟨rfl, hd⟩]
  exact ⟨rfl, rfl⟩

theorem State.closeCheckpoint_crews (s : State) (d : Nat) : (s.closeCheckpoint d).crews = s.crews := rfl

theorem State.closeCheckpoint_parties (s : State) (d : Nat) : (s.closeCheckpoint d).parties = s.parties := rfl

theorem State.endCheckpoint_crews (s : State) (d : Nat) : (s.endCheckpoint d).crews = s.crews := by
  rw [s.endCheckpoint_eq, State.closeCheckpoint_crews, s.cleanDie_crews]

theorem State.endCheckpoint_parties (s : State) (d : Nat) : (s.endCheckpoint d).parties = lapse (s.placedOn d) s.parties := by
  rw [s.endCheckpoint_eq, State.closeCheckpoint_parties, s.cleanDie_parties]

theorem State.endCheckpoint_wsc (s : State) {d : Nat} (hd : d < 4) (q : Nat) : mbit ((s.endCheckpoint d).page q).wsc d = false := by
  rw [s.endCheckpoint_eq]
  exact (s.cleanDie d).closeCheckpoint_wsc hd q

theorem State.endCheckpoint_die (s : State) {d : Nat} (hd : d < s.dies.length) : ((s.endCheckpoint d).die d).ckpt = false
    ∧ ((s.endCheckpoint d).die d).checkpoint = (s.endCheckpoint d).parties.filter fun x => x.2.die = d && x.2.isSaved := by
  rw [s.endCheckpoint_eq]
  exact State.closeCheckpoint_die _ (by rwa [s.cleanDie_dies])

/-- A checkpoint of the die is under way. -/
def State.beginCheckpoint (s : State) (d : Nat) : State :=
  if (s.die d).ckpt then s else { s with dies := lmod s.dies d fun x => { x with ckpt := true } }

theorem State.beginCheckpoint_frame (s : State) (d : Nat) : s.beginCheckpoint d = { s with dies := (s.beginCheckpoint d).dies } := by
  unfold State.beginCheckpoint
  split
  · rfl
  · rfl

theorem State.beginCheckpoint_dies_length (s : State) (d : Nat) : (s.beginCheckpoint d).dies.length = s.dies.length := by
  unfold State.beginCheckpoint
  split
  · rfl
  · exact lmod_length _ _ _

/-- DIE_CHECKPOINT on a die in service: its parties stop first where one still runs. -/
theorem execDieCheckpoint_of_running {s : State} {d : Nat} (hd : d < 4) (hs : (s.die d).inService = true) :
    execDieCheckpoint d s = .next (if s.allSaved d then (s.beginCheckpoint d).endCheckpoint d
      else (s.parties.filter fun x => x.2.die = d).foldl (fun u x => u.preempt x.1) (s.beginCheckpoint d)) := by
  have e : execDieCheckpoint d s = .next (if (s.beginCheckpoint d).allSaved d then (s.beginCheckpoint d).endCheckpoint d
      else ((s.beginCheckpoint d).parties.filter fun x => x.2.die = d).foldl (fun u x => u.preempt x.1) (s.beginCheckpoint d)) :=
    congrArg _ (if_neg (by simp [hd, hs]))
  have hp : (s.beginCheckpoint d).parties = s.parties := by rw [s.beginCheckpoint_frame]
  rw [e, State.allSaved, State.allSaved, hp]

theorem execDieCheckpoint_of_out {s : State} {d : Nat} (h : ¬(d < 4 ∧ (s.die d).inService = true)) :
    execDieCheckpoint d s = .next s :=
  congrArg _ (if_pos (by
    by_cases hd : d < 4
    · simp [show (s.die d).inService = false by simpa [hd] using h]
    · simp [Nat.le_of_not_lt hd]))

/-- Settles O56: each step of a die's life by what it does in each of its cases. -/
theorem dieLife : Obligations.DieLife := by
  unfold Obligations.DieLife
  intro runs
  refine ⟨fun s d => ⟨fun h => congrArg _ (if_pos h), fun h => congrArg _ (if_neg (by simp [h]))⟩, ?fence, ?restart,
    fun s d t => State.mem_tenantsOn, ?page, State.lapseHolds_eq,
    fun s pfn => ⟨_, rfl, rfl, fun x => State.mem_caches_dropAll⟩, ?party,
    fun s p q h => ⟨_, State.aget_backToEntry h, rfl, fun y hy => State.mem_crews_backToEntry hy⟩, ?checkpoint⟩
  case fence =>
    intro s d i hi
    have e : exec i s = .next (s.fenceDie d) := by
      rcases List.mem_pair.mp hi with rfl | rfl
      · rfl
      · rfl
    rw [e]
    refine ⟨fun h => congrArg _ (State.fenceDie_of_out h), fun hd hs hw => ⟨_, rfl, ?_⟩⟩
    obtain ⟨hpage, hframe⟩ := State.fenceDie_same hd hs hw
    generalize s.fenceDie d = t at hpage hframe
    refine ⟨fun o => ?_, fun r => ?_, fun x => ?_, fun x => ?_, ?_, by rw [hframe]; rfl⟩
    · rw [hframe]
      simp [State.stopDie]
    · rw [hframe]
      simp only [State.stopDie, List.mem_filter, Bool.not_eq_true', State.onDie_eq_false]
    · rw [hframe]
      simp [State.stopDie]
    · rw [hframe]
      simp [State.stopDie]
    · intro stays q
      have hstays : stays = s.offDie d := by
        funext w
        cases w with
        | agent e => rfl
        | slice k i => exact (s.not_onDie d k).symm
      rw [hpage, State.page_stopDie, hstays]
  case restart =>
    intro s d
    refine ⟨fun h => congrArg _ (if_neg fun hr => h (State.restartDue_iff.mp hr)), fun h => ?_⟩
    exact ⟨_, _, _, rfl, rfl, fun b => State.mem_drowsy_leaveReset, State.leaveReset_frame _ d,
      congrArg _ ((if_pos (State.restartDue_iff.mpr h)).trans (s.resetDie_eq d))⟩
  case page =>
    intro s d pfn
    dsimp only
    rw [← PageRec.masterOn_iff, ← PageRec.replicaOn_iff, Bool.not_eq_true, Bool.not_eq_true]
    refine ⟨State.settleAtReset_of_elsewhere, fun hp hw => State.settleAtReset_of_written (by simpa using hp) hw,
      State.settleAtReset_of_master, fun hm hr hw => ?_⟩
    have e := State.settleAtReset_of_replica hm hr hw
    refine ⟨fun h => e.trans (if_pos (Option.isSome_iff_ne_none.mpr h)), fun h => e.trans (if_neg ?_)⟩
    simp [h]
  case party =>
    intro s d p
    exact ⟨fun h => State.partyAtReset_of_ended h, fun hd hs => ⟨fun c hc => State.partyAtReset_of_checkpoint hd hs hc,
      fun hc ⟨a, ha⟩ => State.partyAtReset_of_saved ha hc, fun hc hr => State.partyAtReset_of_new hd hr hc⟩⟩
  case checkpoint =>
    intro s d
    refine ⟨execDieCheckpoint_of_out, fun ⟨hd, hs⟩ => ?_, fun ⟨hd, hs⟩ => ?_⟩
    · rintro ⟨x, hx, hd', hr⟩
      refine (execDieCheckpoint_of_running hd hs).trans (congrArg _ (if_neg fun h => ?_))
      exact State.allSaved_iff.mp h x hx hd' hr
    · intro hall
      refine ⟨_, (execDieCheckpoint_of_running hd hs).trans (congrArg _ (if_pos (State.allSaved_iff.mpr hall))), ?_⟩
      have hv := s.beginCheckpoint_frame d
      have hlen := s.beginCheckpoint_dies_length d
      generalize s.beginCheckpoint d = v at hv hlen
      have hcrews : v.crews = s.crews := by rw [hv]
      have hparties : v.parties = s.parties := by rw [hv]
      have hplaced : v.placedOn d = s.placedOn d := by
        rw [hv]
        rfl
      refine ⟨(v.endCheckpoint_crews d).trans hcrews, v.endCheckpoint_wsc hd, fun hlt => v.endCheckpoint_die (hlt.trans_eq hlen.symm),
        s.placedOn d, fun q => ?_, ?_⟩
      · rw [State.placedOn, Bool.or_eq_true, PageRec.masterOn_iff, PageRec.replicaOn_iff]
      · rw [v.endCheckpoint_parties, hplaced, hparties]
        rfl

end Sys2Proof.Machine
end

section
/-! SUPPORT. The family Device: the ends of requests that leave the module, the landing of flights, and what follows issue (01 R18, R22;
02 R35, R38; 04 R85; 06 R137; 11 R250 to R258; 22 R354; 23 R370 to R373). -/

namespace Sys2Proof.Machine

/-! ### Requests, answered or failed (11 R250, R252) -/

theorem execMemoryReply_of_awaited {s : State} {id : Nat} {r : Request} (h : s.awaited id = some r) (data : List Byte) (ok : Bool) :
    execMemoryReply id data ok s = .next (if ok then s.answer r data else s.failRequest r) := by
  rw [execMemoryReply, h]

theorem execMemoryReply_of_none {s : State} {id : Nat} (h : s.awaited id = none) (data : List Byte) (ok : Bool) :
    execMemoryReply id data ok s = .next s := by
  rw [execMemoryReply, h]

/-- A request that is awaited times out by the clock alone. -/
theorem execFabricTimeout_of_awaited {s : State} {id : Nat} {r : Request} (h : s.awaited id = some r) :
    execFabricTimeout id s = .next (if r.since + 210000 ≤ s.time then s.failRequest r else s) := by
  have hwaits : r.waits = true := by
    have hr := List.find?_some h
    simp only [Bool.and_eq_true] at hr
    exact hr.2
  have hdue : s.fabricDue r = true ↔ r.since + 210000 ≤ s.time := by
    simp [State.fabricDue, hwaits, show 100 * Config.usec = 210000 from rfl]
  rw [execFabricTimeout, h]
  simp only [hdue]

theorem execFabricTimeout_of_none {s : State} {id : Nat} (h : s.awaited id = none) : execFabricTimeout id s = .next s := by
  rw [execFabricTimeout, h]

theorem State.failRequest_of_op {s : State} {r : Request} {o : Nat} (h : r.op = some o) : s.failRequest r = s.failOp r o := by
  rw [State.failRequest, h]

theorem State.failOp_of_untold {s : State} {r : Request} (h : r.told = false) (o : Nat) : s.failOp r o = s.dropRequest r :=
  if_pos (by simp [h])

theorem State.failOp_of_putsig {s : State} {r : Request} {o : Nat} (h : r.told = true)
    (hp : ∃ x ∈ s.ops, x.id = o ∧ x.kind = .putsig) :
    s.failOp r o = (s.dropRequest r).modOp o fun x => { x with lost := x.lost ++ [(r.lane, 0x15)] } :=
  (if_neg (by simp [h])).trans (if_pos (by simpa using hp))

theorem State.failOp_of_other {s : State} {r : Request} {o : Nat} (h : r.told = true)
    (hp : ∀ x ∈ s.ops, ¬(x.id = o ∧ x.kind = .putsig)) :
    s.failOp r o = State.modOp { s with requests := s.requests.filter fun x => x.op ≠ some o } o
      fun x => { x with status := .failed 0x15 } := by
  have hne : (fun x : Request => x.op != some o) = fun x => decide (x.op ≠ some o) :=
    funext fun x => by by_cases hx : x.op = some o <;> simp [hx]
  rw [← hne]
  exact (if_neg (by simp [h])).trans (if_neg (by simpa using hp))

section

variable {s : State} {r : Request} {c : Crew} (hop : r.op = none) (hc : aget s.crews r.crew = some c)
include hop hc

theorem State.failRequest_of_store (hs : r.store = true) :
    s.failRequest r = (s.dropRequest r).setCrew r.crew { c with
      lost := c.lost ++ (if r.told then lanes32.filter (mbit r.mask) else []).map fun l => (l, r.addr) } := by
  rw [State.failRequest, hop]
  exact (if_pos hs).trans (State.modCrew_of_aget (s := s.dropRequest r) hc _)

/-- A JOINW's slices trap at once. -/
theorem State.failRequest_of_join (hs : r.store = false) (hf : c.flights.find? (fun fl => fl.group = r.group) = none) :
    s.failRequest r = (waitersOf c r).foldl (fun u i => u.trapWaiting r.crew i 0x15 r.addr) (s.dropRequest r) := by
  rw [State.failRequest, hop]
  simp [State.crew_of_aget hc, hs, hf]

theorem State.failRequest_of_flight (hs : r.store = false) {fl : Flight}
    (hf : c.flights.find? (fun fl => fl.group = r.group) = some fl) : s.failRequest r = if c.gone fl r then s.answer r []
      else { s with requests := s.requests.map fun x => if x.id = r.id then { x with failed := some 0x15 } else x } := by
  rw [State.failRequest, hop]
  simp [State.crew_of_aget hc, hs, hf]

end

theorem Crew.gone_iff {c : Crew} {fl : Flight} {r : Request} : c.gone fl r = true ↔
    if fl.uni = [] ∧ fl.eret = false then mbit c.live r.lane = false else c.aboard fl = [] := by
  unfold Crew.gone
  by_cases h : fl.uni = [] ∧ fl.eret = false
  · simp [h]
  · rw [if_neg h, if_neg (by simpa using h)]
    exact List.isEmpty_iff

/-! ### Slices that trap while they wait (08 R178, R190; 11 R258) -/

theorem State.dropGroup_of_none {s : State} {k i : Nat} (h : ((s.crew k).slice i).group = none) : s.dropGroup k i = s := by
  rw [State.dropGroup, h]

theorem State.trapWaiting_eq {s : State} {k i : Nat} {c : Crew} (hc : aget s.crews k = some c) (hg : (c.slice i).group = none)
    (code : Nat) (a : DWord) : s.trapWaiting k i code a = (s.setCrew k (c.modSlice i fun x => { x with wait := .none })).raise k i
      { code := BitVec.ofNat 8 code, info := a, addr := a
        retpc := (c.slice i).pc, word := (c.slice i).word, pfx := (c.slice i).pfx } := by
  have hs := State.crew_of_aget hc
  unfold State.trapWaiting
  rw [State.dropGroup_of_none (by rw [hs, hg]), State.modCrew_of_aget hc, hs]

/-- The wait of a slice for a route to a die since a time has gone on for 100 µs, and there is still no route. -/
theorem State.routeDue_iff {s : State} {c : Crew} {sl : Slice} {d since : Nat}
    (h : (∃ a, sl.wait = .route d a since) ∨ sl.wait = .cut d since) : s.routeDue c sl = true ↔
      sl.group = none ∧ since + 210000 ≤ s.time ∧ s.hops (cacheDie (s.site c)) d = none
        ∧ (4 ≤ d ∨ (s.die d).inService = true) := by
  unfold State.routeDue
  rcases h with ⟨a, h⟩ | h
  all_goals simp [h, and_assoc, show 100 * Config.usec = 210000 from rfl]

theorem State.routeDue_of_other {s : State} {c : Crew} {sl : Slice} (hr : ∀ d a since, sl.wait ≠ .route d a since)
    (hcut : ∀ d since, sl.wait ≠ .cut d since) : s.routeDue c sl = false := by
  unfold State.routeDue
  split
  · rename_i h
    exact absurd h (hr _ _ _)
  · rename_i h
    exact absurd h (hcut _ _)
  · rfl

theorem execRouteTimeout_of_early {s : State} {k i : Nat} (h : s.routeDue (s.crew k) ((s.crew k).slice i) = false) :
    execRouteTimeout k i s = .next s :=
  congrArg _ (if_pos (by simp [h]))

section

variable {s : State} {k i : Nat} (hd : s.routeDue (s.crew k) ((s.crew k).slice i) = true)
include hd

theorem execRouteTimeout_of_due {d since : Nat} {a : DWord} (hw : ((s.crew k).slice i).wait = .route d a since)
    (hp : ((s.crew k).slice i).pend = none) : execRouteTimeout k i s = .next (s.trapWaiting k i 0x14 a) := by
  unfold execRouteTimeout
  simp [hd, hw, hp]

theorem execRouteTimeout_of_pending {d since : Nat} {a : DWord} {t : TrapInfo} (hw : ((s.crew k).slice i).wait = .route d a since)
    (hp : ((s.crew k).slice i).pend = some t) : execRouteTimeout k i s =
      .next ((s.modCrew k fun c => c.modSlice i fun x => { x with wait := .none, pend := none }).double k i t) := by
  unfold execRouteTimeout
  simp [hd, hw, hp]

theorem execRouteTimeout_of_cut {d since : Nat} (hw : ((s.crew k).slice i).wait = .cut d since) :
    execRouteTimeout k i s = .next (s.fenceDie d) := by
  unfold execRouteTimeout
  simp [hd, hw]

end

/-- A slice that waits for anything is one of its crew's. -/
theorem Crew.slice_lt_of_wait {c : Crew} {i : Nat} (h : (c.slice i).wait ≠ .none) : i < c.slices.length := by
  by_contra hi
  exact h (by simp [Crew.slice, Nat.le_of_not_lt hi])

/-! ### JOINW, passes and promotion (02 R35; 06 R137; 23 R370) -/

theorem execJoinwReread_of_join {s : State} {k i : Nat} {a : DWord} {thr : Int} {since : Option Nat}
    (h : ((s.crew k).slice i).wait = .join a thr since) : execJoinwReread k i s =
      .next (s.modCrew k fun c => c.modSlice i fun x => { x with wait := .join a thr none }) := by
  unfold execJoinwReread
  simp [h]

theorem execJoinwReread_of_other {s : State} {k i : Nat} (h : ∀ a thr since, ((s.crew k).slice i).wait ≠ .join a thr since) :
    execJoinwReread k i s = .next s := by
  unfold execJoinwReread
  dsimp only
  split
  · rename_i hw
    exact absurd hw (h _ _ _)
  · rfl

theorem execPassRetire_eq {s : State} {k : Nat} {c : Crew} (hc : aget s.crews k = some c) : execPassRetire k s =
    .next (s.setCrew k (if c.cnt.matrix = 0 then c else { c with cnt := c.cnt.lower .matrix, passes := c.passes.drop 1 })) :=
  congrArg _ (State.modCrew_of_aget hc _)

theorem execPromotion_eq {s : State} {k i : Nat} {c : Crew} (hc : aget s.crews k = some c) : execPromotion k i s =
    .next (if 4096 ≤ (c.slice i).ready then s.setCrew k (c.modSlice i fun x => { x with promoted := true }) else s) := by
  unfold execPromotion
  rw [State.crew_of_aget hc, State.modCrew_of_aget hc]

theorem State.drowsyDue_iff {s : State} {d slice bank : Nat} : s.drowsyDue d slice bank = true ↔
    d < 4 ∧ slice < 16 ∧ bank < 24 ∧ (s.die d).inService = true ∧ (d * 16 + slice) * 24 + bank ∉ s.drowsy
      ∧ (sget s.bankUse ((d * 16 + slice) * 24 + bank)).toNat + 65536 ≤ s.clock := by
  simp [State.drowsyDue, and_assoc]

/-! ### Which flight lands, and whether it fails (07 R445; 21 R326; 22 R354) -/

/-- A flight may land: its requests are answered, no slice has lanes of it still to send, and its drop meets no MOVING page. -/
def State.Lands (s : State) (c : Crew) (fl : Flight) : Prop :=
  (∀ x ∈ s.requests, x.group = fl.group → x.waits = false) ∧ (∀ sl ∈ c.slices, sl.group ≠ some fl.group)
    ∧ (fl.drop = true → s.dropMoving (s.site c) c.tenant .whole = none)

/-- The test by which `landing` finds a flight. -/
theorem State.lands_iff {s : State} {c : Crew} {fl : Flight} :
    (s.landed fl && c.slices.all (fun sl => sl.group != some fl.group)
      && (!fl.drop || (s.dropMoving (s.site c) c.tenant .whole).isNone)) = true ↔ s.Lands c fl := by
  simp [State.Lands, State.landed, and_assoc, or_iff_not_imp_left]

theorem State.landing_of_none {s : State} {k : Nat} {c : Crew} (hc : aget s.crews k = some c)
    (h : ∀ fl ∈ c.flights, ¬s.Lands c fl) : s.landing k = none := by
  rw [State.landing, State.crew_of_aget hc]
  exact List.find?_eq_none.mpr fun fl hfl hl => h fl hfl (State.lands_iff.mp hl)

theorem State.landing_of_first {s : State} {k : Nat} {c : Crew} {before after : List Flight} {fl : Flight}
    (hc : aget s.crews k = some c) (hf : c.flights = before ++ fl :: after) (hb : ∀ x ∈ before, ¬s.Lands c x) (hl : s.Lands c fl) :
    s.landing k = some fl := by
  rw [State.landing, State.crew_of_aget hc]
  refine List.find?_eq_some_iff_append.mpr ⟨State.lands_iff.mpr hl, before, after, hf, fun x hx => ?_⟩
  rw [Bool.not_eq_true', Bool.eq_false_iff]
  exact fun h => hb x hx (State.lands_iff.mp h)

theorem execPendingWriteComplete_of_none {s : State} {k : Nat} {c : Crew} (hc : aget s.crews k = some c)
    (h : ∀ fl ∈ c.flights, ¬s.Lands c fl) : execPendingWriteComplete k s = .next (s.setCrew k { c with pend := [] }) := by
  unfold execPendingWriteComplete
  rw [State.landing_of_none hc h]
  exact congrArg _ (State.modCrew_of_aget hc _)

theorem execPendingWriteComplete_of_first {s : State} {k : Nat} {c : Crew} {before after : List Flight} {fl : Flight}
    (hc : aget s.crews k = some c) (hf : c.flights = before ++ fl :: after) (hb : ∀ x ∈ before, ¬s.Lands c x) (hl : s.Lands c fl) :
    execPendingWriteComplete k s = .next ((s.landFlight k fl).modCrew k fun x => { x with pend := [] }) := by
  unfold execPendingWriteComplete
  rw [State.landing_of_first hc hf hb hl]

/-- The failed request of the lowest lane that has not retired decides. -/
theorem State.failedLane_of_lowest {s : State} {c : Crew} {fl : Flight} {r : Request} (hr : r ∈ s.requests) (hg : r.group = fl.group)
    (hf : r.failed ≠ none) (hl : c.gone fl r = false)
    (hlow : ∀ x ∈ s.requests, x.group = fl.group → x.failed ≠ none → c.gone fl x = false → x ≠ r → r.lane < x.lane) :
    s.failedLane c fl = some r := by
  unfold State.failedLane
  extract_lets l
  have mem_l (x : Request) : x ∈ l ↔ x ∈ s.requests ∧ x.group = fl.group ∧ x.failed ≠ none ∧ c.gone fl x = false := by
    simp [l, Option.isSome_iff_ne_none, and_assoc]
  have hrl : r ∈ l := (mem_l r).mpr ⟨hr, hg, hf, hl⟩
  cases hfind : l.find? fun r => l.all fun x => r.lane ≤ x.lane with
  | none =>
    refine absurd ?_ (List.find?_eq_none.mp hfind r hrl)
    simp only [List.all_eq_true, decide_eq_true_eq]
    intro x hx
    obtain ⟨hxs, hxg, hxf, hxl⟩ := (mem_l x).mp hx
    by_cases hxr : x = r
    · rw [hxr]
    · exact Nat.le_of_lt (hlow x hxs hxg hxf hxl hxr)
  | some x =>
    obtain ⟨hxs, hxg, hxf, hxl⟩ := (mem_l x).mp (List.mem_of_find?_eq_some hfind)
    have hle : x.lane ≤ r.lane := by
      have := List.find?_some hfind
      simp only [List.all_eq_true, decide_eq_true_eq] at this
      exact this r hrl
    by_contra hxr
    exact absurd (hlow x hxs hxg hxf hxl fun h => hxr (by rw [h])) (Nat.not_lt.mpr hle)

theorem State.failedLane_of_none {s : State} {c : Crew} {fl : Flight}
    (h : ∀ x ∈ s.requests, x.group = fl.group → x.failed ≠ none → c.gone fl x = true) : s.failedLane c fl = none := by
  unfold State.failedLane
  have hnil : s.requests.filter (fun r => r.group = fl.group && r.failed.isSome && !c.gone fl r) = [] := by
    refine List.filter_eq_nil_iff.mpr fun x hx hp => ?_
    simp only [Bool.and_eq_true, decide_eq_true_eq, Bool.not_eq_true', Option.isSome_iff_ne_none] at hp
    obtain ⟨⟨hg, hf⟩, hl⟩ := hp
    simp [h x hx hg hf] at hl
  rw [hnil]
  rfl

theorem Crew.mem_aboard {c : Crew} {fl : Flight} {i : Nat} :
    i ∈ c.aboard fl ↔ i < 8 ∧ mbit fl.mask i = true ∧ c.sliceLive i = true ∧ (c.slice i).wait = .reply fl.group := by
  simp [Crew.aboard, slices8, and_assoc]

theorem Crew.aboard_nodup (c : Crew) (fl : Flight) : (c.aboard fl).Nodup := List.Nodup.filter _ List.nodup_range

/-- A change of the slices that wait for a flight. -/
theorem Crew.slice_modSlices_aboard (c : Crew) (fl : Flight) (f : Slice → Slice) (j : Nat) :
    (c.modSlices (c.aboard fl) f).slice j = if j ∈ c.aboard fl then f (c.slice j) else c.slice j := by
  rw [Crew.slice_modSlices _ _ _ (c.aboard_nodup fl)]
  by_cases hj : j ∈ c.aboard fl
  · obtain ⟨-, -, -, hw⟩ := Crew.mem_aboard.mp hj
    have hlt : j < c.slices.length := Crew.slice_lt_of_wait (by simp [hw])
    simp [hj, hlt]
  · simp [hj]

/-- The crew of a flight that fails. -/
def Crew.fail (c : Crew) (fl : Flight) : Crew :=
  { c.modSlices (c.aboard fl) fun sl => { sl with pc := fl.pc, wait := .none } with
    flights := c.flights.filter fun x => x.group ≠ fl.group }

theorem Crew.fail_frame (c : Crew) (fl : Flight) : { c.fail fl with flights := c.flights, slices := c.slices } = c := by
  rw [Crew.fail, Crew.modSlices_eq]

theorem State.landFlight_of_failed {s : State} {k code : Nat} {fl : Flight} {c : Crew} {r : Request} (hc : aget s.crews k = some c)
    (h : s.failedLane c fl = some r) (hf : r.failed = some code) :
    s.landFlight k fl = State.raiseAll
      (State.setCrew { s with requests := s.requests.filter fun x => x.group ≠ fl.group } k (c.fail fl)) k (c.aboard fl)
      { code := BitVec.ofNat 8 code, info := r.addr, addr := r.addr, retpc := fl.pc, word := fl.word, pfx := fl.pfx } := by
  have hs := State.crew_of_aget hc
  unfold State.landFlight
  rw [hs]
  simp only [h, hf, Option.getD_some]
  unfold State.failFlight
  rw [hs]
  refine congrArg (State.raiseAll · _ _ _) ((State.modCrew_of_aget (c := c) ?_ _).trans rfl)
  exact hc

/-! ### Writes of several keys -/

theorem ssetAll_append {w : Nat} (m : Sparse w) (a b : List (Nat × BitVec w)) : ssetAll m (a ++ b) = ssetAll (ssetAll m a) b :=
  List.foldl_append

theorem sget_ssetAll_of_not_mem {w : Nat} {k : Nat} {l : List (Nat × BitVec w)} (m : Sparse w) (h : ∀ x ∈ l, x.1 ≠ k) :
    sget (ssetAll m l) k = sget m k := by
  induction l generalizing m with
  | nil => rfl
  | cons x l ih =>
    refine (ih _ fun y hy => h y (List.mem_cons_of_mem _ hy)).trans (sget_sset_of_ne _ _ ?_)
    exact (h x List.mem_cons_self).symm

/-- Of keys written once each, every one reads as its value. -/
theorem sget_ssetAll_of_mem {w : Nat} {k : Nat} {v : BitVec w} {l : List (Nat × BitVec w)} (m : Sparse w)
    (hn : (l.map (·.1)).Nodup) (h : (k, v) ∈ l) : sget (ssetAll m l) k = v := by
  induction l generalizing m with
  | nil => cases h
  | cons x l ih =>
    rw [List.map_cons, List.nodup_cons] at hn
    rcases List.mem_cons.mp h with rfl | h
    · refine (sget_ssetAll_of_not_mem (sset m k v) fun y hy hk => hn.1 ?_).trans (sget_sset_self _ _ _)
      exact List.mem_map.mpr ⟨y, hy, hk⟩
    · exact ih _ hn.2 h

/-! ### What a flight writes as it lands (04 R84; 10 R214; 22 R354; 23 R372) -/

/-- The words that a lane's value gives its registers, by their keys in the register file. -/
def laneWords (sz : BitVec 3) (d : LaneDest) (bs : List Byte) : List (Nat × Word) :=
  (d.regs.zip (wordsOf (loadedValue sz bs 32) d.regs.length)).map fun x => (x.1 * 32 + d.lane, x.2)

/-- The words that the lanes that are still live write. -/
def wordWrites (live : BitVec 32) (sz : BitVec 3) (data : Nat → List Byte) (lanes : List LaneDest) : List (Nat × Word) :=
  (lanes.filter fun d => mbit live d.lane).flatMap fun d => laneWords sz d (data d.lane)

/-- The ATLOC codes that the lanes that are still live write. -/
def codeWrites (live : BitVec 32) (lanes : List LaneDest) : List (Nat × BitVec 4) :=
  (lanes.filter fun d => mbit live d.lane).flatMap fun d => d.code.toList.map fun n => (d.lane, BitVec.ofNat 4 n)

/-- The double-words that a uniform access writes. -/
def uniWrites (regs : List Nat) (v : Nat) : List (Nat × DWord) :=
  regs.zipIdx.map fun x => (x.1, BitVec.ofNat 64 (v / 2 ^ (64 * x.2)))

/-- The offsets of index registers that the commit writes. -/
def offsetWrites (offs : List (Nat × Nat × Nat)) : List (Nat × BitVec 9) :=
  offs.map fun x => (x.1 * 32 + x.2.1, BitVec.ofNat 9 x.2.2)

theorem Crew.setVregs_eq (c : Crew) (lane : Nat) (l : List (Nat × Word)) :
    l.foldl (fun c x => c.setVreg x.1 lane x.2) c
      = { c with vregs := ssetAll c.vregs (l.map fun x => (x.1 * 32 + lane, x.2)) } := by
  induction l generalizing c with
  | nil => rfl
  | cons x l ih => exact ih _

theorem Crew.landLane_eq (c : Crew) (sz : BitVec 3) (d : LaneDest) (bs : List Byte) : c.landLane sz d bs = { c with
    vregs := ssetAll c.vregs (laneWords sz d bs)
    atloc := ssetAll c.atloc (d.code.toList.map fun n => (d.lane, BitVec.ofNat 4 n)) } := by
  unfold Crew.landLane
  rw [Crew.setVregs_eq]
  cases d.code with
  | none => rfl
  | some n => rfl

theorem Crew.landLanes_eq (c : Crew) (sz : BitVec 3) (data : Nat → List Byte) (lanes : List LaneDest) :
    lanes.foldl (fun c d => if mbit c.live d.lane then c.landLane sz d (data d.lane) else c) c = { c with
      vregs := ssetAll c.vregs (wordWrites c.live sz data lanes), atloc := ssetAll c.atloc (codeWrites c.live lanes) } := by
  induction lanes generalizing c with
  | nil => rfl
  | cons d lanes ih =>
    rw [List.foldl_cons, ih]
    by_cases h : mbit c.live d.lane = true
    · simp only [if_pos h, Crew.landLane_eq, wordWrites, codeWrites, List.filter_cons, List.flatMap_cons, ssetAll_append]
    · simp only [if_neg h, wordWrites, codeWrites, List.filter_cons]

theorem Crew.setSregs_eq (c : Crew) (v : Nat) (l : List (Nat × Nat)) :
    l.foldl (fun c x => c.setSreg x.1 (BitVec.ofNat 64 (v / 2 ^ (64 * x.2)))) c
      = { c with sregs := ssetAll c.sregs (l.map fun x => (x.1, BitVec.ofNat 64 (v / 2 ^ (64 * x.2)))) } := by
  induction l generalizing c with
  | nil => rfl
  | cons x l ih => exact ih _

theorem Crew.setOffsets_eq (c : Crew) (l : List (Nat × Nat × Nat)) :
    l.foldl (fun c x => c.setOfs x.1 x.2.1 x.2.2) c = { c with xofs := ssetAll c.xofs (offsetWrites l) } := by
  induction l generalizing c with
  | nil => rfl
  | cons x l ih => exact ih _

theorem Crew.slices_modSlices (c : Crew) (is : List Nat) (f : Slice → Slice) :
    (c.modSlices is f).slices = is.foldl (fun l i => lmod l i f) c.slices := by
  induction is generalizing c with
  | nil => rfl
  | cons i is ih => exact ih _

/-- The landing of a flight, field by field. -/
theorem Crew.land_eq (c : Crew) (fl : Flight) (data : Nat → List Byte) : c.land fl data = { c with
    vregs := ssetAll c.vregs (wordWrites c.live fl.sz data fl.lanes)
    atloc := ssetAll c.atloc (codeWrites c.live fl.lanes)
    sregs := ssetAll c.sregs (uniWrites (if (c.aboard fl).isEmpty then [] else fl.uni) (loadedValue fl.sz (data 32) 64))
    xofs := ssetAll c.xofs (offsetWrites fl.offs)
    off := c.off ||| fl.off
    exec := c.exec &&& ~~~fl.off
    slices := (c.modSlices (c.aboard fl) fun sl => { sl with wait := .none }).slices
    flights := c.flights.filter fun x => x.group ≠ fl.group } := by
  unfold Crew.land
  simp only [Crew.landLanes_eq, Crew.setSregs_eq, Crew.setOffsets_eq]
  rw [Crew.modSlices_eq]
  simp only [Crew.slices_modSlices]
  rfl

theorem wordsOf_length (x n : Nat) : (wordsOf x n).length = n := by simp [wordsOf]

theorem laneWords_keys (sz : BitVec 3) (d : LaneDest) (bs : List Byte) :
    (laneWords sz d bs).map (·.1) = d.regs.map fun r => r * 32 + d.lane := by
  rw [laneWords, List.map_map]
  have h : ((fun x : Nat × Word => x.1) ∘ fun x : Nat × Word => (x.1 * 32 + d.lane, x.2))
      = (fun r => r * 32 + d.lane) ∘ Prod.fst := rfl
  rw [h, ← List.map_map, List.map_fst_zip (by rw [wordsOf_length])]

theorem key_of_mem_laneWords {sz : BitVec 3} {d : LaneDest} {bs : List Byte} {x : Nat × Word} (h : x ∈ laneWords sz d bs) :
    ∃ r ∈ d.regs, x.1 = r * 32 + d.lane := by
  have hk : x.1 ∈ (laneWords sz d bs).map (·.1) := List.mem_map_of_mem h
  rw [laneWords_keys, List.mem_map] at hk
  obtain ⟨r, hr, e⟩ := hk
  exact ⟨r, hr, e.symm⟩

theorem mem_laneWords {sz : BitVec 3} {d : LaneDest} {bs : List Byte} {j : Nat} (hj : j < d.regs.length) :
    (d.regs.getD j 0 * 32 + d.lane, (wordsOf (loadedValue sz bs 32) d.regs.length).getD j 0) ∈ laneWords sz d bs := by
  refine List.mem_map.mpr ⟨(d.regs.getD j 0, (wordsOf (loadedValue sz bs 32) d.regs.length).getD j 0), ?_, rfl⟩
  have hlen : j < (d.regs.zip (wordsOf (loadedValue sz bs 32) d.regs.length)).length := by simp [wordsOf_length, hj]
  have hmem := List.getElem_mem hlen
  rw [List.getElem_zip] at hmem
  rwa [List.getD_eq_getElem _ _ hj, List.getD_eq_getElem _ _ (by rwa [wordsOf_length])]

section

variable {live : BitVec 32} {lanes : List LaneDest} (hn : (lanes.map (·.lane)).Nodup)
include hn

/-- No two lanes of a flight are the same, among those that are still live too. -/
theorem liveLanes_pairwise : (lanes.filter fun d => mbit live d.lane).Pairwise fun x y => x.lane ≠ y.lane :=
  (List.pairwise_map.mp hn).filter _

theorem wordWrites_nodup (sz : BitVec 3) (data : Nat → List Byte) (h : ∀ x ∈ lanes, x.lane < 32 ∧ x.regs.Nodup) :
    ((wordWrites live sz data lanes).map (·.1)).Nodup := by
  rw [wordWrites, List.map_flatMap, List.nodup_flatMap]
  constructor
  · intro d hd
    rw [laneWords_keys]
    exact (h d (List.mem_of_mem_filter hd)).2.map fun a b e => by omega
  · refine (liveLanes_pairwise hn).imp_of_mem fun {x y} hx hy hxy => ?_
    simp only [Function.onFun, laneWords_keys]
    intro k hkx hky
    obtain ⟨r, -, rfl⟩ := List.mem_map.mp hkx
    obtain ⟨q, -, e⟩ := List.mem_map.mp hky
    have hx := (h x (List.mem_of_mem_filter hx)).1
    have hy := (h y (List.mem_of_mem_filter hy)).1
    omega

theorem codeWrites_nodup : ((codeWrites live lanes).map (·.1)).Nodup := by
  rw [codeWrites, List.map_flatMap, List.nodup_flatMap]
  constructor
  · intro d _
    cases d.code with
    | none => exact List.nodup_nil
    | some n => exact List.nodup_singleton _
  · refine (liveLanes_pairwise hn).imp fun {x y} hxy => ?_
    intro k hkx hky
    simp only [List.map_map, List.mem_map, Function.comp] at hkx hky
    obtain ⟨-, -, rfl⟩ := hkx
    obtain ⟨-, -, e⟩ := hky
    exact hxy e.symm

end

section

variable (c : Crew) (fl : Flight) (data : Nat → List Byte)

theorem Crew.land_vreg (hn : (fl.lanes.map (·.lane)).Nodup) (hl : ∀ x ∈ fl.lanes, x.lane < 32 ∧ x.regs.Nodup) {x : LaneDest}
    (hx : x ∈ fl.lanes) (hlive : mbit c.live x.lane = true) {j : Nat} (hj : j < x.regs.length) :
    (c.land fl data).vreg (x.regs.getD j 0) x.lane
      = (wordsOf (loadedValue fl.sz (data x.lane) 32) x.regs.length).getD j 0 := by
  rw [Crew.land_eq]
  refine sget_ssetAll_of_mem _ (wordWrites_nodup hn _ _ hl) ?_
  exact List.mem_flatMap.mpr ⟨x, List.mem_filter.mpr ⟨hx, hlive⟩, mem_laneWords hj⟩

theorem Crew.land_vreg_of_not_mem (hl : ∀ x ∈ fl.lanes, x.lane < 32 ∧ x.regs.Nodup) {n l : Nat} (h32 : l < 32)
    (h : ∀ x ∈ fl.lanes, x.lane = l → mbit c.live l = true → n ∉ x.regs) : (c.land fl data).vreg n l = c.vreg n l := by
  rw [Crew.land_eq]
  refine sget_ssetAll_of_not_mem _ fun e he hk => ?_
  obtain ⟨x, hx, he⟩ := List.mem_flatMap.mp he
  obtain ⟨hx, hlive⟩ := List.mem_filter.mp hx
  obtain ⟨r, hr, hkey⟩ := key_of_mem_laneWords he
  have hxl := (hl x hx).1
  have hlane : x.lane = l := by omega
  have hreg : r = n := by omega
  exact h x hx hlane (hlane ▸ hlive) (hreg ▸ hr)

theorem Crew.land_atloc (hn : (fl.lanes.map (·.lane)).Nodup) {x : LaneDest} (hx : x ∈ fl.lanes) (hlive : mbit c.live x.lane = true)
    {n : Nat} (hc : x.code = some n) : sget (c.land fl data).atloc x.lane = BitVec.ofNat 4 n := by
  rw [Crew.land_eq]
  refine sget_ssetAll_of_mem _ (codeWrites_nodup hn) ?_
  exact List.mem_flatMap.mpr ⟨x, List.mem_filter.mpr ⟨hx, hlive⟩, by simp [hc]⟩

theorem Crew.land_atloc_of_none {l : Nat} (h : ∀ x ∈ fl.lanes, x.lane = l → mbit c.live l = true → x.code = none) :
    sget (c.land fl data).atloc l = sget c.atloc l := by
  rw [Crew.land_eq]
  refine sget_ssetAll_of_not_mem _ fun e he hk => ?_
  obtain ⟨x, hx, he⟩ := List.mem_flatMap.mp he
  obtain ⟨hx, hlive⟩ := List.mem_filter.mp hx
  obtain ⟨n, hn, rfl⟩ := List.mem_map.mp he
  dsimp only at hk
  rw [h x hx hk (hk ▸ hlive)] at hn
  cases hn

theorem Crew.land_sreg (hn : fl.uni.Nodup) (ha : c.aboard fl ≠ []) {j : Nat} (hj : j < fl.uni.length) :
    (c.land fl data).sreg (fl.uni.getD j 0) = BitVec.ofNat 64 (loadedValue fl.sz (data 32) 64 / 2 ^ (64 * j)) := by
  rw [Crew.land_eq, if_neg (by simpa using ha)]
  refine sget_ssetAll_of_mem _ ?_ ?_
  · rw [uniWrites, List.map_map]
    exact (List.zipIdx_map_fst 0 fl.uni).symm ▸ hn
  · refine List.mem_map.mpr ⟨(fl.uni.getD j 0, j), ?_, rfl⟩
    rw [List.mk_mem_zipIdx_iff_getElem?, List.getD_eq_getElem _ _ hj]
    exact List.getElem?_eq_getElem hj

theorem Crew.land_sreg_of_not_mem {q : Nat} (h : q ∉ fl.uni ∨ c.aboard fl = []) : (c.land fl data).sreg q = c.sreg q := by
  rw [Crew.land_eq]
  refine sget_ssetAll_of_not_mem _ fun e he hk => ?_
  obtain ⟨x, hx, rfl⟩ := List.mem_map.mp he
  have hmem := List.fst_mem_of_mem_zipIdx hx
  rcases h with h | h
  · split at hmem
    · cases hmem
    · exact h (hk ▸ hmem)
  · simp [h] at hmem

theorem Crew.land_ofs (hn : (fl.offs.map fun x => (x.1, x.2.1)).Nodup) (hl : ∀ x ∈ fl.offs, x.2.1 < 32) {x : Nat × Nat × Nat}
    (hx : x ∈ fl.offs) : (c.land fl data).ofs x.1 x.2.1 = x.2.2 % 512 := by
  have hkeys : ((offsetWrites fl.offs).map (·.1)).Nodup := by
    rw [offsetWrites, List.map_map]
    refine (List.pairwise_map.mpr ((List.pairwise_map.mp hn).imp_of_mem fun {x y} hx hy hxy e => hxy ?_))
    have hx := hl x hx
    have hy := hl y hy
    dsimp only [Function.comp] at e
    exact Prod.ext (by dsimp only; omega) (by dsimp only; omega)
  rw [Crew.land_eq, Crew.ofs]
  refine (congrArg BitVec.toNat (sget_ssetAll_of_mem _ hkeys (List.mem_map_of_mem hx))).trans ?_
  rw [BitVec.toNat_ofNat]

theorem Crew.land_ofs_of_not_mem (hl : ∀ x ∈ fl.offs, x.2.1 < 32) {n l : Nat} (h32 : l < 32)
    (h : ∀ x ∈ fl.offs, (x.1, x.2.1) ≠ (n, l)) : (c.land fl data).ofs n l = c.ofs n l := by
  rw [Crew.land_eq]
  refine congrArg BitVec.toNat (sget_ssetAll_of_not_mem _ fun e he hk => ?_)
  obtain ⟨x, hx, rfl⟩ := List.mem_map.mp he
  have hxl := hl x hx
  dsimp only at hk
  exact h x hx (Prod.ext (by dsimp only; omega) (by dsimp only; omega))

theorem Crew.land_off (l : Nat) : mbit (c.land fl data).off l = (mbit c.off l || mbit fl.off l) := by
  rw [Crew.land_eq]
  exact BitVec.getLsbD_or

theorem Crew.land_exec {l : Nat} (hl : l < 32) : mbit (c.land fl data).exec l = (mbit c.exec l && !mbit fl.off l) := by
  rw [Crew.land_eq]
  simp [mbit, hl]

theorem Crew.land_slice (j : Nat) :
    (c.land fl data).slice j = if j ∈ c.aboard fl then { c.slice j with wait := .none } else c.slice j := by
  rw [Crew.land_eq]
  exact c.slice_modSlices_aboard fl _ j

end

/-- The end of a flight of a crew none of whose lanes has failed, once its drop is made. -/
def State.touchDown (u : State) (k : Nat) (c : Crew) (fl : Flight) : State :=
  let w := State.modCrew { u with requests := u.requests.filter fun x => x.group ≠ fl.group } k fun c => c.land fl (u.flown fl)
  if fl.eret then
    match c.aboard fl with
    | i :: _ => (w.modCrew k fun c => popRecord c i (u.flown fl 32)).deliverPending k
    | [] => w
  else w

theorem State.landFlight_of_ok {s : State} {k : Nat} {fl : Flight} {c : Crew} (hc : aget s.crews k = some c)
    (h : s.failedLane c fl = none) :
    s.landFlight k fl = (if fl.drop then s.dropRange (s.site c) c.tenant .whole else s).touchDown k c fl := by
  unfold State.landFlight
  rw [State.crew_of_aget hc]
  simp only [h]
  rfl

section

variable {u : State} {k : Nat} {c : Crew} {fl : Flight} (hc : aget u.crews k = some c)
include hc

theorem State.modCrew_land : State.modCrew { u with requests := u.requests.filter fun x => x.group ≠ fl.group } k
      (fun c => c.land fl (u.flown fl))
    = State.setCrew { u with requests := u.requests.filter fun x => x.group ≠ fl.group } k (c.land fl (u.flown fl)) := by
  rw [State.modCrew_of_aget (c := c)]
  exact hc

theorem State.touchDown_of_plain (he : fl.eret = false) : u.touchDown k c fl
    = State.setCrew { u with requests := u.requests.filter fun x => x.group ≠ fl.group } k (c.land fl (u.flown fl)) := by
  unfold State.touchDown
  rw [State.modCrew_land hc]
  simp [he]

/-- An ERET whose record has come returns by it. -/
theorem State.touchDown_of_eret (he : fl.eret = true) {i : Nat} {rest : List Nat} (ha : c.aboard fl = i :: rest) :
    u.touchDown k c fl = ((State.setCrew { u with requests := u.requests.filter fun x => x.group ≠ fl.group } k
      (c.land fl (u.flown fl))).setCrew k (popRecord (c.land fl (u.flown fl)) i (u.flown fl 32))).deliverPending k := by
  unfold State.touchDown
  rw [State.modCrew_land hc]
  simp only [he, ha, if_true]
  rw [State.modCrew_of_aget (c := c.land fl (u.flown fl))]
  rw [State.aget_setCrew, if_pos rfl]
  exact congrArg (Option.map _) hc

end

/-- A drop changes neither the requests nor the crews. -/
theorem State.dropIf_frame (s : State) (fl : Flight) (site : CacheId) (t : Nat) :
    let u := if fl.drop then s.dropRange site t .whole else s
    u.requests = s.requests ∧ u.crews = s.crews ∧ u.flown fl = s.flown fl := by
  intro u
  have hu : s.MemoryOnly u := by
    dsimp only [u]
    split
    · exact s.dropRange_only _ _ _
    · exact .refl s
  have hreq : u.requests = s.requests := by rw [← hu.frame]
  exact ⟨hreq, hu.crews, funext fun l => by rw [State.flown, State.flown, hreq]⟩

/-- Settles O48: each reply, timeout and step after issue by what it does in each of its cases. -/
theorem repliesAndWhatFollowsIssue : Obligations.RepliesAndWhatFollowsIssue := by
  unfold Obligations.RepliesAndWhatFollowsIssue
  intro awaits gone kept aboard lapsed fails
  have hlapsed (c : Crew) (fl : Flight) (r : Request) : lapsed c fl r ↔ c.gone fl r = true := Crew.gone_iff.symm
  have hfails (s : State) (r : Request) : fails s r (.next (s.failRequest r)) := by
    refine ⟨fun o ho => ?_, fun c ho hc => ⟨fun hs => ?_, fun hs hf => ?_, fun fl hs hf => ?_⟩⟩
    · rw [State.failRequest_of_op ho]
      exact ⟨fun h => congrArg _ (State.failOp_of_untold h o), fun h hp => congrArg _ (State.failOp_of_putsig h hp),
        fun h hp => congrArg _ (State.failOp_of_other h hp)⟩
    · rw [State.failRequest_of_store ho hc hs]
      cases r.told with
      | false => rfl
      | true => rfl
    · exact congrArg _ (State.failRequest_of_join ho hc hs hf)
    · rw [State.failRequest_of_flight ho hc hs hf, hlapsed]
      exact ⟨fun h => congrArg _ ((if_pos h).trans (if_neg (by simp [hs]))), fun h => congrArg _ (if_neg h)⟩
  refine ⟨?reply, ?noReply, ?trap, ?route, ?crew, ?failed, ?landed, ?drowsy, fun s d => rfl⟩
  case reply =>
    intro s id r data h
    refine ⟨execMemoryReply_of_awaited h data true, ?_, fun hlate => ?_, fun hearly => ?_⟩
    · exact (congrArg (fails s r) (execMemoryReply_of_awaited h data false)).mpr (hfails s r)
    · exact (congrArg (fails s r) ((execFabricTimeout_of_awaited h).trans (congrArg _ (if_pos hlate)))).mpr (hfails s r)
    · exact (execFabricTimeout_of_awaited h).trans (congrArg _ (if_neg (Nat.not_le.mpr hearly)))
  case noReply =>
    intro s id data ok h
    have hnone : s.awaited id = none := Option.eq_none_iff_forall_ne_some.mpr h
    exact ⟨execMemoryReply_of_none hnone data ok, execFabricTimeout_of_none hnone⟩
  case trap =>
    intro s k i code a c hc hg
    refine ⟨_, _, State.trapWaiting_eq hc hg code a, fun j => ?_, rfl, rfl, rfl, rfl, rfl, rfl, rfl⟩
    rw [Crew.slice_modSlice]
    exact if_congr (and_congr_right fun h => by rw [h]) rfl rfl
  case route =>
    intro s k i c go due
    have early (h : s.routeDue c (c.slice i) ≠ true) : go = .next s := execRouteTimeout_of_early (Bool.not_eq_true _ ▸ h)
    refine ⟨fun d a since hw => ?_, fun d since hw => ?_, fun hr hcut => early (by simp [State.routeDue_of_other hr hcut])⟩
    · have hdue : s.routeDue c (c.slice i) = true ↔ due d since := State.routeDue_iff (.inl ⟨a, hw⟩)
      refine ⟨fun h hp => execRouteTimeout_of_due (hdue.mpr h) hw hp, fun x h hp hc => ?_, fun h => early (h ∘ hdue.mp)⟩
      refine ⟨_, (execRouteTimeout_of_pending (hdue.mpr h) hw hp).trans (congrArg (fun u => Host.Outcome.next (State.double u k i x))
        (State.modCrew_of_aget hc _)), fun j => ?_, rfl⟩
      rw [Crew.slice_modSlice]
      refine if_congr (and_iff_left_of_imp ?_) rfl rfl
      rintro rfl
      exact Crew.slice_lt_of_wait (by simp [hw])
    · have hdue : s.routeDue c (c.slice i) = true ↔ due d since := State.routeDue_iff (.inr hw)
      exact ⟨fun h => execRouteTimeout_of_cut (hdue.mpr h) hw, fun h => early (h ∘ hdue.mp)⟩
  case crew =>
    intro s k i c hc
    have hs := State.crew_of_aget hc
    refine ⟨fun a thr since hw => ?_, fun hw => execJoinwReread_of_other (by rwa [hs]),
      ⟨execPendingWriteComplete_of_none hc, fun before fl after => execPendingWriteComplete_of_first hc⟩,
      fun h => (execPassRetire_eq hc).trans ?_, fun h => (execPassRetire_eq hc).trans ?_,
      fun h => (execPromotion_eq hc).trans (congrArg _ (if_pos h)),
      fun h => (execPromotion_eq hc).trans (congrArg _ (if_neg (Nat.not_le.mpr h)))⟩
    · exact (execJoinwReread_of_join (by rw [hs, hw])).trans (congrArg _ (State.modCrew_of_aget hc _))
    · rw [if_neg h]
      rfl
    · rw [if_pos h]
  case failed =>
    intro s k code fl c r hc hr hg hf hl hlow
    simp only [hlapsed, Bool.not_eq_true] at hl hlow
    have hfirst := State.failedLane_of_lowest hr hg (by simp [hf]) hl hlow
    exact ⟨c.fail fl, State.landFlight_of_failed hc hfirst hf, c.slice_modSlices_aboard fl _, rfl, c.fail_frame fl⟩
  case landed =>
    intro s k fl c hc hok u bytes hn hl hu ho ho32
    have hland := State.landFlight_of_ok hc (State.failedLane_of_none fun x hx hg hf => (hlapsed c fl x).mp (hok x hx hg hf))
    obtain ⟨hreq, hcrews, hflown⟩ := s.dropIf_frame fl (s.site c) c.tenant
    have hcu : aget u.crews k = some c := by rw [hcrews, hc]
    refine ⟨_, c.land fl bytes, rfl, fun he => ?_, fun i rest he ha => ?_, fun x hx hlive =>
      ⟨fun j hj => c.land_vreg fl bytes hn hl hx hlive hj, fun n => c.land_atloc fl bytes hn hx hlive⟩,
      fun n l => c.land_vreg_of_not_mem fl bytes hl, fun l => c.land_atloc_of_none fl bytes, fun j ha => c.land_sreg fl bytes hu ha,
      fun q => c.land_sreg_of_not_mem fl bytes, fun x => c.land_ofs fl bytes ho ho32, fun n l => c.land_ofs_of_not_mem fl bytes ho32,
      fun l _ => c.land_off fl bytes l, fun l => c.land_exec fl bytes, c.land_slice fl bytes, by rw [c.land_eq], by rw [c.land_eq]⟩
    · have h := hland.trans (State.touchDown_of_plain hcu he)
      rwa [hreq, hflown] at h
    · have h := hland.trans (State.touchDown_of_eret hcu he ha)
      rwa [hreq, hflown] at h
  case drowsy =>
    intro s d slice bank
    exact ⟨fun h => congrArg _ (if_pos (State.drowsyDue_iff.mpr h)),
      fun h => congrArg _ (if_neg fun hd => h (State.drowsyDue_iff.mp hd))⟩

end Sys2Proof.Machine
end

section
/-! SUPPORT. The family Execution: every instruction and every step of the device gives a next state, and the turns that inputs, events
and gangs take (02 R33 to R37; 08 R175; 14 R302). -/

namespace Sys2Proof.Machine

/-! ### Every meaning gives a next state -/

theorem isEmpty_encA (maj : BitVec 5) (fn : BitVec 3) (f : FmtA) : (encA maj fn f).isEmpty = false := by simp [encA]

theorem isEmpty_encM (maj : BitVec 5) (f : FmtM) : (encM maj f).isEmpty = false := by simp [encM]

theorem isNext_withIssue {s : State} (h : s.issue ≠ none) (f : State → Issue → State) : ∃ t, withIssue s f = .next t := by
  obtain ⟨iss, hi⟩ := Option.ne_none_iff_exists'.mp h
  exact ⟨_, withIssue_of hi f⟩

section
variable {f : FmtA} {s : State} (h : s.issue ≠ none)
include h

theorem isNext_int1 (e : Int → Int → Int) : ∃ t, int1 f s e = .next t := isNext_withIssue h _

theorem isNext_bitop (e : Ty → Nat → Nat → Nat) : ∃ t, bitop f s e = .next t := isNext_withIssue h _

theorem isNext_flt2 (e : Fmt → Nat → Nat → FRes) : ∃ t, flt2 f s e = .next t := isNext_withIssue h _

theorem isNext_fsp (e : FVal → Option FRes) : ∃ t, fsp f s e = .next t := isNext_withIssue h _

theorem isNext_reduction (admits : Nat → Nat → Bool) : ∃ t, reduction f s admits = .next t := isNext_withIssue h _

theorem isNext_predop (e : BitVec 32 → BitVec 32 → BitVec 32) : ∃ t, predop f s e = .next t := isNext_withIssue h _

theorem isNext_atomic (fm : AtomForm) : ∃ t, atomic fm f s = .next t := isNext_withIssue h _

theorem isNext_barForm (stay : Crew → List Nat → Nat → Nat → BitVec 32 → Crew) : ∃ t, barForm f s stay = .next t :=
  isNext_withIssue h _

theorem isNext_gridForm (stay : Crew → List Nat → Nat → BitVec 32 → Crew) : ∃ t, gridForm f s stay = .next t :=
  isNext_withIssue h _

theorem isNext_rowInstr (kind : EngKind) (scatter : Bool) : ∃ t, rowInstr f s kind scatter = .next t := isNext_withIssue h _

theorem isNext_matrixPass (diagonal : Bool) : ∃ t, matrixPass diagonal f s = .next t := isNext_withIssue h _

end

/-- A row without words is a step of the device, which needs no gang; the others run for the gang that issues. -/
theorem isNext_exec {i : Instr} {s : State} (h : i.encoded = true → s.issue ≠ none) : ∃ t, exec i s = .next t := by
  cases i <;> dsimp only [exec]
  case launch | nopPacket | barrierAnd | barrierAndComplete | signalPacket | copyPacket | queueDoorbell | queuePoll | ccbgo
    | qctlActivate | qctlDrain | qctlAbort | fqreplay | fqreplayTrap | fqtailPoll | hbreg | hbfence | heartbeatWrite | hostFence
    | snaptrig | snapin | snapheld | connWrite | circuitDrainEnd | serviceRegisterWrite | hostRead | hostWrite | hostAtomicop
    | atsInvalidation | read | write | atomic | mwrite | redread | signal | cdata | fabricTimeout | routeTimeout | remapStart
    | invalidation | acknowledge | acknowledgeReceipt | remapComplete | cut | requestResend | drowsy | promotion | memoryReply
    | pendingWriteComplete | tilePost | engineRetire | engineFault | passRetire | collectiveRun | partyPlace | partyRetire | preempt
    | partySave | preemptTimeout | partyRestore | dieHeartbeat | dieHeartbeatMissing | dieFence | dieRestart | dieCheckpoint
    | fundamentalReset | hostLinkLoss | firmwareBoot | firmwareUpdate | spdmMeasurement | powerLimit | joinwReread
    | groupTableWrite | copyPacketComplete => exact ⟨_, rfl⟩
  all_goals replace h := h (by simp [Instr.encoded, encode, encC, encImm, isEmpty_encA, isEmpty_encM])
  case iadd | isub | imul | imin | imax => exact isNext_int1 h _
  case band | bor | bxor | bandn | shl | shr | sar | bfx => exact isNext_bitop h _
  case fadd | fmul | fmin | fmax => exact isNext_flt2 h _
  case frcp | frsq | fsqrt | fexp2 | flog2 | fsinpi | fcospi => exact isNext_fsp h _
  case redux | scan => exact isNext_reduction h _
  case pand | por | pxor | pandn | pmov => exact isNext_predop h _
  case atom | red | acas | atoms | rwl => exact isNext_atomic h _
  case bar | barArrive => exact isNext_barForm h _
  case gbar | gbarArrive => exact isNext_gridForm h _
  case gather | scatter => exact isNext_rowInstr h _ _
  case mma | mmab => exact isNext_matrixPass h _
  all_goals exact isNext_withIssue h _

theorem isNext_mapNext {f : State → State} {o : Host.Outcome State Fault Refusal} (h : ∃ t, o = .next t) :
    ∃ t, mapNext f o = .next t := by
  obtain ⟨t, rfl⟩ := h
  exact ⟨f t, rfl⟩

theorem isNext_stepGang (s : State) (g : Cand) : ∃ t, stepGang s g = .next t := by
  unfold stepGang
  dsimp only
  split
  · split
    · exact ⟨_, rfl⟩
    · exact isNext_mapNext (isNext_exec fun _ => Option.some_ne_none _)
  · split
    · exact ⟨_, rfl⟩
    · split
      · exact ⟨_, rfl⟩
      · exact isNext_mapNext (isNext_exec fun _ => Option.some_ne_none _)

/-! ### The turns of inputs, events and gangs (log 4) -/

theorem State.encoded_of_internalEvent {s : State} {e : Instr} (h : s.internalEvent = some e) : e.encoded = false := by
  have := (Option.filter_eq_some_iff.mp h).2
  simpa using this

theorem stepEvent_of_some {s : State} {e : Instr} (h : s.internalEvent = some e) (other : Host.Outcome State Fault Refusal) :
    stepEvent s other = exec e { s.idleCycle.takeUp e with turn := false, rota := s.rota + 1 } := by simp [stepEvent, h]

theorem stepEvent_of_none {s : State} (h : s.internalEvent = none) (other : Host.Outcome State Fault Refusal) :
    stepEvent s other = other := by simp [stepEvent, h]

theorem isNext_stepEvent (s : State) {other : Host.Outcome State Fault Refusal} (ho : ∃ t, other = .next t) :
    ∃ t, stepEvent s other = .next t := by
  cases h : s.internalEvent with
  | none => rwa [stepEvent_of_none h]
  | some e =>
    rw [stepEvent_of_some h]
    exact isNext_exec fun he => absurd he (by simp [State.encoded_of_internalEvent h])

theorem step_of_input {s : State} {e : Instr} {rest : List Instr} (h : s.inputs = e :: rest) :
    step s = exec e { s with inputs := rest } := by simp [step, h]

theorem step_of_gang {s : State} {g : Cand} (h : s.inputs = []) (hg : s.chooseGang = some g) :
    step s = if s.turn then stepEvent s (stepGang s g) else stepGang s g := by simp [step, h, hg]

theorem step_of_no_gang {s : State} (h : s.inputs = []) (hg : s.chooseGang = none) :
    step s = stepEvent s (stepIdle s) := by simp [step, h, hg]

theorem isNext_step {s : State} (h : ∀ e rest, s.inputs = e :: rest → e.encoded = false) : ∃ t, step s = .next t := by
  cases hi : s.inputs with
  | cons e rest =>
    rw [step_of_input hi]
    exact isNext_exec fun he => absurd he (by simp [h e rest hi])
  | nil =>
    cases hg : s.chooseGang with
    | none =>
      rw [step_of_no_gang hi hg]
      exact isNext_stepEvent s ⟨_, rfl⟩
    | some g =>
      rw [step_of_gang hi hg]
      split
      · exact isNext_stepEvent s (isNext_stepGang s g)
      · exact isNext_stepGang s g

theorem step_of_event {s : State} {e : Instr} (hi : s.inputs = []) (hturn : s.turn = true ∨ s.chooseGang = none)
    (he : s.internalEvent = some e) : step s = exec e { s.idleCycle.takeUp e with turn := false, rota := s.rota + 1 } := by
  cases hg : s.chooseGang with
  | none => rw [step_of_no_gang hi hg, stepEvent_of_some he]
  | some g =>
    have ht : s.turn = true := hturn.resolve_right (by simp [hg])
    rw [step_of_gang hi hg, if_pos ht, stepEvent_of_some he]

theorem step_eq_stepGang {s : State} {g : Cand} (hi : s.inputs = []) (he : s.turn = true → s.internalEvent = none)
    (hg : s.chooseGang = some g) : step s = stepGang s g := by
  rw [step_of_gang hi hg]
  split
  case isTrue ht => exact stepEvent_of_none (he ht) _
  case isFalse => rfl

/-! ### Which event is next (02 R37; 08 R175) -/

/-- A rotated list begins with the member that has its turn. -/
theorem rotate_eq_cons {α : Type} {n : Nat} {l : List α} {a : α} (h : l[n % l.length]? = some a) :
    ∃ rest, rotate n l = a :: rest := by
  obtain ⟨hlt, rfl⟩ := List.getElem?_eq_some_iff.mp h
  exact ⟨_, by rw [rotate, List.drop_eq_getElem_cons hlt, List.cons_append]⟩

theorem State.internalEvent_of_source {s : State} {f : State → Nat → Option Instr} {e : Instr} (hr : s.replayEvent = none)
    (he : e.encoded = false) (hf : eventSources[s.rota % eventSources.length]? = some f)
    (hs : f s (s.rota / eventSources.length) = some e) : s.internalEvent = some e := by
  obtain ⟨rest, hrot⟩ := rotate_eq_cons hf
  simp [State.internalEvent, hr, hrot, hs, he]

theorem State.internalEvent_of_replay {s : State} {n : Nat} {e : Instr} {rest : List (Nat × Instr)}
    (hr : s.replays = (n, e) :: rest) (he : e.encoded = false)
    (hc : ∀ c ∈ s.candidates, ∀ m, c.first = some m → m = 0 ∨ n ≤ m) : s.internalEvent = some e := by
  have hfirst : (s.candidates.any fun c => c.first.any fun m => m ≠ 0 && m < n) = false := by
    simp only [List.any_eq_false, Option.any_eq_true, not_exists, not_and]
    intro c hcm m hm hlt
    have := hc c hcm m hm
    simp at hlt
    omega
  have hev : s.replayEvent = some e := by simp only [State.replayEvent, hr, hfirst]; rfl
  simp [State.internalEvent, hev, he]

/-- Words that are no instruction trap ILLEGAL in the gang (14 R302). -/
theorem stepGang_of_no_instr {s s2 : State} {g : Cand} {f : Fetched}
    (hin : (((s.begin g).crew g.crew).slice g.lead).inside = none)
    (hf : (s.begin g).fetch ((s.begin g).crew g.crew) (((s.begin g).crew g.crew).slice g.lead).pc = (s2, .ok f))
    (hd : f.instr = none) : stepGang s g = .next (s2.illegal (s2.issueOf g f)) := by
  simp only [stepGang, hin, hf, hd]

theorem Fetched.instr_eq (f : Fetched) : f.instr = (decodeWords (f.pfx.toList ++ [f.word])).toOption.map (·.1) := by
  obtain ⟨w, _ | p, n⟩ := f
  all_goals
    dsimp only [Fetched.instr, Option.toList]
    generalize decodeWords _ = o
    cases o <;> rfl

theorem Fetched.instr_eq_none {f : Fetched} (h : ∀ i rest, decodeWords (f.pfx.toList ++ [f.word]) ≠ .ok (i, rest)) :
    f.instr = none := by
  rw [f.instr_eq]
  cases hd : decodeWords (f.pfx.toList ++ [f.word]) with
  | ok x => exact absurd hd (h x.1 x.2)
  | error e => rfl

/-- Settles O2: each meaning gives a next state once a gang is named for an encoded instruction, and `step` names one. -/
theorem everyStateSteps : Obligations.EveryStateSteps := by
  refine ⟨fun s => isNext_step, fun s e rest => step_of_input, fun s e => step_of_event,
    fun s f e => State.internalEvent_of_source, fun s n e rest => State.internalEvent_of_replay, fun s hi hg he => ?_,
    fun s g s2 f hi he hg hin hf hd => ?_⟩
  · rw [step_of_no_gang hi hg, stepEvent_of_none he, stepIdle]
  · rw [step_eq_stepGang hi he hg, stepGang_of_no_instr hin hf (Fetched.instr_eq_none hd)]
    rfl

end Sys2Proof.Machine
end

section
/-! SUPPORT. The family Execution: the tiles of a walk that are left, and what handing one out takes of them (02 R40 to R42). -/

namespace Sys2Proof.Machine

/-! ### The tiles that are left -/

/-- The tiles of a walk that no core has reserved: those that came back, and those that the work counter has not reached. -/
def Walk.pool (w : Walk) : List Nat := w.returned ++ List.range' w.counter (w.count - w.counter)

/-- The tiles of a walk that have not been handed out. -/
def Walk.left (w : Walk) : List Nat :=
  w.returned ++ w.reserved.flatMap (·.2) ++ List.range' w.counter (w.count - w.counter)

/-- Each tile that is left is left once, and each core has one list of reserved tiles. -/
def Walk.Sound (w : Walk) : Prop := w.left.Nodup ∧ (w.reserved.map (·.1)).Nodup

theorem Walk.left_perm (w : Walk) : w.left.Perm (w.reserved.flatMap (·.2) ++ w.pool) := by
  rw [Walk.left, Walk.pool, List.append_assoc]
  exact List.perm_append_comm_assoc ..

/-! ### Reserving ahead -/

theorem reserveTiles_reserved (n : Nat) (w : Walk) (mine : List Nat) : (reserveTiles n w mine).1.reserved = w.reserved := by
  fun_induction reserveTiles n w mine <;> simp_all

/-- Reserving moves tiles from the pool to the core's list, and loses none. -/
theorem reserveTiles_perm (n : Nat) (w : Walk) (mine : List Nat) :
    ((reserveTiles n w mine).2 ++ (reserveTiles n w mine).1.pool).Perm (mine ++ w.pool) := by
  fun_induction reserveTiles n w mine with
  | case1 w mine => rfl
  | case2 n w mine h => rfl
  | case3 n w mine h t rest hr ih =>
    refine ih.trans ?_
    simp [Walk.pool, Walk.count, hr]
  | case4 n w mine h hr hc ih =>
    refine ih.trans ?_
    have hrange : w.count - w.counter = (w.count - (w.counter + 1)) + 1 := by omega
    rw [Walk.pool, Walk.pool, hr, hrange, List.range'_succ]
    simp [Walk.count]
  | case5 n w mine h hr hc => rfl

theorem reserveTiles_prefix (n : Nat) (w : Walk) (mine : List Nat) : mine <+: (reserveTiles n w mine).2 := by
  fun_induction reserveTiles n w mine with
  | case3 n w mine h t rest hr ih => exact (List.prefix_append _ _).trans ih
  | case4 n w mine h hr hc ih => exact (List.prefix_append _ _).trans ih
  | case1 | case2 | case5 => exact List.prefix_rfl

/-- A core comes away with nothing only from an empty pool. -/
theorem reserveTiles_pool_of_nil {n : Nat} {w : Walk} {mine : List Nat} (h : (reserveTiles (n + 1) w mine).2 = []) :
    (reserveTiles (n + 1) w mine).1.pool = [] := by
  rw [reserveTiles] at h ⊢
  split at h
  case isTrue hlen => simp_all
  case isFalse hlen =>
    split at h
    case h_1 t rest hr =>
      have := List.IsPrefix.length_le (reserveTiles_prefix n { w with returned := rest } (mine ++ [t]))
      simp [h] at this
    case h_2 hr =>
      split at h
      case isTrue =>
        have := List.IsPrefix.length_le (reserveTiles_prefix n { w with counter := w.counter + 1 } (mine ++ [w.counter]))
        simp [h] at this
      case isFalse hc =>
        simp [hlen, hr, hc, Walk.pool]
        omega

/-! ### The lists of the cores -/

/-- The tiles that a core has reserved, earliest first. -/
def Walk.mine (w : Walk) (key : Nat × Nat) : List Nat := ((w.reserved.find? fun r => r.1 == key).map (·.2)).getD []

/-- The lists of the other cores. -/
def Walk.others (w : Walk) (key : Nat × Nat) : List ((Nat × Nat) × List Nat) := w.reserved.filter fun r => !(r.1 == key)

theorem Walk.reserved_perm {w : Walk} (h : (w.reserved.map (·.1)).Nodup) (key : Nat × Nat) :
    (w.reserved.flatMap (·.2)).Perm (w.mine key ++ (w.others key).flatMap (·.2)) := by
  unfold Walk.mine Walk.others
  generalize w.reserved = l at h
  induction l with
  | nil => rfl
  | cons r l ih =>
    obtain ⟨hr, hl⟩ := List.nodup_cons.mp h
    by_cases hk : r.1 = key
    · have hrest : l.filter (fun r => !(r.1 == key)) = l := by
        refine List.filter_eq_self.mpr fun x hx => ?_
        have : x.1 ≠ key := fun e => hr (List.mem_map.mpr ⟨x, hx, e.trans hk.symm⟩)
        simp [this]
      simp [hk, hrest]
    · simp only [List.flatMap_cons, List.find?_cons, List.filter_cons, beq_eq_false_iff_ne.mpr hk, Bool.not_false, if_true]
      exact ((ih hl).append_left r.2).trans (List.perm_append_comm_assoc ..)

theorem Walk.others_keys_nodup {w : Walk} (h : (w.reserved.map (·.1)).Nodup) (key : Nat × Nat) :
    ((w.others key).map (·.1)).Nodup := h.sublist (List.filter_sublist.map _)

theorem Walk.key_not_mem_others (w : Walk) (key : Nat × Nat) : key ∉ (w.others key).map (·.1) := by
  simp [Walk.others]

/-- Erasing a tile that one list alone holds takes it from all of them together. -/
theorem erase_flatMap_perm {l : List ((Nat × Nat) × List Nat)} {x : Nat} (hn : (l.flatMap (·.2)).Nodup) (hx : x ∈ l.flatMap (·.2)) :
    (l.flatMap (·.2)).Perm (x :: (l.map fun r => (r.1, r.2.erase x)).flatMap (·.2)) := by
  have herase : (l.map fun r => (r.1, r.2.erase x)).flatMap (·.2) = (l.flatMap (·.2)).erase x := by
    rw [hn.erase_eq_filter, List.filter_flatMap, List.flatMap_map]
    refine List.flatMap_congr fun r hr => ?_
    exact ((List.nodup_flatMap.mp hn).1 r hr).erase_eq_filter x
  rw [herase]
  exact List.perm_cons_erase hx

/-! ### Handing out a tile -/

section
open scoped List
variable (s : State) (site : CacheId) (t : Nat)

/-- The tile that a core takes of its own list: a placed one, else the earliest. -/
def ownTile (v : Walk) (mine : List Nat) : Option Nat := (mine.find? (s.tilePlaced site t v)).orElse fun _ => mine.head?

theorem ownTile_eq_none {v : Walk} {mine : List Nat} : ownTile s site t v mine = none ↔ mine = [] := by
  unfold ownTile
  constructor
  · intro h
    cases mine with
    | nil => rfl
    | cons x l => cases hf : List.find? (s.tilePlaced site t v) (x :: l) <;> simp [hf] at h
  · rintro rfl
    rfl

theorem mem_of_ownTile {v : Walk} {mine : List Nat} {x : Nat} (h : ownTile s site t v mine = some x) : x ∈ mine := by
  unfold ownTile at h
  cases hf : mine.find? (s.tilePlaced site t v) with
  | some y =>
    obtain rfl : y = x := by simpa [hf] using h
    exact List.mem_of_find?_eq_some hf
  | none => exact List.mem_of_mem_head? (by simpa [hf] using h)

variable (key : Nat × Nat)

/-- A tile comes from the core's own list, which it first fills up, else from the earliest of another core's. -/
theorem takeTile_eq (w : Walk) :
    let v := (reserveTiles 16 w (w.mine key)).1
    let mine := (reserveTiles 16 w (w.mine key)).2
    takeTile s site t key w = (ownTile s site t v mine).elim
      (((w.others key).findSome? fun r => r.2.head?).elim (v, none) fun x =>
        ({ v with reserved := (w.others key).map fun r => (r.1, r.2.erase x) }, some x))
      fun x => ({ v with reserved := w.others key ++ [(key, mine.erase x)] }, some x) := by
  dsimp only
  have hmine : ((w.reserved.find? fun r => r.1 == key).map (·.2)).getD [] = w.mine key := rfl
  have hown (v : Walk) (mine : List Nat) :
      ((mine.find? (s.tilePlaced site t v)).orElse fun _ => mine.head?) = ownTile s site t v mine := rfl
  have hothers : (w.reserved.filter fun r => !(r.1 == key)) = w.others key := rfl
  simp only [takeTile, hmine, hown, hothers]
  cases ownTile s site t _ _ with
  | some x => rfl
  | none => cases (w.others key).findSome? fun r => r.2.head? <;> rfl

/-- What is left, as the core finds it once it has filled up its list. -/
theorem Walk.Sound.left_perm_reserved {w : Walk} (h : w.Sound) : w.left.Perm
    ((w.others key).flatMap (·.2) ++ ((reserveTiles 16 w (w.mine key)).2 ++ (reserveTiles 16 w (w.mine key)).1.pool)) := by
  calc w.left
    _ ~ w.reserved.flatMap (·.2) ++ w.pool := w.left_perm
    _ ~ w.mine key ++ (w.others key).flatMap (·.2) ++ w.pool := (Walk.reserved_perm h.2 key).append_right _
    _ ~ (w.others key).flatMap (·.2) ++ (w.mine key ++ w.pool) := by
      rw [List.append_assoc]
      exact List.perm_append_comm_assoc ..
    _ ~ _ := (reserveTiles_perm 16 w (w.mine key)).symm.append_left _

/-- The lists that a hand-out leaves: those of the others and the core's own. -/
theorem Walk.Sound.keys_nodup {w : Walk} (h : w.Sound) (l : List Nat) :
    ((w.others key ++ [(key, l)]).map (·.1)).Nodup := by
  rw [List.map_append]
  refine (Walk.others_keys_nodup h.2 key).append (List.nodup_singleton key) ?_
  simpa using w.key_not_mem_others key

theorem Walk.sound_of_perm {w w' : Walk} {x : Nat} (h : w.Sound) (hp : w.left.Perm (x :: w'.left))
    (hk : (w'.reserved.map (·.1)).Nodup) : w.left.Perm (x :: w'.left) ∧ w'.Sound :=
  ⟨hp, (List.nodup_cons.mp (hp.nodup_iff.mp h.1)).2, hk⟩

/-- A tile that is handed out is one of those left, and the others stay left. -/
theorem takeTile_some {w w' : Walk} {x : Nat} (h : w.Sound) (ht : takeTile s site t key w = (w', some x)) :
    w.left.Perm (x :: w'.left) ∧ w'.Sound := by
  have hleft := h.left_perm_reserved key
  have hpool := @reserveTiles_pool_of_nil 15 w (w.mine key)
  rw [takeTile_eq] at ht
  generalize reserveTiles 16 w (w.mine key) = p at ht hleft hpool
  obtain ⟨v, mine⟩ := p
  cases hown : ownTile s site t v mine with
  | some y =>
    simp only [hown, Option.elim_some, Prod.mk.injEq, Option.some.injEq] at ht
    obtain ⟨rfl, rfl⟩ := ht
    refine Walk.sound_of_perm h (hleft.trans ?_) (h.keys_nodup key _)
    calc (w.others key).flatMap (·.2) ++ (mine ++ v.pool)
      _ ~ (w.others key).flatMap (·.2) ++ (y :: mine.erase y ++ v.pool) :=
        ((List.perm_cons_erase (mem_of_ownTile s site t hown)).append_right _).append_left _
      _ ~ y :: ((w.others key).flatMap (·.2) ++ (mine.erase y ++ v.pool)) := List.perm_middle
      _ ~ _ := by
        refine .cons y (.symm ((Walk.left_perm _).trans ?_))
        simp [Walk.pool, Walk.count]
  | none =>
    obtain rfl := (ownTile_eq_none s site t).mp hown
    have hempty : v.pool = [] := hpool rfl
    simp only [hempty, List.append_nil] at hleft
    cases hother : (w.others key).findSome? fun r => r.2.head? with
    | none => simp [hown, hother] at ht
    | some y =>
      simp only [hown, hother, Option.elim_some, Option.elim_none, Prod.mk.injEq, Option.some.injEq] at ht
      obtain ⟨rfl, rfl⟩ := ht
      obtain ⟨r, hr, hy⟩ := List.exists_of_findSome?_eq_some hother
      have hmem : y ∈ (w.others key).flatMap (·.2) := List.mem_flatMap.mpr ⟨r, hr, List.mem_of_mem_head? hy⟩
      refine Walk.sound_of_perm h (hleft.trans ?_) ?_
      · refine (erase_flatMap_perm (hleft.nodup_iff.mp h.1) hmem).trans (.cons y (.symm ((Walk.left_perm _).trans ?_)))
        change (_ ++ v.pool).Perm _
        rw [hempty, List.append_nil]
      · simpa [List.map_map, Function.comp_def] using Walk.others_keys_nodup h.2 key

/-- No tile is handed out only where none is left. -/
theorem takeTile_none {w w' : Walk} (h : w.Sound) (ht : takeTile s site t key w = (w', none)) :
    w.left = [] ∧ w'.left = [] ∧ w'.Sound := by
  have hleft := h.left_perm_reserved key
  have hpool := @reserveTiles_pool_of_nil 15 w (w.mine key)
  have hres := reserveTiles_reserved 16 w (w.mine key)
  rw [takeTile_eq] at ht
  generalize reserveTiles 16 w (w.mine key) = p at ht hleft hpool hres
  obtain ⟨v, mine⟩ := p
  cases hown : ownTile s site t v mine with
  | some y => simp [hown] at ht
  | none =>
    obtain rfl := (ownTile_eq_none s site t).mp hown
    have hempty : v.pool = [] := hpool rfl
    cases hother : (w.others key).findSome? fun r => r.2.head? with
    | some y => simp [hown, hother] at ht
    | none =>
      simp only [hown, hother, Option.elim_none, Prod.mk.injEq, and_true] at ht
      subst ht
      have hnone : (w.others key).flatMap (·.2) = [] := by
        simpa [List.findSome?_eq_none_iff] using hother
      have hw : w.left = [] := by simpa [hnone, hempty] using hleft
      have hv : v.left = [] := by
        have hrs : w.reserved.flatMap (·.2) = [] := (List.append_eq_nil_iff.mp (hw ▸ w.left_perm).nil_eq.symm).1
        refine List.Perm.eq_nil (v.left_perm.trans ?_)
        simp [hempty, hrs, show v.reserved = w.reserved from hres]
      exact ⟨hw, hv, by simp [hv], hres ▸ h.2⟩

end

end Sys2Proof.Machine
end

section
/-! SUPPORT. The family Execution: what TWALK, TNEXT and REFILL do (25 R406, R407; 26 R428, R429, R432, R433). -/

namespace Sys2Proof.Machine

/-! ### A uniform destination, with a tile taken -/

/-- The gang has written `v` to a uniform register and moved on; the crew has noted the tiles `took` in its idempotent region, and nothing
but these, the tile it holds and the scoreboard has changed. -/
def Crew.WroteWork (c c' : Crew) (iss : Issue) (d : Nat) (v : DWord) (took : List (Nat × Nat)) : Prop :=
  c'.sreg d = v ∧ (∀ q, q ≠ d → c'.sreg q = c.sreg q) ∧ c.Moved c' iss.slices iss.len
    ∧ c'.idem = c.idem.map (fun x => { x with took := x.took ++ took })
    ∧ { c' with sregs := c.sregs, tile := c.tile, idem := c.idem, pend := c.pend, slices := c.slices } = c

/-- The end of TWALK and TNEXT: the destination, its pending write, and the next instruction. -/
def Crew.endWork (c : Crew) (iss : Issue) (d : Nat) (v : DWord) : Crew :=
  ((c.setSreg d v).addPend [.uniform d]).advance iss.slices iss.len

theorem Crew.endWork_tile (c : Crew) (iss : Issue) (d : Nat) (v : DWord) : (c.endWork iss d v).tile = c.tile := by
  rw [Crew.endWork, advance_slices]
  rfl

theorem Crew.wroteWork_endWork (c : Crew) (iss : Issue) (d : Nat) (v : DWord) (tile : HeldTile) (took : List (Nat × Nat)) :
    c.WroteWork (({ c with
      tile := tile, idem := c.idem.map fun x => { x with took := x.took ++ took } } : Crew).endWork iss d v) iss d v took := by
  rw [Crew.endWork, advance_slices]
  exact ⟨Crew.sreg_setSreg_self .., fun q hq => Crew.sreg_setSreg_of_ne c v hq,
    moved_advSlices c iss.slices_nodup iss.len _ rfl, rfl, rfl⟩

theorem IdemRec.map_took_nil (o : Option IdemRec) : o.map (fun x => { x with took := x.took ++ [] }) = o := by
  cases o <;> simp

/-- The same where no tile is taken. -/
theorem Crew.wroteWork_endWork_nil (c : Crew) (iss : Issue) (d : Nat) (v : DWord) (tile : HeldTile) :
    c.WroteWork (({ c with tile := tile } : Crew).endWork iss d v) iss d v [] := by
  have h := c.wroteWork_endWork iss d v tile []
  rwa [IdemRec.map_took_nil] at h

/-! ### TWALK (26 R432, R433) -/

/-- The walk that the operands of TWALK name. -/
def Crew.namedWalk (c : Crew) (f : FmtA) : Walk :=
  walkFrom3 (c.sreg (f.a.toNat + 0)).toNat (c.sreg (f.a.toNat + 1)).toNat (c.sreg (f.a.toNat + 2)).toNat

theorem natBits_toNat (x : DWord) (hi lo : Nat) : natBits x.toNat hi lo = (x.extractLsb' lo (hi + 1 - lo)).toNat := by
  simp [natBits]

theorem natSext_toNat {w : Nat} (x : BitVec w) : natSext x.toNat w = x.toInt := by
  simp [natSext, BitVec.toInt, Nat.mod_eq_of_lt x.isLt]

theorem walkFrom3_toNat (x h sh : DWord) : walkFrom3 x.toNat h.toNat sh.toNat =
    { configured := true, e0 := max 1 (x.extractLsb' 0 21).toNat, e1 := max 1 (x.extractLsb' 21 21).toNat
      e2 := max 1 (x.extractLsb' 42 21).toNat, hbase := h
      hstride := (sh.extractLsb' 0 48).toInt, hpages := (sh.extractLsb' 56 8).toNat } := by
  simp only [walkFrom3, natBits_toNat, natSext_toNat, BitVec.ofNat_toNat, BitVec.setWidth_eq]

theorem State.walkOf_modWalk {s : State} {l n : Nat} {la : Launch} (hla : aget s.launches l = some la) (hn : n < la.walks.length)
    (g : Walk → Walk) : (s.modWalk l n g).walkOf l n = g (s.walkOf l n) := by
  rw [State.walkOf, State.modWalk, State.launchRec_modLaunch hla, lmod_getD, if_pos ⟨rfl, hn⟩, State.walkOf, State.launchRec, hla]
  rfl

section
variable {s : State} {iss : Issue} {c : Crew} (hi : s.issue = some iss) (hc : aget s.crews iss.crew = some c) (f : FmtA)
include hi hc

theorem execTwalk_of_no_launch (hl : s.crewLaunch c = none) :
    exec (.twalk f) s = .next (s.taken.setCrew iss.crew (c.endWork iss f.d.toNat (BitVec.ofNat 64 (c.namedWalk f).count))) := by
  have hcr : s.taken.crew iss.crew = c := State.crew_of_aget hc
  have hl' : s.taken.crewLaunch c = none := hl
  simp only [exec, execTwalk, withIssue_of hi, hcr, hl', State.modCrew]
  rfl

theorem execTwalk_of_configured {l : Nat} (hl : s.crewLaunch c = some l) (hw : (s.walkOf l f.b.toNat).configured = true) :
    exec (.twalk f) s =
      .next (s.taken.setCrew iss.crew (c.endWork iss f.d.toNat (BitVec.ofNat 64 (s.walkOf l f.b.toNat).count))) := by
  have hcr : s.taken.crew iss.crew = c := State.crew_of_aget hc
  have hl' : s.taken.crewLaunch c = some l := hl
  have hw' : (s.taken.walkOf l f.b.toNat).configured = true := hw
  simp only [exec, execTwalk, withIssue_of hi, hcr, hl', hw', if_true, State.modCrew]
  rfl

theorem execTwalk_of_free {l : Nat} {la : Launch} (hl : s.crewLaunch c = some l) (hla : aget s.launches l = some la)
    (hn : f.b.toNat < la.walks.length) (hw : (s.walkOf l f.b.toNat).configured = false) :
    exec (.twalk f) s = .next ((s.taken.modWalk l f.b.toNat fun _ => c.namedWalk f).setCrew iss.crew
      (c.endWork iss f.d.toNat (BitVec.ofNat 64 (c.namedWalk f).count))) := by
  have hcr : s.taken.crew iss.crew = c := State.crew_of_aget hc
  have hl' : s.taken.crewLaunch c = some l := hl
  have hw' : (s.taken.walkOf l f.b.toNat).configured = false := hw
  have hcr' (g : Walk → Walk) : (s.taken.modWalk l f.b.toNat g).crew iss.crew = c := hcr
  have hwalk := State.walkOf_modWalk (s := s.taken) hla hn fun _ => c.namedWalk f
  simp only [Crew.namedWalk] at hwalk
  simp only [exec, execTwalk, withIssue_of hi, hcr, hl', hw', Bool.false_eq_true, if_false, State.modCrew, hcr', hwalk]
  rfl

end

/-! ### TNEXT (26 R429) -/

theorem takeTile_taken (s : State) (site : CacheId) (t : Nat) (key : Nat × Nat) (w : Walk) :
    takeTile s.taken site t key w = takeTile s site t key w := by
  rw [takeTile_eq, takeTile_eq]
  rfl

theorem State.nextTile_of_no_party {s : State} {c : Crew} (h : c.partyId = none) (w : Nat) : s.nextTile c w = (s, none) := by
  simp only [State.nextTile, h]

theorem State.nextTile_of_free {s : State} {c : Crew} {p w : Nat} (h : c.partyId = some p)
    (hw : (s.walkOf (s.party p).launch w).configured = false) : s.nextTile c w = (s, none) := by
  simp only [State.nextTile, h, hw, Bool.not_false, if_true]

theorem State.nextTile_of_configured {s : State} {c : Crew} {p w : Nat} {wk : Walk} {t : Option Nat} (h : c.partyId = some p)
    (hw : (s.walkOf (s.party p).launch w).configured = true)
    (ht : takeTile s (s.site c) c.tenant ((s.party p).die, (s.party p).core) (s.walkOf (s.party p).launch w) = (wk, t)) :
    s.nextTile c w = (s.modWalk (s.party p).launch w fun _ => wk, t) := by
  simp only [State.nextTile, h, hw, Bool.not_true, Bool.false_eq_true, if_false, ht]

theorem State.nextTile_crews (s : State) (c : Crew) (w : Nat) : (s.nextTile c w).1.crews = s.crews := by
  unfold State.nextTile
  split
  · rfl
  · dsimp only
    split <;> rfl

/-- The crew after TNEXT: it holds the tile that it got, or none. -/
def Crew.afterTnext (c : Crew) (iss : Issue) (f : FmtA) : Option Nat → Crew
  | some x => (c.takesTile f.b.toNat x).endWork iss f.d.toNat (BitVec.ofNat 64 x)
  | none => ({ c with tile := { c.tile with hold := false } } : Crew).endWork iss f.d.toNat (BitVec.allOnes 64)

theorem execTnext_eq {s : State} {iss : Issue} {c : Crew} (hi : s.issue = some iss) (hc : aget s.crews iss.crew = some c) (f : FmtA) :
    exec (.tnext f) s = .next ((s.taken.nextTile c f.b.toNat).1.setCrew iss.crew
      (c.afterTnext iss f (s.taken.nextTile c f.b.toNat).2)) := by
  have hcr : s.taken.crew iss.crew = c := State.crew_of_aget hc
  have hcr' : aget (s.taken.nextTile c f.b.toNat).1.crews iss.crew = some c := by rw [State.nextTile_crews]; exact hc
  simp only [exec, execTnext, withIssue_of hi, hcr, State.modCrew_of_aget hcr']
  cases (s.taken.nextTile c f.b.toNat).2 <;> rfl

/-! ### REFILL (25 R407) -/

theorem State.setCrew_self {s : State} {k : Nat} {c : Crew} (h : aget s.crews k = some c) : s.setCrew k c = s := by
  rw [State.setCrew, amod_const_of_aget h]

/-- A lane takes the next item of the tile that the crew `r` holds; `c` resolves the destination's names. -/
def Crew.serveLane (c r : Crew) (d : VOp) (l : Nat) : Crew :=
  { c.vput r d l (wordsOf (32 * r.tile.tile + r.tile.ic) 2) with tile := { r.tile with ic := r.tile.ic + 1 } }

theorem Crew.serveLane_eq (c r : Crew) (d : VOp) (l : Nat) : c.serveLane r d l =
    { r with vregs := vputV c d l (wordsOf (32 * r.tile.tile + r.tile.ic) 2) r.vregs, tile := { r.tile with ic := r.tile.ic + 1 } } := by
  rw [Crew.serveLane, vput_eq]

section
variable {s u : State} {k : Nat} {c r : Crew} {d : VOp} {l : Nat} {rest : List Nat} (hr : aget s.crews k = some r)
include hr

theorem serveLanes_of_no_tile {lanes : List Nat} (hh : r.tile.hold = false) : serveLanes k c d s lanes = (s, []) := by
  cases lanes with
  | nil => rfl
  | cons l rest => simp [serveLanes, State.crew_of_aget hr, hh]

theorem serveLanes_of_item (hh : r.tile.hold = true) (hic : r.tile.ic < 32) : serveLanes k c d s (l :: rest) =
    ((serveLanes k c d (s.setCrew k (c.serveLane r d l)) rest).1,
      l :: (serveLanes k c d (s.setCrew k (c.serveLane r d l)) rest).2) := by
  simp only [serveLanes, State.crew_of_aget hr, hh, hic, Bool.not_true, Bool.false_eq_true, if_false, if_true,
    State.modCrew_of_aget hr, Crew.serveLane]

theorem serveLanes_of_next_tile {x : Nat} (hh : r.tile.hold = true) (hic : 32 ≤ r.tile.ic)
    (hn : s.nextTile c r.tile.walk = (u, some x)) : serveLanes k c d s (l :: rest) =
      ((serveLanes k c d (u.setCrew k (c.serveLane (r.takesTile r.tile.walk x) d l)) rest).1,
        l :: (serveLanes k c d (u.setCrew k (c.serveLane (r.takesTile r.tile.walk x) d l)) rest).2) := by
  have hu : aget u.crews k = some r := by
    rw [← hr, ← State.nextTile_crews s c r.tile.walk, hn]
  have hu' : aget (u.setCrew k (r.takesTile r.tile.walk x)).crews k = some (r.takesTile r.tile.walk x) := by
    rw [State.aget_setCrew, if_pos rfl, hu]
    rfl
  simp only [serveLanes, State.crew_of_aget hr, hh, Nat.not_lt.mpr hic, Bool.not_true, Bool.false_eq_true, if_false, hn,
    State.modCrew_of_aget hu, State.crew_of_aget hu', State.modCrew_of_aget hu', State.setCrew_setCrew]
  rfl

theorem serveLanes_of_no_more (hh : r.tile.hold = true) (hic : 32 ≤ r.tile.ic)
    (hn : s.nextTile c r.tile.walk = (u, none)) : serveLanes k c d s (l :: rest) =
      (u.setCrew k { r with tile := { r.tile with hold := false } }, []) := by
  have hu : aget u.crews k = some r := by
    rw [← hr, ← State.nextTile_crews s c r.tile.walk, hn]
  simp only [serveLanes, State.crew_of_aget hr, hh, Nat.not_lt.mpr hic, Bool.not_true, Bool.false_eq_true, if_false, hn,
    State.modCrew_of_aget hu, State.crew_setCrew hu, Bool.not_false, if_true]

end

/-- The lanes served are the first ones, and of the crew only its vector registers, its tile and its region's note change. -/
theorem serveLanes_frame (k : Nat) (c : Crew) (d : VOp) (lanes : List Nat) : ∀ (s : State) (r : Crew), aget s.crews k = some r →
    (serveLanes k c d s lanes).2 <+: lanes
      ∧ ∃ v t i, aget (serveLanes k c d s lanes).1.crews k = some { r with vregs := v, tile := t, idem := i } := by
  induction lanes with
  | nil => exact fun s r hr => ⟨List.prefix_rfl, r.vregs, r.tile, r.idem, hr⟩
  | cons l rest ih =>
    intro s r hr
    have go (u : State) (x : Crew) (hx : aget u.crews k = some r) (hf : ∃ v t i, x = { r with vregs := v, tile := t, idem := i }) :
        l :: (serveLanes k c d (u.setCrew k x) rest).2 <+: l :: rest
          ∧ ∃ v t i, aget (serveLanes k c d (u.setCrew k x) rest).1.crews k = some { r with vregs := v, tile := t, idem := i } := by
      obtain ⟨v, t, i, rfl⟩ := hf
      obtain ⟨hp, v', t', i', h'⟩ := ih (u.setCrew k { r with vregs := v, tile := t, idem := i }) _
        (by rw [State.aget_setCrew, if_pos rfl, hx]; rfl)
      exact ⟨by simpa using hp, v', t', i', h'⟩
    cases hh : r.tile.hold with
    | false =>
      rw [serveLanes_of_no_tile hr hh]
      exact ⟨List.nil_prefix, r.vregs, r.tile, r.idem, hr⟩
    | true =>
      by_cases hic : r.tile.ic < 32
      · rw [serveLanes_of_item hr hh hic]
        exact go s _ hr ⟨_, _, _, c.serveLane_eq r d l⟩
      · have hic' := Nat.not_lt.mp hic
        cases hn : s.nextTile c r.tile.walk with
        | mk u o =>
          have hu : aget u.crews k = some r := by
            rw [← hr, ← State.nextTile_crews s c r.tile.walk, hn]
          cases o with
          | some x =>
            rw [serveLanes_of_next_tile hr hh hic' hn]
            exact go u _ hu ⟨_, _, _, c.serveLane_eq _ d l⟩
          | none =>
            rw [serveLanes_of_no_more hr hh hic' hn]
            exact ⟨List.nil_prefix, r.vregs, { r.tile with hold := false }, r.idem, by rw [State.aget_setCrew, if_pos rfl, hu]; rfl⟩

/-- While the tile lasts, the lanes get its next items in turn. -/
theorem serveLanes_of_items (k : Nat) (c : Crew) (d : VOp) (lanes : List Nat) : ∀ (s : State) (r : Crew),
    aget s.crews k = some r → lanes.Nodup → r.tile.hold = true → r.tile.ic + lanes.length ≤ 32 →
    serveLanes k c d s lanes = (s.setCrew k { r with
      vregs := lanes.foldl (fun v l => vputV c d l (wordsOf (32 * r.tile.tile + r.tile.ic + lanes.idxOf l) 2) v) r.vregs
      tile := { r.tile with ic := r.tile.ic + lanes.length } }, lanes) := by
  induction lanes with
  | nil => exact fun s r hr _ _ _ => by rw [serveLanes, List.length_nil, Nat.add_zero]; exact Prod.ext (State.setCrew_self hr).symm rfl
  | cons l rest ih =>
    intro s r hr hn hh hlen
    obtain ⟨hl, hrest⟩ := List.nodup_cons.mp hn
    rw [List.length_cons] at hlen
    have hx : aget (s.setCrew k (c.serveLane r d l)).crews k = some (c.serveLane r d l) := by
      rw [State.aget_setCrew, if_pos rfl, hr]
      rfl
    rw [serveLanes_of_item hr hh (by omega), ih _ _ hx hrest hh (by simp only [Crew.serveLane]; omega), State.setCrew_setCrew,
      Crew.serveLane_eq]
    have hwords : rest.foldl (fun v m => vputV c d m (wordsOf (32 * r.tile.tile + (r.tile.ic + 1) + rest.idxOf m) 2) v)
          (vputV c d l (wordsOf (32 * r.tile.tile + r.tile.ic) 2) r.vregs)
        = (l :: rest).foldl (fun v m => vputV c d m (wordsOf (32 * r.tile.tile + r.tile.ic + (l :: rest).idxOf m) 2) v) r.vregs := by
      rw [List.foldl_cons, List.idxOf_cons_self]
      refine List.foldl_ext _ _ _ fun v m hm => ?_
      rw [List.idxOf_cons_ne rest (fun e : l = m => hl (e ▸ hm))]
      congr 2
      omega
    simp only [hwords, List.length_cons]
    congr 3
    simp only [HeldTile.mk.injEq, true_and]
    omega

/-! #### The end of REFILL -/

/-- The destination of REFILL: two registers of each lane. -/
def refillDest (f : FmtA) : VOp := { pos := 0, field := f.d.toNat, n := 2 }

/-- The end of REFILL for the crew `r`, which `c` was at the start: the offsets, the predicate of the lanes served, the destination's
pending write, and the next instruction. -/
def Crew.endRefill (c r : Crew) (iss : Issue) (f : FmtA) (served : List Nat) : Crew :=
  (((r.postAdvance (c.activeIn iss.slices) [refillDest f]).setPred f.b.toNat (slicesMask iss.slices)
    (maskOf 32 32 served.contains)).addPend [c.pendOf (refillDest f)]).advance iss.slices iss.len

/-- REFILL has marked the lanes `served` in predicate B and moved on; nothing else has changed but the destination, the tile, the note
of the idempotent region and the scoreboard. -/
def Crew.Marked (c c' : Crew) (iss : Issue) (f : FmtA) (served : List Nat) : Prop :=
  (∀ l, l < 32 → l / 4 ∈ iss.slices → mbit (c'.pred f.b.toNat) l =
      (decide (l ∈ served) && (f.b != 16 || (mbit c.live l && !mbit c.off l))))
    ∧ (∀ l, l < 32 → l / 4 ∉ iss.slices → (f.b = 16 → mbit c.live l = true ∧ mbit c.off l = false) →
        mbit (c'.pred f.b.toNat) l = mbit (c.pred f.b.toNat) l)
    ∧ (∀ q, q ≤ 16 → q ≠ f.b.toNat → c'.pred q = c.pred q)
    ∧ c.OffsetsMoved c' (c.activeIn iss.slices) [refillDest f] ∧ c.Moved c' iss.slices iss.len
    ∧ { c' with vregs := c.vregs, preds := c.preds, exec := c.exec, xofs := c.xofs, tile := c.tile, idem := c.idem
                pend := c.pend, slices := c.slices } = c

theorem activeIn_nodup (c : Crew) {is : List Nat} (h : is.Nodup) : (c.activeIn is).Nodup := by
  refine List.nodup_flatMap.mpr ⟨fun i _ => activeOf_nodup c i, h.imp fun hij => ?_⟩
  exact fun l hl hl' => hij ((mem_activeOf.mp hl).1.symm.trans (mem_activeOf.mp hl').1)

theorem offsetsMoved_postAdvance (c : Crew) {lanes : List Nat} (hn : lanes.Nodup) (h32 : ∀ l ∈ lanes, l < 32) (ops : List VOp) :
    c.OffsetsMoved (c.postAdvance lanes ops) lanes ops := by
  intro x l hx hl
  have h := sget_advanceRegs c.xuni (postRegs c.xuni ops) (postRegs_nodup ..) lanes hn h32 c.xofs x l hl
  rw [postAdvance_eq]
  simp only [Crew.ofs, Crew.xreg, h, mem_postRegs, hx, true_and]
  exact if_congr (by tauto) rfl rfl

theorem Crew.pred_postAdvance (c : Crew) (lanes : List Nat) (ops : List VOp) (n : Nat) : (c.postAdvance lanes ops).pred n = c.pred n := by
  rw [postAdvance_eq]
  rfl

theorem Crew.live_postAdvance (c : Crew) (lanes : List Nat) (ops : List VOp) : (c.postAdvance lanes ops).live = c.live := by
  rw [postAdvance_eq]

theorem Crew.off_postAdvance (c : Crew) (lanes : List Nat) (ops : List VOp) : (c.postAdvance lanes ops).off = c.off := by
  rw [postAdvance_eq]

section
variable (c r : Crew) (iss : Issue) (f : FmtA) (served : List Nat)

theorem Crew.endRefill_frame : c.endRefill r iss f served = { r with
    preds := (c.endRefill r iss f served).preds, exec := (c.endRefill r iss f served).exec
    xofs := (r.postAdvance (c.activeIn iss.slices) [refillDest f]).xofs, pend := (c.endRefill r iss f served).pend
    slices := advSlices r.slices iss.slices iss.len } := by
  rw [Crew.endRefill, advance_slices, Crew.setPred_eq, postAdvance_eq]
  rfl

theorem Crew.endRefill_pred (n : Nat) : (c.endRefill r iss f served).pred n =
    ((r.postAdvance (c.activeIn iss.slices) [refillDest f]).setPred f.b.toNat (slicesMask iss.slices)
      (maskOf 32 32 served.contains)).pred n := by
  rw [Crew.endRefill, advance_slices]
  rfl

theorem Crew.mbit_endRefill {l : Nat} (hl : l < 32) : mbit ((c.endRefill r iss f served).pred f.b.toNat) l =
    ((if l / 4 ∈ iss.slices then decide (l ∈ served) else mbit (r.pred f.b.toNat) l)
      && (f.b.toNat != 16 || (mbit r.live l && !mbit r.off l))) := by
  rw [Crew.endRefill_pred, Crew.mbit_setPred, mbit_slicesMask _ _ hl, mbit_maskOf _ _ _ _ hl, Crew.pred_postAdvance,
    Crew.live_postAdvance, Crew.off_postAdvance]
  simp [hl]

theorem Crew.endRefill_pred_of_ne {n : Nat} (h : n ≠ f.b.toNat) : (c.endRefill r iss f served).pred n = r.pred n := by
  rw [Crew.endRefill_pred, Crew.pred_setPred_of_ne _ _ _ h, Crew.pred_postAdvance]

end

theorem Crew.marked_endRefill (c : Crew) (iss : Issue) (f : FmtA) (served : List Nat) (v : Sparse 32) (t : HeldTile)
    (i : Option IdemRec) : c.Marked (c.endRefill { c with vregs := v, tile := t, idem := i } iss f served) iss f served := by
  have h16 : (f.b != 16) = (f.b.toNat != 16) := by
    rw [Bool.eq_iff_iff, bne_iff_ne, bne_iff_ne, ne_eq, ne_eq, BitVec.toNat_eq]
    rfl
  refine ⟨fun l hl hin => ?_, fun l hl hin hg => ?_, fun n _ hn => Crew.endRefill_pred_of_ne c _ iss f served hn, ?_, ?_, ?_⟩
  · rw [Crew.mbit_endRefill _ _ _ _ _ hl, if_pos hin, h16]
  · rw [Crew.mbit_endRefill _ _ _ _ _ hl, if_neg hin]
    by_cases hb : f.b = 16
    · obtain ⟨hlive, hoff⟩ := hg hb
      simp only [hlive, hoff, Bool.not_false, Bool.and_self, Bool.or_true, Bool.and_true]
      rfl
    · have : (f.b.toNat != 16) = true := h16 ▸ bne_iff_ne.mpr hb
      simp only [this, Bool.true_or, Bool.and_true]
      rfl
  · have hx := offsetsMoved_postAdvance c (activeIn_nodup c iss.slices_nodup)
      (fun l hl => active_lt (mem_activeIn.mp hl).2) [refillDest f]
    rw [postAdvance_eq] at hx
    rw [Crew.endRefill_frame, postAdvance_eq]
    exact hx
  · rw [Crew.endRefill_frame]
    exact moved_advSlices c iss.slices_nodup iss.len _ rfl
  · rw [Crew.endRefill_frame]

theorem foldl_eq_of_fixed {α β : Type} {g : α → β → α} {l : List β} (h : ∀ a, ∀ b ∈ l, g a b = a) (a : α) : l.foldl g a = a :=
  (List.foldl_ext g (fun a _ => a) a h).trans (List.foldl_fixed l)

/-- The lanes that REFILL serves, in order: those of the gang whose bit of A is set. -/
def Crew.refillLanes (c : Crew) (iss : Issue) (f : FmtA) : List Nat := (c.activeIn iss.slices).filter fun l => mbit (c.pred f.a.toNat) l

theorem Crew.refillLanes_nodup (c : Crew) (iss : Issue) (f : FmtA) : (c.refillLanes iss f).Nodup :=
  (activeIn_nodup c iss.slices_nodup).filter _

theorem Crew.refillLanes_lt {c : Crew} {iss : Issue} {f : FmtA} {l : Nat} (h : l ∈ c.refillLanes iss f) : l < 32 :=
  active_lt (mem_activeIn.mp (List.mem_of_mem_filter h)).2

section
variable {s u : State} {iss : Issue} {c r : Crew} {f : FmtA} {served : List Nat} (hi : s.issue = some iss)
  (hc : aget s.crews iss.crew = some c) (hn : c.NamesOk iss [refillDest f])
include hi hc hn

theorem execRefill_eq (hs : serveLanes iss.crew c (refillDest f) s.taken (c.refillLanes iss f) = (u, served))
    (hu : aget u.crews iss.crew = some r) : exec (.refill f) s = .next (u.setCrew iss.crew (c.endRefill r iss f served)) := by
  have hcr : s.taken.crew iss.crew = c := State.crew_of_aget hc
  have hgood : (iss.slices.filter fun i => (c.nameFault i [refillDest f]).isNone) = iss.slices :=
    List.filter_eq_self.mpr fun i hin => by rw [hn i hin, Option.isNone_none]
  unfold refillDest at hgood hs
  simp only [exec, execRefill, withIssue_of hi, hcr, hgood]
  refine congrArg _ ((foldl_eq_of_fixed (fun t i hin => ?_) _).trans ?_)
  · have hname : c.nameFault i [{ pos := 0, field := f.d.toNat, n := 2 }] = none := hn i hin
    rw [hname]
  · unfold Crew.refillLanes at hs
    rw [hs, State.modCrew_of_aget hu]
    rfl

end


/-- Settles O40: the walk's lists hold each tile once, and each instruction is its equation. -/
theorem tileWalksGiveEachTileOnce : Obligations.TileWalksGiveEachTileOnce := by
  unfold Obligations.TileWalksGiveEachTileOnce
  intro out left sound
  refine ⟨fun f s iss c hi hc => ?twalk, fun f s iss c hi hc => ⟨?tnextNone, ?tnext⟩,
    fun s site t key w w' hw => ⟨fun x => takeTile_some s site t key hw, takeTile_none s site t key hw⟩,
    fun f s iss c hi hc => ?refill, ?next, ?done⟩
  case twalk =>
    intro reg ext new tiles
    have hnew : c.namedWalk f = new := walkFrom3_toNat ..
    refine ⟨fun hl => ?_, fun l la hl hla hn => ⟨fun hw => ?_, fun hw => ?_⟩⟩
    · exact ⟨_, onlyCrew_of (execTwalk_of_no_launch hi hc f hl), c.endWork_tile .., hnew ▸ c.wroteWork_endWork_nil ..⟩
    · have hwalk : s.walkOf l f.b.toNat = la.walks.getD f.b.toNat {} := by rw [State.walkOf, State.launchRec, hla]; rfl
      exact ⟨_, onlyCrew_of (execTwalk_of_configured hi hc f hl (hwalk ▸ hw)), c.endWork_tile .., hwalk ▸ c.wroteWork_endWork_nil ..⟩
    · have hwalk : s.walkOf l f.b.toNat = la.walks.getD f.b.toNat {} := by rw [State.walkOf, State.launchRec, hla]; rfl
      exact ⟨_, hnew ▸ execTwalk_of_free hi hc f hl hla hn (hwalk ▸ hw), c.endWork_tile .., hnew ▸ c.wroteWork_endWork_nil ..⟩
  case tnextNone =>
    intro h
    have hnext : s.taken.nextTile c f.b.toNat = (s.taken, none) := by
      rcases h with h | ⟨p, hp, hw⟩
      · exact State.nextTile_of_no_party h _
      · exact State.nextTile_of_free hp hw
    have hexec := execTnext_eq hi hc f
    rw [hnext] at hexec
    exact ⟨_, onlyCrew_of hexec, Crew.endWork_tile .., c.wroteWork_endWork_nil ..⟩
  case tnext =>
    intro p hp hw
    obtain ⟨⟨w, t⟩, ht⟩ : ∃ r, takeTile s (s.site c) c.tenant ((s.party p).die, (s.party p).core)
      (s.walkOf (s.party p).launch f.b.toNat) = r := ⟨_, rfl⟩
    have hexec := execTnext_eq hi hc f
    rw [State.nextTile_of_configured (s := s.taken) hp hw ((takeTile_taken ..).trans ht)] at hexec
    refine ⟨w, t, _, ht, hexec, fun x hx => ?_, fun hx => ?_⟩ <;> subst hx
    · exact ⟨Crew.endWork_tile .., c.wroteWork_endWork ..⟩
    · exact ⟨Crew.endWork_tile .., c.wroteWork_endWork_nil ..⟩
  case refill =>
    intro d lanes marks hn hb
    have hc' : aget s.taken.crews iss.crew = some c := hc
    refine ⟨fun hh hlen => ?_, fun hh => ?_, ?_⟩
    · have hs := serveLanes_of_items iss.crew c d lanes s.taken c hc' (c.refillLanes_nodup iss f) hh hlen
      have hexec := execRefill_eq hi hc hn hs (by rw [State.aget_setCrew, if_pos rfl, hc']; rfl)
      rw [State.setCrew_setCrew] at hexec
      refine ⟨_, onlyCrew_of hexec, c.marked_endRefill .., ?_, by rw [Crew.endRefill_frame], by rw [Crew.endRefill_frame]⟩
      have h := sget_lanes c d (fun l => wordsOf (32 * c.tile.tile + c.tile.ic + lanes.idxOf l) 2) lanes
        (c.refillLanes_nodup iss f) c.vregs fun l => Crew.refillLanes_lt
      rw [Crew.endRefill_frame]
      exact ⟨h.2, h.1⟩
    · have hexec := execRefill_eq hi hc hn (serveLanes_of_no_tile hc' hh) hc'
      exact ⟨_, onlyCrew_of hexec, c.marked_endRefill iss f [] c.vregs c.tile c.idem, by rw [Crew.endRefill_frame],
        by rw [Crew.endRefill_frame], by rw [Crew.endRefill_frame]⟩
    · obtain ⟨hp, v, t, i, hu⟩ := serveLanes_frame iss.crew c d lanes s.taken c hc'
      exact ⟨_, _, _, _, rfl, hu, hp, execRefill_eq hi hc hn rfl hu, c.marked_endRefill .., by rw [Crew.endRefill_frame],
        by rw [Crew.endRefill_frame], by rw [Crew.endRefill_frame]⟩
  case next =>
    intro s k l c d rest u x hh hic hr hn _
    rw [serveLanes_of_next_tile hr hh hic hn]
    refine ⟨rfl, _, rfl, ?_, ?_, ?_⟩ <;> rw [Crew.serveLane_eq]
    · simp only [Crew.takesTile, hh]
    · rw [vput_eq]
      rfl
    · rfl
  case done =>
    intro s k l c d rest u hh hic hr hn _
    exact serveLanes_of_no_more hr hh hic hn

end Sys2Proof.Machine
end

section
/-! SUPPORT. The family Execution: the placement of a launch's parties on cores, and their start (02 R27 to R32). -/

namespace Sys2Proof.Machine

/-! ### The next parties of a launch (02 R30, R31) -/

/-- The condition of PARTY_PLACE: the launch has parties to place, and the cores fit it. -/
def State.PlaceFits (s : State) (l : Nat) (cores : List Nat) : Prop :=
  s.placing (s.launchRec l) = true ∧ cores.length = (s.launchRec l).nextCount ∧ (∀ x ∈ cores, s.coreMoving x = false)
    ∧ octantsOk (s.tenant (s.launchRec l).tenant) (cores.zipIdx.map fun x => (x.2 / (s.launchRec l).perOuting, x.1)) = true

/-- A placement in which every frame is clear: the outings and the parties are entered, and each party opens. -/
def State.placeAll (s x : State) (l : Nat) : State :=
  let la := s.launchRec l
  let t := (x.enterOutings l la.nextOuting (if la.coop then la.outings else 1)).modLaunch l fun y =>
    { y with nextOuting := y.nextOuting + if la.coop then la.outings else 1 }
  (t.parties.filter fun q => q.2.launch = l && la.nextOuting * la.perOuting ≤ q.2.index).foldl (fun (u : State) q => u.openParty q.1) t

/-- The evictions that a list of full frames needs first. -/
def State.evictFrames (s : State) (l : List (Nat × Nat × Nat)) : State :=
  l.foldl (fun (u : State) f => u.evictFrame f.1 f.2.1 f.2.2) s

section
variable {s : State} {l : Nat} {cores : List Nat}

theorem State.placeFits_iff : s.PlaceFits l cores ↔
    (!s.placing (s.launchRec l) || decide (cores.length ≠ (s.launchRec l).nextCount) || cores.any s.coreMoving
      || !octantsOk (s.tenant (s.launchRec l).tenant) (cores.zipIdx.map fun x => (x.2 / (s.launchRec l).perOuting, x.1))) = false := by
  simp [State.PlaceFits, and_assoc]

theorem State.placeOn_of_unfit (h : ¬s.PlaceFits l cores) : s.placeOn l cores = s :=
  if_pos (Bool.not_eq_false _ ▸ mt State.placeFits_iff.mpr h)

theorem State.placeOn_of_fits (h : s.PlaceFits l cores) : s.placeOn l cores =
    match seatAll l cores ((s.launchRec l).nextOuting * (s.launchRec l).perOuting) { s := s } with
    | none => s
    | some x => if !(s.stillFull x.empty).isEmpty then s.evictFrames (s.stillFull x.empty) else s.placeAll x.s l :=
  if_neg (by rw [Bool.not_eq_true]; exact State.placeFits_iff.mp h)

end

theorem execPartyPlace_of_other {s : State} {l o : Nat} {cores : List Nat}
    (h : o ≠ (s.launchRec l).nextOuting ∨ ¬s.PlaceFits l cores
      ∨ seatAll l cores ((s.launchRec l).nextOuting * (s.launchRec l).perOuting) { s := s } = none) :
    execPartyPlace l o cores s = .next s := by
  refine congrArg _ (ite_eq_right_iff.mpr fun ho => ?_)
  by_cases hf : s.PlaceFits l cores
  · have hnone := (h.resolve_left (not_not.mpr ho.symm)).resolve_left (not_not.mpr hf)
    rw [State.placeOn_of_fits hf, hnone]
  · exact State.placeOn_of_unfit hf

section
variable {s : State} {l : Nat} {cores : List Nat} {x : Seating} (hf : s.PlaceFits l cores)
  (hx : seatAll l cores ((s.launchRec l).nextOuting * (s.launchRec l).perOuting) { s := s } = some x)
include hf hx

theorem execPartyPlace_of_full (h : s.stillFull x.empty ≠ []) :
    execPartyPlace l (s.launchRec l).nextOuting cores s = .next (s.evictFrames (s.stillFull x.empty)) := by
  refine congrArg _ ((if_pos rfl).trans ?_)
  rw [State.placeOn_of_fits hf, hx]
  exact if_pos (by simpa using h)

theorem execPartyPlace_of_clear (h : s.stillFull x.empty = []) :
    execPartyPlace l (s.launchRec l).nextOuting cores s = .next (s.placeAll x.s l) := by
  refine congrArg _ ((if_pos rfl).trans ?_)
  rw [State.placeOn_of_fits hf, hx]
  exact if_neg (by simp [h])

end

/-! ### The crews of a party that starts (02 R32, R35) -/

theorem State.freeSlot_bounds (s : State) (d c part : Nat) :
    part * 32 ≤ s.freeSlot d c part ∧ s.freeSlot d c part < part * 32 + 32 := by
  unfold State.freeSlot
  dsimp only
  generalize hf : List.find? _ _ = o
  cases o with
  | none => simp; omega
  | some i =>
    have := List.mem_range.mp (List.mem_of_find?_eq_some hf)
    simp only [Option.getD_some]
    omega

/-- Seats crews of a party, given by number and index, at their start. -/
def State.seatCrews (s : State) (p : Nat) (la : Launch) (l : List (Nat × Nat)) : State :=
  l.foldl (fun s x => s.seat p x.1 x.2 (startCrew la (s.tenant la.tenant) p x.2 0)) s

theorem State.seatCrews_frame (p : Nat) (la : Launch) (l : List (Nat × Nat)) (s : State) :
    s.seatCrews p la l = { s with crews := (s.seatCrews p la l).crews } := by
  induction l generalizing s with
  | nil => rfl
  | cons x l ih => exact ih _

theorem State.aget_seatCrews_of_ne (p : Nat) (la : Launch) {l : List (Nat × Nat)} {k : Nat} (h : ∀ x ∈ l, x.1 ≠ k) (s : State) :
    aget (s.seatCrews p la l).crews k = aget s.crews k := by
  induction l generalizing s with
  | nil => rfl
  | cons x l ih =>
    refine (ih (fun y hy => h y (List.mem_cons_of_mem _ hy)) _).trans ?_
    exact (aget_aset ..).trans (if_neg (h x List.mem_cons_self).symm)

theorem State.aget_seatCrews (p : Nat) (la : Launch) {l : List (Nat × Nat)} (hn : (l.map (·.1)).Nodup) {k i : Nat} (h : (k, i) ∈ l)
    (s : State) : ∃ slot, i % 8 * 32 ≤ slot ∧ slot < i % 8 * 32 + 32
      ∧ aget (s.seatCrews p la l).crews k = some (startCrew la (s.tenant la.tenant) p i slot) := by
  induction l generalizing s with
  | nil => cases h
  | cons x l ih =>
    obtain ⟨hx, hl⟩ := List.nodup_cons.mp hn
    rcases List.mem_cons.mp h with rfl | h
    · obtain ⟨hlo, hhi⟩ := s.freeSlot_bounds (s.party p).die (s.party p).core (i % 8)
      refine ⟨_, hlo, hhi, (State.aget_seatCrews_of_ne p la (fun y hy e => hx (List.mem_map.mpr ⟨y, hy, e⟩)) _).trans ?_⟩
      exact (aget_aset ..).trans (if_pos rfl)
    · exact ih hl h _

theorem startCrew_sreg (la : Launch) (ten : Tenant) (p i slot r : Nat) :
    (startCrew la ten p i slot).sreg r = if r < 8 then la.args.getD r 0 else 0 := by
  have hkeys : ((la.args.take 8).zipIdx.map fun x => (x.2, x.1)).map (·.1) = List.range (la.args.take 8).length := by
    rw [List.map_map]
    exact (List.zipIdx_map_snd ..).trans List.range_eq_range'.symm
  change sget (ssetAll [] ((la.args.take 8).zipIdx.map fun x => (x.2, x.1))) r = _
  by_cases hr : r < (la.args.take 8).length
  · have hr' := hr
    rw [List.length_take, lt_min_iff] at hr'
    rw [if_pos hr'.1]
    refine sget_ssetAll_of_mem _ (hkeys ▸ List.nodup_range) (List.mem_map.mpr ⟨((la.args.take 8)[r], r), ?_, ?_⟩)
    · simp [List.mem_zipIdx_iff_getElem?, hr'.1]
    · simp [hr'.2]
  · rw [sget_ssetAll_of_not_mem _ fun x hx e => hr (List.mem_range.mp (hkeys ▸ List.mem_map.mpr ⟨x, hx, e⟩))]
    rw [List.length_take, lt_min_iff, not_and] at hr
    by_cases h8 : r < 8
    · rw [if_pos h8, List.getD_eq_default _ _ (Nat.not_lt.mp (hr h8))]; rfl
    · rw [if_neg h8]; rfl

/-! ### A party entered on a core (02 R30) -/

theorem State.moveQuotas_frame (s : State) (moves : List (Nat × Nat × Nat)) :
    s.moveQuotas moves = { s with parties := (s.moveQuotas moves).parties } := by
  unfold State.moveQuotas
  induction moves generalizing s with
  | nil => rfl
  | cons m moves ih => exact ih _

end Sys2Proof.Machine
end

section
/-! SUPPORT. The family Execution: a party entered on a core, and its retirement (02 R30, R54, R55). -/

namespace Sys2Proof.Machine

/-! ### A party entered on a core (02 R30) -/

/-- The record of a party that is entered on a core, with the numbers of its crews. -/
def newParty (la : Launch) (l index core : Nat) (quota ids : List Nat) : Party :=
  let r := la.res.toNat
  { launch := l, index := index, outing := index / la.perOuting, member := index % la.perOuting, die := dieOf core
    core := coreOf core, crews := ids, scratchSize := resScratch r, slotCount := resSlots r, sigCount := resSignals r
    bars := List.replicate 16 { members := maskOf 32 32 fun i => decide (i < natBits r 5 0) }, nearQuota := resNear r
    nearFrames := quota }

/-- The numbers of the crews of a party that is entered next. -/
def State.newIds (s : State) (la : Launch) : List Nat := (List.range (natBits la.res.toNat 5 0)).map (s.nextId + 1 + ·)

/-- The state with a party entered on a core, before its crews are seated. -/
def State.withParty (s : State) (l index core : Nat) (plan : Plan) : State :=
  let la := s.launchRec l
  let t := { s with nextId := s.nextId + 1 }.moveQuotas plan.moves
  { t with
    nextId := s.nextId + 1 + natBits la.res.toNat 5 0
    parties := aset t.parties s.nextId (newParty la l index core plan.quota (s.newIds la)) }

section
variable (s : State) (l index core : Nat) (plan : Plan)

theorem State.withParty_frame : s.withParty l index core plan = { s with
    nextId := (s.withParty l index core plan).nextId, parties := (s.withParty l index core plan).parties } := by
  unfold State.withParty
  dsimp only
  rw [State.moveQuotas_frame]

theorem State.enterParty_eq_seatCrews : s.enterParty l index core plan
    = (s.withParty l index core plan).seatCrews s.nextId (s.launchRec l) (s.newIds (s.launchRec l)).zipIdx :=
  rfl

theorem State.enterParty_frame : s.enterParty l index core plan
    = { s.withParty l index core plan with crews := (s.enterParty l index core plan).crews } := by
  rw [State.enterParty_eq_seatCrews]
  exact State.seatCrews_frame ..

theorem State.party_enterParty : (s.enterParty l index core plan).party s.nextId
    = newParty (s.launchRec l) l index core plan.quota (s.newIds (s.launchRec l)) := by
  rw [State.enterParty_frame]
  simp [State.party, State.withParty, aget_aset]

theorem State.nextId_enterParty : (s.enterParty l index core plan).nextId
    = s.nextId + 1 + natBits (s.launchRec l).res.toNat 5 0 := by
  rw [State.enterParty_frame]
  rfl

theorem State.mem_enterParty : (s.enterParty l index core plan).mem = s.mem := by
  rw [State.enterParty_frame, State.withParty_frame]

theorem State.mem_newIds_zipIdx {la : Launch} {k i : Nat} :
    (k, i) ∈ (s.newIds la).zipIdx ↔ i < natBits la.res.toNat 5 0 ∧ k = s.nextId + 1 + i := by
  simp only [List.mem_zipIdx_iff_getElem?, State.newIds, List.getElem?_map, Option.map_eq_some_iff]
  constructor
  · rintro ⟨a, ha, rfl⟩
    obtain ⟨hi, rfl⟩ := List.getElem?_eq_some_iff.mp ha
    simpa using hi
  · rintro ⟨hi, rfl⟩
    exact ⟨i, by simp [hi], rfl⟩

theorem State.aget_enterParty_of_outside {k : Nat} (h : k < s.nextId ∨ s.nextId + natBits (s.launchRec l).res.toNat 5 0 < k) :
    aget (s.enterParty l index core plan).crews k = aget s.crews k := by
  rw [State.enterParty_eq_seatCrews, State.aget_seatCrews_of_ne, State.withParty_frame]
  rintro ⟨k', i⟩ hx rfl
  obtain ⟨hi, rfl⟩ := (s.mem_newIds_zipIdx).mp hx
  omega

theorem State.newIds_zipIdx_nodup (la : Launch) : ((s.newIds la).zipIdx.map (·.1)).Nodup := by
  rw [List.zipIdx_map_fst]
  exact List.nodup_range.map fun a b h => Nat.add_left_cancel h

theorem State.aget_enterParty {i : Nat} (h : i < natBits (s.launchRec l).res.toNat 5 0) :
    ∃ slot, i % 8 * 32 ≤ slot ∧ slot < i % 8 * 32 + 32 ∧ aget (s.enterParty l index core plan).crews (s.nextId + 1 + i)
      = some (startCrew (s.launchRec l) (s.tenant (s.launchRec l).tenant) s.nextId i slot) := by
  have hten : (s.withParty l index core plan).tenant = s.tenant := by rw [State.withParty_frame]; rfl
  rw [State.enterParty_eq_seatCrews, ← hten]
  exact State.aget_seatCrews _ _ (s.newIds_zipIdx_nodup _) (s.mem_newIds_zipIdx.mpr ⟨h, rfl⟩) _

end

/-! ### The seats of a list of parties -/

theorem seatAll_cons_of_none {l core index : Nat} {rest : List Nat} {x : Seating}
    (h : x.s.planCore (core / 32) (core % 32) (x.s.launchRec l).res.toNat (resNear (x.s.launchRec l).res.toNat) = none) :
    seatAll l (core :: rest) index x = none := by
  simp only [seatAll, dieOf, coreOf, h]

theorem seatAll_cons_of_some {l core index : Nat} {rest : List Nat} {x : Seating} {y : Plan}
    (h : x.s.planCore (core / 32) (core % 32) (x.s.launchRec l).res.toNat (resNear (x.s.launchRec l).res.toNat) = some y) :
    ∃ e, seatAll l (core :: rest) index x = seatAll l rest (index + 1)
      { s := x.s.enterParty l index core y, empty := e, placed := x.placed ++ [core] } := by
  simp only [seatAll, dieOf, coreOf, h]
  exact ⟨_, rfl⟩

/-! ### Waiting for a page, a route or a drain (08 R176; 11 R258) -/

section
variable {s : State} {e : Instr} {f : State → State}

theorem State.unlessMoving_of_none (h : (f { s with met := none }).met = none) : s.unlessMoving e f = f { s with met := none } := by
  simp only [State.unlessMoving, h]

theorem State.unlessMoving_of_moving {q : Nat} (h : (f { s with met := none }).met = some (.moving q)) :
    s.unlessMoving e f = s.joinQueue q (.agent e) := by
  simp only [State.unlessMoving, h]

theorem State.unlessMoving_of_noRoute {d : Nat} (h : (f { s with met := none }).met = some (.noRoute d)) :
    s.unlessMoving e f = { s with stalled := s.stalled ++ [(d, e)] } := by
  simp only [State.unlessMoving, h]

theorem State.unlessMoving_of_away {g : Nat} (h : (f { s with met := none }).met = some (.away g)) :
    s.unlessMoving e f = s.markAway g := by
  simp only [State.unlessMoving, h]

end

/-! ### The parties told to stop, and those that may retire (02 R46, R54) -/

theorem State.forall_mem_partyCrews {s : State} {p : Nat} {P : Nat × Crew → Prop} :
    (∀ x ∈ s.partyCrews p, P x) ↔ ∀ x ∈ s.crews, x.2.partyId = some p → P x := by
  simp [State.partyCrews, List.mem_filter]

theorem State.retirable_iff (s : State) (p : Nat) : s.retirable p = true ↔
    ((s.party p).status = .resident ∨ ∃ n, (s.party p).status = .stopping n) ∧ (s.party p).crews ≠ []
      ∧ (s.die (s.party p).die).inService = true ∧ (∀ x ∈ s.crews, x.2.partyId = some p → x.2.live = 0) ∧ s.quiet p = true := by
  have hcrews := State.forall_mem_partyCrews (s := s) (p := p) (P := fun x => x.2.live = 0)
  rw [← hcrews]
  cases hst : (s.party p).status <;> simp [State.retirable, hst, and_assoc]

/-! ### What a party holds, freed (02 R55) -/

theorem State.mem_crews_freeParty {s : State} {p : Nat} {st : PartyStatus} {x : Nat × Crew} :
    x ∈ (s.freeParty p st).crews ↔ x ∈ s.crews ∧ x.2.partyId ≠ some p := by
  simp [State.crews_freeParty]

theorem State.sget_freeParty (s : State) (p : Nat) (st : PartyStatus) (a : Nat) : sget (s.freeParty p st).mem a
    = if scratchAddr p 0 ≤ a ∧ a < scratchAddr p 0 + 2 ^ 24 then 0 else sget s.mem a := by
  have hmem : (s.freeParty p st).mem = (s.memZero (scratchAddr p 0) (2 ^ 24)).mem := by
    unfold State.freeParty
    dsimp only
    split
    · rfl
    · rfl
  rw [hmem, State.sget_memZero]

theorem State.freeParty_frame (s : State) (p : Nat) (st : PartyStatus) : { s.freeParty p st with
    crews := s.crews, parties := s.parties, mem := s.mem, requests := s.requests, launches := s.launches } = s := by
  unfold State.freeParty
  dsimp only
  split
  · rfl
  · rfl

/-! ### PARTY_RETIRE (02 R54) -/

theorem execPartyRetire_of_not {s : State} {p : Nat} (h : ¬s.retirable p = true) : execPartyRetire p s = .next s :=
  congrArg _ (if_neg h)

theorem execPartyRetire_of_retirable {s : State} {p : Nat} (h : s.retirable p = true) :
    execPartyRetire p s = .next (s.unlessMoving (.partyRetire p) fun s => s.retireParty p) :=
  congrArg _ (if_pos h)

end Sys2Proof.Machine
end

section
/-! SUPPORT. The family Execution: pre-emption, its victim, and the save of a party (02 R45 to R47, R51; 04 R93, R95). -/

namespace Sys2Proof.Machine

/-! ### PREEMPT (02 R45) -/

theorem State.mem_group {s : State} {p k : Nat} : k ∈ s.group p ↔ ∃ x, (k, x) ∈ s.parties ∧ x.launch = (s.party p).launch
    ∧ x.status = .resident ∧ ((s.launchRec (s.party p).launch).coop = true ∨ x.outing = (s.party p).outing) := by
  simp only [State.group, List.mem_map, List.mem_filter, Bool.and_eq_true, Bool.or_eq_true, decide_eq_true_eq, beq_iff_eq]
  constructor
  · rintro ⟨⟨k, x⟩, ⟨hx, ⟨hl, ho⟩, hst⟩, rfl⟩
    exact ⟨x, hx, hl, hst, ho⟩
  · rintro ⟨x, hx, hl, hst, ho⟩
    exact ⟨(k, x), ⟨hx, ⟨hl, ho⟩, hst⟩, rfl⟩

theorem State.preempt_of_not_resident {s : State} {p : Nat} (h : (s.party p).status ≠ .resident) : s.preempt p = s :=
  if_neg (by simpa using h)

theorem State.parties_preempt {s : State} {p : Nat} (h : (s.party p).status = .resident) : (s.preempt p).parties
    = s.parties.map fun x => (x.1, if x.1 ∈ s.group p then { x.2 with status := .stopping s.time } else x.2) := by
  simp [State.preempt, h]

theorem State.preempt_frame (s : State) (p : Nat) : { s.preempt p with parties := s.parties } = s := by
  unfold State.preempt
  split
  · rfl
  · rfl

/-! ### The victim of the launch unit (02 R45; log 59) -/

theorem findSome?_least {β : Type} {f : Nat → Option β} {l : List Nat} {b : β} (hl : l.Pairwise (· < ·))
    (h : l.findSome? f = some b) : ∃ n ∈ l, f n = some b ∧ ∀ m ∈ l, m < n → f m = none := by
  obtain ⟨l₁, n, l₂, rfl, hn, hnone⟩ := List.findSome?_eq_some_iff.mp h
  refine ⟨n, by simp, hn, fun m hm hlt => ?_⟩
  rcases List.mem_append.mp hm with hm | hm
  · exact hnone m hm
  · have hle : n ≤ m := by
      rcases List.mem_cons.mp hm with rfl | hm
      · exact le_rfl
      · exact (List.rel_of_pairwise_cons (List.pairwise_append.mp hl).2.1 hm).le
    omega

theorem State.victim_eq_some {s : State} {l p : Nat} {la : Launch} (h : s.victim l la = some p) :
    ∃ q, (p, q) ∈ s.parties ∧ q.status = .resident ∧ (s.launchRec q.launch).tenant = la.tenant
      ∧ (s.launchRec q.launch).prio < la.prio ∧ s.placing la = true ∧ s.coresFor l = none
      ∧ ∀ x ∈ s.parties, (s.launchRec x.2.launch).tenant = la.tenant → (s.launchRec x.2.launch).prio < la.prio →
          (∀ n, x.2.status ≠ .stopping n)
          ∧ (x.2.status = .resident → (s.launchRec q.launch).prio ≤ (s.launchRec x.2.launch).prio) := by
  simp only [State.victim, Option.ite_none_left_eq_some] at h
  obtain ⟨hguard, h⟩ := h
  simp only [Bool.or_eq_true, Bool.not_eq_true', not_or, Bool.not_eq_false, Bool.not_eq_true] at hguard
  obtain ⟨hstarved, hstop⟩ := hguard
  simp only [State.starved, Bool.and_eq_true, Option.isNone_iff_eq_none] at hstarved
  obtain ⟨hplacing, hcores⟩ := hstarved
  obtain ⟨n, hn, hfound, hleast⟩ := findSome?_least (by decide) h
  obtain ⟨⟨k, q⟩, hq, rfl⟩ := Option.map_eq_some_iff.mp hfound
  have hmine := List.find?_some hq
  simp only [Bool.and_eq_true, decide_eq_true_eq, beq_iff_eq] at hmine
  obtain ⟨⟨⟨hten, hprio⟩, hres⟩, rfl⟩ := hmine
  refine ⟨q, List.mem_of_find?_eq_some hq, hres, hten, hprio, hplacing, hcores,
    fun x hx hxten hxprio => ⟨fun m hm => ?_, fun hxres => ?_⟩⟩
  · simpa [hxten, hxprio, hm] using List.any_eq_false.mp hstop x hx
  · by_contra hlt
    have hmem : (s.launchRec x.2.launch).prio ∈ [0, 1, 2] := by
      simp only [List.mem_cons, List.not_mem_nil, or_false] at hn ⊢
      omega
    have hnone := hleast _ hmem (Nat.lt_of_not_le hlt)
    rw [Option.map_eq_none_iff, List.find?_eq_none] at hnone
    exact hnone x hx (by simp [hxten, hxprio, hxres])

/-! ### The parties told to stop, and PARTY_SAVE (02 R46, R51) -/

theorem State.mem_stopped {s : State} {p : Nat} {x : Nat × Party} : x ∈ s.stopped p ↔ x ∈ s.parties
    ∧ x.2.launch = (s.party p).launch ∧ (∃ n, x.2.status = .stopping n)
    ∧ ((s.launchRec (s.party p).launch).coop = true ∨ x.2.outing = (s.party p).outing) := by
  rw [State.stopped, List.mem_filter]
  cases h : x.2.status <;> simp [h]

theorem State.drained_iff (s : State) (p : Nat) : s.drained p = true ↔ (∃ n, (s.party p).status = .stopping n)
    ∧ ∀ x ∈ s.stopped p, (s.die x.2.die).inService = true ∧ s.quiet x.1 = true ∧ s.retirable x.1 = false := by
  cases h : (s.party p).status <;> simp [State.drained, h, and_assoc]

theorem State.discardable_iff (s : State) (p : Nat) : s.discardable p = true ↔ (s.die (s.party p).die).ckpt = false
    ∧ ∀ x ∈ s.crews, x.2.partyId = some p → x.2.idem ≠ none ∨ x.2.live = 0 ∨ x.2.started = false := by
  rw [← State.forall_mem_partyCrews (P := fun x => x.2.idem ≠ none ∨ x.2.live = 0 ∨ x.2.started = false)]
  simp [State.discardable, Option.isSome_iff_ne_none, or_assoc]

theorem State.map_snd_crewsByIndex (s : State) (p : Nat) : (s.crewsByIndex p).map (·.2) = (s.party p).crews.map s.crew := by
  rw [State.crewsByIndex, List.map_map]
  rfl

/-- The launch of a discarded party, with the tiles that its live crews took in their regions back. -/
def State.withTilesBack (s : State) (p : Nat) : State :=
  s.modLaunch (s.party p).launch fun la =>
    { la with walks := (((s.party p).crews.map s.crew).filter fun c => c.live ≠ 0).foldl (fun w c => giveBack c w) la.walks }

section
variable {s : State} {p : Nat}

theorem execPartySave_of_not (h : ¬s.drained p = true) : execPartySave p s = .next s :=
  congrArg _ (if_neg h)

theorem execPartySave_of_discardable (h : s.drained p = true) (hd : ((s.drain p).dropFaults p).discardable p = true) :
    let u := (s.drain p).dropFaults p
    let crews := (u.party p).crews.map u.crew
    execPartySave p s = .next (((u.withTilesBack p).freeParty p (.saved 0)).modParty p fun x =>
      { x with crews := (u.party p).crews, restart := crews.map restartOf, saved := crews.map keptCrew, toward := [] }) := by
  refine congrArg _ ((if_pos h).trans ((if_pos hd).trans ?_))
  rw [State.map_snd_crewsByIndex]
  rfl

theorem execPartySave_of_area (h : s.drained p = true) (hd : ¬((s.drain p).dropFaults p).discardable p = true) :
    let u := (s.drain p).dropFaults p
    execPartySave p s = .next (((State.writeArea { u with nextId := u.nextId + 1 } p u.nextId).freeParty p (.saved u.nextId)).modParty p
      fun x => { x with crews := (u.party p).crews, restart := [], saved := (u.party p).crews.map u.crew }) := by
  refine congrArg _ ((if_pos h).trans ((if_neg hd).trans ?_))
  rw [State.map_snd_crewsByIndex]

end

theorem giveBack_of_none {c : Crew} (h : c.idem = none) (walks : List Walk) : giveBack c walks = walks := by
  simp [giveBack, h]

theorem getElem?_giveBack {c : Crew} {x : IdemRec} (h : c.idem = some x) {walks : List Walk} {i : Nat} {w : Walk}
    (hw : walks[i]? = some w) :
    (giveBack c walks)[i]? = some { w with returned := w.returned ++ (x.took.filter fun y => y.1 = i).map (·.2) } := by
  simp [giveBack, h, hw]

/-! ### The fields of an area (04 R93, R95) -/

theorem length_leBytes (x n : Nat) : (leBytes x n).length = n := by
  induction n generalizing x with
  | zero => rfl
  | succ n ih => exact congrArg Nat.succ (ih _)

theorem State.sget_putFields_of_outside {b a : Nat} {l : List AreaField} (h : ∀ f ∈ l, a < b + f.1 ∨ b + f.1 + f.2.1 ≤ a)
    (s : State) : sget (s.putFields b l).mem a = sget s.mem a := by
  induction l generalizing s with
  | nil => rfl
  | cons f l ih =>
    have hf := h f List.mem_cons_self
    refine (ih (fun g hg => h g (List.mem_cons_of_mem _ hg)) _).trans ?_
    rw [State.sget_memWrite, length_leBytes, if_neg (by omega)]

theorem State.memRead_putFields_of_mem {b : Nat} {l : List AreaField}
    (hl : l.Pairwise fun f g => f.1 + f.2.1 ≤ g.1 ∨ g.1 + g.2.1 ≤ f.1) {f : AreaField} (hf : f ∈ l) (s : State) :
    (s.putFields b l).memRead (b + f.1) f.2.1 = leBytes f.2.2 f.2.1 := by
  induction l generalizing s with
  | nil => cases hf
  | cons g l ih =>
    obtain ⟨hg, hl⟩ := List.pairwise_cons.mp hl
    rcases List.mem_cons.mp hf with rfl | hf
    · have hkeep : ((s.memWrite (b + f.1) (leBytes f.2.2 f.2.1)).putFields b l).memRead (b + f.1) f.2.1
          = (s.memWrite (b + f.1) (leBytes f.2.2 f.2.1)).memRead (b + f.1) f.2.1 := by
        refine List.map_congr_left fun i hi => State.sget_putFields_of_outside (fun g hmem => ?_) _
        have := hg g hmem
        have := List.mem_range.mp hi
        omega
      have hread := (s.memRead_memWrite (b + f.1) (leBytes f.2.2 f.2.1))
      rw [length_leBytes] at hread
      exact hkeep.trans hread
    · exact ih hl hf _

theorem mem_fieldList {off size n i : Nat} (f : Nat → Nat) (h : i < n) : (off + size * i, size, f i) ∈ fieldList off size n f :=
  List.mem_map.mpr ⟨i, List.mem_range.mpr h, rfl⟩

/-! Lean makes the equation of `crewFixed` slowly: these lemmas open it by `delta`. -/

section
variable (c : Crew)

theorem pc_mem_crewFixed {i : Nat} (h : i < 8) : (8 * i, 8, (c.slice i).pc.toNat) ∈ crewFixed c := by
  have hmem : (8 * i, 8, (c.slice i).pc.toNat) ∈ fieldList 0x000 8 8 fun i => (c.slice i).pc.toNat := by
    simpa using mem_fieldList (off := 0x000) (size := 8) (fun i => (c.slice i).pc.toNat) h
  delta crewFixed
  simp only [List.mem_append, hmem, true_or]

theorem link_mem_crewFixed {i : Nat} (h : i < 8) : (0x040 + 8 * i, 8, (c.slice i).link.toNat) ∈ crewFixed c := by
  have hmem := mem_fieldList (off := 0x040) (size := 8) (fun i => (c.slice i).link.toNat) h
  delta crewFixed
  simp only [List.mem_append, hmem, true_or, or_true]

theorem sreg_mem_crewFixed {r : Nat} (h : r < 128) : (0x540 + 8 * r, 8, (c.sreg r).toNat) ∈ crewFixed c := by
  have hmem := mem_fieldList (off := 0x540) (size := 8) (fun r => (c.sreg r).toNat) h
  delta crewFixed
  simp only [List.mem_append, hmem, true_or, or_true]

theorem pred_mem_crewFixed {i : Nat} (h : i < 16) : (0x940 + 4 * i, 4, (c.pred i).toNat) ∈ crewFixed c := by
  have hpred : c.pred i = sget c.preds i := if_neg (by omega)
  have hmem := mem_fieldList (off := 0x940) (size := 4) (fun i => (sget c.preds i).toNat) h
  delta crewFixed
  simp only [List.mem_append, hpred, hmem, true_or, or_true]

theorem exec_mem_crewFixed : (0x980, 4, c.exec.toNat) ∈ crewFixed c :=
  List.mem_append_right _ List.mem_cons_self

theorem live_mem_crewFixed : (0x984, 4, c.live.toNat) ∈ crewFixed c :=
  List.mem_append_right _ (List.mem_cons_of_mem _ List.mem_cons_self)

theorem hstk_mem_crewFixed : (0x118, 8, c.hstk.toNat) ∈ crewFixed c := by
  delta crewFixed
  simp only [List.mem_append, List.mem_cons, true_or, or_true]

theorem flags_mem_crewFixed : (0x108, 8, c.flags.toNat + c.ten.toNat * 2 ^ 8) ∈ crewFixed c := by
  delta crewFixed
  simp only [List.mem_append, List.mem_cons, true_or, or_true]

theorem vreg_mem_crewFiles {r i : Nat} (hr : r < c.g) (hi : i < 32) :
    (0x988 + 4 * (32 * r + i), 4, (c.vreg r i).toNat) ∈ crewFiles c := by
  have hmem := mem_fieldList (off := 0x988) (size := 4) (n := 32 * c.g) (i := 32 * r + i) (fun i => (sget c.vregs i).toNat) (by omega)
  rw [Crew.vreg, Nat.mul_comm r 32]
  exact List.mem_append_left _ hmem

end

/-! ### PREEMPT_TIMEOUT (02 R47) -/

theorem execPreemptTimeout_of_overdue {s : State} {p n : Nat} (hst : (s.party p).status = .stopping n) (hn : n + 2100000 ≤ s.time)
    (hq : s.quiet p = false) (hd : (s.die (s.party p).die).inService = true) :
    execPreemptTimeout p s = .next (s.haltTenant (s.launchRec (s.party p).launch).tenant 0x16 4 0 0) :=
  congrArg _ (if_pos (by simp [State.overdue, hst, hq, hd, Config.usec, hn]))

theorem execPreemptTimeout_of_not {s : State} {p : Nat}
    (h : ∀ n, (s.party p).status = .stopping n →
      s.time < n + 2100000 ∨ s.quiet p = true ∨ (s.die (s.party p).die).inService = false) :
    execPreemptTimeout p s = .next s := by
  refine congrArg _ (if_neg ?_)
  cases hst : (s.party p).status with
  | stopping n =>
    rcases h n hst with hn | hq | hd
    · simp [State.overdue, hst, Config.usec, Nat.not_le.mpr hn]
    · simp [State.overdue, hst, hq]
    · simp [State.overdue, hst, hd]
  | _ => simp [State.overdue, hst]

end Sys2Proof.Machine
end

section
/-! SUPPORT. The family Execution: the restore of saved parties (02 R48, R49, R52), and the life of a party. -/

namespace Sys2Proof.Machine

/-! ### PARTY_RESTORE (02 R48) -/

/-- The condition of PARTY_RESTORE: the party is saved and its group is saved whole, and the cores fit it. -/
def State.RestoreFits (s : State) (p : Nat) (cores : List Nat) : Prop :=
  (s.party p).isSaved = true ∧ cores.length = (s.savedGroup p).length ∧ (∀ x ∈ cores, s.coreMoving x = false)
    ∧ (∀ x ∈ s.parties, x.2.launch = (s.party p).launch
        → ((s.launchRec (s.party p).launch).coop = true ∨ x.2.outing = (s.party p).outing) → ∀ n, x.2.status ≠ .stopping n)
    ∧ octantsOk (s.tenant (s.launchRec (s.party p).launch).tenant)
        (((s.savedGroup p).zip cores).map fun x => ((s.party x.1).outing, x.2)) = true

/-- The area of a saved party is out of range. -/
def State.badArea (s : State) (q : Nat) : Bool := (s.party q).restart.isEmpty && !s.areaOk q (s.party q).area

/-- A restore in which every frame is clear: the outings have their barriers again, each party opens, and its slices go on. -/
def State.restoreAll (s x : State) (group : List Nat) : State :=
  let bars := (group.foldl (fun (t : State) q => t.outingAgain q group) s).outings
  let t := group.foldl (fun (t : State) q => t.openParty q) { x with outings := bars }
  group.foldl (fun (t : State) q => (t.departDone q).deliverAll (t.party q).crews) t

section
variable {s : State} {p : Nat} {cores : List Nat}

theorem State.stopped_eq_nil_iff : s.stopped p = [] ↔ ∀ x ∈ s.parties, x.2.launch = (s.party p).launch
    → ((s.launchRec (s.party p).launch).coop = true ∨ x.2.outing = (s.party p).outing) → ∀ n, x.2.status ≠ .stopping n := by
  rw [List.eq_nil_iff_forall_not_mem]
  constructor
  · exact fun h x hx hl ho n hn => h x (State.mem_stopped.mpr ⟨hx, hl, ⟨n, hn⟩, ho⟩)
  · intro h x hmem
    obtain ⟨hx, hl, ⟨n, hn⟩, ho⟩ := State.mem_stopped.mp hmem
    exact h x hx hl ho n hn

theorem State.restoreFits_iff : s.RestoreFits p cores ↔
    (!(s.party p).isSaved || !(s.stopped p).isEmpty || decide (cores.length ≠ (s.savedGroup p).length) || cores.any s.coreMoving
      || !octantsOk (s.tenant (s.launchRec (s.party p).launch).tenant)
        (((s.savedGroup p).zip cores).map fun x => ((s.party x.1).outing, x.2))) = false := by
  rw [State.RestoreFits, ← State.stopped_eq_nil_iff]
  simp only [Bool.or_eq_false_iff, Bool.not_eq_false', List.isEmpty_iff, decide_eq_false_iff_not, not_not, ne_eq, List.any_eq_false,
    Bool.not_eq_true]
  tauto

theorem State.restoreOn_of_unfit (h : ¬s.RestoreFits p cores) : s.restoreOn p cores = s :=
  if_pos (Bool.not_eq_false _ ▸ mt State.restoreFits_iff.mpr h)

theorem State.restoreOn_of_fits (h : s.RestoreFits p cores) : s.restoreOn p cores =
    match (s.savedGroup p).find? s.badArea with
    | some q => s.refuseRestore q
    | none =>
      match reseatAll ((s.savedGroup p).zip cores) { s := s } with
      | none => s
      | some x => if !(s.stillFull x.empty).isEmpty then s.evictFrames (s.stillFull x.empty) else s.restoreAll x.s (s.savedGroup p) :=
  if_neg (by rw [Bool.not_eq_true]; exact State.restoreFits_iff.mp h)

theorem State.restoreOn_of_bad (h : s.RestoreFits p cores) {q : Nat} (hq : (s.savedGroup p).find? s.badArea = some q) :
    s.restoreOn p cores = s.refuseRestore q := by
  rw [State.restoreOn_of_fits h, hq]

section
variable (h : s.RestoreFits p cores) (hbad : (s.savedGroup p).find? s.badArea = none)
include h hbad

theorem State.restoreOn_of_no_seats (hx : reseatAll ((s.savedGroup p).zip cores) { s := s } = none) : s.restoreOn p cores = s := by
  rw [State.restoreOn_of_fits h, hbad, hx]

variable {x : Seating} (hx : reseatAll ((s.savedGroup p).zip cores) { s := s } = some x)
include hx

theorem State.restoreOn_of_full (hfull : s.stillFull x.empty ≠ []) :
    s.restoreOn p cores = s.evictFrames (s.stillFull x.empty) := by
  rw [State.restoreOn_of_fits h, hbad, hx]
  exact if_pos (by simpa using hfull)

theorem State.restoreOn_of_clear (hclear : s.stillFull x.empty = []) :
    s.restoreOn p cores = s.restoreAll x.s (s.savedGroup p) := by
  rw [State.restoreOn_of_fits h, hbad, hx]
  exact if_neg (by simp [hclear])

end
end

/-! ### The slices of a restored crew (02 R49) -/

theorem held_sliceAgain_of_parked {s : State} {i b : Nat} {old : Slice} (h : old.wait = .parked) : (sliceAgain s b i old).held = none := by
  simp [sliceAgain, h]

theorem held_sliceAgain_of_other {s : State} {i b : Nat} {old : Slice} (hp : old.wait ≠ .parked) (hm : ∀ q, old.wait ≠ .moving q)
    (hr : ∀ d a n, old.wait ≠ .route d a n) : (sliceAgain s b i old).held = old.held := by
  cases h : old.wait with
  | parked => exact absurd h hp
  | moving q => exact absurd h (hm q)
  | route d a n => exact absurd h (hr d a n)
  | _ => simp [sliceAgain, h]

/-- Settles O55: each row by the lemmas that say what its step does where its condition holds, and where it does not. -/
theorem partyLife : Obligations.PartyLife := by
  unfold Obligations.PartyLife
  intro freed
  refine ⟨fun s l o cores => ⟨execPartyPlace_of_other, fun x ho hf hx => ?place⟩,
    fun l core index rest x => ⟨rfl, seatAll_cons_of_none, fun y => seatAll_cons_of_some⟩, fun s l index core plan => ?enter,
    fun s p => ?retire, fun s p st => ?freed, fun s p => ⟨s.preempt p, rfl, s.preempt_frame p, State.preempt_of_not_resident,
      State.parties_preempt, fun k => State.mem_group⟩, fun s p => ?save,
    fun c walks i _ => ⟨fun h => giveBack_of_none h walks, fun x w h => getElem?_giveBack h⟩, fun s l la p => State.victim_eq_some,
    fun s b l hl => ⟨fun f hf => State.memRead_putFields_of_mem hl hf s, fun a h => State.sget_putFields_of_outside h s⟩,
    fun c i r => ⟨fun h => ⟨pc_mem_crewFixed c h, link_mem_crewFixed c h⟩, sreg_mem_crewFixed c, pred_mem_crewFixed c,
      exec_mem_crewFixed c, live_mem_crewFixed c, hstk_mem_crewFixed c, flags_mem_crewFixed c, vreg_mem_crewFiles c⟩,
    fun s p => ⟨fun n => execPreemptTimeout_of_overdue, execPreemptTimeout_of_not⟩,
    fun s p cores => ⟨fun h => ?unfit, fun q h hbad => ?bad, fun h hbad => ?restore,
      fun s i b old => ⟨rfl, held_sliceAgain_of_parked, held_sliceAgain_of_other⟩, fun c old x => ⟨rfl, rfl⟩⟩⟩
  case place =>
    subst ho
    exact ⟨execPartyPlace_of_full hf hx, execPartyPlace_of_clear hf hx⟩
  case enter =>
    intro la n p t
    have hp : t.party p = newParty la l index core plan.quota (s.newIds la) := s.party_enterParty l index core plan
    rw [hp]
    refine ⟨rfl, rfl, rfl, rfl, rfl, rfl, rfl, rfl, rfl, s.nextId_enterParty .., s.mem_enterParty ..,
      fun k => s.aget_enterParty_of_outside l index core plan, fun i hi => ?_⟩
    obtain ⟨slot, hlo, hhi, hcrew⟩ := s.aget_enterParty l index core plan hi
    exact ⟨slot, _, hcrew, hlo, hhi, fun r => startCrew_sreg .., rfl⟩
  case retire =>
    intro q may u t
    refine ⟨fun h => ?_, fun h => execPartyRetire_of_not (mt (s.retirable_iff p).mp h)⟩
    have hexec := execPartyRetire_of_retirable ((s.retirable_iff p).mpr h)
    exact ⟨fun ht => hexec.trans (congrArg _ (State.unlessMoving_of_none ht)),
      fun q ht => hexec.trans (congrArg _ (State.unlessMoving_of_moving ht)),
      fun d ht => hexec.trans (congrArg _ (State.unlessMoving_of_noRoute ht)),
      fun g ht => hexec.trans (congrArg _ (State.unlessMoving_of_away ht))⟩
  case freed =>
    refine ⟨fun x => State.mem_crews_freeParty, fun q hq => ?_, fun k hk => ?_, s.sget_freeParty p st, s.freeParty_frame p st⟩
    · rw [State.parties_freeParty, aget_amod, if_pos rfl, hq]
      rfl
    · rw [State.parties_freeParty, aget_amod, if_neg hk]
  case save =>
    intro q told may u ids crews restart
    have hmay : may ↔ s.drained p = true := by
      rw [State.drained_iff]
      exact and_congr_right fun _ => forall_congr' fun x => imp_congr_left State.mem_stopped.symm
    have hrestart : restart ↔ u.discardable p = true := (State.discardable_iff u p).symm
    exact ⟨fun h => execPartySave_of_not (mt hmay.mpr h),
      fun h hr => ⟨u.withTilesBack p, execPartySave_of_discardable (hmay.mp h) (hrestart.mp hr), rfl⟩,
      fun h hr => execPartySave_of_area (hmay.mp h) (mt hrestart.mpr hr)⟩
  case unfit => exact congrArg _ (State.restoreOn_of_unfit h)
  case bad => exact congrArg _ (State.restoreOn_of_bad h hbad)
  case restore =>
    exact ⟨fun hx => congrArg _ (State.restoreOn_of_no_seats h hbad hx), fun x hx =>
      ⟨fun hfull => congrArg _ (State.restoreOn_of_full h hbad hx hfull),
        fun hclear => congrArg _ (State.restoreOn_of_clear h hbad hx hclear)⟩⟩

end Sys2Proof.Machine
end

section
/-! SUPPORT. The family Slices: what changes each slice of a gang does to the crew, and the branches, calls, returns and the loads of
the fetch path (03 R61; 14 R292). -/

namespace Sys2Proof.Machine

/-! ### A change of each slice of a gang -/

/-- Each slice of a list changes in a way of its own. -/
def Crew.modEach (c : Crew) (is : List Nat) (f : Nat → Slice → Slice) : Crew := is.foldl (fun r i => r.modSlice i (f i)) c

theorem Crew.modEach_eq (c : Crew) (is : List Nat) (f : Nat → Slice → Slice) :
    c.modEach is f = { c with slices := (c.modEach is f).slices } := by
  unfold Crew.modEach
  induction is generalizing c with
  | nil => rfl
  | cons i is ih =>
    rw [List.foldl_cons, ih]
    rfl

theorem Crew.slice_modEach (c : Crew) {is : List Nat} (hn : is.Nodup) (f : Nat → Slice → Slice) (j : Nat) :
    (c.modEach is f).slice j = if j ∈ is ∧ j < c.slices.length then f j (c.slice j) else c.slice j := by
  unfold Crew.modEach
  induction is generalizing c with
  | nil => simp
  | cons i is ih =>
    obtain ⟨hi, hn⟩ := List.nodup_cons.mp hn
    rw [List.foldl_cons, ih _ hn, Crew.slices_length_modSlice, Crew.slice_modSlice]
    by_cases hj : j = i
    · subst hj
      simp [hi]
    · simp [hj]

/-- What a branch makes of a slice: it goes to the target where it takes the branch, else past the word (03 R61). -/
def Slice.branch (t : DWord) (len : Nat) (taken : Bool) (sl : Slice) : Slice :=
  { sl with pc := if taken then t else sl.pc + BitVec.ofNat 64 len, wait := .none }

theorem foldl_branch (c : Crew) (is : List Nat) (t : DWord) (len : Nat) (takes : Nat → Bool) :
    is.foldl (fun r i => if takes i then r.modSlice i fun sl => { sl with pc := t, wait := .none } else r.advance [i] len) c
      = c.modEach is fun i => Slice.branch t len (takes i) := by
  refine List.foldl_ext _ _ c fun r i _ => ?_
  simp only [Crew.advance, Crew.modSlices, List.foldl_cons, List.foldl_nil]
  split
  · exact congrArg _ (funext fun sl => by simp [Slice.branch, *])
  · exact congrArg _ (funext fun sl => by simp [Slice.branch, *])

/-- A gang that branches: its slices go their ways, and the others stay. -/
theorem Crew.slice_branch (c : Crew) {is : List Nat} (hn : is.Nodup) (t : DWord) (len : Nat) (takes : Nat → Bool) (i : Nat) :
    (i ∈ is → i < c.slices.length →
        (takes i = true → (c.modEach is fun i => Slice.branch t len (takes i)).slice i = { c.slice i with pc := t, wait := .none })
        ∧ (¬takes i = true → (c.modEach is fun i => Slice.branch t len (takes i)).slice i
            = { c.slice i with pc := (c.slice i).pc + BitVec.ofNat 64 len, wait := .none }))
      ∧ (i ∉ is → (c.modEach is fun i => Slice.branch t len (takes i)).slice i = c.slice i) := by
  rw [Crew.slice_modEach c hn]
  refine ⟨fun hi hl => ⟨fun h => ?_, fun h => ?_⟩, fun hi => if_neg fun h => hi h.1⟩
  · rw [if_pos ⟨hi, hl⟩, Slice.branch, if_pos h]
  · rw [if_pos ⟨hi, hl⟩, Slice.branch, if_neg h]

/-- Changes of one crew in turn are one change of it. -/
theorem State.foldl_modCrew {s : State} {k : Nat} {c : Crew} (h : aget s.crews k = some c) (is : List Nat) (g : Nat → Crew → Crew) :
    is.foldl (fun u i => u.modCrew k (g i)) s = s.setCrew k (is.foldl (fun r i => g i r) c) := by
  induction is generalizing s c with
  | nil => exact (State.setCrew_self h).symm
  | cons i is ih =>
    have hi : aget (s.modCrew k (g i)).crews k = some (g i c) := by rw [State.aget_modCrew, if_pos rfl, h]; rfl
    rw [List.foldl_cons, ih hi, State.modCrew_of_aget h, State.setCrew_setCrew, List.foldl_cons]

/-! ### Targets and conditions -/

/-- The target of a branch is its offset in words from its own PC (14 R286). -/
theorem targetOf_eq (iss : Issue) (off : BitVec 19) : targetOf iss off = iss.pc + off.signExtend 64 * 4 := by
  rw [targetOf, natSext_toNat, Int.mul_comm, BitVec.ofInt_mul]
  rfl

/-- A slice has no bit of a mask exactly where each of its lanes has none. -/
theorem sliceBits_eq_zero {m : BitVec 32} {i : Nat} : sliceBits m i = 0 ↔ ∀ l, l / 4 = i → mbit m l = false := by
  have hbit (j : Nat) : (sliceBits m i).testBit j = (decide (j < 4) && mbit m (4 * i + j)) := by
    rw [sliceBits, show 16 = 2 ^ 4 from rfl, Nat.testBit_mod_two_pow, Nat.testBit_div_two_pow, BitVec.testBit_toNat, Nat.add_comm]
    rfl
  refine ⟨fun h l hl => ?_, fun h => Nat.eq_of_testBit_eq fun j => ?_⟩
  · have := hbit (l % 4)
    rw [h, Nat.zero_testBit, show 4 * i + l % 4 = l by omega] at this
    simpa [Nat.mod_lt] using this.symm
  · rw [hbit, Nat.zero_testBit]
    by_cases hj : j < 4
    · rw [h _ (by omega), Bool.and_false]
    · simp [hj]

theorem sliceBits_exec_eq_zero {c : Crew} {i : Nat} : sliceBits c.exec i = 0 ↔ c.activeOf i = [] := by
  rw [sliceBits_eq_zero, List.eq_nil_iff_forall_not_mem]
  simp [mem_activeOf, Crew.active]

/-- What BR asks of a slice: its condition on the lanes among `act` (03 R61). -/
def BranchHolds (cond : BitVec 4) (act : List Nat) (p : BitVec 32) : Prop :=
  match cond with
  | 0 => True
  | 1 => ∃ l ∈ act, mbit p l = true
  | 2 => ∀ l ∈ act, mbit p l = true
  | 3 => ¬∃ l ∈ act, mbit p l = true
  | 4 => ¬∀ l ∈ act, mbit p l = true
  | 5 => act = []
  | _ => act ≠ []

theorem BranchHolds.congr {cond : BitVec 4} {a b : List Nat} (h : ∀ l, l ∈ a ↔ l ∈ b) (p : BitVec 32) :
    BranchHolds cond a p ↔ BranchHolds cond b p := by
  have hnil : a = [] ↔ b = [] := by simp only [List.eq_nil_iff_forall_not_mem, h]
  unfold BranchHolds
  split <;> simp only [h, ne_eq, hnil]

theorem brTaken_iff {cond : BitVec 4} {c : Crew} {p i : Nat} : brTaken cond c p i = true ↔ BranchHolds cond (c.activeOf i) (c.pred p) := by
  unfold brTaken BranchHolds
  split <;> simp [sliceBits_exec_eq_zero]

theorem mem_active_filter {c : Crew} {i l : Nat} :
    l ∈ (List.range 32).filter (fun l => l / 4 = i && mbit c.exec l) ↔ l ∈ c.activeOf i := by
  rw [mem_activeOf, List.mem_filter, List.mem_range, Bool.and_eq_true, decide_eq_true_iff]
  exact and_iff_right_of_imp fun h => active_lt h.2

/-! ### The fetch path -/

/-- A read on the fetch path leaves the crews alone. -/
theorem State.crews_fetchRead {s t : State} {c : Crew} {va n : Nat} {bs : List Byte} (h : s.fetchRead c va n = .ok (t, bs)) :
    t.crews = s.crews := by
  unfold State.fetchRead at h
  split at h
  · split at h
    · cases h
    · have htouch := (s.touch_only (s.site c) c.tenant va false).crews
      dsimp only at h
      split at h
      · cases h
        exact htouch
      · cases h
        exact htouch
      · have hread := congrArg Prod.fst (Except.ok.inj h)
        rw [show t = _ from hread.symm]
        exact (State.readTgt_only ..).crews.trans htouch
  · cases h

/-- ALIGN in some slices of the gang, each with its own live lanes. -/
theorem State.trapLive_eq {s : State} {iss : Issue} {c : Crew} (hc : aget s.crews iss.crew = some c) (is : List Nat) (code addr : Nat) :
    s.trapLive iss is code addr
      = is.foldl (fun u i => u.raise iss.crew i (iss.trap code (c.live &&& sliceMask i).toNat addr)) s := by
  rw [State.trapLive, State.crew_of_aget hc]

/-! ### BR, CALL, RET, LPOOL and LDL -/

section
variable {s : State} {iss : Issue} {c : Crew} (hi : s.issue = some iss) (hc : aget s.crews iss.crew = some c)
include hi hc

theorem exec_br (cond : BitVec 4) (f : FmtC) : exec (.br cond f) s = .next (s.taken.setCrew iss.crew
    (c.modEach iss.slices fun i => Slice.branch (targetOf iss f.off) iss.len (brTaken cond c f.p.toNat i))) := by
  change execBr cond f s = _
  rw [execBr, withIssue_of hi]
  rw [State.modCrew_of_aget (s := s.taken) hc, foldl_branch]

theorem exec_call (f : FmtC) : exec (.call f) s = .next (s.taken.setCrew iss.crew
    (c.modSlices iss.slices fun sl => { sl with link := iss.pc + 4, pc := targetOf iss f.off, wait := .none })) := by
  change execCall f s = _
  rw [execCall, withIssue_of hi]
  rw [State.modCrew_of_aget (s := s.taken) hc]

theorem exec_ret (f : FmtA) : exec (.ret f) s = .next (iss.slices.foldl (fun u i =>
    let t := if f.a = 0 then (c.slice i).link else c.sreg f.a.toNat
    if t.toNat % 4 = 0 then u.modCrew iss.crew fun r => r.modSlice i fun sl => { sl with pc := t, wait := .none }
    else u.raise iss.crew i (iss.trap 0x05 ((u.crew iss.crew).live &&& sliceMask i).toNat t.toNat)) s.taken) := by
  change execRet f s = _
  rw [execRet, withIssue_of hi]
  refine congrArg _ (List.foldl_ext _ _ _ fun u i _ => ?_)
  rw [show s.taken.crew iss.crew = c from State.crew_of_aget hc]
  dsimp only
  rw [ite_not]
  rfl

/-- A RET whose targets are aligned sends each slice of the gang to its own. -/
theorem exec_ret_of_aligned {f : FmtA} (h : ∀ i ∈ iss.slices, (if f.a = 0 then (c.slice i).link else c.sreg f.a.toNat).toNat % 4 = 0) :
    exec (.ret f) s = .next (s.taken.setCrew iss.crew (c.modEach iss.slices fun i sl =>
      { sl with pc := if f.a = 0 then (c.slice i).link else c.sreg f.a.toNat, wait := .none })) := by
  rw [exec_ret hi hc]
  refine congrArg _ ((List.foldl_ext _ _ _ fun u i hm => if_pos (h i hm)).trans ?_)
  exact State.foldl_modCrew (s := s.taken) hc iss.slices fun i r => r.modSlice i fun sl =>
    { sl with pc := if f.a = 0 then (c.slice i).link else c.sreg f.a.toNat, wait := .none }

theorem exec_lpool_of_aligned {f : FmtC} (h : (targetOf iss f.off).toNat % 256 = 0) :
    exec (.lpool f) s = .next (s.taken.setCrew iss.crew ({ c with lpb := targetOf iss f.off }.advance iss.slices iss.len)) := by
  change execLpool f s = _
  rw [execLpool, withIssue_of hi]
  rw [if_neg (not_not_intro h), State.modCrew_of_aget (s := s.taken) hc]

theorem exec_lpool_of_misaligned {f : FmtC} (h : (targetOf iss f.off).toNat % 256 ≠ 0) :
    exec (.lpool f) s = .next (iss.slices.foldl (fun u i =>
      u.raise iss.crew i (iss.trap 0x05 (c.live &&& sliceMask i).toNat (targetOf iss f.off).toNat)) s.taken) := by
  change execLpool f s = _
  rw [execLpool, withIssue_of hi]
  rw [if_pos h, State.trapLive_eq (s := s.taken) hc]

theorem exec_ldl_of_misaligned {f : FmtL} (h : (targetOf iss f.off).toNat % (if f.w = 1 then 8 else 4) ≠ 0) :
    exec (.ldl f) s = .next (iss.slices.foldl (fun u i =>
      u.raise iss.crew i (iss.trap 0x05 (c.live &&& sliceMask i).toNat (targetOf iss f.off).toNat)) s.taken) := by
  change execLdl f s = _
  rw [execLdl, withIssue_of hi]
  rw [if_pos h, State.trapLive_eq (s := s.taken) hc]

theorem exec_ldl_of_read {f : FmtL} {s1 : State} {bs : List Byte} (h : (targetOf iss f.off).toNat % (if f.w = 1 then 8 else 4) = 0)
    (hf : s.taken.fetchRead c (targetOf iss f.off).toNat (if f.w = 1 then 8 else 4) = .ok (s1, bs)) :
    exec (.ldl f) s = .next (s1.setCrew iss.crew
      (((c.setSreg f.d.toNat (BitVec.ofNat 64 (leNat bs))).addPend [.uniform f.d.toNat]).advance iss.slices iss.len)) := by
  have hc1 : aget s1.crews iss.crew = some c := (congrArg (aget · iss.crew) (State.crews_fetchRead hf)).trans hc
  change execLdl f s = _
  rw [execLdl, withIssue_of hi]
  rw [if_neg (not_not_intro h), show s.taken.crew iss.crew = c from State.crew_of_aget hc]
  dsimp only
  rw [hf]
  dsimp only
  rw [State.modCrew_of_aget hc1]

end

/-- Settles O24: each instruction by its equation, with the condition of BR read on the active lanes of each slice. -/
theorem branchesSetPcAndLink : Obligations.BranchesSetPcAndLink := by
  unfold Obligations.BranchesSetPcAndLink
  intro target holds
  have htarget (iss : Issue) (off : BitVec 19) : target iss off = targetOf iss off := (targetOf_eq iss off).symm
  have hholds (cond : BitVec 4) (c : Crew) (p i : Nat) : holds cond c (c.pred p) i ↔ brTaken cond c p i = true :=
    (BranchHolds.congr (fun _ => mem_active_filter) _).trans brTaken_iff.symm
  simp only [htarget]
  refine ⟨fun cond f s iss c _ hi hc => ?br, fun f s iss c hi hc => ?call, fun f s iss c hi hc => ⟨fun ht => ?ret, exec_ret hi hc f⟩,
    fun f s iss c hi hc => ⟨fun ht => ?lpool, fun ht => ?lpoolTrap⟩, fun f s iss c hi hc ht => ?ldlTrap,
    fun f s s1 bs iss c hi hc ht hf => ?ldl⟩
  case br =>
    simp only [hholds]
    refine ⟨_, onlyCrew_of (exec_br hi hc cond f), fun i => ?_, fun i => ?_, ?_⟩
    · exact (c.slice_branch iss.slices_nodup _ _ _ i).1
    · exact (c.slice_branch iss.slices_nodup _ _ _ i).2
    · rw [Crew.modEach_eq]
  case call =>
    refine ⟨_, onlyCrew_of (exec_call hi hc f), fun i => c.slice_modSlices _ _ iss.slices_nodup i, ?_⟩
    rw [Crew.modSlices_eq]
  case ret =>
    refine ⟨_, onlyCrew_of (exec_ret_of_aligned hi hc ht), fun i => c.slice_modEach iss.slices_nodup _ i, ?_⟩
    rw [Crew.modEach_eq]
  case lpool =>
    refine ⟨_, onlyCrew_of (exec_lpool_of_aligned hi hc ht), ?_, ?_, ?_⟩ <;> rw [advance_slices]
    exact moved_advSlices c iss.slices_nodup iss.len _ rfl
  case lpoolTrap => exact exec_lpool_of_misaligned hi hc ht
  case ldlTrap => exact exec_ldl_of_misaligned hi hc ht
  case ldl =>
    refine ⟨_, exec_ldl_of_read hi hc ht hf, ?_, fun q hq => ?_, ?_, ?_⟩ <;> rw [advance_slices]
    · exact c.sreg_setSreg_self _ _
    · exact c.sreg_setSreg_of_ne _ hq
    · exact moved_advSlices c iss.slices_nodup iss.len _ rfl
    · rfl

end Sys2Proof.Machine
end

section
/-! SUPPORT. The family Slices: how a slice commits its lanes, and the slices of a gang that raise an enabled flag, which trap FPE with
nothing written (03 R72; 05 R113, R115). -/

namespace Sys2Proof.Machine

/-! ### What a commit of some slices leaves behind -/

/-- A vector destination holds in its lanes what the writes of those lanes put there. -/
theorem Crew.vecWritten_of_vregs {c c' : Crew} {o : VOp} {ws : Nat → List Word} {is : List Nat} (hn : is.Nodup)
    (h : c'.vregs = (c.activeIn is).foldl (fun v l => vputV c o l (ws l) v) c.vregs) : c.VecWritten c' (c.activeIn is) o ws := by
  obtain ⟨hkept, hput⟩ := sget_lanes c o ws _ (activeIn_nodup c hn) c.vregs fun l hl => active_lt (mem_activeIn.mp hl).2
  unfold Crew.VecWritten Crew.vreg
  rw [h]
  exact ⟨hput, hkept⟩

theorem Crew.offsetsMoved_of_xofs {c c' : Crew} {ops : List VOp} {is : List Nat} (hn : is.Nodup)
    (h : c'.xofs = advanceAll c ops is c.xofs) : c.OffsetsMoved c' (c.activeIn is) ops := by
  intro x l hx hl
  have := offsets_advanceAll c ops is hn c.xofs x l hl
  simp only [Crew.ofs, Crew.xreg, h, this, mem_postRegs, hx, true_and]
  exact if_congr (by tauto) rfl rfl

/-- What the slices of a list leave that commit to a vector destination. -/
theorem Crew.committed_vec (c : Crew) (o : VOp) (ops : List VOp) (body : Nat → LaneOut) (len : Nat) {is : List Nat} (hn : is.Nodup) :
    ∃ c', is.foldl (fun r i => (sliceCommit c (some o) none ops i (laneOuts c body i) r).advance [i] len) c = c'
      ∧ c.VecWritten c' (c.activeIn is) o (fun l => (body l).regs) ∧ c'.flags = c.flags ||| raised (c.activeIn is) (fun l => (body l).fl)
      ∧ c.OffsetsMoved c' (c.activeIn is) ops ∧ c.Moved c' is len ∧ c.SameButVec c' :=
  ⟨_, commit_vec c o ops body len is c rfl, Crew.vecWritten_of_vregs hn rfl, rfl, Crew.offsetsMoved_of_xofs hn rfl,
    moved_advSlices c hn len _ rfl, rfl⟩

/-- What the slices of a list leave that commit to a destination predicate. -/
theorem Crew.committed_pred (c : Crew) (n : Nat) (ops : List VOp) (body : Nat → LaneOut) (len : Nat) {is : List Nat} (hn : is.Nodup) :
    ∃ c', is.foldl (fun r i => (sliceCommit c none (some n) ops i (laneOuts c body i) r).advance [i] len) c = c'
      ∧ (∀ l, l < 32 → l / 4 ∈ is → mbit (c'.pred n) l =
          (c.active l && (body l).bit && (n != 16 || (mbit c.live l && !mbit c.off l))))
      ∧ (∀ l, l < 32 → l / 4 ∉ is → (n = 16 → mbit c.live l = true ∧ mbit c.off l = false) →
          mbit (c'.pred n) l = mbit (c.pred n) l)
      ∧ (∀ q, q ≤ 16 → q ≠ n → c'.pred q = c.pred q)
      ∧ c'.flags = c.flags ||| raised (c.activeIn is) (fun l => (body l).fl)
      ∧ c.OffsetsMoved c' (c.activeIn is) ops ∧ c.Moved c' is len ∧ c.SameButPred c' := by
  refine ⟨_, commit_pred c n ops body len is c rfl, fun l hl hin => ?_, fun l hl hin hg => ?_,
    fun q _ hq => pred_predsAll_of_ne c body is c hq, rfl, Crew.offsetsMoved_of_xofs hn rfl, moved_advSlices c hn len _ rfl, ?_⟩
  · exact (mbit_predsAll c n body is c l hl).trans (if_pos hin)
  · refine ((mbit_predsAll c n body is c l hl).trans (if_neg hin)).trans ?_
    by_cases h16 : n = 16
    · obtain ⟨hlive, hoff⟩ := hg h16
      simp [hlive, hoff]
    · simp [h16]
  · rw [Crew.SameButPred, predsAll_live]

/-! ### The mask of the lanes in TRAPINFO (05 R115) -/

/-- A sum of powers of two, one for each lane of a rising list that a test admits, has the bits of those lanes. -/
theorem testBit_foldl_add_two_pow (p : Nat → Bool) {ls : List Nat} (hls : ls.Pairwise (· < ·)) :
    ∀ m, (∀ l ∈ ls, m < 2 ^ l) → ∀ j,
      (ls.foldl (fun m l => if p l then m + 2 ^ l else m) m).testBit j = (m.testBit j || decide (j ∈ ls) && p j) := by
  induction ls with
  | nil => simp
  | cons l ls ih =>
    intro m hm j
    obtain ⟨hl, hls⟩ := List.pairwise_cons.mp hls
    have hml : m < 2 ^ l := hm l (by simp)
    rw [List.foldl_cons]
    by_cases hp : p l
    · have hnext : ∀ k ∈ ls, m + 2 ^ l < 2 ^ k := fun k hk => by
        have := Nat.pow_le_pow_right (n := 2) (by omega) (Nat.succ_le_of_lt (hl k hk))
        rw [Nat.pow_succ] at this
        omega
      have hor : m + 2 ^ l = 2 ^ l ||| m := by simpa [Nat.add_comm] using Nat.two_pow_add_eq_or_of_lt hml 1
      rw [if_pos hp, ih hls _ hnext, hor, Nat.testBit_or, Nat.testBit_two_pow]
      by_cases hj : j = l
      · subst hj
        simp [hp]
      · simp [hj, Ne.symm hj]
    · rw [if_neg hp, ih hls m fun k hk => hm k (List.mem_cons_of_mem _ hk)]
      by_cases hj : j = l
      · subst hj
        simp [hp]
      · simp [hj]

theorem sliceLanes_pairwise (i : Nat) : (sliceLanes i).Pairwise (· < ·) := by
  simp [sliceLanes]

/-- The mask of a slice's lanes that raise an enabled flag, as the trap sums it. -/
theorem Crew.sum_flagged (c : Crew) (body : Nat → LaneOut) (i : Nat) :
    (laneOuts c body i).foldl (fun m o => if o.2.fl &&& c.ten ≠ 0 then m + 2 ^ o.1 else m) 0
      = (maskOf 32 32 fun l => decide (l ∈ c.activeOf i) && (body l).fl &&& c.ten != 0).toNat := by
  rw [laneOuts, List.foldl_map]
  refine Nat.eq_of_testBit_eq fun j => ?_
  have hsum := testBit_foldl_add_two_pow (fun l => (body l).fl &&& c.ten != 0) ((sliceLanes_pairwise i).filter c.active) 0
    (fun l _ => Nat.two_pow_pos l) j
  simp only [bne_iff_ne] at hsum
  refine hsum.trans ?_
  rw [BitVec.testBit_toNat, Nat.zero_testBit, Bool.false_or]
  by_cases hj : j < 32
  · refine Eq.trans ?_ (mbit_maskOf 32 32 _ j hj).symm
    simp [hj, Crew.activeOf]
  · have hnot : j ∉ c.activeOf i := fun h => hj (active_lt (mem_activeOf.mp h).2)
    rw [BitVec.getLsbD_of_ge _ _ (by omega)]
    exact (congrArg (· && _) (decide_eq_false hnot)).trans (Bool.false_and _)

/-! ### A vector instruction whose slices may trap (03 R72; 05 R115) -/

/-- A slice whose names pass traps FPE exactly where a lane of its raises an enabled flag. -/
theorem sliceRun_of_names {c : Crew} {ops : List VOp} {body : Nat → LaneOut} {i : Nat} (hn : c.nameFault i ops = none) :
    sliceRun c ops body i = if c.flagged (fun l => (body l).fl) i then .trap 0x12 (c.fpeInfo (fun l => (body l).fl) i)
      else .ok (laneOuts c body i) := by
  have hfl : (laneOuts c body i).foldl (fun f o => f ||| o.2.fl) 0 = raised (c.activeOf i) fun l => (body l).fl := by
    rw [laneOuts, List.foldl_map]
    rfl
  have hflagged : c.flagged (fun l => (body l).fl) i = true ↔ raised (c.activeOf i) (fun l => (body l).fl) &&& c.ten ≠ 0 := by
    rw [ne_eq, raised_quiet]
    simp [Crew.flagged]
  unfold sliceRun
  rw [hn]
  dsimp only
  rw [← laneOuts, hfl, Crew.sum_flagged]
  exact if_congr hflagged.symm rfl rfl

/-- The slices without a flagged lane commit, and then the others trap. -/
theorem vecInstr_of_names {s : State} {iss : Issue} {c : Crew} (h : aget s.crews iss.crew = some c) (d : Option VOp) (p : Option Nat)
    (ops : List VOp) (body : Crew → Nat → LaneOut) (hn : c.NamesOk iss ops) :
    vecInstr s iss d p ops body = (s.setCrew iss.crew ((c.quiet iss fun l => (body c l).fl).foldl
      (fun r i => (sliceCommit c d p ops i (laneOuts c (body c) i) r).advance [i] iss.len) c)).raiseFlagged iss c
        fun l => (body c l).fl := by
  have hruns : (iss.slices.map fun i => (i, sliceRun c ops (body c) i)) = iss.slices.map fun i =>
      (i, if c.flagged (fun l => (body c l).fl) i then SliceOut.trap 0x12 (c.fpeInfo (fun l => (body c l).fl) i)
        else .ok (laneOuts c (body c) i)) :=
    List.map_congr_left fun i hi => by rw [sliceRun_of_names (hn i hi)]
  unfold vecInstr
  simp only [State.crew_of_aget h, hruns, List.foldl_map]
  unfold State.raiseFlagged Crew.quiet
  rw [List.foldl_filter, List.foldl_filter]
  refine (List.foldl_ext _ _ _ fun u i _ => ?_).trans (congrArg (fun x => List.foldl _ (State.setCrew s iss.crew x) _)
    (List.foldl_ext _ _ c fun r i _ => ?_))
  · cases c.flagged (fun l => (body c l).fl) i <;> rfl
  · cases c.flagged (fun l => (body c l).fl) i <;> rfl

/-! ### The instructions (05 R113, R115) -/

section
variable {i : Instr} {s s1 : State} {iss : Issue} {c : Crew} (hc : aget s1.crews iss.crew = some c)
include hc

theorem trapsVec_of_vecInstr {o : VOp} {ops : List VOp} {body : Crew → Nat → LaneOut}
    (h : exec i s = .next (vecInstr s1 iss (some o) none ops body)) (hn : c.NamesOk iss ops) :
    TrapsVec i s s1 iss c o ops (fun l => (body c l).regs) fun l => (body c l).fl := by
  obtain ⟨c', hc', hwritten⟩ := c.committed_vec o ops (body c) iss.len (is := c.quiet iss fun l => (body c l).fl)
    (iss.slices_nodup.filter _)
  exact ⟨c', by rw [h, vecInstr_of_names hc _ _ _ _ hn, hc'], hwritten⟩

theorem trapsPred_of_vecInstr {n : Nat} {ops : List VOp} {body : Crew → Nat → LaneOut}
    (h : exec i s = .next (vecInstr s1 iss none (some n) ops body)) (hn : c.NamesOk iss ops) :
    TrapsPred i s s1 iss c n ops (fun l => (body c l).bit) fun l => (body c l).fl := by
  obtain ⟨c', hc', hwritten⟩ := c.committed_pred n ops (body c) iss.len (is := c.quiet iss fun l => (body c l).fl)
    (iss.slices_nodup.filter _)
  exact ⟨c', by rw [h, vecInstr_of_names hc _ _ _ _ hn, hc'], hwritten⟩

/-- A uniform instruction that raises an enabled flag writes nothing and traps the whole gang. -/
theorem raiseAll_of_uniInstr {body : Crew → Crew × BitVec 5} (h : exec i s = .next (uniInstr s1 iss body))
    (hfl : (body c).2 &&& c.ten ≠ 0) : exec i s = .next (s1.raiseAll iss.crew iss.slices
      (iss.trap 0x12 ((body c).2.toNat + (c.live &&& slicesMask iss.slices).toNat * 2 ^ 5) 0)) := by
  rw [h, uniInstr, State.crew_of_aget hc]
  exact congrArg _ (if_pos hfl)

end

section
variable {s s1 : State} {iss : Issue} {f : FmtA} {kc : Option Konst} (hk : s.ReadsConst iss f.k f.b s1 kc)
include hk

/-- A format A instruction with source A in a vector form. -/
theorem aluInstr_of_vec (td ts : Ty) (useB : Bool) (third : Option (BitVec 7 × Nat)) (fn : Nat → Nat → Nat → FRes) (hcl : f.cl ≠ 3) :
    aluInstr s.taken iss f td ts true useB third fn = vecInstr s1 iss (some (destOp f td)) none
      ([destOp f td] ++ vopsOf [sourceA f true ts, sourceB f useB ts kc, sourceC f third ts])
      fun c l => outNat td.regs
        (fn ((sourceA f true ts).read c ts l) ((sourceB f useB ts kc).read c ts l) ((sourceC f third ts).read c ts l)) := by
  have hv : dVec f.cl = true := by simpa [dVec] using hcl
  rw [aluInstr, withKonst_of hk]
  exact if_pos hv

/-- A format A instruction with source A in its uniform form. -/
theorem aluInstr_of_uni (td ts : Ty) (useB : Bool) (third : Option (BitVec 7 × Nat)) (fn : Nat → Nat → Nat → FRes) (hcl : f.cl = 3) :
    aluInstr s.taken iss f td ts true useB third fn = uniInstr s1 iss fun c =>
      let r := fn ((sourceA f true ts).read c ts 0) ((sourceB f useB ts kc).read c ts 0) ((sourceC f third ts).read c ts 0)
      (c.setSreg f.d.toNat (BitVec.ofNat 64 (r.code % 2 ^ td.width)), r.fl) := by
  have hv : ¬dVec f.cl = true := by simp [dVec, hcl]
  rw [aluInstr, withKonst_of hk]
  exact if_neg hv

/-- A comparison in a vector form. -/
theorem cmpInstr_of_vec (t : Ty) (fn : Nat → Nat → Bool × BitVec 5) (hcl : f.cl ≠ 3) :
    cmpInstr s.taken iss f t fn = vecInstr s1 iss none (some f.d.toNat) (vopsOf [sourceA f true t, sourceB f true t kc]) fun c l =>
      let r := fn ((sourceA f true t).read c t l) ((sourceB f true t kc).read c t l)
      { bit := r.1, fl := r.2 } := by
  rw [cmpInstr, withKonst_of hk]
  exact if_neg hcl

/-- A comparison of uniform operands. -/
theorem cmpInstr_of_uni (t : Ty) (fn : Nat → Nat → Bool × BitVec 5) (hcl : f.cl = 3) :
    cmpInstr s.taken iss f t fn = uniInstr s1 iss fun c =>
      let r := fn ((sourceA f true t).read c t 0) ((sourceB f true t kc).read c t 0)
      (c.setPred f.d.toNat (slicesMask iss.slices) (if r.1 then c.exec &&& slicesMask iss.slices else 0), r.2) := by
  rw [cmpInstr, withKonst_of hk]
  exact if_pos hcl

variable {i : Instr} {c : Crew} (hc : aget s1.crews iss.crew = some c)
include hc

/-- An instruction whose meaning is `aluInstr`, with source A. -/
theorem aluInstr_traps {td ts : Ty} {useB : Bool} {third : Option (BitVec 7 × Nat)} {fn : Nat → Nat → Nat → FRes}
    (h : exec i s = .next (aluInstr s.taken iss f td ts true useB third fn)) :
    let res (l : Nat) : FRes :=
      fn ((sourceA f true ts).read c ts l) ((sourceB f useB ts kc).read c ts l) ((sourceC f third ts).read c ts l)
    let ops := [destOp f td] ++ vopsOf [sourceA f true ts, sourceB f useB ts kc, sourceC f third ts]
    (f.cl = 3 → (res 0).fl &&& c.ten ≠ 0 → exec i s = .next (s1.raiseAll iss.crew iss.slices
        (iss.trap 0x12 ((res 0).fl.toNat + (c.live &&& slicesMask iss.slices).toNat * 2 ^ 5) 0)))
      ∧ (f.cl ≠ 3 → c.NamesOk iss ops →
          TrapsVec i s s1 iss c (destOp f td) ops (fun l => wordsOf (res l).code td.regs) fun l => (res l).fl) := by
  refine ⟨fun hcl => ?_, fun hcl => ?_⟩
  · have := raiseAll_of_uniInstr hc (h.trans (congrArg _ (aluInstr_of_uni hk td ts useB third fn hcl)))
    exact this
  · have := trapsVec_of_vecInstr hc (h.trans (congrArg _ (aluInstr_of_vec hk td ts useB third fn hcl)))
    exact this

/-- An instruction whose meaning is `cmpInstr`. -/
theorem cmpInstr_traps {t : Ty} {fn : Nat → Nat → Bool × BitVec 5} (h : exec i s = .next (cmpInstr s.taken iss f t fn)) :
    let res (l : Nat) : Bool × BitVec 5 := fn ((sourceA f true t).read c t l) ((sourceB f true t kc).read c t l)
    let ops := vopsOf [sourceA f true t, sourceB f true t kc]
    (f.cl = 3 → (res 0).2 &&& c.ten ≠ 0 → exec i s = .next (s1.raiseAll iss.crew iss.slices
        (iss.trap 0x12 ((res 0).2.toNat + (c.live &&& slicesMask iss.slices).toNat * 2 ^ 5) 0)))
      ∧ (f.cl ≠ 3 → c.NamesOk iss ops → TrapsPred i s s1 iss c f.d.toNat ops (fun l => (res l).1) fun l => (res l).2) := by
  refine ⟨fun hcl => ?_, fun hcl => ?_⟩
  · have := raiseAll_of_uniInstr hc (h.trans (congrArg _ (cmpInstr_of_uni hk t fn hcl)))
    exact this
  · have := trapsPred_of_vecInstr hc (h.trans (congrArg _ (cmpInstr_of_vec hk t fn hcl)))
    exact this

end

/-- What a special function answers in an active lane of a crew, of which the next 32 free values start at `base`. -/
def fspRes (f : FmtA) (e : FVal → Option FRes) (base : Nat) (c : Crew) (l : Nat) : FRes :=
  (e (Fmt.f32.value (flipIf .f32 f.p.na (c.vnat { pos := 1, field := f.a.toNat, n := 1 } l)))).getD
    { code := (Config.freeValue (base + l)).toNat % 2 ^ 32, fl := 1 }

/-- A special function: the next 32 free values are set aside, and a lane takes its own where the bounds do not decide the
rounding (22 R358; log 11). -/
theorem fsp_traps {i : Instr} {f : FmtA} {s : State} {iss : Issue} {c : Crew} {e : FVal → Option FRes} (h : exec i s = fsp f s e)
    (hi : s.issue = some iss) (hc : aget s.crews iss.crew = some c) :
    let d : VOp := { pos := 0, field := f.d.toNat, n := 1 }
    let a : VOp := { pos := 1, field := f.a.toNat, n := 1 }
    c.NamesOk iss [d, a] → TrapsVec i s { s.taken with free := s.free + 32 } iss c d [d, a]
      (fun l => wordsOf (fspRes f e s.free c l).code 1) fun l => (fspRes f e s.free c l).fl :=
  trapsVec_of_vecInstr (s1 := { s.taken with free := s.free + 32 }) (body := fun c l => outNat 1 (fspRes f e s.free c l)) hc
    (h.trans (withIssue_of hi _))

/-- Settles O22: each form by the lemma on its shape, vector, uniform or comparison. -/
theorem flagTrap : Obligations.FlagTrap := by
  unfold Obligations.FlagTrap
  intro uniform traps special v pos wave
  have halu {mk td ts useB third fn} (h : ∀ f s, exec (mk f) s
      = withIssue s fun s iss => aluInstr s iss f (td f) (ts f) true useB (third f) (fn f)) : traps mk td ts useB third fn := by
    intro f s s1 iss c kc hi hk hc
    exact aluInstr_traps hk hc ((h f s).trans (withIssue_of hi _))
  have hfsp {mk : FmtA → Instr} {fn : FmtA → FVal → Option FRes} (h : ∀ f s, exec (mk f) s = fsp f s (fn f)) : special mk fn := by
    intro f s iss c hi hc
    have := fsp_traps (h f s) hi hc
    exact this
  clear_value traps special
  refine ⟨halu fun _ _ => rfl, halu fun _ _ => rfl, halu fun _ _ => rfl, halu fun _ _ => rfl, halu fun _ _ => rfl,
    fun cond f s s1 iss c kc hi hk hc _ => ?fcmp, hfsp fun _ _ => rfl, hfsp fun _ _ => rfl, hfsp fun _ _ => rfl,
    hfsp fun f s => ?exp2, hfsp fun f s => ?log2, hfsp fun f s => ?sinpi, hfsp fun f s => ?cospi,
    fun f s iss c hi hc => ⟨?qpack, ?qunpk⟩⟩
  case fcmp =>
    have hexec : execFcmp cond f s = _ := withIssue_of hi _
    have := cmpInstr_traps (i := .fcmp cond f) hk hc hexec
    exact this
  case exp2 =>
    change execFexp2 f s = _
    rw [execFexp2]
    exact congrArg (fsp f s) (funext fun x => by rcases x with _ | (_ | _) | _ <;> rfl)
  case log2 =>
    change execFlog2 f s = _
    rw [execFlog2]
    exact congrArg (fsp f s) (funext fun x => by rcases x with _ | (_ | _) | _ <;> rfl)
  case sinpi =>
    change execFsinpi f s = _
    rw [execFsinpi]
    exact congrArg (fsp f s) (funext fun x => by rcases x with _ | (_ | _) | _ <;> rfl)
  case cospi =>
    change execFcospi f s = _
    rw [execFcospi]
    exact congrArg (fsp f s) (funext fun x => by rcases x with _ | (_ | _) | _ <;> rfl)
  case qpack =>
    have hexec : execQpack f s = _ := withIssue_of hi _
    have := trapsVec_of_vecInstr (i := .qpack f) (s1 := s.taken) hc hexec
    exact this
  case qunpk =>
    have hexec : execQunpk f s = _ := withIssue_of hi _
    have := trapsVec_of_vecInstr (i := .qunpk f) (s1 := s.taken) hc hexec
    exact this

end Sys2Proof.Machine
end

section
/-! SUPPORT. The family Slices: records of rendezvous and who has arrived in them, the exit of lanes, and the records that have ended
(03 R62 to R68). -/

namespace Sys2Proof.Machine

/-! ### Arrivals -/

/-- The record once slice `i` has arrived in it, where a test admits its number. -/
def RdvRec.mark (hit : Nat → Bool) (i : Nat) (r : RdvRec) : RdvRec := if hit r.id then { r with arr := mset r.arr i true } else r

/-- The record once the slices of a list have arrived, each where its own test admits the record's number. -/
def RdvRec.markAll (hit : Nat → Nat → Bool) (is : List Nat) (r : RdvRec) : RdvRec := is.foldl (fun r i => r.mark (hit i) i) r

@[simp] theorem RdvRec.id_mark (hit : Nat → Bool) (i : Nat) (r : RdvRec) : (r.mark hit i).id = r.id := by
  unfold RdvRec.mark
  split <;> rfl

@[simp] theorem RdvRec.smask_mark (hit : Nat → Bool) (i : Nat) (r : RdvRec) : (r.mark hit i).smask = r.smask := by
  unfold RdvRec.mark
  split <;> rfl

theorem mbit_mset_true {w : Nat} (m : BitVec w) {i : Nat} (hi : i < w) (j : Nat) : mbit (mset m i true) j = (mbit m j || decide (j = i)) := by
  simp only [mbit, mset, if_true, BitVec.getLsbD_or, BitVec.getLsbD_ofNat, Nat.testBit_two_pow]
  by_cases h : j = i
  · simp [h, hi]
  · simp [h, Ne.symm h]

theorem RdvRec.mbit_mark (hit : Nat → Bool) {i : Nat} (hi : i < 8) (r : RdvRec) (j : Nat) :
    mbit (r.mark hit i).arr j = (mbit r.arr j || decide (j = i) && hit r.id) := by
  unfold RdvRec.mark
  split <;> rename_i h
  · rw [mbit_mset_true _ hi, h, Bool.and_true]
  · simp [h]

section
variable (hit : Nat → Nat → Bool) (is : List Nat) (r : RdvRec)

@[simp] theorem RdvRec.id_markAll : (r.markAll hit is).id = r.id := by
  unfold RdvRec.markAll
  induction is generalizing r with
  | nil => rfl
  | cons i is ih => rw [List.foldl_cons, ih, RdvRec.id_mark]

@[simp] theorem RdvRec.smask_markAll : (r.markAll hit is).smask = r.smask := by
  unfold RdvRec.markAll
  induction is generalizing r with
  | nil => rfl
  | cons i is ih => rw [List.foldl_cons, ih, RdvRec.smask_mark]

theorem RdvRec.markAll_append (js : List Nat) : r.markAll hit (is ++ js) = (r.markAll hit is).markAll hit js := List.foldl_append

variable {is}

theorem RdvRec.mbit_markAll (his : ∀ i ∈ is, i < 8) (j : Nat) :
    mbit (r.markAll hit is).arr j = (mbit r.arr j || decide (j ∈ is) && hit j r.id) := by
  unfold RdvRec.markAll
  induction is generalizing r with
  | nil => simp
  | cons i is ih =>
    rw [List.foldl_cons, ih _ fun k hk => his k (List.mem_cons_of_mem _ hk), RdvRec.mbit_mark _ (his i (by simp)), RdvRec.id_mark]
    by_cases h : j = i
    · subst h
      cases mbit r.arr j <;> cases hit j r.id <;> simp
    · simp [h]

end

theorem Crew.modEach_withRdv (c : Crew) (is : List Nat) (f : Nat → Slice → Slice) (x y : List RdvRec) :
    { ({ c with rdv := x } : Crew).modEach is f with rdv := y } = { c.modEach is f with rdv := y } := by
  unfold Crew.modEach
  induction is generalizing c with
  | nil => rfl
  | cons i is ih => exact ih (c.modSlice i (f i))

/-- Slices that arrive and move one after another: each leaves its marks and changes itself alone. -/
theorem foldl_arrive {c : Crew} {step : Crew → Nat → Crew} {hit : Nat → Nat → Bool} {f : Nat → Slice → Slice}
    (hstep : ∀ (r : Crew) (i : Nat) (done : List Nat), i ∉ done → (∀ j ∈ done, j < 8) → r.rdv = c.rdv.map (RdvRec.markAll hit done) →
      step r i = { r.modSlice i (f i) with rdv := r.rdv.map (RdvRec.mark (hit i) i) })
    {is : List Nat} (hn : is.Nodup) (his : ∀ i ∈ is, i < 8) :
    is.foldl step c = { c.modEach is f with rdv := c.rdv.map (RdvRec.markAll hit is) } := by
  suffices h : ∀ (is done : List Nat) (r : Crew), (done ++ is).Nodup → (∀ i ∈ done ++ is, i < 8) →
      r.rdv = c.rdv.map (RdvRec.markAll hit done) →
      is.foldl step r = { r.modEach is f with rdv := c.rdv.map (RdvRec.markAll hit (done ++ is)) } from
    h is [] c hn his (List.map_id' _).symm
  intro is
  induction is with
  | nil =>
    intro done r _ _ hr
    rw [List.append_nil, ← hr]
    rfl
  | cons i is ih =>
    intro done r hn his hr
    have hsplit : done ++ i :: is = (done ++ [i]) ++ is := by simp
    have hi : i ∉ done := fun h => (List.nodup_append.mp hn).2.2 i h i (by simp) rfl
    have hnext : (r.rdv.map (RdvRec.mark (hit i) i)) = c.rdv.map (RdvRec.markAll hit (done ++ [i])) := by
      rw [hr, List.map_map]
      exact List.map_congr_left fun x _ => (RdvRec.markAll_append hit done x [i]).symm
    rw [List.foldl_cons, hstep r i done hi (fun j hj => his j (by simp [hj])) hr, hsplit, hnext,
      ih _ _ (hsplit ▸ hn) (hsplit ▸ his) rfl]
    exact Crew.modEach_withRdv (r.modSlice i (f i)) is f _ _

/-- The records after a gang's arrivals: the same ones, each with the marks of the slices that have arrived in it. -/
theorem Crew.marked_records (c : Crew) (hit : Nat → Nat → Bool) {is : List Nat} (his : ∀ i ∈ is, i < 8) :
    (c.rdv.map (RdvRec.markAll hit is)).length = c.rdv.length ∧ ∀ (n : Nat) (r : RdvRec), c.rdv[n]? = some r →
      ∃ r', (c.rdv.map (RdvRec.markAll hit is))[n]? = some r' ∧ r'.id = r.id ∧ r'.smask = r.smask
        ∧ ∀ i, i < 8 → (mbit r'.arr i = true ↔ mbit r.arr i = true ∨ i ∈ is ∧ hit i r.id = true) := by
  refine ⟨List.length_map _, fun n r hr => ⟨r.markAll hit is, ?_, r.id_markAll hit is, r.smask_markAll hit is, fun i _ => ?_⟩⟩
  · rw [List.getElem?_map, hr]
    rfl
  · rw [RdvRec.mbit_markAll hit r his]
    simp

/-! ### REGANG (03 R66) -/

/-- The number of the innermost open record of a slice, if it has one. -/
def Crew.openId (c : Crew) (i : Nat) : Option Nat := (openRecord c i).map (·.id)

theorem openRecord_eq (c : Crew) (i : Nat) : openRecord c i = (c.rdv.filter fun r => mbit r.smask i && !mbit r.arr i).getLast? := by
  rw [openRecord, List.getLast?_eq_head?_reverse, ← List.filter_reverse, List.head?_filter]

/-- What REGANG makes of a slice: it waits in its innermost open record, or goes on. -/
def Slice.regang (len : Nat) (o : Option Nat) (sl : Slice) : Slice :=
  match o with
  | none => { sl with pc := sl.pc + BitVec.ofNat 64 len, wait := .none }
  | some id => { sl with wait := .regang id }

/-- REGANG in one slice. -/
def Crew.arrive (len : Nat) (c : Crew) (i : Nat) : Crew :=
  match openRecord c i with
  | none => c.advance [i] len
  | some r => (markArrived c i r.id).modSlice i fun sl => { sl with wait := .regang r.id }

/-- The marks of other slices leave a slice's innermost open record what it was. -/
theorem openId_of_marked {c r : Crew} {hit : Nat → Nat → Bool} {done : List Nat} {i : Nat} (hi : i ∉ done) (hdone : ∀ j ∈ done, j < 8)
    (hr : r.rdv = c.rdv.map (RdvRec.markAll hit done)) : r.openId i = c.openId i := by
  have hsame (x : RdvRec) : (mbit (x.markAll hit done).smask i && !mbit (x.markAll hit done).arr i)
      = (mbit x.smask i && !mbit x.arr i) := by
    rw [RdvRec.smask_markAll, RdvRec.mbit_markAll hit x hdone, decide_eq_false hi, Bool.false_and, Bool.or_false]
  unfold Crew.openId openRecord
  rw [hr, ← List.map_reverse, List.find?_map, Option.map_map]
  simp only [Function.comp_def, hsame, RdvRec.id_markAll]

theorem Crew.arrive_eq (len : Nat) (c : Crew) (i : Nat) : c.arrive len i
    = { c.modSlice i (Slice.regang len (c.openId i)) with rdv := c.rdv.map (RdvRec.mark (fun id => c.openId i == some id) i) } := by
  unfold Crew.arrive Crew.openId
  cases openRecord c i with
  | none =>
    have hmark : RdvRec.mark (fun id => (none : Option Nat) == some id) i = id := funext fun r => by simp [RdvRec.mark]
    simp only [Option.map_none, hmark, List.map_id_fun, id_eq]
    rfl
  | some r =>
    have hmark : RdvRec.mark (fun id => some r.id == some id) i
        = fun x => if x.id = r.id then { x with arr := mset x.arr i true } else x := funext fun x =>
      if_congr (by rw [beq_iff_eq, Option.some_inj, eq_comm]) rfl rfl
    simp only [Option.map_some, hmark]
    rfl

/-- REGANG in a gang: every slice by the records as they stood. -/
theorem foldl_arrive_regang (c : Crew) (len : Nat) {is : List Nat} (hn : is.Nodup) (his : ∀ i ∈ is, i < 8) :
    is.foldl (Crew.arrive len) c = { c.modEach is fun i => Slice.regang len (c.openId i) with
      rdv := c.rdv.map (RdvRec.markAll (fun i id => c.openId i == some id) is) } := by
  refine foldl_arrive (fun r i done hi hdone hr => ?_) hn his
  rw [Crew.arrive_eq, openId_of_marked hi hdone hr]

/-! ### LEAVE (03 R67) -/

/-- The numbers of the records that contain a slice, from the given depth up. -/
def Crew.leaveIds (depth : Nat) (c : Crew) (i : Nat) : List Nat := ((c.rdv.filter fun r => mbit r.smask i).drop depth).map (·.id)

theorem leaveIds_of_marked {c r : Crew} {hit : Nat → Nat → Bool} {done : List Nat} {depth i : Nat}
    (hr : r.rdv = c.rdv.map (RdvRec.markAll hit done)) : r.leaveIds depth i = c.leaveIds depth i := by
  unfold Crew.leaveIds
  rw [hr, List.filter_map, ← List.map_drop, List.map_map]
  simp only [Function.comp_def, RdvRec.smask_markAll, RdvRec.id_markAll]

theorem RdvRec.mark_mark (g h : Nat → Bool) (i : Nat) (r : RdvRec) : (r.mark g i).mark h i = r.mark (fun id => g id || h id) i := by
  have htwice : mset (mset r.arr i true) i true = mset r.arr i true := by simp [mset, BitVec.or_assoc]
  unfold RdvRec.mark
  by_cases hg : g r.id
  · by_cases hh : h r.id <;> simp [hg, hh, htwice]
  · simp [hg]

/-- A slice that is marked in several records in turn. -/
theorem foldl_markArrived (c : Crew) (i : Nat) (l : List RdvRec) :
    l.foldl (fun c r => markArrived c i r.id) c = { c with rdv := c.rdv.map (RdvRec.mark ((l.map (·.id)).contains ·) i) } := by
  have hone (c : Crew) (x : RdvRec) : markArrived c i x.id = { c with rdv := c.rdv.map (RdvRec.mark (· == x.id) i) } := by
    have hmark : RdvRec.mark (· == x.id) i = fun r => if r.id = x.id then { r with arr := mset r.arr i true } else r :=
      funext fun r => if_congr beq_iff_eq rfl rfl
    rw [hmark, markArrived]
  induction l generalizing c with
  | nil =>
    have hmark : RdvRec.mark (([] : List RdvRec).map (·.id) |>.contains ·) i = id := funext fun r => by simp [RdvRec.mark]
    simp only [hmark, List.map_id_fun, id_eq, List.foldl_nil]
  | cons x l ih =>
    rw [List.foldl_cons, ih, hone]
    simp only [List.map_map, Function.comp_def, RdvRec.mark_mark, List.map_cons, List.contains_cons]

/-- LEAVE in one slice. -/
def Crew.leave (depth : Nat) (t : DWord) (c : Crew) (i : Nat) : Crew :=
  let marks := (c.rdv.filter fun r => mbit r.smask i).drop depth
  (marks.foldl (fun c r => markArrived c i r.id) c).modSlice i fun sl => { sl with pc := t, wait := .none }

/-- LEAVE in a gang: every slice by the records as they stood. -/
theorem foldl_leave (c : Crew) (depth : Nat) (t : DWord) {is : List Nat} (hn : is.Nodup) (his : ∀ i ∈ is, i < 8) :
    is.foldl (Crew.leave depth t) c = { c.modEach is fun _ sl => { sl with pc := t, wait := .none } with
      rdv := c.rdv.map (RdvRec.markAll (fun i id => (c.leaveIds depth i).contains id) is) } := by
  refine foldl_arrive (fun r i done _ _ hr => ?_) hn his
  rw [Crew.leave, foldl_markArrived, ← leaveIds_of_marked (depth := depth) hr]
  rfl

/-! ### EXIT (03 R68; 22 R354) -/

theorem mbit_and_not (a b : BitVec 32) {l : Nat} (hl : l < 32) : mbit (a &&& ~~~b) l = (mbit a l && !mbit b l) := by
  simp [mbit, hl]

/-- The active lanes of some slices. -/
theorem mbit_exec_slices (c : Crew) (is : List Nat) {l : Nat} (hl : l < 32) :
    mbit (c.exec &&& slicesMask is) l = (decide (l / 4 ∈ is) && mbit c.exec l) := by
  have := mbit_slicesMask is l hl
  rw [List.contains_eq_mem] at this
  rw [← this, mbit, BitVec.getLsbD_and, Bool.and_comm]
  rfl

/-- The crew once the active lanes of some slices have exited. -/
def Crew.exitGone (c : Crew) (is : List Nat) : Crew :=
  { c with live := c.live &&& ~~~(c.exec &&& slicesMask is), exec := c.exec &&& ~~~(c.exec &&& slicesMask is) }

/-- What EXIT makes of a slice with a live lane left. -/
def Slice.afterExit (len : Nat) (sl : Slice) : Slice :=
  { sl with pc := sl.pc + BitVec.ofNat 64 len, wait := match sl.wait with | .reply g => .reply g | _ => .none }

/-- The crew after an EXIT of a gang. -/
def Crew.exited (c : Crew) (is : List Nat) (len : Nat) : Crew := endDeadHandler (exitLanes c is len)

theorem exitLanes_eq (c : Crew) (is : List Nat) (len : Nat) :
    exitLanes c is len = (c.exitGone is).modSlices (is.filter (c.exitGone is).sliceLive) (Slice.afterExit len) := rfl

theorem endDeadHandler_eq (c : Crew) : endDeadHandler c
    = { c with handler := c.handler.bind fun h => if c.sliceLive h.slice then some h else none } := by
  unfold endDeadHandler
  split <;> rename_i h <;> simp only [h, Option.bind_some, Option.bind_none]
  · split
    · rw [← h]
    · rfl
  · rw [← h]

theorem Crew.exited_eq (c : Crew) (is : List Nat) (len : Nat) : c.exited is len = { c.exitGone is with
    slices := ((c.exitGone is).modSlices (is.filter (c.exitGone is).sliceLive) (Slice.afterExit len)).slices
    handler := c.handler.bind fun h => if (c.exitGone is).sliceLive h.slice then some h else none } := by
  rw [Crew.exited, endDeadHandler_eq, exitLanes_eq, Crew.modSlices_eq]
  rfl

theorem Crew.slice_exited (c : Crew) {is : List Nat} (hn : is.Nodup) (len i : Nat) : (c.exited is len).slice i
    = if i ∈ is ∧ i < c.slices.length ∧ sliceBits (c.exited is len).live i ≠ 0 then (c.slice i).afterExit len else c.slice i := by
  rw [Crew.exited_eq]
  refine ((c.exitGone is).slice_modSlices _ (Slice.afterExit len) (hn.filter _) i).trans (if_congr ?_ rfl rfl)
  rw [List.mem_filter, Crew.sliceLive, bne_iff_ne]
  exact ⟨fun ⟨⟨hi, hb⟩, hl⟩ => ⟨hi, hl, hb⟩, fun ⟨hi, hl, hb⟩ => ⟨⟨hi, hb⟩, hl⟩⟩

/-- Every crew has the live lanes that it had. -/
def State.SameLive (s t : State) : Prop := ∀ k, (t.crew k).live = (s.crew k).live

namespace State.SameLive

theorem refl (s : State) : s.SameLive s := fun _ => rfl

theorem trans {s t u : State} (h : s.SameLive t) (h' : t.SameLive u) : s.SameLive u := fun k => (h' k).trans (h k)

theorem of_crews {s t : State} (h : t.crews = s.crews) : s.SameLive t := fun k => by
  rw [State.crew, h, State.crew]

theorem of_map {s t : State} {f : Crew → Crew} (h : t.crews = s.crews.map fun x => (x.1, f x.2)) (hf : ∀ c, (f c).live = c.live) :
    s.SameLive t := fun k => by
  rw [State.crew, h, aget_map_snd, State.crew]
  cases aget s.crews k with
  | none => rfl
  | some c => exact hf c

theorem modCrew (s : State) (k : Nat) {f : Crew → Crew} (hf : ∀ c, (f c).live = c.live) : s.SameLive (s.modCrew k f) := fun j => by
  rw [State.crew, State.aget_modCrew, State.crew]
  split
  · rename_i h
    rw [h]
    cases aget s.crews k with
    | none => rfl
    | some c => exact hf c
  · rfl

theorem foldl {α : Type} {f : State → α → State} (h : ∀ (s : State) x, s.SameLive (f s x)) (l : List α) (s : State) : s.SameLive (l.foldl f s) := by
  induction l generalizing s with
  | nil => exact refl s
  | cons x l ih => exact (h s x).trans (ih _)

theorem ite {p : Prop} [Decidable p] {s t u : State} (h : s.SameLive t) (h' : s.SameLive u) : s.SameLive (if p then t else u) := by
  split
  · exact h
  · exact h'

end State.SameLive

section
variable (s : State)

theorem State.sameLive_waitMoving (k : Nat) (is : List Nat) (pfn : Nat) (a : Option DWord) : s.SameLive (s.waitMoving k is pfn a) := by
  have hmod : s.SameLive (s.modCrew k fun c => c.modSlices is fun sl => { sl with wait := .moving pfn, addr := a }) :=
    .modCrew s k fun c => by rw [Crew.modSlices_eq]
  exact hmod.trans (.foldl (f := fun s i => s.joinQueue pfn (.slice k i)) (fun s i => .of_crews (State.modPage_only ..).crews) is _)

theorem State.sameLive_leaveBar (k : Nat) (is : List Nat) (moving : Option Nat) : s.SameLive (s.leaveBar k is moving) := by
  have h : s.SameLive (s.modCrew k fun c => c.advance is 4) := .modCrew s k fun c => by rw [Crew.advance_eq]
  unfold State.leaveBar
  cases moving with
  | none => exact h
  | some pfn => exact h.trans (State.sameLive_waitMoving _ k is pfn none)

theorem State.sameLive_depart (who : Crew → Bool) (level n : Nat) (cur : BitVec 32) : s.SameLive (s.depart who level n cur) := by
  unfold State.depart
  refine .foldl (fun s x => ?_) _ s
  refine .ite (.refl s) ?_
  exact (State.SameLive.of_crews (s.dropParty_only x.1).crews).trans (.foldl (fun s _ => s.sameLive_leaveBar _ _ _) _ _)

theorem State.sameLive_endGridPhase (l n : Nat) : s.SameLive (s.endGridPhase l n) := by
  unfold State.endGridPhase
  refine State.SameLive.trans ?_ (State.sameLive_depart _ _ _ _ _)
  refine .of_map (f := fun c => if (s.modLaunch l fun x => { x with
    gbars := lmod x.gbars n fun _ => { phase := (x.gbars.getD n {}).phase + 1 } }).crewLaunch c == some l
    then { c with gridArr := adel c.gridArr n } else c) rfl fun c => ?_
  split
  · rfl
  · rfl

theorem State.sameLive_checkGridBar (l n : Nat) : s.SameLive (s.checkGridBar l n) := by
  unfold State.checkGridBar
  exact .ite (s.sameLive_endGridPhase l n) (.refl s)

theorem State.sameLive_arriveGrid (p n : Nat) : s.SameLive (s.arriveGrid p n) := by
  have hdrain : s.SameLive (s.drain p) := .of_crews (s.drain_only p).crews
  have hlaunch (l : Nat) (f : Launch → Launch) : (s.drain p).SameLive ((s.drain p).modLaunch l f) := .of_crews (State.modLaunch_crews ..)
  unfold State.arriveGrid
  exact .ite (.refl s) (hdrain.trans ((hlaunch _ _).trans (State.sameLive_checkGridBar _ _ _)))

/-- The retirement of a slice leaves the live lanes alone. -/
theorem State.sameLive_sliceRetired (k : Nat) : s.SameLive (s.sliceRetired k) := by
  refine .foldl (fun s n => ?_) _ s
  unfold State.arriveGridCrew
  dsimp only
  split
  · exact .refl s
  · exact .ite (.refl s) ((State.SameLive.of_crews (State.modParty_crews ..)).trans (State.sameLive_arriveGrid _ _ _))

end

/-- A crew that has arrived at no grid barrier has none to settle when a slice of it retires. -/
theorem State.sliceRetired_of_none {s : State} {k : Nat} (h : (s.crew k).gridArr = []) : s.sliceRetired k = s := by
  have hone (n : Nat) : s.arriveGridCrew k n = s := by
    unfold State.arriveGridCrew
    dsimp only
    rw [h]
    cases (s.crew k).place with
    | service _ _ => rfl
    | compute p i x => simp [aget]
  simp [State.sliceRetired, hone]

theorem State.deliverPending_of_none {s : State} {k : Nat} (h : ∀ i, ((s.crew k).slice i).pend = none) : s.deliverPending k = s := by
  unfold State.deliverPending
  have hfind (mine : Nat → Bool) :
      ((s.crew k).liveSlices.find? fun i => mine i && ((s.crew k).slice i).pend.isSome) = none :=
    List.find?_eq_none.mpr fun i _ => by simp [h i]
  simp only [hfind, ite_self]

/-! ### Records that have ended (03 R62, R66) -/

/-- Every slice of the record has arrived or has no live lane. -/
def Crew.rdvDone (c : Crew) (r : RdvRec) : Bool := slices8.all fun i => !mbit r.smask i || mbit r.arr i || !c.sliceLive i

theorem Crew.rdvDone_iff {c : Crew} {r : RdvRec} : c.rdvDone r = true
    ↔ ∀ i, i < 8 → mbit r.smask i = true → mbit r.arr i = true ∨ sliceBits c.live i = 0 := by
  simp only [Crew.rdvDone, List.all_eq_true, slices8, List.mem_range, Bool.or_eq_true, Bool.not_eq_true', Crew.sliceLive,
    bne_eq_false_iff_eq, or_assoc]
  exact forall_congr' fun i => imp_congr_right fun _ => by
    cases mbit r.smask i <;> simp

/-- What the end of some records makes of a slice that waits in one of them without a pending trap. -/
def Slice.wake (gone : List Nat) (sl : Slice) : Slice :=
  match sl.wait with
  | .regang r => if gone.contains r && sl.pend.isNone then { sl with pc := sl.pc + 4, wait := .none } else sl
  | _ => sl

theorem settleRdv_eq (c : Crew) : settleRdv c = { c with
    rdv := c.rdv.filter fun r => !c.rdvDone r
    slices := c.slices.map (Slice.wake ((c.rdv.filter c.rdvDone).map (·.id))) } := rfl

theorem Slice.wake_of_gone {gone : List Nat} {sl : Slice} {id : Nat} (hw : sl.wait = .regang id) (hg : id ∈ gone) (hp : sl.pend = none) :
    sl.wake gone = { sl with pc := sl.pc + 4, wait := .none } := by
  simp [Slice.wake, hw, hg, hp]

theorem Slice.wake_of_pend {gone : List Nat} {sl : Slice} (hp : sl.pend ≠ none) : sl.wake gone = sl := by
  unfold Slice.wake
  split
  · simp [hp]
  · rfl

theorem Slice.wake_of_other {gone : List Nat} {sl : Slice} (hw : ∀ id ∈ gone, sl.wait ≠ .regang id) : sl.wake gone = sl := by
  unfold Slice.wake
  split <;> rename_i h
  · exact if_neg fun hg => hw _ (by simp at hg; exact hg.1) h
  · rfl

theorem Crew.slice_settleRdv (c : Crew) {i : Nat} (hi : i < c.slices.length) :
    (settleRdv c).slice i = (c.slice i).wake ((c.rdv.filter c.rdvDone).map (·.id)) := by
  simp [settleRdv_eq, Crew.slice, hi]

/-! ### The instructions -/

section
variable {s : State} {iss : Issue} {c : Crew} (hi : s.issue = some iss) (hc : aget s.crews iss.crew = some c)
include hi hc

theorem exec_split_of_room (f : FmtC) (h : c.rdv.length < 16) : exec (.split f) s
    = .next (({ s.taken with nextId := s.nextId + 1 } : State).setCrew iss.crew
      (({ c with rdv := c.rdv ++ [{ id := s.nextId, smask := iss.mask }] } : Crew).modEach iss.slices fun i =>
        Slice.branch (targetOf iss f.off) iss.len ((c.activeOf i).any (mbit (c.pred f.p.toNat))))) := by
  change execSplit f s = _
  rw [execSplit, withIssue_of hi, show s.taken.crew iss.crew = c from State.crew_of_aget hc]
  refine congrArg _ ((if_neg (Nat.not_le.mpr h)).trans ?_)
  refine (State.modCrew_of_aget (s := s.taken.fresh.1) hc _).trans ?_
  exact congrArg (State.setCrew _ _) (foldl_branch _ iss.slices (targetOf iss f.off) iss.len
    fun i => (c.activeOf i).any (mbit (c.pred f.p.toNat)))

theorem exec_split_of_full (f : FmtC) (h : 16 ≤ c.rdv.length) :
    exec (.split f) s = .next (s.taken.raiseAll iss.crew iss.slices (iss.trap 0x0A 0 0)) := by
  change execSplit f s = _
  rw [execSplit, withIssue_of hi, show s.taken.crew iss.crew = c from State.crew_of_aget hc]
  exact congrArg _ (if_pos h)

theorem exec_regang (f : FmtA) : exec (.regang f) s = .next ((s.taken.setCrew iss.crew
    { c.modEach iss.slices fun i => Slice.regang iss.len (c.openId i) with
      rdv := c.rdv.map (RdvRec.markAll (fun i id => c.openId i == some id) iss.slices) }).settle iss.crew) := by
  change execRegang f s = _
  rw [execRegang, withIssue_of hi]
  dsimp only
  rw [State.modCrew_of_aget (s := s.taken) hc, ← foldl_arrive_regang c iss.len iss.slices_nodup fun i => Issue.slices_lt]
  rfl

theorem exec_leave (depth : BitVec 4) (f : FmtC) : exec (.leave depth f) s = .next ((s.taken.setCrew iss.crew
    { c.modEach iss.slices fun _ sl => { sl with pc := targetOf iss f.off, wait := .none } with
      rdv := c.rdv.map (RdvRec.markAll (fun i id => (c.leaveIds depth.toNat i).contains id) iss.slices) }).settle iss.crew) := by
  change execLeave depth f s = _
  rw [execLeave, withIssue_of hi]
  dsimp only
  rw [State.modCrew_of_aget (s := s.taken) hc, ← foldl_leave c depth.toNat (targetOf iss f.off) iss.slices_nodup fun i => Issue.slices_lt]
  rfl

theorem exec_exit (f : FmtA) : exec (.exit f) s = .next
    (let u := (s.taken.setCrew iss.crew (c.exited iss.slices iss.len)).sliceRetired iss.crew
     ((if (c.exited iss.slices iss.len).live = 0 then u.crewRetired iss.crew else u).deliverPending iss.crew).settle iss.crew) := by
  have hlive := ((s.taken.setCrew iss.crew (c.exited iss.slices iss.len)).sameLive_sliceRetired iss.crew) iss.crew
  rw [State.crew_setCrew (s := s.taken) hc] at hlive
  change execExit f s = _
  rw [execExit, withIssue_of hi]
  dsimp only
  rw [State.modCrew_of_aget (s := s.taken) hc, ← hlive]
  rfl

/-- An EXIT that leaves a live lane, in a crew that has arrived at no grid barrier and in which no trap is pending. -/
theorem exec_exit_of_quiet (f : FmtA) (hlive : (c.exited iss.slices iss.len).live ≠ 0) (hgrid : c.gridArr = [])
    (hpend : ∀ i, (c.slice i).pend = none) :
    exec (.exit f) s = .next ((s.taken.setCrew iss.crew (c.exited iss.slices iss.len)).settle iss.crew) := by
  have hcrew := State.crew_setCrew (s := s.taken) hc (c.exited iss.slices iss.len)
  have hretired := State.sliceRetired_of_none (s := s.taken.setCrew iss.crew (c.exited iss.slices iss.len)) (k := iss.crew)
    (by rw [hcrew, Crew.exited_eq]; exact hgrid)
  have hdeliver := State.deliverPending_of_none (s := s.taken.setCrew iss.crew (c.exited iss.slices iss.len)) (k := iss.crew) fun i => by
    rw [hcrew, c.slice_exited iss.slices_nodup]
    split
    · exact hpend i
    · exact hpend i
  rw [exec_exit hi hc]
  dsimp only
  rw [hretired, if_neg hlive, hdeliver]

end

/-- Settles O25: each instruction by its equation, and the records of the crew by what a gang's arrivals leave. -/
theorem rendezvousOfSlices : Obligations.RendezvousOfSlices := by
  unfold Obligations.RendezvousOfSlices
  intro branch marked
  have hlt {iss : Issue} : ∀ i ∈ iss.slices, i < 8 := fun i => Issue.slices_lt
  refine ⟨fun f s iss c hi hc => ⟨fun h => ?split, exec_split_of_full hi hc f⟩, fun f s iss c hi hc => ?regang,
    fun depth f s iss c hi hc => ?leave, fun f s iss c hi hc => ?exit, fun c => ?settle⟩
  case split =>
    refine ⟨_, exec_split_of_room hi hc f h, ?_, fun i => ?_, ?_⟩
    · rw [Crew.modEach_eq]
    · simp only [← List.any_eq_true]
      exact ({ c with rdv := c.rdv ++ [{ id := s.nextId, smask := iss.mask }] } : Crew).slice_branch iss.slices_nodup _ _
        (fun i => (c.activeOf i).any (mbit (c.pred f.p.toNat))) i
    · rw [Crew.modEach_eq]
  case regang =>
    intro inner
    have hinner (i : Nat) : inner i = openRecord c i := (openRecord_eq c i).symm
    have hid (i : Nat) : (inner i).map (·.id) = c.openId i := congrArg _ (hinner i)
    refine ⟨_, exec_regang hi hc f, ?_, fun i => ?_, ?_⟩
    · simp only [marked, hid, ← beq_iff_eq (a := c.openId _)]
      exact c.marked_records (fun i id => c.openId i == some id) hlt
    · refine (c.slice_modEach iss.slices_nodup (fun i => Slice.regang iss.len (c.openId i)) i).trans (if_congr Iff.rfl ?_ rfl)
      rw [← hid]
      cases inner i <;> rfl
    · rw [Crew.modEach_eq]
  case leave =>
    refine ⟨_, exec_leave hi hc depth f, ?_, fun i => ?_, ?_⟩
    · have hmem (i : Nat) (r : RdvRec) : (∃ x ∈ (c.rdv.filter fun r => mbit r.smask i).drop depth.toNat, x.id = r.id)
          ↔ (c.leaveIds depth.toNat i).contains r.id = true := by
        rw [Crew.leaveIds, List.contains_iff_mem, List.mem_map]
      simp only [marked, hmem]
      exact c.marked_records (fun i id => (c.leaveIds depth.toNat i).contains id) hlt
    · exact c.slice_modEach iss.slices_nodup _ i
    · rw [Crew.modEach_eq]
  case exit =>
    refine ⟨c.exited iss.slices iss.len, exec_exit hi hc f, exec_exit_of_quiet hi hc f, fun l hl => ?_, fun l hl => ?_, fun i => ?_,
      fun h => ?_, fun h hh => ?_, ?_⟩
    · rw [Crew.exited_eq]
      exact (mbit_and_not _ _ hl).trans (by rw [mbit_exec_slices c iss.slices hl])
    · rw [Crew.exited_eq]
      refine (mbit_and_not _ _ hl).trans ?_
      rw [mbit_exec_slices c iss.slices hl]
      cases mbit c.exec l <;> simp
    · exact c.slice_exited iss.slices_nodup iss.len i
    · rw [Crew.exited_eq, h]
      rfl
    · rw [Crew.exited_eq, hh]
      exact if_congr (bne_iff_ne) rfl rfl
    · rw [Crew.exited_eq]
      rfl
  case settle =>
    intro done c'
    have hdone (r : RdvRec) : done r ↔ c.rdvDone r = true := Crew.rdvDone_iff.symm
    refine ⟨fun r => ?_, fun i hi => ⟨fun hp h => ?_, fun h => ?_⟩, rfl⟩
    · rw [hdone]
      simp [c', settleRdv_eq]
    · obtain ⟨r, hr, hd, hw⟩ := h
      rw [c.slice_settleRdv hi]
      exact Slice.wake_of_gone hw (List.mem_map_of_mem (List.mem_filter.mpr ⟨hr, (hdone r).mp hd⟩)) hp
    · rw [c.slice_settleRdv hi]
      rcases h with hp | hw
      · exact Slice.wake_of_pend hp
      · refine Slice.wake_of_other fun id hid => ?_
        obtain ⟨r, hr, rfl⟩ := List.mem_map.mp hid
        obtain ⟨hr, hd⟩ := List.mem_filter.mp hr
        exact hw r hr ((hdone r).mpr hd)

end Sys2Proof.Machine
end

section
/-! SUPPORT. The family Slices: the arrival at a cross-slice instruction and its single run for the crew, and the reductions over the
lanes: a fold of an associative operation and the tree of R118 (03 R70, R74; 05 R118, R119; 24 R380, R381; 25 R404, R405, R416;
26 R436). -/

namespace Sys2Proof.Machine

/-! ### Arrival (03 R70) -/

/-- The crew with its slices as given. -/
def Crew.withSlices (c : Crew) (x : List Slice) : Crew := { c with slices := x }

/-- The crew once the slices of a gang wait at a cross-slice instruction. -/
def Crew.waitCross (c : Crew) (is : List Nat) : Crew := c.modSlices is fun sl => { sl with wait := .cross }

theorem Crew.waitCross_eq (c : Crew) (is : List Nat) : c.waitCross is = c.withSlices (c.waitCross is).slices :=
  Crew.modSlices_eq ..

theorem Crew.slice_waitCross (c : Crew) {is : List Nat} (hn : is.Nodup) (j : Nat) :
    (c.waitCross is).slice j = if j ∈ is ∧ j < c.slices.length then { c.slice j with wait := .cross } else c.slice j :=
  Crew.slice_modSlices c is _ hn j

@[simp] theorem Crew.liveSlices_waitCross (c : Crew) (is : List Nat) : (c.waitCross is).liveSlices = c.liveSlices := by
  rw [Crew.waitCross_eq]
  rfl

theorem Crew.mem_liveSlices {c : Crew} {i : Nat} : i ∈ c.liveSlices ↔ i < 8 ∧ sliceBits c.live i ≠ 0 := by
  simp [Crew.liveSlices, slices8, Crew.sliceLive]

theorem Crew.liveSlices_nodup (c : Crew) : c.liveSlices.Nodup := List.nodup_range.filter _

/-- Every live slice of the crew stands at the instruction of the gang `iss`, in the gang or waiting for it. -/
def Crew.AllThere (c : Crew) (iss : Issue) : Prop :=
  c.handler = none ∧ c.frozen = none ∧ c.slices.length = 8 ∧ (∀ i ∈ iss.slices, i ∈ c.liveSlices) ∧ ∀ i ∈ c.liveSlices,
    (c.slice i).pc = iss.pc ∧ (c.slice i).pend = none ∧ (i ∈ iss.slices ∨ (c.slice i).wait = .cross)

theorem Crew.crossReady_iff {c : Crew} {pc : DWord} : c.crossReady pc = true ↔ c.handler = none ∧ c.frozen = none
    ∧ ∀ i ∈ c.liveSlices, (c.slice i).wait = .cross ∧ (c.slice i).pc = pc ∧ (c.slice i).pend = none := by
  simp [Crew.crossReady, and_assoc]

theorem Crew.AllThere.crossReady {c : Crew} {iss : Issue} (h : c.AllThere iss) : (c.waitCross iss.slices).crossReady iss.pc = true := by
  obtain ⟨hhandler, hfrozen, hlen, _, hlive⟩ := h
  rw [Crew.crossReady_iff, Crew.liveSlices_waitCross]
  refine ⟨by rw [Crew.waitCross_eq]; exact hhandler, by rw [Crew.waitCross_eq]; exact hfrozen, fun i hi => ?_⟩
  obtain ⟨hpc, hpend, hin⟩ := hlive i hi
  have h8 : i < c.slices.length := hlen ▸ (Crew.mem_liveSlices.mp hi).1
  rw [Crew.slice_waitCross c iss.slices_nodup]
  split <;> rename_i hm
  · exact ⟨rfl, hpc, hpend⟩
  · exact ⟨hin.resolve_left fun h => hm ⟨h, h8⟩, hpc, hpend⟩

section
variable {s : State} {iss : Issue} {c : Crew} (hc : aget s.crews iss.crew = some c) (go : State → List Nat → State)
include hc

theorem crossArrive_of_there (h : c.AllThere iss) : crossArrive s iss go
    = (go (s.setCrew iss.crew (c.waitCross iss.slices)) c.liveSlices).settle iss.crew := by
  unfold crossArrive
  rw [State.modCrew_of_aget hc]
  change (if ((s.setCrew iss.crew (c.waitCross iss.slices)).crew iss.crew).crossReady iss.pc = true then
    (go (s.setCrew iss.crew (c.waitCross iss.slices)) ((s.setCrew iss.crew (c.waitCross iss.slices)).crew iss.crew).liveSlices).settle
      iss.crew else _) = _
  rw [State.crew_setCrew hc, if_pos h.crossReady, Crew.liveSlices_waitCross]

/-- A crew that is not all there waits. -/
theorem crossArrive_of_not (h : (c.waitCross iss.slices).crossReady iss.pc = false) :
    crossArrive s iss go = (s.setCrew iss.crew (c.waitCross iss.slices)).settle iss.crew := by
  unfold crossArrive
  rw [State.modCrew_of_aget hc]
  change (if ((s.setCrew iss.crew (c.waitCross iss.slices)).crew iss.crew).crossReady iss.pc = true then _ else _) = _
  rw [State.crew_setCrew hc, if_neg (by simp [h])]
  rfl

/-- An instruction that changes the crew once all are there: the crew that was not waiting yet is replaced by what it leaves. -/
theorem crossArrive_modCrew (h : c.AllThere iss) (f : List Nat → Crew → Crew) :
    (crossArrive s iss fun s is => s.modCrew iss.crew (f is))
      = (s.setCrew iss.crew (f c.liveSlices (c.waitCross iss.slices))).settle iss.crew := by
  rw [crossArrive_of_there hc _ h, State.modCrew, State.crew_setCrew hc, State.setCrew_setCrew]

end

/-! ### The run (03 R74) -/

/-- The live slices go on past an instruction at which the crew stood. -/
theorem Crew.AllThere.moved {c c' : Crew} {iss : Issue} (h : c.AllThere iss) {len : Nat}
    (hslices : c'.slices = advSlices (c.waitCross iss.slices).slices c.liveSlices len) : c.Moved c' c.liveSlices len := by
  obtain ⟨_, _, _, hgang, _⟩ := h
  intro i
  rw [moved_advSlices (c.waitCross iss.slices) c.liveSlices_nodup len c' hslices i, Crew.slice_waitCross c iss.slices_nodup,
    Crew.waitCross, Crew.slices_length_modSlices]
  by_cases hi : i ∈ c.liveSlices ∧ i < c.slices.length
  · rw [if_pos hi, if_pos hi]
    split <;> rfl
  · rw [if_neg hi, if_neg hi, if_neg fun h => hi ⟨hgang i h.1, h.2⟩]

theorem Crew.advance_withSlices (c : Crew) (is : List Nat) (len : Nat) : c.advance is len = c.withSlices (advSlices c.slices is len) :=
  advance_slices ..

theorem sliceCommit_withSlices (c : Crew) (o : VOp) (ops : List VOp) (i : Nat) (outs : List (Nat × LaneOut)) (r : Crew) (x : List Slice) :
    sliceCommit c (some o) none ops i outs (r.withSlices x) = (sliceCommit c (some o) none ops i outs r).withSlices x := by
  have hput (r : Crew) : outs.foldl (fun r lo => c.vput r o lo.1 lo.2.regs) (r.withSlices x)
      = (outs.foldl (fun r lo => c.vput r o lo.1 lo.2.regs) r).withSlices x := by
    induction outs generalizing r with
    | nil => rfl
    | cons lo outs ih =>
      rw [List.foldl_cons, List.foldl_cons, ← ih, vput_eq, vput_eq]
      rfl
  unfold sliceCommit
  dsimp only
  rw [hput, postAdvance_eq, postAdvance_eq]
  rfl

/-- Slices whose change leaves where they stand alone go on together as they do one by one. -/
theorem advance_foldl (F : Nat → Crew → Crew) (hF : ∀ i r x, F i (r.withSlices x) = (F i r).withSlices x) (len : Nat) (is : List Nat)
    (r : Crew) : (is.foldl (fun r i => F i r) r).advance is len = is.foldl (fun r i => (F i r).advance [i] len) r := by
  have hfold (r : Crew) (x : List Slice) (is : List Nat) :
      is.foldl (fun r i => F i r) (r.withSlices x) = (is.foldl (fun r i => F i r) r).withSlices x := by
    induction is generalizing r with
    | nil => rfl
    | cons i is ih => rw [List.foldl_cons, List.foldl_cons, hF, ih]
  have hslices (r : Crew) (is : List Nat) : (is.foldl (fun r i => F i r) r).slices = r.slices := by
    have hsame := congrArg Crew.slices (hfold r r.slices is)
    exact hsame
  induction is generalizing r with
  | nil => rfl
  | cons i is ih =>
    rw [List.foldl_cons, List.foldl_cons, ← ih, Crew.advance_withSlices, Crew.advance_withSlices, Crew.advance_withSlices, hfold, hslices]
    rfl

theorem raised_zero (ls : List Nat) : raised ls (fun _ => 0) = 0#5 := by
  unfold raised
  exact foldl_eq_of_fixed (fun a _ _ => by simp) 0

/-- A cross-slice instruction that writes a register of each active lane of the crew. `val` says what, by the crew's registers
alone. -/
theorem crossLanes_of_there {s : State} {iss : Issue} {c : Crew} (hc : aget s.crews iss.crew = some c) {d : VOp} {ops : List VOp}
    {body : Crew → Nat → List Word} {val : Nat → List Word} (hval : ∀ x l, body (c.withSlices x) l = val l) (h : c.AllThere iss)
    (hn : ∀ i ∈ c.liveSlices, c.nameFault i ops = none) :
    ∃ c', crossLanes s iss d ops body = (s.setCrew iss.crew c').settle iss.crew ∧ c.VecWritten c' (c.activeIn c.liveSlices) d val
      ∧ c'.flags = c.flags ∧ c.OffsetsMoved c' (c.activeIn c.liveSlices) ops ∧ c.Moved c' c.liveSlices iss.len ∧ c.SameButVec c' := by
  obtain ⟨c', hrun, hvec, hflags, hofs, _, hsame⟩ := (c.waitCross iss.slices).committed_vec d ops
    (fun l => { regs := val l }) iss.len c.liveSlices_nodup
  have hslices : c'.slices = advSlices (c.waitCross iss.slices).slices c.liveSlices iss.len := by
    rw [← hrun, commit_vec _ d ops _ iss.len c.liveSlices _ rfl]
  rw [raised_zero, BitVec.or_zero] at hflags
  rw [Crew.waitCross_eq] at hvec hflags hofs hsame
  refine ⟨c', ?_, hvec, hflags, hofs, h.moved hslices, ?_⟩
  · have hbody (l : Nat) : body (c.waitCross iss.slices) l = val l := by rw [Crew.waitCross_eq, hval]
    have hnames : c.liveSlices.findSome? (fun i => ((c.waitCross iss.slices).nameFault i ops).map fun b => (i, b)) = none :=
      List.findSome?_eq_none_iff.mpr fun i hi => by
        rw [Crew.waitCross_eq]
        exact congrArg (Option.map _) (hn i hi)
    unfold crossLanes
    rw [crossArrive_of_there hc _ h]
    dsimp only
    rw [State.crew_setCrew hc, crossChecked, hnames]
    dsimp only
    rw [State.modCrew, State.setCrew_setCrew, advance_foldl _ (fun i r x => sliceCommit_withSlices ..)]
    simp only [hbody]
    exact congrArg (fun x => (s.setCrew iss.crew x).settle iss.crew) hrun
  · have hsame' := congrArg (fun x => x.withSlices c.slices) hsame
    exact hsame'

end Sys2Proof.Machine
end

section
/-! SUPPORT. The family Slices: the reductions over the lanes, as a fold of an associative operation over the lanes and as the tree of
R118 (05 R118, R119; 25 R404, R405). -/

namespace Sys2Proof.Machine

/-! ### The values of an integer type -/

theorem two_pow_width (t : Ty) : 2 ^ t.width = 2 * 2 ^ (t.width - 1) := by
  rw [← Nat.pow_succ', Nat.succ_eq_add_one, Nat.sub_add_cancel t.width_pos]

theorem Ty.intVal_range (t : Ty) (x : Nat) : t.range.1 ≤ t.intVal x ∧ t.intVal x ≤ t.range.2 := by
  have hlt := Nat.mod_lt x (Nat.two_pow_pos t.width)
  have htwo := two_pow_width t
  unfold Ty.range Ty.intVal natSext
  generalize x % 2 ^ t.width = y at *
  generalize 2 ^ t.width = n at *
  generalize 2 ^ (t.width - 1) = m at *
  by_cases hs : t.signed
  · rw [if_pos hs, if_pos hs]
    dsimp only
    split <;> omega
  · rw [if_neg hs, if_neg hs]
    dsimp only
    omega

/-- Two patterns of a type that read as one integer are one pattern. -/
theorem Ty.intVal_inj {t : Ty} {x y : Nat} (hx : x < 2 ^ t.width) (hy : y < 2 ^ t.width) (h : t.intVal x = t.intVal y) : x = y := by
  unfold Ty.intVal natSext at h
  rw [Nat.mod_eq_of_lt hx, Nat.mod_eq_of_lt hy] at h
  generalize 2 ^ t.width = n at *
  dsimp only at h
  split at h
  · split at h <;> split at h <;> omega
  · omega

/-! ### The combination of two integers (05 R118) -/

/-- The lesser by a key, the first on a tie, does not depend on how the operands are grouped. -/
theorem ite_le_assoc (key : Nat → Int) (x y z : Nat) :
    (if key (if key x ≤ key y then x else y) ≤ key z then (if key x ≤ key y then x else y) else z)
      = if key x ≤ key (if key y ≤ key z then y else z) then x else (if key y ≤ key z then y else z) := by
  by_cases hxy : key x ≤ key y <;> by_cases hyz : key y ≤ key z
  · have hxz : key x ≤ key z := by omega
    simp [hxy, hyz, hxz]
  · simp only [hxy, hyz, if_true, if_false]
  · simp [hxy, hyz]
  · have hxz : ¬key x ≤ key z := by omega
    simp [hxy, hyz, hxz]

/-- The greater by a key, the last on a tie, does not depend on how the operands are grouped. -/
theorem ite_le_assoc' (key : Nat → Int) (x y z : Nat) :
    (if key (if key x ≤ key y then y else x) ≤ key z then z else (if key x ≤ key y then y else x))
      = if key x ≤ key (if key y ≤ key z then z else y) then (if key y ≤ key z then z else y) else x := by
  by_cases hxy : key x ≤ key y <;> by_cases hyz : key y ≤ key z
  · have hxz : key x ≤ key z := by omega
    simp [hxy, hyz, hxz]
  · simp [hxy, hyz]
  · simp [hxy, hyz]
  · have hxz : ¬key x ≤ key z := by omega
    simp [hxy, hyz, hxz]

section
variable {t : Ty} (hint : t.fmt = none) (op : Nat) (mode : Rnd)
include hint

theorem combine_assoc (x y z : Nat) :
    combine op t mode (combine op t mode x y) z = combine op t mode x (combine op t mode y z) := by
  unfold combine
  rw [hint]
  rcases op with _ | _ | _ | _ | _ | op
  · simp [Nat.add_assoc]
  · exact ite_le_assoc t.intVal x y z
  · exact ite_le_assoc' t.intVal x y z
  · exact Nat.and_assoc x y z
  · exact Nat.or_assoc x y z
  · exact Nat.xor_assoc x y z

theorem combine_lt {x y : Nat} (hx : x < 2 ^ t.width) (hy : y < 2 ^ t.width) : combine op t mode x y < 2 ^ t.width := by
  unfold combine
  rw [hint]
  rcases op with _ | _ | _ | _ | _ | op
  · exact Nat.mod_lt _ (Nat.two_pow_pos _)
  · change (if _ then _ else _) < _; split <;> assumption
  · change (if _ then _ else _) < _; split <;> assumption
  · exact Nat.and_lt_two_pow x hy
  · exact Nat.or_lt_two_pow hx hy
  · exact Nat.xor_lt_two_pow hx hy

theorem identityOf_lt : identityOf op t < 2 ^ t.width := by
  unfold identityOf
  rw [hint]
  rcases op with _ | _ | _ | _ | op
  · exact Nat.two_pow_pos _
  · exact intMod_lt ..
  · exact intMod_lt ..
  · exact Nat.sub_lt (Nat.two_pow_pos _) Nat.one_pos
  · exact Nat.two_pow_pos _

theorem combine_identity {x : Nat} (hx : x < 2 ^ t.width) : combine op t mode (identityOf op t) x = x := by
  obtain ⟨hlo, hhi⟩ := t.intVal_range x
  unfold combine identityOf
  rw [hint]
  rcases op with _ | _ | _ | _ | _ | op
  · exact (congrArg (· % 2 ^ t.width) (Nat.zero_add x)).trans (Nat.mod_eq_of_lt hx)
  · have hmax := Ty.intVal_intMod t.range_le le_rfl
    change (if t.intVal (intMod t.range.2 t.width) ≤ t.intVal x then intMod t.range.2 t.width else x) = x
    split
    · rename_i hle
      exact Ty.intVal_inj (intMod_lt ..) hx (by omega)
    · rfl
  · have hmin := Ty.intVal_intMod le_rfl t.range_le
    change (if t.intVal (intMod t.range.1 t.width) ≤ t.intVal x then x else intMod t.range.1 t.width) = x
    exact if_pos (by omega)
  · exact (Nat.and_comm ..).trans ((Nat.and_two_pow_sub_one_eq_mod x _).trans (Nat.mod_eq_of_lt hx))
  · exact Nat.zero_or x
  · exact Nat.zero_xor x

end

/-! ### The tree of R118 -/

/-- Two entries of a level of the tree combined: an absent one leaves the other. -/
def optCombine (g : Nat → Nat → Nat) : Option Nat → Option Nat → Option Nat
  | some x, some y => some (g x y)
  | some x, none => some x
  | none, y => y

@[simp] theorem optCombine_none_right (g : Nat → Nat → Nat) (a : Option Nat) : optCombine g a none = a := by cases a <;> rfl

theorem optCombine_assoc {g : Nat → Nat → Nat} (hg : ∀ x y z, g (g x y) z = g x (g y z)) (a b d : Option Nat) :
    optCombine g (optCombine g a b) d = optCombine g a (optCombine g b d) := by
  cases a with
  | none => rfl
  | some x =>
    cases b with
    | none => rfl
    | some y =>
      cases d with
      | none => rfl
      | some z => exact congrArg some (hg x y z)

theorem treeLevel_cons (g : Nat → Nat → Nat) (a b : Option Nat) (l : List (Option Nat)) :
    treeLevel g (a :: b :: l) = optCombine g a b :: treeLevel g l := by
  cases a <;> cases b <;> rfl

/-- An entry of the next level combines its two children. -/
theorem getD_treeLevel (g : Nat → Nat → Nat) (l : List (Option Nat)) (i : Nat) :
    (treeLevel g l).getD i none = optCombine g (l.getD (2 * i) none) (l.getD (2 * i + 1) none) := by
  induction l using List.twoStepInduction generalizing i with
  | nil => rfl
  | singleton a =>
    cases i with
    | zero => exact (optCombine_none_right g a).symm
    | succ i => rfl
  | cons_cons a b l ih =>
    rw [treeLevel_cons]
    cases i with
    | zero => rfl
    | succ i => exact ih i

theorem length_treeLevel (g : Nat → Nat → Nat) (l : List (Option Nat)) : (treeLevel g l).length = (l.length + 1) / 2 := by
  induction l using List.twoStepInduction with
  | nil => rfl
  | singleton a => simp [treeLevel]
  | cons_cons a b l ih =>
    rw [treeLevel_cons, List.length_cons, ih, List.length_cons, List.length_cons]
    omega

/-- The entries of a level combined from left to right. -/
def optFold (g : Nat → Nat → Nat) (l : List (Option Nat)) : Option Nat := l.foldr (optCombine g) none

/-- A level of an associative operation combines to what the level below it does. -/
theorem optFold_treeLevel {g : Nat → Nat → Nat} (hg : ∀ x y z, g (g x y) z = g x (g y z)) (l : List (Option Nat)) :
    optFold g (treeLevel g l) = optFold g l := by
  induction l using List.twoStepInduction with
  | nil => rfl
  | singleton a => rfl
  | cons_cons a b l ih =>
    rw [treeLevel_cons]
    exact (congrArg (optCombine g (optCombine g a b)) ih).trans (optCombine_assoc hg ..)

/-- The fifth level over 32 lanes is its root alone. -/
theorem headD_treeLevels (g : Nat → Nat → Nat) {l : List (Option Nat)} (hl : l.length = 32) :
    ((treeLevel g)^[5] l).headD none = optFold g ((treeLevel g)^[5] l) := by
  have hlen : ((treeLevel g)^[5] l).length = 1 := by simp [length_treeLevel, hl]
  obtain ⟨a, ha⟩ := List.length_eq_one_iff.mp hlen
  rw [ha]
  exact (optCombine_none_right g a).symm

theorem optFold_treeLevels {g : Nat → Nat → Nat} (hg : ∀ x y z, g (g x y) z = g x (g y z)) (k : Nat) (l : List (Option Nat)) :
    optFold g ((treeLevel g)^[k] l) = optFold g l := by
  induction k generalizing l with
  | zero => rfl
  | succ k ih => rw [Function.iterate_succ_apply, ih, optFold_treeLevel hg]

/-- A fold over the values of a list is its combination from left to right, on patterns below a bound that the operation keeps. -/
theorem foldl_eq_optFold {g g' : Nat → Nat → Nat} (hg : ∀ x y z, g (g x y) z = g x (g y z)) {n : Nat}
    (hlt : ∀ x y, x < n → y < n → g x y < n) (heq : ∀ x y, x < n → y < n → g' x y = g x y) (p : Nat → Bool) (x : Nat → Nat)
    (hx : ∀ m, x m < n) (ms : List Nat) :
    ∀ u, u < n → some (((ms.filter p).map x).foldl g' u) = optCombine g (some u) (optFold g (ms.map fun m => if p m then some (x m) else none)) := by
  induction ms with
  | nil => exact fun u _ => rfl
  | cons m ms ih =>
    intro u hu
    rw [List.map_cons]
    change _ = optCombine g (some u) (optCombine g (if p m then some (x m) else none) (optFold g _))
    by_cases hm : p m
    · rw [List.filter_cons_of_pos hm, List.map_cons, List.foldl_cons, heq u _ hu (hx m), ih _ (hlt u _ hu (hx m)), if_pos hm,
        ← optCombine_assoc hg]
      rfl
    · rw [List.filter_cons_of_neg hm, ih u hu, if_neg hm]
      rfl

theorem optFold_lt {g : Nat → Nat → Nat} {n : Nat} (hlt : ∀ x y, x < n → y < n → g x y < n) (l : List (Option Nat))
    (hl : ∀ a ∈ l, ∀ x, a = some x → x < n) : ∀ x, optFold g l = some x → x < n := by
  induction l with
  | nil => exact fun x h => nomatch h
  | cons a l ih =>
    intro x h
    have ha := hl a (by simp)
    have ih := ih fun b hb => hl b (List.mem_cons_of_mem _ hb)
    change optCombine g a (optFold g l) = some x at h
    generalize optFold g l = b at h ih
    cases a with
    | none => exact ih x h
    | some y =>
      cases b with
      | none => exact ha x h
      | some z =>
        cases h
        exact hlt y z (ha y rfl) (ih z rfl)

/-! ### What a reduction gives a lane (05 R118, R119) -/

/-- The leaves of the tree: the patterns of the lanes that take part. -/
def leaves (p : Nat → Bool) (x : Nat → Nat) : List (Option Nat) := lanes32.map fun m => if p m then some (x m) else none

theorem getD_leaves (p : Nat → Bool) (x : Nat → Nat) {i : Nat} (hi : i < 32) :
    (leaves p x).getD i none = if p i then some (x i) else none := by
  simp [leaves, lanes32, List.getD_eq_getElem?_getD, hi]

theorem treeOf_eq (op : Nat) (t : Ty) (mode : Rnd) (xs : List (Option Nat)) :
    treeOf op t mode xs =
      let y := (((treeLevel (combine op t mode))^[5] xs).headD none).getD (identityOf op t)
      match t.fmt with
      | some m => if m.value y = .nan then m.canon else y
      | none => y := by
  change (match t.fmt with | some m => if _ then _ else _ | none => _) = _
  cases t.fmt with
  | none => rfl
  | some m => exact if_congr beq_iff_eq rfl rfl

/-- For an integer type the tree gives the fold of the operation over the lanes that take part, from its identity. -/
theorem treeOf_int {t : Ty} (hint : t.fmt = none) (op : Nat) (mode : Rnd) (p : Nat → Bool) {x : Nat → Nat} (hx : ∀ m, x m < 2 ^ t.width)
    {g : Nat → Nat → Nat} (hg : ∀ u v, u < 2 ^ t.width → v < 2 ^ t.width → g u v = combine op t mode u v) :
    treeOf op t mode (leaves p x) = ((lanes32.filter p).map x).foldl g (identityOf op t) := by
  have hassoc := combine_assoc hint op mode
  have hlt : ∀ u v, u < 2 ^ t.width → v < 2 ^ t.width → combine op t mode u v < 2 ^ t.width := fun _ _ => combine_lt hint op mode
  have hfold : _ = optCombine _ _ (optFold _ (leaves p x)) := foldl_eq_optFold hassoc hlt hg p x hx lanes32 _ (identityOf_lt hint op)
  have hbound := optFold_lt hlt (leaves p x) fun a ha y hy => by
    subst hy
    obtain ⟨m, _, hm⟩ := List.mem_map.mp ha
    split at hm
    · cases hm
      exact hx m
    · cases hm
  rw [treeOf_eq, hint, headD_treeLevels _ (by simp [leaves, lanes32]), optFold_treeLevels hassoc]
  refine Option.some_inj.mp (Eq.trans ?_ hfold.symm)
  generalize optFold (combine op t mode) (leaves p x) = r at hbound
  cases r with
  | none => rfl
  | some y => exact congrArg some (combine_identity hint op mode (hbound y rfl)).symm

end Sys2Proof.Machine
end

section
/-! SUPPORT. The family Slices: the cross-slice instructions, one by one (24 R380, R381; 25 R404, R405, R416; 26 R436; 23 R369). -/

namespace Sys2Proof.Machine

/-- `i` runs once for the crew when every live slice of it is there, and writes `val l` to the destination of each active lane. -/
def CrossRun (i : Instr) (s s1 : State) (iss : Issue) (c : Crew) (d : VOp) (ops : List VOp) (val : Nat → List Word) : Prop :=
  c.AllThere iss → (∀ i ∈ c.liveSlices, c.nameFault i ops = none) →
    ∃ c', exec i s = .next ((s1.setCrew iss.crew c').settle iss.crew) ∧ c.VecWritten c' (c.activeIn c.liveSlices) d val
      ∧ c'.flags = c.flags ∧ c.OffsetsMoved c' (c.activeIn c.liveSlices) ops ∧ c.Moved c' c.liveSlices iss.len ∧ c.SameButVec c'

theorem crossRun_of {i : Instr} {s s1 : State} {iss : Issue} {c : Crew} {d : VOp} {ops : List VOp} {body : Crew → Nat → List Word}
    (hexec : exec i s = .next (crossLanes s1 iss d ops body)) (hc : aget s1.crews iss.crew = some c)
    (hbody : ∀ x l, body (c.withSlices x) l = body c l) : CrossRun i s s1 iss c d ops (body c) := fun hthere hnames => by
  obtain ⟨c', hcross, hrest⟩ := crossLanes_of_there hc hbody hthere hnames
  exact ⟨c', hexec.trans (congrArg _ hcross), hrest⟩

/-- The words that SHFL gives a lane (25 R416). -/
def shuffled (t : Ty) (a : VOp) (b : Src) (c : Crew) (l : Nat) : List Word :=
  (List.range t.regs).map fun i => c.vreg (c.phys a l i) (b.read c .ui32 l % if c.isService then 4 else 32)

/-- The mask of the active lanes that hold what lane `l` holds (24 R381). -/
def matching (a : VOp) (c : Crew) (l : Nat) : Word := maskOf 32 32 fun m => c.active m && c.vnat a m == c.vnat a l

/-- The lanes that lane `l` of a reduction sees: all for REDUX, those up to it for SCAN (25 R404, R405). -/
def seesLane (scan : Bool) (f : FmtA) (l m : Nat) : Bool := !scan || (if 8 ≤ f.b.toNat then decide (m < l) else decide (m ≤ l))

/-- The pattern that REDUX or SCAN gives a lane (25 R404, R405). -/
def reduced (scan : Bool) (f : FmtA) (t : Ty) (a : VOp) (c : Crew) (l : Nat) : Nat :=
  treeOf (f.b.toNat % 8) t (modeOf f) (leaves (fun m => c.active m && seesLane scan f l m) fun m => c.vnat a m % 2 ^ t.width)

section
variable {s : State} {iss : Issue} {c : Crew} (hi : s.issue = some iss)
include hi

theorem crossRun_shfl {s1 : State} (f : FmtA) {kc : Option Konst} (hk : s.ReadsConst iss f.k f.b s1 kc)
    (hc : aget s1.crews iss.crew = some c) :
    let t := Ty.ofCode .b32 f.p.dt
    let a : VOp := { pos := 1, field := f.a.toNat, n := t.regs }
    let b := srcOf (f.cl == 0) 2 f.b 1 kc
    let d : VOp := { pos := 0, field := f.d.toNat, n := t.regs }
    CrossRun (.shfl f) s s1 iss c d ([d, a] ++ vopsOf [b]) (shuffled t a b c) := by
  refine crossRun_of ?_ hc fun x l => rfl
  change execShfl f s = _
  rw [execShfl, withIssue_of hi, withKonst_of hk]
  rfl

variable (hc : aget s.crews iss.crew = some c)
include hc

theorem crossRun_matchEq (f : FmtA) :
    let t := Ty.ofCode .b32 f.p.dt
    let a : VOp := { pos := 1, field := f.a.toNat, n := t.regs }
    let d : VOp := { pos := 0, field := f.d.toNat, n := 1 }
    CrossRun (.matchEq f) s s.taken iss c d [d, a] fun l => [matching a c l] := by
  intro t a d
  refine crossRun_of (body := fun c l => [matching a c l]) ?_ hc fun x l => rfl
  change execMatchEq f s = _
  rw [execMatchEq, withIssue_of hi]
  rfl

theorem crossRun_reduction (scan : Bool) (f : FmtA) :
    let t := Ty.ofCode .si32 f.p.dt
    let a : VOp := { pos := 1, field := f.a.toNat, n := t.regs }
    let d : VOp := { pos := 0, field := f.d.toNat, n := t.regs }
    CrossRun (if scan then .scan f else .redux f) s s.taken iss c d [d, a] fun l => wordsOf (reduced scan f t a c l) t.regs := by
  intro t a d
  refine crossRun_of (body := fun c l => wordsOf (reduced scan f t a c l) t.regs) ?_ hc fun x l => rfl
  cases scan with
  | false =>
    change reduction f s (seesLane false f) = _
    rw [reduction, withIssue_of hi]
    rfl
  | true =>
    change reduction f s (seesLane true f) = _
    rw [reduction, withIssue_of hi]
    rfl

end

/-! ### VOTE (26 R436) -/

theorem mbit_and {w : Nat} (p q : BitVec w) (l : Nat) : mbit (p &&& q) l = (mbit p l && mbit q l) := BitVec.getLsbD_and

theorem and_beq_right {p q : Word} : (p &&& q == q) = true ↔ ∀ l, l < 32 → mbit q l = true → mbit p l = true := by
  rw [beq_iff_eq]
  refine ⟨fun h l _ hq => ?_, fun h => BitVec.eq_of_getLsbD_eq fun l hl => ?_⟩
  · rw [← h, mbit_and, Bool.and_eq_true] at hq
    exact hq.1
  · refine (mbit_and p q l).trans ?_
    change _ = mbit q l
    cases hq : mbit q l with
    | false => exact Bool.and_false _
    | true => rw [h l hl hq]; rfl

theorem and_bne_zero {p q : Word} : (p &&& q != 0) = true ↔ ∃ l, l < 32 ∧ mbit q l = true ∧ mbit p l = true := by
  rw [bne_iff_ne]
  constructor
  · intro h
    by_contra hno
    refine h (BitVec.eq_of_getLsbD_eq (y := 0#32) fun l hl => (mbit_and p q l).trans ?_)
    rw [BitVec.getLsbD_zero, Bool.and_eq_false_iff]
    by_contra hboth
    rw [not_or, Bool.not_eq_false, Bool.not_eq_false] at hboth
    exact hno ⟨l, hl, hboth.2, hboth.1⟩
  · rintro ⟨l, hl, hq, hp⟩ h
    have hbit := mbit_and p q l
    rw [h, hp, hq] at hbit
    exact absurd hbit (by simp [mbit])

/-- The crew after the writes of a VOTE over the active lanes of some slices. -/
def Crew.voted (c : Crew) (f : FmtA) (is : List Nat) : Crew :=
  let set := c.exec &&& slicesMask is
  let m := c.pred f.a.toNat &&& set
  if f.cl = 2 then c.setSreg f.d.toNat (m.setWidth 64)
  else c.setPred f.d.toNat (~~~0#32) (if (if f.cl = 0 then m == set else m != 0) then set else 0)

theorem Crew.voted_withSlices (c : Crew) (f : FmtA) (is : List Nat) (x : List Slice) :
    (c.withSlices x).voted f is = (c.voted f is).withSlices x := by
  unfold Crew.voted
  dsimp only
  by_cases hcl : f.cl = 2
  · rw [if_pos hcl, if_pos hcl]
    rfl
  · rw [if_neg hcl, if_neg hcl]
    unfold Crew.setPred
    by_cases h16 : f.d.toNat = 16
    · simp only [h16, if_true]
      rfl
    · simp only [h16, if_false]
      rfl

theorem Crew.voted_eq (c : Crew) (f : FmtA) (is : List Nat) :
    c.voted f is = { c with sregs := (c.voted f is).sregs, preds := (c.voted f is).preds, exec := (c.voted f is).exec } := by
  unfold Crew.voted
  dsimp only
  by_cases hcl : f.cl = 2
  · simp only [if_pos hcl]
    rfl
  · simp only [if_neg hcl]
    rw [Crew.setPred_eq]

section
variable {c : Crew} {f : FmtA} (is : List Nat)

theorem Crew.sreg_voted (hcl : f.cl = 2) (l : Nat) : mbit ((c.voted f is).sreg f.d.toNat) l
    = (decide (l < 32) && (mbit c.exec l && decide (l / 4 ∈ is)) && mbit (c.pred f.a.toNat) l) := by
  unfold Crew.voted
  dsimp only
  rw [if_pos hcl, Crew.sreg_setSreg_self]
  by_cases hl : l < 32
  · have hwide : mbit ((c.pred f.a.toNat &&& (c.exec &&& slicesMask is)).setWidth 64) l
        = mbit (c.pred f.a.toNat &&& (c.exec &&& slicesMask is)) l := by
      simp [mbit, show l < 64 by omega]
    rw [hwide, mbit_and, mbit_exec_slices c is hl, decide_eq_true hl, Bool.true_and, Bool.and_comm, Bool.and_comm (mbit c.exec l)]
  · rw [decide_eq_false hl]
    simp [mbit, BitVec.getLsbD_of_ge _ _ (Nat.le_of_not_lt hl)]

theorem Crew.sreg_voted_of_ne (hcl : f.cl = 2) {q : Nat} (hq : q ≠ f.d.toNat) : (c.voted f is).sreg q = c.sreg q := by
  unfold Crew.voted
  dsimp only
  rw [if_pos hcl, Crew.sreg_setSreg_of_ne c _ hq]

theorem Crew.pred_voted_ballot (hcl : f.cl = 2) (q : Nat) : (c.voted f is).pred q = c.pred q := by
  unfold Crew.voted
  dsimp only
  rw [if_pos hcl]
  rfl

/-- What ALL and ANY ask of the active lanes of some slices. -/
def Crew.agrees (c : Crew) (f : FmtA) (is : List Nat) : Prop :=
  if f.cl = 0 then ∀ l, l < 32 → (mbit c.exec l && decide (l / 4 ∈ is)) = true → mbit (c.pred f.a.toNat) l = true
  else ∃ l, l < 32 ∧ (mbit c.exec l && decide (l / 4 ∈ is)) = true ∧ mbit (c.pred f.a.toNat) l = true

theorem Crew.agrees_iff : (if f.cl = 0 then c.pred f.a.toNat &&& (c.exec &&& slicesMask is) == c.exec &&& slicesMask is
    else c.pred f.a.toNat &&& (c.exec &&& slicesMask is) != 0) = true ↔ c.agrees f is := by
  have hset {l : Nat} (hl : l < 32) : mbit (c.exec &&& slicesMask is) l = (mbit c.exec l && decide (l / 4 ∈ is)) :=
    (mbit_exec_slices c is hl).trans (Bool.and_comm ..)
  unfold Crew.agrees
  by_cases hcl : f.cl = 0
  · rw [if_pos hcl, if_pos hcl, and_beq_right]
    exact forall₂_congr fun l hl => by rw [hset hl]
  · rw [if_neg hcl, if_neg hcl, and_bne_zero]
    exact exists_congr fun l => and_congr_right fun hl => by rw [hset hl]

theorem Crew.pred_voted (hcl : f.cl ≠ 2) {l : Nat} (hl : l < 32) : mbit ((c.voted f is).pred f.d.toNat) l = true ↔
    (mbit c.exec l && decide (l / 4 ∈ is)) = true ∧ (f.d != 16 || (mbit c.live l && !mbit c.off l)) = true ∧ c.agrees f is := by
  have hones : mbit (~~~0#32) l = true := by
    rw [mbit, BitVec.getLsbD_not]
    simp [hl]
  have hd : (f.d.toNat != 16) = (f.d != 16) := by
    rw [Bool.eq_iff_iff, bne_iff_ne, bne_iff_ne, ne_eq, ne_eq, ← BitVec.toNat_inj]
    rfl
  unfold Crew.voted
  dsimp only
  rw [if_neg hcl, Crew.mbit_setPred, if_pos hones, hd, Bool.and_eq_true]
  by_cases hyes : c.agrees f is
  · rw [if_pos ((Crew.agrees_iff is).mpr hyes), mbit_exec_slices c is hl, Bool.and_comm]
    exact ⟨fun h => ⟨h.1, h.2, hyes⟩, fun h => ⟨h.1, h.2.1⟩⟩
  · rw [if_neg (mt (Crew.agrees_iff is).mp hyes)]
    exact ⟨fun h => absurd h.1 (by simp [mbit]), fun h => absurd h.2.2 hyes⟩

theorem Crew.pred_voted_of_ne (hcl : f.cl ≠ 2) {q : Nat} (hq : q ≠ f.d.toNat) : (c.voted f is).pred q = c.pred q := by
  unfold Crew.voted
  dsimp only
  rw [if_neg hcl, Crew.pred_setPred_of_ne c _ _ hq]

theorem Crew.sreg_voted_pred (hcl : f.cl ≠ 2) (q : Nat) : (c.voted f is).sreg q = c.sreg q := by
  unfold Crew.voted
  dsimp only
  rw [if_neg hcl, Crew.setPred_eq]
  rfl

end

/-! ### Instructions that change the crew at once -/

section
variable {s : State} {iss : Issue} {c : Crew} (hi : s.issue = some iss) (hc : aget s.crews iss.crew = some c)
include hi hc

theorem exec_vote (f : FmtA) (h : c.AllThere iss) : exec (.vote f) s = .next ((s.taken.setCrew iss.crew
    ((c.voted f c.liveSlices).withSlices (advSlices (c.waitCross iss.slices).slices c.liveSlices iss.len))).settle iss.crew) := by
  have hexec : exec (.vote f) s
      = .next (crossArrive s.taken iss fun s is => s.modCrew iss.crew fun c => (c.voted f is).advance is iss.len) := by
    change execVote f s = _
    rw [execVote, withIssue_of hi]
    rfl
  have hslices : (c.waitCross iss.slices).voted f c.liveSlices = (c.voted f c.liveSlices).withSlices (c.waitCross iss.slices).slices := by
    rw [Crew.waitCross_eq, Crew.voted_withSlices]
    rfl
  rw [hexec, crossArrive_modCrew (s := s.taken) hc h fun is c => (c.voted f is).advance is iss.len, Crew.advance_withSlices, hslices]
  rfl

/-- The crew after the record of an IDEM. -/
def Crew.marked (c : Crew) (iss : Issue) : Crew :=
  { c with idem := some { pc := iss.pc, sregs := c.sregs.filter fun kv => kv.1 < 32, live := c.live, tile := c.tile } }

theorem exec_idem (f : FmtA) (h : c.AllThere iss) : exec (.idem f) s = .next ((s.taken.setCrew iss.crew
    ((c.marked iss).withSlices (advSlices (c.waitCross iss.slices).slices c.liveSlices iss.len))).settle iss.crew) := by
  have hexec : exec (.idem f) s
      = .next (crossArrive s.taken iss fun s is => s.modCrew iss.crew fun c => (c.marked iss).advance is iss.len) := by
    change execIdem f s = _
    rw [execIdem, withIssue_of hi]
    rfl
  rw [hexec, crossArrive_modCrew (s := s.taken) hc h fun is c => (c.marked iss).advance is iss.len, Crew.advance_withSlices,
    Crew.waitCross_eq]
  rfl

theorem exec_idemend (f : FmtA) : exec (.idemend f) s
    = .next (s.taken.setCrew iss.crew ({ c with idem := none }.advance iss.slices iss.len)) := by
  change execIdemend f s = _
  rw [execIdemend, withIssue_of hi, State.modCrew_of_aget (s := s.taken) hc]

end

/-! ### A crew that is not all there (03 R70) -/

/-- Every cross-slice instruction that reads no constant arrives as 03 R70 says. -/
theorem exec_crossArrive {s : State} {iss : Issue} (hi : s.issue = some iss) {i : Instr} {f : FmtA} (hk : f.k = 0)
    (hmem : i ∈ [.shfl f, .vote f, .matchEq f, .redux f, .scan f, .idem f]) :
    ∃ go, exec i s = .next (crossArrive s.taken iss go) := by
  have hconst : s.ReadsConst iss f.k f.b s.taken none := .inl ⟨hk, rfl, rfl⟩
  simp only [List.mem_cons, List.not_mem_nil, or_false] at hmem
  obtain rfl | rfl | rfl | rfl | rfl | rfl := hmem
  · change ∃ go, execShfl f s = _
    rw [execShfl, withIssue_of hi, withKonst_of hconst]
    exact ⟨_, rfl⟩
  · change ∃ go, execVote f s = _
    rw [execVote, withIssue_of hi]
    exact ⟨_, rfl⟩
  · change ∃ go, execMatchEq f s = _
    rw [execMatchEq, withIssue_of hi]
    exact ⟨_, rfl⟩
  · change ∃ go, execRedux f s = _
    rw [execRedux, reduction, withIssue_of hi]
    exact ⟨_, rfl⟩
  · change ∃ go, execScan f s = _
    rw [execScan, reduction, withIssue_of hi]
    exact ⟨_, rfl⟩
  · change ∃ go, execIdem f s = _
    rw [execIdem, withIssue_of hi]
    exact ⟨_, rfl⟩

theorem Crew.crossReady_eq_false {c : Crew} {iss : Issue}
    (h : c.handler ≠ none ∨ c.frozen ≠ none ∨ ∃ j ∈ c.liveSlices, j ∉ iss.slices ∧ (c.slice j).wait ≠ .cross) :
    (c.waitCross iss.slices).crossReady iss.pc = false := by
  rw [Bool.eq_false_iff]
  intro hready
  obtain ⟨hhandler, hfrozen, hlive⟩ := Crew.crossReady_iff.mp hready
  rw [Crew.waitCross_eq] at hhandler hfrozen
  rw [Crew.liveSlices_waitCross] at hlive
  obtain h | h | ⟨j, hj, hout, hwait⟩ := h
  · exact h hhandler
  · exact h hfrozen
  · obtain ⟨hcross, _⟩ := hlive j hj
    rw [Crew.slice_waitCross c iss.slices_nodup, if_neg fun h => hout h.1] at hcross
    exact hwait hcross

end Sys2Proof.Machine
end

section
/-! SUPPORT. The family Slices: what a reduction gives each lane, by the fold and by the tree, and the cross-slice instructions together. -/

namespace Sys2Proof.Machine

/-! ### What a reduction gives each lane (05 R118, R119) -/

/-- The node `i` of level `k` of the tree over some leaves. -/
def treeNode (g : Nat → Nat → Nat) (xs : List (Option Nat)) (k i : Nat) : Option Nat := ((treeLevel g)^[k] xs).getD i none

theorem treeNode_succ (g : Nat → Nat → Nat) (xs : List (Option Nat)) (k i : Nat) :
    treeNode g xs (k + 1) i = optCombine g (treeNode g xs k (2 * i)) (treeNode g xs k (2 * i + 1)) := by
  unfold treeNode
  rw [Function.iterate_succ_apply', getD_treeLevel]

theorem treeOf_float {t : Ty} {m : Fmt} (hfmt : t.fmt = some m) (op : Nat) (mode : Rnd) (xs : List (Option Nat)) :
    treeOf op t mode xs = let y := (treeNode (combine op t mode) xs 5 0).getD (identityOf op t)
      if m.value y = .nan then m.canon else y := by
  have hroot : ((treeLevel (combine op t mode))^[5] xs).headD none = treeNode (combine op t mode) xs 5 0 := by
    unfold treeNode
    generalize (treeLevel (combine op t mode))^[5] xs = l
    cases l <;> rfl
  rw [treeOf_eq, hfmt, hroot]

/-- The greater of two patterns as 05 R118 writes it, whichever stands on a tie. -/
theorem ite_max_eq {t : Ty} {u v : Nat} (hu : u < 2 ^ t.width) (hv : v < 2 ^ t.width) :
    (if t.intVal v ≤ t.intVal u then u else v) = if t.intVal u ≤ t.intVal v then v else u := by
  by_cases huv : t.intVal u ≤ t.intVal v
  · rw [if_pos huv]
    by_cases hvu : t.intVal v ≤ t.intVal u
    · rw [if_pos hvu, Ty.intVal_inj hu hv (le_antisymm huv hvu)]
    · rw [if_neg hvu]
  · rw [if_neg huv, if_pos (le_of_not_ge huv)]

theorem reduced_int (scan : Bool) (f : FmtA) {t : Ty} (hint : t.fmt = none) (a : VOp) (c : Crew) (l : Nat) :
    reduced scan f t a c l = ((lanes32.filter fun m => mbit c.exec m && seesLane scan f l m).map fun m => c.vnat a m % 2 ^ t.width).foldl
      (fun u v =>
        match f.b.toNat % 8 with
        | 0 => (u + v) % 2 ^ t.width
        | 1 => if t.intVal u ≤ t.intVal v then u else v
        | 2 => if t.intVal v ≤ t.intVal u then u else v
        | 3 => u &&& v
        | 4 => u ||| v
        | _ => u ^^^ v) (identityOf (f.b.toNat % 8) t) := by
  refine treeOf_int hint _ _ _ (fun m => Nat.mod_lt _ (Nat.two_pow_pos _)) fun u v hu hv => ?_
  unfold combine
  rw [hint]
  generalize f.b.toNat % 8 = op
  rcases op with _ | _ | _ | _ | _ | op
  case succ.succ.zero => exact ite_max_eq hu hv
  all_goals rfl

theorem reduced_float (scan : Bool) (f : FmtA) {t : Ty} {m : Fmt} (hfmt : t.fmt = some m) (a : VOp) (c : Crew) (l : Nat) :
    ∃ node : Nat → Nat → Option Nat,
      (∀ i, i < 32 → node 0 i = if mbit c.exec i && seesLane scan f l i then some (c.vnat a i % 2 ^ t.width) else none)
        ∧ (∀ k i, node (k + 1) i =
            match node k (2 * i), node k (2 * i + 1) with
            | some u, some v => some (
                match f.b.toNat % 8 with
                | 0 => (fadd m (modeOf f) (m.value u) (m.value v)).code
                | 1 => fminmax m false u v
                | _ => fminmax m true u v)
            | some u, none => some u
            | none, v => v)
        ∧ (let y : Nat :=
            match node 5 0, f.b.toNat % 8 with
            | some u, _ => u
            | none, 0 => 0
            | none, 1 => infCode m false
            | none, _ => infCode m true
           reduced scan f t a c l = if m.value y = .nan then m.canon else y) := by
  refine ⟨treeNode (combine (f.b.toNat % 8) t (modeOf f))
    (leaves (fun i => c.active i && seesLane scan f l i) fun i => c.vnat a i % 2 ^ t.width), fun i hi => getD_leaves _ _ hi,
    fun k i => ?_, ?_⟩
  · rw [treeNode_succ]
    generalize treeNode _ _ k (2 * i) = u
    generalize treeNode _ _ k (2 * i + 1) = v
    cases u with
    | none => rfl
    | some u =>
      cases v with
      | none => rfl
      | some v =>
        refine congrArg some ?_
        unfold combine
        rw [hfmt]
        generalize f.b.toNat % 8 = op
        rcases op with _ | _ | op <;> rfl
  · have hroot := treeOf_float hfmt (f.b.toNat % 8) (modeOf f)
      (leaves (fun i => c.active i && seesLane scan f l i) fun i => c.vnat a i % 2 ^ t.width)
    refine hroot.trans ?_
    generalize treeNode _ _ 5 0 = r
    cases r with
    | some u => rfl
    | none =>
      unfold identityOf
      rw [hfmt]
      generalize f.b.toNat % 8 = op
      rcases op with _ | _ | op <;> rfl

/-- Settles O26: an arrival waits or runs the instruction once over the live slices; the commit of the lanes is that of the vector
instructions, and a reduction's tree is a fold where its operation is associative. -/
theorem crossSliceRunsOnceForTheCrew : Obligations.CrossSliceRunsOnceForTheCrew := by
  unfold Obligations.CrossSliceRunsOnceForTheCrew
  refine ⟨fun f s s1 iss c kc hi hk hc => crossRun_shfl hi f hk hc, fun f s iss c hi hc => ?_, fun scan f s iss c hi hc => ?_,
    fun f s iss c hi hc h => ?_, fun f s iss c hi hc h => ?_, fun f s iss c hi hc => ?_, fun i f s iss c hi hc hk hmem hlen hnot => ?_⟩
  · refine ⟨matching _ c, fun l j hj => ?_, crossRun_matchEq hi hc f⟩
    exact (mbit_maskOf 32 32 _ j hj).trans (by rw [decide_eq_true hj, Bool.true_and]; rfl)
  · exact ⟨reduced scan f _ _ c, fun l hint => reduced_int scan f hint _ c l, fun l m hfmt => reduced_float scan f hfmt _ c l,
      crossRun_reduction hi hc scan f⟩
  · refine ⟨_, exec_vote hi hc f h, fun hcl => ⟨fun l _ => Crew.sreg_voted c.liveSlices hcl l,
      fun q hq => Crew.sreg_voted_of_ne c.liveSlices hcl hq, fun q _ => Crew.pred_voted_ballot c.liveSlices hcl q⟩,
      fun hcl _ => ⟨fun l hl => Crew.pred_voted c.liveSlices hcl hl, fun q _ hq => Crew.pred_voted_of_ne c.liveSlices hcl hq,
        fun q => Crew.sreg_voted_pred c.liveSlices hcl q⟩, Crew.AllThere.moved h rfl, ?_⟩
    rw [Crew.voted_eq]
    rfl
  · exact ⟨_, _, exec_idem hi hc f h, rfl, rfl, rfl, rfl, rfl, fun q => by
      rw [sget_filter_key c.sregs (fun q => decide (q < 32))]
      exact if_congr decide_eq_true_iff rfl rfl, Crew.AllThere.moved h rfl, rfl⟩
  · refine ⟨_, onlyCrew_of (exec_idemend hi hc f), ?_, ?_, ?_⟩
    · rw [advance_slices]
    · exact Crew.moved_advance { c with idem := none } iss.slices_nodup iss.len
    · rw [advance_slices]
  · obtain ⟨go, hexec⟩ := exec_crossArrive hi hk hmem
    refine ⟨c.waitCross iss.slices, ?_, fun j => ?_, ?_⟩
    · rw [hexec, crossArrive_of_not (s := s.taken) hc _ (Crew.crossReady_eq_false hnot)]
    · rw [Crew.slice_waitCross c iss.slices_nodup, hlen]
    · rw [Crew.waitCross_eq]
      rfl

end Sys2Proof.Machine
end

section
/-! SUPPORT. The family Matrix: exact dyadic values as real numbers, and one rounding of such a value into a format (05 R100,
R105 to R108, R113). -/

namespace Sys2Proof.Machine

/-! ### Exact sums and products (05 R104; 22 R356) -/

/-- The factor of a sign. -/
def signOf (neg : Bool) : ℤ := if neg then -1 else 1

theorem Dy.real_eq (d : Dy) : d.real = signOf d.neg * (d.m * 2 ^ d.e) := by
  cases h : d.neg <;> simp [Dy.real, signOf, h]

theorem signOf_bne (x y : Bool) : signOf (x != y) = signOf x * signOf y := by
  cases x <;> cases y <;> rfl

theorem abs_signOf (x : Bool) : |(signOf x : ℝ)| = 1 := by
  cases x <;> simp [signOf]

theorem Dy.real_eq_zero {d : Dy} : d.real = 0 ↔ d.m = 0 := by
  have hsign : (signOf d.neg : ℝ) ≠ 0 := by
    rw [← abs_ne_zero, abs_signOf]
    exact one_ne_zero
  rw [Dy.real_eq, mul_eq_zero, or_iff_right hsign, mul_eq_zero, or_iff_left (zpow_ne_zero _ two_ne_zero), Nat.cast_eq_zero]

theorem Dy.abs_real (d : Dy) : |d.real| = d.m * 2 ^ d.e := by
  rw [Dy.real_eq, abs_mul, abs_signOf, one_mul, abs_of_nonneg (by positivity)]

theorem Dy.real_mul (a b : Dy) : (a.mul b).real = a.real * b.real := by
  rw [Dy.real_eq, Dy.real_eq, Dy.real_eq, Dy.mul, signOf_bne, zpow_add₀ two_ne_zero]
  push_cast
  ring

/-- A value is its integer at any exponent not above its own. -/
theorem Dy.toInt_mul {d : Dy} {e : ℤ} (h : e ≤ d.e) : (d.toInt e : ℝ) * 2 ^ e = d.real := by
  have hpow : (2 : ℝ) ^ (d.e - e).toNat * 2 ^ e = 2 ^ d.e := by
    rw [← zpow_natCast, Int.toNat_of_nonneg (by omega), ← zpow_add₀ two_ne_zero, sub_add_cancel]
  rw [Dy.real_eq, ← hpow]
  cases hd : d.neg <;> simp [Dy.toInt, signOf, hd, mul_assoc]

theorem Dy.real_add (mode : Rnd) (a b : Dy) : (a.add mode b).real = a.real + b.real := by
  rw [← a.toInt_mul (min_le_left a.e b.e), ← b.toInt_mul (min_le_right a.e b.e), ← add_mul, ← Int.cast_add]
  unfold Dy.add
  dsimp only
  generalize min a.e b.e = e
  generalize a.toInt e + b.toInt e = s
  split
  · rename_i h
    simp [Dy.real_eq, h]
  · have hs : signOf (decide (s < 0)) * |s| = s := by
      rcases lt_or_ge s 0 with h | h
      · simp [signOf, h, abs_of_neg h]
      · simp [signOf, h, abs_of_nonneg h]
    have hreal : (signOf (decide (s < 0)) : ℝ) * s.natAbs = s := by
      rw [Nat.cast_natAbs]
      exact_mod_cast hs
    rw [Dy.real_eq, ← mul_assoc]
    exact congrArg (· * (2 : ℝ) ^ e) hreal

/-- To the nearest, a sum is a negative zero only where both its parts are (22 R356). -/
theorem Dy.neg_add_rn {a b : Dy} (h : (a.m = 0 → a.neg = false) ∨ (b.m = 0 → b.neg = false)) (hm : (a.add .rn b).m = 0) :
    (a.add .rn b).neg = false := by
  unfold Dy.add at *
  dsimp only at *
  split at hm
  · rename_i hs
    rw [if_pos hs]
    dsimp only
    split
    · rename_i hz
      simp only [Bool.and_eq_true, decide_eq_true_eq, beq_iff_eq] at hz
      obtain ⟨⟨ham, hbm⟩, hneg⟩ := hz
      rcases h with h | h
      · exact h ham
      · rw [hneg, h hbm]
    · rfl
  · rename_i hs
    exact absurd (Int.natAbs_eq_zero.mp hm) hs

/-! ### A magnitude rounded to a multiple of a power of two (05 R105) -/

/-- `n` is what a mode makes of the magnitude `t` of a number of sign `neg`. -/
def Rnd.Magnitude (mode : Rnd) (neg : Bool) (t : ℝ) (n : ℕ) : Prop :=
  match mode, neg with
  | .rn, _ => |t - n| ≤ 1 / 2 ∧ (|t - n| = 1 / 2 → Even n)
  | .ru, false | .rd, true => t ≤ n ∧ n < t + 1
  | .rz, _ | .ru, true | .rd, false => n ≤ t ∧ t < n + 1

theorem Rnd.Magnitude.near {mode : Rnd} {neg : Bool} {t : ℝ} {n : ℕ} (h : mode.Magnitude neg t n) : |t - n| < 1 := by
  rw [abs_lt]
  cases mode with
  | rn =>
    have := abs_le.mp h.1
    constructor <;> linarith
  | rz => exact ⟨by linarith [h.1], by linarith [h.2]⟩
  | ru =>
    cases neg
    all_goals exact ⟨by linarith [h.1, h.2], by linarith [h.1, h.2]⟩
  | rd =>
    cases neg
    all_goals exact ⟨by linarith [h.1, h.2], by linarith [h.1, h.2]⟩

theorem Rnd.magnitude_self (mode : Rnd) (neg : Bool) (n : ℕ) : mode.Magnitude neg n n := by
  cases mode <;> cases neg <;> simp [Rnd.Magnitude]

/-- A rounded magnitude with its sign is the number rounded. -/
theorem Rnd.Magnitude.multiple {mode : Rnd} {neg : Bool} {t : ℝ} {n : ℕ} (h : mode.Magnitude neg t n) (ht : 0 ≤ t) (q : ℤ) :
    mode.Multiple q (signOf neg * (t * 2 ^ q)) (signOf neg * n) := by
  have hq : (0 : ℝ) < 2 ^ q := by positivity
  have hdiff : (signOf neg : ℝ) * (t * 2 ^ q) - ((signOf neg * n : ℤ) : ℝ) * 2 ^ q = signOf neg * ((t - n) * 2 ^ q) := by
    push_cast
    ring
  have habs : |(signOf neg : ℝ) * (t * 2 ^ q) - ((signOf neg * n : ℤ) : ℝ) * 2 ^ q| = |t - n| * 2 ^ q := by
    rw [hdiff, abs_mul, abs_signOf, one_mul, abs_mul, abs_of_pos hq]
  unfold Rnd.Multiple
  cases mode with
  | rn =>
    dsimp only
    rw [habs]
    refine ⟨by nlinarith [h.1], fun he => ?_⟩
    have heven : Even n := h.2 (by field_simp at he ⊢; linarith)
    exact (Int.even_coe_nat n).mpr heven |>.mul_left _
  | rz =>
    obtain ⟨hlo, hhi⟩ := h
    have hn : (0 : ℝ) ≤ n := n.cast_nonneg
    dsimp only
    push_cast
    rw [abs_mul, abs_mul, abs_mul, abs_mul, abs_signOf, abs_of_nonneg ht, abs_of_nonneg hn, abs_of_pos hq]
    refine ⟨by nlinarith, by nlinarith, ?_⟩
    have hone : (signOf neg : ℝ) * signOf neg = 1 := by cases neg <;> simp [signOf]
    calc (0 : ℝ) ≤ t * 2 ^ q * (n * 2 ^ q) := by positivity
      _ = signOf neg * signOf neg * (t * 2 ^ q * (n * 2 ^ q)) := by rw [hone, one_mul]
      _ = _ := by ring
  | ru =>
    cases neg
    all_goals
      obtain ⟨hlo, hhi⟩ := h
      simp only [signOf]
      push_cast
      constructor <;> nlinarith
  | rd =>
    cases neg
    all_goals
      obtain ⟨hlo, hhi⟩ := h
      simp only [signOf]
      push_cast
      constructor <;> nlinarith

/-! ### `roundAt` (05 R105) -/

theorem lt_two_pow_bitLen (m : ℕ) : m < 2 ^ bitLen m := by
  unfold bitLen
  split
  · rename_i h
    simp [h]
  · exact Nat.lt_log2_self

theorem two_pow_bitLen_le {m : ℕ} (h : m ≠ 0) : 2 ^ (bitLen m - 1) ≤ m := by
  rw [bitLen, if_neg h, Nat.add_sub_cancel]
  exact Nat.log2_self_le h

theorem bitLen_pos {m : ℕ} (h : m ≠ 0) : 0 < bitLen m := by
  rw [bitLen, if_neg h]
  exact Nat.succ_pos _

/-- A mode takes the magnitude `n + rem / (2 h)` to the next unit. -/
def Rnd.up (mode : Rnd) (neg : Bool) (n rem h : ℕ) : Bool :=
  match mode with
  | .rn => rem > h || (rem == h && n % 2 == 1)
  | .rz => false
  | .ru => !neg && rem != 0
  | .rd => neg && rem != 0

theorem Rnd.up_zero (mode : Rnd) (neg : Bool) (n : ℕ) {h : ℕ} (hh : 0 < h) : mode.up neg n 0 h = false := by
  cases mode <;> simp [Rnd.up, hh.ne]

theorem Rnd.magnitude_near_down {neg : Bool} {n : ℕ} {ρ : ℝ} (h0 : 0 ≤ ρ) (h : ρ ≤ 1 / 2) (hn : ρ = 1 / 2 → Even n) :
    Rnd.rn.Magnitude neg (n + ρ) n := by
  rw [Rnd.Magnitude, add_sub_cancel_left, abs_of_nonneg h0]
  exact ⟨h, hn⟩

theorem Rnd.magnitude_near_up {neg : Bool} {n : ℕ} {ρ : ℝ} (h1 : ρ < 1) (h : 1 / 2 ≤ ρ) (hn : ρ = 1 / 2 → Even (n + 1)) :
    Rnd.rn.Magnitude neg (n + ρ) (n + 1 : ℕ) := by
  have habs : |(n : ℝ) + ρ - (n + 1 : ℕ)| = 1 - ρ := by
    rw [abs_of_neg (by push_cast; linarith)]
    push_cast
    ring
  rw [Rnd.Magnitude, habs]
  exact ⟨by linarith, fun he => hn (by linarith)⟩

/-- A quotient and its remainder, rounded. -/
theorem Rnd.magnitude_up (mode : Rnd) (neg : Bool) {n rem h : ℕ} (hrem : rem < 2 * h) :
    mode.Magnitude neg (n + rem / (2 * h)) (n + bit01 (mode.up neg n rem h)) := by
  have hh : (0 : ℝ) < 2 * h := by exact_mod_cast (by omega : 0 < 2 * h)
  have h1 : (rem : ℝ) / (2 * h) < 1 := (div_lt_one hh).mpr (by exact_mod_cast hrem)
  have h0 : 0 ≤ (rem : ℝ) / (2 * h) := by positivity
  have hpos : 0 < (rem : ℝ) / (2 * h) ↔ rem ≠ 0 := by rw [div_pos_iff_of_pos_right hh, Nat.cast_pos, Nat.pos_iff_ne_zero]
  have hle : (rem : ℝ) / (2 * h) ≤ 1 / 2 ↔ rem ≤ h := by
    rw [div_le_iff₀ hh, one_div, inv_mul_cancel_left₀ two_ne_zero, Nat.cast_le]
  have hge : 1 / 2 ≤ (rem : ℝ) / (2 * h) ↔ h ≤ rem := by
    rw [le_div_iff₀ hh, one_div, inv_mul_cancel_left₀ two_ne_zero, Nat.cast_le]
  generalize (rem : ℝ) / (2 * h) = ρ at *
  have hdown : (n : ℝ) ≤ n + ρ ∧ n + ρ < n + 1 := ⟨by linarith, by linarith⟩
  have hup (hne : rem ≠ 0) : (n : ℝ) + ρ ≤ (n + 1 : ℕ) ∧ ((n + 1 : ℕ) : ℝ) < n + ρ + 1 := by
    have := hpos.mpr hne
    push_cast
    constructor <;> linarith
  cases mode with
  | rn =>
    by_cases hu : rem > h ∨ (rem = h ∧ n % 2 = 1)
    · have : Rnd.rn.up neg n rem h = true := by simpa [Rnd.up] using hu
      rw [this]
      refine Rnd.magnitude_near_up h1 (hge.mpr (by omega)) fun he => Nat.even_iff.mpr ?_
      have := hle.mp he.le
      omega
    · have : Rnd.rn.up neg n rem h = false := by simpa [Rnd.up] using hu
      rw [this]
      refine Rnd.magnitude_near_down h0 (hle.mpr (by omega)) fun he => Nat.even_iff.mpr ?_
      have := hge.mp he.ge
      change n % 2 = 0
      omega
  | rz => exact hdown
  | ru =>
    cases neg with
    | true => exact hdown
    | false =>
      by_cases hr : rem = 0
      · have hρ : ρ = 0 := le_antisymm (not_lt.mp fun hp => hpos.mp hp hr) h0
        simpa [Rnd.up, bit01, hr, hρ] using Rnd.magnitude_self .ru false n
      · have : Rnd.ru.up false n rem h = true := bne_iff_ne.mpr hr
        rw [this]
        exact hup hr
  | rd =>
    cases neg with
    | false => exact hdown
    | true =>
      by_cases hr : rem = 0
      · have hρ : ρ = 0 := le_antisymm (not_lt.mp fun hp => hpos.mp hp hr) h0
        simpa [Rnd.up, bit01, hr, hρ] using Rnd.magnitude_self .rd true n
      · have : Rnd.rd.up true n rem h = true := bne_iff_ne.mpr hr
        rw [this]
        exact hup hr

/-- Above the exponent of the value, `roundAt` is a division with remainder, also where it skips it. -/
theorem roundAt_of_lt (mode : Rnd) (neg : Bool) (m : ℕ) {e q : ℤ} (h : e < q) :
    roundAt mode neg m e false q =
      let p := 2 ^ (q - e).toNat
      (m / p + bit01 (mode.up neg (m / p) (m % p) (2 ^ ((q - e).toNat - 1))), m % p != 0) := by
  unfold roundAt
  rw [if_neg (by omega)]
  dsimp only
  split
  · rename_i hlen
    have hm := lt_two_pow_bitLen m
    have hhalf : 2 ^ bitLen m ≤ 2 ^ ((q - e).toNat - 1) := Nat.pow_le_pow_right Nat.two_pos (by omega)
    have hp : 2 ^ ((q - e).toNat - 1) ≤ 2 ^ (q - e).toNat := Nat.pow_le_pow_right Nat.two_pos (by omega)
    rw [Nat.div_eq_of_lt (by omega), Nat.mod_eq_of_lt (by omega)]
    have hmh : m < 2 ^ ((q - e).toNat - 1) := hm.trans_le hhalf
    have hbeq (a b : Rnd) : (a == b) = decide (a = b) := rfl
    cases mode <;> simp [Rnd.up, hbeq, hmh.not_gt]
  · rw [Nat.shiftRight_eq_div_pow, Bool.or_false]
    cases mode <;> simp [Rnd.up]

/-- `roundAt` rounds the magnitude in units of 2^q, and tells whether it is no whole number of them. -/
theorem roundAt_magnitude (mode : Rnd) (neg : Bool) (m : ℕ) (e q : ℤ) :
    mode.Magnitude neg (m * 2 ^ (e - q)) (roundAt mode neg m e false q).1
      ∧ ((roundAt mode neg m e false q).2 = true ↔ ((roundAt mode neg m e false q).1 : ℝ) ≠ m * 2 ^ (e - q)) := by
  rcases le_or_gt q e with h | h
  · have hn : ((m * 2 ^ (e - q).toNat : ℕ) : ℝ) = m * 2 ^ (e - q) := by
      push_cast
      rw [← zpow_natCast, Int.toNat_of_nonneg (by omega)]
    rw [roundAt, if_pos h, ← hn]
    exact ⟨mode.magnitude_self neg _, by simp⟩
  · have hpos : 0 < (q - e).toNat := by omega
    have hp : 2 ^ (q - e).toNat = 2 * 2 ^ ((q - e).toNat - 1) := by rw [← Nat.pow_succ', Nat.succ_eq_add_one, Nat.sub_add_cancel hpos]
    have hscale : (m : ℝ) * 2 ^ (e - q) = m / (2 ^ (q - e).toNat : ℕ) := by
      rw [← neg_sub q e, zpow_neg, ← div_eq_mul_inv, Nat.cast_pow, ← zpow_natCast, Int.toNat_of_nonneg (by omega), Nat.cast_ofNat]
    rw [roundAt_of_lt mode neg m h, hscale]
    dsimp only
    have hhalf := Nat.two_pow_pos ((q - e).toNat - 1)
    generalize 2 ^ ((q - e).toNat - 1) = half at *
    rw [hp]
    have hdouble : 0 < 2 * half := by omega
    have hreal : (0 : ℝ) < 2 * half := by exact_mod_cast hdouble
    have hsplit : (m : ℝ) / (2 * half : ℕ) = (m / (2 * half) : ℕ) + (m % (2 * half) : ℕ) / (2 * half) := by
      rw [Nat.cast_mul, Nat.cast_ofNat, div_eq_iff hreal.ne', add_mul, div_mul_cancel₀ _ hreal.ne']
      exact_mod_cast (Nat.div_add_mod' m (2 * half)).symm
    rw [hsplit]
    have hrem := Nat.mod_lt m hdouble
    generalize m / (2 * half) = n at *
    generalize m % (2 * half) = rem at *
    refine ⟨mode.magnitude_up neg hrem, ?_⟩
    rw [bne_iff_ne]
    refine not_congr ⟨fun h0 => ?_, fun he => ?_⟩
    · simp [h0, mode.up_zero neg n (by omega : 0 < half), bit01]
    · have hlt : (rem : ℝ) / (2 * half) < 1 := (div_lt_one hreal).mpr (by exact_mod_cast hrem)
      have hge : 0 ≤ (rem : ℝ) / (2 * half) := by positivity
      have hzero : (rem : ℝ) / (2 * half) = 0 := by
        cases hu : mode.up neg n rem half with
        | false => simpa [hu, bit01] using he.symm
        | true =>
          have hone : 1 = (rem : ℝ) / (2 * half) := by simpa [hu, bit01] using he
          linarith
      rw [div_eq_zero_iff, or_iff_left hreal.ne'] at hzero
      exact_mod_cast hzero

/-! ### The codes of a format as magnitudes (05 R98, R100) -/

/-- The exponent of the last place of a format's subnormals. -/
def Fmt.least (f : Fmt) : ℤ := 1 - f.bias - f.mw

/-- The magnitude that a finite code without its sign stands for. -/
noncomputable def Fmt.mag (f : Fmt) (code : ℕ) : ℝ :=
  if code / 2 ^ f.mw = 0 then (code % 2 ^ f.mw : ℕ) * 2 ^ f.least
  else (2 ^ f.mw + code % 2 ^ f.mw : ℕ) * 2 ^ (f.least + (code / 2 ^ f.mw : ℕ) - 1)

/-- What the seven formats have in common: where their finite codes end. -/
structure Fmt.Sound (f : Fmt) : Prop where
  ew_pos : 0 < f.ew
  maxCode_lt : f.maxCode < f.signBit
  canon_lt : f.canon < 2 * f.signBit
  last : f.maxCode + 1 = if f.hasInf then (2 ^ f.ew - 1) * 2 ^ f.mw else if f.hasNan then f.signBit - 1 else f.signBit

theorem Fmt.sound_of_mem {f : Fmt} (h : f ∈ allFmts) : f.Sound := by
  simp only [allFmts, List.mem_cons, List.not_mem_nil, or_false] at h
  rcases h with rfl | rfl | rfl | rfl | rfl | rfl | rfl
  all_goals exact ⟨by decide, by decide, by decide, by decide⟩

/-- A magnitude of at most one binade's units, at a place above that of the subnormals only when it is normal. -/
theorem Fmt.mag_place {f : Fmt} {k n : ℕ} (hn : n ≤ 2 ^ (f.mw + 1)) (hk : k = 0 ∨ 2 ^ f.mw ≤ n) :
    f.mag (k * 2 ^ f.mw + n) = n * 2 ^ (f.least + k) := by
  rw [Nat.pow_succ] at hn
  have hpos := Nat.two_pow_pos f.mw
  unfold Fmt.mag
  rw [Nat.mul_comm k, Nat.mul_add_div hpos, Nat.mul_add_mod]
  rcases Nat.lt_or_ge n (2 ^ f.mw) with hlt | hge
  · obtain rfl := hk.resolve_right (Nat.not_le.mpr hlt)
    simp [Nat.div_eq_of_lt hlt, Nat.mod_eq_of_lt hlt]
  rcases hn.lt_or_eq with hlt | rfl
  · have hdiv : n / 2 ^ f.mw = 1 := Nat.div_eq_of_lt_le (by omega) (by omega)
    have hmod : 2 ^ f.mw + n % 2 ^ f.mw = n := by
      have := Nat.div_add_mod n (2 ^ f.mw)
      rwa [hdiv, Nat.mul_one] at this
    rw [hdiv, if_neg (by omega), hmod]
    congr 2
    push_cast
    ring
  · rw [Nat.mul_div_cancel_left _ hpos, Nat.mul_mod_right, if_neg (by omega)]
    push_cast
    rw [add_zero, mul_assoc, ← zpow_one_add₀ two_ne_zero]
    congr 2
    ring

/-- Every code has such a place. -/
theorem Fmt.exists_place (f : Fmt) (c : ℕ) : ∃ k n, c = k * 2 ^ f.mw + n ∧ n < 2 ^ (f.mw + 1) ∧ (k = 0 ∨ 2 ^ f.mw ≤ n) := by
  have hmod := Nat.mod_lt c (Nat.two_pow_pos f.mw)
  have hsplit := Nat.div_add_mod' c (2 ^ f.mw)
  rw [Nat.pow_succ]
  cases hk : c / 2 ^ f.mw with
  | zero =>
    rw [hk] at hsplit
    exact ⟨0, c % 2 ^ f.mw, hsplit.symm, by omega, .inl rfl⟩
  | succ k =>
    rw [hk, Nat.succ_mul] at hsplit
    exact ⟨k, 2 ^ f.mw + c % 2 ^ f.mw, by omega, by omega, .inr (by omega)⟩

theorem Fmt.mag_strictMono (f : Fmt) : StrictMono f.mag := by
  refine strictMono_nat_of_lt_succ fun c => ?_
  obtain ⟨k, n, rfl, hn, hk⟩ := f.exists_place c
  rw [Nat.add_assoc, Fmt.mag_place hn.le hk, Fmt.mag_place hn (hk.imp_right Nat.le_succ_of_le)]
  gcongr
  exact n.lt_succ_self

/-! ### What a code with its sign stands for -/

theorem Fmt.signed_lt {f : Fmt} (neg : Bool) {c : ℕ} (hc : c < f.signBit) : f.signed neg c < 2 * f.signBit := by
  unfold Fmt.signed
  split <;> omega

theorem Fmt.signBit_eq (f : Fmt) : f.signBit = 2 ^ f.ew * 2 ^ f.mw := Nat.pow_add 2 f.ew f.mw

section
variable {f : Fmt} (hf : f.Sound) (neg : Bool) {c : ℕ} (hc : c < f.signBit)
include hf hc

/-- The value of a code with its sign, by the exponent and the mantissa of the code. -/
theorem Fmt.Sound.value_signed : f.value (f.signed neg c) =
    let e := c / 2 ^ f.mw
    let m := c % 2 ^ f.mw
    if f.hasInf && e = 2 ^ f.ew - 1 then (if m = 0 then .inf neg else .nan)
    else if f.hasNan && !f.hasInf && e = 2 ^ f.ew - 1 && m = 2 ^ f.mw - 1 then .nan
    else if e = 0 then .fin ⟨neg, m, 1 - (f.bias : Int) - f.mw⟩
    else .fin ⟨neg, 2 ^ f.mw + m, (e : Int) - f.bias - f.mw⟩ := by
  have hpos := Nat.two_pow_pos f.mw
  have hbit : natBit (f.signed neg c) (f.ew + f.mw) = neg := by
    rw [natBit, Nat.shiftRight_eq_div_pow, ← Fmt.signBit]
    cases neg with
    | false => simp [Fmt.signed, Nat.div_eq_of_lt hc]
    | true => simp [Fmt.signed, Nat.add_div_left _ (by omega : 0 < f.signBit), Nat.div_eq_of_lt hc]
  have hexp : natBits (f.signed neg c) (f.ew + f.mw - 1) f.mw = c / 2 ^ f.mw := by
    have hew := hf.ew_pos
    have hlt : c / 2 ^ f.mw < 2 ^ f.ew := Nat.div_lt_of_lt_mul (by rwa [Nat.mul_comm, ← f.signBit_eq])
    rw [natBits, Nat.shiftRight_eq_div_pow, show f.ew + f.mw - 1 + 1 - f.mw = f.ew by omega]
    cases neg with
    | false => exact Nat.mod_eq_of_lt hlt
    | true =>
      simp only [Fmt.signed, if_true, f.signBit_eq]
      rw [Nat.mul_comm, Nat.mul_add_div hpos, Nat.add_mod_left, Nat.mod_eq_of_lt hlt]
  have hman : f.signed neg c % 2 ^ f.mw = c % 2 ^ f.mw := by
    cases neg with
    | false => rfl
    | true =>
      simp only [Fmt.signed, if_true, f.signBit_eq]
      rw [Nat.mul_comm, Nat.mul_add_mod]
  unfold Fmt.value
  rw [hbit, hexp, hman]

/-- A code up to the largest finite one stands for its magnitude with the sign. -/
theorem Fmt.Sound.value_finite (hle : c ≤ f.maxCode) :
    ∃ d, f.value (f.signed neg c) = .fin d ∧ d.neg = neg ∧ d.real = signOf neg * f.mag c := by
  have hsplit := Nat.div_add_mod' c (2 ^ f.mw)
  have hlast := hf.last
  have hbit := f.signBit_eq
  have hinf : ¬(f.hasInf = true ∧ c / 2 ^ f.mw = 2 ^ f.ew - 1) := by
    rintro ⟨hi, he⟩
    rw [if_pos hi] at hlast
    rw [he] at hsplit
    omega
  have hnan : ¬(f.hasNan = true ∧ f.hasInf = false ∧ c / 2 ^ f.mw = 2 ^ f.ew - 1 ∧ c % 2 ^ f.mw = 2 ^ f.mw - 1) := by
    rintro ⟨hn, hi, he, hm⟩
    have hpow := Nat.two_pow_pos f.mw
    rw [if_neg (by simp [hi]), if_pos hn] at hlast
    rw [he, hm, Nat.sub_mul, ← hbit] at hsplit
    have hle : 2 ^ f.mw ≤ f.signBit := hbit ▸ Nat.le_mul_of_pos_left _ (Nat.two_pow_pos _)
    omega
  rw [hf.value_signed neg hc]
  dsimp only
  rw [if_neg (by simpa using hinf), if_neg (by simpa [and_assoc] using hnan)]
  unfold Fmt.mag Fmt.least
  split
  · exact ⟨_, rfl, rfl, Dy.real_eq _⟩
  · refine ⟨_, rfl, rfl, (Dy.real_eq _).trans ?_⟩
    congr 3
    ring

end

theorem Fmt.Sound.maxCode_succ_lt {f : Fmt} (hf : f.Sound) (h : f.hasInf = true) : f.maxCode + 1 < f.signBit := by
  rw [hf.last, if_pos h, f.signBit_eq]
  exact Nat.mul_lt_mul_of_pos_right (Nat.sub_lt (Nat.two_pow_pos _) Nat.one_pos) (Nat.two_pow_pos _)

theorem Fmt.Sound.value_infinite {f : Fmt} (hf : f.Sound) (neg : Bool) (h : f.hasInf = true) : f.value (infCode f neg) = .inf neg := by
  have hlast := hf.last
  rw [if_pos h] at hlast
  rw [infCode, hf.value_signed neg (hf.maxCode_succ_lt h), hlast, Nat.mul_div_cancel _ (Nat.two_pow_pos _), Nat.mul_mod_left]
  simp [h]

/-- The largest finite value is the magnitude of the largest finite code. -/
theorem Fmt.Sound.top_eq {f : Fmt} (hf : f.Sound) : f.top = f.mag f.maxCode := by
  obtain ⟨d, hd, -, hreal⟩ := hf.value_finite false hf.maxCode_lt le_rfl
  unfold Fmt.top
  have hsigned : f.signed false f.maxCode = f.maxCode := rfl
  rw [hsigned] at hd
  rw [hd]
  simpa [signOf] using hreal

/-! ### `roundDy` (05 R105, R106, R108, R113) -/

/-- The exponent of the last place of a magnitude at a format's precision. -/
def Fmt.unit (f : Fmt) (m : ℕ) (e : ℤ) : ℤ := bitLen m + e - 1 - f.mw

/-- At its own place a magnitude takes one binade's units. -/
theorem Fmt.unit_binade (f : Fmt) {m : ℕ} (hm : m ≠ 0) (e : ℤ) :
    (2 : ℝ) ^ (f.unit m e + f.mw) ≤ m * 2 ^ e ∧ (m : ℝ) * 2 ^ e < 2 ^ (f.unit m e + f.mw + 1) := by
  have hpos := bitLen_pos hm
  have hlo : ((2 ^ (bitLen m - 1) : ℕ) : ℝ) ≤ m := by exact_mod_cast two_pow_bitLen_le hm
  have hhi : (m : ℝ) < ((2 ^ bitLen m : ℕ) : ℝ) := by exact_mod_cast lt_two_pow_bitLen m
  have hlow : f.unit m e + f.mw = (bitLen m - 1 : ℕ) + e := by unfold Fmt.unit; omega
  have hhigh : f.unit m e + f.mw + 1 = bitLen m + e := by unfold Fmt.unit; omega
  rw [hhigh, hlow, zpow_add₀ two_ne_zero, zpow_add₀ two_ne_zero, zpow_natCast, zpow_natCast]
  rw [Nat.cast_pow, Nat.cast_ofNat] at hlo hhi
  exact ⟨by gcongr, by gcongr⟩

/-- A magnitude between two whole numbers of units is rounded to one between them. -/
theorem Rnd.Magnitude.between {mode : Rnd} {neg : Bool} {t : ℝ} {n a b : ℕ} (h : mode.Magnitude neg t n) :
    ((a : ℝ) ≤ t → a ≤ n) ∧ (t ≤ b → n ≤ b) := by
  obtain ⟨hlo, hhi⟩ := abs_lt.mp h.near
  refine ⟨fun ha => ?_, fun hb => ?_⟩
  · have : (a : ℝ) < (n + 1 : ℕ) := by push_cast; linarith
    exact Nat.lt_succ_iff.mp (by exact_mod_cast this)
  · have : (n : ℝ) < (b + 1 : ℕ) := by push_cast; linarith
    exact Nat.lt_succ_iff.mp (by exact_mod_cast this)

/-- The number of units at place `q` to which a mode rounds a dyadic value, without its sign. -/
def Dy.units (mode : Rnd) (d : Dy) (q : ℤ) : ℕ := (roundAt mode d.neg d.m d.e false q).1

section
variable (mode : Rnd) (d : Dy) (q : ℤ)

theorem Dy.magnitude_units : mode.Magnitude d.neg (d.m * 2 ^ (d.e - q)) (d.units mode q) := (roundAt_magnitude ..).1

theorem Dy.scale : (d.m : ℝ) * 2 ^ (d.e - q) * 2 ^ q = d.m * 2 ^ d.e := by
  rw [mul_assoc, ← zpow_add₀ two_ne_zero, sub_add_cancel]

theorem Dy.multiple_units : mode.Multiple q d.real (signOf d.neg * d.units mode q) := by
  have h := (d.magnitude_units mode q).multiple (by positivity) q
  rwa [d.scale, ← Dy.real_eq] at h

/-- The rounding is inexact where its whole number of units is not the value. -/
theorem Dy.inexact_iff : (roundAt mode d.neg d.m d.e false q).2 = true ↔
    ((signOf d.neg * d.units mode q : ℤ) : ℝ) * 2 ^ q ≠ d.real := by
  rw [(roundAt_magnitude ..).2, ← Dy.units, Dy.real_eq, ← d.scale q, Int.cast_mul, mul_assoc, Int.cast_natCast]
  have hsign : (signOf d.neg : ℝ) ≠ 0 := by
    rw [← abs_ne_zero, abs_signOf]
    exact one_ne_zero
  rw [ne_eq, ne_eq, mul_right_inj' hsign, mul_left_inj' (zpow_ne_zero _ two_ne_zero)]

/-- A value of a binade of a format at a place not below its own: at most a binade's units, and at its own place no fewer. -/
theorem Dy.units_bounds (f : Fmt) (hm : d.m ≠ 0) (hq : f.unit d.m d.e ≤ q) :
    d.units mode q ≤ 2 ^ (f.mw + 1) ∧ (q = f.unit d.m d.e → 2 ^ f.mw ≤ d.units mode q) := by
  obtain ⟨hlo, hhi⟩ := f.unit_binade hm d.e
  have hbetween := (d.magnitude_units mode q).between (a := 2 ^ f.mw) (b := 2 ^ (f.mw + 1))
  have hpow : (0 : ℝ) < 2 ^ q := by positivity
  refine ⟨hbetween.2 ?_, fun h => hbetween.1 ?_⟩
  · rw [← mul_le_mul_iff_left₀ hpow, d.scale]
    refine hhi.le.trans ?_
    push_cast
    rw [← zpow_natCast, ← zpow_add₀ two_ne_zero]
    exact zpow_le_zpow_right₀ one_le_two (by push_cast; omega)
  · rw [← mul_le_mul_iff_left₀ hpow, d.scale]
    push_cast
    rw [← zpow_natCast, ← zpow_add₀ two_ne_zero, h, add_comm]
    exact hlo

end

/-- The place of the last digit that a format keeps of a magnitude. -/
def Fmt.place (f : Fmt) (m : ℕ) (e : ℤ) : ℤ := max (f.unit m e) f.least

/-- The code without its sign to which a value is rounded in a format whose codes have no end. -/
def Fmt.roundCode (f : Fmt) (mode : Rnd) (d : Dy) : ℕ :=
  (f.place d.m d.e - f.least).toNat * 2 ^ f.mw + d.units mode (f.place d.m d.e)

/-- A value rounds at the format's precision, its exponent unbounded, to less than the smallest normal (05 R113). -/
def Fmt.tiny (f : Fmt) (mode : Rnd) (d : Dy) : Bool :=
  f.unit d.m d.e + 1 < f.least || (f.unit d.m d.e + 1 == f.least && d.units mode (f.unit d.m d.e) < 2 ^ (f.mw + 1))

section
variable (f : Fmt) (mode : Rnd) (sat : Bool) {d : Dy} (hm : d.m ≠ 0)
include hm

theorem roundDy_of_ne : roundDy f mode sat d =
    if f.maxCode < f.roundCode mode d then ⟨overflow f mode sat d.neg, flOF ||| flNX⟩
    else
      let inexact := (roundAt mode d.neg d.m d.e false (f.place d.m d.e)).2
      ⟨f.signed d.neg (f.roundCode mode d), flIf inexact flNX ||| flIf (inexact && f.tiny mode d) flUF⟩ := by
  unfold roundDy roundTo
  rw [if_neg (by simp [hm])]
  rfl

theorem Fmt.mag_roundCode : f.mag (f.roundCode mode d) = d.units mode (f.place d.m d.e) * 2 ^ f.place d.m d.e := by
  have hplace : f.least + (f.place d.m d.e - f.least).toNat = f.place d.m d.e := by unfold Fmt.place; omega
  obtain ⟨hle, hge⟩ := d.units_bounds mode (f.place d.m d.e) f hm (le_max_left ..)
  rw [Fmt.roundCode, Fmt.mag_place hle, hplace]
  by_cases h : f.place d.m d.e = f.unit d.m d.e
  · exact .inr (hge h)
  · left
    unfold Fmt.place at *
    omega

theorem Fmt.tiny_iff : f.tiny mode d = true ↔
    |((signOf d.neg * d.units mode (f.unit d.m d.e) : ℤ) : ℝ) * 2 ^ f.unit d.m d.e| < 2 ^ (f.least + f.mw) := by
  obtain ⟨hle, hge⟩ := d.units_bounds mode (f.unit d.m d.e) f hm le_rfl
  have hge := hge rfl
  have habs : |((signOf d.neg * d.units mode (f.unit d.m d.e) : ℤ) : ℝ) * 2 ^ f.unit d.m d.e|
      = d.units mode (f.unit d.m d.e) * 2 ^ f.unit d.m d.e := by
    rw [Int.cast_mul, Int.cast_natCast, mul_assoc, abs_mul, abs_signOf, one_mul, abs_of_nonneg (by positivity)]
  rw [habs]
  unfold Fmt.tiny
  generalize d.units mode (f.unit d.m d.e) = k at *
  generalize f.unit d.m d.e = u at *
  have hpow : (0 : ℝ) < 2 ^ u := by positivity
  have hscale (n : ℕ) : ((2 ^ n : ℕ) : ℝ) * 2 ^ u = 2 ^ (n + u : ℤ) := by
    rw [Nat.cast_pow, Nat.cast_ofNat, ← zpow_natCast, ← zpow_add₀ two_ne_zero]
  rcases lt_trichotomy (u + 1) f.least with h | h | h
  · have hlt : (k : ℝ) * 2 ^ u < 2 ^ (f.least + f.mw) :=
      calc (k : ℝ) * 2 ^ u ≤ (2 ^ (f.mw + 1) : ℕ) * 2 ^ u := by gcongr
        _ = 2 ^ ((f.mw + 1 : ℕ) + u : ℤ) := hscale _
        _ < 2 ^ (f.least + f.mw) := zpow_lt_zpow_right₀ one_lt_two (by push_cast; omega)
    simp [h, hlt]
  · have hnext : (2 : ℝ) ^ (f.least + f.mw) = (2 ^ (f.mw + 1) : ℕ) * 2 ^ u := by
      rw [hscale, ← h]
      congr 1
      push_cast
      ring
    rw [hnext, mul_lt_mul_iff_left₀ hpow, Nat.cast_lt]
    simp [h]
  · have hge : (2 : ℝ) ^ (f.least + f.mw) ≤ k * 2 ^ u :=
      calc (2 : ℝ) ^ (f.least + f.mw) ≤ 2 ^ (f.mw + u : ℤ) := zpow_le_zpow_right₀ one_le_two (by omega)
        _ = (2 ^ f.mw : ℕ) * 2 ^ u := (hscale _).symm
        _ ≤ k * 2 ^ u := by gcongr
    simp [h.not_gt, h.ne', hge.not_gt]

end

/-- A mode takes a magnitude beyond the range to infinity (05 R108). -/
def Rnd.away (mode : Rnd) (neg : Bool) : Bool :=
  match mode with
  | .rn => true
  | .rz => false
  | .ru => !neg
  | .rd => neg

theorem overflow_eq (f : Fmt) (mode : Rnd) (sat neg : Bool) : overflow f mode sat neg =
    if sat || !mode.away neg || (!f.hasInf && !f.hasNan) then f.signed neg f.maxCode
    else if f.hasInf then infCode f neg else f.canon := by
  cases mode <;> rfl

theorem Fmt.Sound.overflow_lt {f : Fmt} (hf : f.Sound) (mode : Rnd) (sat neg : Bool) : overflow f mode sat neg < 2 * f.signBit := by
  rw [overflow_eq]
  split
  · exact Fmt.signed_lt neg hf.maxCode_lt
  · split
    · exact Fmt.signed_lt neg (hf.maxCode_succ_lt ‹_›)
    · exact hf.canon_lt

/-- A value other than zero, rounded into one of the seven formats. -/
theorem roundDy_rounded {f : Fmt} (hf : f.Sound) (mode : Rnd) (sat : Bool) {d : Dy} (hm : d.m ≠ 0) :
    f.Rounded mode sat d.real (roundDy f mode sat d) := by
  have hmag : (0 : ℝ) < d.m * 2 ^ d.e := by positivity
  have hneg : d.neg = true ↔ d.real < 0 := by
    rw [Dy.real_eq]
    cases d.neg <;> simp [signOf, hmag, hmag.le]
  have haway : mode.away d.neg = true ↔ mode = .rn ∨ (mode = .ru ∧ 0 < d.real) ∨ (mode = .rd ∧ d.real < 0) := by
    rw [← hneg, Dy.real_eq]
    cases mode <;> cases d.neg <;> simp [Rnd.away, signOf, hmag, hmag.le]
  have hvalue : ((signOf d.neg * d.units mode (f.place d.m d.e) : ℤ) : ℝ) * 2 ^ f.place d.m d.e
      = signOf d.neg * f.mag (f.roundCode mode d) := by
    rw [f.mag_roundCode mode hm, Int.cast_mul, Int.cast_natCast, mul_assoc]
  have hinexact := d.inexact_iff mode (f.place d.m d.e)
  have htiny := f.tiny_iff mode hm
  refine ⟨f.unit d.m d.e, signOf d.neg * d.units mode (f.place d.m d.e), signOf d.neg * d.units mode (f.unit d.m d.e), ?_⟩
  intro least y away
  have hy : y = signOf d.neg * f.mag (f.roundCode mode d) := hvalue
  have habs : |y| = f.mag (f.roundCode mode d) := by
    rw [hy, abs_mul, abs_signOf, one_mul, f.mag_roundCode mode hm, abs_of_nonneg (by positivity)]
  rw [hf.top_eq, habs, f.mag_strictMono.le_iff_le, f.mag_strictMono.lt_iff_lt, Dy.abs_real]
  refine ⟨f.unit_binade hm d.e, d.multiple_units mode _, d.multiple_units mode _, ?code, fun hle => ?finite, fun hlt => ?overflow⟩
  all_goals rw [roundDy_of_ne f mode sat hm]
  case code =>
    split
    · exact hf.overflow_lt mode sat d.neg
    · exact Fmt.signed_lt _ ((Nat.le_of_not_lt ‹_›).trans_lt hf.maxCode_lt)
  case finite =>
    rw [if_neg hle.not_gt]
    obtain ⟨v, hv, hvneg, hvreal⟩ := hf.value_finite d.neg (hle.trans_lt hf.maxCode_lt) hle
    refine ⟨⟨v, hv, hvreal.trans hy.symm, by rw [hvneg, hneg]⟩, fun he => ?_, fun hne hsmall => ?_, fun hne hbig => ?_⟩
    · have hexact : (roundAt mode d.neg d.m d.e false (f.place d.m d.e)).2 = false := by
        rw [← Bool.not_eq_true, hinexact]
        exact not_not.mpr he
      simp [hexact, flIf]
    · simp [hinexact.mpr hne, htiny.mpr hsmall, flIf, BitVec.or_comm]
    · have hlarge : f.tiny mode d = false := by
        rw [← Bool.not_eq_true, htiny]
        exact hbig.not_gt
      simp [hinexact.mpr hne, hlarge, flIf]
  case overflow =>
    rw [if_pos hlt]
    dsimp only
    rw [overflow_eq]
    refine ⟨rfl, fun hs ha hi => ⟨d.neg, ?_, hneg⟩, fun hs ha hi hn => ?_, fun h => ?_⟩
    · simpa [hs, haway.mpr ha, hi] using hf.value_infinite d.neg hi
    · simp [hs, haway.mpr ha, hi, hn]
    · have hstop : (sat || !mode.away d.neg || (!f.hasInf && !f.hasNan)) = true := by
        rcases h with h | h | h
        · simp [h]
        · simp [Bool.eq_false_iff.mpr fun ha => h (haway.mp ha)]
        · simp [h]
      obtain ⟨v, hv, hvneg, hvreal⟩ := hf.value_finite d.neg hf.maxCode_lt le_rfl
      rw [if_pos hstop]
      refine ⟨v, hv, ?_, by rw [hvneg, hneg]⟩
      have hnonneg : 0 ≤ f.mag f.maxCode := by
        unfold Fmt.mag
        split <;> positivity
      rw [hvreal, abs_mul, abs_signOf, one_mul, abs_of_nonneg hnonneg]

theorem roundDy_zero (f : Fmt) (mode : Rnd) (sat : Bool) {d : Dy} (hm : d.m = 0) : roundDy f mode sat d = ⟨f.signed d.neg 0, 0⟩ := by
  unfold roundDy roundTo
  rw [if_pos (by simp [hm])]

end Sys2Proof.Machine
end

section
/-! SUPPORT. The family Matrix: cells written and events recorded lane by lane, and the moves between accumulators, vector registers and
ASTAT (06 R130, R131, R141 to R145; 21 R328 to R331). -/

namespace Sys2Proof.Machine

/-! ### Cells and events (06 R130, R131) -/

/-- Cells in the rows of some lanes, numbered by `ns` and each in its column, with their new words. -/
def accCells (a : Nat) (lanes ns : List Nat) (col : Nat → Nat) (val : Nat → Nat → Word) : List (Nat × Word) :=
  lanes.flatMap fun l => ns.map fun n => (accKey a l (col n), val l n)

theorem accKey_inj {a l m n k : Nat} (hn : n < 192) (hm : m < 192) (h : accKey a l n = accKey a k m) : l = k ∧ n = m := by
  unfold accKey at h
  omega

/-- The cells of lanes one after another are those of all lanes. -/
theorem foldl_ssetAll (a : Nat) (lanes ns : List Nat) (col : Nat → Nat) (val : Nat → Nat → Word) (m : Sparse 32) :
    lanes.foldl (fun m l => ssetAll m (ns.map fun n => (accKey a l (col n), val l n))) m = ssetAll m (accCells a lanes ns col val) := by
  rw [accCells, ssetAll, List.foldl_flatMap]
  rfl

section
variable {a : Nat} {lanes ns : List Nat} {col : Nat → Nat} (val : Nat → Nat → Word) (m : Sparse 32)

/-- Every other cell stays. -/
theorem sget_accCells_of_ne {k : Nat} (h : ∀ l ∈ lanes, ∀ n ∈ ns, k ≠ accKey a l (col n)) :
    sget (ssetAll m (accCells a lanes ns col val)) k = sget m k := by
  refine sget_ssetAll_of_not_mem m fun x hx => ?_
  obtain ⟨l, hl, hx⟩ := List.mem_flatMap.mp hx
  obtain ⟨n, hn, rfl⟩ := List.mem_map.mp hx
  exact (h l hl n hn).symm

variable (hl : lanes.Nodup) (hn : ns.Nodup) (h192 : ∀ n ∈ ns, col n < 192) (hcol : ∀ n ∈ ns, ∀ k ∈ ns, col n = col k → n = k)
include hl hn h192 hcol

theorem accCells_nodup : ((accCells a lanes ns col val).map (·.1)).Nodup := by
  rw [accCells, List.map_flatMap, List.nodup_flatMap]
  simp only [List.map_map]
  refine ⟨fun l _ => hn.map_on fun n hn m hm h => ?_, hl.imp fun {l k} hlk x hx hy => ?_⟩
  · exact hcol n hn m hm (accKey_inj (h192 n hn) (h192 m hm) h).2
  · obtain ⟨n, hn, rfl⟩ := List.mem_map.mp hx
    obtain ⟨m, hm, h⟩ := List.mem_map.mp hy
    exact hlk (accKey_inj (h192 m hm) (h192 n hn) h).1.symm

/-- A cell that is written reads as its word. -/
theorem sget_accCells {l n : Nat} (h : l ∈ lanes) (hmem : n ∈ ns) :
    sget (ssetAll m (accCells a lanes ns col val)) (accKey a l (col n)) = val l n :=
  sget_ssetAll_of_mem m (accCells_nodup val hl hn h192 hcol) (List.mem_flatMap.mpr ⟨l, h, List.mem_map.mpr ⟨n, hmem, rfl⟩⟩)

end

/-- Status words with more events in the word of accumulator `a`. -/
def orAll (a : Nat) (v : Sparse 32) (evs : List (BitVec 5)) : Sparse 32 :=
  evs.foldl (fun v ev => sset v a (sget v a ||| ev.setWidth 32)) v

theorem sget_orAll_of_ne {a x : Nat} (h : x ≠ a) (v : Sparse 32) (evs : List (BitVec 5)) : sget (orAll a v evs) x = sget v x := by
  unfold orAll
  induction evs generalizing v with
  | nil => rfl
  | cons ev evs ih => rw [List.foldl_cons, ih, sget_sset_of_ne _ _ h]

theorem mbit_or {w : Nat} (p q : BitVec w) (j : Nat) : mbit (p ||| q) j = (mbit p j || mbit q j) := BitVec.getLsbD_or

theorem mbit_setWidth {w : Nat} (n : Nat) (p : BitVec w) (j : Nat) : mbit (p.setWidth n) j = (decide (j < n) && mbit p j) :=
  BitVec.getLsbD_setWidth ..

/-- Each event is in the word, and what was there before. -/
theorem mbit_orAll (a : Nat) (v : Sparse 32) (evs : List (BitVec 5)) {j : Nat} (hj : j < 32) :
    mbit (sget (orAll a v evs) a) j = true ↔ mbit (sget v a) j = true ∨ ∃ ev ∈ evs, mbit ev j = true := by
  unfold orAll
  induction evs generalizing v with
  | nil => simp
  | cons ev evs ih =>
    rw [List.foldl_cons, ih, sget_sset_self, mbit_or, mbit_setWidth]
    simp [hj, or_assoc]

theorem mbit_raised {ls : List Nat} {fl : Nat → BitVec 5} {j : Nat} : mbit (raised ls fl) j = true ↔ ∃ l ∈ ls, mbit (fl l) j = true := by
  induction ls with
  | nil => simp [raised, mbit]
  | cons l ls ih =>
    have h : raised (l :: ls) fl = fl l ||| raised ls fl := by simpa [raised] using raised_append [l] ls fl
    rw [h, mbit_or, Bool.or_eq_true, ih]
    simp

/-! ### A move of the active lanes of a gang (03 R72; 06 R134) -/

/-- What a move writes for one lane: registers, cells, events of its accumulator, and places of the scoreboard. -/
structure LaneMove where
  vregs : Nat → Sparse 32 → Sparse 32 := fun _ v => v
  acc : Nat → Sparse 32 → Sparse 32 := fun _ v => v
  events : Nat → List (BitVec 5) := fun _ => []
  places : List PendWrite

/-- The move of some lanes, one after another. -/
def LaneMove.run (m : LaneMove) (a : Nat) (lanes : List Nat) (r : Crew) : Crew :=
  { r with
    vregs := lanes.foldl (fun v l => m.vregs l v) r.vregs
    acc := lanes.foldl (fun v l => m.acc l v) r.acc
    astat := orAll a r.astat (lanes.flatMap m.events)
    pend := lanes.foldl (fun p _ => p ++ m.places.filter fun x => !p.contains x) r.pend }

theorem LaneMove.run_cons (m : LaneMove) (a l : Nat) (lanes : List Nat) (r : Crew) : m.run a (l :: lanes) r = m.run a lanes (m.run a [l] r) := by
  simp [LaneMove.run, orAll, List.foldl_append]

theorem LaneMove.foldl_run (m : LaneMove) (a : Nat) (lanes : List Nat) (r : Crew) :
    lanes.foldl (fun r l => m.run a [l] r) r = m.run a lanes r := by
  induction lanes generalizing r with
  | nil => rfl
  | cons l lanes ih => rw [List.foldl_cons, ih, ← LaneMove.run_cons]

/-- The crew after a move by the active lanes of some slices, which go on. -/
def Crew.afterMove (c : Crew) (m : LaneMove) (a : Nat) (ops : List VOp) (is : List Nat) (len : Nat) (r : Crew) : Crew :=
  { m.run a (c.activeIn is) r with xofs := advanceAll c ops is r.xofs, slices := advSlices r.slices is len }

/-- The slices of a gang move one by one. -/
theorem Crew.foldl_afterMove (c : Crew) (m : LaneMove) (a : Nat) (ops : List VOp) (len : Nat) (is : List Nat) (r : Crew)
    (hr : r.xuni = c.xuni) :
    is.foldl (fun r i => ((m.run a (c.activeOf i) r).postAdvance (c.activeOf i) ops).advance [i] len) r
      = c.afterMove m a ops is len r := by
  induction is generalizing r with
  | nil => rfl
  | cons i is ih =>
    rw [List.foldl_cons, advance_slices, postAdvance_eq, ih _ (by exact hr)]
    have hin : c.activeIn (i :: is) = c.activeOf i ++ c.activeIn is := rfl
    simp [Crew.afterMove, LaneMove.run, hin, orAll, List.foldl_append, advanceAll, advSlices, hr]

section
variable {s : State} {iss : Issue} {c : Crew} (hi : s.issue = some iss) (hc : aget s.crews iss.crew = some c) {x : Instr} {a : Nat}
  {ops : List VOp} {effect : Crew → Crew → Nat → Crew} (h : exec x s = withIssue s fun s iss => accInstr s iss a ops effect)
include hi hc h

/-- A gang whose names pass moves to or from an accumulator that the crew has. -/
theorem exec_of_accInstr (hk : a < c.k) (hn : c.NamesOk iss ops) {m : LaneMove} (hm : ∀ r l, effect c r l = m.run a [l] r) :
    exec x s = .next (s.taken.setCrew iss.crew (c.afterMove m a ops iss.slices iss.len c)) := by
  have hct : aget s.taken.crews iss.crew = some c := hc
  rw [h, withIssue_of hi, accInstr, State.crew_of_aget hct, ← Crew.foldl_afterMove c m a ops iss.len iss.slices c rfl,
    ← State.foldl_modCrew hct]
  refine congrArg _ (List.foldl_ext _ _ s.taken fun u i hi => ?_)
  rw [hn i hi]
  dsimp only
  rw [if_neg (Nat.not_le.mpr hk)]
  simp only [funext₂ hm, LaneMove.foldl_run]

/-- An accumulator beyond the crew's count. -/
theorem exec_of_accInstr_beyond {i : Nat} (hk : c.k ≤ a) (hn : c.nameFault i ops = none) (hs : iss.slices = [i]) :
    exec x s = .next (s.taken.raiseAll iss.crew iss.slices (iss.trap 0x0D 0 0)) := by
  have hct : aget s.taken.crews iss.crew = some c := hc
  rw [h, withIssue_of hi, accInstr, hs, State.crew_of_aget hct, List.foldl_cons, List.foldl_nil, hn]
  exact congrArg _ (if_pos hk)

end

/-- What a move leaves alone, and how its gang goes on. -/
theorem Crew.afterMove_frame (c : Crew) (m : LaneMove) (a : Nat) (ops : List VOp) {is : List Nat} (hn : is.Nodup) (len : Nat) :
    c.OffsetsMoved (c.afterMove m a ops is len c) (c.activeIn is) ops ∧ c.Moved (c.afterMove m a ops is len c) is len
      ∧ { c.afterMove m a ops is len c with vregs := c.vregs, acc := c.acc, astat := c.astat, xofs := c.xofs, pend := c.pend, slices := c.slices } = c :=
  ⟨Crew.offsetsMoved_of_xofs hn rfl, moved_advSlices c hn len _ rfl, rfl⟩

/-! ### The six moves (06 R141 to R145) -/

/-- Cells written one after another, each with its events. -/
theorem foldl_orStat_sset (a : Nat) (key : Nat → Nat) (word : Nat → Word) (ev : Nat → BitVec 5) (ns : List Nat) (r : Crew) :
    ns.foldl (fun r n => { (r.orStat a (ev n)) with acc := sset r.acc (key n) (word n) }) r
      = { r with acc := ssetAll r.acc (ns.map fun n => (key n, word n)), astat := orAll a r.astat (ns.map ev) } := by
  induction ns generalizing r with
  | nil => rfl
  | cons n ns ih =>
    rw [List.foldl_cons, ih]
    rfl

/-- The conversion of ACCRD and ACCWR. -/
def accConv (f : FmtA) (x : Nat) : CvtRes :=
  convertAs (Ty.ofCode .f32 f.p.dt) (Ty.ofCode .f32 f.p.st) (Rnd.ofField f.p.rnd) f.p.sat x

/-- ACCZ in a lane. -/
def acczMove (a : Nat) : LaneMove := { acc := fun l v => sclear v (accKey a l 0) (accKey a l 192), places := [.acc a] }

/-- ACCRD in a lane: what it reads of a cell, converted. -/
def accrdMove (c : Crew) (f : FmtA) (d : VOp) : LaneMove :=
  let cell (l i : Nat) : CvtRes := accConv f (sget c.acc (accKey f.a.toNat l (32 * f.b.toNat + i))).toNat
  { vregs := fun l => vputV c d l ((List.range 32).map fun i => BitVec.ofNat 32 (cell l i).code)
    events := fun l => [raised (List.range 32) fun i => (cell l i).events]
    places := [c.pendOf d, .acc f.a.toNat] }

/-- ACCRD.STAT in a lane. -/
def accrdStatMove (c : Crew) (f : FmtA) (d : VOp) : LaneMove :=
  { vregs := fun l => vputV c d l [sget c.astat f.a.toNat], places := [c.pendOf d, .acc f.a.toNat] }

/-- ACCWR in a lane: what it reads of a register, converted. -/
def accwrMove (c : Crew) (f : FmtA) (n : VOp) : LaneMove :=
  let reg (l i : Nat) : CvtRes := accConv f (c.vget n l i).toNat
  { acc := fun l v => ssetAll v ((List.range 32).map fun i => (accKey f.d.toNat l (32 * f.b.toNat + i), BitVec.ofNat 32 (reg l i).code))
    events := fun l => (List.range 32).map fun i => (reg l i).events
    places := [.acc f.d.toNat] }

/-- ACCWR.STAT in a lane. -/
def accwrStatMove (c : Crew) (f : FmtA) (n : VOp) : LaneMove :=
  { events := fun l => [(c.vget n l 0).setWidth 5], places := [.acc f.d.toNat] }

section
variable {s : State} {iss : Issue} {c : Crew} (hi : s.issue = some iss) (hc : aget s.crews iss.crew = some c) (f : FmtA)
include hi hc

theorem exec_accz (hk : f.d.toNat < c.k) : exec (.accz f) s
    = .next (s.taken.setCrew iss.crew (c.afterMove (acczMove f.d.toNat) f.d.toNat [] iss.slices iss.len c)) :=
  exec_of_accInstr (x := .accz f) hi hc (Eq.refl (execAccz f s)) hk (fun _ _ => rfl) fun _ _ => rfl

theorem exec_accrd {d : VOp} (hd : d = { pos := 0, field := f.d.toNat, n := 32 }) (hk : f.a.toNat < c.k) (hn : c.NamesOk iss [d]) :
    exec (.accrd f) s = .next (s.taken.setCrew iss.crew (c.afterMove (accrdMove c f d) f.a.toNat [d] iss.slices iss.len c)) := by
  subst hd
  refine exec_of_accInstr (x := .accrd f) hi hc (Eq.refl (execAccrd f s)) hk hn fun r l => ?_
  dsimp only
  rw [vput_eq, List.foldl_map, List.map_map]
  rfl

theorem exec_accrdStat {d : VOp} (hd : d = { pos := 0, field := f.d.toNat, n := 1 }) (hk : f.a.toNat < c.k) (hn : c.NamesOk iss [d]) :
    exec (.accrdStat f) s = .next (s.taken.setCrew iss.crew (c.afterMove (accrdStatMove c f d) f.a.toNat [d] iss.slices iss.len c)) := by
  subst hd
  refine exec_of_accInstr (x := .accrdStat f) hi hc (Eq.refl (execAccrdStat f s)) hk hn fun r l => ?_
  rw [vput_eq]
  rfl

theorem exec_accwr {n : VOp} (hd : n = { pos := 1, field := f.a.toNat, n := 32 }) (hk : f.d.toNat < c.k) (hn : c.NamesOk iss [n]) :
    exec (.accwr f) s = .next (s.taken.setCrew iss.crew (c.afterMove (accwrMove c f n) f.d.toNat [n] iss.slices iss.len c)) := by
  subst hd
  refine exec_of_accInstr (x := .accwr f) hi hc (Eq.refl (execAccwr f s)) hk hn fun r l => (foldl_orStat_sset ..).trans ?_
  simp only [LaneMove.run, accwrMove, List.flatMap_cons, List.flatMap_nil, List.append_nil]
  rfl

theorem exec_accwrStat {n : VOp} (hd : n = { pos := 1, field := f.a.toNat, n := 1 }) (hk : f.d.toNat < c.k) (hn : c.NamesOk iss [n]) :
    exec (.accwrStat f) s = .next (s.taken.setCrew iss.crew (c.afterMove (accwrStatMove c f n) f.d.toNat [n] iss.slices iss.len c)) := by
  subst hd
  exact exec_of_accInstr (x := .accwrStat f) hi hc (Eq.refl (execAccwrStat f s)) hk hn fun _ _ => rfl

theorem exec_accst_of_le (hk : c.k ≤ f.a.toNat) :
    exec (.accst f) s = .next (s.taken.raiseAll iss.crew iss.slices (iss.trap 0x0D 0 0)) := by
  have hcrew : s.taken.crew iss.crew = c := State.crew_of_aget (s := s.taken) hc
  change execAccst f s = _
  rw [execAccst, withIssue_of hi]
  refine congrArg _ ?_
  dsimp only
  rw [hcrew, if_pos hk]
  rfl

theorem exec_accst (hk : f.a.toNat < c.k) : exec (.accst f) s = .next (s.taken.setCrew iss.crew
    (Crew.advance { c.setSreg f.d.toNat ((sget c.astat f.a.toNat).setWidth 64) with
      astat := if f.b = 1 then sset c.astat f.a.toNat 0 else c.astat } iss.slices iss.len)) := by
  have hcrew : s.taken.crew iss.crew = c := State.crew_of_aget (s := s.taken) hc
  change execAccst f s = _
  rw [execAccst, withIssue_of hi]
  refine congrArg _ ?_
  dsimp only
  rw [hcrew, if_neg (Nat.not_le.mpr hk), State.modCrew_of_aget (s := s.taken) hc]
  by_cases hb : f.b = 1
  · rw [if_pos hb, if_pos hb]
    rfl
  · rw [if_neg hb, if_neg hb]
    rfl

end

/-- Zeroing the rows of some lanes. -/
theorem sget_foldl_sclear (a : Nat) {lanes : List Nat} (h32 : ∀ l ∈ lanes, l < 32) (v : Sparse 32) (k : Nat) :
    sget (lanes.foldl (fun v l => sclear v (accKey a l 0) (accKey a l 192)) v) k
      = if 6144 * a ≤ k ∧ k < 6144 * (a + 1) ∧ k % 6144 / 192 ∈ lanes then 0 else sget v k := by
  induction lanes generalizing v with
  | nil => simp
  | cons l lanes ih =>
    have hl := h32 l (by simp)
    have hrow : accKey a l 0 ≤ k ∧ k < accKey a l 192 ↔ 6144 * a ≤ k ∧ k < 6144 * (a + 1) ∧ k % 6144 / 192 = l := by
      unfold accKey
      omega
    rw [List.foldl_cons, ih (fun m hm => h32 m (by simp [hm])), sget_sclear]
    simp only [hrow, List.mem_cons]
    by_cases hin : 6144 * a ≤ k ∧ k < 6144 * (a + 1)
    · by_cases hk : k % 6144 / 192 ∈ lanes
      · simp [hin, hk]
      · simp [hin, hk]
    · rw [if_neg (by tauto), if_neg (by tauto), if_neg (by tauto)]

section
variable (c : Crew) {m : LaneMove} (a : Nat) (ops : List VOp) (is : List Nat) (len : Nat) (r : Crew)

theorem Crew.afterMove_vregs (h : m.vregs = fun _ v => v) : (c.afterMove m a ops is len r).vregs = r.vregs := by
  refine Eq.trans ?_ (foldl_eq_of_fixed (g := fun v (_ : Nat) => v) (l := c.activeIn is) (fun _ _ _ => rfl) r.vregs)
  rw [Crew.afterMove, LaneMove.run, h]

theorem Crew.afterMove_acc (h : m.acc = fun _ v => v) : (c.afterMove m a ops is len r).acc = r.acc := by
  refine Eq.trans ?_ (foldl_eq_of_fixed (g := fun v (_ : Nat) => v) (l := c.activeIn is) (fun _ _ _ => rfl) r.acc)
  rw [Crew.afterMove, LaneMove.run, h]

theorem Crew.afterMove_astat (h : m.events = fun _ => []) : (c.afterMove m a ops is len r).astat = r.astat := by
  rw [Crew.afterMove, LaneMove.run, h, List.flatMap_eq_nil_iff.mpr fun _ _ => rfl]
  rfl

/-- The events of the lanes are in ASTAT, and no other word has changed. -/
theorem Crew.afterMove_stat {P : Nat → Prop} (h : ∀ j, (∃ l ∈ c.activeIn is, ∃ ev ∈ m.events l, mbit ev j = true) ↔ P j) :
    (∀ j, j < 32 → (mbit (sget (c.afterMove m a ops is len r).astat a) j = true ↔ mbit (sget r.astat a) j = true ∨ P j))
      ∧ ∀ x, x ≠ a → sget (c.afterMove m a ops is len r).astat x = sget r.astat x := by
  refine ⟨fun j hj => ?_, fun x hx => sget_orAll_of_ne hx ..⟩
  rw [← h, Crew.afterMove, LaneMove.run, mbit_orAll _ _ _ hj]
  simp only [List.mem_flatMap]
  refine or_congr_right ⟨?_, ?_⟩
  · rintro ⟨ev, ⟨l, hl, hev⟩, hbit⟩
    exact ⟨l, hl, ev, hev, hbit⟩
  · rintro ⟨l, hl, ev, hev, hbit⟩
    exact ⟨ev, ⟨l, hl, hev⟩, hbit⟩

end

/-- A bit of a word of events: those of the conversion (06 R142). -/
theorem mbit_events {r : CvtRes} {j : Nat} (hj : j < 5) : mbit r.events j = true ↔
    (j ∈ [0, 2, 4] ∧ mbit r.fl j = true) ∨ (j = 3 ∧ r.nanIn = true) ∨ (j = 1 ∧ r.clamped = true) := by
  obtain ⟨code, fl, n, cl⟩ := r
  unfold CvtRes.events
  rw [mbit_or, mbit_or, mbit_and]
  have h : j = 0 ∨ j = 1 ∨ j = 2 ∨ j = 3 ∨ j = 4 := by omega
  rcases h with rfl | rfl | rfl | rfl | rfl
  all_goals cases n <;> cases cl <;> simp [flIf, mbit]

/-- Settles O39: each move by what it writes in a lane. -/
theorem accumulatorMovesAreExact : Obligations.AccumulatorMovesAreExact := by
  unfold Obligations.AccumulatorMovesAreExact
  intro conv same only stat
  refine ⟨fun f s iss c hi hc => ?moves, fun f s iss c i a x ops hi hc hone hmem hk hn => ?beyond, fun f x fd fs hd hs => ?conversion⟩
  case moves =>
    intro d32 d1 a32 a1 lanes col
    have hnodup := iss.slices_nodup
    have h32 : ∀ l ∈ lanes, l < 32 := fun l hl => active_lt (mem_activeIn.mp hl).2
    refine ⟨fun hk => ⟨_, onlyCrew_of (exec_accz hi hc f hk), ?_⟩, fun hk hn => ⟨_, onlyCrew_of (exec_accrd hi hc f rfl hk hn), ?_⟩,
      fun hk hn => ⟨_, onlyCrew_of (exec_accrdStat hi hc f rfl hk hn), ?_⟩,
      fun hk hb hn => ⟨_, onlyCrew_of (exec_accwr hi hc f rfl hk hn), ?_⟩,
      fun hk hn => ⟨_, onlyCrew_of (exec_accwrStat hi hc f rfl hk hn), ?_⟩, fun hk => ⟨_, onlyCrew_of (exec_accst hi hc f hk), ?_⟩⟩
    · exact ⟨sget_foldl_sclear f.d.toNat h32 c.acc, c.afterMove_astat _ _ _ _ c rfl, c.afterMove_vregs _ _ _ _ c rfl,
        c.afterMove_frame _ _ _ hnodup _⟩
    · refine ⟨Crew.vecWritten_of_vregs hnodup rfl, c.afterMove_stat _ _ _ _ c fun j => ?_, c.afterMove_acc _ _ _ _ c rfl,
        c.afterMove_frame _ _ _ hnodup _⟩
      simp only [accrdMove, List.mem_singleton, exists_eq_left, mbit_raised, List.mem_range]
      rfl
    · exact ⟨Crew.vecWritten_of_vregs hnodup rfl, c.afterMove_astat _ _ _ _ c rfl, c.afterMove_acc _ _ _ _ c rfl,
        c.afterMove_frame _ _ _ hnodup _⟩
    · have hb : f.b.toNat < 6 := hb
      have hcell : (c.afterMove (accwrMove c f a32) f.d.toNat [a32] iss.slices iss.len c).acc
          = ssetAll c.acc (accCells f.d.toNat lanes (List.range 32) col fun l i =>
              BitVec.ofNat 32 (conv f (c.vreg (c.phys a32 l i) l).toNat).code) := foldl_ssetAll ..
      have h192 : ∀ i ∈ List.range 32, col i < 192 := fun i hi => by
        have := List.mem_range.mp hi
        change 32 * f.b.toNat + i < 192
        omega
      have hcol : ∀ i ∈ List.range 32, ∀ j ∈ List.range 32, col i = col j → i = j := fun i _ j _ h => Nat.add_left_cancel h
      refine ⟨fun l hl i hi => ?_, fun k hk => ?_, c.afterMove_stat _ _ _ _ c fun j => ?_, c.afterMove_vregs _ _ _ _ c rfl,
        c.afterMove_frame _ _ _ hnodup _⟩
      · rw [hcell]
        exact sget_accCells _ _ (activeIn_nodup c hnodup) List.nodup_range h192 hcol hl (List.mem_range.mpr hi)
      · rw [hcell]
        exact sget_accCells_of_ne _ _ fun l hl i hi => hk l hl i (List.mem_range.mp hi)
      · simp only [accwrMove, List.mem_map, List.mem_range, exists_exists_and_eq_and]
        rfl
    · refine ⟨c.afterMove_stat _ _ _ _ c fun j => ?_, c.afterMove_vregs _ _ _ _ c rfl, c.afterMove_acc _ _ _ _ c rfl,
        c.afterMove_frame _ _ _ hnodup _⟩
      simp only [accwrStatMove, List.mem_singleton, exists_eq_left, mbit_setWidth, Bool.and_eq_true, decide_eq_true_eq]
      exact ⟨fun ⟨l, hl, hj, h⟩ => ⟨hj, l, hl, h⟩, fun ⟨hj, l, hl, h⟩ => ⟨l, hl, hj, h⟩⟩
    · rw [advance_slices]
      refine ⟨Crew.sreg_setSreg_self .., fun q hq => Crew.sreg_setSreg_of_ne _ _ hq, fun x => ?_, moved_advSlices c hnodup _ _ rfl, rfl⟩
      dsimp only
      by_cases hb : f.b = 1
      · rw [if_pos hb, sget_sset]
        simp [hb]
      · rw [if_neg hb, if_neg fun h => hb h.1]
  case beyond =>
    simp only [List.mem_cons, Prod.mk.injEq, List.not_mem_nil, or_false] at hmem
    rcases hmem with ⟨rfl, rfl, rfl⟩ | ⟨rfl, rfl, rfl⟩ | ⟨rfl, rfl, rfl⟩ | ⟨rfl, rfl, rfl⟩ | ⟨rfl, rfl, rfl⟩ | ⟨rfl, rfl, rfl⟩
    · exact exec_of_accInstr_beyond (x := .accz f) hi hc (Eq.refl (execAccz f s)) hk hn (hone.resolve_left nofun)
    · exact exec_of_accInstr_beyond (x := .accrd f) hi hc (Eq.refl (execAccrd f s)) hk hn (hone.resolve_left nofun)
    · exact exec_of_accInstr_beyond (x := .accrdStat f) hi hc (Eq.refl (execAccrdStat f s)) hk hn (hone.resolve_left nofun)
    · exact exec_of_accInstr_beyond (x := .accwr f) hi hc (Eq.refl (execAccwr f s)) hk hn (hone.resolve_left nofun)
    · exact exec_of_accInstr_beyond (x := .accwrStat f) hi hc (Eq.refl (execAccwrStat f s)) hk hn (hone.resolve_left nofun)
    · exact exec_accst_of_le hi hc f hk
  case conversion =>
    have hconv : conv f x = ⟨(convertTo fd (Rnd.ofField f.p.rnd) f.p.sat (fs.value (x % 2 ^ (Ty.ofCode .f32 f.p.st).width))).code,
        (convertTo fd (Rnd.ofField f.p.rnd) f.p.sat (fs.value (x % 2 ^ (Ty.ofCode .f32 f.p.st).width))).fl,
        fs.value (x % 2 ^ (Ty.ofCode .f32 f.p.st).width) == .nan, false⟩ := by
      simp only [conv, convertAs, hd, hs]
    dsimp only
    rw [hconv]
    refine ⟨rfl, fun j hj => ?_⟩
    rw [mbit_events hj]
    simp

end Sys2Proof.Machine
end

section
/-! SUPPORT. The family Matrix: one cell of a pass, float and integer (06 R129, R135, R136). -/

namespace Sys2Proof.Machine

/-! ### Products (06 R135) -/

/-- The real number of a finite value. -/
noncomputable def FVal.real : FVal → ℝ
  | .fin d => d.real
  | .inf _ | .nan => 0

/-- The sign of a product. -/
def signs (vs : List FVal) : Bool := vs.foldl (fun x v => x != v.neg) false

theorem signs_cons (v : FVal) (vs : List FVal) : signs (v :: vs) = (v.neg != signs vs) := by
  have hfrom (b : Bool) : vs.foldl (fun x v => x != v.neg) b = (b != signs vs) := by
    unfold signs
    induction vs generalizing b with
    | nil => cases b <;> rfl
    | cons w vs ih =>
      rw [List.foldl_cons, List.foldl_cons, ih, ih (false != w.neg)]
      cases b <;> simp
  rw [signs, List.foldl_cons, hfrom]
  simp

/-- A zero is among the values. -/
def HasZero (vs : List FVal) : Prop := ∃ d : Dy, .fin d ∈ vs ∧ d.m = 0

/-- An infinity is among the values. -/
def HasInf (vs : List FVal) : Prop := ∃ x, .inf x ∈ vs

theorem hasZero_cons {v : FVal} {vs : List FVal} : HasZero (v :: vs) ↔ (∃ d, v = .fin d ∧ d.m = 0) ∨ HasZero vs := by
  simp only [HasZero, List.mem_cons, or_and_right, exists_or]
  refine or_congr_left (exists_congr fun d => and_congr_left' eq_comm)

theorem hasInf_cons {v : FVal} {vs : List FVal} : HasInf (v :: vs) ↔ (∃ x, v = .inf x) ∨ HasInf vs := by
  simp only [HasInf, List.mem_cons, exists_or]
  exact or_congr_left (exists_congr fun x => eq_comm)

/-- What a product of numbers is: none where it is 0 × ∞, an infinity with the sign, or the exact product. -/
def IsProduct (vs : List FVal) (p : Option FVal) : Prop :=
  (HasInf vs → HasZero vs → p = none) ∧ (HasInf vs → ¬HasZero vs → p = some (.inf (signs vs)))
    ∧ (¬HasInf vs → ∃ d, p = some (.fin d) ∧ d.real = (vs.map FVal.real).prod ∧ d.neg = signs vs ∧ (d.m = 0 ↔ HasZero vs))

theorem isProduct_inf_cons (x : Bool) {vs : List FVal} {p : Option FVal} (h : IsProduct vs p) :
    IsProduct (.inf x :: vs) (p.bind (fprod (.inf x))) := by
  obtain ⟨hnone, hinf, hfin⟩ := h
  have hzero : HasZero (.inf x :: vs) ↔ HasZero vs := by simp [hasZero_cons]
  have hinfty : HasInf (.inf x :: vs) := hasInf_cons.mpr (.inl ⟨x, rfl⟩)
  unfold IsProduct
  rw [hzero, signs_cons]
  refine ⟨fun _ hz => ?_, fun _ hz => ?_, fun h => absurd hinfty h⟩
  · by_cases hi : HasInf vs
    · rw [hnone hi hz]
      rfl
    · obtain ⟨d, rfl, -, -, hd⟩ := hfin hi
      exact if_pos (hd.mpr hz)
  · by_cases hi : HasInf vs
    · rw [hinf hi hz]
      rfl
    · obtain ⟨d, rfl, -, hneg, hd⟩ := hfin hi
      rw [← hneg]
      exact if_neg (hd.not.mpr hz)

theorem isProduct_fin_cons (e : Dy) {vs : List FVal} {p : Option FVal} (h : IsProduct vs p) :
    IsProduct (.fin e :: vs) (p.bind (fprod (.fin e))) := by
  obtain ⟨hnone, hinf, hfin⟩ := h
  have hzero : HasZero (.fin e :: vs) ↔ e.m = 0 ∨ HasZero vs := by simp [hasZero_cons]
  have hinfty : HasInf (.fin e :: vs) ↔ HasInf vs := by simp [hasInf_cons]
  unfold IsProduct
  rw [hzero, hinfty, signs_cons]
  refine ⟨fun hi hz => ?_, fun hi hz => ?_, fun hi => ?_⟩
  · by_cases hz' : HasZero vs
    · rw [hnone hi hz']
      rfl
    · rw [hinf hi hz']
      exact if_pos (hz.resolve_right hz')
  · rw [not_or] at hz
    rw [hinf hi hz.2, bne_comm]
    exact if_neg hz.1
  · obtain ⟨d, rfl, hreal, hneg, hd⟩ := hfin hi
    refine ⟨e.mul d, rfl, ?_, ?_, ?_⟩
    · rw [Dy.real_mul, hreal]
      rfl
    · rw [← hneg]
      rfl
    · rw [← hd]
      exact Nat.mul_eq_zero

theorem isProduct_product {vs : List FVal} (h : FVal.nan ∉ vs) : IsProduct vs (product vs) := by
  induction vs with
  | nil =>
    refine ⟨?_, ?_, fun _ => ⟨_, rfl, ?_, rfl, ?_⟩⟩
    · simp [HasInf]
    · simp [HasInf]
    · simp [Dy.real]
    · simp [HasZero]
  | cons v vs ih =>
    rw [List.mem_cons, not_or] at h
    cases v with
    | nan => exact absurd rfl h.1
    | inf x => exact isProduct_inf_cons x (ih h.2)
    | fin e => exact isProduct_fin_cons e (ih h.2)

/-! ### A float cell (06 R135) -/

/-- The factors of the term `k` of a float cell. -/
def CellIn.factors (x : CellIn) (b : FmtBlock) (fa fbm : Fmt) (k : Nat) : List FVal :=
  [fa.value (x.a k), if b.asc then .fin (e3m5 (x.sa k)) else .fin ⟨false, 1, 0⟩, fbm.value (x.b k),
    if b.bsc then .fin (e3m5 (x.sb k)) else .fin ⟨false, 1, 0⟩, Fmt.bf16.value b.aband, Fmt.bf16.value x.bband]

/-- The signs of the infinities among an old cell and the terms. -/
def infSigns (old : FVal) (ts : List (Option FVal)) : List Bool :=
  (old :: ts.filterMap id).filterMap fun v => match v with | .inf n => some n | _ => none

/-- A sum with a finite term more. -/
def addTerm (a : Dy) : Option FVal → Dy
  | some (.fin y) => a.add .rn y
  | _ => a

/-- The exact sum of finite terms. -/
def termSum (ts : List (Option FVal)) : Dy := ts.foldl addTerm ⟨false, 0, 0⟩

/-- A NaN is among what a float cell uses. -/
def CellIn.nan (x : CellIn) (b : FmtBlock) (fa fbm : Fmt) (ks : List Nat) (old : FVal) : Bool :=
  Fmt.bf16.value b.aband == .nan || Fmt.bf16.value x.bband == .nan || old == .nan
    || ks.any fun k => fa.value (x.a k) == .nan || fbm.value (x.b k) == .nan

/-- A float cell has no value, for a scale byte, a term or the infinities of its terms. -/
def CellIn.invalid (x : CellIn) (b : FmtBlock) (fa fbm : Fmt) (ks : List Nat) (old : FVal) : Bool :=
  let ts := ks.map fun k => product (x.factors b fa fbm k)
  (ks.any fun k => (b.asc && x.sa k = 0xFF) || (b.bsc && x.sb k = 0xFF))
    || ts.contains none || ((infSigns old ts).contains true && (infSigns old ts).contains false)

theorem floatCell_eq (b : FmtBlock) (fa fbm : Fmt) (x : CellIn) (ks : List Nat) (acc : Nat) :
    floatCell b fa fbm x ks acc =
      let old := Fmt.f32.value acc
      let ts := ks.map fun k => product (x.factors b fa fbm k)
      if x.nan b fa fbm ks old then (Fmt.f32.canon, 8)
      else if x.invalid b fa fbm ks old then (Fmt.f32.canon, 16)
      else
        match infSigns old ts, old with
        | n :: _, _ => (infCode .f32 n, 0)
        | [], .fin d =>
          let r := roundDy .f32 .rn false (d.add .rn (termSum ts))
          (r.code, r.fl &&& 0b00101)
        | [], _ => (Fmt.f32.canon, 16) := rfl

theorem mem_infSigns {old : FVal} {ts : List (Option FVal)} {y : Bool} : y ∈ infSigns old ts ↔ old = .inf y ∨ some (.inf y) ∈ ts := by
  have hmatch (v : FVal) : (match v with | .inf n => some n | _ => none) = some y ↔ v = .inf y := by
    cases v <;> simp
  simp only [infSigns, List.mem_filterMap, List.mem_cons, hmatch]
  simp [eq_comm]

theorem CellIn.nan_iff {x : CellIn} {b : FmtBlock} {fa fbm : Fmt} {ks : List Nat} {old : FVal} : x.nan b fa fbm ks old = true ↔
    ((Fmt.bf16.value b.aband = .nan ∨ Fmt.bf16.value x.bband = .nan) ∨ old = .nan)
      ∨ ∃ k ∈ ks, fa.value (x.a k) = .nan ∨ fbm.value (x.b k) = .nan := by
  simp only [CellIn.nan, Bool.or_eq_true, beq_iff_eq, List.any_eq_true]

section
variable {x : CellIn} {b : FmtBlock} {fa fbm : Fmt} {ks : List Nat} {acc : Nat}

/-- An infinity of sign `y` is the old cell or a term. -/
def CellIn.Infinity (x : CellIn) (b : FmtBlock) (fa fbm : Fmt) (ks : List Nat) (old : FVal) (y : Bool) : Prop :=
  old = .inf y ∨ ∃ k ∈ ks, HasInf (x.factors b fa fbm k) ∧ ¬HasZero (x.factors b fa fbm k) ∧ signs (x.factors b fa fbm k) = y

theorem floatCell_of_nan (h : x.nan b fa fbm ks (Fmt.f32.value acc) = true) : floatCell b fa fbm x ks acc = (Fmt.f32.canon, 8) :=
  (floatCell_eq ..).trans (if_pos h)

variable (hx : ∀ k ∈ ks, FVal.nan ∉ x.factors b fa fbm k)
include hx

theorem mem_infSigns_terms {old : FVal} {y : Bool} :
    y ∈ infSigns old (ks.map fun k => product (x.factors b fa fbm k)) ↔ x.Infinity b fa fbm ks old y := by
  rw [mem_infSigns, List.mem_map, CellIn.Infinity]
  refine or_congr_right (exists_congr fun k => and_congr_right fun hk => ?_)
  obtain ⟨hnone, hinf, hfin⟩ := isProduct_product (hx k hk)
  by_cases hi : HasInf (x.factors b fa fbm k)
  · by_cases hz : HasZero (x.factors b fa fbm k)
    · simp [hnone hi hz, hz]
    · simp [hinf hi hz, hz, hi]
  · obtain ⟨d, hd, -⟩ := hfin hi
    simp [hd, hi]

theorem CellIn.invalid_iff {old : FVal} : x.invalid b fa fbm ks old = true ↔
    (∃ k ∈ ks, (b.asc = true ∧ x.sa k = 0xFF) ∨ (b.bsc = true ∧ x.sb k = 0xFF))
      ∨ (∃ k ∈ ks, HasInf (x.factors b fa fbm k) ∧ HasZero (x.factors b fa fbm k))
      ∨ (x.Infinity b fa fbm ks old true ∧ x.Infinity b fa fbm ks old false) := by
  have hnone : none ∈ ks.map (fun k => product (x.factors b fa fbm k)) ↔
      ∃ k ∈ ks, HasInf (x.factors b fa fbm k) ∧ HasZero (x.factors b fa fbm k) := by
    rw [List.mem_map]
    refine exists_congr fun k => and_congr_right fun hk => ?_
    obtain ⟨hnone, hinf, hfin⟩ := isProduct_product (hx k hk)
    by_cases hi : HasInf (x.factors b fa fbm k)
    · by_cases hz : HasZero (x.factors b fa fbm k)
      · simp [hnone hi hz, hz, hi]
      · simp [hinf hi hz, hz]
    · obtain ⟨d, hd, -⟩ := hfin hi
      simp [hd, hi]
  simp only [CellIn.invalid, Bool.or_eq_true, Bool.and_eq_true, List.contains_iff_mem, hnone, mem_infSigns_terms hx, List.any_eq_true,
    decide_eq_true_eq, or_assoc]

/-- Finite terms have their exact sum, which is no negative zero. -/
theorem termSum_spec (hfin : ∀ k ∈ ks, ¬HasInf (x.factors b fa fbm k)) :
    (termSum (ks.map fun k => product (x.factors b fa fbm k))).real = (ks.map fun k => ((x.factors b fa fbm k).map FVal.real).prod).sum
      ∧ ((termSum (ks.map fun k => product (x.factors b fa fbm k))).m = 0 →
          (termSum (ks.map fun k => product (x.factors b fa fbm k))).neg = false) := by
  have hfrom (a : Dy) (ha : a.m = 0 → a.neg = false) : ∀ d, (ks.map fun k => product (x.factors b fa fbm k)).foldl addTerm a = d →
      d.real = a.real + (ks.map fun k => ((x.factors b fa fbm k).map FVal.real).prod).sum ∧ (d.m = 0 → d.neg = false) := by
    rintro d rfl
    induction ks generalizing a with
    | nil => exact ⟨by simp, ha⟩
    | cons k ks ih =>
      obtain ⟨y, hy, hreal, -⟩ := (isProduct_product (hx k (by simp))).2.2 (hfin k (by simp))
      rw [List.map_cons, List.foldl_cons, hy, List.map_cons, List.sum_cons, ← hreal, ← add_assoc, ← Dy.real_add .rn]
      exact ih (fun j hj => hx j (by simp [hj])) (fun j hj => hfin j (by simp [hj])) _ (Dy.neg_add_rn (.inl ha))
  obtain ⟨hreal, hneg⟩ := hfrom ⟨false, 0, 0⟩ (fun _ => rfl) _ rfl
  refine ⟨hreal.trans ?_, hneg⟩
  simp [Dy.real]

section
variable (hnan : x.nan b fa fbm ks (Fmt.f32.value acc) = false)
include hnan

omit hx in
theorem floatCell_of_invalid (h : x.invalid b fa fbm ks (Fmt.f32.value acc) = true) :
    floatCell b fa fbm x ks acc = (Fmt.f32.canon, 16) := by
  rw [floatCell_eq]
  dsimp only
  rw [hnan, if_neg Bool.false_ne_true, if_pos h]

variable (hvalid : x.invalid b fa fbm ks (Fmt.f32.value acc) = false)
include hvalid

theorem floatCell_of_infinity {y : Bool} (h : x.Infinity b fa fbm ks (Fmt.f32.value acc) y) :
    floatCell b fa fbm x ks acc = (infCode .f32 y, 0) := by
  have hmem := (mem_infSigns_terms hx).mpr h
  have hone (n : Bool) (hn : n ∈ infSigns (Fmt.f32.value acc) (ks.map fun k => product (x.factors b fa fbm k))) : n = y := by
    have hn := (mem_infSigns_terms hx).mp hn
    by_contra hne
    obtain rfl : n = !y := Bool.eq_not.mpr hne
    refine Bool.eq_false_iff.mp hvalid ((CellIn.invalid_iff hx).mpr (.inr (.inr ?_)))
    cases y with
    | false => exact ⟨hn, h⟩
    | true => exact ⟨h, hn⟩
  rw [floatCell_eq]
  dsimp only
  rw [hnan, hvalid, if_neg Bool.false_ne_true, if_neg Bool.false_ne_true]
  cases hl : infSigns (Fmt.f32.value acc) (ks.map fun k => product (x.factors b fa fbm k)) with
  | nil =>
    rw [hl] at hmem
    cases hmem
  | cons n l =>
    rw [hone n (by simp [hl])]

theorem floatCell_of_finite (h : ∀ y, ¬x.Infinity b fa fbm ks (Fmt.f32.value acc) y) :
    ∃ d : Dy, d.real = (Fmt.f32.value acc).real + (ks.map fun k => ((x.factors b fa fbm k).map FVal.real).prod).sum
      ∧ (d.m = 0 → d.neg = false)
      ∧ floatCell b fa fbm x ks acc = ((roundDy .f32 .rn false d).code, (roundDy .f32 .rn false d).fl &&& 0b00101) := by
  have hfin (k : Nat) (hk : k ∈ ks) (hi : HasInf (x.factors b fa fbm k)) : False := by
    by_cases hz : HasZero (x.factors b fa fbm k)
    · exact Bool.eq_false_iff.mp hvalid ((CellIn.invalid_iff hx).mpr (.inr (.inl ⟨k, hk, hi, hz⟩)))
    · exact h _ (.inr ⟨k, hk, hi, hz, rfl⟩)
  obtain ⟨hsum, hneg⟩ := termSum_spec hx hfin
  have hnil : infSigns (Fmt.f32.value acc) (ks.map fun k => product (x.factors b fa fbm k)) = [] :=
    List.eq_nil_iff_forall_not_mem.mpr fun y hy => h y ((mem_infSigns_terms hx).mp hy)
  rw [floatCell_eq]
  dsimp only
  rw [hnan, hvalid, if_neg Bool.false_ne_true, if_neg Bool.false_ne_true, hnil]
  cases hold : Fmt.f32.value acc with
  | nan => exact absurd (CellIn.nan_iff.mpr (.inl (.inr hold))) (Bool.eq_false_iff.mp hnan)
  | inf y => exact absurd (.inl hold) (h y)
  | fin d => exact ⟨_, (Dy.real_add ..).trans (congrArg (d.real + ·) hsum), Dy.neg_add_rn (.inr hneg), rfl⟩

end

end

/-! ### An integer cell (06 R135) -/

theorem flIf_not_decide (p : Prop) [Decidable p] (fl : BitVec 5) : flIf (!decide p) fl = if p then 0 else fl := by
  by_cases h : p <;> simp [flIf, h]

/-- An integer cell is the old value plus the exact sum of the products, clamped or wrapped, with its event. -/
theorem intCell_spec (b : FmtBlock) (x : CellIn) (ks : List Nat) (acc : Nat) {e : Int}
    (he : e = natSext acc 32 + (ks.map fun k => natSext (x.a k) (mxBits b.afmt) * natSext (x.b k) (mxBits b.bfmt)).sum) :
    Ty.Pattern .si32 b.sat e (intCell b x ks acc).1
      ∧ (intCell b x ks acc).2 = (if -(2 ^ 31) ≤ e ∧ e < 2 ^ 31 then 0 else if b.sat then 2 else 4) := by
  have hsum : intCell b x ks acc =
      if b.sat then (intMod (Ty.si32.clamp e).1 32, flIf (Ty.si32.clamp e).2 2) else (intMod e 32, flIf (Ty.si32.clamp e).2 4) := by
    rw [he, List.sum_eq_foldl, List.foldl_map]
    rfl
  have hout : (Ty.si32.clamp e).2 = !decide (-(2 ^ 31) ≤ e ∧ e < 2 ^ 31) := by
    have hrange : Ty.si32.range = (-(2 ^ 31), 2 ^ 31 - 1) := rfl
    unfold Ty.clamp
    rw [hrange]
    dsimp only
    split
    · simp; omega
    · split
      · simp; omega
      · simp; omega
  have hpattern := pattern_intOut .si32 b.sat e
  rw [hsum, hout]
  cases hs : b.sat with
  | true =>
    rw [hs] at hpattern
    exact ⟨hpattern, flIf_not_decide _ 2⟩
  | false =>
    rw [hs] at hpattern
    exact ⟨hpattern, flIf_not_decide _ 4⟩

/-! ### The terms of a column (06 R135, R136) -/

theorem mem_terms_false {b : FmtBlock} {n k : Nat} : k ∈ b.terms false n ↔ k < b.depth := List.mem_range

/-- MMAB sums over the diagonal block of the column. -/
theorem mem_terms_true {b : FmtBlock} {n k : Nat} : k ∈ b.terms true n ↔ k / (if b.depth = 384 then 24 else 12) = n / 12 := by
  change k ∈ (List.range (if b.depth = 384 then 24 else 12)).map ((if b.depth = 384 then 24 else 12) * (n / 12) + ·) ↔ _
  have hw : 0 < if b.depth = 384 then 24 else 12 := by split <;> decide
  generalize (if b.depth = 384 then 24 else 12) = w at *
  simp only [List.mem_map, List.mem_range]
  constructor
  · rintro ⟨i, hi, rfl⟩
    rw [Nat.mul_add_div hw, Nat.div_eq_of_lt hi, Nat.add_zero]
  · intro h
    exact ⟨k % w, Nat.mod_lt k hw, by rw [← h, Nat.div_add_mod]⟩

end Sys2Proof.Machine
end

section
/-! SUPPORT. The family Matrix: the checks of a pass, its rows and status word, and the passes MMA and MMAB (06 R127 to R129, R134 to
R138; 24 R382, R383; 03 R74). -/

namespace Sys2Proof.Machine

/-! ### The checks of a pass (06 R128, R134; 24 R382) -/

/-- A format block breaks rule `r` of R128's table. -/
def FmtBlock.Broken (b : FmtBlock) (slot r : Nat) : Prop :=
  (r = 1 ∧ 7 ≤ b.afmt) ∨ (r = 2 ∧ 7 ≤ b.bfmt) ∨ (r = 3 ∧ b.blk = 3) ∨ (r = 4 ∧ ¬(b.afmt < 5 ↔ b.bfmt < 5))
    ∨ (r = 5 ∧ ((b.asc = true ∧ b.afmt ∉ [2, 3, 4]) ∨ (b.bsc = true ∧ b.bfmt ∉ [2, 3, 4])))
    ∨ (r = 6 ∧ ((b.afmt = 4 ∧ b.asc = false) ∨ (b.bfmt = 4 ∧ b.bsc = false)))
    ∨ (r = 7 ∧ (b.afmt = 4 ∨ b.bfmt = 4) ∧ b.blk ≠ 0) ∨ (r = 8 ∧ b.bfmt < 2 ∧ slot % 2 = 1)

/-- The least number with a property, if any has it. -/
def LeastWith (p : Nat → Prop) : Option Nat → Prop
  | some r => p r ∧ ∀ q, q < r → ¬p q
  | none => ∀ r, ¬p r

/-- A search through the numbers in order. -/
theorem leastWith_ite {p : Nat → Prop} {i : Nat} {c : Prop} [Decidable c] {o : Option Nat} (hc : p i ↔ c) (hlow : ∀ q, q < i → ¬p q)
    (hrest : (∀ q, q < i + 1 → ¬p q) → LeastWith p o) : LeastWith p (if c then some i else o) := by
  split
  · exact ⟨hc.mpr ‹_›, hlow⟩
  · refine hrest fun q hq => ?_
    rcases Nat.lt_succ_iff_lt_or_eq.mp hq with hq | rfl
    · exact hlow q hq
    · exact hc.not.mpr ‹_›

theorem LeastWith.eq_some {p : Nat → Prop} {o : Option Nat} (h : LeastWith p o) {r : Nat} (hr : p r) (hlow : ∀ q, q < r → ¬p q) : o = some r := by
  cases o with
  | none => exact absurd hr (h r)
  | some i =>
    rcases Nat.lt_trichotomy i r with hlt | rfl | hgt
    · exact absurd h.1 (hlow i hlt)
    · rfl
    · exact absurd hr (h.2 r hgt)

theorem LeastWith.eq_none {p : Nat → Prop} {o : Option Nat} (h : LeastWith p o) (hp : ∀ r, ¬p r) : o = none := by
  cases o with
  | none => rfl
  | some i => exact absurd h.1 (hp i)

/-- The reason is the least rule that is broken. -/
theorem FmtBlock.leastWith_reason (b : FmtBlock) (slot : Nat) : LeastWith (b.Broken slot) (b.reason slot) := by
  unfold FmtBlock.reason
  refine leastWith_ite (by simp [FmtBlock.Broken]) (fun q hq => ?_) fun h => ?_
  · obtain rfl : q = 0 := by omega
    simp [FmtBlock.Broken]
  refine leastWith_ite (by simp [FmtBlock.Broken]) h fun h => ?_
  refine leastWith_ite (by simp [FmtBlock.Broken]) h fun h => ?_
  refine leastWith_ite (by simp [FmtBlock.Broken]) h fun h => ?_
  refine leastWith_ite (by simp [FmtBlock.Broken, mxScales, and_assoc]) h fun h => ?_
  refine leastWith_ite (by simp [FmtBlock.Broken]) h fun h => ?_
  refine leastWith_ite (by simp [FmtBlock.Broken]) h fun h => ?_
  refine leastWith_ite (by simp [FmtBlock.Broken]) h fun h r hr => ?_
  have h9 : r < 9 := by
    unfold FmtBlock.Broken at hr
    omega
  exact h r h9 hr

section
variable {s : State} {c : Crew} {b : FmtBlock} {f : FmtA} (i : Nat)

theorem passFault_of_broken {r : Nat} (hr : b.Broken f.b.toNat r) (hlow : ∀ q, q < r → ¬b.Broken f.b.toNat q) :
    passFault s c b f i = some (0x0E, r) := by
  rw [passFault, (b.leastWith_reason f.b.toNat).eq_some hr hlow]

theorem passFault_of_sound (h : ∀ r, ¬b.Broken f.b.toNat r) : passFault s c b f i =
    (c.nameFault i (passOps b f)).or
      (if c.k ≤ f.d.toNat then some (0x0D, 0)
      else if s.slotsOf c ≤ f.b.toNat + (if b.bfmt < 2 then 1 else 0) then some (0x0D, 1) else none) := by
  rw [passFault, (b.leastWith_reason f.b.toNat).eq_none h]
  cases c.nameFault i (passOps b f) <;> rfl

end

/-- A format of four bits. -/
theorem mxBits_eq_four {x : Nat} : mxBits x = 4 ↔ (x == 4 || x == 6) = true := by
  unfold mxBits
  simp only [Bool.or_eq_true, beq_iff_eq, decide_eq_true_eq]
  split
  · omega
  · split <;> omega

theorem FmtBlock.depth_eq (b : FmtBlock) :
    b.depth = if (b.afmt == 4 || b.afmt == 6) && (b.bfmt == 4 || b.bfmt == 6) then 384 else 192 := by
  unfold FmtBlock.depth
  refine if_congr ?_ rfl rfl
  rw [Bool.and_eq_true, Bool.and_eq_true, decide_eq_true_iff, decide_eq_true_iff, mxBits_eq_four, mxBits_eq_four]

/-- The registers of A, by its format. -/
theorem FmtBlock.aRegs_eq (b : FmtBlock) :
    b.aRegs = b.depth / (if (b.afmt == 4 || b.afmt == 6) = true then 8 else if b.afmt < 2 then 2 else 4) := by
  unfold FmtBlock.aRegs
  by_cases h4 : (b.afmt == 4 || b.afmt == 6) = true
  · rw [mxBits_eq_four.mpr h4, if_pos h4]
    omega
  · have hbits : mxBits b.afmt = if b.afmt < 2 then 16 else 8 := by
      unfold mxBits
      refine if_congr Iff.rfl rfl (if_neg ?_)
      simpa using h4
    rw [if_neg h4, hbits]
    split <;> omega

theorem FmtBlock.scaleRegs_eq (b : FmtBlock) : b.scaleRegs = (b.depth + 32 * 2 ^ b.blk - 1) / (32 * 2 ^ b.blk) := by
  have h : 4 * b.len = 32 * 2 ^ b.blk := by
    unfold FmtBlock.len
    ring
  rw [FmtBlock.scaleRegs, ceilDiv, h]

/-! ### The rows and the status word of a pass (06 R131, R135) -/

/-- Status words where a pass with a row has set the band of accumulator `a`. -/
def bandStat (a row0 : Nat) (lanes : List Nat) (v : Sparse 32) : Sparse 32 :=
  if lanes.isEmpty then v
  else sset v a ((sget v a &&& ~~~(BitVec.ofNat 32 (63 * 2 ^ 16))) ||| BitVec.ofNat 32 (row0 * 2 ^ 16))

section
variable {a row0 : Nat} {lanes : List Nat} (v : Sparse 32)

theorem sget_bandStat_of_ne {x : Nat} (h : x ≠ a) : sget (bandStat a row0 lanes v) x = sget v x := by
  unfold bandStat
  split
  · rfl
  · exact sget_sset_of_ne _ _ h

theorem mbit_bandMask {j : Nat} (hj : j < 32) : mbit (BitVec.ofNat 32 (63 * 2 ^ 16)) j = decide (16 ≤ j ∧ j < 22) := by
  revert j
  decide

theorem mbit_band {j : Nat} (hj : j < 32) : mbit (BitVec.ofNat 32 (row0 * 2 ^ 16)) j = (decide (16 ≤ j) && row0.testBit (j - 16)) := by
  rw [mbit, BitVec.getLsbD_ofNat, decide_eq_true hj, Bool.true_and, Nat.testBit_mul_two_pow]

/-- The band alone of the word changes. -/
theorem mbit_bandStat_of_outside (hrow : row0 < 64) {j : Nat} (h : ¬(16 ≤ j ∧ j < 22)) :
    mbit (sget (bandStat a row0 lanes v) a) j = mbit (sget v a) j := by
  unfold bandStat
  split
  · rfl
  by_cases hj : j < 32
  · rw [sget_sset_self, mbit_or, mbit_and_not _ _ hj, mbit_bandMask hj, mbit_band hj, decide_eq_false h]
    by_cases h16 : 16 ≤ j
    · have hbit : row0.testBit (j - 16) = false :=
        Nat.testBit_lt_two_pow (hrow.trans_le (Nat.pow_le_pow_right (i := 6) Nat.two_pos (by omega)))
      simp [hbit]
    · simp [h16]
  · rw [mbit, mbit, BitVec.getLsbD_of_ge _ _ (by omega), BitVec.getLsbD_of_ge _ _ (by omega)]

/-- With an active lane the band is ROW0. -/
theorem extract_bandStat (hrow : row0 < 64) (h : lanes ≠ []) :
    ((sget (bandStat a row0 lanes v) a).extractLsb' 16 6).toNat = row0 := by
  have hband : (sget (bandStat a row0 lanes v) a).extractLsb' 16 6 = BitVec.ofNat 6 row0 := by
    refine BitVec.eq_of_getLsbD_eq fun j hj => ?_
    rw [bandStat, if_neg (by simpa using h), sget_sset_self, BitVec.getLsbD_extractLsb', decide_eq_true hj, Bool.true_and]
    change mbit _ (16 + j) = _
    rw [mbit_or, mbit_and_not _ _ (by omega), mbit_bandMask (by omega), mbit_band (by omega), decide_eq_true (by omega : 16 ≤ 16 + j ∧ 16 + j < 22)]
    rw [BitVec.getLsbD_ofNat]
    simp [hj]
  rw [hband, BitVec.toNat_ofNat, Nat.mod_eq_of_lt hrow]

end

/-- The cell of a pass in a lane and column. -/
def Crew.cell (c : Crew) (s : State) (b : FmtBlock) (diagonal : Bool) (f : FmtA) (l n : Nat) : Nat × BitVec 5 :=
  passCell s (c.partyId.getD 0) b diagonal f.b.toNat (passRow c b f l) n (sget c.acc (accKey f.d.toNat l n)).toNat

/-- The rows of a pass, cell by cell. -/
def Crew.withRows (c : Crew) (s : State) (b : FmtBlock) (diagonal : Bool) (f : FmtA) (lanes : List Nat) (r : Crew) : Crew :=
  lanes.foldl (fun r l => (List.range 192).foldl (fun r n =>
    { (r.orStat f.d.toNat (c.cell s b diagonal f l n).2) with
      acc := sset r.acc (accKey f.d.toNat l n) (BitVec.ofNat 32 (c.cell s b diagonal f l n).1) }) r) r

section
variable (s : State) (c : Crew) (b : FmtBlock) (diagonal : Bool) (f : FmtA) (lanes : List Nat)

theorem Crew.withRows_eq (r : Crew) : c.withRows s b diagonal f lanes r = { r with
    acc := ssetAll r.acc (accCells f.d.toNat lanes (List.range 192) id fun l n => BitVec.ofNat 32 (c.cell s b diagonal f l n).1)
    astat := orAll f.d.toNat r.astat (lanes.flatMap fun l => (List.range 192).map fun n => (c.cell s b diagonal f l n).2) } := by
  unfold Crew.withRows
  induction lanes generalizing r with
  | nil => rfl
  | cons l lanes ih =>
    rw [List.foldl_cons, foldl_orStat_sset, ih]
    simp [accCells, ssetAll_append, orAll, List.foldl_append]

/-- What a pass writes: its cells, and the status word of its accumulator. -/
theorem passRows_eq : passRows s c (c.partyId.getD 0) b diagonal f lanes = { c with
    acc := ssetAll c.acc (accCells f.d.toNat lanes (List.range 192) id fun l n => BitVec.ofNat 32 (c.cell s b diagonal f l n).1)
    astat := bandStat f.d.toNat b.row0 lanes
      (orAll f.d.toNat c.astat (lanes.flatMap fun l => (List.range 192).map fun n => (c.cell s b diagonal f l n).2)) } := by
  have hdef : passRows s c (c.partyId.getD 0) b diagonal f lanes =
      if lanes.isEmpty then c.withRows s b diagonal f lanes c
      else { c.withRows s b diagonal f lanes c with
        astat := sset (c.withRows s b diagonal f lanes c).astat f.d.toNat
          ((sget (c.withRows s b diagonal f lanes c).astat f.d.toNat &&& ~~~(BitVec.ofNat 32 (63 * 2 ^ 16)))
            ||| BitVec.ofNat 32 (b.row0 * 2 ^ 16)) } := rfl
  rw [hdef, Crew.withRows_eq]
  unfold bandStat
  split <;> rfl

end

/-! ### MMA and MMAB (06 R134, R135, R137, R138; 03 R74) -/

/-- The format block that a pass reads (06 R127). -/
def Crew.block (c : Crew) (f : FmtA) : FmtBlock := fmtBlock (c.sreg (if f.p.cp then f.p.c.toNat else 126)).toNat

/-- The slices of a pass: the gang's and those that wait at it for one of them (03 R74). -/
def Crew.passSlices (c : Crew) (iss : Issue) : List Nat := slices8.filter fun i =>
  decide (i ∈ iss.slices ∨ (i ∈ c.liveSlices ∧ (c.slice i).pc = iss.pc ∧ (c.slice i).pend = none
    ∧ ∃ o ∈ iss.slices, (c.slice i).wait = .matrix o))

theorem Crew.passSlices_nodup (c : Crew) (iss : Issue) : (c.passSlices iss).Nodup := List.nodup_range.filter _

theorem mem_passWaiters {c : Crew} {iss : Issue} {i : Nat} : i ∈ passWaiters c iss ↔
    i ∈ c.liveSlices ∧ (c.slice i).pc = iss.pc ∧ (c.slice i).pend = none ∧ ∃ o ∈ iss.slices, (c.slice i).wait = .matrix o := by
  rw [passWaiters, List.mem_filter, Bool.and_eq_true, Bool.and_eq_true, beq_iff_eq, Option.isNone_iff_eq_none, and_assoc]
  refine and_congr_right fun _ => and_congr_right fun _ => and_congr_right fun _ => ?_
  cases (c.slice i).wait <;> simp

theorem passSlices_eq (c : Crew) (iss : Issue) :
    (slices8.filter fun i => iss.slices.contains i || (passWaiters c iss).contains i) = c.passSlices iss := by
  refine List.filter_congr fun i _ => ?_
  rw [List.contains_eq_mem, List.contains_eq_mem, ← Bool.decide_or]
  exact decide_eq_decide.mpr (or_congr_right mem_passWaiters)

/-- The crew after a pass whose checks have passed. -/
def Crew.afterPass (c : Crew) (s : State) (diagonal : Bool) (f : FmtA) (is : List Nat) (len : Nat) : Crew :=
  let b := c.block f
  let lanes := c.activeIn is
  { c with
    acc := ssetAll c.acc (accCells f.d.toNat lanes (List.range 192) id fun l n => BitVec.ofNat 32 (c.cell s b diagonal f l n).1)
    astat := bandStat f.d.toNat b.row0 lanes
      (orAll f.d.toNat c.astat (lanes.flatMap fun l => (List.range 192).map fun n => (c.cell s b diagonal f l n).2))
    xofs := (c.postAdvance lanes (passOps b f)).xofs
    cnt := { c.cnt with matrix := c.cnt.matrix + 1 }
    passes := c.passes ++ [{ acc := f.d.toNat, reads := (passOps b f).map c.pendOf }]
    slices := advSlices c.slices is len }

theorem exec_pass (diagonal : Bool) (f : FmtA) (s : State) :
    exec (if diagonal then .mmab f else .mma f) s = matrixPass diagonal f s := by
  cases diagonal <;> rfl

section
variable {s : State} {iss : Issue} {c : Crew} (hi : s.issue = some iss) (hc : aget s.crews iss.crew = some c) (diagonal : Bool) (f : FmtA)
include hi hc

theorem matrixPass_of_full (h : c.cnt.matrix = 63) : matrixPass diagonal f s =
    .next (s.taken.setCrew iss.crew (c.modSlices iss.slices fun sl => { sl with wait := .count 2 62 })) := by
  have hct : aget s.taken.crews iss.crew = some c := hc
  rw [matrixPass, withIssue_of hi]
  dsimp only
  rw [State.crew_of_aget hct, if_pos h, State.modCrew_of_aget hct]

variable (hcnt : c.cnt.matrix ≠ 63)
include hcnt

theorem matrixPass_of_fault {i code info : Nat}
    (h : (c.passSlices iss).findSome? (fun i => (passFault s c (c.block f) f i).map fun t => (i, t)) = some (i, code, info)) :
    matrixPass diagonal f s = .next ((s.taken.setCrew iss.crew
      (c.modSlices ((c.passSlices iss).filter fun j => j ≠ i) fun sl => { sl with wait := .matrix i })).raise iss.crew i (iss.trap code info 0)) := by
  have hct : aget s.taken.crews iss.crew = some c := hc
  rw [matrixPass, withIssue_of hi]
  dsimp only
  have hfind : (c.passSlices iss).findSome? (fun i => (passFault s.taken c (c.block f) f i).map fun t => (i, t)) = some (i, code, info) := h
  rw [State.crew_of_aget hct, if_neg hcnt, passSlices_eq, ← Crew.block, hfind]
  dsimp only
  rw [State.modCrew_of_aget hct]

theorem matrixPass_of_sound (h : ∀ i ∈ c.passSlices iss, passFault s c (c.block f) f i = none) :
    matrixPass diagonal f s = .next (s.taken.setCrew iss.crew (c.afterPass s diagonal f (c.passSlices iss) iss.len)) := by
  have hct : aget s.taken.crews iss.crew = some c := hc
  rw [matrixPass, withIssue_of hi]
  dsimp only
  have hfind : (c.passSlices iss).findSome? (fun i => (passFault s.taken c (c.block f) f i).map fun t => (i, t)) = none :=
    List.findSome?_eq_none_iff.mpr fun i hi => congrArg (Option.map _) (h i hi)
  rw [State.crew_of_aget hct, if_neg hcnt, passSlices_eq, ← Crew.block, hfind]
  dsimp only
  rw [passRows_eq, postAdvance_eq, advance_slices]
  simp only [Crew.afterPass, postAdvance_eq]
  rfl

end

/-! ### What a pass writes (06 R131, R135) -/

theorem fmtBlock_row0_lt (w : Nat) : (fmtBlock w).row0 < 64 := Nat.mod_lt _ (by decide)

section
variable (c : Crew) (s : State) (diagonal : Bool) (f : FmtA) {is : List Nat} (len : Nat)

theorem Crew.sget_acc_afterPass (hn : is.Nodup) {l n : Nat} (hl : l ∈ c.activeIn is) (h192 : n < 192) :
    sget (c.afterPass s diagonal f is len).acc (accKey f.d.toNat l n) = BitVec.ofNat 32 (c.cell s (c.block f) diagonal f l n).1 :=
  sget_accCells (col := id) _ _ (activeIn_nodup c hn) List.nodup_range (fun _ h => List.mem_range.mp h) (fun _ _ _ _ h => h) hl
    (List.mem_range.mpr h192)

theorem Crew.sget_acc_afterPass_of_ne {k : Nat} (h : ∀ l ∈ c.activeIn is, ∀ n, n < 192 → k ≠ accKey f.d.toNat l n) :
    sget (c.afterPass s diagonal f is len).acc k = sget c.acc k :=
  sget_accCells_of_ne _ _ fun l hl n hn => h l hl n (List.mem_range.mp hn)

/-- Outside its band the status word gets the events of the cells. -/
theorem Crew.mbit_astat_afterPass {j : Nat} (hj : j < 32) (hband : ¬(16 ≤ j ∧ j < 22)) :
    mbit (sget (c.afterPass s diagonal f is len).astat f.d.toNat) j = true ↔
      mbit (sget c.astat f.d.toNat) j = true
        ∨ ∃ l ∈ c.activeIn is, ∃ n, n < 192 ∧ mbit (c.cell s (c.block f) diagonal f l n).2 j = true := by
  have hrow : (c.block f).row0 < 64 := fmtBlock_row0_lt _
  unfold Crew.afterPass
  dsimp only
  rw [mbit_bandStat_of_outside _ hrow hband, mbit_orAll _ _ _ hj]
  simp only [List.mem_flatMap, List.mem_map, List.mem_range]
  refine or_congr_right ⟨?_, ?_⟩
  · rintro ⟨ev, ⟨l, hl, n, hn, rfl⟩, hbit⟩
    exact ⟨l, hl, n, hn, hbit⟩
  · rintro ⟨l, hl, n, hn, hbit⟩
    exact ⟨_, ⟨l, hl, n, hn, rfl⟩, hbit⟩

/-- A cell has five events. -/
theorem Crew.mbit_astat_afterPass_of_le {j : Nat} (h5 : 5 ≤ j) (hband : ¬(16 ≤ j ∧ j < 22)) :
    mbit (sget (c.afterPass s diagonal f is len).astat f.d.toNat) j = mbit (sget c.astat f.d.toNat) j := by
  by_cases hj : j < 32
  · rw [Bool.eq_iff_iff, c.mbit_astat_afterPass s diagonal f len hj hband]
    refine or_iff_left fun ⟨l, _, n, _, hbit⟩ => ?_
    rw [mbit, BitVec.getLsbD_of_ge _ _ h5] at hbit
    cases hbit
  · rw [mbit, mbit, BitVec.getLsbD_of_ge _ _ (by omega), BitVec.getLsbD_of_ge _ _ (by omega)]

theorem Crew.sget_astat_afterPass_of_ne {x : Nat} (h : x ≠ f.d.toNat) :
    sget (c.afterPass s diagonal f is len).astat x = sget c.astat x :=
  (sget_bandStat_of_ne _ h).trans (sget_orAll_of_ne h ..)

theorem Crew.offsetsMoved_afterPass (hn : is.Nodup) :
    c.OffsetsMoved (c.afterPass s diagonal f is len) (c.activeIn is) (passOps (c.block f) f) :=
  offsetsMoved_postAdvance c (activeIn_nodup c hn) (fun _ hl => active_lt (mem_activeIn.mp hl).2) _

end

/-! ### The cells of a pass -/

/-- The elements and scales of a cell. -/
def passIn (s : State) (pa : Nat) (b : FmtBlock) (slot : Nat) (row : Nat × Nat) (n : Nat) : CellIn :=
  { a := rowItem row.1 (mxBits b.afmt), b := fun k => bElem s pa b.bfmt slot k n
    sa := fun k => rowItem row.2 8 (k / b.len), sb := fun k => bScale s pa slot n (k / b.len), bband := bBand s pa slot n }

section
variable (s : State) (pa : Nat) {b : FmtBlock} (diagonal : Bool) (slot : Nat) (row : Nat × Nat) (n old : Nat)

theorem mxFmt_of_le : ∀ {x : Nat}, 5 ≤ x → mxFmt x = none
  | _ + 5, _ => rfl

theorem passCell_of_int (ha : 5 ≤ b.afmt) :
    passCell s pa b diagonal slot row n old = intCell b (passIn s pa b slot row n) (b.terms diagonal n) old := by
  rw [passCell, mxFmt_of_le ha]
  rfl

theorem passCell_of_float {fa fbm : Fmt} (ha : mxFmt b.afmt = some fa) (hb : mxFmt b.bfmt = some fbm) :
    passCell s pa b diagonal slot row n old = floatCell b fa fbm (passIn s pa b slot row n) (b.terms diagonal n) old := by
  rw [passCell, ha, hb]
  rfl

end

section
variable (x : CellIn) (b : FmtBlock) (fa fbm : Fmt) (k : Nat)

theorem CellIn.a_mem_factors : fa.value (x.a k) ∈ x.factors b fa fbm k := List.mem_cons_self

theorem CellIn.b_mem_factors : fbm.value (x.b k) ∈ x.factors b fa fbm k :=
  List.mem_cons_of_mem _ (List.mem_cons_of_mem _ List.mem_cons_self)

end

/-- Rounding a sum once gives its cell: zero for zero, else what R135's rounding allows. -/
theorem roundDy_cell {d : Dy} (hneg : d.m = 0 → d.neg = false) :
    (d.real = 0 → ((roundDy .f32 .rn false d).code, (roundDy .f32 .rn false d).fl &&& 0b00101) = (0, 0))
      ∧ (d.real ≠ 0 → Fmt.f32.Rounded .rn false d.real (roundDy .f32 .rn false d)) := by
  refine ⟨fun h => ?_, fun h => roundDy_rounded (Fmt.sound_of_mem (by decide)) .rn false (mt Dy.real_eq_zero.mpr h)⟩
  have hm := Dy.real_eq_zero.mp h
  rw [roundDy_zero .f32 .rn false hm, hneg hm]
  rfl

/-- Settles O38: the pass by what it writes, its checks in order, its cells by what is among their inputs. -/
theorem matrixPasses : Obligations.MatrixPasses := by
  unfold Obligations.MatrixPasses
  intro fb all
  refine ⟨fun diagonal f s iss c hi hc hcnt hsound => ?pass, fun s c b f i => ?checks, fun s pa b diagonal slot row n old ha hb _ => ?int,
    fun s pa b diagonal slot row n old fa fbm ha hb hnan => ?nan, fun s pa b diagonal slot row n old fa fbm ha hb => ?float,
    fun b n k => ⟨mem_terms_false, mem_terms_true⟩, fun diagonal f s iss c hi hc => ⟨fun hfull => ?full, fun i code info hcnt hfind => ?fault⟩⟩
  case pass =>
    intro a lanes cell
    have hn : (all c iss).Nodup := c.passSlices_nodup iss
    refine ⟨c.afterPass s diagonal f (all c iss) iss.len,
      onlyCrew_of ((exec_pass diagonal f s).trans (matrixPass_of_sound hi hc diagonal f hcnt hsound)),
      fun l hl n => c.sget_acc_afterPass s diagonal f iss.len hn hl, fun k => c.sget_acc_afterPass_of_ne s diagonal f iss.len,
      fun j hj => c.mbit_astat_afterPass s diagonal f iss.len (by omega) (by omega),
      fun hl hrow => extract_bandStat _ hrow hl, fun j => c.mbit_astat_afterPass_of_le s diagonal f iss.len,
      fun x => c.sget_astat_afterPass_of_ne s diagonal f iss.len, rfl, c.offsetsMoved_afterPass s diagonal f iss.len hn,
      moved_advSlices c hn iss.len _ rfl, ⟨_, rfl, rfl, rfl⟩, rfl⟩
  case checks =>
    intro four broken
    refine ⟨fun r => passFault_of_broken i, fun h => ?_⟩
    intro depth na ns ops slots
    have hops : passOps b f = ops := by
      rw [passOps, FmtBlock.aRegs_eq, FmtBlock.scaleRegs_eq, FmtBlock.depth_eq]
    refine ⟨hops, (passFault_of_sound i h).trans ?_⟩
    rw [hops]
    cases c.nameFault i ops <;> rfl
  case int =>
    intro x y e
    rw [passCell_of_int s pa diagonal slot row n old ha]
    exact intCell_spec b _ _ old rfl
  case nan =>
    rw [passCell_of_float s pa diagonal slot row n old ha hb]
    refine floatCell_of_nan (CellIn.nan_iff.mpr ?_)
    rcases hnan with h | h | h | h
    · exact .inl (.inr h)
    · exact .inl (.inl (.inl h))
    · exact .inl (.inl (.inr h))
    · exact .inr h
  case float =>
    intro ks one factors minus value zero endless sign hasInf invalid x cell hold hnan haband hbband
    have hminus : minus = FVal.neg := by funext v; cases v <;> rfl
    have hvalue : value = FVal.real := by funext v; cases v <;> rfl
    have hinf : hasInf = (passIn s pa b slot row n).Infinity b fa fbm ks (Fmt.f32.value old) := by
      funext z
      simp only [hasInf, sign, hminus]
      rfl
    have hinvalid : (passIn s pa b slot row n).invalid b fa fbm ks (Fmt.f32.value old) = true ↔ invalid := by
      rw [CellIn.invalid_iff hnan, ← hinf]
      rfl
    have hnumber : (passIn s pa b slot row n).nan b fa fbm ks (Fmt.f32.value old) = false := by
      refine Bool.eq_false_iff.mpr fun h => ?_
      rcases CellIn.nan_iff.mp h with ((h | h) | h) | ⟨k, hk, h | h⟩
      · exact haband h
      · exact hbband h
      · exact hold h
      · exact hnan k hk (h ▸ CellIn.a_mem_factors _ b fa fbm k)
      · exact hnan k hk (h ▸ CellIn.b_mem_factors _ b fa fbm k)
    have hcell : cell = floatCell b fa fbm (passIn s pa b slot row n) ks old := passCell_of_float s pa diagonal slot row n old ha hb
    have hvalid (h : ¬invalid) : (passIn s pa b slot row n).invalid b fa fbm ks (Fmt.f32.value old) = false :=
      Bool.eq_false_iff.mpr (mt hinvalid.mp h)
    have hfinite (h : ¬invalid) (hno : ∀ z, ¬hasInf z) : ∃ d : Dy, d.real = x ∧ (d.m = 0 → d.neg = false)
        ∧ cell = ((roundDy .f32 .rn false d).code, (roundDy .f32 .rn false d).fl &&& 0b00101) := by
      have hsum : x = (Fmt.f32.value old).real
          + (ks.map fun k => (((passIn s pa b slot row n).factors b fa fbm k).map FVal.real).prod).sum := by
        simp only [x, hvalue]
        rfl
      rw [hcell, hsum]
      exact floatCell_of_finite hnan hnumber (hvalid h) (hinf ▸ hno)
    refine ⟨fun h => ?_, fun z h hz => ?_, fun h hno hx => ?_, fun h hno hx => ?_⟩
    · exact hcell.trans (floatCell_of_invalid hnumber (hinvalid.mpr h))
    · exact hcell.trans (floatCell_of_infinity hnan hnumber (hvalid h) (hinf ▸ hz))
    · obtain ⟨d, hd, hneg, hr⟩ := hfinite h hno
      exact hr.trans ((roundDy_cell hneg).1 (hd.trans hx))
    · obtain ⟨d, hd, hneg, hr⟩ := hfinite h hno
      exact ⟨_, hd ▸ (roundDy_cell hneg).2 (hd.trans_ne hx), hr⟩
  case full =>
    refine ⟨_, onlyCrew_of ((exec_pass diagonal f s).trans (matrixPass_of_full hi hc diagonal f hfull)), fun j => ?_, ?_⟩
    · exact c.slice_modSlices _ _ iss.slices_nodup j
    · rw [Crew.modSlices_eq]
  case fault =>
    refine ⟨_, (exec_pass diagonal f s).trans (matrixPass_of_fault hi hc diagonal f hcnt hfind), fun j => ?_, ?_⟩
    · rw [c.slice_modSlices _ _ ((c.passSlices_nodup iss).filter _)]
      refine if_congr ?_ rfl rfl
      rw [List.mem_filter, decide_eq_true_iff, and_assoc]
      rfl
    · rw [Crew.modSlices_eq]

end Sys2Proof.Machine
end
